-- ==== Sys2Proof/Word.lean ====
section
/-! DEFINITION. The words of the machine: a 64-bit scalar word, a byte, and the sparse map that every large store of the
model is held in (memory, register files, tables). -/

namespace Sys2Proof

/-- A scalar register's value, a pointer, an instruction word (R8, R15). -/
abbrev Word := BitVec 64

/-- The smallest addressable unit of every memory space (R8). -/
abbrev Byte := BitVec 8

/-- A store from keys to values: keys strictly rising, and no key listed with the value an unlisted key reads as. -/
abbrev SMap (α : Type) := List (Nat × α)

end Sys2Proof
end

