-- ==== Sys2Proof/Machine/Bits.lean ====
section
/-! DEFINITION. Bit-field, sign and byte-order helpers (R8, R10). -/

namespace Sys2Proof

/-- Bits `lo` to `lo + n - 1` of a number. -/
def natBits (x lo n : Nat) : Nat := (x >>> lo) % 2 ^ n

/-- Bits `lo` to `lo + n - 1` of a vector, as a number. -/
def fld {w : Nat} (x : BitVec w) (lo n : Nat) : Nat := natBits x.toNat lo n

/-- The number whose little-endian bytes are given (R8). -/
def leNat : List Byte → Nat
  | [] => 0
  | b :: bs => b.toNat + 256 * leNat bs

/-- The `n` little-endian bytes of a number (R8). -/
def natBytes : Nat → Nat → List Byte
  | 0, _ => []
  | n + 1, v => BitVec.ofNat 8 v :: natBytes n (v / 256)

/-- The value of the low `n` bits read as a two's-complement number. -/
def sextNat (x n : Nat) : Int :=
  let y := x % 2 ^ n
  if n ≠ 0 ∧ 2 ^ (n - 1) ≤ y then (y : Int) - (2 ^ n : Nat) else y

/-- An integer mod 2^n. -/
def wrapInt (n : Nat) (x : Int) : Nat := (x % (2 ^ n : Nat)).toNat

/-- How many bits a number needs. -/
def bitLen (x : Nat) : Nat := if x = 0 then 0 else Nat.log2 x + 1

/-- `0, 1, …, n - 1`. -/
def upTo (n : Nat) : List Nat := List.range n

/-- The number with `x` in bits `lo` upwards. -/
def atBit (x lo : Nat) : Nat := x <<< lo

/-- The number of ones among the low `n` bits. -/
def onesBelow (x : Nat) : Nat → Nat
  | 0 => 0
  | n + 1 => onesBelow x n + (if x.testBit n then 1 else 0)

/-- A Bool as a number. -/
def bitNat (b : Bool) : Nat := if b then 1 else 0

/-- Fields of a pointer (R56). -/
def ptrIndex (p : Word) : Nat := (p >>> 48).toNat
def ptrOffset (p : Word) : Nat := (p &&& 0xFFFFFFFFFFFF).toNat
/-- A pointer from its fields (R56). -/
def mkPtr (index offset : Nat) : Word := BitVec.ofNat 64 (index * 2 ^ 48 + offset % 2 ^ 48)

/-- The pointer with the same index and another offset. -/
def ptrAt (p : Word) (offset : Nat) : Word := mkPtr (ptrIndex p) offset

end Sys2Proof
end

