-- ==== Sys2Proof/Machine/Flags.lean ====
section
/-! DEFINITION. The conditions that compare words write into the predicate file (R176). The machine has no other flags: completion words
(R244, R245) are formed in Launch.lean, tags and counts with the words they belong to. -/

namespace Sys2Proof.Machine

/-- R176: the conditions, in `FN` order. -/
inductive Cond where
  | eq | ne | lt | le | ltu | leu
deriving DecidableEq, Repr

/-- R176: EQ and NE compare patterns, LT and LE signed values, LTU and LEU unsigned values. -/
def Cond.holds (cc : Cond) (x y : Word) : Bool :=
  match cc with
  | .eq => x == y
  | .ne => x != y
  | .lt => x.slt y
  | .le => x.sle y
  | .ltu => x.ult y
  | .leu => x.ule y

end Sys2Proof.Machine
end

