-- ==== Sys2Proof/Machine/Aes.lean ====
section
/-! DEFINITION. AES-256 and XTS, the cipher of the memory-side cache (R357): FIPS-197 and IEEE 1619, which the spec names and does not
restate (log entry 82). Bytes are numbers below 256; a block is 16 of them, column by column. -/

namespace Sys2Proof.Aes

/-- Doubling in the field of AES. -/
def xtime (a : Nat) : Nat := if a < 128 then 2 * a else (2 * a) ^^^ 0x11B

/-- The product of two field elements, over the lowest `n` bits of `b`. -/
def mulBits : Nat → Nat → Nat → Nat
  | 0, _, _ => 0
  | n + 1, a, b => (if b % 2 = 1 then a else 0) ^^^ mulBits n (xtime a) (b / 2)

def mul (a b : Nat) : Nat := mulBits 8 a b

/-- The inverse of a field element, as its power 254; 0 for 0. -/
def inv (a : Nat) : Nat :=
  let sq := fun (x : Nat) => mul x x
  let a2 := sq a
  let a4 := sq a2
  let a8 := sq a4
  let a16 := sq a8
  let a32 := sq a16
  let a64 := sq a32
  mul a2 (mul a4 (mul a8 (mul a16 (mul a32 (mul a64 (sq a64))))))

def rotl8 (x n : Nat) : Nat := (x <<< n) % 256 ||| x >>> (8 - n)

/-- The substitution box and its inverse. -/
def sbox (a : Nat) : Nat :=
  let b := inv a
  b ^^^ rotl8 b 1 ^^^ rotl8 b 2 ^^^ rotl8 b 3 ^^^ rotl8 b 4 ^^^ 0x63
def sboxInv (a : Nat) : Nat := inv (rotl8 a 1 ^^^ rotl8 a 3 ^^^ rotl8 a 6 ^^^ 5)

def xors (a b : List Nat) : List Nat := List.zipWith (· ^^^ ·) a b

/-- Word `i` of the key schedule is added to the words so far, latest first. -/
def nextWord (ws : List (List Nat)) (i : Nat) : List Nat :=
  let t := ws.getD 0 []
  let u := if i % 8 = 0 then
      match t.rotateLeft.map sbox with
      | x :: r => (x ^^^ 2 ^ (i / 8 - 1)) :: r
      | [] => []
    else if i % 8 = 4 then t.map sbox else t
  xors (ws.getD 7 []) u

/-- The sixty words of the key schedule, latest first. -/
def schedule : Nat → List (List Nat) → List (List Nat)
  | 0, ws => ws
  | n + 1, ws => schedule n (nextWord ws (60 - (n + 1)) :: ws)

/-- The fifteen round keys of a 32-byte key. -/
def roundKeys (key : List Nat) : List (List Nat) :=
  let ws := (schedule 52 ((upTo 8).map (fun i => (key.drop (4 * i)).take 4)).reverse).reverse
  (upTo 15).map (fun r => ((ws.drop (4 * r)).take 4).flatten)

/-- Byte `j` of the result is byte `f j` of the block. -/
def permute (f : Nat → Nat) (b : List Nat) : List Nat := (upTo 16).map (fun j => b.getD (f j) 0)
def shiftRows (b : List Nat) : List Nat := permute (fun j => (j + 4 * (j % 4)) % 16) b
def shiftRowsInv (b : List Nat) : List Nat := permute (fun j => (j + 12 * (j % 4)) % 16) b

/-- Each column times a circulant matrix of first row `m`. -/
def mixWith (m : List Nat) (b : List Nat) : List Nat :=
  (upTo 16).map (fun j => ((upTo 4).map (fun k => mul (m.getD k 0) (b.getD (4 * (j / 4) + (j + k) % 4) 0))).foldl (· ^^^ ·) 0)

/-- AES-256 of one block under round keys. -/
def encrypt (ks : List (List Nat)) (b : List Nat) : List Nat :=
  let s := (upTo 13).foldl (fun s r => xors (mixWith [2, 3, 1, 1] (shiftRows (s.map sbox))) (ks.getD (r + 1) [])) (xors b (ks.getD 0 []))
  xors (shiftRows (s.map sbox)) (ks.getD 14 [])

/-- The inverse cipher. -/
def decrypt (ks : List (List Nat)) (b : List Nat) : List Nat :=
  let s := (upTo 13).foldl (fun s r => mixWith [14, 11, 13, 9] (xors ((shiftRowsInv s).map sboxInv) (ks.getD (13 - r) []))) (xors b (ks.getD 14 []))
  xors ((shiftRowsInv s).map sboxInv) (ks.getD 0 [])

/-- A number as `n` bytes, lowest first, and back. -/
def toBytes (n x : Nat) : List Nat := (upTo n).map (fun i => natBits x (8 * i) 8)
def ofBytes (bs : List Nat) : Nat := (bs.zipIdx.map (fun p => p.1 <<< (8 * p.2))).foldl (· + ·) 0

/-- The tweak of the next block of a data unit (IEEE 1619). -/
def nextTweak (t : Nat) : Nat := (2 * t) % 2 ^ 128 ^^^ (if 2 ^ 127 ≤ t then 0x87 else 0)

/-- The blocks of a data unit under `f`, each between two additions of its tweak. -/
def xtsBlocks (f : List Nat → List Nat) : Nat → Nat → List Nat → List Nat
  | 0, _, _ => []
  | n + 1, t, bs => xors (f (xors (bs.take 16) (toBytes 16 t))) (toBytes 16 t) ++ xtsBlocks f n (nextTweak t) (bs.drop 16)

/-- The material of a key (R336): its data key from bytes 31:0, its tweak key from bytes 63:32. -/
def dataKey (m : Nat) : List (List Nat) := roundKeys (toBytes 32 m)
def tweakKey (m : Nat) : List (List Nat) := roundKeys (toBytes 32 (m / 2 ^ 256))

/-- A 64-byte sector under a key's material and its tweak value (R357): encrypted, and decrypted. -/
def xtsEncrypt (m tweak : Nat) (bs : List Nat) : List Nat :=
  xtsBlocks (encrypt (dataKey m)) 4 (ofBytes (encrypt (tweakKey m) (toBytes 16 tweak))) bs
def xtsDecrypt (m tweak : Nat) (bs : List Nat) : List Nat :=
  xtsBlocks (decrypt (dataKey m)) 4 (ofBytes (encrypt (tweakKey m) (toBytes 16 tweak))) bs

end Sys2Proof.Aes
end

