-- ==== Sys2Proof/Config.lean ====
section
/-! DEFINITION. What an implementation fixes, and the free values: constants with no body, so that no proof can see a value the
spec leaves open. Each is named in a log entry. -/

namespace Sys2Proof.Config

/-- How many arithmetic cycles pass in step number `tick` (R324 `CYCLE`; timing is outside the model). Log entry 3. -/
opaque cyclesTaken : Nat → Nat

/-- R29: whether local byte `addr` of croft `c` keeps, at the point start of step `tick`, the value an earlier point of the same
context left there (`true`) or reads zero. Log entry 4. -/
opaque keepByte : (tick c addr : Nat) → Bool

/-- R287: where hot-segment byte `addr` of croft `c` comes from after unbinding number `n`: a byte of the stack, by depth, or zero. Log
entry 5. -/
opaque hotPick : (n c addr : Nat) → Option Nat

/-- R356: which byte of its frame, present or overwritten, a byte of a frame reached under two interleave classes reads as, after `ver` writes
of the frame: below 65,536 an offset of the frame, above that a number among the bytes overwritten. Log entry 83. -/
opaque mixPick : (ver addr : Nat) → Nat

/-- R355: the interleave class under which the device itself reaches a frame with no buffer. Log entry 39. -/
opaque deviceClass : (frame : Nat) → Nat

/-- R76: in a copy at step `tick` whose spans overlap, how far the reads run ahead of the writes. Log entry 20. -/
opaque readAhead : (tick : Nat) → Nat

/-- R378: byte `i` of the form in which the held entries of cut number `n` are written. Log entry 21. -/
opaque heldForm : (n i : Nat) → Byte

/-- R417, R419: PRP entry `i` of the staging buffer of a Read command. Log entry 95. -/
opaque staging : (cid i : Nat) → Word

/-- R432: where byte `i` of the first bursts of an HBM channel's pseudo-channels lies. Log entry 60. -/
opaque burstAddr : (ch i : Nat) → Nat

/-- R432: byte `i` of what an array holds of a burst's pattern. Log entry 60. -/
opaque burstByte : (pattern i : Nat) → Byte

/-- R433, R434: what training leaves in a lane's delay register, and in a channel's repair register (0: none). Log entry 60. -/
opaque trainedLane : (ch lane : Nat) → BitVec 15
opaque trainedRepair : (ch : Nat) → BitVec 14

/-- A value the spec leaves open, for the model's `n`-th use of one. Log entry 7. -/
opaque freeWord : (n : Nat) → Word

end Sys2Proof.Config
end

