-- ==== Sys2Proof/Machine/SMap.lean ====
section
/-! DEFINITION. Reading and writing a sparse map. Every large store of the machine (memory, register files, tables) is a list of
keys and values whose unlisted keys read as a default; these are the only operations that look into the list. -/

namespace Sys2Proof.SMap

variable {α : Type}

/-- The value at key `k`; `d` is what an unlisted key reads as. -/
def get (d : α) (m : SMap α) (k : Nat) : α :=
  match m with
  | [] => d
  | (j, v) :: r => if j = k then v else get d r k

/-- Puts a listed entry at its place among rising keys. -/
def put (m : SMap α) (k : Nat) (v : α) : SMap α :=
  match m with
  | [] => [(k, v)]
  | (j, w) :: r => if k < j then (k, v) :: (j, w) :: r else (j, w) :: put r k v

/-- The map without key `k`. -/
def del (m : SMap α) (k : Nat) : SMap α := m.filter (fun e => e.1 != k)

/-- Writes `v` at key `k`; writing the default removes the entry, so that equal stores are equal lists. -/
def set [DecidableEq α] (d : α) (m : SMap α) (k : Nat) (v : α) : SMap α :=
  if v = d then del m k else put (del m k) k v

/-- The canonical form: keys strictly rising, and no entry equal to the default. -/
def wf [DecidableEq α] (d : α) : SMap α → Bool
  | [] => true
  | [(_, v)] => v ≠ d
  | (j, v) :: (k, w) :: r => v ≠ d && j < k && wf d ((k, w) :: r)

/-- Removes every key of `lo` to `lo + n - 1`. -/
def clear (m : SMap α) (lo n : Nat) : SMap α := m.filter (fun e => e.1 < lo || lo + n ≤ e.1)

/-- The map with every listed value changed by `f`. -/
def mapVals [DecidableEq α] (d : α) (f : α → α) (m : SMap α) : SMap α := (m.map (fun e => (e.1, f e.2))).filter (fun e => e.2 ≠ d)

/-- The listed entries of `lo` to `lo + n - 1`. -/
def slice (m : SMap α) (lo n : Nat) : SMap α := m.filter (fun e => lo ≤ e.1 && e.1 < lo + n)

end Sys2Proof.SMap
end

