-- ==== Sys2Proof/Syntax.lean ====
section
/-! DEFINITION. The instruction set as syntax: the operand types of the encoding chapters and one constructor of `Instr` for
every row of the opcode table. The 258 instruction rows come first, in the table's order; the event rows (what an engine, the
hayward, a bailiff, management or the outside does) follow. -/

namespace Sys2Proof

/-- A scalar register s0 to s63 (R154). -/
abbrev SReg := BitVec 6
/-- A tile handle h0 to h63 (R154). -/
abbrev HReg := BitVec 6
/-- A vector register v0 to v31 (R154). -/
abbrev VReg := BitVec 5
/-- A channel slot ch0 to ch31 (R154). -/
abbrev CReg := BitVec 5
/-- A predicate p0 to p7 (R154). -/
abbrev PReg := BitVec 3
/-- A mask register m0 to m7 (R154). -/
abbrev MReg := BitVec 3
/-- An accumulator tile acc0 to acc7 (R154). -/
abbrev AReg := BitVec 3
/-- A nest slot slot0 to slot7 (R154). -/
abbrev LReg := BitVec 3

/-- What every governed word carries besides its opcode and operands (R150): version, scheduling control, predicate; `ext` says
that an `EXT` prefix governs the word (R159). -/
structure Hdr where
  ver : BitVec 2
  sc : BitVec 4
  pred : BitVec 3
  pn : Bool
  ext : Bool
deriving DecidableEq, Repr

/-- The token fields of format T (R152): the destination and the three waited tokens. -/
structure Toks where
  td : SReg
  tw1 : SReg
  tw2 : SReg
  tw3 : SReg
deriving DecidableEq, Repr

/-- The memory operand `[sA + (sB << ks) + disp]` of the scalar memory words (R188). -/
structure MemOp where
  a : SReg
  b : SReg
  ks : BitVec 3
  disp : BitVec 9
deriving DecidableEq, Repr

/-- The element types of the vector engine (R201). -/
inductive Ety where
  | fp32 | i32 | n32 | i16 | n16
deriving DecidableEq, Repr

/-- The options every vector word shares (R201): element type, mask enable, mask register, zeroing. -/
structure VOpt where
  ety : Ety
  men : Bool
  mreg : MReg
  zm : Bool
deriving DecidableEq, Repr

/-- The rounding modes (R92). -/
inductive Rm where
  | rne | rtz | sr
deriving DecidableEq, Repr

/-- A rounding mode with the scalar register that supplies the seed of stochastic rounding (R201, R225, R248). -/
structure Rnd where
  rm : Rm
  seed : SReg
deriving DecidableEq, Repr

/-- A shift count: a vector register's elements or an immediate (R206, R210). -/
inductive ShCnt where
  | reg (v : VReg)
  | imm (n : BitVec 16)
deriving DecidableEq, Repr

/-- The conditions of `VCMP` (R207). -/
inductive VCond where
  | eq | ne | lt | le | gt | ge
deriving DecidableEq, Repr

/-- The operations of `VRED` and `VSCAN` (R213). -/
inductive RedOp where
  | add | max | min
deriving DecidableEq, Repr

/-- The option payload of `NEST.OPT` (R227). -/
structure NestOpt where
  na : BitVec 4
  nb : BitVec 4
  gg : BitVec 2
  pi : BitVec 9
  rma : Bool
  rmb : Bool
  tagp : Bool
deriving DecidableEq, Repr

/-- The option payload of `BLK.BEGIN` (R279). -/
structure BlkParm where
  fsz : BitVec 10
  nseed : BitVec 8
  dem : Bool
  rcp : Bool
  hsave : BitVec 32
deriving DecidableEq, Repr

/-- The control registers (R324). -/
inductive Ctl where
  | ptx | pty | ptz | kseed | qslip | devid | blkst | blkpc | blkcur | cycle
  | tvec | tcause | tcut | tscratch | dbgctl | asid | partn | bevt
deriving DecidableEq, Repr

/-- The five queues of a croft (R18). -/
inductive QId where
  | lq | sq | vq | mq | cq
deriving DecidableEq, Repr

/-- What a peer or a device answers to a waiting entry: a completion code, a count, data bytes and an old value. -/
structure Reply where
  code : Nat
  count : Nat
  data : List Byte
  val : Word
deriving DecidableEq, Repr

/-- A page's content arriving for a pull (R403): 64 KiB, its 256 line codes and 1,024 sector tags; the lines of it and the sectors' tags that its
home could not read (log entry 112). -/
structure PageData where
  data : List Byte
  codes : List Nat
  tags : List Nat
  bad : List Nat
  tagBad : List Nat
deriving DecidableEq, Repr

/-- An atomic forwarded to the device that holds its page (R403): context index, address, operation, size, operand and expected value, the
sender's own tag, and whether its line is reached as a compressible one (R82). -/
structure FwdAtomic where
  ctx : Nat
  va : Nat
  op : Nat
  size : Nat
  x : Nat
  y : Nat
  tag : Nat
  compr : Bool
deriving DecidableEq, Repr

/-- The operations that an inbound window admits (R391). -/
inductive RKind where
  | put | get | send | amo | mcast
deriving DecidableEq, Repr

/-- An operation from another module that arrives at this one (R389 to R398): source device, partition and window, remote pointer, byte
count, gate of the arrival, the atomic's operation, size and operands, its bytes, the sender's own tag, and its fabric class (R390). -/
structure RemoteOp where
  src : Nat
  part : Nat
  win : Nat
  kind : RKind
  ptr : Word
  len : Nat
  gate : Option Word
  op : Nat
  size : Nat
  x : Nat
  y : Nat
  data : List Byte
  tag : Nat
  cls : Nat
deriving DecidableEq, Repr

/-- What the security processor finds of a firmware image (R436): whether it is there, its 256-byte header, the SM3 digest of its body, whether its
key slot is revoked, whether its signer's key hashes to that slot's fuse, whether its signature verifies, the fused least security version. -/
structure FwImage where
  present : Bool
  header : BitVec 2048
  digest : BitVec 256
  revoked : Bool
  signer : Bool
  verifies : Bool
  least : Nat
deriving DecidableEq, Repr

/-- The outcome of a stage of the start sequence (R435), with what the stage finds or fixes: the detail of a failure, stacks
that failed training, the device id of the fabric handshake, the firmware images of kinds 1, 2 and 3, the host ports' modes
(0 PCIe, 1 CXL, 2 storage), whether line codes are enabled, tag coverage. -/
structure StageResult where
  ok : Bool
  detail : Nat
  failed : BitVec 32
  devid : Nat
  images : List FwImage
  modes : Nat × Nat
  mden : Bool
  tagfr : Nat
deriving DecidableEq, Repr

/-- What management provisions a partition with (R445), and what the firmware assigns it: context table, ASID, key, group and function
ranges. -/
structure ProvArgs where
  p : Nat
  hset : BitVec 16
  sset : BitVec 32
  comb : Nat
  coml : Nat
  nvf : Nat
  ctxcnt : Nat
  keycnt : Nat
  grpcnt : Nat
  capa : Nat
  capb : Nat
  ctxbase : Nat
  asidbase : Nat
  keybase : Nat
  grpbase : Nat
  vfbase : Nat
deriving DecidableEq, Repr


inductive Instr where
  /-- R188. Loads 1 byte, zero-extended. -/
  | ldB (h : Hdr) (d : SReg) (mem : MemOp)
  /-- R188. Loads 2 bytes, zero-extended. -/
  | ldH (h : Hdr) (d : SReg) (mem : MemOp)
  /-- R188. Loads 4 bytes, zero-extended. -/
  | ldW (h : Hdr) (d : SReg) (mem : MemOp)
  /-- R188. Loads 8 bytes. -/
  | ldD (h : Hdr) (d : SReg) (mem : MemOp)
  /-- R188. Loads 16 bytes into a register pair. -/
  | ldQ (h : Hdr) (d : SReg) (mem : MemOp)
  /-- R188. Loads 1 byte, sign-extended. -/
  | ldsB (h : Hdr) (d : SReg) (mem : MemOp)
  /-- R188. Loads 2 bytes, sign-extended. -/
  | ldsH (h : Hdr) (d : SReg) (mem : MemOp)
  /-- R188. Loads 4 bytes, sign-extended. -/
  | ldsW (h : Hdr) (d : SReg) (mem : MemOp)
  /-- R188. Stores 1 byte. -/
  | stB (h : Hdr) (c : SReg) (mem : MemOp)
  /-- R188. Stores 2 bytes. -/
  | stH (h : Hdr) (c : SReg) (mem : MemOp)
  /-- R188. Stores 4 bytes. -/
  | stW (h : Hdr) (c : SReg) (mem : MemOp)
  /-- R188. Stores 8 bytes. -/
  | stD (h : Hdr) (c : SReg) (mem : MemOp)
  /-- R188. Stores 16 bytes from a register pair. -/
  | stQ (h : Hdr) (c : SReg) (mem : MemOp)
  /-- R190. Loads 1 byte then acquires at the scope. -/
  | ldAcqB (h : Hdr) (d : SReg) (mem : MemOp) (sc : BitVec 2)
  /-- R190. Loads 2 bytes then acquires at the scope. -/
  | ldAcqH (h : Hdr) (d : SReg) (mem : MemOp) (sc : BitVec 2)
  /-- R190. Loads 4 bytes then acquires at the scope. -/
  | ldAcqW (h : Hdr) (d : SReg) (mem : MemOp) (sc : BitVec 2)
  /-- R190. Loads 8 bytes then acquires at the scope. -/
  | ldAcqD (h : Hdr) (d : SReg) (mem : MemOp) (sc : BitVec 2)
  /-- R190. Loads 16 bytes then acquires at the scope. -/
  | ldAcqQ (h : Hdr) (d : SReg) (mem : MemOp) (sc : BitVec 2)
  /-- R190. Releases at the scope then stores 1 byte. -/
  | stRelB (h : Hdr) (c : SReg) (mem : MemOp) (sc : BitVec 2)
  /-- R190. Releases at the scope then stores 2 bytes. -/
  | stRelH (h : Hdr) (c : SReg) (mem : MemOp) (sc : BitVec 2)
  /-- R190. Releases at the scope then stores 4 bytes. -/
  | stRelW (h : Hdr) (c : SReg) (mem : MemOp) (sc : BitVec 2)
  /-- R190. Releases at the scope then stores 8 bytes. -/
  | stRelD (h : Hdr) (c : SReg) (mem : MemOp) (sc : BitVec 2)
  /-- R190. Releases at the scope then stores 16 bytes. -/
  | stRelQ (h : Hdr) (c : SReg) (mem : MemOp) (sc : BitVec 2)
  /-- R192. Prefetches a line into the croft's L1. -/
  | pfL1 (h : Hdr) (mem : MemOp)
  /-- R192. Prefetches a line into its home MSC slice. -/
  | pfMsc (h : Hdr) (mem : MemOp)
  /-- R193. Atomic 4-byte add returning the old value. -/
  | amoAddW (h : Hdr) (d : SReg) (mem : MemOp) (c : SReg) (sc : BitVec 2)
  /-- R193. Atomic 8-byte add returning the old value. -/
  | amoAddD (h : Hdr) (d : SReg) (mem : MemOp) (c : SReg) (sc : BitVec 2)
  /-- R193. Atomic 4-byte AND. -/
  | amoAndW (h : Hdr) (d : SReg) (mem : MemOp) (c : SReg) (sc : BitVec 2)
  /-- R193. Atomic 8-byte AND. -/
  | amoAndD (h : Hdr) (d : SReg) (mem : MemOp) (c : SReg) (sc : BitVec 2)
  /-- R193. Atomic 4-byte OR. -/
  | amoOrW (h : Hdr) (d : SReg) (mem : MemOp) (c : SReg) (sc : BitVec 2)
  /-- R193. Atomic 8-byte OR. -/
  | amoOrD (h : Hdr) (d : SReg) (mem : MemOp) (c : SReg) (sc : BitVec 2)
  /-- R193. Atomic 4-byte XOR. -/
  | amoXorW (h : Hdr) (d : SReg) (mem : MemOp) (c : SReg) (sc : BitVec 2)
  /-- R193. Atomic 8-byte XOR. -/
  | amoXorD (h : Hdr) (d : SReg) (mem : MemOp) (c : SReg) (sc : BitVec 2)
  /-- R193. Atomic 4-byte signed minimum. -/
  | amoMinW (h : Hdr) (d : SReg) (mem : MemOp) (c : SReg) (sc : BitVec 2)
  /-- R193. Atomic 8-byte signed minimum. -/
  | amoMinD (h : Hdr) (d : SReg) (mem : MemOp) (c : SReg) (sc : BitVec 2)
  /-- R193. Atomic 4-byte signed maximum. -/
  | amoMaxW (h : Hdr) (d : SReg) (mem : MemOp) (c : SReg) (sc : BitVec 2)
  /-- R193. Atomic 8-byte signed maximum. -/
  | amoMaxD (h : Hdr) (d : SReg) (mem : MemOp) (c : SReg) (sc : BitVec 2)
  /-- R193. Atomic 4-byte unsigned minimum. -/
  | amoMinuW (h : Hdr) (d : SReg) (mem : MemOp) (c : SReg) (sc : BitVec 2)
  /-- R193. Atomic 8-byte unsigned minimum. -/
  | amoMinuD (h : Hdr) (d : SReg) (mem : MemOp) (c : SReg) (sc : BitVec 2)
  /-- R193. Atomic 4-byte unsigned maximum. -/
  | amoMaxuW (h : Hdr) (d : SReg) (mem : MemOp) (c : SReg) (sc : BitVec 2)
  /-- R193. Atomic 8-byte unsigned maximum. -/
  | amoMaxuD (h : Hdr) (d : SReg) (mem : MemOp) (c : SReg) (sc : BitVec 2)
  /-- R193. Atomic 4-byte swap. -/
  | amoSwapW (h : Hdr) (d : SReg) (mem : MemOp) (c : SReg) (sc : BitVec 2)
  /-- R193. Atomic 8-byte swap. -/
  | amoSwapD (h : Hdr) (d : SReg) (mem : MemOp) (c : SReg) (sc : BitVec 2)
  /-- R194. Atomic 4-byte compare and swap. -/
  | amoCasW (h : Hdr) (d : SReg) (mem : MemOp) (c : SReg) (sc : BitVec 2)
  /-- R194. Atomic 8-byte compare and swap. -/
  | amoCasD (h : Hdr) (d : SReg) (mem : MemOp) (c : SReg) (sc : BitVec 2)
  /-- R194. Atomic 16-byte compare and swap on register pairs. -/
  | amoCasQ (h : Hdr) (d : SReg) (mem : MemOp) (c : SReg) (sc : BitVec 2)
  /-- R195. Atomic FP32 add. -/
  | amoFaddW (h : Hdr) (d : SReg) (mem : MemOp) (c : SReg) (sc : BitVec 2)
  /-- R246. Joins waited tokens into one token or stalls the reeve on them. -/
  | tokWait (h : Hdr) (t : Toks)
  /-- R246. Clears up to three token registers. -/
  | tokClr (h : Hdr) (a b c : SReg)
  /-- R109. Barrier entry dividing LQ and SQ with no action. -/
  | mark (h : Hdr) (t : Toks)
  /-- R109. Barrier performing a release then an acquire at a scope. -/
  | fence (h : Hdr) (t : Toks) (sc : BitVec 2)
  /-- R116. Barrier performing an acquire at a scope. -/
  | acq (h : Hdr) (t : Toks) (sc : BitVec 2)
  /-- R115. Barrier performing a release at a scope. -/
  | rel (h : Hdr) (t : Toks) (sc : BitVec 2)
  /-- R122. Requests promotion of a named croft then acquires at D. -/
  | acqP (h : Hdr) (t : Toks) (a : SReg)
  /-- R260. Initialises a gate of the issuing croft. -/
  | gateInit (h : Hdr) (t : Toks) (g n : SReg)
  /-- R260. Makes an arrival of n at a gate. -/
  | gateArr (h : Hdr) (t : Toks) (g n : SReg)
  /-- R260. Waits for a gate's phase to pass a value. -/
  | gateWait (h : Hdr) (t : Toks) (g p : SReg) (lim : BitVec 6)
  /-- R263. Pushes a value onto a ring, waiting for room. -/
  | rpush (h : Hdr) (t : Toks) (r v : SReg) (lim : BitVec 6)
  /-- R263. Pops a value from a ring, waiting for data. -/
  | rpop (h : Hdr) (t : Toks) (d r : SReg) (lim : BitVec 6)
  /-- R204. Elementwise vector add. -/
  | vadd (h : Hdr) (t : Toks) (o : VOpt) (d a b : VReg)
  /-- R204. Elementwise vector subtract. -/
  | vsub (h : Hdr) (t : Toks) (o : VOpt) (d a b : VReg)
  /-- R204. Elementwise vector multiply. -/
  | vmul (h : Hdr) (t : Toks) (o : VOpt) (d a b : VReg)
  /-- R204. Elementwise fused multiply-add into vD. -/
  | vmad (h : Hdr) (t : Toks) (o : VOpt) (d a b : VReg)
  /-- R204. Elementwise minimum. -/
  | vmin (h : Hdr) (t : Toks) (o : VOpt) (d a b : VReg)
  /-- R204. Elementwise maximum. -/
  | vmax (h : Hdr) (t : Toks) (o : VOpt) (d a b : VReg)
  /-- R204. Elementwise absolute value. -/
  | vabs (h : Hdr) (t : Toks) (o : VOpt) (d a : VReg)
  /-- R204. Elementwise negation. -/
  | vneg (h : Hdr) (t : Toks) (o : VOpt) (d a : VReg)
  /-- R204. Elementwise rectifier. -/
  | vrelu (h : Hdr) (t : Toks) (o : VOpt) (d a : VReg)
  /-- R205. Elementwise 2 to the power a. -/
  | vexp2 (h : Hdr) (t : Toks) (o : VOpt) (d a : VReg)
  /-- R205. Elementwise base-2 logarithm. -/
  | vlog2 (h : Hdr) (t : Toks) (o : VOpt) (d a : VReg)
  /-- R205. Elementwise reciprocal. -/
  | vrcp (h : Hdr) (t : Toks) (o : VOpt) (d a : VReg)
  /-- R205. Elementwise reciprocal square root. -/
  | vrsq (h : Hdr) (t : Toks) (o : VOpt) (d a : VReg)
  /-- R205. Elementwise hyperbolic tangent. -/
  | vtanh (h : Hdr) (t : Toks) (o : VOpt) (d a : VReg)
  /-- R206. Elementwise AND. -/
  | vand (h : Hdr) (t : Toks) (o : VOpt) (d a b : VReg)
  /-- R206. Elementwise OR. -/
  | vor (h : Hdr) (t : Toks) (o : VOpt) (d a b : VReg)
  /-- R206. Elementwise XOR. -/
  | vxor (h : Hdr) (t : Toks) (o : VOpt) (d a b : VReg)
  /-- R206. Elementwise NOT. -/
  | vnot (h : Hdr) (t : Toks) (o : VOpt) (d a : VReg)
  /-- R206. Elementwise left shift. -/
  | vshl (h : Hdr) (t : Toks) (o : VOpt) (d a : VReg) (n : ShCnt)
  /-- R206. Elementwise logical right shift. -/
  | vshr (h : Hdr) (t : Toks) (o : VOpt) (d a : VReg) (n : ShCnt)
  /-- R206. Elementwise arithmetic right shift. -/
  | vsra (h : Hdr) (t : Toks) (o : VOpt) (d a : VReg) (n : ShCnt)
  /-- R207. Elementwise comparison into a mask register. -/
  | vcmp (h : Hdr) (t : Toks) (o : VOpt) (cc : VCond) (d : MReg) (a b : VReg)
  /-- R207. Elementwise selection by a mask. -/
  | vsel (h : Hdr) (t : Toks) (o : VOpt) (d a b : VReg) (c : MReg)
  /-- R207. AND of two mask registers. -/
  | mand (h : Hdr) (t : Toks) (d a b : MReg)
  /-- R207. OR of two mask registers. -/
  | mor (h : Hdr) (t : Toks) (d a b : MReg)
  /-- R207. NOT of a mask register. -/
  | mnot (h : Hdr) (t : Toks) (d a : MReg)
  /-- R207. Broadcasts the population count of a mask. -/
  | mpopc (h : Hdr) (t : Toks) (o : VOpt) (d : VReg) (a : MReg)
  /-- R208. 16-bit saturating add. -/
  | vadds (h : Hdr) (t : Toks) (o : VOpt) (d a b : VReg)
  /-- R208. 16-bit saturating subtract. -/
  | vsubs (h : Hdr) (t : Toks) (o : VOpt) (d a b : VReg)
  /-- R208. 16-bit high multiply. -/
  | vmulh (h : Hdr) (t : Toks) (o : VOpt) (d a b : VReg)
  /-- R208. 16-bit rounding average. -/
  | vavg (h : Hdr) (t : Toks) (o : VOpt) (d a b : VReg)
  /-- R208. Accumulates sums of absolute differences per lane. -/
  | vsad (h : Hdr) (t : Toks) (o : VOpt) (d a b : VReg)
  /-- R209. Narrows two 32-bit vectors into one 16-bit vector. -/
  | vpack (h : Hdr) (t : Toks) (o : VOpt) (df : BitVec 8) (rnd : Rnd) (d a b : VReg)
  /-- R209. Widens half of a 16-bit vector to 32 bits. -/
  | vunpk (h : Hdr) (t : Toks) (o : VOpt) (sf : BitVec 8) (half : Bool) (rnd : Rnd) (d a : VReg)
  /-- R209. Unpacks packed pixels into N16 elements. -/
  | pixUnpk (h : Hdr) (t : Toks) (o : VOpt) (pf : BitVec 8) (off : BitVec 11) (d a : VReg)
  /-- R209. Packs N16 elements into packed pixels with clamping. -/
  | pixPack (h : Hdr) (t : Toks) (o : VOpt) (pf : BitVec 8) (d a : VReg)
  /-- R210. Elementwise bit-field extract. -/
  | vbfx (h : Hdr) (t : Toks) (o : VOpt) (sx : Bool) (d a b : VReg)
  /-- R210. Elementwise bit-field insert. -/
  | vbfi (h : Hdr) (t : Toks) (o : VOpt) (d a b : VReg)
  /-- R210. Elementwise funnel shift right. -/
  | vfshR (h : Hdr) (t : Toks) (o : VOpt) (d a b : VReg) (n : ShCnt)
  /-- R210. Elementwise funnel shift left. -/
  | vfshL (h : Hdr) (t : Toks) (o : VOpt) (d a b : VReg) (n : ShCnt)
  /-- R210. Elementwise leading zero count. -/
  | vclz (h : Hdr) (t : Toks) (o : VOpt) (d a : VReg)
  /-- R210. Elementwise population count. -/
  | vpopc (h : Hdr) (t : Toks) (o : VOpt) (d a : VReg)
  /-- R211. Table lookup in a local window per element. -/
  | vlut (h : Hdr) (t : Toks) (o : VOpt) (d a : VReg) (b : SReg)
  /-- R212. Elementwise format conversion with rounding. -/
  | vcvt (h : Hdr) (t : Toks) (o : VOpt) (df sf : BitVec 8) (rnd : Rnd) (d a : VReg)
  /-- R213. Fixed-tree reduction broadcast to every element. -/
  | vred (h : Hdr) (t : Toks) (o : VOpt) (op : RedOp) (d a : VReg)
  /-- R213. Inclusive left-to-right scan. -/
  | vscan (h : Hdr) (t : Toks) (o : VOpt) (op : RedOp) (d a : VReg)
  /-- R214. Permutes elements by an index vector. -/
  | vperm (h : Hdr) (t : Toks) (o : VOpt) (d a b : VReg)
  /-- R214. Shuffles two vectors by a fixed pattern. -/
  | vshuf (h : Hdr) (t : Toks) (o : VOpt) (pat : BitVec 3) (k : BitVec 16) (d a b : VReg)
  /-- R214. Broadcasts a scalar to every element. -/
  | vbcast (h : Hdr) (t : Toks) (o : VOpt) (d : VReg) (a : SReg)
  /-- R214. Broadcasts one element of a vector. -/
  | vbcastE (h : Hdr) (t : Toks) (o : VOpt) (d a : VReg) (k : BitVec 16)
  /-- R214. Writes sA plus the element index to each element. -/
  | vidx (h : Hdr) (t : Toks) (o : VOpt) (d : VReg) (a : SReg)
  /-- R214. Copies a vector register. -/
  | vmov (h : Hdr) (t : Toks) (o : VOpt) (d a : VReg)
  /-- R220. Reads one accumulator row into a vector. -/
  | trd (h : Hdr) (t : Toks) (o : VOpt) (d : VReg) (a : AReg) (b : SReg) (k : BitVec 7)
  /-- R220. Writes one accumulator row from a vector. -/
  | twr (h : Hdr) (t : Toks) (o : VOpt) (d : AReg) (a : VReg) (b : SReg) (k : BitVec 7)
  /-- R215. Contiguous vector load. -/
  | vld (h : Hdr) (t : Toks) (o : VOpt) (d : VReg) (a b : SReg) (disp : BitVec 16)
  /-- R215. Strided vector load. -/
  | vlds (h : Hdr) (t : Toks) (o : VOpt) (d : VReg) (a b : SReg) (disp : BitVec 16)
  /-- R215. Indexed vector gather. -/
  | vgath (h : Hdr) (t : Toks) (o : VOpt) (d : VReg) (a : SReg) (b : VReg) (disp : BitVec 16)
  /-- R215. Contiguous vector store. -/
  | vst (h : Hdr) (t : Toks) (o : VOpt) (d : VReg) (a b : SReg) (disp : BitVec 16)
  /-- R215. Strided vector store. -/
  | vsts (h : Hdr) (t : Toks) (o : VOpt) (d : VReg) (a b : SReg) (disp : BitVec 16)
  /-- R215. Indexed vector scatter. -/
  | vscat (h : Hdr) (t : Toks) (o : VOpt) (d : VReg) (a : SReg) (b : VReg) (disp : BitVec 16)
  /-- R218. Stores FP32 elements stochastically rounded to BF16 or FP16 at a pointer. -/
  | vstSrPtr (h : Hdr) (t : Toks) (o : VOpt) (df : BitVec 8) (seed : SReg) (c : VReg) (a b : SReg) (disp : BitVec 16)
  /-- R218. Stores stochastically rounded elements into a handle's walk. -/
  | vstSrHdl (h : Hdr) (t : Toks) (o : VOpt) (seed : SReg) (c : VReg) (a : HReg) (b : SReg)
  /-- R219. Atomically adds FP32 elements into memory. -/
  | vstAcc (h : Hdr) (t : Toks) (o : VOpt) (df : BitVec 8) (c : VReg) (a b : SReg) (disp : BitVec 16)
  /-- R223. Clears a nest slot. -/
  | nestClr (h : Hdr) (t : Toks) (sl : LReg)
  /-- R226. Sets extent and steps of one nest level. -/
  | nestLvl (h : Hdr) (t : Toks) (sl : LReg) (lvl : BitVec 3) (extm1 : BitVec 24) (sa sb : BitVec 14)
  /-- R227. Sets planes, group size, promotion interval and rounding of a slot. -/
  | nestOpt (h : Hdr) (t : Toks) (sl : LReg) (seed : SReg) (n : NestOpt)
  /-- R227. Sets a slot's destination tile and origin. -/
  | nestAcc (h : Hdr) (t : Toks) (sl : LReg) (d : AReg) (rorg : BitVec 7) (corg : BitVec 6)
  /-- R229. Runs one matrix product into an accumulator tile. -/
  | mmRun (h : Hdr) (t : Toks) (sl : LReg) (a b : HReg)
  /-- R235. Runs 16 block-diagonal products in one entry. -/
  | mmBatch (h : Hdr) (t : Toks) (sl : LReg) (a b : HReg)
  /-- R237. Initialises every element of a tile. -/
  | accInit (h : Hdr) (t : Toks) (d : AReg) (b : SReg)
  /-- R237. Promotes working values into home values across a tile. -/
  | accFlush (h : Hdr) (t : Toks) (d : AReg)
  /-- R238. Writes a tile region to a tensor. -/
  | accRd (h : Hdr) (t : Toks) (d : HReg) (a : AReg) (rnd : Rnd) (roff : BitVec 7) (coff : BitVec 6)
  /-- R239. Loads a tile region's home values from a tensor. -/
  | accWr (h : Hdr) (t : Toks) (d : AReg) (a : HReg) (roff : BitVec 7) (coff : BitVec 6)
  /-- R239. Adds a tensor into a tile region's home values. -/
  | accWrAdd (h : Hdr) (t : Toks) (d : AReg) (a : HReg) (roff : BitVec 7) (coff : BitVec 6)
  /-- R241. Converts a numeric tensor to plane form. -/
  | planePack (h : Hdr) (t : Toks) (d a : HReg) (rnd : Rnd)
  /-- R241. Converts a plane-form tensor to a numeric tensor. -/
  | planeUnpk (h : Hdr) (t : Toks) (d a : HReg) (rnd : Rnd)
  /-- R251. Binds a handle from a shape record. -/
  | hdlSet (h : Hdr) (t : Toks) (d : HReg) (a : SReg)
  /-- R251. Rereads a handle's record and drops its translations. -/
  | hdlInv (h : Hdr) (t : Toks) (d : HReg)
  /-- R253. Copies and optionally converts a tensor. -/
  | cp (h : Hdr) (t : Toks) (d a : HReg) (rnd : Rnd) (dscale : BitVec 8) (gen : Bool) (xr : SReg)
  /-- R254. Atomically accumulates a tensor into a destination. -/
  | cpAcc (h : Hdr) (t : Toks) (d a : HReg) (gen : Bool) (xr : SReg)
  /-- R255. Expands fixed-rate blocks into the croft store. -/
  | cpDec (h : Hdr) (t : Toks) (d a : HReg) (gen : Bool) (xr : SReg)
  /-- R256. Writes a tensor as fixed-rate blocks. -/
  | cpCmp (h : Hdr) (t : Toks) (d a : HReg) (rnd : Rnd) (op : BitVec 3) (gen : Bool) (xr : SReg)
  /-- R257. Brings a tensor's lines into their home slices. -/
  | cpPf (h : Hdr) (t : Toks) (a : HReg)
  /-- R258. Scans a global tensor for a sum, extreme, count or indices. -/
  | glean (h : Hdr) (t : Toks) (d a : HReg) (rnd : Rnd) (op : BitVec 3)
  /-- R280. Opens a differentiable block and reserves its frame. -/
  | blkBegin (h : Hdr) (a b : SReg) (p : BlkParm)
  /-- R281. Closes a block and finalises its frame. -/
  | blkEnd (h : Hdr)
  /-- R291. Pops the top frame and walks its block in reverse. -/
  | revb (h : Hdr)
  /-- R299. Zeroes selected gradient vector registers. -/
  | gradZeroV (h : Hdr) (t : Toks) (msk : BitVec 16)
  /-- R299. Zeroes selected gradient tiles. -/
  | gradZeroAcc (h : Hdr) (t : Toks) (msk : BitVec 4)
  /-- R299. Zeroes a gradient handle's tensor. -/
  | gradZeroH (h : Hdr) (t : Toks) (d : HReg)
  /-- R287. Binds or unbinds a residual stack. -/
  | rsBind (h : Hdr) (t : Toks) (a : SReg)
  /-- R288. Pushes a user frame from a tensor. -/
  | rsPush (h : Hdr) (t : Toks) (a : HReg)
  /-- R288. Pops a user frame into a tensor. -/
  | rsPop (h : Hdr) (t : Toks) (d : HReg)
  /-- R289. Reads the stack's frame count and depth. -/
  | rsMark (h : Hdr) (d : SReg)
  /-- R289. Discards frames at or above a depth. -/
  | rsDrop (h : Hdr) (a : SReg)
  /-- R290. Moves every hot frame to lower tiers. -/
  | rsSpill (h : Hdr) (t : Toks)
  /-- R265. Releases at D and submits a launch record to the hayward. -/
  | launch (h : Hdr) (t : Toks) (a : SReg)
  /-- R266. Ends the point once the croft's queues drain. -/
  | ptDone (h : Hdr) (t : Toks)
  /-- R267. Reads croft number, device id and launch id. -/
  | ptSelf (h : Hdr) (t : Toks) (d : SReg)
  /-- R268. Writes a launch's saved treeline image. -/
  | tlRead (h : Hdr) (t : Toks) (a b : SReg)
  /-- R270. Queues one message at a channel endpoint. -/
  | chSend (h : Hdr) (t : Toks) (ch : CReg) (a : HReg)
  /-- R270. Receives the oldest message of a channel into a tensor. -/
  | chRecv (h : Hdr) (t : Toks) (d : HReg) (ch : CReg) (lim : BitVec 6)
  /-- R270. Writes a tensor to remote memory with a remote gate arrival. -/
  | chPut (h : Hdr) (t : Toks) (ch : CReg) (a : HReg) (r : SReg) (gen : Bool) (xr : SReg)
  /-- R270. Puts a tensor to every member of a multicast group. -/
  | chMcast (h : Hdr) (t : Toks) (ch : CReg) (a : HReg) (r : SReg) (gen : Bool) (xr : SReg)
  /-- R270. Reads remote memory into a local tensor. -/
  | chGet (h : Hdr) (t : Toks) (d : HReg) (ch : CReg) (r : SReg) (gen : Bool) (xr : SReg)
  /-- R419. Reads logical blocks from NVMe storage into a tensor. -/
  | sioRead (h : Hdr) (t : Toks) (d : HReg) (ch : CReg) (r : SReg) (gen : Bool) (xr : SReg)
  /-- R270. Performs an atomic at a remote home slice. -/
  | chAmo (h : Hdr) (t : Toks) (d : SReg) (ch : CReg) (p v : SReg) (op : BitVec 3) (sz : BitVec 1)
  /-- R270. Reads a channel slot's state at issue. -/
  | chQry (h : Hdr) (t : Toks) (d : SReg) (ch : CReg)
  /-- R327. Raises TRAPI with a code. -/
  | trap (h : Hdr) (code : BitVec 28)
  /-- R328. Returns from a trap handler by resuming from the stop record. -/
  | tret (h : Hdr) (a : SReg)
  /-- R327. Reads a control register. -/
  | ctlRd (h : Hdr) (d : SReg) (ctl : Ctl)
  /-- R327. Writes a control register from a scalar. -/
  | ctlWr (h : Hdr) (ctl : Ctl) (a : SReg)
  /-- R327. Writes a control register from an immediate. -/
  | ctlWrImm (h : Hdr) (ctl : Ctl) (imm : Word)
  /-- R330. Hard-cuts a croft and saves its state. -/
  | cutSave (h : Hdr) (t : Toks) (a b : SReg)
  /-- R330. Restores a cut point onto a croft and resumes it. -/
  | cutLoad (h : Hdr) (t : Toks) (a b : SReg)
  /-- R330. Drains and power-gates a croft. -/
  | park (h : Hdr) (t : Toks) (a : SReg)
  /-- R330. Ungates a croft and returns it to placement. -/
  | wake (h : Hdr) (t : Toks) (a : SReg)
  /-- R332. Holds the reeve until a BEVT bit is set. -/
  | idle (h : Hdr)
  /-- R333. Checks a pointer's accessibility without trapping. -/
  | probe (h : Hdr) (t : Toks) (d a : SReg) (pw : Bool)
  /-- R333. Probes and waits for pulls or fault resolution. -/
  | probeRes (h : Hdr) (t : Toks) (d a : SReg) (pw : Bool)
  /-- R334. Invalidates translations of a range and waits for their users. -/
  | mmuInv (h : Hdr) (t : Toks) (i b l : SReg) (allas allva : Bool)
  /-- R335. Waits for every earlier table walk to end. -/
  | mmuSync (h : Hdr) (t : Toks)
  /-- R335. Walks the page table and returns the stopping entry. -/
  | mmuWalk (h : Hdr) (t : Toks) (d i v : SReg)
  /-- R336. Installs an encryption key in every MSC slice. -/
  | keyLoad (h : Hdr) (t : Toks) (k a : SReg)
  /-- R336. Destroys a key and poisons its dirty lines. -/
  | keyKill (h : Hdr) (t : Toks) (k : SReg)
  /-- R170. Writes the 64-bit sum of sA and sB into sD. -/
  | add (h : Hdr) (d a b : SReg)
  /-- R170. Writes sA minus sB into sD. -/
  | sub (h : Hdr) (d a b : SReg)
  /-- R170. Writes the low 64 bits of the product into sD. -/
  | mul (h : Hdr) (d a b : SReg)
  /-- R170. Writes the high 64 bits of the signed product into sD. -/
  | mulh (h : Hdr) (d a b : SReg)
  /-- R170. Writes the high 64 bits of the unsigned product into sD. -/
  | mulhu (h : Hdr) (d a b : SReg)
  /-- R171. Signed division that never traps. -/
  | div (h : Hdr) (d a b : SReg)
  /-- R171. Unsigned division that never traps. -/
  | divu (h : Hdr) (d a b : SReg)
  /-- R171. Signed remainder that never traps. -/
  | rem (h : Hdr) (d a b : SReg)
  /-- R171. Unsigned remainder that never traps. -/
  | remu (h : Hdr) (d a b : SReg)
  /-- R170. Bitwise AND of sA and sB. -/
  | and (h : Hdr) (d a b : SReg)
  /-- R170. Bitwise OR of sA and sB. -/
  | or (h : Hdr) (d a b : SReg)
  /-- R170. Bitwise XOR of sA and sB. -/
  | xor (h : Hdr) (d a b : SReg)
  /-- R170. sA AND NOT sB. -/
  | andn (h : Hdr) (d a b : SReg)
  /-- R170. sA OR NOT sB. -/
  | orn (h : Hdr) (d a b : SReg)
  /-- R170. Left shift by sB mod 64. -/
  | shl (h : Hdr) (d a b : SReg)
  /-- R170. Logical right shift by sB mod 64. -/
  | shr (h : Hdr) (d a b : SReg)
  /-- R170. Arithmetic right shift by sB mod 64. -/
  | sra (h : Hdr) (d a b : SReg)
  /-- R170. Rotate left by sB mod 64. -/
  | rol (h : Hdr) (d a b : SReg)
  /-- R170. Rotate right by sB mod 64. -/
  | ror (h : Hdr) (d a b : SReg)
  /-- R170. Signed minimum of sA and sB. -/
  | min (h : Hdr) (d a b : SReg)
  /-- R170. Signed maximum of sA and sB. -/
  | max (h : Hdr) (d a b : SReg)
  /-- R170. Unsigned minimum of sA and sB. -/
  | minu (h : Hdr) (d a b : SReg)
  /-- R170. Unsigned maximum of sA and sB. -/
  | maxu (h : Hdr) (d a b : SReg)
  /-- R172. Counts leading zero bits of sA. -/
  | clz (h : Hdr) (d a : SReg)
  /-- R172. Counts trailing zero bits of sA. -/
  | ctz (h : Hdr) (d a : SReg)
  /-- R172. Counts one bits of sA. -/
  | popc (h : Hdr) (d a : SReg)
  /-- R172. Reverses the bit order of sA. -/
  | brev (h : Hdr) (d a : SReg)
  /-- R172. Reverses the byte order of sA. -/
  | bswap (h : Hdr) (d a : SReg)
  /-- R173. Extracts a bit field of sA, zero-extended. -/
  | bfx (h : Hdr) (d a : SReg) (pos lenm1 : BitVec 6)
  /-- R173. Extracts a bit field of sA, sign-extended. -/
  | bfxS (h : Hdr) (d a : SReg) (pos lenm1 : BitVec 6)
  /-- R173. Inserts the low bits of sB into a field of sA. -/
  | bfi (h : Hdr) (d a b : SReg) (pos lenm1 : BitVec 6)
  /-- R174. Funnel shift left of cat(sA,sB) by sC mod 64. -/
  | fshl (h : Hdr) (d a b c : SReg)
  /-- R174. Funnel shift left of cat(sA,sB) by an immediate count. -/
  | fshlImm (h : Hdr) (d a b : SReg) (n : BitVec 6)
  /-- R174. Funnel shift right of cat(sA,sB) by sC mod 64. -/
  | fshr (h : Hdr) (d a b c : SReg)
  /-- R174. Funnel shift right of cat(sA,sB) by an immediate count. -/
  | fshrImm (h : Hdr) (d a b : SReg) (n : BitVec 6)
  /-- R175. Selects sA or sB by predicate pC. -/
  | sel (h : Hdr) (d a b : SReg) (c : PReg)
  /-- R172. Copies sA into sD. -/
  | mov (h : Hdr) (d a : SReg)
  /-- R178. Forms an address without access or check. -/
  | lea (h : Hdr) (d : SReg) (mem : MemOp)
  /-- R179. Adds to a pointer's offset, trapping BOUNDS outside 48 bits. -/
  | padd (h : Hdr) (d a b : SReg) (imm : BitVec 14)
  /-- R180. Reads the index field of a pointer. -/
  | pidx (h : Hdr) (d a : SReg)
  /-- R180. Replaces the index field of a pointer. -/
  | pidxSet (h : Hdr) (d a b : SReg)
  /-- R176. Sets pD when sA equals sB. -/
  | cmpEq (h : Hdr) (d : PReg) (a b : SReg)
  /-- R176. Sets pD when sA differs from sB. -/
  | cmpNe (h : Hdr) (d : PReg) (a b : SReg)
  /-- R176. Signed less-than comparison into pD. -/
  | cmpLt (h : Hdr) (d : PReg) (a b : SReg)
  /-- R176. Signed less-or-equal comparison into pD. -/
  | cmpLe (h : Hdr) (d : PReg) (a b : SReg)
  /-- R176. Unsigned less-than comparison into pD. -/
  | cmpLtu (h : Hdr) (d : PReg) (a b : SReg)
  /-- R176. Unsigned less-or-equal comparison into pD. -/
  | cmpLeu (h : Hdr) (d : PReg) (a b : SReg)
  /-- R176. AND of two predicates. -/
  | pand (h : Hdr) (d a b : PReg)
  /-- R176. OR of two predicates. -/
  | por (h : Hdr) (d a b : PReg)
  /-- R176. Negates a predicate. -/
  | pnot (h : Hdr) (d a : PReg)
  /-- R177. Loads an immediate into sD. -/
  | ldi (h : Hdr) (d : SReg) (imm : Word)
  /-- R177. Adds an immediate to sA. -/
  | addi (h : Hdr) (d a : SReg) (imm : Word)
  /-- R177. ANDs an immediate with sA. -/
  | andi (h : Hdr) (d a : SReg) (imm : Word)
  /-- R177. ORs an immediate with sA. -/
  | ori (h : Hdr) (d a : SReg) (imm : Word)
  /-- R177. XORs an immediate with sA. -/
  | xori (h : Hdr) (d a : SReg) (imm : Word)
  /-- R177. Left shift by an immediate count. -/
  | shli (h : Hdr) (d a : SReg) (n : BitVec 6)
  /-- R177. Logical right shift by an immediate count. -/
  | shri (h : Hdr) (d a : SReg) (n : BitVec 6)
  /-- R177. Arithmetic right shift by an immediate count. -/
  | srai (h : Hdr) (d a : SReg) (n : BitVec 6)
  /-- R176. Sets pD when sA equals the immediate. -/
  | cmpiEq (h : Hdr) (d : PReg) (a : SReg) (imm : Word)
  /-- R176. Sets pD when sA differs from the immediate. -/
  | cmpiNe (h : Hdr) (d : PReg) (a : SReg) (imm : Word)
  /-- R176. Signed less-than against the immediate. -/
  | cmpiLt (h : Hdr) (d : PReg) (a : SReg) (imm : Word)
  /-- R176. Signed less-or-equal against the immediate. -/
  | cmpiLe (h : Hdr) (d : PReg) (a : SReg) (imm : Word)
  /-- R176. Unsigned less-than against the immediate. -/
  | cmpiLtu (h : Hdr) (d : PReg) (a : SReg) (imm : Word)
  /-- R176. Unsigned less-or-equal against the immediate. -/
  | cmpiLeu (h : Hdr) (d : PReg) (a : SReg) (imm : Word)
  /-- R181. Relative branch. -/
  | br (h : Hdr) (imm : BitVec 35)
  /-- R181. Jump to an absolute offset within the PC's buffer. -/
  | jmp (h : Hdr) (imm : BitVec 35)
  /-- R181. Relative call writing a link register. -/
  | call (h : Hdr) (a : SReg) (imm : BitVec 35)
  /-- R181. Decrements sA and branches while the result is nonzero. -/
  | loop (h : Hdr) (a : SReg) (imm : BitVec 35)
  /-- R181. Jump to the pointer in sA. -/
  | jr (h : Hdr) (a : SReg)
  /-- R181. Return to the pointer in sA. -/
  | ret (h : Hdr) (a : SReg)
  /-- R182. Holds the reeve until no queue holds an unstarted entry. -/
  | yield (h : Hdr)
  /-- R183. Debug-halts the reeve when enabled, otherwise raises TRAPI. -/
  | halt (h : Hdr)
  /-- R184. Raises BKPT with a 14-bit code. -/
  | bkpt (h : Hdr) (code : BitVec 14)
  /-- R185. Holds the reeve until incomplete-entry counts meet the limits. -/
  | waitn (h : Hdr) (lq sq vq : BitVec 6) (mq cq : BitVec 5)
  /-- Event, R22. An engine starts a queued entry once its waited tokens are written. -/
  | entryStart (c : Nat) (q : QId)
  /-- Event, R110. An entry completes and writes its completion word into its token register. -/
  | entryComplete (c : Nat) (q : QId) (k : Nat) (r : Reply)
  /-- Event, R105. A croft writes the dirty bytes of an L1 line to home at any time. -/
  | l1WriteBack (c line : Nat)
  /-- Event, R105. A croft removes a clean line from its L1 at any time. -/
  | l1Drop (c line : Nat)
  /-- Event, R123. A promotion request arrives at a croft and starts or joins a promotion. -/
  | promotionRequest (src c : Nat)
  /-- Event, R119. A promotion's write-backs finish and every joined request is acknowledged. -/
  | promotionEnd (c : Nat)
  /-- Event, R261. An arrival reaches a gate and is applied, parked or dropped. -/
  | gateArrival (asid c g n : Nat)
  /-- Event, R414. The hayward reads a submitted ring slot and judges the record. -/
  | ringSlotRead (asid : Nat)
  /-- Event, R35. A deferred record is accepted once an active launch ends. -/
  | deferredAccept (p : Nat)
  /-- Event, R43. Each cycle the hayward chooses fireable points and fills free slots. -/
  | pointFire (p : Nat)
  /-- Event, R43. A launch starved for 2^24 cycles is served one point out of turn. -/
  | outOfTurnService (p lid : Nat)
  /-- Event, R46. A placed point starts, loading registers, handles and channels. -/
  | pointStart (c : Nat)
  /-- Event, R266. PT.DONE retires after the drain and release, and the treeline takes the completion. -/
  | ptDoneRetire (c : Nat)
  /-- Event, R361. A croft takes the oldest trap and begins the queue cut. -/
  | trapTaken (c : Nat)
  /-- Event, R362. Started entries finish, the reeve rewinds and the committed file is restored. -/
  | cutComplete (c : Nat)
  /-- Event, R248. A bounded wait exceeds its LIM and raises TIMEOUT. -/
  | waitTimeout (c : Nat) (q : QId) (k : Nat)
  /-- Event, R373. The drain timeout expires and running points are killed or hard-cut. -/
  | drainTimeout (p lid : Nat)
  /-- Event, R291. After earlier entries complete, the reeve walks the top frame issuing adjoints. -/
  | revbWalk (c : Nat)
  /-- Event, R284. The spill engine moves whole frames between residual tiers. -/
  | spillEngineMove (c : Nat)
  /-- Event, R353. A write of a record's sequence number makes the walker replay it. -/
  | fltack (p seq : Nat)
  /-- Event, R403. The home device serves a pull request for one page. -/
  | pagePullRequest (p ctx va : Nat)
  /-- Event, R349. A pulled page lands, is written to its frame and PULL is cleared. -/
  | pullDataArrival (asid va : Nat) (page : PageData)
  /-- Event, R403. An atomic on a PULL page is performed at the home device or answered REDIRECT. -/
  | forwardedAtomic (p : Nat) (a : FwdAtomic)
  /-- Event, R405. A sending port receives REDIRECT, updates its cache and retries. -/
  | redirect (c k dev part : Nat)
  /-- Event, R392. A receiving port admits or refuses an incoming fabric operation. -/
  | remoteAdmit (op : RemoteOp)
  /-- Event, R396. The aggregated multicast acknowledgement reaches the sender. -/
  | mcastAggAck (c k : Nat) (members naks : List Nat) (code : Nat)
  /-- Event, R386. A flit failing its CRC is refused and the link replays. -/
  | linkFlitRefused (port : Nat)
  /-- Event, R386. After 16 failed replays the link retrains, or the port goes down. -/
  | linkRetrain (port : Nat) (ok : Bool)
  /-- Event, R398. Marks an inbound window revoked. -/
  | windowRevoke (p w : Nat)
  /-- Event, R398. Marks an inbound window retired. -/
  | windowRetire (p w : Nat)
  /-- Event, R398. WBUSY clears once operations admitted before the command are performed. -/
  | windowCmdEnd (p : Nat)
  /-- Event, R372. Soft pre-emption of a running launch. -/
  | pcmdSuspend (p lid : Nat)
  /-- Event, R372. The last running point ends and the launch slot is written. -/
  | suspendDrainEnd (p lid : Nat)
  /-- Event, R374. Restores a suspended launch from its launch slot. -/
  | pcmdResume (p lid : Nat)
  /-- Event, R375. Debug-halts a running launch. -/
  | pcmdDhalt (p lid : Nat)
  /-- Event, R375. Undoes a debug halt. -/
  | pcmdDrun (p lid : Nat)
  /-- Event, R375. Ends a launch with FAULT PREEMPT and kills its points. -/
  | pcmdKill (p lid : Nat)
  /-- Event, R380. Halts or releases named roles of a croft. -/
  | roleCommand (p c : Nat) (roles : BitVec 5) (halt : Bool)
  /-- Event, R399. Arms the target partition to receive an image. -/
  | migArm (p : Nat)
  /-- Event, R400. Stops acceptance and suspends every launch of the source. -/
  | migFreeze (p : Nat)
  /-- Event, R400. The source reaches FROZEN once every croft stops and admitted operations finish. -/
  | freezeComplete (p : Nat)
  /-- Event, R401. Writes the migration image into the target's image area. -/
  | migSend (p : Nat)
  /-- Event, R402. Installs the image on the target and resumes its launches. -/
  | migResume (p : Nat)
  /-- Event, R404. Pulls every remaining PULL leaf in the background. -/
  | migDrain (p : Nat)
  /-- Event, R404. MPULLS reaches 0 and DRAIN ends. -/
  | drainComplete (p : Nat)
  /-- Event, R404. The source stops serving pull requests. -/
  | migRelease (p : Nat)
  /-- Event, R399. Returns a freezing or frozen source to RUN. -/
  | migAbort (p : Nat)
  /-- Event, R414. A host doorbell write submits ring records or is refused. -/
  | doorbellTail (vf asid : Nat) (tail : BitVec 32)
  /-- Event, R413. A write of 1 clears the ring overflow flag. -/
  | rovfClear (vf asid : Nat)
  /-- Event, R419. An NVMe Read completes and its data is written into the tensor. -/
  | nvmeCompletion (c k : Nat) (sc : BitVec 8) (sct : BitVec 3) (data : List Byte)
  /-- Event, R419. A command exceeds QTO, is aborted and completes IOERR. -/
  | sioCommandTimeout (c k : Nat)
  /-- Event, R428. A stack at 105 C enters self-refresh and freezes waiting contexts. -/
  | selfRefreshEnter (stack : Nat)
  /-- Event, R428. A cooled stack leaves self-refresh after at least 1 ms. -/
  | selfRefreshExit (stack : Nat)
  /-- Event, R451. Power above the limit for 1 ms takes the next degradation step. -/
  | powerStepDown
  /-- Event, R451. Power below 90 percent for 10 ms undoes the latest step. -/
  | powerStepUp
  /-- Event, R330. A parked croft woken by an arrival is gated again after 4,096 idle cycles. -/
  | parkRegate (c : Nat)
  /-- Event, R435. Power-good starts the staged start sequence. -/
  | coldStart
  /-- Event, R435. A start stage begins after the previous one passes. -/
  | bootStage (r : StageResult)
  /-- Event, R435. The start fails with STALL when READY is not reached in 10 s. -/
  | startStall
  /-- Event, R432. Starts a read training test on a channel. -/
  | phyReadTest (ch : Nat)
  /-- Event, R432. Starts a write-read training test on a channel. -/
  | phyWriteReadTest (ch : Nat)
  /-- Event, R432. A training test ends with TERR and TCNT final and TBUSY clear. -/
  | phyTestComplete (ch : Nat) (terr : BitVec 34) (tcnt : BitVec 40)
  /-- Event, R430. Writes the receive delay of all 34 lanes. -/
  | phyRdall (ch : Nat) (v : BitVec 7)
  /-- Event, R430. Writes the transmit delay of all 34 lanes. -/
  | phyWrall (ch : Nat) (v : BitVec 7)
  /-- Event, R426. Sets and checks the pointer of the metadata block. -/
  | mdptrWrite (c : Nat) (v : Word)
  /-- Event, R426. Writes a sector tag or line code without changing data. -/
  | mdvalWrite (c : Nat) (v : Word)
  /-- Event, R337. Reads and clears the prefetch drop counter. -/
  | pfdropRead (p : Nat)
  /-- Event, R397. Reads and clears the REDIRECT counter. -/
  | rdcntRead (p : Nat)
  /-- Event, R418. Reads and clears a queue pair's IOERR counter. -/
  | qerrRead (q : Nat)
  /-- Event, R10. A write to a register with no behaviour of its own. -/
  | registerWrite (c off : Nat) (v : Word)
  /-- Event, R445. Creates a partition with its resources. -/
  | provision (a : ProvArgs)
  /-- Event, R445. Removes a partition and frees its resources. -/
  | release (p : Nat)
  /-- Event, R447. Resets one partition. -/
  | preset (p : Nat)
  /-- Event, R447. Resets every partition and restarts firmware without the early stages. -/
  | wreset
  /-- Event, R448. Returns the health counters. -/
  | telem
  /-- Event, R448. Sets the health counters to 0. -/
  | clrcnt
  /-- Event, R437. Sets the failed-start count to 2 so the next start is full. -/
  | fullreq
  /-- Event, R446. Sets the tag coverage of each quadrant. -/
  | tagfr (n : Nat)
  /-- Event, R450. Retires an HBM stack. -/
  | retire (stack : Nat)
  /-- Event, R450. Fences a hamlet from point placement. -/
  | hamletFence (hm : Nat)
  /-- Event, R450. Returns a fenced hamlet to placement. -/
  | unfence (hm : Nat)
  /-- Event, R451. Sets the module power limit. -/
  | plimit (w : Nat)
  /-- Event, R453. Returns a signed attestation report. -/
  | attest (nonce : BitVec 256) (p : Nat)
  /-- Event, R431. A write of TRN takes a channel into or out of training; a write of 0 puts it in service and lets waiting memory accesses proceed. -/
  | trnWrite (ch : Nat) (v : Bool)
  /-- Event, R450. Temperature moves the arithmetic clock to 1.4 or 1.1 GHz, or back, module-wide between two cycles. -/
  | clockStepChange (mhz : Nat)
  /-- Event, R437. Loss of supply cuts a start or a running module short; the incremented failed-start count is kept. -/
  | powerLoss
  /-- Event, R386. A route to a device returns, for example when a down port comes back up, and operations waiting for it proceed. -/
  | routeReturns (port : Nat)
  /-- Event, R401. The last image write of SEND reaches B, so A becomes SENT, B becomes LOADED and MBUSY clears. -/
  | imageSent (p : Nat)
  /-- Event, R326. The host writes the host mailbox, setting BEVT.MBOX on the bailiffs. -/
  | hostMailboxWrite
deriving DecidableEq, Repr

end Sys2Proof
end

