-- ==== Sys2Proof/WellFormed.lean ====
section
/-! DEFINITION. Which instructions a legal unit carries: the limits that the encoding chapters put on operand values
(R152 to R155, R157, R159, R201, R225, R227, R248, R279, R324), and the codes of the operand types. -/

namespace Sys2Proof

/-- A 6-bit register number in a 7-bit field. -/
def w7 {n : Nat} (r : BitVec n) : BitVec 7 := r.setWidth 7

/-- R155, R157: version 3 raises ILLOP, and so does a negated p0. -/
def Hdr.wf (h : Hdr) : Bool := h.ver != 3 && !(h.pred == 0 && h.pn)

/-- R152: no token is waited for and written at once, none is waited for twice. -/
def Toks.wf (t : Toks) : Bool :=
  !(t.td != 0 && (t.td == t.tw1 || t.td == t.tw2 || t.td == t.tw3)) &&
  !(t.tw1 != 0 && (t.tw1 == t.tw2 || t.tw1 == t.tw3)) && !(t.tw2 != 0 && t.tw2 == t.tw3)

/-- The token fields of a word that takes no tokens. -/
def Toks.zero : Toks := ⟨0, 0, 0, 0⟩

/-- The `MOD` field of a memory operand: displacement, scope, index shift (R188). -/
def MemOp.mod (m : MemOp) (sc : BitVec 2) : BitVec 14 := m.disp ++ sc ++ m.ks

/-- R159: without a prefix an immediate is the sign extension of 28 bits. -/
def immFits (h : Hdr) (imm : Word) : Bool := h.ext || imm == (imm.setWidth 28).signExtend 64

/-- R159: without a prefix every option is zero. -/
def xfits (h : Hdr) (x : BitVec 52) : Bool := h.ext || x == 0

/-- The `ETY` code (R201). -/
def Ety.code : Ety → BitVec 3
  | .fp32 => 0 | .i32 => 1 | .n32 => 2 | .i16 => 3 | .n16 => 4

/-- The element type of an `ETY` code; 5 to 7 are reserved and never reach it. -/
def Ety.ofCode (b : BitVec 3) : Ety :=
  if b == 0 then .fp32 else if b == 1 then .i32 else if b == 2 then .n32 else if b == 3 then .i16 else .n16

/-- The element width in bits (R198). -/
def Ety.width : Ety → Nat
  | .fp32 => 32 | .i32 => 32 | .n32 => 32 | .i16 => 16 | .n16 => 16

/-- How many elements a vector register holds (R198). -/
def Ety.count : Ety → Nat
  | .fp32 => 64 | .i32 => 64 | .n32 => 64 | .i16 => 128 | .n16 => 128

/-- R201: zeroing needs a mask. -/
def VOpt.wf (o : VOpt) : Bool := !o.zm || o.men

/-- No mask field is set: all a word may carry whose table forbids a mask (R202). -/
def VOpt.plain (o : VOpt) : Bool := !o.men && !o.zm && o.mreg == 0

/-- The rounding-mode code (R92, R201). -/
def Rm.code : Rm → BitVec 2
  | .rne => 0 | .rtz => 1 | .sr => 2

/-- The rounding mode of a code; 3 is reserved and never reaches it. -/
def Rm.ofCode (b : BitVec 2) : Rm := if b == 0 then .rne else if b == 1 then .rtz else .sr

/-- R201: a seed register is named only with stochastic rounding. -/
def Rnd.wf (r : Rnd) : Bool := r.rm == .sr || r.seed == 0

/-- Round to nearest even: every rounding field zero. -/
def Rnd.rne : Rnd := ⟨.rne, 0⟩

/-- The register field of a shift count. -/
def ShCnt.o3 : ShCnt → BitVec 6
  | .reg v => v.setWidth 6
  | .imm _ => 0

/-- The `XI` field of a shift count. -/
def ShCnt.xi : ShCnt → BitVec 16
  | .reg _ => 0
  | .imm n => n

/-- The bit of `XF` that selects the immediate form. -/
def ShCnt.flag (c : ShCnt) (bit : BitVec 8) : BitVec 8 :=
  match c with
  | .reg _ => 0
  | .imm _ => bit

/-- R206, R210: an immediate count is below the element width. -/
def ShCnt.wf (c : ShCnt) (width : Nat) : Bool :=
  match c with
  | .reg _ => true
  | .imm n => n.toNat < width

/-- The condition code of `VCMP` (R207). -/
def VCond.code : VCond → BitVec 3
  | .eq => 0 | .ne => 1 | .lt => 2 | .le => 3 | .gt => 4 | .ge => 5

/-- The condition of a code below 6. -/
def VCond.ofCode (b : BitVec 3) : VCond :=
  if b == 0 then .eq else if b == 1 then .ne else if b == 2 then .lt else if b == 3 then .le else if b == 4 then .gt else .ge

/-- The operation code of `VRED` and `VSCAN` (R213). -/
def RedOp.code : RedOp → BitVec 2
  | .add => 0 | .max => 1 | .min => 2

/-- The operation of a code below 3. -/
def RedOp.ofCode (b : BitVec 2) : RedOp := if b == 0 then .add else if b == 1 then .max else .min

/-- The payload of `NEST.OPT` (R227). -/
def NestOpt.bits (n : NestOpt) : BitVec 52 :=
  0#30 ++ BitVec.ofBool n.tagp ++ BitVec.ofBool n.rmb ++ BitVec.ofBool n.rma ++ n.pi ++ n.gg ++ n.nb ++ n.na

/-- The options a `NEST.OPT` payload holds (R227). -/
def NestOpt.ofBits (x : BitVec 52) : NestOpt :=
  { na := x.extractLsb' 0 4, nb := x.extractLsb' 4 4, gg := x.extractLsb' 8 2, pi := x.extractLsb' 10 9,
    rma := x.getLsbD 19, rmb := x.getLsbD 20, tagp := x.getLsbD 21 }

/-- The payload of `BLK.BEGIN` (R279). -/
def BlkParm.bits (p : BlkParm) : BitVec 52 :=
  p.hsave ++ BitVec.ofBool p.rcp ++ BitVec.ofBool p.dem ++ p.nseed ++ p.fsz

/-- The options a `BLK.BEGIN` payload holds (R279). -/
def BlkParm.ofBits (x : BitVec 52) : BlkParm :=
  { fsz := x.extractLsb' 0 10, nseed := x.extractLsb' 10 8, dem := x.getLsbD 18, rcp := x.getLsbD 19, hsave := x.extractLsb' 20 32 }

/-- The number of a control register (R324). -/
def Ctl.num : Ctl → BitVec 7
  | .ptx => 0x00 | .pty => 0x01 | .ptz => 0x02 | .kseed => 0x03 | .qslip => 0x04 | .devid => 0x05
  | .blkst => 0x08 | .blkpc => 0x09 | .blkcur => 0x0A | .cycle => 0x0C
  | .tvec => 0x10 | .tcause => 0x11 | .tcut => 0x12 | .tscratch => 0x13
  | .dbgctl => 0x18 | .asid => 0x19 | .partn => 0x1A | .bevt => 0x1B

/-- Every control register, in the order of its number. -/
def Ctl.all : List Ctl :=
  [.ptx, .pty, .ptz, .kseed, .qslip, .devid, .blkst, .blkpc, .blkcur, .cycle, .tvec, .tcause, .tcut, .tscratch, .dbgctl, .asid,
   .partn, .bevt]

/-- The control register a number is assigned to (R324). -/
def Ctl.ofNum (n : BitVec 7) : Option Ctl := Ctl.all.find? (fun c => c.num == n)

/-- R324: which registers a core in the given mode may read. -/
def Ctl.readable (priv : Bool) : Ctl → Bool
  | .tvec | .tcause | .tcut | .tscratch | .asid | .partn | .bevt => priv
  | _ => true

/-- R324: which registers a core in the given mode may write (those the table marks RW). -/
def Ctl.writable (priv : Bool) : Ctl → Bool
  | .qslip => true
  | .tvec | .tcause | .tcut | .tscratch | .dbgctl => priv
  | _ => false

/-- R248: the bounds that no wait may name. -/
def badLim (lim : BitVec 6) : Bool := 41 ≤ lim.toNat && lim.toNat ≤ 62

/-- The 16-bit formats of packing (R209). -/
def fmt16 (c : BitVec 8) : Bool := c == 0x02 || c == 0x03 || c == 0x05 || c == 0x08

/-- The 32-bit formats of `VCVT` (R212). -/
def fmt32 (c : BitVec 8) : Bool := c == 0x01 || c == 0x04 || c == 0x07

/-- The packed-pixel formats (R84, R209). -/
def fmtPix (c : BitVec 8) : Bool := c == 0x0A || c == 0x0B || c == 0x0C

/-- The width of a packed pixel (R84). -/
def pixWidth (c : BitVec 8) : Nat := if c == 0x0A then 10 else if c == 0x0B then 12 else 14

/-- The pairs of formats that `VCVT` converts between (R212). -/
def cvtPair (sf df : BitVec 8) : Bool := (fmt32 sf && fmt32 df) || (fmt16 sf && fmt16 df)

/-- The payload of majors `0x34` and `0x3B` (R248). -/
def cpx (rnd : Rnd) (dscale : BitVec 8) (gen : Bool) (xr : BitVec 6) (op : BitVec 3) (sz : BitVec 1) (lim : BitVec 6) : BitVec 52 :=
  0#19 ++ lim ++ sz ++ op ++ xr ++ BitVec.ofBool gen ++ dscale ++ rnd.seed ++ rnd.rm.code

/-- The payload of the vector majors (R201). -/
def vx (o : VOpt) (rm : BitVec 2) (seed : BitVec 6) (xi : BitVec 16) (xf : BitVec 8) (o4 : BitVec 6) : BitVec 52 :=
  0#6 ++ o4 ++ xf ++ xi ++ seed ++ rm ++ BitVec.ofBool o.zm ++ o.mreg ++ BitVec.ofBool o.men ++ o.ety.code

/-- The row is an event row of the opcode table: something the device or its surroundings do, which has no instruction word. -/
def Instr.isEvent : Instr → Bool
  | .add .. => false
  | .sub .. => false
  | .mul .. => false
  | .mulh .. => false
  | .mulhu .. => false
  | .div .. => false
  | .divu .. => false
  | .rem .. => false
  | .remu .. => false
  | .and .. => false
  | .or .. => false
  | .xor .. => false
  | .andn .. => false
  | .orn .. => false
  | .shl .. => false
  | .shr .. => false
  | .sra .. => false
  | .rol .. => false
  | .ror .. => false
  | .min .. => false
  | .max .. => false
  | .minu .. => false
  | .maxu .. => false
  | .clz .. => false
  | .ctz .. => false
  | .popc .. => false
  | .brev .. => false
  | .bswap .. => false
  | .bfx .. => false
  | .bfxS .. => false
  | .bfi .. => false
  | .fshl .. => false
  | .fshlImm .. => false
  | .fshr .. => false
  | .fshrImm .. => false
  | .sel .. => false
  | .mov .. => false
  | .lea .. => false
  | .padd .. => false
  | .pidx .. => false
  | .pidxSet .. => false
  | .cmpEq .. => false
  | .cmpNe .. => false
  | .cmpLt .. => false
  | .cmpLe .. => false
  | .cmpLtu .. => false
  | .cmpLeu .. => false
  | .pand .. => false
  | .por .. => false
  | .pnot .. => false
  | .ldi .. => false
  | .addi .. => false
  | .andi .. => false
  | .ori .. => false
  | .xori .. => false
  | .shli .. => false
  | .shri .. => false
  | .srai .. => false
  | .cmpiEq .. => false
  | .cmpiNe .. => false
  | .cmpiLt .. => false
  | .cmpiLe .. => false
  | .cmpiLtu .. => false
  | .cmpiLeu .. => false
  | .br .. => false
  | .jmp .. => false
  | .call .. => false
  | .loop .. => false
  | .jr .. => false
  | .ret .. => false
  | .yield .. => false
  | .halt .. => false
  | .bkpt .. => false
  | .waitn .. => false
  | .ldB .. => false
  | .ldH .. => false
  | .ldW .. => false
  | .ldD .. => false
  | .ldQ .. => false
  | .ldsB .. => false
  | .ldsH .. => false
  | .ldsW .. => false
  | .stB .. => false
  | .stH .. => false
  | .stW .. => false
  | .stD .. => false
  | .stQ .. => false
  | .ldAcqB .. => false
  | .ldAcqH .. => false
  | .ldAcqW .. => false
  | .ldAcqD .. => false
  | .ldAcqQ .. => false
  | .stRelB .. => false
  | .stRelH .. => false
  | .stRelW .. => false
  | .stRelD .. => false
  | .stRelQ .. => false
  | .pfL1 .. => false
  | .pfMsc .. => false
  | .amoAddW .. => false
  | .amoAddD .. => false
  | .amoAndW .. => false
  | .amoAndD .. => false
  | .amoOrW .. => false
  | .amoOrD .. => false
  | .amoXorW .. => false
  | .amoXorD .. => false
  | .amoMinW .. => false
  | .amoMinD .. => false
  | .amoMaxW .. => false
  | .amoMaxD .. => false
  | .amoMinuW .. => false
  | .amoMinuD .. => false
  | .amoMaxuW .. => false
  | .amoMaxuD .. => false
  | .amoSwapW .. => false
  | .amoSwapD .. => false
  | .amoCasW .. => false
  | .amoCasD .. => false
  | .amoCasQ .. => false
  | .amoFaddW .. => false
  | .tokWait .. => false
  | .tokClr .. => false
  | .mark .. => false
  | .fence .. => false
  | .acq .. => false
  | .rel .. => false
  | .acqP .. => false
  | .gateInit .. => false
  | .gateArr .. => false
  | .gateWait .. => false
  | .rpush .. => false
  | .rpop .. => false
  | .vadd .. => false
  | .vsub .. => false
  | .vmul .. => false
  | .vmad .. => false
  | .vmin .. => false
  | .vmax .. => false
  | .vabs .. => false
  | .vneg .. => false
  | .vrelu .. => false
  | .vexp2 .. => false
  | .vlog2 .. => false
  | .vrcp .. => false
  | .vrsq .. => false
  | .vtanh .. => false
  | .vand .. => false
  | .vor .. => false
  | .vxor .. => false
  | .vnot .. => false
  | .vshl .. => false
  | .vshr .. => false
  | .vsra .. => false
  | .vcmp .. => false
  | .vsel .. => false
  | .mand .. => false
  | .mor .. => false
  | .mnot .. => false
  | .mpopc .. => false
  | .vadds .. => false
  | .vsubs .. => false
  | .vmulh .. => false
  | .vavg .. => false
  | .vsad .. => false
  | .vpack .. => false
  | .vunpk .. => false
  | .pixUnpk .. => false
  | .pixPack .. => false
  | .vbfx .. => false
  | .vbfi .. => false
  | .vfshR .. => false
  | .vfshL .. => false
  | .vclz .. => false
  | .vpopc .. => false
  | .vlut .. => false
  | .vcvt .. => false
  | .vred .. => false
  | .vscan .. => false
  | .vperm .. => false
  | .vshuf .. => false
  | .vbcast .. => false
  | .vbcastE .. => false
  | .vidx .. => false
  | .vmov .. => false
  | .trd .. => false
  | .twr .. => false
  | .vld .. => false
  | .vlds .. => false
  | .vgath .. => false
  | .vst .. => false
  | .vsts .. => false
  | .vscat .. => false
  | .vstSrPtr .. => false
  | .vstSrHdl .. => false
  | .vstAcc .. => false
  | .nestClr .. => false
  | .nestLvl .. => false
  | .nestOpt .. => false
  | .nestAcc .. => false
  | .mmRun .. => false
  | .mmBatch .. => false
  | .accInit .. => false
  | .accFlush .. => false
  | .accRd .. => false
  | .accWr .. => false
  | .accWrAdd .. => false
  | .planePack .. => false
  | .planeUnpk .. => false
  | .hdlSet .. => false
  | .hdlInv .. => false
  | .cp .. => false
  | .cpAcc .. => false
  | .cpDec .. => false
  | .cpCmp .. => false
  | .cpPf .. => false
  | .glean .. => false
  | .blkBegin .. => false
  | .blkEnd .. => false
  | .revb .. => false
  | .gradZeroV .. => false
  | .gradZeroAcc .. => false
  | .gradZeroH .. => false
  | .rsBind .. => false
  | .rsPush .. => false
  | .rsPop .. => false
  | .rsMark .. => false
  | .rsDrop .. => false
  | .rsSpill .. => false
  | .launch .. => false
  | .ptDone .. => false
  | .ptSelf .. => false
  | .tlRead .. => false
  | .chSend .. => false
  | .chRecv .. => false
  | .chPut .. => false
  | .chMcast .. => false
  | .chGet .. => false
  | .sioRead .. => false
  | .chAmo .. => false
  | .chQry .. => false
  | .trap .. => false
  | .tret .. => false
  | .ctlRd .. => false
  | .ctlWr .. => false
  | .ctlWrImm .. => false
  | .cutSave .. => false
  | .cutLoad .. => false
  | .park .. => false
  | .wake .. => false
  | .idle .. => false
  | .probe .. => false
  | .probeRes .. => false
  | .mmuInv .. => false
  | .mmuSync .. => false
  | .mmuWalk .. => false
  | .keyLoad .. => false
  | .keyKill .. => false
  | .entryStart .. => true
  | .entryComplete .. => true
  | .l1WriteBack .. => true
  | .l1Drop .. => true
  | .promotionRequest .. => true
  | .promotionEnd .. => true
  | .gateArrival .. => true
  | .ringSlotRead .. => true
  | .deferredAccept .. => true
  | .pointFire .. => true
  | .outOfTurnService .. => true
  | .pointStart .. => true
  | .ptDoneRetire .. => true
  | .trapTaken .. => true
  | .cutComplete .. => true
  | .waitTimeout .. => true
  | .drainTimeout .. => true
  | .revbWalk .. => true
  | .spillEngineMove .. => true
  | .fltack .. => true
  | .pagePullRequest .. => true
  | .pullDataArrival .. => true
  | .forwardedAtomic .. => true
  | .redirect .. => true
  | .remoteAdmit .. => true
  | .mcastAggAck .. => true
  | .linkFlitRefused .. => true
  | .linkRetrain .. => true
  | .windowRevoke .. => true
  | .windowRetire .. => true
  | .windowCmdEnd .. => true
  | .pcmdSuspend .. => true
  | .suspendDrainEnd .. => true
  | .pcmdResume .. => true
  | .pcmdDhalt .. => true
  | .pcmdDrun .. => true
  | .pcmdKill .. => true
  | .roleCommand .. => true
  | .migArm .. => true
  | .migFreeze .. => true
  | .freezeComplete .. => true
  | .migSend .. => true
  | .migResume .. => true
  | .migDrain .. => true
  | .drainComplete .. => true
  | .migRelease .. => true
  | .migAbort .. => true
  | .doorbellTail .. => true
  | .rovfClear .. => true
  | .nvmeCompletion .. => true
  | .sioCommandTimeout .. => true
  | .selfRefreshEnter .. => true
  | .selfRefreshExit .. => true
  | .powerStepDown => true
  | .powerStepUp => true
  | .parkRegate .. => true
  | .coldStart => true
  | .bootStage .. => true
  | .startStall => true
  | .phyReadTest .. => true
  | .phyWriteReadTest .. => true
  | .phyTestComplete .. => true
  | .phyRdall .. => true
  | .phyWrall .. => true
  | .mdptrWrite .. => true
  | .mdvalWrite .. => true
  | .pfdropRead .. => true
  | .rdcntRead .. => true
  | .qerrRead .. => true
  | .registerWrite .. => true
  | .provision .. => true
  | .release .. => true
  | .preset .. => true
  | .wreset => true
  | .telem => true
  | .clrcnt => true
  | .fullreq => true
  | .tagfr .. => true
  | .retire .. => true
  | .hamletFence .. => true
  | .unfence .. => true
  | .plimit .. => true
  | .attest .. => true
  | .trnWrite .. => true
  | .clockStepChange .. => true
  | .powerLoss => true
  | .routeReturns .. => true
  | .imageSent .. => true
  | .hostMailboxWrite => true

/-- The header of the instruction's governed word; an event row has none. -/
def Instr.hdr? : Instr → Option Hdr
  | .add h _ _ _ => some h
  | .sub h _ _ _ => some h
  | .mul h _ _ _ => some h
  | .mulh h _ _ _ => some h
  | .mulhu h _ _ _ => some h
  | .div h _ _ _ => some h
  | .divu h _ _ _ => some h
  | .rem h _ _ _ => some h
  | .remu h _ _ _ => some h
  | .and h _ _ _ => some h
  | .or h _ _ _ => some h
  | .xor h _ _ _ => some h
  | .andn h _ _ _ => some h
  | .orn h _ _ _ => some h
  | .shl h _ _ _ => some h
  | .shr h _ _ _ => some h
  | .sra h _ _ _ => some h
  | .rol h _ _ _ => some h
  | .ror h _ _ _ => some h
  | .min h _ _ _ => some h
  | .max h _ _ _ => some h
  | .minu h _ _ _ => some h
  | .maxu h _ _ _ => some h
  | .clz h _ _ => some h
  | .ctz h _ _ => some h
  | .popc h _ _ => some h
  | .brev h _ _ => some h
  | .bswap h _ _ => some h
  | .bfx h _ _ _ _ => some h
  | .bfxS h _ _ _ _ => some h
  | .bfi h _ _ _ _ _ => some h
  | .fshl h _ _ _ _ => some h
  | .fshlImm h _ _ _ _ => some h
  | .fshr h _ _ _ _ => some h
  | .fshrImm h _ _ _ _ => some h
  | .sel h _ _ _ _ => some h
  | .mov h _ _ => some h
  | .lea h _ _ => some h
  | .padd h _ _ _ _ => some h
  | .pidx h _ _ => some h
  | .pidxSet h _ _ _ => some h
  | .cmpEq h _ _ _ => some h
  | .cmpNe h _ _ _ => some h
  | .cmpLt h _ _ _ => some h
  | .cmpLe h _ _ _ => some h
  | .cmpLtu h _ _ _ => some h
  | .cmpLeu h _ _ _ => some h
  | .pand h _ _ _ => some h
  | .por h _ _ _ => some h
  | .pnot h _ _ => some h
  | .ldi h _ _ => some h
  | .addi h _ _ _ => some h
  | .andi h _ _ _ => some h
  | .ori h _ _ _ => some h
  | .xori h _ _ _ => some h
  | .shli h _ _ _ => some h
  | .shri h _ _ _ => some h
  | .srai h _ _ _ => some h
  | .cmpiEq h _ _ _ => some h
  | .cmpiNe h _ _ _ => some h
  | .cmpiLt h _ _ _ => some h
  | .cmpiLe h _ _ _ => some h
  | .cmpiLtu h _ _ _ => some h
  | .cmpiLeu h _ _ _ => some h
  | .br h _ => some h
  | .jmp h _ => some h
  | .call h _ _ => some h
  | .loop h _ _ => some h
  | .jr h _ => some h
  | .ret h _ => some h
  | .yield h => some h
  | .halt h => some h
  | .bkpt h _ => some h
  | .waitn h _ _ _ _ _ => some h
  | .ldB h _ _ => some h
  | .ldH h _ _ => some h
  | .ldW h _ _ => some h
  | .ldD h _ _ => some h
  | .ldQ h _ _ => some h
  | .ldsB h _ _ => some h
  | .ldsH h _ _ => some h
  | .ldsW h _ _ => some h
  | .stB h _ _ => some h
  | .stH h _ _ => some h
  | .stW h _ _ => some h
  | .stD h _ _ => some h
  | .stQ h _ _ => some h
  | .ldAcqB h _ _ _ => some h
  | .ldAcqH h _ _ _ => some h
  | .ldAcqW h _ _ _ => some h
  | .ldAcqD h _ _ _ => some h
  | .ldAcqQ h _ _ _ => some h
  | .stRelB h _ _ _ => some h
  | .stRelH h _ _ _ => some h
  | .stRelW h _ _ _ => some h
  | .stRelD h _ _ _ => some h
  | .stRelQ h _ _ _ => some h
  | .pfL1 h _ => some h
  | .pfMsc h _ => some h
  | .amoAddW h _ _ _ _ => some h
  | .amoAddD h _ _ _ _ => some h
  | .amoAndW h _ _ _ _ => some h
  | .amoAndD h _ _ _ _ => some h
  | .amoOrW h _ _ _ _ => some h
  | .amoOrD h _ _ _ _ => some h
  | .amoXorW h _ _ _ _ => some h
  | .amoXorD h _ _ _ _ => some h
  | .amoMinW h _ _ _ _ => some h
  | .amoMinD h _ _ _ _ => some h
  | .amoMaxW h _ _ _ _ => some h
  | .amoMaxD h _ _ _ _ => some h
  | .amoMinuW h _ _ _ _ => some h
  | .amoMinuD h _ _ _ _ => some h
  | .amoMaxuW h _ _ _ _ => some h
  | .amoMaxuD h _ _ _ _ => some h
  | .amoSwapW h _ _ _ _ => some h
  | .amoSwapD h _ _ _ _ => some h
  | .amoCasW h _ _ _ _ => some h
  | .amoCasD h _ _ _ _ => some h
  | .amoCasQ h _ _ _ _ => some h
  | .amoFaddW h _ _ _ _ => some h
  | .tokWait h _ => some h
  | .tokClr h _ _ _ => some h
  | .mark h _ => some h
  | .fence h _ _ => some h
  | .acq h _ _ => some h
  | .rel h _ _ => some h
  | .acqP h _ _ => some h
  | .gateInit h _ _ _ => some h
  | .gateArr h _ _ _ => some h
  | .gateWait h _ _ _ _ => some h
  | .rpush h _ _ _ _ => some h
  | .rpop h _ _ _ _ => some h
  | .vadd h _ _ _ _ _ => some h
  | .vsub h _ _ _ _ _ => some h
  | .vmul h _ _ _ _ _ => some h
  | .vmad h _ _ _ _ _ => some h
  | .vmin h _ _ _ _ _ => some h
  | .vmax h _ _ _ _ _ => some h
  | .vabs h _ _ _ _ => some h
  | .vneg h _ _ _ _ => some h
  | .vrelu h _ _ _ _ => some h
  | .vexp2 h _ _ _ _ => some h
  | .vlog2 h _ _ _ _ => some h
  | .vrcp h _ _ _ _ => some h
  | .vrsq h _ _ _ _ => some h
  | .vtanh h _ _ _ _ => some h
  | .vand h _ _ _ _ _ => some h
  | .vor h _ _ _ _ _ => some h
  | .vxor h _ _ _ _ _ => some h
  | .vnot h _ _ _ _ => some h
  | .vshl h _ _ _ _ _ => some h
  | .vshr h _ _ _ _ _ => some h
  | .vsra h _ _ _ _ _ => some h
  | .vcmp h _ _ _ _ _ _ => some h
  | .vsel h _ _ _ _ _ _ => some h
  | .mand h _ _ _ _ => some h
  | .mor h _ _ _ _ => some h
  | .mnot h _ _ _ => some h
  | .mpopc h _ _ _ _ => some h
  | .vadds h _ _ _ _ _ => some h
  | .vsubs h _ _ _ _ _ => some h
  | .vmulh h _ _ _ _ _ => some h
  | .vavg h _ _ _ _ _ => some h
  | .vsad h _ _ _ _ _ => some h
  | .vpack h _ _ _ _ _ _ _ => some h
  | .vunpk h _ _ _ _ _ _ _ => some h
  | .pixUnpk h _ _ _ _ _ _ => some h
  | .pixPack h _ _ _ _ _ => some h
  | .vbfx h _ _ _ _ _ _ => some h
  | .vbfi h _ _ _ _ _ => some h
  | .vfshR h _ _ _ _ _ _ => some h
  | .vfshL h _ _ _ _ _ _ => some h
  | .vclz h _ _ _ _ => some h
  | .vpopc h _ _ _ _ => some h
  | .vlut h _ _ _ _ _ => some h
  | .vcvt h _ _ _ _ _ _ _ => some h
  | .vred h _ _ _ _ _ => some h
  | .vscan h _ _ _ _ _ => some h
  | .vperm h _ _ _ _ _ => some h
  | .vshuf h _ _ _ _ _ _ _ => some h
  | .vbcast h _ _ _ _ => some h
  | .vbcastE h _ _ _ _ _ => some h
  | .vidx h _ _ _ _ => some h
  | .vmov h _ _ _ _ => some h
  | .trd h _ _ _ _ _ _ => some h
  | .twr h _ _ _ _ _ _ => some h
  | .vld h _ _ _ _ _ _ => some h
  | .vlds h _ _ _ _ _ _ => some h
  | .vgath h _ _ _ _ _ _ => some h
  | .vst h _ _ _ _ _ _ => some h
  | .vsts h _ _ _ _ _ _ => some h
  | .vscat h _ _ _ _ _ _ => some h
  | .vstSrPtr h _ _ _ _ _ _ _ _ => some h
  | .vstSrHdl h _ _ _ _ _ _ => some h
  | .vstAcc h _ _ _ _ _ _ _ => some h
  | .nestClr h _ _ => some h
  | .nestLvl h _ _ _ _ _ _ => some h
  | .nestOpt h _ _ _ _ => some h
  | .nestAcc h _ _ _ _ _ => some h
  | .mmRun h _ _ _ _ => some h
  | .mmBatch h _ _ _ _ => some h
  | .accInit h _ _ _ => some h
  | .accFlush h _ _ => some h
  | .accRd h _ _ _ _ _ _ => some h
  | .accWr h _ _ _ _ _ => some h
  | .accWrAdd h _ _ _ _ _ => some h
  | .planePack h _ _ _ _ => some h
  | .planeUnpk h _ _ _ _ => some h
  | .hdlSet h _ _ _ => some h
  | .hdlInv h _ _ => some h
  | .cp h _ _ _ _ _ _ _ => some h
  | .cpAcc h _ _ _ _ _ => some h
  | .cpDec h _ _ _ _ _ => some h
  | .cpCmp h _ _ _ _ _ _ _ => some h
  | .cpPf h _ _ => some h
  | .glean h _ _ _ _ _ => some h
  | .blkBegin h _ _ _ => some h
  | .blkEnd h => some h
  | .revb h => some h
  | .gradZeroV h _ _ => some h
  | .gradZeroAcc h _ _ => some h
  | .gradZeroH h _ _ => some h
  | .rsBind h _ _ => some h
  | .rsPush h _ _ => some h
  | .rsPop h _ _ => some h
  | .rsMark h _ => some h
  | .rsDrop h _ => some h
  | .rsSpill h _ => some h
  | .launch h _ _ => some h
  | .ptDone h _ => some h
  | .ptSelf h _ _ => some h
  | .tlRead h _ _ _ => some h
  | .chSend h _ _ _ => some h
  | .chRecv h _ _ _ _ => some h
  | .chPut h _ _ _ _ _ _ => some h
  | .chMcast h _ _ _ _ _ _ => some h
  | .chGet h _ _ _ _ _ _ => some h
  | .sioRead h _ _ _ _ _ _ => some h
  | .chAmo h _ _ _ _ _ _ _ => some h
  | .chQry h _ _ _ => some h
  | .trap h _ => some h
  | .tret h _ => some h
  | .ctlRd h _ _ => some h
  | .ctlWr h _ _ => some h
  | .ctlWrImm h _ _ => some h
  | .cutSave h _ _ _ => some h
  | .cutLoad h _ _ _ => some h
  | .park h _ _ => some h
  | .wake h _ _ => some h
  | .idle h => some h
  | .probe h _ _ _ _ => some h
  | .probeRes h _ _ _ _ => some h
  | .mmuInv h _ _ _ _ _ _ => some h
  | .mmuSync h _ => some h
  | .mmuWalk h _ _ _ _ => some h
  | .keyLoad h _ _ _ => some h
  | .keyKill h _ _ => some h
  | .entryStart .. => none
  | .entryComplete .. => none
  | .l1WriteBack .. => none
  | .l1Drop .. => none
  | .promotionRequest .. => none
  | .promotionEnd .. => none
  | .gateArrival .. => none
  | .ringSlotRead .. => none
  | .deferredAccept .. => none
  | .pointFire .. => none
  | .outOfTurnService .. => none
  | .pointStart .. => none
  | .ptDoneRetire .. => none
  | .trapTaken .. => none
  | .cutComplete .. => none
  | .waitTimeout .. => none
  | .drainTimeout .. => none
  | .revbWalk .. => none
  | .spillEngineMove .. => none
  | .fltack .. => none
  | .pagePullRequest .. => none
  | .pullDataArrival .. => none
  | .forwardedAtomic .. => none
  | .redirect .. => none
  | .remoteAdmit .. => none
  | .mcastAggAck .. => none
  | .linkFlitRefused .. => none
  | .linkRetrain .. => none
  | .windowRevoke .. => none
  | .windowRetire .. => none
  | .windowCmdEnd .. => none
  | .pcmdSuspend .. => none
  | .suspendDrainEnd .. => none
  | .pcmdResume .. => none
  | .pcmdDhalt .. => none
  | .pcmdDrun .. => none
  | .pcmdKill .. => none
  | .roleCommand .. => none
  | .migArm .. => none
  | .migFreeze .. => none
  | .freezeComplete .. => none
  | .migSend .. => none
  | .migResume .. => none
  | .migDrain .. => none
  | .drainComplete .. => none
  | .migRelease .. => none
  | .migAbort .. => none
  | .doorbellTail .. => none
  | .rovfClear .. => none
  | .nvmeCompletion .. => none
  | .sioCommandTimeout .. => none
  | .selfRefreshEnter .. => none
  | .selfRefreshExit .. => none
  | .powerStepDown => none
  | .powerStepUp => none
  | .parkRegate .. => none
  | .coldStart => none
  | .bootStage .. => none
  | .startStall => none
  | .phyReadTest .. => none
  | .phyWriteReadTest .. => none
  | .phyTestComplete .. => none
  | .phyRdall .. => none
  | .phyWrall .. => none
  | .mdptrWrite .. => none
  | .mdvalWrite .. => none
  | .pfdropRead .. => none
  | .rdcntRead .. => none
  | .qerrRead .. => none
  | .registerWrite .. => none
  | .provision .. => none
  | .release .. => none
  | .preset .. => none
  | .wreset => none
  | .telem => none
  | .clrcnt => none
  | .fullreq => none
  | .tagfr .. => none
  | .retire .. => none
  | .hamletFence .. => none
  | .unfence .. => none
  | .plimit .. => none
  | .attest .. => none
  | .trnWrite .. => none
  | .clockStepChange .. => none
  | .powerLoss => none
  | .routeReturns .. => none
  | .imageSent .. => none
  | .hostMailboxWrite => none

/-- The operands name a unit that some word of the device encodes (R150 to R154, and each chapter's own table). -/
def Instr.operandsWf : Instr → Bool
  | .add h _ _ _ => !h.ext
  | .sub h _ _ _ => !h.ext
  | .mul h _ _ _ => !h.ext
  | .mulh h _ _ _ => !h.ext
  | .mulhu h _ _ _ => !h.ext
  | .div h _ _ _ => !h.ext
  | .divu h _ _ _ => !h.ext
  | .rem h _ _ _ => !h.ext
  | .remu h _ _ _ => !h.ext
  | .and h _ _ _ => !h.ext
  | .or h _ _ _ => !h.ext
  | .xor h _ _ _ => !h.ext
  | .andn h _ _ _ => !h.ext
  | .orn h _ _ _ => !h.ext
  | .shl h _ _ _ => !h.ext
  | .shr h _ _ _ => !h.ext
  | .sra h _ _ _ => !h.ext
  | .rol h _ _ _ => !h.ext
  | .ror h _ _ _ => !h.ext
  | .min h _ _ _ => !h.ext
  | .max h _ _ _ => !h.ext
  | .minu h _ _ _ => !h.ext
  | .maxu h _ _ _ => !h.ext
  | .clz h _ _ => !h.ext
  | .ctz h _ _ => !h.ext
  | .popc h _ _ => !h.ext
  | .brev h _ _ => !h.ext
  | .bswap h _ _ => !h.ext
  | .bfx h _ _ pos lenm1 => !h.ext && (pos.toNat + lenm1.toNat + 1 <= 64)
  | .bfxS h _ _ pos lenm1 => !h.ext && (pos.toNat + lenm1.toNat + 1 <= 64)
  | .bfi h _ _ _ pos lenm1 => !h.ext && (pos.toNat + lenm1.toNat + 1 <= 64)
  | .fshl h _ _ _ _ => !h.ext
  | .fshlImm h _ _ _ _ => !h.ext
  | .fshr h _ _ _ _ => !h.ext
  | .fshrImm h _ _ _ _ => !h.ext
  | .sel h _ _ _ _ => !h.ext
  | .mov h _ _ => !h.ext
  | .lea h _ mem => !h.ext && (mem.ks.toNat <= 4)
  | .padd h _ _ _ _ => !h.ext
  | .pidx h _ _ => !h.ext
  | .pidxSet h _ _ _ => !h.ext
  | .cmpEq h _ _ _ => !h.ext
  | .cmpNe h _ _ _ => !h.ext
  | .cmpLt h _ _ _ => !h.ext
  | .cmpLe h _ _ _ => !h.ext
  | .cmpLtu h _ _ _ => !h.ext
  | .cmpLeu h _ _ _ => !h.ext
  | .pand h _ _ _ => !h.ext
  | .por h _ _ _ => !h.ext
  | .pnot h _ _ => !h.ext
  | .ldi h _ imm => (immFits h imm)
  | .addi h _ _ imm => (immFits h imm)
  | .andi h _ _ imm => (immFits h imm)
  | .ori h _ _ imm => (immFits h imm)
  | .xori h _ _ imm => (immFits h imm)
  | .shli h _ _ _ => !h.ext
  | .shri h _ _ _ => !h.ext
  | .srai h _ _ _ => !h.ext
  | .cmpiEq h _ _ imm => (immFits h imm)
  | .cmpiNe h _ _ imm => (immFits h imm)
  | .cmpiLt h _ _ imm => (immFits h imm)
  | .cmpiLe h _ _ imm => (immFits h imm)
  | .cmpiLtu h _ _ imm => (immFits h imm)
  | .cmpiLeu h _ _ imm => (immFits h imm)
  | .br h _ => !h.ext
  | .jmp h _ => !h.ext
  | .call h _ _ => !h.ext
  | .loop h _ _ => !h.ext
  | .jr h _ => !h.ext
  | .ret h _ => !h.ext
  | .yield h => !h.ext
  | .halt h => !h.ext
  | .bkpt h _ => !h.ext
  | .waitn h _ _ _ _ _ => !h.ext
  | .ldB h _ mem => !h.ext && (mem.ks.toNat <= 4)
  | .ldH h _ mem => !h.ext && (mem.ks.toNat <= 4)
  | .ldW h _ mem => !h.ext && (mem.ks.toNat <= 4)
  | .ldD h _ mem => !h.ext && (mem.ks.toNat <= 4)
  | .ldQ h d mem => !h.ext && (mem.ks.toNat <= 4) && (!d.getLsbD 0)
  | .ldsB h _ mem => !h.ext && (mem.ks.toNat <= 4)
  | .ldsH h _ mem => !h.ext && (mem.ks.toNat <= 4)
  | .ldsW h _ mem => !h.ext && (mem.ks.toNat <= 4)
  | .stB h _ mem => !h.ext && (mem.ks.toNat <= 4)
  | .stH h _ mem => !h.ext && (mem.ks.toNat <= 4)
  | .stW h _ mem => !h.ext && (mem.ks.toNat <= 4)
  | .stD h _ mem => !h.ext && (mem.ks.toNat <= 4)
  | .stQ h c mem => !h.ext && (mem.ks.toNat <= 4) && (!c.getLsbD 0)
  | .ldAcqB h _ mem _ => !h.ext && (mem.ks.toNat <= 4)
  | .ldAcqH h _ mem _ => !h.ext && (mem.ks.toNat <= 4)
  | .ldAcqW h _ mem _ => !h.ext && (mem.ks.toNat <= 4)
  | .ldAcqD h _ mem _ => !h.ext && (mem.ks.toNat <= 4)
  | .ldAcqQ h d mem _ => !h.ext && (mem.ks.toNat <= 4) && (!d.getLsbD 0)
  | .stRelB h _ mem _ => !h.ext && (mem.ks.toNat <= 4)
  | .stRelH h _ mem _ => !h.ext && (mem.ks.toNat <= 4)
  | .stRelW h _ mem _ => !h.ext && (mem.ks.toNat <= 4)
  | .stRelD h _ mem _ => !h.ext && (mem.ks.toNat <= 4)
  | .stRelQ h c mem _ => !h.ext && (mem.ks.toNat <= 4) && (!c.getLsbD 0)
  | .pfL1 h mem => !h.ext && (mem.ks.toNat <= 4)
  | .pfMsc h mem => !h.ext && (mem.ks.toNat <= 4)
  | .amoAddW h _ mem _ _ => !h.ext && (mem.ks.toNat <= 4)
  | .amoAddD h _ mem _ _ => !h.ext && (mem.ks.toNat <= 4)
  | .amoAndW h _ mem _ _ => !h.ext && (mem.ks.toNat <= 4)
  | .amoAndD h _ mem _ _ => !h.ext && (mem.ks.toNat <= 4)
  | .amoOrW h _ mem _ _ => !h.ext && (mem.ks.toNat <= 4)
  | .amoOrD h _ mem _ _ => !h.ext && (mem.ks.toNat <= 4)
  | .amoXorW h _ mem _ _ => !h.ext && (mem.ks.toNat <= 4)
  | .amoXorD h _ mem _ _ => !h.ext && (mem.ks.toNat <= 4)
  | .amoMinW h _ mem _ _ => !h.ext && (mem.ks.toNat <= 4)
  | .amoMinD h _ mem _ _ => !h.ext && (mem.ks.toNat <= 4)
  | .amoMaxW h _ mem _ _ => !h.ext && (mem.ks.toNat <= 4)
  | .amoMaxD h _ mem _ _ => !h.ext && (mem.ks.toNat <= 4)
  | .amoMinuW h _ mem _ _ => !h.ext && (mem.ks.toNat <= 4)
  | .amoMinuD h _ mem _ _ => !h.ext && (mem.ks.toNat <= 4)
  | .amoMaxuW h _ mem _ _ => !h.ext && (mem.ks.toNat <= 4)
  | .amoMaxuD h _ mem _ _ => !h.ext && (mem.ks.toNat <= 4)
  | .amoSwapW h _ mem _ _ => !h.ext && (mem.ks.toNat <= 4)
  | .amoSwapD h _ mem _ _ => !h.ext && (mem.ks.toNat <= 4)
  | .amoCasW h _ mem _ _ => !h.ext && (mem.ks.toNat <= 4)
  | .amoCasD h _ mem _ _ => !h.ext && (mem.ks.toNat <= 4)
  | .amoCasQ h d mem c _ => !h.ext && (mem.ks.toNat <= 4) && (!d.getLsbD 0) && (!c.getLsbD 0)
  | .amoFaddW h _ mem _ _ => !h.ext && (mem.ks.toNat <= 4)
  | .tokWait _ t => t.wf
  | .tokClr _ _ _ _ => true
  | .mark _ t => t.wf
  | .fence _ t _ => t.wf
  | .acq _ t _ => t.wf
  | .rel _ t _ => t.wf
  | .acqP _ t _ => t.wf
  | .gateInit _ t _ _ => t.wf
  | .gateArr _ t _ _ => t.wf
  | .gateWait h t _ _ lim => t.wf && (!badLim lim) && (xfits h (lim.setWidth 52))
  | .rpush h t _ _ lim => t.wf && (!badLim lim) && (xfits h (lim.setWidth 52))
  | .rpop h t _ _ lim => t.wf && (!badLim lim) && (xfits h (lim.setWidth 52))
  | .vadd h t o _ _ _ => t.wf && o.wf && (xfits h (vx o 0#2 0#6 0#16 0#8 0#6))
  | .vsub h t o _ _ _ => t.wf && o.wf && (xfits h (vx o 0#2 0#6 0#16 0#8 0#6))
  | .vmul h t o _ _ _ => t.wf && o.wf && (xfits h (vx o 0#2 0#6 0#16 0#8 0#6))
  | .vmad h t o _ _ _ => t.wf && o.wf && (xfits h (vx o 0#2 0#6 0#16 0#8 0#6))
  | .vmin h t o _ _ _ => t.wf && o.wf && (xfits h (vx o 0#2 0#6 0#16 0#8 0#6))
  | .vmax h t o _ _ _ => t.wf && o.wf && (xfits h (vx o 0#2 0#6 0#16 0#8 0#6))
  | .vabs h t o _ _ => t.wf && ([0,1,3].contains o.ety.code.toNat) && o.wf && (xfits h (vx o 0#2 0#6 0#16 0#8 0#6))
  | .vneg h t o _ _ => t.wf && ([0,1,3].contains o.ety.code.toNat) && o.wf && (xfits h (vx o 0#2 0#6 0#16 0#8 0#6))
  | .vrelu h t o _ _ => t.wf && ([0,1,3].contains o.ety.code.toNat) && o.wf && (xfits h (vx o 0#2 0#6 0#16 0#8 0#6))
  | .vexp2 h t o _ _ => t.wf && ([0].contains o.ety.code.toNat) && o.wf && (xfits h (vx o 0#2 0#6 0#16 0#8 0#6))
  | .vlog2 h t o _ _ => t.wf && ([0].contains o.ety.code.toNat) && o.wf && (xfits h (vx o 0#2 0#6 0#16 0#8 0#6))
  | .vrcp h t o _ _ => t.wf && ([0].contains o.ety.code.toNat) && o.wf && (xfits h (vx o 0#2 0#6 0#16 0#8 0#6))
  | .vrsq h t o _ _ => t.wf && ([0].contains o.ety.code.toNat) && o.wf && (xfits h (vx o 0#2 0#6 0#16 0#8 0#6))
  | .vtanh h t o _ _ => t.wf && ([0].contains o.ety.code.toNat) && o.wf && (xfits h (vx o 0#2 0#6 0#16 0#8 0#6))
  | .vand h t o _ _ _ => t.wf && o.wf && (xfits h (vx o 0#2 0#6 0#16 0#8 0#6))
  | .vor h t o _ _ _ => t.wf && o.wf && (xfits h (vx o 0#2 0#6 0#16 0#8 0#6))
  | .vxor h t o _ _ _ => t.wf && o.wf && (xfits h (vx o 0#2 0#6 0#16 0#8 0#6))
  | .vnot h t o _ _ => t.wf && o.wf && (xfits h (vx o 0#2 0#6 0#16 0#8 0#6))
  | .vshl h t o _ _ n => t.wf && (n.wf o.ety.width) && o.wf && (xfits h (vx o 0#2 0#6 n.xi (n.flag 1#8) 0#6))
  | .vshr h t o _ _ n => t.wf && (n.wf o.ety.width) && o.wf && (xfits h (vx o 0#2 0#6 n.xi (n.flag 1#8) 0#6))
  | .vsra h t o _ _ n => t.wf && (n.wf o.ety.width) && o.wf && (xfits h (vx o 0#2 0#6 n.xi (n.flag 1#8) 0#6))
  | .vcmp h t o cc _ _ _ => t.wf && o.wf && (xfits h (vx o 0#2 0#6 0#16 (cc.code.setWidth 8) 0#6))
  | .vsel h t o _ _ _ c => t.wf && o.wf && (xfits h (vx o 0#2 0#6 0#16 0#8 (c.setWidth 6)))
  | .mand _ t _ _ _ => t.wf
  | .mor _ t _ _ _ => t.wf
  | .mnot _ t _ _ => t.wf
  | .mpopc h t o _ _ => t.wf && o.wf && o.plain && (xfits h (vx o 0#2 0#6 0#16 0#8 0#6))
  | .vadds h t o _ _ _ => t.wf && ([3,4].contains o.ety.code.toNat) && o.wf && (xfits h (vx o 0#2 0#6 0#16 0#8 0#6))
  | .vsubs h t o _ _ _ => t.wf && ([3,4].contains o.ety.code.toNat) && o.wf && (xfits h (vx o 0#2 0#6 0#16 0#8 0#6))
  | .vmulh h t o _ _ _ => t.wf && ([3,4].contains o.ety.code.toNat) && o.wf && (xfits h (vx o 0#2 0#6 0#16 0#8 0#6))
  | .vavg h t o _ _ _ => t.wf && ([3,4].contains o.ety.code.toNat) && o.wf && (xfits h (vx o 0#2 0#6 0#16 0#8 0#6))
  | .vsad h t o _ _ _ => t.wf && ([3,4].contains o.ety.code.toNat) && o.wf && o.plain && (xfits h (vx o 0#2 0#6 0#16 0#8 0#6))
  | .vpack h t o df rnd _ _ _ => t.wf && (fmt16 df) && ([0,1,2].contains o.ety.code.toNat) && o.wf && o.plain && rnd.wf && (xfits h (vx o rnd.rm.code rnd.seed 0#16 df 0#6))
  | .vunpk h t o sf half rnd _ _ => t.wf && (fmt16 sf) && ([0,1,2].contains o.ety.code.toNat) && o.wf && o.plain && rnd.wf && (xfits h (vx o rnd.rm.code rnd.seed (if half then 1#16 else 0#16) sf 0#6))
  | .pixUnpk h t o pf off _ _ => t.wf && (fmtPix pf) && (off.toNat + 128 * pixWidth pf <= 2048) && ([4].contains o.ety.code.toNat) && o.wf && o.plain && (xfits h (vx o 0#2 0#6 (off.setWidth 16) pf 0#6))
  | .pixPack h t o pf _ _ => t.wf && (fmtPix pf) && ([4].contains o.ety.code.toNat) && o.wf && o.plain && (xfits h (vx o 0#2 0#6 0#16 pf 0#6))
  | .vbfx h t o sx _ _ _ => t.wf && o.wf && (xfits h (vx o 0#2 0#6 0#16 (if sx then 1#8 else 0#8) 0#6))
  | .vbfi h t o _ _ _ => t.wf && o.wf && (xfits h (vx o 0#2 0#6 0#16 0#8 0#6))
  | .vfshR h t o _ _ _ n => t.wf && (n.wf o.ety.width) && o.wf && (xfits h (vx o 0#2 0#6 n.xi (n.flag 2#8 ||| 0#8) n.o3))
  | .vfshL h t o _ _ _ n => t.wf && (n.wf o.ety.width) && o.wf && (xfits h (vx o 0#2 0#6 n.xi (n.flag 2#8 ||| 1#8) n.o3))
  | .vclz h t o _ _ => t.wf && o.wf && (xfits h (vx o 0#2 0#6 0#16 0#8 0#6))
  | .vpopc h t o _ _ => t.wf && o.wf && (xfits h (vx o 0#2 0#6 0#16 0#8 0#6))
  | .vlut h t o _ _ _ => t.wf && o.wf && (xfits h (vx o 0#2 0#6 0#16 0#8 0#6))
  | .vcvt h t o df sf rnd _ _ => t.wf && (cvtPair sf df) && ([0].contains o.ety.code.toNat) && o.wf && rnd.wf && (xfits h (vx o rnd.rm.code rnd.seed (sf.setWidth 16) df 0#6))
  | .vred h t o op _ _ => t.wf && !o.zm && o.wf && (xfits h (vx o 0#2 0#6 0#16 (op.code.setWidth 8) 0#6))
  | .vscan h t o op _ _ => t.wf && o.wf && (xfits h (vx o 0#2 0#6 0#16 (op.code.setWidth 8) 0#6))
  | .vperm h t o _ _ _ => t.wf && o.wf && (xfits h (vx o 0#2 0#6 0#16 0#8 0#6))
  | .vshuf h t o pat k _ _ _ => t.wf && (pat.toNat <= 4) && (if pat == 4 then k.toNat <= o.ety.count else k == 0) && o.wf && (xfits h (vx o 0#2 0#6 k (pat.setWidth 8) 0#6))
  | .vbcast h t o _ _ => t.wf && o.wf && (xfits h (vx o 0#2 0#6 0#16 0#8 0#6))
  | .vbcastE h t o _ _ k => t.wf && (k.toNat < o.ety.count) && o.wf && (xfits h (vx o 0#2 0#6 k 1#8 0#6))
  | .vidx h t o _ _ => t.wf && o.wf && (xfits h (vx o 0#2 0#6 0#16 0#8 0#6))
  | .vmov h t o _ _ => t.wf && o.wf && (xfits h (vx o 0#2 0#6 0#16 0#8 0#6))
  | .trd h t o _ _ _ k => t.wf && ([0].contains o.ety.code.toNat) && o.wf && (xfits h (vx o 0#2 0#6 (k.setWidth 16) 0#8 0#6))
  | .twr h t o _ _ _ k => t.wf && ([0].contains o.ety.code.toNat) && o.wf && (xfits h (vx o 0#2 0#6 (k.setWidth 16) 0#8 0#6))
  | .vld h t o _ _ _ disp => t.wf && o.wf && (xfits h (vx o 0#2 0#6 disp 0#8 0#6))
  | .vlds h t o _ _ _ disp => t.wf && o.wf && (xfits h (vx o 0#2 0#6 disp 0#8 0#6))
  | .vgath h t o _ _ _ disp => t.wf && o.wf && (xfits h (vx o 0#2 0#6 disp 0#8 0#6))
  | .vst h t o _ _ _ disp => t.wf && o.wf && (xfits h (vx o 0#2 0#6 disp 0#8 0#6))
  | .vsts h t o _ _ _ disp => t.wf && o.wf && (xfits h (vx o 0#2 0#6 disp 0#8 0#6))
  | .vscat h t o _ _ _ disp => t.wf && o.wf && (xfits h (vx o 0#2 0#6 disp 0#8 0#6))
  | .vstSrPtr h t o df seed _ _ _ disp => t.wf && (df == 2 || df == 3) && ([0].contains o.ety.code.toNat) && o.wf && (xfits h (vx o 0#2 seed disp df 0#6))
  | .vstSrHdl h t o seed _ _ _ => t.wf && ([0].contains o.ety.code.toNat) && o.wf && (xfits h (vx o 0#2 seed 0#16 0x80#8 0#6))
  | .vstAcc h t o df _ _ _ disp => t.wf && (df == 1 || df == 2) && ([0].contains o.ety.code.toNat) && o.wf && (xfits h (vx o 0#2 0#6 disp df 0#6))
  | .nestClr _ t _ => t.wf
  | .nestLvl h t _ lvl extm1 sa sb => t.wf && (lvl.toNat <= 5) && (xfits h (sb ++ sa ++ extm1))
  | .nestOpt h t _ seed n => t.wf && (n.pi.toNat <= 256) && (n.rma || n.rmb || seed == 0) && (xfits h n.bits)
  | .nestAcc h t _ _ rorg corg => t.wf && (xfits h (0#39 ++ corg ++ rorg))
  | .mmRun _ t _ _ _ => t.wf
  | .mmBatch _ t _ _ _ => t.wf
  | .accInit _ t _ _ => t.wf
  | .accFlush _ t _ => t.wf
  | .accRd h t _ _ rnd roff coff => t.wf && rnd.wf && (xfits h (0#31 ++ coff ++ roff ++ rnd.seed ++ rnd.rm.code))
  | .accWr h t _ _ roff coff => t.wf && (xfits h (0#30 ++ 0#1 ++ coff ++ roff ++ 0#8))
  | .accWrAdd h t _ _ roff coff => t.wf && (xfits h (0#30 ++ 1#1 ++ coff ++ roff ++ 0#8))
  | .planePack h t _ _ rnd => t.wf && rnd.wf && (xfits h (0#44 ++ rnd.seed ++ rnd.rm.code))
  | .planeUnpk h t _ _ rnd => t.wf && rnd.wf && (xfits h (0#44 ++ rnd.seed ++ rnd.rm.code))
  | .hdlSet _ t _ _ => t.wf
  | .hdlInv _ t _ => t.wf
  | .cp h t _ _ rnd dscale gen xr => t.wf && rnd.wf && (gen || xr == 0) && (xfits h (cpx rnd dscale gen xr 0 0 0))
  | .cpAcc h t _ _ gen xr => t.wf && (gen || xr == 0) && (xfits h (cpx Rnd.rne 0 gen xr 0 0 0))
  | .cpDec h t _ _ gen xr => t.wf && (gen || xr == 0) && (xfits h (cpx Rnd.rne 0 gen xr 0 0 0))
  | .cpCmp h t _ _ rnd op gen xr => t.wf && rnd.wf && (gen || xr == 0) && (op.toNat <= 3) && (xfits h (cpx rnd 0 gen xr op 0 0))
  | .cpPf _ t _ => t.wf
  | .glean h t _ _ rnd op => t.wf && rnd.wf && (op.toNat <= 4) && (xfits h (cpx rnd 0 false 0 op 0 0))
  | .blkBegin h _ _ p => (p.fsz != 0) && (xfits h p.bits)
  | .blkEnd _ => true
  | .revb _ => true
  | .gradZeroV h t msk => t.wf && (xfits h (msk.setWidth 52))
  | .gradZeroAcc h t msk => t.wf && (xfits h (msk.setWidth 52))
  | .gradZeroH _ t d => t.wf && (32 <= d.toNat)
  | .rsBind _ t _ => t.wf
  | .rsPush _ t _ => t.wf
  | .rsPop _ t _ => t.wf
  | .rsMark _ _ => true
  | .rsDrop _ _ => true
  | .rsSpill _ t => t.wf
  | .launch _ t _ => t.wf
  | .ptDone _ t => t.wf && (t.td == 0)
  | .ptSelf _ t _ => t.wf && (t.td == 0)
  | .tlRead _ t _ _ => t.wf
  | .chSend _ t _ _ => t.wf
  | .chRecv h t _ _ lim => t.wf && (!badLim lim) && (xfits h (cpx Rnd.rne 0 false 0 0 0 lim))
  | .chPut h t _ _ _ gen xr => t.wf && (gen || xr == 0) && (xfits h (cpx Rnd.rne 0 gen xr 0 0 0))
  | .chMcast h t _ _ _ gen xr => t.wf && (gen || xr == 0) && (xfits h (cpx Rnd.rne 0 gen xr 0 0 0))
  | .chGet h t _ _ _ gen xr => t.wf && (gen || xr == 0) && (xfits h (cpx Rnd.rne 0 gen xr 0 0 0))
  | .sioRead h t _ _ _ gen xr => t.wf && (gen || xr == 0) && (xfits h (cpx Rnd.rne 0 gen xr 0 0 0))
  | .chAmo h t _ _ _ v op sz => t.wf && (xfits h (cpx Rnd.rne 0 false v op sz 0))
  | .chQry _ t _ _ => t.wf && (t.td == 0)
  | .trap h _ => !h.ext
  | .tret h _ => !h.ext
  | .ctlRd h _ _ => !h.ext
  | .ctlWr h ctl _ => !h.ext && (ctl.writable true)
  | .ctlWrImm h ctl imm => (immFits h imm) && (ctl.writable true)
  | .cutSave _ t _ _ => t.wf
  | .cutLoad _ t _ _ => t.wf
  | .park _ t _ => t.wf
  | .wake _ t _ => t.wf
  | .idle h => !h.ext
  | .probe h t _ _ pw => t.wf && (xfits h (0#50 ++ 0#1 ++ BitVec.ofBool pw))
  | .probeRes h t _ _ pw => t.wf && (xfits h (0#50 ++ 1#1 ++ BitVec.ofBool pw))
  | .mmuInv h t i b l allas allva => t.wf && (!allas || i == 0) && (!allva || (b == 0 && l == 0)) && (xfits h (0#50 ++ BitVec.ofBool allva ++ BitVec.ofBool allas))
  | .mmuSync _ t => t.wf
  | .mmuWalk _ t _ _ _ => t.wf
  | .keyLoad _ t _ _ => t.wf
  | .keyKill _ t _ => t.wf
  | .entryStart .. => true
  | .entryComplete .. => true
  | .l1WriteBack .. => true
  | .l1Drop .. => true
  | .promotionRequest .. => true
  | .promotionEnd .. => true
  | .gateArrival .. => true
  | .ringSlotRead .. => true
  | .deferredAccept .. => true
  | .pointFire .. => true
  | .outOfTurnService .. => true
  | .pointStart .. => true
  | .ptDoneRetire .. => true
  | .trapTaken .. => true
  | .cutComplete .. => true
  | .waitTimeout .. => true
  | .drainTimeout .. => true
  | .revbWalk .. => true
  | .spillEngineMove .. => true
  | .fltack .. => true
  | .pagePullRequest .. => true
  | .pullDataArrival .. => true
  | .forwardedAtomic .. => true
  | .redirect .. => true
  | .remoteAdmit .. => true
  | .mcastAggAck .. => true
  | .linkFlitRefused .. => true
  | .linkRetrain .. => true
  | .windowRevoke .. => true
  | .windowRetire .. => true
  | .windowCmdEnd .. => true
  | .pcmdSuspend .. => true
  | .suspendDrainEnd .. => true
  | .pcmdResume .. => true
  | .pcmdDhalt .. => true
  | .pcmdDrun .. => true
  | .pcmdKill .. => true
  | .roleCommand .. => true
  | .migArm .. => true
  | .migFreeze .. => true
  | .freezeComplete .. => true
  | .migSend .. => true
  | .migResume .. => true
  | .migDrain .. => true
  | .drainComplete .. => true
  | .migRelease .. => true
  | .migAbort .. => true
  | .doorbellTail .. => true
  | .rovfClear .. => true
  | .nvmeCompletion .. => true
  | .sioCommandTimeout .. => true
  | .selfRefreshEnter .. => true
  | .selfRefreshExit .. => true
  | .powerStepDown => true
  | .powerStepUp => true
  | .parkRegate .. => true
  | .coldStart => true
  | .bootStage .. => true
  | .startStall => true
  | .phyReadTest .. => true
  | .phyWriteReadTest .. => true
  | .phyTestComplete .. => true
  | .phyRdall .. => true
  | .phyWrall .. => true
  | .mdptrWrite .. => true
  | .mdvalWrite .. => true
  | .pfdropRead .. => true
  | .rdcntRead .. => true
  | .qerrRead .. => true
  | .registerWrite .. => true
  | .provision .. => true
  | .release .. => true
  | .preset .. => true
  | .wreset => true
  | .telem => true
  | .clrcnt => true
  | .fullreq => true
  | .tagfr .. => true
  | .retire .. => true
  | .hamletFence .. => true
  | .unfence .. => true
  | .plimit .. => true
  | .attest .. => true
  | .trnWrite .. => true
  | .clockStepChange .. => true
  | .powerLoss => true
  | .routeReturns .. => true
  | .imageSent .. => true
  | .hostMailboxWrite => true

/-- A well-formed instruction: its header and operands are ones a legal unit carries. -/
def Instr.wf (i : Instr) : Bool := (match i.hdr? with | some h => h.wf | none => true) && i.operandsWf

/-- The rows R167 marks P: an unprivileged core that decodes one raises ILLOP (R164). -/
def Instr.privileged : Instr → Bool
  | .add .. => false
  | .sub .. => false
  | .mul .. => false
  | .mulh .. => false
  | .mulhu .. => false
  | .div .. => false
  | .divu .. => false
  | .rem .. => false
  | .remu .. => false
  | .and .. => false
  | .or .. => false
  | .xor .. => false
  | .andn .. => false
  | .orn .. => false
  | .shl .. => false
  | .shr .. => false
  | .sra .. => false
  | .rol .. => false
  | .ror .. => false
  | .min .. => false
  | .max .. => false
  | .minu .. => false
  | .maxu .. => false
  | .clz .. => false
  | .ctz .. => false
  | .popc .. => false
  | .brev .. => false
  | .bswap .. => false
  | .bfx .. => false
  | .bfxS .. => false
  | .bfi .. => false
  | .fshl .. => false
  | .fshlImm .. => false
  | .fshr .. => false
  | .fshrImm .. => false
  | .sel .. => false
  | .mov .. => false
  | .lea .. => false
  | .padd .. => false
  | .pidx .. => false
  | .pidxSet .. => false
  | .cmpEq .. => false
  | .cmpNe .. => false
  | .cmpLt .. => false
  | .cmpLe .. => false
  | .cmpLtu .. => false
  | .cmpLeu .. => false
  | .pand .. => false
  | .por .. => false
  | .pnot .. => false
  | .ldi .. => false
  | .addi .. => false
  | .andi .. => false
  | .ori .. => false
  | .xori .. => false
  | .shli .. => false
  | .shri .. => false
  | .srai .. => false
  | .cmpiEq .. => false
  | .cmpiNe .. => false
  | .cmpiLt .. => false
  | .cmpiLe .. => false
  | .cmpiLtu .. => false
  | .cmpiLeu .. => false
  | .br .. => false
  | .jmp .. => false
  | .call .. => false
  | .loop .. => false
  | .jr .. => false
  | .ret .. => false
  | .yield .. => false
  | .halt .. => false
  | .bkpt .. => false
  | .waitn .. => false
  | .ldB .. => false
  | .ldH .. => false
  | .ldW .. => false
  | .ldD .. => false
  | .ldQ .. => false
  | .ldsB .. => false
  | .ldsH .. => false
  | .ldsW .. => false
  | .stB .. => false
  | .stH .. => false
  | .stW .. => false
  | .stD .. => false
  | .stQ .. => false
  | .ldAcqB .. => false
  | .ldAcqH .. => false
  | .ldAcqW .. => false
  | .ldAcqD .. => false
  | .ldAcqQ .. => false
  | .stRelB .. => false
  | .stRelH .. => false
  | .stRelW .. => false
  | .stRelD .. => false
  | .stRelQ .. => false
  | .pfL1 .. => false
  | .pfMsc .. => false
  | .amoAddW .. => false
  | .amoAddD .. => false
  | .amoAndW .. => false
  | .amoAndD .. => false
  | .amoOrW .. => false
  | .amoOrD .. => false
  | .amoXorW .. => false
  | .amoXorD .. => false
  | .amoMinW .. => false
  | .amoMinD .. => false
  | .amoMaxW .. => false
  | .amoMaxD .. => false
  | .amoMinuW .. => false
  | .amoMinuD .. => false
  | .amoMaxuW .. => false
  | .amoMaxuD .. => false
  | .amoSwapW .. => false
  | .amoSwapD .. => false
  | .amoCasW .. => false
  | .amoCasD .. => false
  | .amoCasQ .. => false
  | .amoFaddW .. => false
  | .tokWait .. => false
  | .tokClr .. => false
  | .mark .. => false
  | .fence .. => false
  | .acq .. => false
  | .rel .. => false
  | .acqP .. => false
  | .gateInit .. => false
  | .gateArr .. => false
  | .gateWait .. => false
  | .rpush .. => false
  | .rpop .. => false
  | .vadd .. => false
  | .vsub .. => false
  | .vmul .. => false
  | .vmad .. => false
  | .vmin .. => false
  | .vmax .. => false
  | .vabs .. => false
  | .vneg .. => false
  | .vrelu .. => false
  | .vexp2 .. => false
  | .vlog2 .. => false
  | .vrcp .. => false
  | .vrsq .. => false
  | .vtanh .. => false
  | .vand .. => false
  | .vor .. => false
  | .vxor .. => false
  | .vnot .. => false
  | .vshl .. => false
  | .vshr .. => false
  | .vsra .. => false
  | .vcmp .. => false
  | .vsel .. => false
  | .mand .. => false
  | .mor .. => false
  | .mnot .. => false
  | .mpopc .. => false
  | .vadds .. => false
  | .vsubs .. => false
  | .vmulh .. => false
  | .vavg .. => false
  | .vsad .. => false
  | .vpack .. => false
  | .vunpk .. => false
  | .pixUnpk .. => false
  | .pixPack .. => false
  | .vbfx .. => false
  | .vbfi .. => false
  | .vfshR .. => false
  | .vfshL .. => false
  | .vclz .. => false
  | .vpopc .. => false
  | .vlut .. => false
  | .vcvt .. => false
  | .vred .. => false
  | .vscan .. => false
  | .vperm .. => false
  | .vshuf .. => false
  | .vbcast .. => false
  | .vbcastE .. => false
  | .vidx .. => false
  | .vmov .. => false
  | .trd .. => false
  | .twr .. => false
  | .vld .. => false
  | .vlds .. => false
  | .vgath .. => false
  | .vst .. => false
  | .vsts .. => false
  | .vscat .. => false
  | .vstSrPtr .. => false
  | .vstSrHdl .. => false
  | .vstAcc .. => false
  | .nestClr .. => false
  | .nestLvl .. => false
  | .nestOpt .. => false
  | .nestAcc .. => false
  | .mmRun .. => false
  | .mmBatch .. => false
  | .accInit .. => false
  | .accFlush .. => false
  | .accRd .. => false
  | .accWr .. => false
  | .accWrAdd .. => false
  | .planePack .. => false
  | .planeUnpk .. => false
  | .hdlSet .. => false
  | .hdlInv .. => false
  | .cp .. => false
  | .cpAcc .. => false
  | .cpDec .. => false
  | .cpCmp .. => false
  | .cpPf .. => false
  | .glean .. => false
  | .blkBegin .. => false
  | .blkEnd .. => false
  | .revb .. => false
  | .gradZeroV .. => false
  | .gradZeroAcc .. => false
  | .gradZeroH .. => false
  | .rsBind .. => false
  | .rsPush .. => false
  | .rsPop .. => false
  | .rsMark .. => false
  | .rsDrop .. => false
  | .rsSpill .. => false
  | .launch .. => false
  | .ptDone .. => false
  | .ptSelf .. => false
  | .tlRead .. => false
  | .chSend .. => false
  | .chRecv .. => false
  | .chPut .. => false
  | .chMcast .. => false
  | .chGet .. => false
  | .sioRead .. => false
  | .chAmo .. => false
  | .chQry .. => false
  | .trap .. => false
  | .tret .. => true
  | .ctlRd .. => false
  | .ctlWr .. => false
  | .ctlWrImm .. => false
  | .cutSave .. => true
  | .cutLoad .. => true
  | .park .. => true
  | .wake .. => true
  | .idle .. => true
  | .probe .. => true
  | .probeRes .. => true
  | .mmuInv .. => true
  | .mmuSync .. => true
  | .mmuWalk .. => true
  | .keyLoad .. => true
  | .keyKill .. => true
  | .entryStart .. => false
  | .entryComplete .. => false
  | .l1WriteBack .. => false
  | .l1Drop .. => false
  | .promotionRequest .. => false
  | .promotionEnd .. => false
  | .gateArrival .. => false
  | .ringSlotRead .. => false
  | .deferredAccept .. => false
  | .pointFire .. => false
  | .outOfTurnService .. => false
  | .pointStart .. => false
  | .ptDoneRetire .. => false
  | .trapTaken .. => false
  | .cutComplete .. => false
  | .waitTimeout .. => false
  | .drainTimeout .. => false
  | .revbWalk .. => false
  | .spillEngineMove .. => false
  | .fltack .. => false
  | .pagePullRequest .. => false
  | .pullDataArrival .. => false
  | .forwardedAtomic .. => false
  | .redirect .. => false
  | .remoteAdmit .. => false
  | .mcastAggAck .. => false
  | .linkFlitRefused .. => false
  | .linkRetrain .. => false
  | .windowRevoke .. => false
  | .windowRetire .. => false
  | .windowCmdEnd .. => false
  | .pcmdSuspend .. => false
  | .suspendDrainEnd .. => false
  | .pcmdResume .. => false
  | .pcmdDhalt .. => false
  | .pcmdDrun .. => false
  | .pcmdKill .. => false
  | .roleCommand .. => false
  | .migArm .. => false
  | .migFreeze .. => false
  | .freezeComplete .. => false
  | .migSend .. => false
  | .migResume .. => false
  | .migDrain .. => false
  | .drainComplete .. => false
  | .migRelease .. => false
  | .migAbort .. => false
  | .doorbellTail .. => false
  | .rovfClear .. => false
  | .nvmeCompletion .. => false
  | .sioCommandTimeout .. => false
  | .selfRefreshEnter .. => false
  | .selfRefreshExit .. => false
  | .powerStepDown => false
  | .powerStepUp => false
  | .parkRegate .. => false
  | .coldStart => false
  | .bootStage .. => false
  | .startStall => false
  | .phyReadTest .. => false
  | .phyWriteReadTest .. => false
  | .phyTestComplete .. => false
  | .phyRdall .. => false
  | .phyWrall .. => false
  | .mdptrWrite .. => false
  | .mdvalWrite .. => false
  | .pfdropRead .. => false
  | .rdcntRead .. => false
  | .qerrRead .. => false
  | .registerWrite .. => false
  | .provision .. => false
  | .release .. => false
  | .preset .. => false
  | .wreset => false
  | .telem => false
  | .clrcnt => false
  | .fullreq => false
  | .tagfr .. => false
  | .retire .. => false
  | .hamletFence .. => false
  | .unfence .. => false
  | .plimit .. => false
  | .attest .. => false
  | .trnWrite .. => false
  | .clockStepChange .. => false
  | .powerLoss => false
  | .routeReturns .. => false
  | .imageSent .. => false
  | .hostMailboxWrite => false

end Sys2Proof
end

