-- ==== Sys2Proof/Machine/State.lean ====
section
/-! DEFINITION. The state of one module (00, 01): 256 crofts (ids 0 to 255), 8 bailiffs (id 256 + field), the hayward, memory at
every level, the partitions with their register blocks, the fabric ports, management. Plain data throughout; every large store is a
sparse map whose default is named in the docstring. -/

namespace Sys2Proof.Machine

/-- The cause codes of R360. -/
inductive Cause where
  | none | illop | badreg | badch | bounds | rights | xlate | align | mixsz | timeout | rsovf | rsunf | frame | nodiff | hdlbad
  | badtgt | ecc | keygone | bkpt | trapi | preempt
deriving DecidableEq, Repr

/-- The block state of the reeve (R272), with the parameters of the open block's header (R276, R279) and of the walk. -/
structure Blk where
  opened : Bool
  /-- 0 forward, 1 reverse, 2 replay (R326). -/
  dir : Nat
  pc : Word
  /-- Payload cursor in bytes (R278). -/
  cur : Nat
  /-- Seeds taken. -/
  seeds : Nat
deriving DecidableEq, Repr

def Blk.zero : Blk := ⟨false, 0, 0, 0, 0⟩

/-- The scalar file that the queue cut restores (R20, R272, R362): registers (unlisted: 0), predicates (bit n is pn; bit 0 takes no
part), the PC, the block state. -/
structure ScalarFile where
  s : SMap Word
  p : BitVec 8
  pc : Word
  blk : Blk
deriving DecidableEq, Repr

/-- One count per queue: entries issued, mod 2^32 (R361). -/
structure Counts where
  lq : Nat
  sq : Nat
  vq : Nat
  mq : Nat
  cq : Nat
deriving DecidableEq, Repr

def Counts.zero : Counts := ⟨0, 0, 0, 0, 0⟩

/-- A tile handle (R47, R71, R251): whether it is bound, whether it is marked HDLBAD, its 64-byte shape record (R69), the record's
address. -/
structure Handle where
  bound : Bool
  bad : Bool
  shape : BitVec 512
  addr : Word
deriving DecidableEq, Repr

def Handle.unbound : Handle := ⟨false, false, 0, 0⟩

/-- A nest slot (R224): trip counts and steps of six levels, tile and origin, and the options of `NEST.OPT`. -/
structure Nest where
  e : List Nat
  sa : List Nat
  sb : List Nat
  acc : Nat
  rorg : Nat
  corg : Nat
  na : Nat
  nb : Nat
  gg : Nat
  pi : Nat
  rma : Bool
  rmb : Bool
  tagp : Bool
  seed : Nat
deriving DecidableEq, Repr

/-- The slot after `NEST.CLR` (R224). -/
def Nest.clear : Nest :=
  ⟨[1, 1, 1, 1, 1, 1], [0, 0, 0, 0, 0, 0], [0, 0, 0, 0, 0, 0], 0, 0, 0, 16, 16, 0, 0, false, false, false, 0⟩

/-- An element of an accumulator tile (R222): FP32 home copy, ACC26 working sum, promotion count. -/
structure AccEl where
  h : BitVec 32
  w : BitVec 32
  cnt : Nat
deriving DecidableEq, Repr

def AccEl.zero : AccEl := ⟨0, 0, 0⟩

/-- A register write that an entry makes at its completion: a scalar, a handle, a vector register or a mask register (with the bits
that the entry writes). -/
inductive Wr where
  | s (r : SReg) (v : Word)
  | h (r : HReg) (x : Handle)
  | v (r : VReg) (data wmask : BitVec 2048)
  | m (r : MReg) (data wmask : BitVec 128)
deriving DecidableEq, Repr

/-- How far an entry has come: unstarted; started and waiting, to be tried again; started and to be completed by an event from outside;
performed and not yet complete. -/
inductive Phase where
  | queued | waiting | pend | done
deriving DecidableEq, Repr

/-- The residual stack that a core has bound (R283, R287): its id, the fields of its entry, and its bytes by depth (unlisted: 0). -/
structure Stack where
  id : Nat
  entry : Word
  hbase : Word
  hlen : Nat
  xoff : Nat
  xlen : Nat
  depth : Nat
  /-- Depth of the top frame's header; all ones (48 bits) when the stack is empty. -/
  topf : Nat
  nfr : Nat
  bytes : SMap Byte
  /-- The frames below this depth lie in the lower tiers (R284). -/
  cold : Nat
  /-- The frames below this depth could not be read when the stack was bound, and the error that a word which needs one raises (R416, R421). -/
  lost : Nat
  lostBy : Cause
  /-- The binding it is of, and its depth, top and count when it was bound. -/
  gen : Nat
  depth0 : Nat
  topf0 : Nat
  nfr0 : Nat
deriving DecidableEq, Repr

/-- What an entry reads in one step at its start and keeps while it waits: the vector and mask registers (R199), whether its context checks
mixed sizes (R128), the precision caps in force (R452). -/
structure Started where
  v : SMap (BitVec 2048)
  m : SMap (BitVec 128)
  mxc : Bool
  capa : Nat
  capb : Nat
deriving DecidableEq, Repr

/-- An entry of a croft's queues (R18 to R23, R107): the unit that issued it, its form at issue (scalar operands, handle copies of
R250), and what its completion will write. -/
structure Entry where
  op : Instr
  pc : Word
  qs : List QId
  seq : Counts
  barrier : Bool
  /-- A BARRIER entry whose request is dispatched: later entries may start (R265, R329). -/
  passed : Bool
  /-- It touches the croft store or the lane store (R108). -/
  near : Bool
  null : Bool
  /-- An adjoint of the reverse walk (R292); `op` is its forward word. -/
  adj : Bool
  /-- A storing word in replay: it pushes its item and makes no access (R300). -/
  muted : Bool
  priv : Bool
  td : SReg
  /-- Tokens not yet written (R21). -/
  waits : List SReg
  /-- Scalar operands as read at issue. -/
  xs : List Word
  /-- Handle copies as taken at issue. -/
  hs : List Handle
  /-- Destination scalar made pending at issue, when the entry returns a value. -/
  dst : List SReg
  /-- Handles made pending at issue (R251). -/
  hdst : List HReg
  /-- The committed file and counts to restore when this entry is the oldest discarded one (R20, R362). -/
  snap : ScalarFile
  /-- The bound stack at issue, before the word's own push or pop, from which a cut that discards this entry first takes depth, top and count
  (R286, R362); and the number of the stack steps made before it. -/
  stk : Option Stack
  mark : Nat
  phase : Phase
  wrs : List Wr
  /-- Completion word (R245). -/
  word : Word
  /-- Payload offset of a residual item, direction and block parameters (R278), as a number of the entry's own use. -/
  aux : Nat
  /-- The entry raised a fault and is held (R362). -/
  held : Bool
  /-- The cycle and the step in which it began to wait, plus 1 (R248, R263); 0: it has not waited. -/
  waited : Nat
  since : Nat
  /-- What it read when it started, once it has started. -/
  start : Option Started
  /-- Its bytes count against its slot's allowance (R269, R407); the request that it has sent last, and the device it went to (R386, R405). -/
  counted : Bool
  via : Option (Nat × RemoteOp)
deriving DecidableEq, Repr

/-- A line of a croft's L1 (R105): 256 bytes, dirty bits, stamp, the key id and the compressibility of the access that filled it. -/
structure L1Line where
  data : BitVec 2048
  dirty : BitVec 256
  stamp : Option (BitVec 5)
  key : Nat
  compr : Bool
  /-- The pages through which accesses filled, read or wrote it: ASID and page number (R381). -/
  pages : List Nat
  /-- The interleave class of the access that filled it (R355). -/
  cls : Nat
  /-- The single-copy atomic stores whose bytes are dirty in it, as first byte and length, oldest first (R127). -/
  sts : List (Nat × Nat)
deriving DecidableEq, Repr

/-- A translation held in a TLB (R344, R347): the leaf as read (of a run group's 2 MiB translation, its first entry), its level, whether it
covers a run group, and whether it covers a write (R345). -/
structure TlbEnt where
  leaf : Word
  level : Nat
  runs : Bool
  dt : Bool
deriving DecidableEq, Repr

/-- What a TLB holds, by size and page (R347); unlisted: nothing. -/
abbrev Tlb := SMap (Option TlbEnt)

/-- A table entry that the walkers of a field hold (R347): its address and value, the ASID whose walk read it, the pages whose walks pass
through it. -/
structure WalkEnt where
  addr : Nat
  val : Nat
  asid : Nat
  page0 : Nat
  pages : Nat
deriving DecidableEq, Repr

/-- What interleave classes have done to a frame (R355, R356): the pages and classes it is reached under; whether it has been reached under two
at once; how often it was written since it was first reached, and the bytes overwritten since then, the latest first. -/
structure FrameSt where
  reach : List (Nat × Nat)
  mixed : Bool
  ver : Nat
  old : List Byte
deriving DecidableEq, Repr

def FrameSt.zero : FrameSt := ⟨[], false, 0, []⟩

/-- A pull in progress (R349): ASID and page number, the entry that it started from, and that entry's address. -/
structure Pull where
  asid : Nat
  page : Nat
  e : Nat
  addr : Nat
deriving DecidableEq, Repr

/-- A point in a slot (R44, R46): launch id and coordinates. -/
structure Point where
  lid : Nat
  x : Nat
  y : Nat
  z : Nat
deriving DecidableEq, Repr

/-- What suppresses re-issued entries after a resumption (R370): prefix counts and the two CQ windows from `RETCQ`. -/
structure Suppress where
  ret : Counts
  cqdone : BitVec 32
  cqheld : BitVec 32
  /-- `HELD` bits of LQ, SQ, VQ, MQ. -/
  held : BitVec 4
deriving DecidableEq, Repr

/-- A trap chosen and not yet cut (R361, R362): cause, code, faulting pointer; the unit or entry at fault. -/
structure TrapRec where
  cause : Cause
  code : Nat
  fptr : Word
  fpc : Word
  /-- The faulting entry's queue (0 none) and sequence number. -/
  fq : Nat
  fseq : Nat
  /-- The entry is one of the queue's list (its position is found by queue and sequence number). -/
  atIssue : Bool
deriving DecidableEq, Repr

/-- The control and trap registers of a core (R323 to R326, R366). -/
structure CtlRegs where
  qslip : Word
  tvec : Word
  tcause : Word
  tcut : Word
  tscratch : Word
  dbgctl : Word
  /-- `MDPTR` of the metadata block (R426), as this core last wrote it; `none`: not written since reset. -/
  mdptr : Option Word
  bevt : BitVec 4
  priv : Bool
  /-- Between trap entry and `TRET` (R369). -/
  inHandler : Bool
  /-- The bailiff stopped on a fatal or nested trap (R368, R369), or the reeve was halted by `HALT` (R183). -/
  stopped : Bool
  halted : Bool
deriving DecidableEq, Repr

/-- The vector file, the loom's tiles and slots, handles and channels of a core. Defaults: 0, 0, `AccEl.zero`, `Nest.clear`,
`Handle.unbound`, 0. Tile elements are keyed `8192 * tile + 64 * row + column`. -/
structure EngRegs where
  v : SMap (BitVec 2048)
  m : SMap (BitVec 128)
  acc : SMap AccEl
  slots : SMap Nest
  h : SMap Handle
  ch : SMap (BitVec 512)
deriving DecidableEq, Repr

/-- A core's local memories and its L1 (R25, R65, R105, R118, R287). Croft store and lane store bytes default to 0; the lane store
is keyed `2048 * lane + offset`. -/
structure Local where
  store : SMap Byte
  lane : SMap Byte
  l1 : SMap (Option L1Line)
  epoch : BitVec 5
  plog : List (BitVec 5)
  /-- A promotion in progress: its snapshot's lines and the log entries it covers (R119). -/
  promo : Option (List Nat × List (BitVec 5))
  /-- Hot-segment bytes written since the last unbinding, by offset (R25, R63); `none`: not written since. -/
  hot : SMap (Option Byte)
  /-- Unbindings so far, and the bytes of the stack last unbound: what an unwritten hot byte is drawn from (R287). -/
  binds : Nat
  hotSrc : SMap Byte
deriving DecidableEq, Repr

/-- What a home line carries besides its bytes: compression code (R422), key material its bytes are encrypted under (R357; 0 is
plaintext), key id + 1 of a dirty copy in its slice (R358; 0 when clean), poison (R359), an uncorrectable error (R421), and, of a line with
poison or an error, the bytes written since by writes that its slice holds together (R359). -/
structure LineSt where
  code : Nat
  mat : Nat
  dirty : Nat
  poison : Bool
  ecc : Bool
  got : BitVec 256
deriving DecidableEq, Repr

def LineSt.zero : LineSt := ⟨0, 0, 0, false, false, 0⟩

/-- The context a core runs in (R339, R340, R347): ASID, partition, descriptor as last read, cached buffer entries, translations. -/
structure Ctx where
  asid : Nat
  part : Nat
  desc : BitVec 1024
  bufs : SMap (Option (BitVec 256))
  tlb : Tlb
  /-- Memory as the instruction cache sees it, bytes and lines: a snapshot taken at point start and at a change of context (R163). -/
  imem : SMap Byte
  ilines : SMap LineSt
deriving DecidableEq, Repr

/-- A cut, load, park or wake request at its target (R330): the core and the LQ number of its entry, and whether it keeps the hayward from placing
points on the target. -/
structure Request where
  core : Nat
  seq : Nat
  holds : Bool
deriving DecidableEq, Repr

/-- The point slots of a croft and what the running launch gives it (R28, R46, R48, R63). -/
structure Slots where
  running : Option Point
  staged : Option Point
  csneed : Nat
  rstab : Word
  /-- Parked (R330): nothing is placed on it until a `WAKE`; `gated`: its power is off now. -/
  parked : Bool
  gated : Bool
  /-- Requests that have reached this core and have not ended, in the order they came (R330). -/
  reqs : List Request
  /-- Halted roles (R380): bit 0 reeve, 1 forager, 2 vector engine, 3 loom, 4 copy issue. -/
  roles : BitVec 5
  /-- The core executes code: a point, or on a bailiff the code of its partition. -/
  active : Bool
  /-- `PT.DONE` has issued and has not retired (R266): the reeve issues nothing further. -/
  ending : Bool
deriving DecidableEq, Repr

/-- A reverse walk or a replay in progress (R291, R300): the `REVB` it belongs to and the frame's header fields. The unit walked and the
cursor are the PC and the block state. -/
structure Walk where
  revb : Word
  bpc : Word
  epc : Word
  gdisp : Word
  hsave : BitVec 32
  /-- The first payload byte, as a depth. -/
  base : Nat
deriving DecidableEq, Repr

/-- What a unit that changes the bound stack or the block state came to when it issued (R278, R286): its number among such units; the counts
and the PC at its issue; the binding and the position it left, the block state, the place of its item or payload (0: none, or no longer a
frame's). -/
structure StkStep where
  n : Nat
  seq : Counts
  pc : Word
  gen : Nat
  depth : Nat
  topf : Nat
  nfr : Nat
  blk : Blk
  aux : Nat
deriving DecidableEq, Repr

/-- The residual state of a core (R272, R287, R291). -/
structure Resid where
  stack : Option Stack
  walk : Option Walk
  /-- In a trap handler: the block state is still that of the interrupted code (log entry 23). -/
  outer : Bool
  /-- The units that changed the stack or the block state: how many, those that a cut may yet rewind, and those that a cut has rewound and that
  are made again without touching the stack's bytes (R278, R362, R370). -/
  steps : Nat
  log : List StkStep
  redo : List StkStep
deriving DecidableEq, Repr

/-- The queues of a core: incomplete entries in issue order, the counts of entries issued, suppression, a trap chosen. -/
structure Queues where
  es : List Entry
  issued : Counts
  sup : Option Suppress
  trap : Option TrapRec
  /-- Entries held across a cut, in order (R362). -/
  heldEs : List Entry
  /-- Counts of entries issued before the resumption PC (R370). -/
  cutCnt : Counts
deriving DecidableEq, Repr

/-- What the held-entry region of a cut area stands for (R378, R379): the held entries and the counts at the resumption PC; those of the
code that a trap handler had interrupted; the bound stack; the walk; tokens that the hayward has yet to write. -/
structure HeldForm where
  es : List Entry
  cnt : Counts
  outerEs : List Entry
  outerCnt : Counts
  inHandler : Bool
  stack : Option Stack
  walk : Option Walk
  outer : Bool
  steps : Nat
  log : List StkStep
  redo : List StkStep
  /-- The partition whose point it is of (R4). -/
  part : Nat
  /-- Tokens of deferred `LAUNCH` entries of the point: place among the partition's deferred records, register (R402). -/
  tokens : List (Nat × SReg)
deriving DecidableEq, Repr

/-- One core: a croft, or the bailiff of a field. -/
structure CoreSt where
  f : ScalarFile
  /-- Bit n: sn is pending (R21, R169). -/
  pend : BitVec 64
  hpend : BitVec 64
  ctl : CtlRegs
  eng : EngRegs
  loc : Local
  ctx : Ctx
  slot : Slots
  res : Resid
  q : Queues
deriving DecidableEq, Repr


/-- A treeline (R38): prefix lengths and ahead bitmaps by row (unlisted: 0), floor, window base, high row. -/
structure TreeLine where
  f : SMap Nat
  a : SMap (BitVec 64)
  floor : Nat
  wbase : Nat
  high : Nat
deriving DecidableEq, Repr

/-- What a launch is doing (R45, R372 to R375): running, draining towards suspension, suspended, halted by the debugger; ending, while points
of it are killed or its completion word waits (R50, R373). -/
inductive LState where
  | running | draining | suspended | halted | ending
deriving DecidableEq, Repr

/-- A point in cut state (R330, R373): the point, the pool area that holds it (`none`: an area that `CUT.SAVE` was given), and where the
first lines of its area lie at home: physical line by line of the area (0 to 4), key id, compressibility (R365). -/
structure CutPt where
  pt : Point
  area : Option Nat
  lines : List Nat
  key : Nat
  compr : Bool
deriving DecidableEq, Repr

/-- An active launch (R32 to R50): its record as read, id, context, place, treeline, state, round-robin credit and age (R43), the
points it has in cut state (R373, R377), the points that trapped TIMEOUT (R52), and the submitting function. -/
structure Launch where
  lid : Nat
  asid : Nat
  rec_ : BitVec 2048
  place : Nat
  tl : TreeLine
  st : LState
  credit : Nat
  age : Nat
  cutPts : List CutPt
  timedOut : List Point
  /-- It was halted by the debugger when it was frozen (R377, R400). -/
  dhalt : Bool
  /-- A product of the launch met a precision cap (R452). -/
  cap : Bool
  vf : Nat
  /-- Status and detail with which it is ending (R50). -/
  ended : Option (Nat × Nat)
  /-- A restore of it is under way (R374): pool areas of the cut points still to be restored. -/
  restore : Option (List Nat)
deriving DecidableEq, Repr

/-- A well-formed record that waits for a free place (R35): a host ring's head, or a `LAUNCH` entry of a core. -/
structure Deferred where
  rec_ : BitVec 2048
  asid : Nat
  vf : Nat
  /-- The submitting core and the token that waits, for a `LAUNCH`. -/
  core : Option (Nat × SReg)
  /-- The point that issued the `LAUNCH` (R365). -/
  pt : Option Point
deriving DecidableEq, Repr

/-- A fault record that awaits the driver's answer, or a place in the ring (R352 to R354): the probing core and its pointer, the entry and
the level at which the walk stopped. -/
structure FltRec where
  seq : Nat
  core : Nat
  asid : Nat
  va : Nat
  ptr : Word
  write : Bool
  replay : Nat
  entry : Nat
  level : Nat
  posted : Bool
deriving DecidableEq, Repr

/-- The translation block of a partition (R337). -/
structure TBlock where
  ctxbase : Nat
  asidbase : Nat
  ctxcnt : Nat
  keybase : Nat
  keycnt : Nat
  fqbase : Nat
  fqlog : Nat
  fqhead : Nat
  fqtail : Nat
  pfdrop : Nat
  fqmsix : Nat
  fqien : Bool
deriving DecidableEq, Repr

/-- The pre-emption block of a partition (R371). -/
structure PBlock where
  slid : Nat
  sop : Nat
  busy : Bool
  res : Nat
  place : Nat
  dcroft : Nat
  /-- The context index, plus 1, and the place of the launch that the command in progress named when it began; 0: none was active. -/
  cctx : Nat
  cplace : Nat
deriving DecidableEq, Repr

/-- The fabric block of a partition (R397): window table, grant of groups, the command in progress, whether its window's state is still to be
changed (R428), the redirect counter. -/
structure FBlock where
  inbase : Nat
  incnt : Nat
  grpbase : Nat
  grpcnt : Nat
  wwin : Nat
  wop : Nat
  wbusy : Bool
  wdue : Bool
  rdcnt : Nat
deriving DecidableEq, Repr

def FBlock.zero : FBlock := ⟨0, 0, 0, 0, 0, 0, false, false, 0⟩

/-- The migration states (R399), by `MST`. -/
inductive MigSt where
  | run | freezing | frozen | sent | released | armed | loaded | live
deriving DecidableEq, Repr

/-- What a source tells its target of itself along with the image, for the check of R399 and for R452: hamlets, contexts, keys and groups; the
launches of which a product has met a cap. -/
structure MigFacts where
  hset : BitVec 16
  ctxcnt : Nat
  keycnt : Nat
  grpcnt : Nat
  capped : List Nat
deriving DecidableEq, Repr

/-- The migration block of a partition (R399), with the command in progress (0: none), the pages already served (R403), and what the source has
told of itself. -/
structure MBlock where
  peer : Nat
  part : Nat
  img : Nat
  len : Nat
  st : MigSt
  busy : Bool
  cmd : Nat
  res : Nat
  used : Nat
  served : List (Nat × Nat)
  facts : Option MigFacts
deriving DecidableEq, Repr

def MBlock.zero : MBlock := ⟨0, 0, 0, 0, .run, false, 0, 0, 0, [], none⟩

/-- A gate (R259, R260, R376): initial count, current count, phase, overflow, whether it was ever initialised. -/
structure Gate where
  init : Nat
  cnt : Nat
  phase : Nat
  ovr : Bool
  valid : Bool
deriving DecidableEq, Repr

def Gate.none : Gate := ⟨0, 0, 0, false, false⟩

/-- A host ring of a context (R411 to R414), with its registers. -/
structure Bell where
  base : Nat
  rlog : Nat
  tail : Nat
  head : Nat
  rovf : Bool
deriving DecidableEq, Repr

def Bell.zero : Bell := ⟨0, 0, 0, 0, false⟩

/-- The journal of a partition (R440 to R442): mirror ring, next sequence number, the last 256 entries by sequence mod 256, and the writes of the
mirror that wait for their stack, as address and entry (R428). -/
structure Journal where
  jbase : Nat
  jlog : Nat
  jnext : Nat
  entries : SMap (BitVec 256)
  owed : List (Nat × BitVec 256)
deriving DecidableEq, Repr

/-- A partition (R440 to R447) and its register blocks. -/
structure Part where
  prov : Bool
  /-- Bit h: hamlet h belongs to the partition (R445). -/
  hset : BitVec 16
  /-- Bit s: HBM stack s belongs to it. -/
  sset : BitVec 32
  /-- Commons range in 4 KiB units, first and last + 1. -/
  comb : Nat
  coml : Nat
  /-- First virtual function and number of virtual functions. -/
  vfbase : Nat
  nvf : Nat
  /-- Precision caps of operands A and B; 0: none. -/
  capa : Nat
  capb : Nat
  tb : TBlock
  pb : PBlock
  launches : List Launch
  deferred : List Deferred
  nextLid : Nat
  flts : List FltRec
  jn : Journal
  /-- Doorbell blocks by context index (R413), and the doorbell writes not yet served, oldest first: the ring and its `TAIL` (R414). -/
  bells : SMap Bell
  rung : List (Nat × Nat)
  /-- The tier block (R415). -/
  tbase : Nat
  tlen : Nat
  fb : FBlock
  mg : MBlock
deriving DecidableEq, Repr

/-- A queue pair of the storage port (R418). -/
structure QPair where
  sqb : Nat
  cqb : Nat
  qlog : Nat
  blk : Bool
  own : Nat
  ownv : Bool
  en : Bool
  tmo : Nat
  sqdb : Word
  cqdb : Word
  err : Nat
deriving DecidableEq, Repr

def QPair.zero : QPair := ⟨0, 0, 0, false, 0, false, false, 0, 0, 0, 0⟩

/-- A command on a queue pair: the core and the CQ number of its entry, its command id, the cycle in which it was submitted (R419). -/
structure SioCmd where
  core : Nat
  seq : Nat
  cid : Nat
  start : Nat
deriving DecidableEq, Repr

/-- Where a queue pair's rings stand (R417): the submission tail, the completion head and its phase bit, the commands outstanding. -/
structure SioRing where
  tail : Nat
  hd : Nat
  phase : Bool
  cmds : List SioCmd
deriving DecidableEq, Repr

def SioRing.zero : SioRing := ⟨0, 0, true, []⟩

/-- The storage port (R411, R417): the mode of each host port (0 PCIe, 1 CXL, 2 storage, 3 no port: R438), the queue table (default `QPair.zero`) and where its
rings stand (default `SioRing.zero`). -/
structure Stor where
  mode0 : Nat
  mode1 : Nat
  qps : SMap QPair
  rings : SMap SioRing
deriving DecidableEq, Repr

/-- The PHY block of an HBM channel (R430) but for `TRN`. `test`: 0 none, 1 read, 2 write-read in progress. Lane registers: `RD` in bits
6:0, `WR` in bits 14:8, default 0x4040. -/
structure Phy where
  vrefc : Nat
  repair : Nat
  tseed : Nat
  tlen : Nat
  test : Nat
  terr : Nat
  tcnt : Nat
  lanes : SMap Nat
deriving DecidableEq, Repr

def Phy.cold : Phy := ⟨0x40, 0, 1, 64, 0, 0, 0, []⟩

/-- The HBM channels (R429 to R432, R428): bit 64 s + c of `trn` is `TRN` of channel c of stack s; PHY blocks (default `Phy.cold`); stacks
in self-refresh; the contexts frozen by them (ASID, stack, the cycle since which). -/
structure Hbm where
  trn : BitVec 2048
  phy : SMap Phy
  sref : BitVec 32
  frozen : List (Nat × Nat × Nat)
deriving DecidableEq, Repr

/-- What the module has put on the fabric: an answer to a remote operation (code 0 acknowledges, else the NAK code; bytes or old value);
a REDIRECT; a page sent to its puller; an atomic's answer; the migration image; a request of a croft (its `tag` is the croft) to a
device, or to a switch group for a multicast; a forwarded atomic; a Read command of the storage port; a refused pull (R404); an image that does
not fit (R401); a write of a drive's doorbell; an Abort command (R419); the request for a page that is to be pulled from its home device (R403). -/
inductive FabOut where
  | answer (op : RemoteOp) (code : Nat) (val : Nat) (data : List Byte)
  | redirect (op : RemoteOp) (dev part : Nat)
  | page (p ctx va : Nat) (data : PageData)
  | amoAnswer (p : Nat) (a : FwdAtomic) (old : Option Nat)
  | image (p : Nat) (dev part : Nat) (facts : MigFacts) (data : List Byte)
  | request (dev : Nat) (op : RemoteOp)
  | forward (dev : Nat) (a : FwdAtomic)
  | nvme (q nsid slba nlb : Nat)
  | pullRefusal (p ctx va : Nat)
  | imageRefusal (p : Nat)
  | doorbell (addr : Word) (v : Nat)
  | nvmeAbort (q cid : Nat)
  | pullRequest (dev ctx va : Nat)
deriving DecidableEq, Repr

/-- A flit (R386): the header's class, source, destination and 12-bit sequence number, none before a link has taken it, and in place of the
payload what it is of, and which one of its flits. -/
structure Flit where
  seq : Option Nat
  cls : Nat
  src : Nat
  dst : Nat
  of : FabOut
  part : Nat
deriving DecidableEq, Repr

/-- A fabric port (R386): 0 UP, 1 RETRAIN, 2 DOWN; consecutive failed replays; the sequence number of its next flit; its replay buffer: the flits
that it has put on its link and that are not acknowledged, oldest first. -/
structure FPort where
  st : Nat
  fails : Nat
  next : Nat
  sent : List Flit
deriving DecidableEq, Repr

def FPort.up : FPort := ⟨0, 0, 0, []⟩

/-- An operation that has been admitted and waits for a page (R392, R398): the window that admitted it; whether it has been forwarded to the home
device of its page (1), or came back from there (2) (R403). -/
structure Admitted where
  op : RemoteOp
  win : BitVec 256
  fwd : Nat
deriving DecidableEq, Repr

/-- The fabric side of the module (R385 to R405): group entries' word 0 by absolute number, the redirect cache with the oldest entry
first, operations waiting at the port, operations admitted that wait for a page, what is to be sent, the ports (default `FPort.up`), the flits that wait for a
port: those of a port that went down, to be replayed on another, and the rest of an operation whose first flits are on their way. -/
structure Fab where
  groups : SMap Word
  redir : List ((Nat × Nat) × (Nat × Nat))
  inbox : List RemoteOp
  admitted : List Admitted
  out : List FabOut
  ports : SMap FPort
  resend : List Flit
deriving DecidableEq, Repr

/-- The start sequence (R435 to R439) and what it measured: highest stage, whether the sequence runs, reason and detail of the last failed
start, the failed-start count, minimal mode, digests and security versions of the images. -/
structure Boot where
  stage : Nat
  running : Bool
  reason : Nat
  detail : Nat
  failcnt : Nat
  minmode : Bool
  idig : List (BitVec 256)
  isvn : List Nat
deriving DecidableEq, Repr

/-- Management (R444 to R453): the start sequence; fenced hamlets and retired stacks; the power limit, the steps taken of R451 and the clock
that temperature allows; counters keyed `2^20 * counter + unit`; the event log, oldest first (kind, unit, cycle); the last answer and
report of the mailbox; the command in progress (R444). -/
structure Mgmt where
  boot : Boot
  /-- A partition has been provisioned since the cold start (R431). -/
  provisioned : Bool
  fenced : BitVec 16
  retired : BitVec 32
  plimit : Nat
  pstep : Nat
  tclk : Nat
  tel : SMap Nat
  evlog : List (Nat × Nat × Nat)
  answer : Nat
  report : List Nat
  pending : Option Instr
deriving DecidableEq, Repr

/-- A step stops for good. `absentCore`: the core that is to run a unit is none of the 264 cores of the module; raised by `step`
alone, in states that no run reaches; safe. -/
inductive Fault where
  | absentCore
deriving DecidableEq, Repr

/-- An instruction has no meaning. `notModelled`: its arm of `exec` is still rejected by name; safe. -/
inductive Refusal where
  | notModelled (mnemonic : String)
deriving DecidableEq, Repr

/-- Something the device or its surroundings do next: a core runs one unit; an event row of the opcode table; or a choice that is no
row: a translation, a table entry or a buffer entry leaves its cache, a croft fills a line of its L1 or looks ahead, a slice writes a line back,
a byte of two racing writes takes the other's value, the host writes memory or a doorbell block, a soft error is corrected or an uncorrectable
one stands, in HBM, in its codes or tags or in a local memory, a test of an HBM channel counts errors, what waits at the fabric port is tried again, the management firmware enters a queue pair, the fabric or the host takes what the
module has sent it, a link acknowledges a flit or replays one well; a partition's command in progress goes on; a management command begins that is not done at once, or the one in progress is done; a
migration image arrives, or the target has no room for it; a home device refuses a pull; the device that holds a page answers an
admitted atomic forwarded to it. -/
inductive Act where
  | core (c : Nat)
  | event (i : Instr)
  | tlbEvict (c key : Nat)
  | sharedEvict (h key : Nat)
  | walkEvict (field addr : Nat)
  | l1Fill (c : Nat) (ptr : Word)
  | lookahead (c : Nat) (ptr : Word)
  | metaError (line code : Nat)
  | tagError (sector : Nat)
  | phyProgress (ch terr tcnt : Nat)
  | portRetry
  | mscWriteBack (line : Nat)
  | byteRace (i j k : Nat)
  | hostWrite (pa : Nat) (b : Byte)
  | eccError (line : Nat)
  | queuePair (q : Nat) (e : QPair)
  | bellWrite (vf asid off : Nat) (v : Word)
  | wireTake (port : Nat)
  | linkAck (port : Nat)
  | linkGood (port : Nat)
  | msixTake
  | softError (line : Nat)
  | storeError (space word : Nat)
  | command (p : Nat)
  | mgmtBegin (i : Instr)
  | mgmtEnd
  | imageBytes (p : Nat) (facts : MigFacts) (data : List Byte)
  | imageRefused (p : Nat)
  | pullRefused (asid va : Nat)
  | fwdAnswer (op : RemoteOp) (old : Option Nat)
deriving DecidableEq, Repr

/-- Who makes a write: an entry of a core, by its queues and its counts at issue, and whether its atomics are checked for mixed sizes (R128).
Agents outside have numbers of their own and no queue: 1,000 the host, 1,001 + d a device of the fabric. -/
structure Author where
  core : Nat
  qs : List QId
  seq : Counts
  mxc : Bool
deriving DecidableEq, Repr

/-- Where a write that can race was performed (R127): at home, under a key and a compressibility; in a local memory, by its space (that of
`lbad`). The forager alone reaches a lane store, in program order (R108). -/
inductive RaceAt where
  | home (key : Nat) (compr : Bool)
  | near (space : Nat)
deriving DecidableEq, Repr

/-- A single-copy atomic write that was performed, for the races of R127: who made it (a write-back is its croft's SQ's), where, its bytes and
the bits of them that it writes (R77), whether its agent has released since, and how many places before it stand the noted writes that
are not ordered before it. -/
structure RaceW where
  by_ : Author
  loc : RaceAt
  at_ : Nat
  bs : List Byte
  bits : List Byte
  past : Bool
  free : List Nat
deriving DecidableEq, Repr

/-- The whole module. Defaults of the sparse maps: a cold core, memory byte 0, `LineSt.zero`, tag 0, local byte 0, key not loaded (0; a
loaded key's value is its 512-bit material + 1), `Gate.none`. -/
structure State where
  /-- The core whose unit runs next. -/
  active : Nat
  /-- The entry whose work is being done, and the latest writes that can race, oldest first (R127). -/
  author : Option Author
  writes : List RaceW
  /-- What happens next, before the active core's next unit. -/
  agenda : List Act
  /-- The model's own: entries that can start start and complete in the step that issues them (log entry 2). -/
  eager : Bool
  /-- The model's own: the number of steps so far, from which free values are drawn. -/
  tick : Nat
  /-- Arithmetic cycles since module reset, mod 2^64 (R324). -/
  cycle : Word
  cores : SMap CoreSt
  mem : List Host.Cell
  lines : SMap LineSt
  /-- Sector tags (R78), by physical sector; the sectors whose tag cannot be corrected (R425). -/
  tags : SMap Nat
  tagBad : List Nat
  /-- Hamlet memory, keyed 2^23 * hamlet + offset (R26). -/
  hmem : SMap Byte
  commons : SMap Byte
  keys : SMap Nat
  /-- Gates by 64 * croft + gate (R259). -/
  gates : SMap Gate
  /-- ASID + 1 whose gates a croft holds (R261); 0: none. -/
  gateAsid : SMap Nat
  parts : SMap Part
  /-- The L2 TLBs by hamlet, the L3 TLB by bank, and the table entries that the walkers hold by field, oldest first (R347). -/
  tlb2 : SMap Tlb
  tlb3 : SMap Tlb
  wheld : SMap (List WalkEnt)
  /-- Where the rotation of each hamlet's copy engines stands: the place of the CQ that is served next (R23). -/
  rota : SMap Nat
  /-- What interleave classes have done, by 64 KiB frame (R355, R356); default `FrameSt.zero`. -/
  frames : SMap FrameSt
  devid : Nat
  /-- R424: line codes are enabled; frames per quadrant that tags cover. -/
  mden : Bool
  tagfr : Nat
  /-- Pulls in progress (R349). -/
  pulls : List Pull
  /-- Pages whose pull the home device has refused (R404). -/
  pullGone : List (Nat × Nat)
  /-- MSI-X vectors raised and not yet taken by the host: virtual function and vector (R50, R352). -/
  msix : List (Nat × Nat)
  /-- Atomics performed at home slices (R128): address, size, croft, cycle. -/
  atomLog : List (Nat × Nat × Nat × Nat)
  /-- Bailiffs stopped by a trap (core, cause), as reported through the management interface (R368). -/
  reports : List (Nat × Nat)
  /-- Bytes of residual stacks that no HBM region holds, keyed 2^60 * asid + 2^48 * stack + depth; value byte + 1 (R284). -/
  tier : SMap Nat
  /-- A context's value of `DBGCTL` + 1 (R325), by ASID; 0: `DBGINIT` of its descriptor holds. -/
  dbg : SMap Nat
  /-- Words of local memories that fail their check beyond rebuilding (R68): space (a core's croft store by core; 1,000 + hamlet; 2,000 the
  commons) and 32-byte word. -/
  lbad : List (Nat × Nat)
  /-- The held-entry regions written so far (R378): number n's region carries n + 1. -/
  forms : List HeldForm
  hbm : Hbm
  stor : Stor
  fab : Fab
  mgmt : Mgmt
deriving DecidableEq, Repr

def ScalarFile.zero : ScalarFile := ⟨[], 1, 0, Blk.zero⟩

/-- `QSLIP` at reset and at point start (R324): every slip depth is its queue's size. -/
def qslipReset : Word := 0x2010404040

/-- A core after a cold start (R324, R447): every register 0 but `QSLIP`; nothing bound, nothing queued. -/
def CoreSt.cold : CoreSt where
  f := .zero
  pend := 0
  hpend := 0
  ctl := { qslip := qslipReset, tvec := 0, tcause := 0, tcut := 0, tscratch := 0, dbgctl := 0, mdptr := none, bevt := 0, priv := false,
           inHandler := false, stopped := false, halted := false }
  eng := { v := [], m := [], acc := [], slots := [], h := [], ch := [] }
  loc := { store := [], lane := [], l1 := [], epoch := 0, plog := [], promo := none, hot := [], binds := 0, hotSrc := [] }
  ctx := { asid := 0, part := 0, desc := 0, bufs := [], tlb := [], imem := [], ilines := [] }
  slot := { running := none, staged := none, csneed := 0, rstab := 0, parked := false, gated := false, reqs := [], roles := 0, active := false, ending := false }
  res := { stack := none, walk := none, outer := false, steps := 0, log := [], redo := [] }
  q := { es := [], issued := .zero, sup := none, trap := none, heldEs := [], cutCnt := .zero }

/-- A partition number that is not in use: every field at its Reset value (R337, R371). -/
def Part.free : Part where
  prov := false
  hset := 0
  sset := 0
  comb := 0
  coml := 0
  vfbase := 0
  nvf := 0
  capa := 0
  capb := 0
  tb := ⟨0, 0, 0, 0, 0, 0, 0, 0, 0, 0, 0, false⟩
  pb := ⟨0, 0, false, 0, 0, 0, 0, 0⟩
  launches := []
  deferred := []
  nextLid := 1
  flts := []
  jn := ⟨0, 0, 0, [], []⟩
  bells := []
  rung := []
  tbase := 0
  tlen := 0
  fb := .zero
  mg := .zero

/-- The start-status block at reset (R439: `STAGE` 0x9; nothing failed). -/
def Boot.reset : Boot := ⟨9, false, 0, 0, 0, false, [], []⟩

/-- The module after a cold start (R324, R435, R447): no partition provisioned, nothing loaded, nothing running. -/
def State.reset : State where
  active := 0
  author := none
  writes := []
  agenda := []
  eager := true
  tick := 0
  cycle := 0
  cores := []
  mem := []
  lines := []
  tags := []
  tagBad := []
  hmem := []
  commons := []
  keys := []
  gates := []
  gateAsid := []
  parts := []
  tlb2 := []
  tlb3 := []
  wheld := []
  rota := []
  frames := []
  devid := 0
  mden := true
  tagfr := 0
  pulls := []
  pullGone := []
  msix := []
  atomLog := []
  reports := []
  tier := []
  dbg := []
  lbad := []
  forms := []
  hbm := ⟨BitVec.allOnes 2048, [], 0, []⟩
  stor := ⟨0, 0, [], []⟩
  fab := ⟨[], [], [], [], [], [], []⟩
  mgmt := { boot := .reset, provisioned := false, fenced := 0, retired := 0, plimit := 3400, pstep := 0, tclk := 1700, tel := [], evlog := [], answer := 0, report := [], pending := none }

end Sys2Proof.Machine
end

