-- ==== Sys2Proof/Machine/Regs.lean ====
section
/-! DEFINITION. The named operations over cores and registers: reading and writing a core, its scalar, predicate, vector, mask and
tile registers, and the order in which an operation's effects and its trap are put together. -/

namespace Sys2Proof.Machine

/-- Why an operation ends early: it traps (cause, faulting pointer), and its partial effects stand; it has to wait for something that has
not happened, and is tried again from the start; or what it did stands, and it is tried again (`kept`), with its request sent (`sent`, R329). -/
inductive Stop where
  | trap (c : Cause) (fptr : Word)
  | wait
  | sent
  | kept
deriving DecidableEq, Repr

/-- An operation on the module that may trap or have to wait. -/
abbrev M (α : Type) := ExceptT Stop (StateM State) α

/-- R360: the code of a cause. -/
def Cause.code : Cause → Nat
  | .none => 0x00 | .illop => 0x01 | .badreg => 0x02 | .badch => 0x03 | .bounds => 0x04 | .rights => 0x05 | .xlate => 0x06
  | .align => 0x07 | .mixsz => 0x08 | .timeout => 0x09 | .rsovf => 0x0A | .rsunf => 0x0B | .frame => 0x0C | .nodiff => 0x0D
  | .hdlbad => 0x0E | .badtgt => 0x0F | .ecc => 0x10 | .keygone => 0x11 | .bkpt => 0x12 | .trapi => 0x13 | .preempt => 0x14

/-- R360: the causes that end the context. -/
def Cause.fatal : Cause → Bool
  | .xlate | .ecc | .keygone => true
  | _ => false

/-- Trap with a cause and a faulting pointer. -/
def trap {α : Type} (c : Cause) (fptr : Word) : M α := throw (.trap c fptr)

/-- Trap unless a condition holds. -/
def check (b : Bool) (c : Cause) (fptr : Word) : M Unit := if b then pure () else trap c fptr

-- ### Cores

/-- Bailiffs are cores 256 to 263 (R16). -/
def isBailiff (c : Nat) : Bool := 256 ≤ c
/-- The field of a core: 32 crofts to a field (R16). -/
def fieldOf (c : Nat) : Nat := if isBailiff c then c - 256 else c / 32
/-- The hamlet of a croft; a bailiff is attached to the first hamlet of its field (R16, R456). -/
def hamletOf (c : Nat) : Nat := if isBailiff c then 2 * (c - 256) else c / 16

def State.core (s : State) (c : Nat) : CoreSt := SMap.get .cold s.cores c
def State.setCore (s : State) (c : Nat) (k : CoreSt) : State := { s with cores := SMap.set .cold s.cores c k }
def State.modCore (s : State) (c : Nat) (f : CoreSt → CoreSt) : State := s.setCore c (f (s.core c))

def State.part (s : State) (p : Nat) : Part := SMap.get .free s.parts p
def State.setPart (s : State) (p : Nat) (k : Part) : State := { s with parts := SMap.set .free s.parts p k }
def State.modPart (s : State) (p : Nat) (f : Part → Part) : State := s.setPart p (f (s.part p))

/-- R323: a bailiff is always privileged; a croft from trap entry to `TRET`. -/
def State.privileged (s : State) (c : Nat) : Bool := isBailiff c || (s.core c).ctl.priv

def getCore (c : Nat) : M CoreSt := return (← get).core c
def modCore (c : Nat) (f : CoreSt → CoreSt) : M Unit := modify (fun s => s.modCore c f)
def modPart (p : Nat) (f : Part → Part) : M Unit := modify (fun s => s.modPart p f)

-- ### The scalar file

/-- s0 reads zero (R154). -/
def ScalarFile.rd (f : ScalarFile) (r : SReg) : Word := if r = 0 then 0 else SMap.get 0 f.s r.toNat
/-- s0 discards writes (R154). -/
def ScalarFile.wr (f : ScalarFile) (r : SReg) (v : Word) : ScalarFile :=
  if r = 0 then f else { f with s := SMap.set 0 f.s r.toNat v }
/-- p0 reads true (R154). -/
def ScalarFile.rdP (f : ScalarFile) (r : PReg) : Bool := r == 0 || f.p.getLsbD r.toNat
/-- p0 discards writes (R154). -/
def ScalarFile.wrP (f : ScalarFile) (r : PReg) (b : Bool) : ScalarFile :=
  if r = 0 then f else { f with p := if b then f.p ||| (1#8 <<< r.toNat) else f.p &&& ~~~(1#8 <<< r.toNat) }

def CoreSt.rd (k : CoreSt) (r : SReg) : Word := k.f.rd r
def CoreSt.wr (k : CoreSt) (r : SReg) (v : Word) : CoreSt := { k with f := k.f.wr r v }
def CoreSt.wrP (k : CoreSt) (r : PReg) (b : Bool) : CoreSt := { k with f := k.f.wrP r b }
def CoreSt.setPc (k : CoreSt) (pc : Word) : CoreSt := { k with f := { k.f with pc := pc } }
def CoreSt.setBlk (k : CoreSt) (b : Blk) : CoreSt := { k with f := { k.f with blk := b } }

/-- sn is pending (R21). s0 never is. -/
def CoreSt.isPend (k : CoreSt) (r : SReg) : Bool := r != 0 && k.pend.getLsbD r.toNat
def CoreSt.setPend (k : CoreSt) (r : SReg) : CoreSt := if r = 0 then k else { k with pend := k.pend ||| (1#64 <<< r.toNat) }
def CoreSt.clrPend (k : CoreSt) (r : SReg) : CoreSt := { k with pend := k.pend &&& ~~~(1#64 <<< r.toNat) }
/-- hn is pending (R251). -/
def CoreSt.setHpend (k : CoreSt) (r : HReg) : CoreSt := { k with hpend := k.hpend ||| (1#64 <<< r.toNat) }
def CoreSt.clrHpend (k : CoreSt) (r : HReg) : CoreSt := { k with hpend := k.hpend &&& ~~~(1#64 <<< r.toNat) }

-- ### Vector, mask and tile registers

def CoreSt.rdV (k : CoreSt) (r : VReg) : BitVec 2048 := SMap.get 0 k.eng.v r.toNat
def CoreSt.wrV (k : CoreSt) (r : VReg) (x : BitVec 2048) : CoreSt := { k with eng := { k.eng with v := SMap.set 0 k.eng.v r.toNat x } }
def CoreSt.rdM (k : CoreSt) (r : MReg) : BitVec 128 := SMap.get 0 k.eng.m r.toNat
def CoreSt.wrM (k : CoreSt) (r : MReg) (x : BitVec 128) : CoreSt := { k with eng := { k.eng with m := SMap.set 0 k.eng.m r.toNat x } }
/-- The key of tile element (r, c) of tile `t`. -/
def accKey (t r c : Nat) : Nat := 8192 * t + 64 * r + c
def CoreSt.rdAcc (k : CoreSt) (t r c : Nat) : AccEl := SMap.get .zero k.eng.acc (accKey t r c)
def CoreSt.wrAcc (k : CoreSt) (t r c : Nat) (x : AccEl) : CoreSt :=
  { k with eng := { k.eng with acc := SMap.set .zero k.eng.acc (accKey t r c) x } }
def CoreSt.rdSlot (k : CoreSt) (n : LReg) : Nest := SMap.get .clear k.eng.slots n.toNat
def CoreSt.wrSlot (k : CoreSt) (n : LReg) (x : Nest) : CoreSt :=
  { k with eng := { k.eng with slots := SMap.set .clear k.eng.slots n.toNat x } }
def CoreSt.rdH (k : CoreSt) (n : HReg) : Handle := SMap.get .unbound k.eng.h n.toNat
def CoreSt.wrH (k : CoreSt) (n : HReg) (x : Handle) : CoreSt := { k with eng := { k.eng with h := SMap.set .unbound k.eng.h n.toNat x } }
def CoreSt.rdCh (k : CoreSt) (n : CReg) : BitVec 512 := SMap.get 0 k.eng.ch n.toNat

/-- The bits of `x` where `m` is set, those of `old` elsewhere. -/
def mergeBits {w : Nat} (old x m : BitVec w) : BitVec w := (old &&& ~~~m) ||| (x &&& m)

/-- One register write of an entry's completion. A scalar that was pending no longer is (R21). -/
def Wr.apply (k : CoreSt) (w : Wr) : CoreSt :=
  match w with
  | .s r x => (k.wr r x).clrPend r
  | .h r x => k.wrH r x
  | .v r x wm => k.wrV r (mergeBits (k.rdV r) x wm)
  | .m r x wm => k.wrM r (mergeBits (k.rdM r) x wm)

/-- What a write leaves in the committed file of a later, unstarted entry (R363). -/
def Wr.commit (f : ScalarFile) (w : Wr) : ScalarFile :=
  match w with
  | .s r x => f.wr r x
  | _ => f

end Sys2Proof.Machine
end

