-- ==== Sys2Proof/Machine/Mem.lean ====
section
/-! DEFINITION. Memory: the home of every line (encryption, compression codes, poison: R81 to R83, R357 to R359, R421 to R424), page
tables and translations (R341 to R351), buffers and windows (R57 to R65), a croft's L1 (R105, R115 to R119), and the accesses that
the engines and the forager make through them. -/

namespace Sys2Proof.Machine

-- ### Counters (R448)

/-- Telemetry counters: the key of counter `n` of unit `u`. 0, 1 `CECC` by stack and by field; 2, 3 `UECC` likewise; 4 `CSRB` by croft; 5 `DEMOT`
by ASID; 6 `LRTY` and 7 `LRTN` by port; 8 `SREF` by stack. -/
def telKey (n u : Nat) : Nat := 2 ^ 20 * n + u

/-- R448: so many more, saturating at 2^48 − 1. -/
def State.addCount (s : State) (n u more : Nat) : State :=
  let v := SMap.get 0 s.mgmt.tel (telKey n u)
  { s with mgmt := { s.mgmt with tel := SMap.set 0 s.mgmt.tel (telKey n u) (min (v + more) (2 ^ 48 - 1)) } }
def State.count (s : State) (n u : Nat) : State := s.addCount n u 1

/-- The kinds of the event log (R449), as this model numbers them. -/
def evBailiff : Nat := 0
def evRetired : Nat := 1
def evFenced : Nat := 2
def evUnfenced : Nat := 3
def evClock : Nat := 4
def evPortDown : Nat := 5
def evCapOn : Nat := 6
def evCapOff : Nat := 7
def evStart : Nat := 8

/-- R449: one more entry of the event log, which keeps the last 1,024. -/
def State.logEvent (s : State) (kind unit : Nat) : State :=
  let es := s.mgmt.evlog ++ [(kind, unit, s.cycle.toNat)]
  { s with mgmt := { s.mgmt with evlog := es.drop (es.length - 1024) } }

/-- R428: a context that waits on a stack in self-refresh. -/
def State.ctxFrozen (s : State) (asid : Nat) : Bool := s.hbm.frozen.any (fun x => x.1 == asid)

/-- R420: the field that the quadrant of an HBM address is wired to. -/
def fieldOfPa (pa : Nat) : Nat := natBits pa 34 2 + 4 * (natBits pa 36 5 % 2)

/-- R448: an uncorrectable error of a stack is delivered as ECC. -/
def State.countEcc (s : State) (pa : Nat) : State := if 2 ^ 41 ≤ pa then s else (s.count 2 (natBits pa 36 5)).count 3 (fieldOfPa pa)

-- ### Fixed-rate blocks (R422, R423)

/-- The zigzag codes of a line's 128 samples. -/
def zigzags (prev : Nat) : List Nat → List Nat
  | [] => []
  | x :: xs =>
    let d := sextNat (x + 65536 - prev) 16
    (if d < 0 then (-2 * d - 1).toNat else (2 * d).toNat) :: zigzags x xs

/-- The widths of the eight runs of sixteen codes. -/
def runWidths (z : List Nat) : List Nat :=
  (upTo 8).map (fun j => bitLen (((z.drop (16 * j)).take 16).foldl max 0))

/-- The block of a line, as a number, and its size in bytes (R422). -/
def blockOf (line : BitVec 2048) : Nat × Nat :=
  let z := zigzags 0 ((upTo 128).map (fun i => fld line (16 * i) 16))
  let w := runWidths z
  let hdr := ((upTo 8).map (fun j => atBit (w.getD j 0) (5 * j))).foldl (· + ·) 0
  let body := ((upTo 128).foldl (fun (acc : Nat × Nat) i => (acc.1 + atBit (z.getD i 0) acc.2, acc.2 + w.getD (i / 16) 0)) (hdr, 64))
  (body.1, (body.2 + 7) / 8)

/-- The code of a line and the bytes stored for it (R256, R422): `op` forces a class. -/
def classOf (op : Nat) (line : BitVec 2048) : Nat × Nat :=
  if line = 0 then (1, 0)
  else
    let size := (blockOf line).2
    let fits := fun (n : Nat) => decide (size ≤ 64 * n)
    if op = 0 then (if fits 1 then (2, 64) else if fits 2 then (3, 128) else if fits 3 then (4, 192) else (0xF, 256))
    else if fits op then (op + 1, 64 * op) else (0xF, 256)

/-- The samples of a block: reads code by code; the zigzag is undone and the differences summed (R423). -/
def unblock (blk : Nat) (w : List Nat) : List Nat → Nat → Nat → List Nat
  | [], _, _ => []
  | i :: is, pos, prev =>
    let n := w.getD (i / 16) 0
    let z := natBits blk pos n
    let d : Int := if z % 2 = 1 then -(((z + 1) / 2 : Nat) : Int) else ((z / 2 : Nat) : Int)
    let x := wrapInt 16 ((prev : Int) + d)
    x :: unblock blk w is (pos + n) x

/-- R423: the line of a block of `cls` bytes; `none` when it fails decoding. -/
def decodeBlock (blk cls : Nat) : Option (BitVec 2048) :=
  let w := (upTo 8).map (fun j => natBits blk (5 * j) 5)
  let bits := 64 + 16 * w.foldl (· + ·) 0
  if w.any (fun x => 16 < x) || natBits blk 40 24 != 0 || 8 * cls < bits || natBits blk bits (8 * cls - bits) != 0 then none
  else some (BitVec.ofNat 2048 (((unblock blk w (upTo 128) 64 0).zipIdx.map (fun p => atBit p.1 (16 * p.2))).foldl (· + ·) 0))

-- ### Home

/-- Host-path addresses (R346); they carry no key and no code. -/
def isHostPath (pa : Nat) : Bool := 2 ^ 48 ≤ pa && pa < 2 ^ 50

/-- R355: the pseudo-channel of its quadrant on which an interleave class places the line of `pa`. -/
def pseudoChannel (cls pa : Nat) : Nat :=
  let l := natBits pa 8 8
  let f := natBits pa 16 5
  if cls = 0 then l % 32
  else if cls = 1 then l / 2 % 32
  else if cls = 2 then l / 4 % 32
  else if cls = 3 then l / 8
  else if cls = 4 then (l % 32) ^^^ f
  else if cls = 5 then (l / 8) ^^^ f
  else if cls = 6 then f
  else l % 16 + 16 * natBits pa 16 1

/-- R355, R429: the channel, of all 2,048, that a line of a buffer of a class reaches: two pseudo-channels to a channel (log entry 39). -/
def channelOf (cls pa : Nat) : Nat := 16 * natBits pa 34 7 + pseudoChannel cls pa / 2

/-- R428, R431: an access through a buffer of class `cls` waits. -/
def State.clsWaits (s : State) (cls pa : Nat) : Bool :=
  pa < 2 ^ 41 && (s.hbm.sref.getLsbD (natBits pa 36 5) ||
    (fld s.hbm.trn (16 * natBits pa 34 7) 16 != 0 && s.hbm.trn.getLsbD (channelOf cls pa)))

/-- R428, R431: an access that the device makes at HBM address `pa`, with no buffer, waits for the channel that it reaches: that of an open class
of its frame, since the spec gives such an access none (log entry 39). -/
def State.paWaits (s : State) (pa : Nat) : Bool := s.clsWaits (Config.deviceClass (pa / 65536)) pa

/-- A line of a run of bytes that has to be waited for. -/
def State.runWaits (s : State) (pa n : Nat) : Option Nat :=
  if n = 0 ∨ (s.hbm.sref = 0 ∧ s.hbm.trn = 0) then none
  else ((upTo ((pa + n - 1) / 256 - pa / 256 + 1)).map (fun i => 256 * (pa / 256 + i))).find? s.paWaits

/-- R411, R412: a host-path access to a port in storage mode raises RIGHTS; so does one to a port that minimal mode leaves out (log entry 68). -/
def State.storagePath (s : State) (pa : Nat) : Bool :=
  isHostPath pa && 2 ≤ (if pa < 2 ^ 49 then s.stor.mode0 else s.stor.mode1)

/-- The key material of a key id (R357): 0 for plaintext, `none` when the key is not loaded. -/
def State.keyMat (s : State) (key : Nat) : Option Nat :=
  if key = 0 then some 0
  else match SMap.get 0 s.keys key with
    | 0 => none
    | n + 1 => some (n + 1)

def State.lineSt (s : State) (line : Nat) : LineSt := SMap.get .zero s.lines line
def State.setLineSt (s : State) (line : Nat) (x : LineSt) : State := { s with lines := SMap.set .zero s.lines line x }

/-- The stored byte at a physical address, whatever its encryption. -/
def State.byte (s : State) (pa : Nat) : Byte := SMap.get 0 s.mem pa
def State.setByte (s : State) (pa : Nat) (b : Byte) : State := { s with mem := SMap.set 0 s.mem pa b }

/-- R357, R358: a 64-byte sector encrypted under material `a`, as it reads under material `b` (0: plaintext), with its tweak value. `mem`
holds the bytes that were written, and `LineSt.mat` what the stored ones are encrypted under. -/
def recrypt (a b tweak : Nat) (bs : List Nat) : List Nat :=
  let stored := if a = 0 then bs else Aes.xtsEncrypt (a - 1) tweak bs
  if b = 0 then stored else Aes.xtsDecrypt (b - 1) tweak stored

/-- The bytes of a line written under `a`, read under `b`. -/
def crossLine (a b line : Nat) (bs : List Byte) : List Byte :=
  if a = b then bs
  else ((upTo 4).flatMap (fun i => recrypt a b (natBits (256 * line + 64 * i) 6 44) (((bs.drop (64 * i)).take 64).map BitVec.toNat))).map (BitVec.ofNat 8)

-- ### Frames reached under two interleave classes (R356)

def State.frame (s : State) (f : Nat) : FrameSt := SMap.get .zero s.frames f

/-- R356: what a byte of a frame that has been reached under two classes reads as: a value that the frame holds or held (log entry 83). -/
def State.mixedByte (s : State) (x : FrameSt) (pa : Nat) : Byte :=
  let n := Config.mixPick x.ver pa
  if n < 65536 then s.byte (pa - pa % 65536 + n) else x.old.getD (n - 65536) (s.byte pa)

/-- R356: a frame reached through a page under a class. -/
def FrameSt.reached (x : FrameSt) (page cls : Nat) : FrameSt :=
  if x.reach.contains (page, cls) then x
  else { x with reach := x.reach ++ [(page, cls)], mixed := x.mixed || x.reach.any (fun y => y.2 != cls) }

/-- R356: of a frame only the pages that meet a condition still reach it; one that none reaches is as it was before the first did. -/
def FrameSt.only (x : FrameSt) (keep : Nat → Bool) : FrameSt :=
  let r := x.reach.filter (fun y => keep y.1)
  if r.isEmpty then .zero else { x with reach := r }

/-- R356: bytes of a frame that pages reach are about to be overwritten: it held them. -/
def State.outdate (s : State) (line : Nat) (m : BitVec 256) : State :=
  let x := s.frame (line / 256)
  let gone := ((upTo 256).filter (fun i => m.getLsbD i)).map (fun i => s.byte (256 * line + i))
  if x.reach.isEmpty then s else { s with frames := SMap.set .zero s.frames (line / 256) { x with ver := x.ver + 1, old := gone ++ x.old } }

/-- The 256 stored bytes of a line, read under key material `mat`, as one number with byte i in bits 8i + 7:8i. -/
def State.rawLine (s : State) (line mat : Nat) : BitVec 2048 :=
  let x := s.frame (line / 256)
  let bytes := SMap.slice s.mem (256 * line) 256
  let read := fun (i : Nat) => if x.mixed then s.mixedByte x (256 * line + i) else SMap.get 0 bytes (256 * line + i)
  BitVec.ofNat 2048 (leNat (crossLine (s.lineSt line).mat mat line ((upTo 256).map read)))

/-- Why a line cannot be delivered: its key is gone (R357), it is an uncorrectable error (R83, R359, R421), or it lies behind a port in
storage mode (R412). -/
inductive LineErr where
  | keygone | ecc | rights
deriving DecidableEq, Repr

/-- A line as an access under `key` finds it at home (R81, R83, R357, R359, R424): through a compressible buffer the code is
consulted, otherwise the stored bytes are the line. -/
def State.homeLine (s : State) (line key : Nat) (compr : Bool) : Except LineErr (BitVec 2048) :=
  let host := isHostPath (256 * line)
  match (if host then some 0 else s.keyMat key) with
  | none => .error .keygone
  | some mat =>
    let st := s.lineSt line
    if st.poison || st.ecc then .error .ecc
    else
      let raw := s.rawLine line mat
      if host || !compr then .ok raw
      else if st.code = 0 || st.code = 0xF then .ok raw
      else if st.code = 1 then .ok 0
      else if st.code = 2 || st.code = 3 || st.code = 4 then
        let cls := 64 * (st.code - 1)
        match decodeBlock (fld raw 0 (8 * cls)) cls with
        | some x => .ok x
        | none => .error .ecc
      else .error .ecc

/-- Writes the bytes of `x` whose bit of `m` is set into a run of stored bytes from `pa` upwards. -/
def putBytes (mem : SMap Byte) (pa : Nat) (x : BitVec 2048) (m : BitVec 256) : Nat → SMap Byte
  | 0 => mem
  | n + 1 =>
    let r := putBytes mem pa x m n
    if m.getLsbD n then SMap.set 0 r (pa + n) (x.extractLsb' (8 * n) 8) else r

/-- All 256 bytes. -/
def allBytes : BitVec 256 := BitVec.allOnes 256

/-- R359, R421: what a line that delivers nothing is after a masked write: well again once writes that its slice holds together have covered
it. Its code is 0 (R424), or 1 when a compressible line is all zero. -/
def LineSt.rewritten (st : LineSt) (mat dirty : Nat) (zero : Bool) (m : BitVec 256) : LineSt :=
  let got := (if st.mat = mat then st.got else 0) ||| m
  if got = allBytes then { code := bitNat zero, mat := mat, dirty := dirty, poison := false, ecc := false, got := 0 }
  else { st with code := 0, mat := mat, dirty := dirty, got := got }

/-- The lines that the slices of a field hold dirty. -/
def State.dirtyLines (s : State) (field : Nat) : List Nat :=
  (s.lines.filter (fun e => e.2.dirty != 0 && fieldOfPa (256 * e.1) == field)).map Prod.fst

/-- R24: a field's slices hold 32 MiB, 2^17 lines: before they take one more dirty line they write one back (log entry 104). -/
def State.sliceRoom (s : State) (line : Nat) : State :=
  if s.lines.length < 2 ^ 17 || (s.lineSt line).dirty != 0 then s
  else match s.dirtyLines (fieldOfPa (256 * line)) with
    | [] => s
    | l :: ls => if ls.length + 1 < 2 ^ 17 then s else s.setLineSt l { s.lineSt l with dirty := 0, got := 0 }

/-- A masked write of a line at its home slice, in one step (R77, R82, R105, R357 to R359, R424). A line held under another key or as a
block is first read and rewritten whole. -/
def State.homeWrite (s : State) (line key : Nat) (compr : Bool) (x : BitVec 2048) (m : BitVec 256) : Except LineErr State :=
  let host := isHostPath (256 * line)
  match (if host then some 0 else s.keyMat key) with
  | none => .error .keygone
  | some mat =>
    let st := s.lineSt line
    let dirty := if host then 0 else key + 1
    let zero := fun (y : BitVec 2048) => compr && decide (y = (0 : BitVec 2048))
    let s0 := (s.sliceRoom line).outdate line m
    if m = allBytes then
      .ok ({ s0 with mem := putBytes s.mem (256 * line) x m 256 }.setLineSt line (st.rewritten mat dirty (zero x) m))
    else if st.poison || st.ecc then
      let s' := { s0 with mem := putBytes s.mem (256 * line) x m 256 }
      .ok (s'.setLineSt line (st.rewritten mat dirty (zero (s'.rawLine line mat)) m))
    else if st.mat = mat && (!compr || st.code = 0) then
      let s' := { s0 with mem := putBytes s.mem (256 * line) x m 256 }
      .ok (s'.setLineSt line { st with dirty := dirty, code := bitNat (zero (s'.rawLine line mat)) })
    else match s.homeLine line key compr with
      | .error e => .error e
      | .ok old =>
        let y := mergeBits old x (BitVec.ofNat 2048 (leNat ((upTo 256).map (fun i => if m.getLsbD i then 0xFF#8 else 0#8))))
        .ok ({ s0 with mem := putBytes s.mem (256 * line) y allBytes 256 }.setLineSt line { st with code := bitNat (zero y), mat := mat, dirty := dirty })

/-- R358: an access under a key to a line that its slice holds dirty under another: the slice writes the line back first. -/
def State.retag (s : State) (line key : Nat) : State :=
  let st := s.lineSt line
  if st.dirty = 0 ∨ st.dirty = key + 1 then s else s.setLineSt line { st with dirty := 0, got := 0 }

/-- R358: the same for every line of `n` bytes from `pa`. -/
def State.touched (s : State) (pa n key : Nat) : State :=
  if n = 0 then s else (upTo ((pa + n - 1) / 256 - pa / 256 + 1)).foldl (fun a i => a.retag (pa / 256 + i) key) s

/-- Bytes at home with no L1 (R126, R341): `n` bytes from `pa`, within one line. -/
def State.homeBytes (s : State) (pa n key : Nat) (compr : Bool) : Except LineErr (List Byte) :=
  match s.homeLine (pa / 256) key compr with
  | .error e => .error e
  | .ok x => .ok ((upTo n).map (fun i => x.extractLsb' (8 * (pa % 256 + i)) 8))

/-- The line image and mask of a run of bytes within one line. -/
def lineOf (off : Nat) (bs : List Byte) : BitVec 2048 × BitVec 256 :=
  (BitVec.ofNat 2048 (atBit (leNat bs) (8 * off)), BitVec.ofNat 256 (atBit (2 ^ bs.length - 1) off))

/-- Writes bytes at home, within one line. -/
def State.homePut (s : State) (pa key : Nat) (compr : Bool) (bs : List Byte) : Except LineErr State :=
  let lm := lineOf (pa % 256) bs
  s.homeWrite (pa / 256) key compr lm.1 lm.2

-- ### Racing writes (R126, R127)

/-- R126: a run of bytes that is written in one step, as a single-copy atomic write. -/
def oneRun (pa n : Nat) : Bool := (n == 1 || n == 2 || n == 4 || n == 8 || n == 16) && pa % n == 0

/-- R127: a later write of the same core is ordered after an earlier one: they share a queue, or the earlier one's entry is complete. -/
def State.orders (s : State) (a b : Author) : Bool :=
  a.core == b.core && (a.qs.any (fun q => b.qs.contains q) || !(s.core a.core).q.es.any (fun e => e.qs == a.qs && e.seq == a.seq))

/-- The same memory. -/
def RaceAt.same : RaceAt → RaceAt → Bool
  | .home .., .home .. => true
  | .near x, .near y => x == y
  | _, _ => false

/-- Two noted writes overlap. -/
def RaceW.meets (v w : RaceW) : Bool := v.loc.same w.loc && v.at_ < w.at_ + w.bs.length && w.at_ < v.at_ + v.bs.length

/-- A write covers a byte. -/
def RaceW.covers (v : RaceW) (a : Nat) : Bool := v.at_ ≤ a && a < v.at_ + v.bs.length

/-- R127: a single-copy atomic write is noted, with the earlier ones of another size that it overlaps and that are not ordered before it; the
latest 64 are kept (log entry 9). -/
def State.noteWrite (s : State) (a : Author) (loc : RaceAt) (at_ : Nat) (bs bits : List Byte) : State :=
  if oneRun at_ bs.length then
    let w : RaceW := ⟨a, loc, at_, bs, bits, false, []⟩
    let n := s.writes.length
    let free := (s.writes.zipIdx.filter (fun x => x.1.meets w && x.1.bs.length != bs.length && !x.1.past && !s.orders x.1.by_ a)).map (fun x => n - x.2)
    { s with writes := s.writes.drop (n - 63) ++ [{ w with free := free }] }
  else s

/-- The agents outside the cores, as authors of writes: the hayward, the host, a device of the fabric. -/
def agent (n : Nat) : Author := ⟨n, [], .zero, false⟩
def hayAgent : Author := agent 999
def hostAgent : Author := agent 1000
def fabricAgent (dev : Nat) : Author := agent (1001 + dev)

/-- Whole bytes. -/
def wholeBits (bs : List Byte) : List Byte := bs.map (fun _ => 0xFF)

/-- What is at work, or else the device by itself, writes bytes at home. -/
def State.noted (s : State) (pa key : Nat) (compr : Bool) (bs bits : List Byte) : State :=
  if isHostPath pa then s else s.noteWrite (s.author.getD hayAgent) (.home key compr) pa bs bits

/-- R127, R115: what a core has written so far is ordered before what follows its release. -/
def State.writesPast (s : State) (c : Nat) : State :=
  { s with writes := s.writes.map (fun w => if w.by_.core = c then { w with past := true } else w) }

/-- A plaintext read of `n` bytes, line by line, over at most `fuel` lines. -/
def State.physRun (s : State) : Nat → Nat → Nat → Except LineErr (List Byte)
  | 0, _, _ => .ok []
  | fuel + 1, pa, n =>
    if n = 0 then .ok []
    else
      let m := min n (256 - pa % 256)
      match (if s.storagePath pa then .error .rights else s.homeBytes pa m 0 false) with
      | .error e => .error e
      | .ok bs =>
        match s.physRun fuel (pa + m) (n - m) with
        | .error e => .error e
        | .ok r => .ok (bs ++ r)

/-- A plaintext read of `n` bytes that the device makes at a physical address, possibly over several lines (R341, R357). -/
def State.phys (s : State) (pa n : Nat) : Except LineErr (List Byte) := s.physRun (n / 256 + 2) pa n

/-- A plaintext read that takes an undeliverable byte as zero; used where the spec gives no fate to such an error. -/
def State.physNat (s : State) (pa n : Nat) : Nat :=
  match s.phys pa n with
  | .ok bs => leNat bs
  | .error _ => 0

/-- A plaintext write, line by line, over at most `fuel` lines; a line that cannot be written keeps what it holds. -/
def State.physPutRun (s : State) : Nat → Nat → List Byte → State
  | 0, _, _ => s
  | fuel + 1, pa, bs =>
    if bs.isEmpty then s
    else
      let m := 256 - pa % 256
      match (if s.storagePath pa then .error .rights else s.homePut pa 0 false (bs.take m)) with
      | .ok s' => s'.physPutRun fuel (pa + m) (bs.drop m)
      | .error _ => s.physPutRun fuel (pa + m) (bs.drop m)

/-- A plaintext write that the device makes at a physical address. -/
def State.physPut (s : State) (pa : Nat) (bs : List Byte) : State := s.physPutRun (bs.length / 256 + 2) pa bs

-- ### Contexts (R338, R339)

def descRoot (d : BitVec 1024) : Nat := fld d 0 50
def descBtBase (d : BitVec 1024) : Nat := fld d 64 50
def descBtCnt (d : BitVec 1024) : Nat := fld d 128 16
def descValid (d : BitVec 1024) : Bool := d.getLsbD 144
def descDbg (d : BitVec 1024) : Nat := fld d 145 3
def descVf (d : BitVec 1024) : Nat := fld d 148 8
def descHg (d : BitVec 1024) : Nat × Nat := (fld d 192 23, fld d 224 24)
def descCg (d : BitVec 1024) : Nat × Nat := (fld d 256 28, fld d 288 29)
def descPark (d : BitVec 1024) : Nat := fld d 320 50

/-- R338, R339, R445: whether a descriptor is usable in a partition. -/
def descUsable (p : Part) (d : BitVec 1024) : Bool :=
  descValid d && descRoot d % 65536 == 0 && fld d 50 14 == 0 && descBtBase d % 32 == 0 && fld d 114 14 == 0 && descBtCnt d ≤ 65280 &&
  fld d 156 36 == 0 && (descHg d).1 % 4096 == 0 && fld d 215 9 == 0 && (descHg d).2 % 4096 == 0 &&
  (descHg d).1 + (descHg d).2 ≤ 2 ^ 23 && fld d 248 8 == 0 && (descCg d).1 % 4096 == 0 && fld d 284 4 == 0 &&
  (descCg d).2 % 4096 == 0 && (descCg d).1 + (descCg d).2 ≤ 2 ^ 28 && fld d 317 3 == 0 && descPark d % 65536 == 0 && fld d 370 654 == 0 &&
  p.vfbase ≤ descVf d && descVf d < p.vfbase + p.nvf &&
  ((descCg d).2 == 0 || (4096 * p.comb ≤ (descCg d).1 && (descCg d).1 + (descCg d).2 ≤ 4096 * p.coml))

/-- The partition whose ASID range holds an ASID (R337). -/
def State.partOfAsid (s : State) (asid : Nat) : Option Nat :=
  (upTo 16).find? (fun p => let t := (s.part p).tb; (s.part p).prov && t.asidbase ≤ asid && asid < t.asidbase + t.ctxcnt)

/-- Where the descriptor of a context lies (R338). -/
def State.descAddr (s : State) (p asid : Nat) : Nat := let t := (s.part p).tb; t.ctxbase + 128 * (asid - t.asidbase)

/-- The descriptor of a context, read as it stands at home with key 0 (R339). -/
def State.descRead (s : State) (p asid : Nat) : Except LineErr (BitVec 1024) :=
  match s.phys (s.descAddr p asid) 128 with
  | .ok bs => .ok (BitVec.ofNat 1024 (leNat bs))
  | .error e => .error e

/-- The descriptor, or zeros, which are not usable, when it cannot be read. -/
def State.descOf (s : State) (p asid : Nat) : BitVec 1024 :=
  match s.descRead p asid with
  | .ok d => d
  | .error _ => 0

/-- R339: the descriptor as an access uses it: an unusable one grants nothing. -/
def State.descFor (s : State) (p asid : Nat) : BitVec 1024 := let d := s.descOf p asid; if descUsable (s.part p) d then d else 0

-- ### Page tables (R341 to R346)

def pteV (e : Nat) : Bool := e.testBit 0
def ptePull (e : Nat) : Bool := e.testBit 1
def pteR (e : Nat) : Bool := e.testBit 2
def pteW (e : Nat) : Bool := e.testBit 3
def pteA (e : Nat) : Bool := e.testBit 4
def pteRun (e : Nat) : Bool := e.testBit 5
def pteBlk (e : Nat) : Bool := e.testBit 6
def pteAc (e : Nat) : Bool := e.testBit 7
def pteDt (e : Nat) : Bool := e.testBit 8
def pteKey (e : Nat) : Nat := natBits e 9 12
def ptePfn (e : Nat) : Nat := natBits e 21 34
def pteHome (e : Nat) : Nat := natBits e 55 9

/-- The first offset of a quadrant that the metadata region takes (R424). -/
def State.metaBase (s : State) : Nat := 2 ^ 34 - (if s.mden then 2 ^ 25 else 0) - 2048 * s.tagfr

/-- R342, R346, R424, R445: the partition may use the 64 KiB frame. -/
def State.frameOk (s : State) (p : Part) (pfn : Nat) : Bool :=
  let pa := 65536 * pfn
  isHostPath pa || (pa < 2 ^ 41 && p.sset.getLsbD (natBits pa 36 5) && natBits pa 0 34 + 65536 ≤ s.metaBase)

/-- The last frame of a 512 MiB block lies as far as its first: all of it on one stack and quadrant (R346). -/
def State.blockOk (s : State) (p : Part) (pfn : Nat) : Bool := s.frameOk p pfn && s.frameOk p (pfn + 8191)

/-- R357: key id 0, or one of the partition's grant. -/
def keyOk (p : Part) (key : Nat) : Bool := key == 0 || (p.tb.keybase ≤ key && key < p.tb.keybase + p.tb.keycnt)

/-- An entry of level 1, 2 or 3 as the walker takes it: valid and well formed (R342, R357). -/
def State.pteOk (s : State) (p : Part) (level e : Nat) : Bool :=
  pteV e &&
  if level = 1 then natBits e 1 20 == 0 && natBits e 55 9 == 0 && s.frameOk p (ptePfn e)
  else if level = 2 then
    if pteBlk e then !ptePull e && !pteRun e && natBits e 55 9 == 0 && natBits (ptePfn e) 0 13 == 0 && s.blockOk p (ptePfn e) && keyOk p (pteKey e)
    else natBits e 1 20 == 0 && natBits e 55 9 == 0 && s.frameOk p (ptePfn e)
  else !pteBlk e && (ptePull e || natBits e 55 9 == 0) && s.frameOk p (ptePfn e) && keyOk p (pteKey e)

/-- What a walk finds: the address of an entry that it has to wait for (R428, R431), or of one that cannot be read (R412, R421); where it
stopped unmapped; or a leaf with its level and its own address (R343). -/
inductive WalkRes where
  | held (pa : Nat)
  | failed (e : LineErr) (pa : Nat)
  | unmapped (e level : Nat)
  | leaf (e level addr : Nat)
deriving DecidableEq, Repr

/-- R341: a table entry as it stands at home. -/
def State.homeEntry (s : State) (pa : Nat) : Except WalkRes Nat :=
  if s.paWaits pa then .error (.held pa)
  else match s.phys pa 8 with
    | .ok bs => .ok (leNat bs)
    | .error e => .error (.failed e pa)

/-- R343: the walk of a virtual address through a reading of the tables: what it finds, and the table entries that led there. -/
def State.walkBy (s : State) (rd : Nat → Except WalkRes Nat) (p : Part) (root va : Nat) : WalkRes × List (Nat × Nat) :=
  let a1 := root + 8 * natBits va 42 10
  if 2 ^ 41 ≤ root && !isHostPath root then (.unmapped 0 1, [])
  else match rd a1 with
    | .error r => (r, [])
    | .ok e1 =>
      if !s.pteOk p 1 e1 then (.unmapped e1 1, [])
      else
        let a2 := 65536 * ptePfn e1 + 8 * natBits va 29 13
        match rd a2 with
        | .error r => (r, [(a1, e1)])
        | .ok e2 =>
          if !s.pteOk p 2 e2 then (.unmapped e2 2, [(a1, e1)])
          else if pteBlk e2 then (.leaf e2 2 a2, [(a1, e1)])
          else
            let a3 := 65536 * ptePfn e2 + 8 * natBits va 16 13
            match rd a3 with
            | .error r => (r, [(a1, e1), (a2, e2)])
            | .ok e3 => (if !s.pteOk p 3 e3 then .unmapped e3 3 else .leaf e3 3 a3, [(a1, e1), (a2, e2)])

/-- R358: the table entries that a walk has read: their lines are held under key 0. -/
def State.walkRead (s : State) (r : WalkRes × List (Nat × Nat)) : State :=
  (r.2.map Prod.fst ++ (match r.1 with | .leaf _ _ a => [a] | _ => [])).foldl (fun x n => x.retag (n / 256) 0) s

/-- R343: the walk of a virtual address, reading every entry at home. -/
def State.walk (s : State) (p : Part) (root va : Nat) : WalkRes := (s.walkBy s.homeEntry p root va).1

/-- The physical address of a virtual address under a leaf (R343). -/
def leafPa (e level va : Nat) : Nat :=
  if level = 2 then 65536 * ptePfn e + natBits va 0 29 else 65536 * ptePfn e + natBits va 0 16

/-- R344: the addresses of the entries that a leaf stands for: its run group when that is consistent, else itself. -/
def State.runGroup (s : State) (p : Part) (e level addr : Nat) : List Nat :=
  if level = 3 && pteRun e then
    let g := addr - addr % 256
    let e0 := s.physNat g 8
    let ok := (upTo 32).all (fun j =>
      let x := s.physNat (g + 8 * j) 8
      s.pteOk p 3 x && pteRun x && !ptePull x && pteR x == pteR e && pteW x == pteW e && pteA x == pteA e && pteKey x == pteKey e &&
      ptePfn x == ptePfn e0 + j && ptePfn e0 % 32 == 0)
    if ok then (upTo 32).map (fun j => g + 8 * j) else [addr]
  else [addr]

/-- R345: the walker sets `AC`, and for a write or an atomic `DT`, by atomic OR in each entry. -/
def State.setAcDt (s : State) (write : Bool) : List Nat → State
  | [] => s
  | a :: as =>
    let b := s.physNat a 8
    ((s.physPut a (natBytes 8 (b ||| (if write then 0x180 else 0x80)))).setAcDt write as)

/-- The kind of an access (R59, R342): a load or fetch, a store, an atomic, an accumulating store (needs only `WR`). -/
inductive Acc where
  | rd | wr | at | rdwr
deriving DecidableEq, Repr

def Acc.writes : Acc → Bool
  | .rd => false
  | _ => true

/-- R342: the leaf grants the right. -/
def leafGrants (a : Acc) (e : Nat) : Bool :=
  match a with
  | .rd => pteR e
  | .wr => pteW e
  | .at => pteA e && pteR e && pteW e
  | .rdwr => pteR e && pteW e

/-- R59: the buffer entry grants the right. -/
def bufGrants (a : Acc) (b : BitVec 256) : Bool :=
  match a with
  | .rd => b.getLsbD 129
  | .wr => b.getLsbD 130
  | .at => b.getLsbD 131 && b.getLsbD 129 && b.getLsbD 130
  | .rdwr => b.getLsbD 129 && b.getLsbD 130

/-- The number of a page of an address space among all of them. -/
def pageKey (asid va : Nat) : Nat := 2 ^ 36 * asid + va / 65536

/-- The keys under which a TLB holds the translations that can serve an address, by size: 64 KiB, 2 MiB, 512 MiB (R344, R347). -/
def tlbKey (size asid va : Nat) : Nat := 4 * (2 ^ 36 * asid + va / 2 ^ (if size = 0 then 16 else if size = 1 then 21 else 29)) + size

/-- The size of a translation. -/
def TlbEnt.size (t : TlbEnt) : Nat := if t.level = 2 then 2 else if t.runs then 1 else 0

/-- The physical address of an address that a translation serves. -/
def TlbEnt.pa (t : TlbEnt) (va : Nat) : Nat :=
  65536 * ptePfn t.leaf.toNat + natBits va 0 (if t.size = 0 then 16 else if t.size = 1 then 21 else 29)

/-- R345: a translation with `DT` clear does not serve a write. -/
def TlbEnt.serves (t : TlbEnt) (a : Acc) : Bool := !a.writes || t.dt

/-- The translation of a TLB that serves an access. -/
def Tlb.find (m : Tlb) (asid va : Nat) (a : Acc) : Option TlbEnt :=
  (upTo 3).findSome? (fun z => (SMap.get none m (tlbKey z asid va)).filter (fun t => t.serves a))

/-- A TLB of `n` entries takes one more; one that is full lets one go (log entry 84). -/
def Tlb.hold (n : Nat) (m : Tlb) (key : Nat) (t : TlbEnt) : Tlb :=
  let r := SMap.del m key
  SMap.set none (if r.length < n then r else r.drop 1) key (some t)

/-- The bank of the L3 TLB that serves a key (R347: a fixed function of ASID and address, which affects timing only; log entry 84). -/
def tlbBank (key : Nat) : Nat := (key / 4 + key / 2 ^ 38) % 256

/-- A core of the module, and no scratch core of the hayward's. -/
def isCore (c : Nat) : Bool := c < 264

/-- R347: what is at work is served by its core's L1 TLB: the forager and the reeve are, the loom and the copy engines are not. -/
def State.ownTlb (s : State) : Bool :=
  match s.author with
  | some a => !a.qs.contains .mq && !a.qs.contains .cq
  | none => true

/-- The translation of a core's L1 TLB that serves an access. -/
def State.ownXlat (s : State) (c asid va : Nat) (a : Acc) : Option TlbEnt := if s.ownTlb then Tlb.find (s.core c).ctx.tlb asid va a else none

/-- R347, R348: a translation that serves an access of a core: from its L1 TLB, its hamlet's L2 TLB, the module's L3 TLB. -/
def State.heldXlat (s : State) (c asid va : Nat) (a : Acc) : Option TlbEnt :=
  match s.ownXlat c asid va a with
  | some t => some t
  | none => match (if isCore c then Tlb.find (SMap.get [] s.tlb2 (hamletOf c)) asid va a else none) with
    | some t => some t
    | none => (upTo 3).findSome? (fun z => (SMap.get none (SMap.get [] s.tlb3 (tlbBank (tlbKey z asid va))) (tlbKey z asid va)).filter (fun t => t.serves a))

/-- R347: a translation is held at every level that the access looks in. -/
def State.holdXlat (s : State) (c asid va : Nat) (t : TlbEnt) : State :=
  let key := tlbKey t.size asid va
  let s1 := if s.ownTlb then s.modCore c (fun k => { k with ctx := { k.ctx with tlb := Tlb.hold 128 k.ctx.tlb key t } }) else s
  let s2 := if isCore c then { s1 with tlb2 := SMap.set [] s1.tlb2 (hamletOf c) (Tlb.hold 4096 (SMap.get [] s1.tlb2 (hamletOf c)) key t) } else s1
  { s2 with tlb3 := SMap.set [] s2.tlb3 (tlbBank key) (Tlb.hold 2048 (SMap.get [] s2.tlb3 (tlbBank key)) key t) }

-- ### The walkers (R347, R348)

/-- The field whose walkers serve an address: that of its L3 bank. -/
def walkField (asid va : Nat) : Nat := tlbBank (tlbKey 0 asid va) / 32

/-- A table entry as a field's walkers hold it, or as it stands at home. -/
def State.walkEntry (s : State) (field asid pa : Nat) : Except WalkRes Nat :=
  match (SMap.get [] s.wheld field).find? (fun x => x.addr == pa && x.asid == asid) with
  | some x => .ok x.val
  | none => s.homeEntry pa

/-- The walk that an access makes. -/
def State.accessWalk (s : State) (p : Part) (asid root va : Nat) : WalkRes × List (Nat × Nat) :=
  s.walkBy (s.walkEntry (walkField asid va) asid) p root va

/-- The walkers keep the table entries of a walk, the latest 256 of a field (R347). -/
def State.keepPath (s : State) (asid va : Nat) (path : List (Nat × Nat)) : State :=
  let f := walkField asid va
  let ents := path.zipIdx.map (fun x =>
    let n := 2 ^ (if x.2 = 0 then 26 else 13)
    { addr := x.1.1, val := x.1.2, asid := asid, page0 := va / 65536 - va / 65536 % n, pages := n : WalkEnt })
  let held := SMap.get [] s.wheld f
  let all := held ++ ents.filter (fun x => !held.any (fun y => y.addr == x.addr && y.asid == asid))
  { s with wheld := SMap.set [] s.wheld f (all.drop (all.length - 256)) }

/-- R347, R348: the leaf under which a core would reach an address, held or by a walk; nothing is set. -/
def State.leafAt (s : State) (c va : Nat) (a : Acc) : WalkRes :=
  let k := s.core c
  match s.heldXlat c k.ctx.asid va a with
  | some t => .leaf (t.leaf.toNat + 2 ^ 21 * (t.pa va / 65536 - ptePfn t.leaf.toNat)) 3 0
  | none => (s.accessWalk (s.part k.ctx.part) k.ctx.asid (descRoot k.ctx.desc) va).1

/-- The physical address that a core's access would reach. -/
def State.paAt (s : State) (c va : Nat) : Option Nat :=
  match s.leafAt c va .rd with
  | .leaf e level _ => some (leafPa e level va)
  | _ => none

/-- Where a global byte lies: physical address, key id, compressible, tagged; the page it was reached through, and the buffer's interleave
class. -/
structure Place where
  pa : Nat
  key : Nat
  compr : Bool
  tagged : Bool
  page : Nat
  cls : Nat
deriving DecidableEq, Repr

def bufBase (b : BitVec 256) : Nat := fld b 0 52
def bufLen (b : BitVec 256) : Nat := fld b 64 49
def bufClass (b : BitVec 256) : Nat := fld b 132 3
def bufTagged (b : BitVec 256) : Bool := b.getLsbD 135
def bufCompr (b : BitVec 256) : Bool := b.getLsbD 136

/-- The frame's number within its quadrant (R346, R424). -/
def frameInQuad (pa : Nat) : Nat := natBits pa 16 18

/-- R428: a context waits on the stack of `pa`: from now on it is frozen while the stack is in self-refresh. -/
def State.freeze (s : State) (a pa : Nat) : State :=
  let n := natBits pa 36 5
  if s.hbm.sref.getLsbD n && !s.hbm.frozen.any (fun x => x.1 == a && x.2.1 == n) then
    { s with hbm := { s.hbm with frozen := s.hbm.frozen ++ [(a, n, s.cycle.toNat)] } }
  else s

def State.frozenBy (s : State) (c pa : Nat) : State := s.freeze (s.core c).ctx.asid pa

/-- R428, R431: an access that core `c` has the device make at `pa` waits while it must. -/
def await (c pa : Nat) : M Unit := do
  let s ← get
  if s.paWaits pa then
    set (s.frozenBy c pa)
    throw .wait

/-- R428, R431: an access through a buffer of class `cls` waits while it must. -/
def awaitCls (c cls pa : Nat) : M Unit := do
  let s ← get
  if s.clsWaits cls pa then
    set (s.frozenBy c pa)
    throw .wait

/-- R349, R403: a pull is in progress for the page, or starts: the home device is asked for the page by context index and address. -/
def State.pulling (s : State) (asid page : Nat) : Bool := s.pulls.any (fun x => x.asid == asid && x.page == page)
def State.startPull (s : State) (x : Pull) : State :=
  if s.pulling x.asid x.page then s
  else
    let p := (s.partOfAsid x.asid).getD 0
    { s with pulls := s.pulls ++ [x], fab := { s.fab with out := s.fab.out ++ [.pullRequest (pteHome x.e) (x.asid - (s.part p).tb.asidbase) (65536 * x.page)] } }

def awaitAt (c : Nat) (pl : Place) : M Unit := awaitCls c pl.cls pl.pa

/-- R351: a dropped prefetch or lookahead of a partition is counted. -/
def dropPf (p : Nat) : M Unit :=
  modPart p (fun q => { q with tb := { q.tb with pfdrop := min (q.tb.pfdrop + 1) (2 ^ 48 - 1) } })

/-- R424, R412: what translation refuses beyond the leaf's rights: a port in storage mode, codes or tags that the module does not keep. -/
def State.refuses (s : State) (b : BitVec 256) (pa : Nat) : Bool :=
  s.storagePath pa || (bufCompr b && !s.mden) || (bufTagged b && !isHostPath pa && s.tagfr ≤ frameInQuad pa)

/-- R455: an error met at a physical address that the access names no pointer for. -/
def walkErr {α : Type} (e : LineErr) (pa : Nat) (ptr : Word) : M α :=
  match e with
  | .keygone => trap .keygone ptr
  | .rights => trap .rights ptr
  | .ecc => do
    modify (fun s => s.countEcc pa)
    trap .ecc 0

/-- R344, R345: what a walk's leaf comes to as a translation: one of 2 MiB when the entry's run group is consistent. -/
def State.xlatOf (s : State) (p : Part) (write : Bool) (e level addr : Nat) : TlbEnt × List Nat :=
  let g := s.runGroup p e level addr
  let runs := g.length == 32
  (⟨BitVec.ofNat 64 (if runs then s.physNat (addr - addr % 256) 8 else e), level, runs, write || g.all (fun a => pteDt (s.physNat a 8))⟩, g)

/-- The translation that an access uses (R347 to R349): held, or from a walk that is then held. A page whose contents are elsewhere makes the
access wait and starts its pull. `ptr` is the access's pointer. -/
def xlat (c va : Nat) (a : Acc) (ptr : Word) : M TlbEnt := do
  let s ← get
  let k := s.core c
  match s.heldXlat c k.ctx.asid va a with
  | some t => do
    if s.ownTlb && (s.ownXlat c k.ctx.asid va a).isNone then set (s.holdXlat c k.ctx.asid va t)
    pure t
  | none =>
    let p := s.part k.ctx.part
    match s.accessWalk p k.ctx.asid (descRoot k.ctx.desc) va with
    | (.held pa, _) => do await c pa; throw .wait
    | (.failed e pa, _) => walkErr e pa ptr
    | (.unmapped _ _, _) => trap .xlate ptr
    | (.leaf e level addr, path) =>
      let s := s.walkRead (.leaf e level addr, path)
      if !leafGrants a e then trap .rights ptr
      else if ptePull e && s.pullGone.contains (k.ctx.asid, va / 65536) then trap .xlate ptr
      else if ptePull e then
        set (s.startPull ⟨k.ctx.asid, va / 65536, e, addr⟩)
        throw .wait
      else
        let (t, g) := s.xlatOf p a.writes e level addr
        set (((s.keepPath k.ctx.asid va path).setAcDt a.writes g).holdXlat c k.ctx.asid va t)
        pure t

/-- Translation of a byte for core `c` through a buffer entry (R342 to R351). -/
def translate (c : Nat) (b : BitVec 256) (va : Nat) (a : Acc) (ptr : Word) : M Place := do
  let t ← xlat c va a ptr
  let s ← get
  let pa := t.pa va
  let page := pageKey (s.core c).ctx.asid va
  if !leafGrants a t.leaf.toNat || s.refuses b pa then trap .rights ptr
  else
    if !isHostPath pa && !(s.frame (pa / 65536)).reach.contains (page, bufClass b) then
      set { s with frames := SMap.set .zero s.frames (pa / 65536) ((s.frame (pa / 65536)).reached page (bufClass b)) }
    pure ⟨pa, pteKey t.leaf.toNat, bufCompr b, bufTagged b, page, bufClass b⟩

/-- R340: entry `idx` of the context's buffer table, as the croft holds it or as it reads it at home. At most 64 are held. -/
def bufEntry (c idx : Nat) : M (BitVec 256) := do
  let s ← get
  let k := s.core c
  match SMap.get none k.ctx.bufs idx with
  | some b => pure b
  | none =>
    let a := descBtBase k.ctx.desc + 32 * idx
    await c a
    match (if 2 ^ 41 ≤ a && !isHostPath a then .ok [] else s.phys a 32) with
    | .error e => walkErr e a (mkPtr idx 0)
    | .ok bs =>
      let b := BitVec.ofNat 256 (leNat bs)
      modify (fun s => s.touched a 32 0)
      modCore c (fun k => { k with ctx := { k.ctx with bufs := SMap.set none (if k.ctx.bufs.length < 64 then k.ctx.bufs else k.ctx.bufs.drop 1) idx (some b) } })
      pure b

/-- R59 step 1 on an entry of the table; so is an entry that breaks the limits of R58 on `BASE` and `LEN`, to which R59 gives no step (log
entry 85). -/
def bufValid (asid : Nat) (b : BitVec 256) : Bool :=
  b.getLsbD 128 && fld b 144 16 == asid && !(bufTagged b && bufCompr b) && bufBase b + bufLen b ≤ 2 ^ 52 &&
  fld b 52 12 == 0 && fld b 113 15 == 0 && fld b 137 7 == 0 && fld b 160 96 == 0 && bufBase b % 256 == 0 && bufLen b ≤ 2 ^ 48

/-- Who makes an access: the columns of R62. -/
inductive User where
  | scalar | vec | loom | copy
deriving DecidableEq, Repr

/-- Where a checked access goes. -/
inductive Loc where
  | glob (b : BitVec 256)
  | croft
  | hamlet
  | commons
  | lane
  | port
deriving DecidableEq, Repr

/-- R63: bytes `lo` to `hi` of the croft store lie below the bound K, or in the hot segment while no stack is bound. -/
def storeOk (k : CoreSt) (bailiff : Bool) (lo hi : Nat) : Bool :=
  let kk := if bailiff then 0x170000 else 1024 * k.slot.csneed
  hi < kk || (k.res.stack.isNone && hi < 0x180000 && (0x170000 ≤ lo || kk == 0x170000))

/-- R57, R59 steps 1 to 3, R62 to R65: bytes `lo` to `hi` (offsets, inclusive) of the buffer or window of `ptr`. The alignment and the
translation come after. -/
def checkSpan (c : Nat) (u : User) (a : Acc) (ptr : Word) (lo hi : Int) : M Loc := do
  let s ← get
  let k := s.core c
  let idx := ptrIndex ptr
  if idx ≤ 0xFEFF then
    if descBtCnt k.ctx.desc ≤ idx then trap .rights ptr
    else
      let b ← bufEntry c idx
      if !bufValid k.ctx.asid b then trap .rights ptr
      else if !bufGrants a b then trap .rights ptr
      else if lo < 0 || (bufLen b : Int) ≤ hi then trap .bounds ptr
      else pure (.glob b)
  else if idx = 0xFFF0 then
    if 0 ≤ lo && hi < 2 ^ 21 && storeOk k (isBailiff c) lo.toNat hi.toNat then pure .croft else trap .bounds ptr
  else if idx = 0xFFF1 then
    let g := descHg k.ctx.desc
    if (g.1 : Int) ≤ lo && hi < g.1 + g.2 && hi < 2 ^ 23 then pure .hamlet else trap .bounds ptr
  else if idx = 0xFFF2 then
    let g := descCg k.ctx.desc
    if (g.1 : Int) ≤ lo && hi < g.1 + g.2 && hi < 2 ^ 28 then pure .commons else trap .bounds ptr
  else if idx = 0xFFF3 then
    if u == .vec && a != .at then (if 0 ≤ lo && hi < 2048 then pure .lane else trap .bounds ptr) else trap .rights ptr
  else if idx = 0xFFF8 then
    if u == .scalar && s.privileged c then pure .port else trap .rights ptr
  else trap .rights ptr

-- ### A croft's L1 (R105, R115 to R119)

def CoreSt.l1Get (k : CoreSt) (line : Nat) : Option L1Line := SMap.get none k.loc.l1 line
def CoreSt.l1Set (k : CoreSt) (line : Nat) (x : Option L1Line) : CoreSt :=
  { k with loc := { k.loc with l1 := SMap.set none k.loc.l1 line x } }

/-- Writes the dirty bytes of one line home and clears its dirty bits and stamp (R105). Bytes whose key is gone, or whose line cannot be read
at home to be merged with, are lost with their line (log entry 12). -/
def writeBack (c line : Nat) : M Unit := do
  let s ← get
  match (s.core c).l1Get line with
  | none => pure ()
  | some x =>
    if x.dirty = 0 then modCore c (fun k => k.l1Set line (some { x with stamp := none }))
    else
      awaitCls c x.cls (256 * line)
      match s.homeWrite line x.key x.compr x.data x.dirty with
      | .ok s' => do
        let me : Author := ⟨c, [.sq], (s.core c).q.issued, false⟩
        let noted := x.sts.foldl (fun (a : State) q =>
          let bs := (upTo q.2).map (fun i => x.data.extractLsb' (8 * (q.1 + i)) 8)
          a.noteWrite me (.home x.key x.compr) (256 * line + q.1) bs (wholeBits bs)) s'
        set (noted.modCore c (fun k => k.l1Set line (some { x with dirty := 0, stamp := none, sts := [] })))
      | .error _ => modCore c (fun k => k.l1Set line none)

/-- Removes a line with no dirty byte (R105). -/
def dropClean (c line : Nat) : M Unit :=
  modCore c (fun k => match k.l1Get line with
    | some x => if x.dirty = 0 then k.l1Set line none else k
    | none => k)

def writeBackAll (c : Nat) : List Nat → M Unit
  | [] => pure ()
  | l :: ls => do writeBack c l; writeBackAll c ls

/-- Write back, then drop. -/
def flushLines (c : Nat) : List Nat → M Unit
  | [] => pure ()
  | l :: ls => do writeBack c l; dropClean c l; flushLines c ls

def CoreSt.l1Lines (k : CoreSt) : List Nat := k.loc.l1.map Prod.fst

/-- Room for one more line: the L1 holds 512 (R119); the lowest line is written back and dropped. -/
def makeRoom (c : Nat) : M Unit := do
  let k ← getCore c
  if k.loc.l1.length < 512 then pure ()
  else match k.l1Lines with
    | [] => pure ()
    | l :: _ => do writeBack c l; dropClean c l

/-- The faulting pointer of an ECC through a global buffer (R455). -/
def eccPtr (ptr : Word) (off : Nat) : Word := ptrAt ptr (off - off % 256)

def lineErr {α : Type} (e : LineErr) (pa : Nat) (ptr : Word) (off : Nat) : M α :=
  match e with
  | .keygone => trap .keygone (ptrAt ptr off)
  | .rights => trap .rights (ptrAt ptr off)
  | .ecc => do
    modify (fun s => s.countEcc pa)
    trap .ecc (eccPtr ptr off)

/-- The pages through which a line is known, with one more (R381). -/
def L1Line.via (x : L1Line) (page : Nat) : L1Line := if x.pages.contains page then x else { x with pages := x.pages ++ [page] }

/-- The line in the L1, filled from home when it is absent (R105). -/
def fill (c : Nat) (pl : Place) (ptr : Word) (off : Nat) : M L1Line := do
  let line := pl.pa / 256
  match (← getCore c).l1Get line with
  | some x => do
    let y := x.via pl.page
    modCore c (fun k => k.l1Set line (some y))
    pure y
  | none =>
    awaitAt c pl
    makeRoom c
    match (← get).homeLine line pl.key pl.compr with
    | .error e => lineErr e pl.pa ptr off
    | .ok d =>
      let x : L1Line := ⟨d, 0, none, pl.key, pl.compr, [pl.page], pl.cls, []⟩
      modify (fun s => (s.retag line pl.key).modCore c (fun k => k.l1Set line (some x)))
      pure x

/-- A load of `n` bytes of one line through the L1. -/
def l1Read (c : Nat) (pl : Place) (ptr : Word) (off n : Nat) : M (List Byte) := do
  let x ← fill c pl ptr off
  pure ((upTo n).map (fun i => x.data.extractLsb' (8 * (pl.pa % 256 + i)) 8))

/-- R127: a store is one more of those whose bytes a line holds; one that it covers is no longer among them. -/
def addStore (sts : List (Nat × Nat)) (lo n : Nat) : List (Nat × Nat) :=
  let r := sts.filter (fun q => !(lo ≤ q.1 && q.1 + q.2 ≤ lo + n))
  if oneRun lo n then r ++ [(lo, n)] else r

/-- A store of bytes of one line into the L1 (R105). -/
def l1Write (c : Nat) (pl : Place) (ptr : Word) (off : Nat) (bs : List Byte) : M Unit := do
  let x ← fill c pl ptr off
  let lm := lineOf (pl.pa % 256) bs
  let bm := BitVec.ofNat 2048 (atBit (2 ^ (8 * bs.length) - 1) (8 * (pl.pa % 256)))
  modCore c (fun k => k.l1Set (pl.pa / 256) (some { x with data := mergeBits x.data lm.1 bm, dirty := x.dirty ||| lm.2, key := pl.key, compr := pl.compr, cls := pl.cls,
                                                              sts := addStore x.sts (pl.pa % 256) bs.length }))

/-- R428, R431: a dirty line of a core's L1 that cannot go home now, by its address. -/
def State.l1Wait? (s : State) (c : Nat) : Option Nat :=
  ((s.core c).loc.l1.find? (fun p => match p.2 with
    | some x => x.dirty != 0 && s.clsWaits x.cls (256 * p.1)
    | none => false)).map (fun p => 256 * p.1)
def State.l1Waits (s : State) (c : Nat) : Bool := (s.l1Wait? c).isSome

/-- A core's L1 is to be drained: it waits while a line of it must. -/
def awaitL1 (c : Nat) : M Unit := do
  let s ← get
  match s.l1Wait? c with
  | some pa =>
    set (s.frozenBy c pa)
    throw .wait
  | none => pure ()

/-- R115 at scopes H, D and S: every dirty line home, every stamp cleared, the log emptied. -/
def releaseD (c : Nat) : M Unit := do
  writeBackAll c (← getCore c).l1Lines
  modCore c (fun k => { k with loc := { k.loc with plog := [] } })
  modify (fun s => s.writesPast c)

/-- R118, R115 at scope C: stamps every dirty line without a stamp; a full log first promotes its oldest epoch. -/
def releaseC (c : Nat) : M Unit := do
  let k ← getCore c
  if k.loc.plog.length < 32 then pure ()
  else match k.loc.plog with
    | [] => pure ()
    | e :: rest =>
      writeBackAll c ((k.loc.l1.filter (fun p => match p.2 with | some x => x.stamp == some e | none => false)).map Prod.fst)
      modCore c (fun k => { k with loc := { k.loc with plog := rest } })
  modCore c (fun k =>
    let e := k.loc.epoch
    let l1 := k.loc.l1.map (fun p => match p.2 with
      | some x => (p.1, some (if x.dirty ≠ 0 ∧ x.stamp = none then { x with stamp := some e } else x))
      | none => p)
    { k with loc := { k.loc with l1 := l1, plog := k.loc.plog ++ [e], epoch := e + 1 } })
  modify (fun s => s.writesPast c)

/-- R116 at scopes H, D and S: every line with no dirty byte is dropped. -/
def acquireD (c : Nat) : M Unit :=
  modCore c (fun k => { k with loc := { k.loc with l1 := k.loc.l1.filter (fun p => match p.2 with | some x => x.dirty != 0 | none => false) } })

/-- Scope codes (R113): 0 C, 1 H, 2 D, 3 S. -/
def release (c : Nat) (scope : Nat) : M Unit := if scope = 0 then releaseC c else releaseD c
def acquire (c : Nat) (scope : Nat) : M Unit := if scope = 0 then pure () else acquireD c

/-- R117: a D-scope release, and every line dropped. -/
def drainL1 (c : Nat) : M Unit := do
  releaseD c
  modCore c (fun k => { k with loc := { k.loc with l1 := [], promo := none } })

-- ### Accesses

/-- Offsets of the hot segment (R25). -/
def isHot (off : Nat) : Bool := 0x170000 ≤ off && off < 0x180000

/-- A byte of a core's croft store. A hot-segment byte that nothing has written since the last unbinding is drawn from that stack's bytes
and zero (R287). -/
def CoreSt.storeByte (k : CoreSt) (c off : Nat) : Byte :=
  if isHot off then
    match SMap.get none k.loc.hot off with
    | some b => b
    | none =>
      if k.loc.binds = 0 then 0
      else match Config.hotPick k.loc.binds c off with
        | some d => SMap.get 0 k.loc.hotSrc d
        | none => 0
  else SMap.get 0 k.loc.store off

def CoreSt.setStoreByte (k : CoreSt) (off : Nat) (b : Byte) : CoreSt :=
  if isHot off then { k with loc := { k.loc with hot := SMap.set none k.loc.hot off (some b) } }
  else { k with loc := { k.loc with store := SMap.set 0 k.loc.store off b } }

/-- A byte of a local memory, where it is held (R26). -/
def State.localByte (s : State) (c : Nat) (l : Loc) (off : Nat) : Byte :=
  match l with
  | .croft => (s.core c).storeByte c off
  | .hamlet => SMap.get 0 s.hmem (2 ^ 23 * hamletOf c + off)
  | .commons => SMap.get 0 s.commons off
  | _ => 0

def State.setLocalByte (s : State) (c : Nat) (l : Loc) (off : Nat) (b : Byte) : State :=
  match l with
  | .croft => s.modCore c (fun k => k.setStoreByte off b)
  | .hamlet => { s with hmem := SMap.set 0 s.hmem (2 ^ 23 * hamletOf c + off) b }
  | .commons => { s with commons := SMap.set 0 s.commons off b }
  | _ => s

def State.setLocalBytes (s : State) (c : Nat) (l : Loc) (off : Nat) : List Byte → State
  | [] => s
  | b :: bs => (s.setLocalByte c l off b).setLocalBytes c l (off + 1) bs

/-- The memory that a window reaches, as R68's marks number it: a core's croft store by core, 1,000 + hamlet, 2,000 the commons. -/
def localSpace (c : Nat) (l : Loc) : Nat := match l with | .croft => c | .hamlet => 1000 + hamletOf c | _ => 2000

/-- R66: the row and group of a word of a croft store; parity words are numbered from 65,536, by row and group. -/
def bankGroup (w : Nat) : Nat × Nat := if w < 65536 then (w / 32, w % 32 / 8) else ((w - 65536) / 4, w % 4)

/-- R68: a word can be rebuilt: it is one of a croft store, and no second word of its group fails at its row. -/
def State.rebuilds (s : State) (space w : Nat) : Bool :=
  space < 264 && !s.lbad.any (fun x => x.1 == space && x.2 != w && bankGroup x.2 == bankGroup w)

/-- R68: words that fail their check on a read are rebuilt, returned and rewritten, and counted (R448); the first that cannot be is answered. -/
def State.checkWords (s : State) (space : Nat) : List Nat → Option Nat × State
  | [] => (none, s)
  | w :: ws =>
    if !s.lbad.contains (space, w) then s.checkWords space ws
    else if s.rebuilds space w then ({ s with lbad := s.lbad.filter (fun x => x != (space, w)) }.count 4 space).checkWords space ws
    else (some w, s)

/-- The words of 32 bytes that a run reaches. -/
def wordsOf (off n : Nat) : List Nat := if n = 0 then [] else (upTo ((off + n - 1) / 32 - off / 32 + 1)).map (fun i => off / 32 + i)

/-- R68, R455: a read of a local memory: a word that fails its check beyond rebuilding raises ECC, with the word's window pointer. -/
def localCheck (c : Nat) (l : Loc) (ptr : Word) (off n : Nat) : M Unit := do
  let (bad, s1) := (← get).checkWords (localSpace c l) (wordsOf off n)
  set s1
  match bad with
  | some w => do
    modify (fun s => s.count 3 (match l with | .commons => 32 * w / 2 ^ 25 | _ => fieldOf c))
    trap .ecc (ptrAt ptr (32 * w))
  | none => pure ()

/-- R68: words that a write covers whole no longer fail; a parity word goes on failing until the whole store is rewritten (log entry 105). -/
def State.wordsWritten (s : State) (c : Nat) (l : Loc) (off n : Nat) : State :=
  if s.lbad.isEmpty then s
  else { s with lbad := s.lbad.filter (fun x => !(x.1 == localSpace c l && x.2 < 65536 && off ≤ 32 * x.2 && 32 * x.2 + 32 ≤ off + n)) }

/-- A write of a local memory, of the bits given. -/
def State.localWrite (s : State) (c : Nat) (l : Loc) (off : Nat) (bs bits : List Byte) : State :=
  ((s.setLocalBytes c l off bs).wordsWritten c l off bs.length).noteWrite (s.author.getD hayAgent) (.near (localSpace c l)) off bs bits

/-- A write of whole bytes of a local memory. -/
def State.localPut (s : State) (c : Nat) (l : Loc) (off : Nat) (bs : List Byte) : State := s.localWrite c l off bs (wholeBits bs)

/-- A lane's own byte (R65). -/
def CoreSt.laneByte (k : CoreSt) (lane off : Nat) : Byte := SMap.get 0 k.loc.lane (2048 * lane + off)
def CoreSt.setLaneByte (k : CoreSt) (lane off : Nat) (b : Byte) : CoreSt :=
  { k with loc := { k.loc with lane := SMap.set 0 k.loc.lane (2048 * lane + off) b } }

/-- A byte of a local memory, by its space (that of R68's marks). -/
def State.setSpaceByte (s : State) (space off : Nat) (b : Byte) : State :=
  if space < 1000 then s.modCore space (fun k => k.setStoreByte off b)
  else if space < 2000 then { s with hmem := SMap.set 0 s.hmem (2 ^ 23 * (space - 1000) + off) b }
  else { s with commons := SMap.set 0 s.commons off b }

/-- R127: a byte where a noted write went. -/
def State.putRace (s : State) (loc : RaceAt) (a : Nat) (b : Byte) : State :=
  match loc with
  | .home key compr => match s.homePut a key compr [b] with
    | .ok s' => s'
    | .error _ => s
  | .near space => s.setSpaceByte space a b

/-- R127: byte `k` of the overlap of two racing writes, numbers `i` and `j` of those noted, holds the earlier one's value. Nothing else has
written it since the earlier one. -/
def State.raceByte (s : State) (i j k : Nat) : State :=
  match s.writes[i]?, s.writes[j]? with
  | some v, some w =>
    let a := max v.at_ w.at_ + k
    let others := (s.writes.zipIdx.filter (fun x => i < x.2 && x.2 != j)).map Prod.fst
    if i < j && w.free.contains (j - i) && v.covers a && w.covers a && !others.any (fun x => x.loc.same w.loc && x.covers a) then
      let m := v.bits.getD (a - v.at_) 0xFF
      s.putRace w.loc a ((v.bs.getD (a - v.at_) 0 &&& m) ||| (w.bs.getD (a - w.at_) 0 &&& ~~~m))
    else s
  | _, _ => s

/-- R68: every word of a store is written: none of them, and no parity word, fails any longer (log entry 105). -/
def State.storeRewritten (s : State) (c : Nat) : State := { s with lbad := s.lbad.filter (fun x => x.1 != c) }

/-- A read of `n` bytes at an aligned offset that stays within one line, through the L1 for global memory. -/
def readAt (c : Nat) (l : Loc) (ptr : Word) (off n : Nat) : M (List Byte) := do
  match l with
  | .glob b =>
    let pl ← translate c b (bufBase b + off) .rd ptr
    l1Read c pl ptr off n
  | .port => pure []
  | l => do
    localCheck c l ptr off n
    let s ← get
    pure ((upTo n).map (fun i => s.localByte c l (off + i)))

/-- A write of bytes at an aligned offset that stays within one line, through the L1 for global memory. -/
def writeAt (c : Nat) (l : Loc) (ptr : Word) (off : Nat) (bs : List Byte) : M Unit := do
  match l with
  | .glob b =>
    let pl ← translate c b (bufBase b + off) .wr ptr
    l1Write c pl ptr off bs
  | .port => pure ()
  | l => modify (fun s => s.localPut c l off bs)

/-- A read at home, with no L1 (R110, R126): `n` bytes within one line. -/
def homeRead (c : Nat) (l : Loc) (a : Acc) (ptr : Word) (off n : Nat) : M (List Byte) := do
  match l with
  | .glob b =>
    let pl ← translate c b (bufBase b + off) a ptr
    awaitAt c pl
    match (← get).homeBytes pl.pa n pl.key pl.compr with
    | .ok bs => do
      modify (fun s => s.retag (pl.pa / 256) pl.key)
      pure bs
    | .error e => lineErr e pl.pa ptr off
  | .port => pure []
  | l => do
    localCheck c l ptr off n
    let s ← get
    pure ((upTo n).map (fun i => s.localByte c l (off + i)))

/-- A write at home, with no L1; of each byte `bits` tells which bits are written (R77). -/
def homeStoreBits (c : Nat) (l : Loc) (a : Acc) (ptr : Word) (off : Nat) (bs bits : List Byte) : M Unit := do
  match l with
  | .glob b =>
    let pl ← translate c b (bufBase b + off) a ptr
    awaitAt c pl
    match (← get).homePut pl.pa pl.key pl.compr bs with
    | .ok s => set (s.noted pl.pa pl.key pl.compr bs bits)
    | .error e => lineErr e pl.pa ptr off
  | .port => pure ()
  | l => modify (fun s => s.localWrite c l off bs bits)

/-- A write of whole bytes at home, with no L1. -/
def homeStore (c : Nat) (l : Loc) (a : Acc) (ptr : Word) (off : Nat) (bs : List Byte) : M Unit := homeStoreBits c l a ptr off bs (wholeBits bs)

/-- The croft writes back and drops the line that holds a global byte (R130, R219). -/
def evictByte (c : Nat) (l : Loc) (a : Acc) (ptr : Word) (off : Nat) : M Unit := do
  match l with
  | .glob b =>
    let pl ← translate c b (bufBase b + off) a ptr
    flushLines c [pl.pa / 256]
  | _ => pure ()

/-- The offsets of the lines and pages that a span of bytes reaches, one offset for each line. -/
def lineOffs (lo hi : Nat) : List Nat := (upTo (hi / 256 - lo / 256 + 1)).map (fun i => max lo (256 * (lo / 256 + i)))

/-- R111: writes back, and where asked drops, every line of the issuing croft's L1 that overlaps a global span. Lines whose pages are not
mapped cannot be held. -/
def flushSpan (c : Nat) (l : Loc) (drop : Bool) (lo hi : Nat) : M Unit := do
  match l with
  | .glob b =>
    let s ← get
    let lines := (lineOffs lo hi).filterMap (fun off => (s.paAt c (bufBase b + off)).map (fun pa => pa / 256))
    let held := lines.filter (fun n => ((s.core c).l1Get n).isSome)
    if drop then flushLines c held else writeBackAll c held
  | _ => pure ()

/-- Translates every page that a global span reaches, in order (R59 step 5). -/
def translatePages (c : Nat) (b : BitVec 256) (a : Acc) (ptr : Word) : List Nat → M Unit
  | [] => pure ()
  | off :: offs => do
    let _ ← translate c b (bufBase b + off) a (ptrAt ptr off)
    translatePages c b a ptr offs

/-- The first byte of each page that a span of a buffer reaches, as an offset (0 where the page starts below the buffer). -/
def pageOffs (b : BitVec 256) (lo hi : Nat) : List Nat :=
  let base := bufBase b
  (upTo ((base + hi) / 65536 - (base + lo) / 65536 + 1)).map (fun i => 65536 * ((base + lo) / 65536 + i) - base)

end Sys2Proof.Machine
end

