-- ==== Sys2Proof/Machine/Resid.lean ====
section
/-! DEFINITION. Residual stacks (R283 to R290): binding and unbinding, the lower tiers, reservation and demotion, frames. While a stack
is bound its bytes are held with the core, by depth. The frames below the hot segment are also held where they are spilled to: the upper
ones in the HBM region, the byte of depth d at `HBASE` + d mod `HLEN`, a layout of the device's own choosing (R284; log entry 13); the
deepest in the tier area, in the layout of R416; a frame that neither can take, at an unbinding, in a store of the device's own. -/

namespace Sys2Proof.Machine

/-- "None" in a 48-bit depth field (R276, R283). -/
def noDepth : Nat := 2 ^ 48 - 1

/-- The key of a byte of a frame that neither tier holds (log entry 14). -/
def tierKey (asid id d : Nat) : Nat := 2 ^ 60 * asid + 2 ^ 48 * id + d

/-- An operation whose trap is passed over, and which waits when it has to. -/
def quiet {α : Type} (m : M α) : M (Option α) := fun s =>
  match m s with
  | (.ok a, s') => (.ok (some a), s')
  | (.error (.trap _ _), s') => (.ok none, s')
  | (.error x, s') => (.error x, s')

/-- What asks a home device for a page (R403). -/
def FabOut.isPull : FabOut → Bool
  | .pullRequest .. => true
  | _ => false

/-- What stands of an operation that has to wait and is tried again: the pulls it asked for, the contexts it froze. -/
def State.heldBack (s s' : State) : State :=
  { s with pulls := s'.pulls, hbm := s'.hbm, fab := { s.fab with out := s.fab.out ++ (s'.fab.out.drop s.fab.out.length).filter FabOut.isPull } }

/-- The 64-byte entry of R283, as a number. -/
def stackEntry (st : Stack) (busy : Bool) : Nat :=
  st.hbase.toNat + atBit st.hlen 64 + atBit 1 112 + atBit (bitNat busy) 113 + atBit st.depth 128 + atBit st.topf 192 + atBit st.nfr 256 +
  atBit st.xoff 320 + atBit st.xlen 384

/-- A stack of an entry's fields. -/
def Stack.ofEntry (id : Nat) (ptr : Word) (e : BitVec 512) : Stack :=
  { id := id, entry := ptr, hbase := e.extractLsb' 0 64, hlen := fld e 64 48, xoff := fld e 320 48, xlen := fld e 384 48,
    depth := fld e 128 48, topf := fld e 192 48, nfr := fld e 256 32, bytes := [], cold := 0, lost := 0, lostBy := .none, gen := 0, depth0 := fld e 128 48, topf0 := fld e 192 48,
    nfr0 := fld e 256 32 }

-- ### Frames (R276, R277)

def Stack.num (st : Stack) (d n : Nat) : Nat := leNat ((upTo n).map (fun i => SMap.get 0 st.bytes (d + i)))

def putStackBytes (m : SMap Byte) (d : Nat) : List Byte → SMap Byte
  | [] => m
  | b :: bs => putStackBytes (SMap.set 0 m d b) (d + 1) bs

/-- The header of the frame at a depth. -/
def Stack.hdr (st : Stack) (d : Nat) : BitVec 512 := BitVec.ofNat 512 (st.num d 64)
def Stack.setHdr (st : Stack) (d : Nat) (h : BitVec 512) : Stack := { st with bytes := putStackBytes st.bytes d (natBytes 64 h.toNat) }

def frBpc (h : BitVec 512) : Word := h.extractLsb' 0 64
def frEpc (h : BitVec 512) : Word := h.extractLsb' 64 64
def frGdisp (h : BitVec 512) : Word := h.extractLsb' 128 64
def frFsz (h : BitVec 512) : Nat := fld h 192 10
def frNseed (h : BitVec 512) : Nat := fld h 202 8
def frDem (h : BitVec 512) : Bool := h.getLsbD 210
def frRcp (h : BitVec 512) : Bool := h.getLsbD 211
def frDmtd (h : BitVec 512) : Bool := h.getLsbD 212
def frUf (h : BitVec 512) : Bool := h.getLsbD 213
def frHsave (h : BitVec 512) : BitVec 32 := h.extractLsb' 224 32
def frPbytes (h : BitVec 512) : Nat := fld h 256 32
def frKeep (h : BitVec 512) : Nat := fld h 288 16
def frPrev (h : BitVec 512) : Nat := fld h 320 48

/-- A header from its fields (R276). -/
def mkHdr (bpc epc gdisp : Word) (fsz nseed : Nat) (dem rcp dmtd uf : Bool) (hsave : BitVec 32) (pbytes keep prev : Nat) : BitVec 512 :=
  BitVec.ofNat 512 (bpc.toNat + atBit epc.toNat 64 + atBit gdisp.toNat 128 + atBit fsz 192 + atBit nseed 202 + atBit (bitNat dem) 210 +
    atBit (bitNat rcp) 211 + atBit (bitNat dmtd) 212 + atBit (bitNat uf) 213 + atBit hsave.toNat 224 + atBit pbytes 256 + atBit keep 288 +
    atBit prev 320)

/-- The size of a frame (R277). -/
def frSize (h : BitVec 512) : Nat := frKeep h + (if frDmtd h then 0 else 64 * ((frPbytes h + 63) / 64))

/-- The depths of the headers on a stack that could be read, top first. -/
def Stack.frames (st : Stack) : Nat → Nat → List Nat
  | 0, _ => []
  | n + 1, d => if d = noDepth ∨ d < st.lost then [] else d :: Stack.frames st n (frPrev (st.hdr d))

/-- The stack at a position. What lies above it is no frame of the stack any more. -/
def Stack.goTo (st : Stack) (depth topf nfr : Nat) : Stack := { st with depth := depth, topf := topf, nfr := nfr, cold := min st.cold depth }

/-- What a cut leaves of the stack's depth, top and count (R286): those before the oldest discarded entry's word, or those of the binding when
the stack was bound since. -/
def Stack.rewind (st : Stack) (old : Option Stack) : Stack :=
  match old with
  | some o => if o.gen = st.gen ∧ o.id = st.id then st.goTo o.depth o.topf o.nfr else st.goTo st.depth0 st.topf0 st.nfr0
  | none => st.goTo st.depth0 st.topf0 st.nfr0

/-- The header depths, top first. -/
def Stack.allFrames (st : Stack) : List Nat := st.frames st.nfr st.topf

/-- The stack before the push of its top frame. -/
def Stack.unpush (st : Stack) : Stack := st.goTo st.topf (frPrev (st.hdr st.topf)) (st.nfr - 1)

-- ### The tier area (R415, R416)

/-- The lines of a frame, the last filled with zeros. -/
def frameLines (bs : List Byte) : List (BitVec 2048) :=
  (upTo ((bs.length + 255) / 256)).map (fun i => BitVec.ofNat 2048 (leNat ((bs.drop (256 * i)).take 256)))

/-- R416: the codes of `n` lines as bytes, padded to a multiple of 64. -/
def codeBytes (cs : List Nat) : List Byte :=
  let n := 64 * ((cs.length + 127) / 128)
  (upTo n).map (fun i => BitVec.ofNat 8 (cs.getD (2 * i) 0 + 16 * cs.getD (2 * i + 1) 0))

/-- R416: a frame as the tier area holds it. -/
def tierFrame (bs : List Byte) : List Byte :=
  let ls := frameLines bs
  let cs := ls.map (classOf 0)
  natBytes 64 (bs.length + atBit ls.length 64) ++ codeBytes (cs.map Prod.fst) ++
  (ls.zip cs).flatMap (fun x => natBytes x.2.2 (if x.2.1 = 0xF then x.1.toNat else (blockOf x.1).1))

/-- The bytes that a code's block takes (R416, R422). -/
def codeSize (code : Nat) : Nat := if code = 1 then 0 else if code = 2 ∨ code = 3 ∨ code = 4 then 64 * (code - 1) else 256

/-- The lines of blocks that lie one after the other at a physical address. A reserved code is no code (R83, R422). -/
def State.tierLines (s : State) : List Nat → Nat → Except LineErr (List Byte)
  | [], _ => .ok []
  | code :: cs, pa =>
    match (if 5 ≤ code ∧ code ≤ 0xE then .error .ecc else s.phys pa (codeSize code)) with
    | .error e => .error e
    | .ok bs =>
      match (if code = 0xF ∨ code = 0 then some (BitVec.ofNat 2048 (leNat bs)) else if code = 1 then some 0 else decodeBlock (leNat bs) (codeSize code)) with
      | none => .error .ecc
      | some x => match s.tierLines cs (pa + codeSize code) with
        | .error e => .error e
        | .ok r => .ok (natBytes 256 x.toNat ++ r)

/-- R416: the frame that the tier area holds at a physical address, and the bytes it takes there. -/
def State.tierFrameAt (s : State) (pa : Nat) : Except LineErr (List Byte × Nat) :=
  match s.phys pa 64 with
  | .error e => .error e
  | .ok h =>
    let n := leNat (h.take 8)
    let lines := (n + 255) / 256
    -- a frame is at most 64 KiB; another header was never written by the spill engine
    if 65536 < n ∨ leNat (h.drop 8) ≠ lines then .error .ecc
    else
      let cn := 64 * ((lines + 127) / 128)
      match s.phys (pa + 64) cn with
      | .error e => .error e
      | .ok cb =>
        let codes := (upTo lines).map (fun i => natBits (leNat cb) (4 * i) 4)
        match s.tierLines codes (pa + 64 + cn) with
        | .error e => .error e
        | .ok bs => .ok (bs.take n, 64 + cn + (codes.map codeSize).foldl (· + ·) 0)

/-- A host port is in CXL mode. -/
def State.cxl (s : State) : Bool := s.stor.mode0 == 1 || s.stor.mode1 == 1

/-- The usable bytes of a stack's tier area (R283, R415), which lies on the host path; while no port is in CXL mode there is no tier. -/
def State.tierRoom (s : State) (p : Nat) (st : Stack) : Nat :=
  let q := s.part p
  if s.cxl && isHostPath (q.tbase + st.xoff) then min (min st.xlen (q.tlen - st.xoff)) (2 ^ 50 - (q.tbase + st.xoff)) else 0

-- ### Where the frames below the hot segment lie

/-- The bytes of the frame at a depth. -/
def Stack.frameBytes (st : Stack) (d : Nat) : List Byte := (upTo (frSize (st.hdr d))).map (fun i => SMap.get 0 st.bytes (d + i))

/-- The frames below depth `d`, top first, with their sizes and what they take in the tier area. -/
def Stack.sizesBelow (st : Stack) (d : Nat) : List (Nat × Nat × Nat) :=
  (st.allFrames.filter (fun x => x < d)).map (fun x => (x, frSize (st.hdr x), (tierFrame (st.frameBytes x)).length))

/-- The frames that the HBM region does not take: it takes the upper ones (log entry 14). -/
def pastHbm : Nat → List (Nat × Nat × Nat) → List (Nat × Nat × Nat)
  | _, [] => []
  | hbm, x :: xs => if x.2.1 ≤ hbm then pastHbm (hbm - x.2.1) xs else x :: xs

/-- The lower tiers hold the frames below depth `d`. With frames that could not be read no tier is counted on (log entry 14). -/
def Stack.lowerFits (room : Nat) (st : Stack) (d : Nat) : Bool :=
  st.lost != 0 || decide (((pastHbm st.hlen (st.sizesBelow d)).map (fun x => x.2.2)).foldl (· + ·) 0 ≤ room)

/-- Where a frame lies: in the HBM region, in the tier area at an offset of it, or in neither. -/
inductive Spot where
  | hbm
  | tier (off : Nat)
  | beyond
deriving DecidableEq, Repr

/-- Spots in the tier area, in push order. -/
def tierSpots (room : Nat) : Nat → List (Nat × Nat × Nat) → List (Nat × Spot)
  | _, [] => []
  | off, x :: xs => (x.1, if off + x.2.2 ≤ room then .tier off else .beyond) :: tierSpots room (off + x.2.2) xs

/-- The spots of the frames below the hot segment, by depth. With frames that could not be read, the others stay where the binding found them or
are kept by the device itself (log entry 14). -/
def Stack.spots (room : Nat) (st : Stack) : List (Nat × Spot) :=
  let fs := st.sizesBelow st.cold
  if st.lost ≠ 0 then fs.map (fun x => (x.1, if x.1 + x.2.1 ≤ st.depth0 then .hbm else .beyond))
  else
    let t := pastHbm st.hlen fs
    (fs.take (fs.length - t.length)).map (fun x => (x.1, .hbm)) ++ tierSpots room 0 t.reverse

/-- The bytes of a frame in a store of the device's own. -/
def State.keepBeyond (s : State) (asid id : Nat) : Nat → List Byte → State
  | _, [] => s
  | d, b :: bs => ({ s with tier := SMap.set 0 s.tier (tierKey asid id d) (b.toNat + 1) }).keepBeyond asid id (d + 1) bs

def State.dropBeyond (s : State) (asid id d n : Nat) : State := { s with tier := SMap.clear s.tier (tierKey asid id d) n }

/-- What the device's own store has of the frame at a depth: nothing; its bytes, as far as they go; that it cannot be read, and the error
(log entry 14). -/
inductive Kept where
  | none
  | bytes (bs : List Byte)
  | gone (cause : Cause)
deriving DecidableEq, Repr

/-- Marks the frame at a depth as one that cannot be read. -/
def State.markGone (s : State) (asid id d : Nat) (cause : Cause) : State := { s with tier := SMap.set 0 s.tier (tierKey asid id d) (257 + cause.code) }

/-- What is kept of `n` bytes from a depth on. -/
def State.kept (s : State) (asid id d n : Nat) : Kept :=
  let key := tierKey asid id d
  let x := SMap.get 0 s.tier key
  if x = 0 then .none
  else if 257 ≤ x then .gone (if x = 257 + Cause.ecc.code then .ecc else if x = 257 + Cause.keygone.code then .keygone else if x = 257 + Cause.rights.code then .rights else .xlate)
  else
    let own := SMap.slice s.tier key n
    .bytes (((upTo n).map (fun i => SMap.get 0 own (key + i))).takeWhile (fun x => x != 0) |>.map (fun x => BitVec.ofNat 8 (x - 1)))

/-- The place of the byte of depth `d` in the HBM region. -/
def Stack.hbmPtr (st : Stack) (d : Nat) : Word := ptrAt st.hbase (ptrOffset st.hbase + d % st.hlen)

/-- Writes sectors of 64 bytes of a frame to the HBM region. -/
def putHbm (c : Nat) (st : Stack) : Nat → Nat → List Byte → M Unit
  | 0, _, _ => pure ()
  | n + 1, d, bs => do
    let p := st.hbmPtr d
    let l ← checkSpan c .copy .wr p (ptrOffset p) (ptrOffset p + 63)
    homeStore c l .wr p (ptrOffset p) (bs.take 64)
    putHbm c st n (d + 64) (bs.drop 64)

def getHbm (c : Nat) (st : Stack) : Nat → Nat → M (List Byte)
  | 0, _ => pure []
  | n + 1, d => do
    let p := st.hbmPtr d
    let l ← checkSpan c .copy .rd p (ptrOffset p) (ptrOffset p + 63)
    let x ← homeRead c l .rd p (ptrOffset p) 64
    let y ← getHbm c st n (d + 64)
    pure (x ++ y)

/-- An access of the spill engine: a wait is a wait, an uncorrectable error has pointer 0 (R455), and any other failure is `none`. -/
def spillTry {α : Type} (m : M α) : M (Option α) := fun s =>
  match m s with
  | (.ok a, s') => (.ok (some a), s')
  | (.error (.trap .ecc _), s') => (.error (.trap .ecc 0), s')
  | (.error (.trap _ _), s') => (.ok none, s')
  | (.error x, s') => (.error x, s')

/-- R68: frame bytes that the hot segment holds are read from there: the words of `n` bytes from depth `d` on. -/
def hotCheck (c d n : Nat) : M Unit := do
  let o := d % 65536
  let m := min n (65536 - o)
  let ptr := mkPtr 0xFFF0 0x170000
  localCheck c .croft ptr (0x170000 + o) m
  localCheck c .croft ptr 0x170000 (min (n - m) 65536)

/-- The checks of frames, by depth and size; a failure is passed over unless `strict`. -/
def hotChecks (c : Nat) (strict : Bool) : List (Nat × Nat) → M Unit
  | [] => pure ()
  | (d, n) :: r => do
    if strict then hotCheck c d n else do let _ ← quiet (hotCheck c d n)
    hotChecks c strict r

/-- Writes a frame to its spot. A tier whose port is in storage mode refuses it (R412), with no pointer to name; where nothing can be raised
(`strict` false), as at a kill, the device keeps it. -/
def putFrame (c : Nat) (strict : Bool) (st : Stack) (d : Nat) (sp : Spot) : M Unit := do
  let bs := st.frameBytes d
  let s ← get
  let k := s.core c
  let beyond : M Unit := modify (fun s => s.keepBeyond k.ctx.asid st.id d bs)
  modify (fun s => s.dropBeyond k.ctx.asid st.id d bs.length)
  match sp with
  | .hbm => match ← spillTry (putHbm c st (bs.length / 64) d bs) with
    | some _ => pure ()
    | none => beyond
  | .tier off => do
    let pa := (s.part k.ctx.part).tbase + st.xoff + off
    if s.storagePath pa then (if strict then trap .rights 0 else beyond)
    else
      if strict then await c pa
      modify (fun s => s.physPut pa (tierFrame bs))
  | .beyond => beyond

/-- A frame of a known size as it is read back from its spot; what cannot be read is what the core knows of it. -/
def getFrame (c : Nat) (st : Stack) (d n : Nat) (sp : Spot) : M (List Byte) := do
  let s ← get
  let k := s.core c
  match s.kept k.ctx.asid st.id d n with
  | .bytes bs => pure bs
  | .gone cause => trap cause 0
  | .none => match sp with
    | .hbm => do
      let r ← spillTry (getHbm c st (n / 64) d)
      pure (r.getD (st.frameBytes d))
    | .tier off => do
      let pa := (s.part k.ctx.part).tbase + st.xoff + off
      match (if s.storagePath pa then .error .rights else s.tierFrameAt pa) with
      | .ok x => pure x.1
      | .error e => walkErr e pa 0
    | .beyond => pure (st.frameBytes d)

def putFrames (c : Nat) (strict : Bool) (st : Stack) : List (Nat × Spot) → M Unit
  | [] => pure ()
  | x :: xs => do putFrame c strict st x.1 x.2; putFrames c strict st xs

/-- R284, R285: the spill engine has moved frames: those whose place or size is new are written there, from the hot segment when they were hot. -/
def writeLower (c : Nat) (strict : Bool) (old st : Stack) : M Unit := do
  let s ← get
  let p := (s.core c).ctx.part
  let was := old.spots (s.tierRoom p old)
  hotChecks c strict ((old.allFrames.filter (fun d => old.cold ≤ d && d < st.cold)).map (fun d => (d, frSize (old.hdr d))))
  putFrames c strict st ((st.spots (s.tierRoom p st)).filter (fun x => !(was.contains x && old.frameBytes x.1 == st.frameBytes x.1)))

/-- R284: the top frame comes back to the hot segment. -/
def warmTop (c : Nat) (st : Stack) : M Stack := do
  if st.cold ≤ st.topf then pure st
  else
    let s ← get
    match (st.spots (s.tierRoom (s.core c).ctx.part st)).find? (fun x => x.1 == st.topf) with
    | some x => do
      let bs ← getFrame c st x.1 (frSize (st.hdr st.topf)) x.2
      pure { st with bytes := putStackBytes st.bytes st.topf bs, cold := st.topf }
    | none => pure { st with cold := st.topf }

-- ### Moving frames and demoting them (R284, R285)

/-- The deepest demotable frame of the lower tiers (R285): `DEM` set and its payload present. -/
def Stack.demotable (st : Stack) : Option Nat :=
  (st.allFrames.reverse.filter (fun d => d < st.cold)).find? (fun d => frDem (st.hdr d) && !frDmtd (st.hdr d) && !frUf (st.hdr d))

/-- What a demotion does to depths: of a frame of `size` bytes at depth `d` the first `keep` stay, and what lies above moves down (R285). -/
structure Shift where
  d : Nat
  keep : Nat
  size : Nat
deriving DecidableEq, Repr

/-- A depth after a demotion. -/
def Shift.at (x : Shift) (n : Nat) : Nat :=
  if n = noDepth ∨ n < x.d + x.keep then n else if n < x.d + x.size then x.d + x.keep else n - (x.size - x.keep)

/-- The bytes and the position of a stack after a demotion. -/
def Stack.shift (st : Stack) (x : Shift) : Stack :=
  { st with
    bytes := st.bytes.filterMap (fun e => if x.d + x.keep ≤ e.1 ∧ e.1 < x.d + x.size then none else some (x.at e.1, e.2))
    depth := x.at st.depth, topf := x.at st.topf, cold := x.at st.cold, depth0 := x.at st.depth0, topf0 := x.at st.topf0 }

/-- A header with another `PREV`. -/
def withPrev (h : BitVec 512) (prev : Nat) : BitVec 512 := BitVec.ofNat 512 (h.toNat - atBit (frPrev h) 320 + atBit prev 320)

/-- Demotes the frame at depth `d`: sets `DMTD`, discards its payload, and moves what lies above it down, the frame of an open block
(`opened`) with it (R285). -/
def Stack.demote (st : Stack) (opened : Bool) (d : Nat) : Stack × Shift :=
  let h := st.hdr d
  let x : Shift := ⟨d, frKeep h, frSize h⟩
  let above := st.allFrames.filter (fun y => d < y) ++ (if opened then [st.depth] else [])
  let st1 := (st.shift x).setHdr d (BitVec.ofNat 512 (h.toNat + atBit 1 212))
  (above.foldl (fun (a : Stack) y => let hy := a.hdr (x.at y); a.setHdr (x.at y) (withPrev hy (x.at (frPrev hy)))) st1, x)

/-- The end of the deepest hot frame. -/
def Stack.coldNext (st : Stack) : Nat :=
  match st.allFrames.reverse.find? (fun d => st.cold ≤ d) with
  | some d => d + frSize (st.hdr d)
  | none => st.depth

/-- What the spill engine comes to: the stack; whether what was asked for could be done; whether a frame that still has items to come kept it
from going on; the demotions on the way, in order (R285: they stand and count even when it could not); the bytes moved. -/
structure Moved where
  st : Stack
  ok : Bool
  blocked : Bool
  shifts : List Shift
  n : Nat

/-- R284, R285: moves the deepest hot frame to the lower tiers, demoting as long as that is needed and possible. A frame that reaches past depth
`lim` stays. -/
def Stack.moveOut (opened : Bool) (room : Nat) : Nat → Nat → Stack → Moved
  | 0, _, st => ⟨st, false, false, [], 0⟩
  | n + 1, lim, st =>
    if lim < st.coldNext then ⟨st, false, true, [], 0⟩
    else if st.lowerFits room st.coldNext then ⟨{ st with cold := st.coldNext }, true, false, [], st.coldNext - st.cold⟩
    else match st.demotable with
      | some d =>
        let (st1, x) := st.demote opened d
        let r := Stack.moveOut opened room n (x.at lim) st1
        { r with shifts := x :: r.shifts }
      | none => ⟨st, false, false, [], 0⟩

/-- A depth after demotions. -/
def shiftAll (xs : List Shift) (n : Nat) : Nat := xs.foldl (fun n x => x.at n) n

/-- R280, R285: makes room for a reservation of `need` bytes at the top of the hot segment. -/
def Stack.reserve (opened : Bool) (room need : Nat) : Nat → Nat → Stack → Moved
  | 0, _, st => ⟨st, false, false, [], 0⟩
  | n + 1, lim, st =>
    if st.depth - st.cold + need ≤ 65536 then ⟨st, true, false, [], 0⟩
    else if st.depth ≤ st.cold then ⟨st, false, false, [], 0⟩
    else
      let m := st.moveOut opened room (st.nfr + 1) lim
      if m.ok then let r := Stack.reserve opened room need n (shiftAll m.shifts lim) m.st; { r with shifts := m.shifts ++ r.shifts, n := r.n + m.n }
      else m

/-- R290: moves every hot frame below depth `lim` that the lower tiers can take. -/
def Stack.spillAll (opened : Bool) (room : Nat) : Nat → Nat → Stack → Moved
  | 0, _, st => ⟨st, true, false, [], 0⟩
  | n + 1, lim, st =>
    if min lim st.depth ≤ st.cold then ⟨st, true, false, [], 0⟩
    else
      let m := st.moveOut opened room (st.nfr + 1) lim
      if m.ok then let r := Stack.spillAll opened room n (shiftAll m.shifts lim) m.st; { r with shifts := m.shifts ++ r.shifts, n := r.n + m.n }
      else m

/-- Counts demotions of a context (R285, R448). -/
def State.countDemotions (s : State) (asid : Nat) : Nat → State
  | 0 => s
  | n + 1 => (s.count 5 asid).countDemotions asid n

/-- R287 step 3: the top frames that fit are hot. -/
def Stack.warm (st : Stack) : Stack :=
  { st with cold := (st.allFrames.filter (fun d => st.depth ≤ d + 65536)).foldl min st.depth }

-- ### The entries and the position of a core on its stack

end Sys2Proof.Machine

namespace Sys2Proof

/-- Words whose entries write bytes of the bound stack: those that push a residual item inside a block (R295 to R298), and `RS.PUSH`. -/
def Instr.pushes : Instr → Bool
  | .vadd .. | .vsub .. | .vred .. | .vbcast .. | .vbcastE .. | .vcvt .. | .vmul .. | .vmad .. | .vrelu .. | .vexp2 .. | .vrcp .. | .vtanh ..
  | .vld .. | .vst .. | .vstSrPtr .. | .vstSrHdl .. | .mmRun .. | .rsPush .. => true
  | _ => false

/-- `RS.POP`, whose entry reads bytes of the bound stack. -/
def Instr.pops : Instr → Bool
  | .rsPop .. => true
  | _ => false

end Sys2Proof

namespace Sys2Proof.Machine

/-- An entry has bytes still to write into the bound stack (R278, R288), at depth `aux` − 1. -/
def Entry.fills (e : Entry) : Bool := e.aux != 0 && !e.null && !e.adj && e.phase != .done && e.op.pushes
/-- An entry's `aux` is a depth of the bound stack plus 1. -/
def Entry.placed (e : Entry) : Bool := e.aux != 0 && (e.adj || e.op.pushes || e.op.pops)

/-- An entry has an item or a pushed frame still to write into the bound stack (R278, R288). -/
def CoreSt.filling (k : CoreSt) : Bool := k.q.es.any Entry.fills
/-- The lowest depth at which one of these entries is still to write. -/
def fillLow (es : List Entry) : Nat := (es.filter Entry.fills).foldl (fun m e => min m (e.aux - 1)) noDepth

/-- A block is open, forward (R280): its frame lies above the stack's depth. -/
def CoreSt.openedBlk (k : CoreSt) : Bool := k.f.blk.opened && k.f.blk.dir == 0

/-- An entry after a demotion: its place, the stack as it stood at its issue. -/
def Entry.shifted (gen : Nat) (x : Shift) (e : Entry) : Entry :=
  { e with aux := if e.placed then x.at (e.aux - 1) + 1 else e.aux, stk := e.stk.map (fun o => if o.gen = gen then o.shift x else o) }

/-- A step after a demotion. -/
def StkStep.shifted (gen : Nat) (x : Shift) (r : StkStep) : StkStep :=
  if r.gen = gen then { r with depth := x.at r.depth, topf := x.at r.topf, aux := if r.aux = 0 then 0 else x.at (r.aux - 1) + 1 } else r

/-- R285: what a core knows of its stack's depths, after a demotion. -/
def CoreSt.shifted (k : CoreSt) (gen : Nat) (x : Shift) : CoreSt :=
  { k with
    q := { k.q with es := k.q.es.map (Entry.shifted gen x), heldEs := k.q.heldEs.map (Entry.shifted gen x) }
    res := { k.res with
      walk := k.res.walk.map (fun w => { w with base := x.at w.base })
      log := k.res.log.map (StkStep.shifted gen x)
      redo := k.res.redo.map (StkStep.shifted gen x) } }

/-- What the spill engine has come to takes effect: frames are written to their places, demotions are counted, depths follow. -/
def applyMoved (c : Nat) (strict : Bool) (old : Stack) (m : Moved) : M Unit := do
  writeLower c strict old m.st
  let asid := (← getCore c).ctx.asid
  modify (fun s => s.countDemotions asid m.shifts.length)
  modCore c (fun k =>
    let k1 := m.shifts.foldl (fun k x => k.shifted old.gen x) k
    { k1 with res := { k1.res with stack := some m.st } })

/-- A word needs the top frame, which could not be read when the stack was bound (R416, R421). -/
def needTop (st : Stack) : M Unit := if st.nfr ≠ 0 ∧ st.topf < st.lost then trap st.lostBy 0 else pure ()

/-- Writes bytes of the bound stack, words of the hot segment (R68). -/
def stackPut (c d : Nat) (bs : List Byte) : M Unit := do
  modCore c (fun k => match k.res.stack with
    | some st => { k with res := { k.res with stack := some { st with bytes := putStackBytes st.bytes d bs } } }
    | none => k)
  let o := d % 65536
  let m := min bs.length (65536 - o)
  modify (fun s => (s.wordsWritten c .croft (0x170000 + o) m).wordsWritten c .croft 0x170000 (bs.length - m))

-- ### Binding (R287, R290)

/-- A write of 64 bytes at a pointer that an earlier check vouches for: no right is checked again. A page that is elsewhere is pulled first. What
is no longer mapped, or whose key or line fails, is not written (log entry 86). -/
def vouchedWrite (c : Nat) (ptr : Word) (bs : List Byte) : M Unit := do
  let b ← bufEntry c (ptrIndex ptr)
  let s ← get
  let k := s.core c
  let va := bufBase b + ptrOffset ptr
  match s.leafAt c va .rd with
  | .held pa => do await c pa; throw .wait
  | .leaf e level addr =>
    if ptePull e then
      if s.pullGone.contains (k.ctx.asid, va / 65536) then pure ()
      else
        set (s.startPull ⟨k.ctx.asid, va / 65536, e, addr⟩)
        throw .wait
    else
      let pa := leafPa e level va
      awaitCls c (bufClass b) pa
      match s.homePut pa (pteKey e) (bufCompr b) bs with
      | .ok s => set s
      | .error _ => pure ()
  | _ => pure ()

/-- The stack at an unbinding with frames that could not be read: the device keeps the others itself, and marks the first that could not
(log entry 14). -/
def keepKnown (c : Nat) (st : Stack) : M Unit := do
  let asid := (← getCore c).ctx.asid
  let fs := st.allFrames
  modify (fun s => fs.foldl (fun (s : State) d => (s.dropBeyond asid st.id d (frSize (st.hdr d))).keepBeyond asid st.id d (st.frameBytes d)) s)
  let d := match fs.getLast? with | some x => frPrev (st.hdr x) | none => st.topf
  if d ≠ noDepth then modify (fun s => s.markGone asid st.id d st.lostBy)

/-- R287 step 1, R290: the bound stack's frames go to the lower tiers, its entry is written back with `BUSY` 0, and the hot segment is
left with bytes drawn from the stack's and zero. Items that entries have yet to write are written first. -/
def unbindStack (c : Nat) (strict : Bool) : M Unit := do
  let k ← getCore c
  match k.res.stack with
  | none => pure ()
  | some st0 =>
    if k.filling then throw .wait
    let s ← get
    let m := st0.spillAll false (s.tierRoom k.ctx.part st0) (st0.nfr + 1) noDepth
    -- a frame that could not be placed is kept beyond the tiers
    let st := { m.st with cold := m.st.depth }
    applyMoved c strict st0 { m with st := st }
    if st.lost ≠ 0 then keepKnown c st
    let _ ← quiet (vouchedWrite c st.entry (natBytes 64 (stackEntry st false)))
    modCore c (fun k => { k with res := { k.res with stack := none },
                                 loc := { k.loc with hot := [], binds := k.loc.binds + 1, hotSrc := st.bytes } })

/-- A frame at depth `d`, up to `top`, could not be read: an error for a stack whose frame is to be hot; else it and the frames below it are
lost (R416, R421). -/
def lose (st : Stack) (d top : Nat) (cause : Cause) (ptr : Word) : M Stack :=
  if st.depth ≤ d + 65536 then trap cause ptr else pure { st with lost := top, lostBy := cause }

/-- A read of the spill engine, or the error that it meets; an uncorrectable one has pointer 0 (R455). -/
def spillAsk {α : Type} (m : M α) : M (Except (Cause × Word) α) := fun s =>
  match m s with
  | (.ok a, s') => (.ok (.ok a), s')
  | (.error (.trap cause ptr), s') => (.ok (.error (cause, if cause = .ecc then 0 else ptr)), s')
  | (.error x, s') => (.error x, s')

/-- Reads the frames of a stack from `d` downwards while the HBM region holds them: those read, and the depth below which the tier does. A
frame that is to be hot is read or its error raised; another one that fails is lost, with those below it. -/
def bindHbm (c : Nat) : Nat → Nat → Nat → Nat → Stack → M (Stack × Nat × Nat)
  | 0, _, d, top, st => pure (st, d, top)
  | n + 1, hbm, d, top, st => do
    if d = noDepth ∨ top ≤ d then pure (st, d, 0)
    else
      let s ← get
      match s.kept (s.core c).ctx.asid st.id d (top - d) with
      | .gone cause => pure (← lose st d top cause 0, d, 0)
      | .bytes bs =>
        let st1 := { st with bytes := putStackBytes st.bytes d bs }
        bindHbm c n (hbm - (top - d)) (frPrev (st1.hdr d)) d st1
      | .none =>
        if hbm < top - d then pure (st, d, top)
        else match ← spillAsk (getHbm c st ((top - d) / 64) d) with
          | .error (cause, ptr) => pure (← lose st d top cause ptr, d, 0)
          | .ok bs =>
            let st1 := { st with bytes := putStackBytes st.bytes d bs }
            bindHbm c n (hbm - (top - d)) (frPrev (st1.hdr d)) d st1

/-- Reads the frames of the tier area, in push order, up to depth `top`; the topmost of them lies at `high`. -/
def bindTier (c high : Nat) : Nat → Nat → Nat → Nat → Stack → M Stack
  | 0, _, _, _, st => pure st
  | n + 1, off, d, top, st => do
    if top ≤ d then pure st
    else
      let s ← get
      let k := s.core c
      match s.kept k.ctx.asid st.id d (min 65536 (top - d)) with
      | .gone cause => lose st high top cause 0
      | .bytes bs =>
        let st1 := { st with bytes := putStackBytes st.bytes d bs }
        bindTier c high n (off + (tierFrame (st1.frameBytes d)).length) (d + max 64 (frSize (st1.hdr d))) top st1
      | .none =>
        let pa := (s.part k.ctx.part).tbase + st.xoff + off
        await c pa
        match (if s.storagePath pa then .error .rights else if isHostPath pa then s.tierFrameAt pa else .error .ecc) with
        | .ok (bs, m) => bindTier c high n (off + m) (d + max 64 bs.length) top { st with bytes := putStackBytes st.bytes d bs }
        | .error e => do
          if e == .ecc then modify (fun s => s.countEcc pa)
          lose st high top (if e = .rights then .rights else if e = .keygone then .keygone else .ecc) 0

/-- Offsets of the region that hold no frame's byte, when the frames in it lie between two depths. -/
def Stack.vacant (st : Stack) (low o : Nat) : Bool := st.depth - low ≤ (o + st.hlen - low % st.hlen) % st.hlen

/-- R284: from the binding on, what is no frame's byte of a page of the region reads zero. `va` and `o` are the page's address and its offset in
the region; a page that is not there, or whose key is not, stays. -/
def clearVacant (c : Nat) (st : Stack) (low va o : Nat) : M Unit := do
  let s ← get
  match s.leafAt c va .rd with
  | .leaf e level _ =>
    let pa := leafPa e level va
    match s.keyMat (pteKey e) with
    | some mat =>
      if ptePull e || !leafGrants .wr e || s.paWaits pa || isHostPath pa then pure ()
      else
        let free := fun (a : Nat) => st.vacant low (o + (a - pa))
        let lines := (upTo 256).filter (fun i => (upTo 4).all (fun j => free (pa + 256 * i + 64 * j)))
        set { s with
          mem := s.mem.filter (fun x => !(pa ≤ x.1 && x.1 < pa + 65536 && free x.1))
          lines := lines.foldl (fun m i =>
            let x := SMap.get LineSt.zero m (pa / 256 + i)
            if x.poison || x.ecc then m else SMap.set .zero m (pa / 256 + i) { x with code := 0, mat := mat }) s.lines }
    | none => pure ()
  | _ => pure ()

def clearPages (c : Nat) (st : Stack) (low base : Nat) : Nat → Nat → M Unit
  | 0, _ => pure ()
  | n + 1, i => do
    clearVacant c st low (base + 65536 * i) (65536 * i)
    clearPages c st low base n (i + 1)

/-- R287 steps 2 and 3: binds stack `v`. -/
def bindStack (c v : Nat) : M Unit := do
  let k ← getCore c
  let ptr := BitVec.ofNat 64 (k.slot.rstab.toNat + 64 * v)
  if k.slot.rstab = 0 || isBailiff c || 4095 < v then trap .rights ptr
  else
    let off := ptrOffset ptr
    let l ← checkSpan c .scalar .rdwr ptr off (off + 63)
    match l with
    | .glob _ => pure ()
    | _ => trap .rights ptr
    if off % 64 ≠ 0 then trap .align ptr
    -- the read and the write of `BUSY` are one step at the home slice
    flushSpan c l true off (off + 63)
    let bs ← homeRead c l .rdwr ptr off 64
    let e := BitVec.ofNat 512 (leNat bs)
    let st := Stack.ofEntry v ptr e
    if !e.getLsbD 112 || e.getLsbD 113 || st.hlen = 0 || st.hlen % 65536 ≠ 0 || fld e 114 14 ≠ 0 || fld e 176 16 ≠ 0 || fld e 240 16 ≠ 0 ||
       fld e 288 32 ≠ 0 || fld e 368 16 ≠ 0 || fld e 432 80 ≠ 0 then trap .rights ptr
    homeStore c l .rdwr ptr off (natBytes 64 (stackEntry st true))
    let (st1, high, low) ← bindHbm c (st.nfr + 1) st.hlen st.topf st.depth st
    let st2 ← bindTier c high (st.nfr + 1) 0 0 low st1
    let o := ptrOffset st.hbase
    match ← quiet (checkSpan c .copy .wr st.hbase o (o + st.hlen - 1)) with
    | some (.glob b) => if o % 65536 = 0 && st2.lost = 0 then clearPages c st2 low (bufBase b + o) (st.hlen / 65536) 0
    | _ => pure ()
    modCore c (fun k => { k with res := { k.res with stack := some ({ st2 with gen := k.loc.binds } : Stack).warm } })

end Sys2Proof.Machine
end

