-- ==== Sys2Proof/Machine/Launch.lean ====
section
/-! DEFINITION. Launches (R32 to R55): the record and its judgement, acceptance, the treeline, the end of a launch and the killing of its
points, the journal (R440, R441). -/

namespace Sys2Proof.Machine

-- ### Completion words (R244, R245)

/-- R244: a completion word. -/
def cword (status detail count : Nat) : Word := BitVec.ofNat 64 (status + atBit (detail % 256) 8 + atBit 1 23 + atBit (count % 2 ^ 40) 24)
/-- The word of an entry that completed normally. -/
def wordOk (count : Nat) : Word := cword 0 0 count
/-- R156: the word of a predicated-off unit. -/
def wordSkip : Word := cword 1 0 0

-- ### The launch record (R32)

def rcEntry (r : BitVec 2048) : Word := r.extractLsb' 0 64
def rcArgs (r : BitVec 2048) : Word := r.extractLsb' 64 64
def rcHtab (r : BitVec 2048) : Word := r.extractLsb' 128 64
def rcCtab (r : BitVec 2048) : Word := r.extractLsb' 192 64
def rcRstab (r : BitVec 2048) : Word := r.extractLsb' 256 64
def rcCwaddr (r : BitVec 2048) : Word := r.extractLsb' 320 64
/-- The extents (field + 1). -/
def rcEx (r : BitVec 2048) : Nat := fld r 384 24 + 1
def rcEy (r : BitVec 2048) : Nat := fld r 416 24 + 1
def rcEz (r : BitVec 2048) : Nat := fld r 448 24 + 1
def rcNdim (r : BitVec 2048) : Nat := fld r 480 2
def rcNdep (r : BitVec 2048) : Nat := fld r 482 3
def rcPrio (r : BitVec 2048) : Nat := fld r 485 2
def rcWeight (r : BitVec 2048) : Nat := fld r 487 4
def rcRestart (r : BitVec 2048) : Bool := r.getLsbD 491
def rcIrq (r : BitVec 2048) : Bool := r.getLsbD 492
def rcXvalid (r : BitVec 2048) : Bool := r.getLsbD 493
/-- Dependence vector n: (dx, dy, dz). -/
def rcDep (r : BitVec 2048) (n : Nat) : Int × Int × Int :=
  (sextNat (fld r (512 + 64 * n) 16) 16, sextNat (fld r (528 + 64 * n) 16) 16, sextNat (fld r (544 + 64 * n) 16) 16)
def rcDepBits (r : BitVec 2048) (n : Nat) : Nat := fld r (512 + 64 * n) 64
def rcXpred (r : BitVec 2048) : Nat := fld r 768 32
def rcHplace (r : BitVec 2048) : BitVec 16 := r.extractLsb' 800 16
def rcCsneed (r : BitVec 2048) : Nat := fld r 816 16
def rcDrain (r : BitVec 2048) : Nat := fld r 832 16
def rcMsix (r : BitVec 2048) : Nat := fld r 848 11

/-- R33 condition 4 for one vector. -/
def depOk (r : BitVec 2048) (n : Nat) : Bool :=
  let d := rcDep r n
  (0 < d.2.2 || (d.2.2 == 0 && (0 < d.2.1 || (d.2.1 == 0 && 0 < d.1)))) &&
  (2 ≤ rcNdim r || d.2.1 == 0) && (3 ≤ rcNdim r || d.2.2 == 0)

/-- R33 condition 7: the reserved fields are zero. -/
def rcReservedZero (r : BitVec 2048) : Bool :=
  fld r 408 8 == 0 && fld r 440 8 == 0 && fld r 472 8 == 0 && fld r 494 18 == 0 &&
  (upTo 4).all (fun n => fld r (560 + 64 * n) 16 == 0) && fld r 859 5 == 0 && fld r 864 1184 == 0

-- ### Accesses the hayward makes in a context

/-- The number of the scratch core through which the hayward makes accesses in a context of partition `p`. -/
def hayCore (p : Nat) : Nat := 512 + p

/-- Runs accesses in a context, with the descriptor as it stands at home (R339), and forgets the scratch core. -/
def inContext {α : Type} (p asid : Nat) (m : Nat → M α) (s : State) : Except Stop α × State :=
  let c := hayCore p
  let s1 := s.setCore c { CoreSt.cold with ctx := { CoreSt.cold.ctx with asid := asid, part := p, desc := s.descFor p asid } }
  let r := m c { s1 with author := none }
  (r.1, { r.2.setCore c .cold with author := s.author })

/-- A pointer into a global buffer (not a window or a reserved index). -/
def isGlobal (p : Word) : Bool := ptrIndex p ≤ 0xFEFF

/-- R33 condition 8 on the context: steps 1 to 4 of R59 as an 8-byte write. The buffer entry may have to be waited for (R428, R431). -/
def cwOk (p asid : Nat) (ptr : Word) : M Bool := do
  if isGlobal ptr && ptrOffset ptr % 8 == 0 then
    pure (← quiet (inContext p asid (fun c => checkSpan c .scalar .wr ptr (ptrOffset ptr) (ptrOffset ptr + 7)))).isSome
  else pure false

/-- R34: the reason code of the first failing condition of R33 among the first seven, in the table's order; 0 when none fails. A vector beyond
`NDEP` fails condition 3 with all its 64 bits (log entry 88). -/
def rejectCode (s : State) (p : Nat) (r : BitVec 2048) : Nat :=
  let pt := s.part p
  if rcNdim r = 0 || (rcNdim r = 1 && (rcEy r ≠ 1 || rcEz r ≠ 1)) || (rcNdim r = 2 && rcEz r ≠ 1) then 1
  else if 2 ^ 40 < rcEx r * rcEy r * rcEz r then 2
  else if 4 < rcNdep r || (upTo 4).any (fun n => if n < rcNdep r then !depOk r n else rcDepBits r n != 0) then 3
  else if rcWeight r = 0 || (rcHplace r &&& pt.hset) = 0 then 4
  else if 1472 < rcCsneed r then 5
  else if rcXvalid r && (rcXpred r = 0 || pt.nextLid ≤ rcXpred r ||
      pt.launches.any (fun l => l.lid == rcXpred r && (rcNdim l.rec_ != rcNdim r || rcEx l.rec_ != rcEx r || rcEy l.rec_ != rcEy r ||
        rcEz l.rec_ != rcEz r))) then 6
  else if !rcReservedZero r then 7
  else 0

/-- R33, R34: a record is judged: its reason code, 0 when it is well formed. -/
def judge (p asid : Nat) (r : BitVec 2048) : M Nat := do
  let code := rejectCode (← get) p r
  if code ≠ 0 then pure code
  else do
    let ok ← cwOk p asid (rcCwaddr r)
    pure (if ok then 0 else 8)

-- ### The treeline (R36 to R41, R53 to R55)

def TreeLine.empty : TreeLine := ⟨[], [], 0, 0, 0⟩
def TreeLine.fAt (t : TreeLine) (ex : Nat) (row : Nat) : Nat := if row < t.floor then ex else SMap.get 0 t.f row
def TreeLine.aAt (t : TreeLine) (row : Nat) : BitVec 64 := SMap.get 0 t.a row

/-- The row of a point (R36). -/
def rowOf (r : BitVec 2048) (y z : Nat) : Nat := y + rcEy r * z
def rowCount (r : BitVec 2048) : Nat := rcEy r * rcEz r

/-- R38: point (inner, row) is done. -/
def TreeLine.done (t : TreeLine) (ex inner row : Nat) : Bool :=
  let f := t.fAt ex row
  inner < f || (inner - f < 64 && (t.aAt row).getLsbD (inner - f))

/-- Raises the floor past complete rows, at most `fuel` of them. -/
def raiseFloor (f : SMap Nat) (ex rows : Nat) : Nat → Nat → Nat
  | 0, fl => fl
  | n + 1, fl => if fl < rows ∧ SMap.get 0 f fl = ex then raiseFloor f ex rows n (fl + 1) else fl

/-- The consecutive ones of a bitmap from bit 0. -/
def onesFrom (a : BitVec 64) : Nat → Nat → Nat
  | 0, k => k
  | n + 1, k => if a.getLsbD k then onesFrom a n (k + 1) else k

/-- R41: the treeline after a completion. Rows below the floor are complete and are not listed. -/
def TreeLine.complete (t : TreeLine) (ex rows inner row : Nat) : TreeLine :=
  let f0 := t.fAt ex row
  let a := t.aAt row ||| (1#64 <<< (inner - f0))
  let n := onesFrom a 64 0
  let f := SMap.set 0 t.f row (f0 + n)
  let as := SMap.set 0 t.a row (a >>> n)
  let high := if t.high ≤ row then row + 1 else t.high
  let floor := raiseFloor f ex rows (f.length + 1) t.floor
  { f := f.filter (fun e => floor ≤ e.1), a := as.filter (fun e => floor ≤ e.1), floor := floor, wbase := floor - floor % 64, high := high }

/-- R54: the rows that a saved treeline lists. -/
def TreeLine.listed (t : TreeLine) (ex : Nat) : List Nat :=
  ((upTo (t.high - t.floor)).map (fun i => t.floor + i)).filter (fun r => t.fAt ex r < ex)

/-- The saved treeline (R53, R54): header and entries. -/
def Launch.saved (l : Launch) : List Byte :=
  let r := l.rec_
  let t := l.tl
  let rows := t.listed (rcEx r)
  let hdr := l.lid + atBit (rcNdim r) 32 + atBit (rcEx r - 1) 64 + atBit (rcEy r - 1) 96 + atBit (rcEz r - 1) 128 + atBit t.floor 160 +
    atBit t.wbase 200 + atBit t.high 240 + atBit rows.length 280
  natBytes 64 hdr ++ (rows.map (fun row => natBytes 16 (row + atBit (t.fAt (rcEx r) row) 40 + atBit (t.aAt row).toNat 64))).flatten

/-- The entries of a saved treeline. -/
def savedRows (bs : List Byte) (n : Nat) : List (Nat × Nat × Nat) :=
  (upTo n).map (fun i => let e := leNat ((bs.drop (64 + 16 * i)).take 16); (natBits e 0 40, natBits e 40 24, natBits e 64 64))

/-- Rows strictly rising. -/
def rowsRise : List Nat → Bool
  | a :: b :: r => a < b && rowsRise (b :: r)
  | _ => true

/-- R55: the treeline that an image defines for a launch; `none` is BADTL. An image whose `HIGH` lies past the launch's rows is refused too
(log entry 89). -/
def restoreTreeline (l : Launch) (bs : List Byte) : Option TreeLine :=
  let h := leNat (bs.take 64)
  let r := l.rec_
  let ex := rcEx r
  let floor := natBits h 160 40
  let wb := natBits h 200 40
  let high := natBits h 240 40
  let n := natBits h 280 16
  let es := savedRows bs n
  let ok := natBits h 0 32 == l.lid && natBits h 32 2 == rcNdim r && natBits h 64 24 == ex - 1 && natBits h 96 24 == rcEy r - 1 &&
    natBits h 128 24 == rcEz r - 1 && natBits h 34 30 == 0 && natBits h 88 8 == 0 && natBits h 120 8 == 0 && natBits h 152 8 == 0 &&
    natBits h 296 216 == 0 && floor ≤ high && high ≤ wb + 4096 && wb == floor - floor % 64 && n ≤ 4096 &&
    rowsRise (es.map (fun e => e.1)) && es.all (fun e => floor ≤ e.1 && e.1 < high && e.2.1 < ex && !e.2.2.testBit 0 &&
      (e.2.2 == 0 || e.2.1 + Nat.log2 e.2.2 < ex)) &&
    (high == floor || (match es with | e :: _ => e.1 == floor | [] => false)) && high ≤ rowCount r
  if ok then
    -- rows of the range that are not listed are complete
    let rows := (upTo (high - floor)).map (fun i => floor + i)
    let f := rows.foldl (fun m row => SMap.set 0 m row (match es.find? (fun e => e.1 == row) with | some e => e.2.1 | none => ex)) ([] : SMap Nat)
    let a := es.foldl (fun m e => SMap.set 0 m e.1 (BitVec.ofNat 64 e.2.2)) ([] : SMap (BitVec 64))
    some ⟨f, a, floor, wb, high⟩
  else none

-- ### The journal (R440, R441)

/-- Adds an entry to a partition's journal: the on-die copy, and the mirror ring when it is enabled. A write of the mirror waits for its stack
(R428, R431), behind earlier ones. -/
def journal (p kind stat det ctx place lid aux : Nat) (s : State) : State :=
  let j := (s.part p).jn
  let e := j.jnext + atBit kind 64 + atBit stat 72 + atBit det 80 + atBit ctx 88 + atBit place 98 + atBit lid 128 + atBit aux 160 +
    atBit s.cycle.toNat 192
  let s1 := s.modPart p (fun q => { q with jn := { q.jn with jnext := j.jnext + 1, entries := SMap.set 0 q.jn.entries (j.jnext % 256) (BitVec.ofNat 256 e) } })
  let a := j.jbase + 32 * (j.jnext % 2 ^ j.jlog)
  if !(6 ≤ j.jlog && j.jlog ≤ 16) then s1
  else if s1.paWaits a || !j.owed.isEmpty then s1.modPart p (fun q => { q with jn := { q.jn with owed := q.jn.owed ++ [(a, BitVec.ofNat 256 e)] } })
  else s1.physPut a (natBytes 32 e)

/-- The writes of a partition's mirror that waited, as far as their stacks are there now. -/
def payJournal (p : Nat) (s : State) : State :=
  let owed := (s.part p).jn.owed
  let now := owed.takeWhile (fun x => !s.paWaits x.1)
  (now.foldl (fun (a : State) x => a.physPut x.1 (natBytes 32 x.2.toNat)) s).modPart p (fun q => { q with jn := { q.jn with owed := q.jn.owed.drop now.length } })

-- ### Points on crofts

/-- The crofts of a partition (R445). -/
def Part.crofts (p : Part) : List Nat := (upTo 256).filter (fun c => p.hset.getLsbD (c / 16))
/-- The fields of a partition's hamlets. -/
def Part.fields (p : Part) : List Nat := (upTo 8).filter (fun f => p.hset.getLsbD (2 * f) || p.hset.getLsbD (2 * f + 1))

/-- Sets bits of `BEVT` on a bailiff (R326). -/
def setBevt (field : Nat) (bits : BitVec 4) (s : State) : State :=
  s.modCore (256 + field) (fun k => { k with ctl := { k.ctl with bevt := k.ctl.bevt ||| bits } })
/-- R326: a notice of the hayward on the bailiffs of a partition's fields. -/
def notifyHay (p : Nat) (s : State) : State := (s.part p).fields.foldl (fun a f => setBevt f 4 a) s

/-- Croft `c` runs or stages a point of launch `lid` of partition `p`. -/
def runsLaunch (s : State) (p lid c : Nat) : Bool :=
  let k := s.core c
  k.ctx.part == p && (match k.slot.running with | some q => q.lid == lid | none => false)

/-- The core's queues and trap state as a point that is gone leaves them; a staged point takes the running slot (R28). -/
def CoreSt.emptied (k : CoreSt) : CoreSt :=
  { k with pend := 0, hpend := 0, q := CoreSt.cold.q, res := CoreSt.cold.res,
           ctl := { k.ctl with priv := false, inHandler := false, halted := false },
           slot := { k.slot with running := k.slot.staged, staged := none, active := false, ending := false } }

/-- R362: a started entry that waits by its nature, and is held by a cut. -/
def waitsByNature (i : Instr) : Bool :=
  match i with
  | .rpush .. | .rpop .. | .gateWait .. | .chRecv .. => true
  | _ => false

/-- R362: an entry that a cut holds. -/
def Entry.heldByCut (e : Entry) : Bool := e.phase != .queued && (e.held || (waitsByNature e.op && e.phase == .waiting))

/-- R362 step 2: nothing but held entries is left of what had started. -/
def CoreSt.cutReady (k : CoreSt) : Bool := k.q.es.all (fun e => e.phase == .queued || e.heldByCut || e.qs.isEmpty)

/-- The mark of a kill, among traps. -/
def killTrap : TrapRec := ⟨.preempt, 2, 0, 0, 0, 0, false⟩

def State.launch? (s : State) (p lid : Nat) : Option Launch := (s.part p).launches.find? (fun l => l.lid == lid)

def modLaunch (p lid : Nat) (f : Launch → Launch) (s : State) : State :=
  s.modPart p (fun q => { q with launches := q.launches.map (fun l => if l.lid = lid then f l else l) })

/-- Crofts on which points of a launch run. -/
def State.runners (s : State) (p lid : Nat) : List Nat := (s.part p).crofts.filter (fun c => runsLaunch s p lid c && (s.core c).slot.active)

/-- R52, R365: a point of a partition is gone: it counts among its launch's timed-out ones no more, and no token of its `LAUNCH`es is written. -/
def forgetPoint (p : Nat) (pt : Point) (s : State) : State :=
  (modLaunch p pt.lid (fun l => { l with timedOut := l.timedOut.filter (fun x => x != pt) }) s).modPart p (fun q =>
    { q with deferred := q.deferred.map (fun d => if d.pt == some pt then { d with pt := none } else d) })

/-- R373, R290: what had started on a croft has completed: its point dies, and with it the entries that have not started and those that are held.
Its stack is unbound and its L1 drained; its writes stay. -/
def killNow (c : Nat) (s : State) : State :=
  let k := s.core c
  match (do
      modCore c (fun k => { k with q := { k.q with es := [], heldEs := [] } })
      let _ ← quiet (unbindStack c false)
      quiet (drainL1 c) : M (Option Unit)) s with
  | (.ok _, s1) =>
    let s2 := s1.modCore c CoreSt.emptied
    match k.slot.running with
    | some pt => forgetPoint k.ctx.part pt s2
    | none => s2
  | (.error _, s1) => s.heldBack s1

/-- R362, R373: the point on a croft is killed, by a cut that no trap entry follows. A point that was placed and has not started leaves its
slot. -/
def killPoint (c : Nat) (s : State) : State :=
  if !(s.core c).slot.active then s.modCore c (fun k => { k with slot := { k.slot with running := k.slot.staged, staged := none } })
  else
    let s1 := s.modCore c (fun k => { k with q := { k.q with trap := some killTrap } })
    if (s1.core c).cutReady then killNow c s1 else s1

/-- Withdraws the staged points of a launch (R44). -/
def withdraw (p lid : Nat) (s : State) : State :=
  (s.part p).crofts.foldl (fun a c => a.modCore c (fun k => match k.slot.staged with
    | some q => if k.ctx.part == p && q.lid == lid then { k with slot := { k.slot with staged := none } } else k
    | none => k)) s

/-- R44, R372: the staged points of a launch, and those placed and not started, return to not fired. -/
def withdrawAll (p lid : Nat) (s : State) : State :=
  (s.part p).crofts.foldl (fun a c => if runsLaunch a p lid c && !(a.core c).slot.active then killPoint c a else a) (withdraw p lid s)

/-- Kills every running point of a launch and withdraws its staged ones. -/
def killPoints (p lid : Nat) (s : State) : State :=
  (s.part p).crofts.foldl (fun a c => if runsLaunch a p lid c then killPoint c a else a) (withdraw p lid s)

-- ### Pre-emption commands (R371)

/-- The index of a context within its partition. -/
def State.ctxIndex (s : State) (p asid : Nat) : Nat := asid - (s.part p).tb.asidbase

/-- R371: a store to `PCMD`; answers whether a command starts. What it names is noted as it stands (R440). -/
def startCmd (p lid op : Nat) (s : State) : Bool × State :=
  let b := (s.part p).pb
  if b.busy || op = 0 || 5 < op then (false, s)
  else
    let (cctx, cplace) := match s.launch? p lid with | some l => (s.ctxIndex p l.asid + 1, l.place) | none => (0, b.place)
    (true, s.modPart p (fun q => { q with pb := { q.pb with slid := lid, sop := op, busy := true, cctx := cctx, cplace := cplace } }))

/-- R371, R440: the command in progress ends. -/
def endCmd (p res : Nat) (s : State) : State :=
  let b := (s.part p).pb
  if !b.busy then s
  else
    let s1 := journal p 3 res 0 (b.cctx - 1) b.cplace b.slid 0 s
    notifyHay p (s1.modPart p (fun q => { q with pb := { q.pb with busy := false, res := res, place := b.cplace, cctx := 0, cplace := 0 } }))

/-- The command in progress is this one. -/
def State.inCmd (s : State) (p lid op : Nat) : Bool := let b := (s.part p).pb; b.busy && b.slid == lid && b.sop == op

/-- A migration command ends (R399, R440). -/
def endMig (p res : Nat) (s : State) : State :=
  notifyHay p ((journal p 4 res 0 0 0 0 0 s).modPart p (fun q => { q with mg := { q.mg with busy := false, cmd := 0, res := res } }))

-- ### Acceptance and end

/-- R50 step 1: the completion word at `CWADDR`, when its page and stack are there; when the write fails, be it for RIGHTS or BOUNDS under a buffer entry
or a leaf that has changed since the acceptance, the word is lost (log entry 110). -/
def writeCw (p asid : Nat) (ptr : Word) (w : Word) : M Unit := do
  let off := ptrOffset ptr
  let _ ← quiet (inContext p asid (fun c => do
    let l ← checkSpan c .copy .wr ptr off (off + 7)
    homeStore c l .wr ptr off (natBytes 8 w.toNat)))

/-- R411: raises an MSI-X vector of a virtual function, which has 64 (log entry 98). -/
def raiseMsix (vf vec : Nat) (s : State) : State := if vec < 64 then { s with msix := s.msix ++ [(vf, vec)] } else s

/-- R50: one launch ends: word, interrupt, journal, place. -/
def endOne (p : Nat) (l : Launch) (status detail : Nat) : M Unit := do
  writeCw p l.asid (rcCwaddr l.rec_) (cword status detail l.lid + (if l.cap then 0x10000 else 0))
  modify (fun s =>
    let s1 := if rcIrq l.rec_ then raiseMsix l.vf (rcMsix l.rec_) s else s
    let s2 := journal p 2 status detail (s1.ctxIndex p l.asid) l.place l.lid 0 s1
    s2.modPart p (fun q => { q with
      launches := q.launches.filter (fun x => x.lid != l.lid)
      deferred := q.deferred.map (fun d => match d.pt with
        | some pt => if pt.lid = l.lid then { d with pt := none } else d
        | none => d) }))

/-- R371 to R375, R400: commands that end with a launch. `cut` says that it ended because KILL named it or the cut pool ran short. -/
def endsCommand (p lid : Nat) (cut : Bool) (s : State) : State :=
  if (s.part p).pb.busy && (s.part p).pb.slid == lid then
    endCmd p (if !cut then 1 else if (s.part p).pb.sop = 5 then 0 else if (s.part p).pb.sop = 1 then 4 else 1) s
  else if cut && (s.part p).mg.st == .freezing && (s.part p).mg.cmd == 2 then endMig p 4 s
  else s

/-- R49, R50: a launch begins to end: it fires no more, and its points are killed. One that is ending already ends as it was to. -/
def beginEnd (p lid status detail : Nat) (s : State) : State :=
  match s.launch? p lid with
  | none => s
  | some l =>
    if l.ended.isSome then s
    else killPoints p lid (modLaunch p lid (fun l => { l with st := .ending, ended := some (status, detail) }) s)

/-- R50: an ending launch ends once none of its points runs and its word can be written; when it fails, the launches that follow it across
launches end with PREDERR. At most 64 are active. -/
def endLaunch (p lid : Nat) : Nat → State → State
  | 0, s => s
  | n + 1, s =>
    match s.launch? p lid with
    | none => s
    | some l =>
      match l.ended with
      | none => s
      | some (status, detail) =>
        if !(s.runners p lid).isEmpty then s
        else match endOne p l status detail s with
          | (.error _, s1) => s.heldBack s1
          | (.ok (), s1) =>
            let s2 := endsCommand p lid (status == 3 && detail == Cause.preempt.code) s1
            if status = 0 then s2
            else ((s2.part p).launches.filter (fun x => rcXvalid x.rec_ && rcXpred x.rec_ == lid)).foldl
              (fun a x => endLaunch p x.lid n (beginEnd p x.lid 4 0 a)) s2

/-- R50: ends a launch with a status and a detail. -/
def finishLaunch (p lid status detail : Nat) (s : State) : State := endLaunch p lid 64 (beginEnd p lid status detail s)

/-- Launches of a partition that are ending go on. -/
def stepEnds (p : Nat) (s : State) : State := ((s.part p).launches.filter (fun l => l.ended.isSome)).foldl (fun a l => endLaunch p l.lid 64 a) s

/-- A suspension that waits for the last point of a launch goes on (R372). -/
def drainsOn (p lid : Nat) (s : State) : State :=
  match s.launch? p lid with
  | some l => if l.st == .draining && s.eager then { s with agenda := s.agenda ++ [.command p] } else s
  | none => s

/-- R373: a kill ends once what had started on its croft has completed, and an ending launch with its last point. -/
def tryKill (c : Nat) (s : State) : State :=
  let k := s.core c
  if k.q.trap == some killTrap && k.cutReady then
    let s1 := stepEnds k.ctx.part (killNow c s)
    match k.slot.running with
    | some pt => drainsOn k.ctx.part pt.lid s1
    | none => s1
  else s

/-- R368, R354: every active launch of a context ends with status FAULT. -/
def faultContext (p asid : Nat) (cause : Cause) (s : State) : State :=
  ((s.part p).launches.filter (fun l => l.asid == asid)).foldl (fun a l => finishLaunch p l.lid 3 cause.code a) s

/-- The lowest free place (R371). -/
def freePlace (ls : List Launch) : Nat := ((upTo 64).find? (fun n => !ls.any (fun l => l.place == n))).getD 0

/-- R35: accepts a well-formed record; answers its id. `aux` is the journal's ring slot. The 2^24 cycles of R43 run from here until a first
point is dispatched (log entry 90). -/
def accept (p : Nat) (d : Deferred) (aux : Nat) (s : State) : Nat × State :=
  let q := s.part p
  let lid := q.nextLid
  let place := freePlace q.launches
  let l : Launch := { lid := lid, asid := d.asid, rec_ := d.rec_, place := place, tl := .empty, st := .running, credit := rcWeight d.rec_,
                      age := s.cycle.toNat, cutPts := [], timedOut := [], dhalt := false, cap := false, vf := d.vf, ended := none, restore := none }
  let s1 := s.modPart p (fun q => { q with launches := q.launches ++ [l], nextLid := (q.nextLid + 1) % 2 ^ 32 })
  (lid, journal p 1 0 0 (s1.ctxIndex p d.asid) place lid aux s1)

/-- R34: a record is refused. No word is written for BADCW, nor at a place that fails condition 8 (log entry 87); a word whose write then fails is lost
(log entry 110). -/
def reject (p : Nat) (d : Deferred) (code : Nat) : M Unit := do
  let ok ← (if code = 8 then pure false else cwOk p d.asid (rcCwaddr d.rec_) : M Bool)
  if ok then writeCw p d.asid (rcCwaddr d.rec_) (cword 2 code 0)
  if rcIrq d.rec_ then modify (raiseMsix d.vf (rcMsix d.rec_))

end Sys2Proof.Machine
end

