-- ==== Sys2Proof/Machine/Num.lean ====
section
/-! DEFINITION. Number formats and exact arithmetic (R84 to R104): values as exact reals, decoding, the one rounding function, plane form,
and the operations of the vector engine and the loom on them. -/

namespace Sys2Proof

/-- An exact value: NaN, an infinity, or (−1)^neg × m × 2^e; m = 0 is a zero of its sign. -/
inductive Val where
  | nan
  | inf (neg : Bool)
  | fin (neg : Bool) (m : Nat) (e : Int)
deriving DecidableEq, Repr

def Val.zero : Val := .fin false 0 0

-- ### Formats (R84, R85, R90)

/-- Element width of a format code; 0 for a code without one. -/
def fmtWidth (f : Nat) : Nat :=
  match f with
  | 0x01 | 0x04 | 0x07 | 0x0D => 32
  | 0x02 | 0x03 | 0x05 | 0x08 => 16
  | 0x06 | 0x09 => 8
  | 0x0A => 10 | 0x0B => 12 | 0x0C => 14 | 0x0E => 1
  | _ => 0

/-- Plane-form codes (R98). -/
def isPlane (f : Nat) : Bool := 0x40 ≤ f && f ≤ 0x7F
def planeN (f : Nat) : Nat := f % 16 + 1
def planeG (f : Nat) : Nat := 16 * 2 ^ (f / 16 % 4)
/-- A defined code (R84) other than 0x00. -/
def fmtDefined (f : Nat) : Bool := (1 ≤ f && f ≤ 0x0E) || isPlane f
def isFloat (f : Nat) : Bool := f == 1 || f == 2 || f == 3 || f == 0xD
def isSigned (f : Nat) : Bool := f == 4 || f == 5 || f == 6

/-- Fraction bits, exponent bits, bias, and the position of the fraction in the container (R85). -/
structure FloatFmt where
  frac : Nat
  expo : Nat
  bias : Nat
  low : Nat

def floatFmt (f : Nat) : FloatFmt :=
  match f with
  | 0x02 => ⟨7, 8, 127, 0⟩
  | 0x03 => ⟨10, 5, 15, 0⟩
  | 0x0D => ⟨17, 8, 127, 6⟩
  | _ => ⟨23, 8, 127, 0⟩

def FloatFmt.emin (f : FloatFmt) : Int := 1 - (f.bias : Int)
def FloatFmt.emax (f : FloatFmt) : Int := f.bias
def FloatFmt.width (f : FloatFmt) : Nat := f.low + f.frac + f.expo + 1

/-- R85, R86, R88: the value of a float container; `flush` reads subnormals as zeros (R87). ACC26 has no subnormals. -/
def decodeFloat (f : Nat) (flush : Bool) (x : Nat) : Val :=
  let q := floatFmt f
  let neg := x.testBit (q.width - 1)
  let e := natBits x (q.low + q.frac) q.expo
  let fr := natBits x q.low q.frac
  if e = 2 ^ q.expo - 1 then (if fr = 0 then .inf neg else .nan)
  else if e = 0 then (if fr = 0 || flush || f = 0x0D then .fin neg 0 0 else .fin neg fr (q.emin - q.frac))
  else .fin neg (2 ^ q.frac + fr) ((e : Int) - q.bias - q.frac)

/-- The value of an integer. -/
def Val.ofInt (x : Int) : Val := .fin (x < 0) x.natAbs 0

/-- R84 to R91: the value of an element's bits. -/
def decodeFmt (f : Nat) (flush : Bool) (x : Nat) : Val :=
  if isFloat f then decodeFloat f flush x
  else if isSigned f then Val.ofInt (sextNat x (fmtWidth f))
  else Val.ofInt (natBits x 0 (fmtWidth f) : Nat)

-- ### Rounding (R92 to R95)

/-- R95: the 16-bit noise of seed `s` and index `i`. -/
def srNoise (s i : Nat) : Nat :=
  let m := 2 ^ 32
  let h := (s % m) ^^^ (i * 0x9E3779B9 % m)
  let h := h ^^^ (h >>> 16)
  let h := h * 0x85EBCA6B % m
  let h := h ^^^ (h >>> 13)
  let h := h * 0xC2B2AE35 % m
  let h := h ^^^ (h >>> 16)
  h >>> 16

/-- A rounding mode with what stochastic rounding needs: seed and index. -/
structure Mode where
  rm : Rm
  seed : Nat
  idx : Nat

def Mode.rne : Mode := ⟨.rne, 0, 0⟩

/-- R94 on m × 2^−sh. -/
def rndShift (md : Mode) (m sh : Nat) : Nat :=
  let t := m >>> sh
  let r := m % 2 ^ sh
  match md.rm with
  | .rtz => t
  | .rne => if 2 ^ sh < 2 * r ∨ (2 * r = 2 ^ sh ∧ t % 2 = 1) then t + 1 else t
  | .sr => if 65536 ≤ (r * 65536) >>> sh + srNoise md.seed md.idx then t + 1 else t

/-- R94 on m × 2^d. -/
def rndAt (md : Mode) (m : Nat) (d : Int) : Nat := if 0 ≤ d then m <<< d.toNat else rndShift md m (-d).toNat

/-- The canonical NaN of a float format (R86). -/
def canonNaN (f : Nat) : Nat :=
  match f with
  | 0x02 => 0x7FC0
  | 0x03 => 0x7E00
  | _ => 0x7FC00000

/-- A float container from sign, exponent field and fraction. -/
def packFloat (f : Nat) (neg : Bool) (e fr : Nat) : Nat :=
  let q := floatFmt f
  (fr <<< q.low) + (e <<< (q.low + q.frac)) + (if neg then 2 ^ (q.width - 1) else 0)

/-- R93: rounds to a float format; `flush` yields zero below 2^emin (R87). -/
def roundFloat (f : Nat) (flush : Bool) (md : Mode) (neg : Bool) (m : Nat) (e : Int) : Nat :=
  let q := floatFmt f
  if m = 0 then packFloat f neg 0 0
  else
    let top : Int := e + Nat.log2 m
    let ue : Int := if flush then top else max top q.emin
    let ulp : Int := ue - q.frac
    let t := rndAt md m (e - ulp)
    -- t × 2^ulp; a carry out of the precision raises the exponent by one
    let t' := if 2 ^ (q.frac + 1) ≤ t then t / 2 else t
    let ue' : Int := if 2 ^ (q.frac + 1) ≤ t then ue + 1 else ue
    if q.emax < ue' then (if md.rm = .rtz then packFloat f neg (2 ^ q.expo - 2) (2 ^ q.frac - 1) else packFloat f neg (2 ^ q.expo - 1) 0)
    else if t' < 2 ^ q.frac then packFloat f neg 0 (if flush then 0 else t')
    else if ue' < q.emin then packFloat f neg 0 0
    else packFloat f neg (ue' + q.bias).toNat (t' - 2 ^ q.frac)

/-- The least and greatest value of an integer format (R90). -/
def intRange (f : Nat) : Int × Int :=
  let w := fmtWidth f
  if isSigned f then (-(2 ^ (w - 1) : Nat), (2 ^ (w - 1) : Nat) - 1) else (0, (2 ^ w : Nat) - 1)

/-- A clamp. -/
def clampInt (lo hi x : Int) : Int := if x < lo then lo else if hi < x then hi else x

/-- R92: `round(v, mode, fmt)`, as the bits of an element. ACC26 output is flushed; `flush` asks for it elsewhere (R87). -/
def roundFmt (f : Nat) (flush : Bool) (md : Mode) (v : Val) : Nat :=
  if isFloat f then
    match v with
    | .nan => canonNaN f
    | .inf neg => packFloat f neg (2 ^ (floatFmt f).expo - 1) 0
    | .fin neg m e => roundFloat f (flush || f = 0x0D) md neg m e
  else if f = 0x0E then
    match v with
    | .fin _ 0 _ => 0
    | _ => 1
  else
    let r := intRange f
    match v with
    | .nan => 0
    | .inf neg => wrapInt (fmtWidth f) (if neg then r.1 else r.2)
    | .fin neg m e =>
      let t : Int := rndAt md m e
      wrapInt (fmtWidth f) (clampInt r.1 r.2 (if neg then -t else t))

-- ### Exact operations

def Val.neg : Val → Val
  | .nan => .nan
  | .inf s => .inf (!s)
  | .fin s m e => .fin (!s) m e

/-- The exact sum, with IEEE's zero signs and infinities (R93, R103). -/
def Val.add (a b : Val) : Val :=
  match a, b with
  | .nan, _ | _, .nan => .nan
  | .inf s, .inf t => if s = t then .inf s else .nan
  | .inf s, _ => .inf s
  | _, .inf t => .inf t
  | .fin s m e, .fin t n f =>
    let u := min e f
    let x := m <<< (e - u).toNat
    let y := n <<< (f - u).toNat
    if m = 0 ∧ n = 0 then .fin (s && t) 0 0
    else if s = t then .fin s (x + y) u
    else if x = y then .fin false 0 0
    else if y < x then .fin s (x - y) u
    else .fin t (y - x) u

/-- The exact product; 0 × ∞ is NaN. -/
def Val.mul (a b : Val) : Val :=
  match a, b with
  | .nan, _ | _, .nan => .nan
  | .inf s, .inf t => .inf (s != t)
  | .inf s, .fin t n _ => if n = 0 then .nan else .inf (s != t)
  | .fin s m _, .inf t => if m = 0 then .nan else .inf (s != t)
  | .fin s m e, .fin t n f => .fin (s != t) (m * n) (e + f)

/-- v × 2^k. -/
def Val.scale (v : Val) (k : Int) : Val :=
  match v with
  | .fin s m e => .fin s m (e + k)
  | v => v

/-- The value is a zero. -/
def Val.isZero : Val → Bool
  | .fin _ 0 _ => true
  | _ => false

/-- a < b, as numbers; false when either is NaN. −0 and +0 are equal. -/
def Val.lt (a b : Val) : Bool :=
  match a, b with
  | .nan, _ | _, .nan => false
  | .inf s, .inf t => s && !t
  | .inf s, _ => s
  | _, .inf t => !t
  | .fin s m e, .fin t n f =>
    let u := min e f
    let x : Int := (m <<< (e - u).toNat : Nat)
    let y : Int := (n <<< (f - u).toNat : Nat)
    (if s then -x else x) < (if t then -y else y)

/-- a = b, as numbers. -/
def Val.eq (a b : Val) : Bool :=
  match a, b with
  | .nan, _ | _, .nan => false
  | a, b => !a.lt b && !b.lt a

-- ### FP32 shorthands

def f32 (x : Nat) : Val := decodeFloat 1 false x
def toF32 (v : Val) : Nat := roundFmt 1 false .rne v
def addF32 (x y : Nat) : Nat := toF32 ((f32 x).add (f32 y))
def mulF32 (x y : Nat) : Nat := toF32 ((f32 x).mul (f32 y))
/-- The sign inverted. A NaN stays the canonical NaN where an operation produces it. -/
def negF32 (x : Nat) : Nat := toF32 ((f32 x).neg)

/-- The sign bit of an FP32 pattern. -/
def signF32 (x : Nat) : Bool := x.testBit 31

/-- R204: the lesser of two FP32 values; −0 lies below +0; any NaN gives the canonical NaN. -/
def minF32 (x y : Nat) : Nat :=
  match f32 x, f32 y with
  | .nan, _ | _, .nan => canonNaN 1
  | a, b => if a.lt b then x else if b.lt a then y else if signF32 x then x else y
def maxF32 (x y : Nat) : Nat :=
  match f32 x, f32 y with
  | .nan, _ | _, .nan => canonNaN 1
  | a, b => if a.lt b then y else if b.lt a then x else if signF32 x then y else x

-- ### Correctly rounded functions (R205). Fixed point with 256 fraction bits; rounded once.

/-- ln 2 × 2^256, rounded down. -/
def ln2Fix : Nat := 0xB17217F7D1CF79ABC9E3B39803F2F6AF40F343267298B62D8A0D175B8BAAFA2B

/-- e^r − 1 for a fixed-point r below 1, by the power series: `k` is the next term's number, `t` the term before it. -/
def expm1Fix (r : Nat) : Nat → Nat → Nat → Nat
  | 0, _, _ => 0
  | n + 1, k, t =>
    let t' := ((t * r) >>> 256) / k
    t' + expm1Fix r n (k + 1) t'

/-- e^r − 1. -/
def expm1 (r : Nat) : Nat := expm1Fix r 80 1 (2 ^ 256)

/-- An exact value in fixed point, rounded towards zero. -/
def toFix (m : Nat) (e : Int) : Nat := if 0 ≤ e + 256 then m <<< (e + 256).toNat else m >>> (-(e + 256)).toNat

/-- Rounds a fixed-point value × 2^k, known to be inexact, to FP32. -/
def fixToF32 (neg : Bool) (x : Nat) (k : Int) : Nat := roundFloat 1 false .rne neg (2 * x + 1) (k - 257)

/-- 2^a. -/
def exp2F32 (x : Nat) : Nat :=
  match f32 x with
  | .nan => canonNaN 1
  | .inf neg => if neg then 0 else 0x7F800000
  | .fin neg m e =>
    if m = 0 then 0x3F800000
    else if 10 ≤ e + Nat.log2 m then (if neg then 0 else 0x7F800000)
    else
      let fx := toFix m e
      let whole : Int := (fx >>> 256 : Nat)
      let frac := fx % 2 ^ 256
      -- a negative argument −(w + f) is −(w + 1) + (1 − f) when f is not 0
      let n : Int := if neg then (if frac = 0 then -whole else -whole - 1) else whole
      let f := if neg && frac != 0 then 2 ^ 256 - frac else frac
      if f = 0 then roundFloat 1 false .rne false 1 n
      else fixToF32 false (2 ^ 256 + expm1 ((f * ln2Fix) >>> 256)) n

/-- The odd power series z + z³/3 + z⁵/5 + … in fixed point: half of ln((1 + z) / (1 − z)). -/
def atanhFix (z2 : Nat) : Nat → Nat → Nat → Nat
  | 0, _, _ => 0
  | n + 1, k, t => t / k + atanhFix z2 n (k + 2) ((t * z2) >>> 256)

/-- log2 of a mantissa m × 2^−l in [1, 2), in fixed point. -/
def log2Fix (m l : Nat) : Nat :=
  let one := 2 ^ l
  let z := ((m - one) <<< 256) / (m + one)
  ((2 * atanhFix ((z * z) >>> 256) 100 1 z) <<< 256) / ln2Fix

def log2F32 (x : Nat) : Nat :=
  match f32 x with
  | .nan => canonNaN 1
  | .inf neg => if neg then canonNaN 1 else 0x7F800000
  | .fin neg m e =>
    if m = 0 then 0xFF800000
    else if neg then canonNaN 1
    else
      let l := Nat.log2 m
      let k : Int := e + l
      if m = 2 ^ l then toF32 (Val.ofInt k)
      else
        let y := log2Fix m l
        -- k + y with y in (0, 1)
        if 0 ≤ k then fixToF32 false (k.toNat <<< 256 + y) 0 else fixToF32 true (((-k).toNat <<< 256) - y - 1) 0

/-- 1 / a. -/
def rcpF32 (x : Nat) : Nat :=
  match f32 x with
  | .nan => canonNaN 1
  | .inf neg => packFloat 1 neg 0 0
  | .fin neg m e =>
    if m = 0 then packFloat 1 neg 255 0
    else
      let q := 2 ^ 128 / m
      let exact := q * m = 2 ^ 128
      roundFloat 1 false .rne neg (2 * q + (if exact then 0 else 1)) (-e - 129)

/-- Integer square root, bit by bit from bit `n - 1` down. -/
def isqrt (x : Nat) : Nat → Nat → Nat
  | 0, r => r
  | n + 1, r => let r' := r + 2 ^ n; if r' * r' ≤ x then isqrt x n r' else isqrt x n r

/-- 1 / √a. -/
def rsqF32 (x : Nat) : Nat :=
  match f32 x with
  | .nan => canonNaN 1
  | .inf neg => if neg then canonNaN 1 else 0
  | .fin neg m e =>
    if m = 0 then packFloat 1 neg 255 0
    else if neg then canonNaN 1
    else
      -- a = m' × 4^h; 1/√a = √(2^256 / m') × 2^(−128 − h)
      let odd := e % 2 ≠ 0
      let m' := if odd then 2 * m else m
      let h := (if odd then e - 1 else e) / 2
      let q := 2 ^ 256 / m'
      let r := isqrt q 129 0
      let exact := r * r * m' = 2 ^ 256
      roundFloat 1 false .rne false (2 * r + (if exact then 0 else 1)) (-h - 129)

/-- tanh a. -/
def tanhF32 (x : Nat) : Nat :=
  match f32 x with
  | .nan => canonNaN 1
  | .inf neg => if neg then 0xBF800000 else 0x3F800000
  | .fin neg m e =>
    if m = 0 then packFloat 1 neg 0 0
    else if 4 ≤ e + Nat.log2 m then (if neg then 0xBF800000 else 0x3F800000)
    else if e + Nat.log2 m < -40 then packFloat 1 neg (natBits x 23 8) (natBits x 0 23)
    else
      let y := 2 * toFix m e
      -- e^y = 2^n × e^r
      let n := y / ln2Fix
      let r := y % ln2Fix
      let s := ((2 ^ 256 + expm1 r) <<< n) - 2 ^ 256
      fixToF32 neg ((s <<< 256) / (s + 2 ^ 257)) 0

-- ### Plane form (R98 to R101)

/-- A group in plane form: its scale byte and its elements' integers. -/
structure Group where
  e : Nat
  q : List Int
deriving DecidableEq, Repr

/-- floor(log2 |v|) + 127 of a finite nonzero value. -/
def Val.expo127 : Val → Option Int
  | .fin _ m e => if m = 0 then none else some (e + Nat.log2 m + 127)
  | _ => none

def Val.isFinite : Val → Bool
  | .fin .. => true
  | _ => false

/-- R101: a group of values with `n` planes; each value comes with its rounding mode. -/
def toGroup (n : Nat) (xs : List (Val × Mode)) : Group :=
  if xs.any (fun x => !x.1.isFinite) then ⟨255, xs.map (fun _ => 0)⟩
  else match (xs.filterMap (fun x => x.1.expo127)).max? with
    | none => ⟨0, xs.map (fun _ => 0)⟩
    | some emax =>
      let e := min 254 (max 1 (emax + 1))
      ⟨e.toNat, xs.map (fun x => match x.1 with
        | .fin neg m k =>
          let t : Int := rndAt x.2 m (k + ((n : Int) - 1) - (e - 127))
          clampInt (-(2 ^ (n - 1) : Nat)) ((2 ^ (n - 1) : Nat) - 1) (if neg then -t else t)
        | _ => 0)⟩

/-- R100: the value of an element of a group with `n` planes and tag scale `s`. -/
def groupVal (n : Nat) (s : Int) (e : Nat) (q : Int) : Val :=
  if e = 0 then .zero
  else if e = 255 then .nan
  else .fin (q < 0) q.natAbs ((e : Int) - 127 + s - ((n : Int) - 1))

/-- The product of a pair of groups (R103), as an ACC26 value. -/
def groupProduct (na nb : Nat) (sa sb : Int) (a b : Group) : Val :=
  if a.e = 255 || b.e = 255 then .nan
  else if a.e = 0 || b.e = 0 then .zero
  else
    let d := (a.q.zipWith (· * ·) b.q).foldl (· + ·) 0
    let c : Int := ((a.e : Int) - 127 + sa - ((na : Int) - 1)) + ((b.e : Int) - 127 + sb - ((nb : Int) - 1))
    decodeFloat 0xD false (roundFmt 0xD true .rne (.fin (d < 0) d.natAbs c))

/-- One step of R103 on W, H and cnt, with promotion interval `p`. The count stays within the range of R222, whose end no interval of R227 goes
past (log entry 96). -/
def accumulate (p : Nat) (d : Val) (h w cnt : Nat) : Nat × Nat × Nat :=
  let w1 := roundFmt 0xD true .rne ((decodeFloat 0xD false w).add d)
  if 0 < p ∧ cnt + 1 = p then (toF32 ((f32 h).add (decodeFloat 0xD false w1)), 0, 0) else (h, w1, min (cnt + 1) 256)

end Sys2Proof
end

