-- ==== Sys2Proof/Machine/Record.lean ====
section
/-! DEFINITION. The fields of a shape record (R69, R72) and the bytes of its elements. -/

namespace Sys2Proof.Machine

-- ### Shape records (R69 to R71)

def shPtr (r : BitVec 512) : Word := r.extractLsb' 0 64
def shFmt (r : BitVec 512) : Nat := fld r 64 8
def shBitoff (r : BitVec 512) : Nat := fld r 72 8
def shRank (r : BitVec 512) : Nat := fld r 80 8
def shOverlap (r : BitVec 512) : Bool := r.getLsbD 88
/-- R72: extent and stride of counter k; 1 and 0 at or beyond `RANK`. -/
def shE (r : BitVec 512) (k : Nat) : Nat := if k < shRank r then fld r (96 + 32 * k) 32 else 1
def shS (r : BitVec 512) (k : Nat) : Int := if k < shRank r then sextNat (fld r (288 + 32 * k) 32) 32 else 0

/-- The element count of a walk (R72). -/
def shCount (r : BitVec 512) : Nat := shE r 0 * shE r 1 * shE r 2 * shE r 3 * shE r 4 * shE r 5

def groupBytes (f : Nat) : Nat := planeN f * planeG f / 8

/-- The bytes of an element: its pieces are whole bytes. -/
def elemBytes (f : Nat) : Nat := if isPlane f then 1 + groupBytes f else fmtWidth f / 8
/-- The bytes of a tensor. -/
def shBytes (r : BitVec 512) : Nat := shCount r * elemBytes (shFmt r)

end Sys2Proof.Machine
end

