-- ==== Sys2Proof/Machine/Ops.lean ====
section
/-! DEFINITION. The queues of a core (R18 to R23, R107 to R112): issue, start and completion of entries, the scoreboard. Taking a trap (the
queue cut of R361 to R365, the stop record of R366, the entry of R367 to R369) and the return from it (R370). -/

namespace Sys2Proof

/-- Queue sizes (R18). -/
def QId.size : QId → Nat
  | .lq | .sq | .vq => 64
  | .mq => 16
  | .cq => 32

/-- Where a queue's slip depth lies in `QSLIP`, and how many bits it has (R144). -/
def QId.slipBit : QId → Nat
  | .lq => 0 | .sq => 8 | .vq => 16 | .mq => 24 | .cq => 32
def QId.slipBits : QId → Nat
  | .lq | .sq | .vq => 7
  | .mq => 5
  | .cq => 6

/-- `FQ` of R366. -/
def QId.fq : QId → Nat
  | .lq => 1 | .sq => 2 | .vq => 3 | .mq => 4 | .cq => 5

/-- The role that starts a queue's entries (R371). -/
def QId.role : QId → Nat
  | .lq | .sq => 1
  | .vq => 2
  | .mq => 3
  | .cq => 4

/-- The slot on which a word's bytes are outstanding until it is acknowledged (R269, R407): the words that send a tensor. -/
def Instr.sendsOn : Instr → Option CReg
  | .chSend _ _ ch _ | .chPut _ _ ch _ _ _ _ | .chMcast _ _ ch _ _ _ _ => some ch
  | _ => none

/-- R109, R122: a barrier whose action is its request and what answers it; the others of R265 and R329 let later entries start once
their request is dispatched. -/
def Instr.holdsOrder : Instr → Bool
  | .acqP .. => true
  | _ => false

end Sys2Proof

namespace Sys2Proof.Machine

-- ### Queues

/-- The slip depth in force (R19, R325). -/
def CoreSt.slip (k : CoreSt) (q : QId) : Nat := fld k.ctl.qslip q.slipBit q.slipBits

def Counts.at (n : Counts) : QId → Nat
  | .lq => n.lq | .sq => n.sq | .vq => n.vq | .mq => n.mq | .cq => n.cq

/-- One more entry of a queue, mod 2^32 (R361). -/
def Counts.bump (n : Counts) (q : QId) : Counts :=
  match q with
  | .lq => { n with lq := (n.lq + 1) % 2 ^ 32 }
  | .sq => { n with sq := (n.sq + 1) % 2 ^ 32 }
  | .vq => { n with vq := (n.vq + 1) % 2 ^ 32 }
  | .mq => { n with mq := (n.mq + 1) % 2 ^ 32 }
  | .cq => { n with cq := (n.cq + 1) % 2 ^ 32 }

def Counts.bumps (n : Counts) (qs : List QId) : Counts := qs.foldl Counts.bump n

def Entry.inQ (e : Entry) (q : QId) : Bool := e.qs.contains q
def Entry.unstarted (e : Entry) : Bool := e.phase == .queued
/-- An entry of an engine's queue (a joining `TOK.WAIT` is none, R246). -/
def Entry.engine (e : Entry) : Bool := !e.qs.isEmpty

/-- Unstarted entries of a queue (R19). -/
def CoreSt.unstartedIn (k : CoreSt) (q : QId) : Nat := (k.q.es.filter (fun e => e.inQ q && e.unstarted)).length
/-- Entries issued and not complete (R112, R158). -/
def CoreSt.inFlight (k : CoreSt) (q : QId) : Nat := (k.q.es.filter (fun e => e.inQ q)).length
/-- Every engine entry issued so far has started (R20, R361). -/
def CoreSt.allStarted (k : CoreSt) : Bool := k.q.es.all (fun e => !e.engine || !e.unstarted)
/-- A 32-bit count `a` comes before `b` (R361: counts are mod 2^32). -/
def countBefore (a b : Nat) : Bool := 2 ^ 31 ≤ (a + 2 ^ 32 - b) % 2 ^ 32

/-- R19: a queue admits an entry: it has a free place below its slip depth. The window of R364 holds 32 CQ entries from the oldest one that is
not retired, so CQ takes none beyond. -/
def CoreSt.admits (k : CoreSt) (q : QId) : Bool :=
  k.unstartedIn q < k.slip q && k.inFlight q < q.size &&
  (q != .cq || k.q.es.all (fun e => !e.inQ .cq || (k.q.issued.cq + 2 ^ 32 - e.seq.cq) % 2 ^ 32 < 32))

/-- The cores whose CQs a hamlet's copy engines serve (R23, R456). -/
def copyCores (hm : Nat) : List Nat := (upTo 16).map (fun i => 16 * hm + i) ++ (if hm % 2 = 0 then [256 + hm / 2] else [])

/-- Copy engines of a hamlet that are serving an entry (R23). -/
def State.busyCopies (s : State) (hm : Nat) : Nat :=
  ((copyCores hm).map (fun c => ((s.core c).q.es.filter (fun e => e.inQ .cq && !e.unstarted && !e.null)).length)).foldl (· + ·) 0

/-- R22, R108, R109, R199: nothing ahead of an entry keeps it from starting. `before` are the older incomplete entries. Two points are the
model's choices (log entry 106): an entry of VQ or MQ starts only once no older one of its queue is incomplete, where R199 makes dependent ones
wait and R224 lets a nest word start while a product runs; a null entry of LQ or SQ does not wait for an older `BARRIER` that has started,
where R156 says no more than that it starts in queue order. -/
def clearAhead (e : Entry) (before : List Entry) : Bool :=
  let fore := fun (x : Entry) => x.inQ .lq || x.inQ .sq
  -- queue order
  before.all (fun x => !(x.unstarted && e.qs.any (fun q => x.inQ q))) &&
  -- VQ and MQ complete in order, null entries too
  before.all (fun x => !e.qs.any (fun q => (q == .vq || q == .mq) && x.inQ q)) &&
  (e.null ||
    -- one at a time, in order, in LQ, SQ, VQ and MQ
    (before.all (fun x => x.null || x.passed || !e.qs.any (fun q => q != .cq && x.inQ q)) &&
     -- a barrier waits for everything in both queues, and everything in them waits for a barrier
     (!e.barrier || before.all (fun x => !fore x || x.passed || x.null)) &&
     (!fore e || before.all (fun x => !(x.barrier && !x.passed && !x.null))) &&
     -- adjoints of other queues one after the other (R292)
     (!e.adj || before.all (fun x => !x.adj || e.qs.any (fun q => x.inQ q))) &&
     -- croft-store and lane-store accesses in program order
     (!e.near || before.all (fun x => !(x.near && fore x)))))

/-- The first entry that meets a condition, with its position and the entries before it. -/
def findEntry (f : Entry → List Entry → Bool) : List Entry → List Entry → Option (Nat × Entry)
  | _, [] => none
  | before, e :: es =>
    if f e before then some (before.length, e) else findEntry f (before ++ [e]) es

/-- An entry of core `c` is ready to start: nothing of its own core keeps it back. -/
def State.ready? (s : State) (c : Nat) (e : Entry) (before : List Entry) : Bool :=
  let k := s.core c
  e.unstarted && e.waits.isEmpty && clearAhead e before && e.qs.all (fun q => !k.slot.roles.getLsbD q.role)

/-- The ready copy entry of a core. -/
def State.readyCopy (s : State) (c : Nat) : Option (Nat × Entry) :=
  let k := s.core c
  if k.q.trap.isSome then none else findEntry (fun e before => e.inQ .cq && !e.null && s.ready? c e before) [] k.q.es

/-- The places of a hamlet's CQs in the order in which they are served next (R23). -/
def State.rotation (s : State) (hm : Nat) : List Nat :=
  let n := (copyCores hm).length
  (upTo n).map (fun i => (SMap.get 0 s.rota hm + i) % n)

/-- R23: the core that a hamlet's free copy engine serves next, with its place in the rotation and its entry. -/
def State.nextCopy (s : State) (hm : Nat) : Option (Nat × Nat × Nat × Entry) :=
  if 4 ≤ s.busyCopies hm then none
  else (s.rotation hm).findSome? (fun i =>
    let c := (copyCores hm).getD i 0
    (s.readyCopy c).map (fun x => (c, i, x.1, x.2)))

/-- An entry of core `c` can start: a copy entry when the rotation comes to its core. -/
def State.startable (s : State) (c : Nat) (e : Entry) (before : List Entry) : Bool :=
  s.ready? c e before && (!e.inQ .cq || e.null || (match s.nextCopy (hamletOf c) with | some x => x.1 == c | none => false))

/-- R23: the rotation of a hamlet goes on past a core that is being served. -/
def State.passTurn (s : State) (c : Nat) : State :=
  let hm := hamletOf c
  { s with rota := SMap.set 0 s.rota hm (((copyCores hm).findIdx (fun d => d == c) + 1) % (copyCores hm).length) }

/-- R23: the rotation after an entry of a core has started. -/
def State.turn (s : State) (c : Nat) (e : Entry) : State := if e.inQ .cq && !e.null then s.passTurn c else s

/-- What an entry's work comes to: done, with the register writes and the word of its completion; left to an event; left to the answer of a
request to a device (R386); or done but for its token, which the hayward writes later (R265). -/
inductive Fin where
  | done (wrs : List Wr) (word : Word)
  | pend
  | asked (dev : Nat) (op : RemoteOp)
  | handed
deriving DecidableEq, Repr

/-- The work of entries, by their instruction. -/
abbrev Perf := Nat → Entry → M Fin

/-- Replaces the entry at a position. -/
def CoreSt.setEntry (k : CoreSt) (n : Nat) (e : Entry) : CoreSt := { k with q := { k.q with es := k.q.es.set n e } }

/-- The trap of an entry that raised it at its start or during its work (R361, R457). -/
def entryTrap (e : Entry) (cause : Cause) (fptr : Word) : TrapRec :=
  match e.qs with
  | q :: _ => ⟨cause, 0, fptr, e.pc, q.fq, e.seq.at q, false⟩
  | [] => ⟨cause, 0, fptr, e.pc, 0, 0, false⟩

/-- R361: a trap is chosen when none is being taken. -/
def CoreSt.choose (k : CoreSt) (t : TrapRec) : CoreSt := if k.q.trap.isSome then k else { k with q := { k.q with trap := some t } }

/-- The entry as it waits, from this step on or as it did before. -/
def Entry.waiting (e : Entry) (s : State) : Entry :=
  { e with phase := .waiting, waited := if e.waited = 0 then s.cycle.toNat + 1 else e.waited, since := if e.since = 0 then s.tick + 1 else e.since }

/-- R452, R102: the precision caps of operands A and B in force on a core; 16 when none is. -/
def State.capsOf (s : State) (c : Nat) : Nat × Nat :=
  let p := s.part (s.core c).ctx.part
  let f := fun (n : Nat) => if s.mgmt.pstep = 0 ∨ n = 0 then 16 else n
  (f p.capa, f p.capb)

/-- The bytes a slot may have outstanding (R388). -/
def chAllow (x : BitVec 512) : Nat := fld x 64 40

/-- The bytes of the tensor that an entry sends. -/
def Entry.sendSize (e : Entry) : Nat := shBytes (e.hs.getD 0 .unbound).shape

/-- The bytes outstanding on a slot (R269, R407): each entry's count from its start, once the allowance takes it, until it is acknowledged. -/
def CoreSt.chOut (k : CoreSt) (ch : CReg) : Nat :=
  ((k.q.es.filter (fun e => e.counted && e.op.sendsOn == some ch)).map Entry.sendSize).foldl (· + ·) 0

/-- R269, R407: an entry's bytes count against its slot's allowance from now on when they fit it. -/
def Entry.counting (e : Entry) (k : CoreSt) : Bool :=
  e.counted || (match e.op.sendsOn with
    | some ch => !e.null && decide (k.chOut ch + e.sendSize ≤ chAllow (k.rdCh ch))
    | none => false)

/-- An entry at a try: what it reads at its start it reads the first time (R128, R199, R452). -/
def Entry.starting (e : Entry) (c : Nat) (s : State) : Entry :=
  let k := s.core c
  let e1 := { e with counted := e.counting k }
  match e.start with
  | some _ => e1
  | none => { e1 with start := some ⟨k.eng.v, k.eng.m, k.ctl.dbgctl.getLsbD 0, (s.capsOf c).1, (s.capsOf c).2⟩ }

/-- The core as an entry's start saw its vector and mask registers (R199). -/
def Entry.seen (e : Entry) (k : CoreSt) : CoreSt :=
  match e.start with
  | some x => { k with eng := { k.eng with v := x.v, m := x.m } }
  | none => k

/-- The state in which the work of an entry is done: the rotation has gone on if it starts now, and what is done is its own (R23, R127). -/
def State.working (s : State) (c : Nat) (e : Entry) : State :=
  { (if e.unstarted then s.turn c e else s) with author := some ⟨c, e.qs, e.seq, ((e.starting c s).start.map Started.mxc).getD false⟩ }

/-- An entry starts and does its work. A null entry completes without action (R156); one that in replay only pushes its item has that word too
(R300). -/
def workOn (perf : Perf) (c n : Nat) (e0 : Entry) (s0 : State) : State :=
  let e := e0.starting c s0
  let s := s0.working c e0
  if e.null then s.modCore c (fun k => k.setEntry n { e with phase := .done, wrs := [], word := wordSkip })
  else match perf c e s with
    | (.ok (.done wrs word), s') => s'.modCore c (fun k => k.setEntry n { e with phase := .done, wrs := wrs, word := if e.muted then wordSkip else word })
    | (.ok .pend, s') => s'.modCore c (fun k => k.setEntry n { e with phase := .pend, passed := e.barrier && !e.op.holdsOrder })
    | (.ok (.asked dev op), s') => s'.modCore c (fun k => k.setEntry n { e with phase := .pend, via := some (dev, op) })
    | (.ok .handed, s') => s'.modCore c (fun k => k.setEntry n { e with phase := .done, wrs := [], word := 0, td := 0 })
    | (.error .wait, s') => (s.heldBack s').modCore c (fun k => k.setEntry n (e.waiting s))
    | (.error .kept, s') => s'.modCore c (fun k => k.setEntry n (e.waiting s))
    | (.error .sent, s') => s'.modCore c (fun k => k.setEntry n { e.waiting s with passed := e.barrier })
    | (.error (.trap cause fptr), s') =>
      s'.modCore c (fun k => (k.setEntry n { e with phase := .waiting, held := true }).choose (entryTrap e cause fptr))

/-- An entry starts, or is tried again: what it does is its own (R127). -/
def startEntry (perf : Perf) (c n : Nat) (e : Entry) (s : State) : State := { workOn perf c n e s with author := none }

/-- R21: a written token lets the entries that wait on it go on. -/
def Entry.tokenWritten (r : SReg) (e : Entry) : Entry := { e with waits := e.waits.filter (fun x => x != r) }

/-- R21, R169: the token of an entry and the registers that it was to load are written. -/
def Entry.tokensWritten (rs : List SReg) (e : Entry) : Entry := { e with waits := e.waits.filter (fun x => !rs.contains x) }

/-- The writes of a completion in the committed file of an entry that has not retired (R363): an unstarted one, or one that is held and may
be dispatched again (R370). -/
def Entry.commitWrs (wrs : List Wr) (e : Entry) : Entry := { e with snap := wrs.foldl Wr.commit e.snap }

/-- R21, R363: an entry completes: its register writes and its completion word, in its registers and in the committed files; a joining `TOK.WAIT`,
which a cut may discard with an older entry (R246), in those of younger entries alone. -/
def CoreSt.complete (k : CoreSt) (n : Nat) (e : Entry) : CoreSt :=
  let wrs := e.wrs ++ (if e.td = 0 then [] else [Wr.s e.td e.word])
  let k1 := wrs.foldl Wr.apply k
  let k2 := e.hdst.foldl CoreSt.clrHpend (e.dst.foldl CoreSt.clrPend k1)
  let told := fun (x : Entry) => x.tokensWritten (e.td :: e.dst)
  let older := (k2.q.es.take n).map (fun x => if e.engine then (told x).commitWrs wrs else told x)
  { k2 with q := { k2.q with es := older ++ (k2.q.es.drop (n + 1)).map (fun x => (told x).commitWrs wrs) } }

/-- Completes what is performed and starts what can start, until nothing more moves. -/
def sweep (perf : Perf) (c : Nat) : Nat → State → State
  | 0, s => s
  | n + 1, s =>
    let k := s.core c
    match findEntry (fun e _ => e.phase == .done) [] k.q.es with
    | some (i, e) => sweep perf c n (s.modCore c (fun k => k.complete i e))
    | none =>
      if k.q.trap.isSome then s
      else match findEntry (fun e before => s.startable c e before) [] k.q.es with
        | some (i, e) => sweep perf c n (startEntry perf c i e s)
        | none => s

/-- R362: a started entry that waits is tried again; while a trap is chosen, one that waits by its nature is not. -/
def CoreSt.tries (k : CoreSt) (e : Entry) : Bool := e.phase == .waiting && !e.held && (k.q.trap.isNone || !waitsByNature e.op)

/-- Tries every started entry that had to wait once more: `m` entries from number `n` on. -/
def retry (perf : Perf) (c : Nat) : Nat → Nat → State → State
  | 0, _, s => s
  | m + 1, n, s =>
    match (s.core c).q.es[n]? with
    | some e => retry perf c m (n + 1) (if (s.core c).tries e then startEntry perf c n e s else s)
    | none => s

-- ### Taking a trap

/-- An entry was issued before another: their counts at issue say so (R361). -/
def Entry.older (a b : Entry) : Bool :=
  [QId.lq, .sq, .vq, .mq, .cq].any (fun q => countBefore (a.seq.at q) (b.seq.at q))

/-- The oldest entry that a cut discards. -/
def CoreSt.oldestUnstarted (k : CoreSt) : Option Entry :=
  (k.q.es.filter (fun e => e.engine && e.unstarted)).foldl (fun m e => match m with
    | none => some e
    | some x => if e.older x then some e else m) none

/-- The entries a cut keeps, in order: the held ones, and a joining `TOK.WAIT` that had committed (R20, R246, R362). -/
def keptEntries (es : List Entry) : List Entry :=
  es.filter (fun x => if x.engine then x.heldByCut else es.all (fun y => !(y.engine && y.unstarted && y.older x)))

/-- R370 step 3: sequence number `n` of a queue is suppressed. -/
def Suppress.coversAt (u : Suppress) (q : QId) (n : Nat) : Bool :=
  let ret := u.ret.at q
  let d := (n + 2 ^ 32 - ret) % 2 ^ 32
  countBefore n ret ||
  (match q with
   | .cq => d < 32 && (u.cqdone.getLsbD d || u.cqheld.getLsbD d)
   | .lq => d == 0 && u.held.getLsbD 0
   | .sq => d == 0 && u.held.getLsbD 1
   | .vq => d == 0 && u.held.getLsbD 2
   | .mq => d == 0 && u.held.getLsbD 3)

/-- R370 step 3: an entry issued with these counts is suppressed. -/
def Suppress.covers (u : Suppress) (n : Counts) (qs : List QId) : Bool := qs.any (fun q => u.coversAt q (n.at q))

/-- Every number that a record suppresses has been issued again. -/
def Suppress.past (u : Suppress) (n : Counts) : Bool :=
  [QId.lq, .sq, .vq, .mq].all (fun q => !countBefore (n.at q) (u.ret.at q) && !u.coversAt q (n.at q)) &&
  !countBefore n.cq u.ret.cq && (u.cqdone ||| u.cqheld) >>> ((n.cq + 2 ^ 32 - u.ret.cq) % 2 ^ 32) == 0

/-- The suppression that is left once the counts stand here. -/
def supAfter (sup : Option Suppress) (n : Counts) : Option Suppress :=
  match sup with
  | some u => if u.past n then none else some u
  | none => none

/-- The entry of a queue with a sequence number is incomplete. -/
def CoreSt.openAt (k : CoreSt) (q : QId) (n : Nat) : Bool := k.q.es.any (fun e => e.inQ q && e.seq.at q == n)

/-- R364: the entry of a queue with a sequence number has retired: it was issued, or is suppressed, and is not incomplete. -/
def CoreSt.retiredAt (k : CoreSt) (q : QId) (n : Nat) : Bool :=
  !k.openAt q n && (countBefore n (k.q.issued.at q) || (match k.q.sup with | some u => u.coversAt q n | none => false))

/-- The first number from `n` on that has not retired, at most `fuel` on. -/
def CoreSt.passRetired (k : CoreSt) (q : QId) : Nat → Nat → Nat
  | 0, n => n
  | fuel + 1, n => if k.retiredAt q n then k.passRetired q fuel ((n + 1) % 2 ^ 32) else n

/-- R364: the retired-prefix count of a queue: its least sequence number that has not retired. -/
def CoreSt.retired (k : CoreSt) (q : QId) : Nat :=
  let n := k.q.issued.at q
  let n0 := match k.q.sup with | some u => if countBefore n (u.ret.at q) then u.ret.at q else n | none => n
  k.passRetired q 33 ((k.q.es.filter (fun e => e.inQ q)).foldl (fun m e => if countBefore (e.seq.at q) m then e.seq.at q else m) n0)

/-- A 32-bit window of CQ from its prefix count. -/
def cqWindow (f : Nat → Bool) : Nat := ((upTo 32).map (fun i => if f i then 2 ^ i else 0)).foldl (· + ·) 0

/-- The registers that are pending for a list of entries: their tokens and destinations (R21, R363). -/
def pendMask : List Entry → BitVec 64
  | [] => 0
  | e :: es => (e.td :: e.dst).foldl (fun (m : BitVec 64) (r : SReg) => if r = 0 then m else m ||| (1#64 <<< r.toNat)) (pendMask es)

/-- The handles that are pending for a list of entries (R251). -/
def hpendMask : List Entry → BitVec 64
  | [] => 0
  | e :: es => e.hdst.foldl (fun (m : BitVec 64) (r : HReg) => m ||| (1#64 <<< r.toNat)) (hpendMask es)

/-- The incomplete entries issued before an entry. -/
def CoreSt.before (k : CoreSt) (e : Entry) : List Entry := k.q.es.takeWhile (fun x => !(x.seq == e.seq && x.qs == e.qs))

-- ### The steps of the stack and the block state, across a cut (R278, R286, R362, R370)

/-- The step that the unit at the PC made before a cut rewound it, and the core from which it and those before it are gone. -/
def CoreSt.redoStep (k : CoreSt) : Option (StkStep × CoreSt) :=
  match k.res.redo.dropWhile (fun r => !(r.pc == k.f.pc && r.seq == k.q.issued)) with
  | [] => none
  | r :: rs => some (r, { k with res := { k.res with redo := rs } })

/-- A step is made again: the position and the block state that it left; the bytes are there already. -/
def CoreSt.redone (k : CoreSt) (r : StkStep) : CoreSt :=
  let k1 := k.setBlk r.blk
  match k1.res.stack with
  | some st => if st.gen = r.gen then { k1 with res := { k1.res with stack := some (st.goTo r.depth r.topf r.nfr) } } else k1
  | none => k1

/-- Records a step: `k0` is the core before it, `k` after it, `aux` its place. What no incomplete entry goes back to is forgotten. -/
def CoreSt.noteStep (k k0 : CoreSt) (aux : Nat) : CoreSt :=
  let old := (k.q.es ++ k.q.heldEs).map Entry.mark
  let log := if old.isEmpty then [] else let low := old.foldl min k.res.steps; k.res.log.filter (fun r => low ≤ r.n)
  let (gen, depth, topf, nfr) := match k.res.stack with | some st => (st.gen, st.depth, st.topf, st.nfr) | none => (0, 0, noDepth, 0)
  { k with res := { k.res with
      steps := k.res.steps + 1
      log := log ++ [⟨k.res.steps, k0.q.issued, k0.f.pc, gen, depth, topf, nfr, k.f.blk, aux⟩] } }

/-- A step that is none made again: outside a handler, what was to be made again is not (R370). -/
def CoreSt.newStep (k k0 : CoreSt) (aux : Nat) : CoreSt :=
  let k1 := k.noteStep k0 aux
  if k1.ctl.inHandler then k1 else { k1 with res := { k1.res with redo := [] } }

/-- A unit that changes the stack or the block state without entering a queue: made again, or made. -/
def stackUnit (c : Nat) (m : M Unit) : M Unit := do
  let k ← getCore c
  match k.redoStep with
  | some (r, k1) => modCore c (fun _ => (k1.redone r).noteStep k r.aux)
  | none => do
    m
    modCore c (fun k' => k'.newStep k 0)

/-- What a cut leaves and records (R362 to R364). -/
structure CutRes where
  core : CoreSt
  kept : List Entry
  ret : Counts
  cqdone : Nat
  cqheld : Nat
  held : Nat

/-- R362 steps 3 to 5, R363, R364: discards the unstarted entries, rewinds, restores the committed file. What is pending for an engine entry is no
longer: the file has the value from before (R196, R363). That of a held entry is pending again from the return on (log entry 91). -/
def CoreSt.cut (k : CoreSt) : CutRes :=
  let kept := keptEntries k.q.es
  let ret : Counts := ⟨k.retired .lq, k.retired .sq, k.retired .vq, k.retired .mq, k.retired .cq⟩
  let old := k.oldestUnstarted
  let file := match old with | some e => e.snap | none => k.f
  let cnt := match old with | some e => e.seq | none => k.q.issued
  let heldBit := fun (q : QId) => kept.any (fun e => e.inQ q && e.seq.at q == ret.at q)
  let stack := match old, k.res.stack with | some e, some st => some (st.rewind e.stk) | _, x => x
  let back := match old with | some e => k.res.log.filter (fun r => e.mark ≤ r.n) | none => []
  { core := { k with
      f := file
      pend := (k.pend &&& ~~~(pendMask k.q.es)) ||| pendMask (kept.filter (fun e => !e.engine))
      hpend := 0
      slot := { k.slot with ending := false }
      res := { k.res with stack := stack, log := k.res.log.filter (fun r => !back.contains r), redo := back ++ k.res.redo }
      q := { k.q with es := [], heldEs := kept, cutCnt := cnt, trap := none, sup := none } }
    kept := kept
    ret := ret
    cqdone := cqWindow (fun i => k.retiredAt .cq ((ret.cq + i) % 2 ^ 32))
    cqheld := cqWindow (fun i => kept.any (fun e => e.inQ .cq && e.seq.cq == (ret.cq + i) % 2 ^ 32))
    held := bitNat (heldBit .lq) + 2 * bitNat (heldBit .sq) + 4 * bitNat (heldBit .vq) + 8 * bitNat (heldBit .mq) }

/-- R366: the stop record, as a 2,048-bit number. `k` is the core before the cut. -/
def stopRecord (k : CoreSt) (t : TrapRec) (r : CutRes) (priv nest : Bool) : BitVec 2048 :=
  let pt := k.slot.running.getD ⟨0, 0, 0, 0⟩
  let w0 := t.cause.code + atBit t.fq 8 + atBit (bitNat priv) 11 + atBit (bitNat nest) 12 + atBit 1 13 + atBit k.ctx.asid 16 + atBit pt.lid 32
  let w1 := pt.x + atBit pt.y 32
  let w2 := pt.z + atBit t.code 32
  BitVec.ofNat 2048 (w0 + atBit w1 64 + atBit w2 128 + atBit r.core.f.pc.toNat 192 + atBit t.fptr.toNat 256 + atBit t.fpc.toNat 320 +
    atBit r.ret.lq 384 + atBit r.ret.sq 416 + atBit r.ret.vq 448 + atBit r.ret.mq 480 + atBit r.ret.cq 512 + atBit t.fseq 544 +
    atBit r.cqdone 576 + atBit r.cqheld 608 + atBit r.held 640)

/-- R368: `TVEC` and `TCUT` can take a trap; answers where the stop record goes. -/
def trapArea (c : Nat) : M Loc := do
  let k ← getCore c
  if k.ctl.tvec = 0 || k.ctl.tcut = 0 || !isGlobal k.ctl.tcut || ptrOffset k.ctl.tcut % 256 ≠ 0 then trap .rights k.ctl.tcut
  else
    let off := ptrOffset k.ctl.tcut
    let l ← checkSpan c .copy .wr k.ctl.tcut off (off + 255)
    match l with
    | .glob b =>
      let pl ← translate c b (bufBase b + off) .wr k.ctl.tcut
      await c pl.pa
      pure l
    | _ => trap .rights k.ctl.tcut

/-- R368, R369: a trap that ends the context: the stop record goes to the croft's stop slot in the park area, and every active launch of
the context ends with FAULT. A bailiff stops and is reported. -/
def fatalTrap (c : Nat) (t : TrapRec) (rec_ : BitVec 2048) (s : State) : State :=
  let k := s.core c
  if isBailiff c then
    let s1 := s.modCore c (fun k => { k with ctl := { k.ctl with stopped := true } })
    { s1 with reports := s1.reports ++ [(c, t.cause.code)] }.logEvent evBailiff (fieldOf c)
  else
    let s1 := s.physPut (descPark k.ctx.desc + 0x50000 + 256 * c) (natBytes 256 rec_.toNat)
    let s2 := setBevt (fieldOf c) 1 s1
    let s3 := faultContext k.ctx.part k.ctx.asid t.cause s2
    if k.slot.running.isSome && (s3.core c).slot.running == k.slot.running then killPoint c s3 else s3

/-- R428, R431: the stop slot of a croft lies on a stack that waits. -/
def State.stopWaits (s : State) (c : Nat) : Bool := !isBailiff c && s.paWaits (descPark (s.core c).ctx.desc + 0x50000 + 256 * c)

/-- A trap that ends the context, once its stop slot can be written; until then the core stays as it was (`k`). -/
def endContext (c : Nat) (t : TrapRec) (rec_ : BitVec 2048) (k : CoreSt) (s : State) : State :=
  if s.stopWaits c then (s.setCore c k).frozenBy c (descPark k.ctx.desc + 0x50000 + 256 * c) else fatalTrap c t rec_ s

/-- R52: every running point of a launch has trapped TIMEOUT; one in cut state is a running point (R330). -/
def State.allTimedOut (s : State) (p lid : Nat) : Bool :=
  match s.launch? p lid with
  | none => false
  | some l =>
    let run := (s.part p).crofts.filterMap (fun d => if runsLaunch s p lid d then (s.core d).slot.running else none) ++ l.cutPts.map CutPt.pt
    !run.isEmpty && run.all (fun q => l.timedOut.contains q)

/-- R52: a point that trapped TIMEOUT counts against its launch; when every running point has, the hayward posts a notice. -/
def noteTimeout (c : Nat) (s : State) : State :=
  let k := s.core c
  match k.slot.running with
  | none => s
  | some pt =>
    let p := k.ctx.part
    let s1 := s.modPart p (fun q => { q with launches := q.launches.map (fun l =>
      if l.lid = pt.lid ∧ !l.timedOut.contains pt then { l with timedOut := l.timedOut ++ [pt] } else l) })
    if s1.allTimedOut p pt.lid then notifyHay p s1 else s1

/-- R367 step 2: the stop record at `TCUT` as one write, with the effects of a D-scope release. -/
def writeStop (c : Nat) (l : Loc) (ptr : Word) (rec_ : BitVec 2048) : M Unit := do
  let off := ptrOffset ptr
  releaseD c
  flushSpan c l true off (off + 255)
  homeStore c l .wr ptr off (natBytes 256 rec_.toNat)

/-- TAKING A TRAP (R362, R366 to R369), once nothing but held entries is left of what had started: the cut; the stop record at `TCUT`
as one write with the effects of a D-scope release; `TCAUSE`; privileged mode; the PC at `TVEC`; `BEVT.STOP` on the field's bailiff. A cut
whose record has to wait for its page or its stack is tried again. -/
def takeTrap (c : Nat) (t : TrapRec) (s : State) : State :=
  let k := s.core c
  let priv := s.privileged c
  let r := k.cut
  let rec_ := stopRecord k t r priv k.ctl.inHandler
  if t.cause.fatal || k.ctl.inHandler then endContext c t rec_ k (s.setCore c r.core)
  else match (do let l ← trapArea c; writeStop c l k.ctl.tcut rec_ : M Unit) (s.setCore c r.core) with
    | (.error .wait, s2) => s2.modCore c (fun _ => k)
    | (.error _, s2) => endContext c t rec_ k s2
    | (.ok (), s3) =>
      let s4 := s3.modCore c (fun k => { k.setPc k.ctl.tvec with
        ctl := { k.ctl with tcause := BitVec.ofNat 64 (t.cause.code + atBit t.code 32), priv := true, inHandler := true }
        res := { k.res with outer := k.f.blk.opened || k.f.blk.dir == 1 } })
      let s5 := if isBailiff c then s4 else setBevt (fieldOf c) 1 s4
      if t.cause = .timeout then noteTimeout c s5 else s5

/-- The cut of a chosen trap, or of a kill, ends when what had started has completed (R362, R365, R373). Another cut of R330 or R373 is ended by
whoever asked for it. -/
def tryCut (c : Nat) (s : State) : State :=
  match (s.core c).q.trap with
  | some t => if t.cause != .preempt && (s.core c).cutReady then takeTrap c t s else tryKill c s
  | none => s

/-- R23: the copy engines of a hamlet take ready entries, of whatever core the rotation comes to; what is performed completes. -/
def serveCopies (perf : Perf) (hm : Nat) : Nat → State → State
  | 0, s => s
  | n + 1, s =>
    match s.nextCopy hm with
    | none => s
    | some (c, _, i, e) =>
      let s1 := startEntry perf c i e s
      serveCopies perf hm n (s1.modCore c (fun k => match k.q.es[i]? with
        | some x => if x.phase == .done then k.complete i x else k
        | none => k))

/-- Everything that can move in a core's queues moves, and a chosen trap is taken when its cut is ready. -/
def runQueues (perf : Perf) (c : Nat) (s : State) : State :=
  let s1 := retry perf c (s.core c).q.es.length 0 s
  let s2 := sweep perf c (2 * (s1.core c).q.es.length + 1) s1
  let s3 := serveCopies perf (hamletOf c) 64 s2
  tryCut c (sweep perf c (2 * (s3.core c).q.es.length + 1) s3)

/-- R361: a trap raised by a unit at issue is taken once every engine entry issued before it has started; until then the reeve holds. -/
def trapAtIssue (c : Nat) (cause : Cause) (code : Nat) (fptr : Word) (s : State) : State :=
  let k := s.core c
  if k.q.trap.isSome || !k.allStarted then s
  else
    let s1 := s.modCore c (fun k => k.choose ⟨cause, code, fptr, k.f.pc, 0, 0, true⟩)
    if s1.eager then tryCut c s1 else s1

-- ### Return from a trap (R328, R370)

/-- What a stop record says of resumption. -/
structure StopRec where
  restart : Bool
  fq : Nat
  fseq : Nat
  pc : Word
  sup : Suppress

/-- The fields of R366 that resumption reads. -/
def StopRec.of (x : BitVec 2048) : StopRec where
  restart := x.getLsbD 13
  fq := fld x 8 3
  fseq := fld x 544 32
  pc := x.extractLsb' 192 64
  sup := { ret := ⟨fld x 384 32, fld x 416 32, fld x 448 32, fld x 480 32, fld x 512 32⟩, cqdone := x.extractLsb' 576 32,
           cqheld := x.extractLsb' 608 32, held := x.extractLsb' 640 4 }

/-- A held entry as resumption dispatches it: from its held form, or, when it is the faulting one and `RESTART` is 0, as a null entry
(R370). -/
def Entry.resume (r : StopRec) (e : Entry) : Entry :=
  let faulting := e.qs.any (fun q => q.fq == r.fq && e.seq.at q == r.fseq)
  if e.engine then
    { e with phase := .queued, held := false, waits := [], passed := false, waited := 0, since := 0, start := none,
             counted := false, via := none, null := e.null || (faulting && !r.restart) }
  else e

/-- The waits of an entry that still wait: those whose register is pending (R21). -/
def Entry.stillWaits (pend : BitVec 64) (e : Entry) : Entry := { e with waits := e.waits.filter (fun r => pend.getLsbD r.toNat) }

/-- R370: resumes a core from a stop record, at `pc`: counters as they stood at the resumption PC, held entries first, suppression. Joining
`TOK.WAIT`s of the handler go on. -/
def CoreSt.resumeAt (k : CoreSt) (r : StopRec) (pc : Word) : CoreSt :=
  let es := (k.q.heldEs.map (Entry.resume r)).map (Entry.stillWaits (k.pend ||| pendMask k.q.heldEs))
  { k.setPc pc with
    pend := k.pend ||| pendMask es
    hpend := hpendMask es
    res := { k.res with outer := false }
    q := { k.q with es := es ++ k.q.es, heldEs := [], issued := k.q.cutCnt, sup := some r.sup, trap := none }
    ctl := { k.ctl with inHandler := false, priv := false } }

/-- THE RETURN FROM A TRAP (R328): reads the stop record at `TCUT` and resumes, at the record's PC or at `x`. -/
def trapReturn (c : Nat) (x : Option Word) : M Unit := do
  let k ← getCore c
  let off := ptrOffset k.ctl.tcut
  let l ← checkSpan c .copy .rd k.ctl.tcut off (off + 255)
  if off % 256 ≠ 0 then trap .align k.ctl.tcut
  flushSpan c l false off (off + 255)
  let bs ← homeRead c l .rd k.ctl.tcut off 256
  let r := StopRec.of (BitVec.ofNat 2048 (leNat bs))
  modCore c (fun k => k.resumeAt r (x.getD r.pc))

-- ### Issue (R19 to R21, R155 to R160)

/-- The outcome of every meaning: a next state. -/
abbrev Out := Host.Outcome State Fault Refusal

/-- A unit's length in bytes (R150, R160). -/
def Hdr.len (h : Hdr) : Nat := if h.ext then 16 else 8

/-- The pointer `n` bytes on; nothing carries into the index (R56). -/
def advance (p : Word) (n : Nat) : Word := ptrAt p (ptrOffset p + n)

/-- R155: the word takes effect. -/
def CoreSt.taken (k : CoreSt) (h : Hdr) : Bool := k.f.rdP h.pred != h.pn

/-- The PC past the unit. -/
def CoreSt.next (k : CoreSt) (h : Hdr) : CoreSt := k.setPc (advance k.f.pc (Hdr.len h))

/-- A block is open, forward or in replay (R272). -/
def CoreSt.blockOpen (k : CoreSt) : Bool := k.f.blk.opened && k.f.blk.dir != 1

/-- The words that issue are words of the open block: those of a trap handler are none of the block that it interrupted (log entry 23). -/
def CoreSt.inBlock (k : CoreSt) : Bool := k.blockOpen && !k.res.outer

/-- What issuing a format-T word needs to know of it. -/
structure Req where
  op : Instr
  h : Hdr
  t : Toks
  qs : List QId
  barrier : Bool := false
  /-- Scalar operands, read at issue (R168). -/
  srcs : List SReg := []
  /-- Handles of which the entry takes a copy at issue (R250). -/
  hnds : List HReg := []
  /-- Scalars made pending until completion (R169). -/
  dst : List SReg := []
  /-- Handles made pending until completion (R251). -/
  hdst : List HReg := []
  /-- It may touch the croft store or the lane store (R108). -/
  near : List Word → List Handle → Bool := fun _ _ => false
  /-- It raises FRAME while a block is open (R272). -/
  noBlock : Bool := false
  /-- It performs a release (R120). -/
  releases : Bool := false
  /-- It writes memory, sends on a channel or submits a launch: in replay it is a null entry (R300). -/
  effect : Bool := false
  /-- Checks placed at issue (R457), on the state and the operands read. -/
  pre : Nat → List Word → List Handle → M Unit := fun _ _ _ => pure ()
  /-- Bytes of its residual item inside a block (R278). -/
  item : List Handle → Nat := fun _ => 0
  /-- Where its bytes lie on the stack (R288), as a depth plus 1, once `pre` has run. -/
  place : Option (CoreSt → Nat) := none
  /-- The register of its seed, when it rounds stochastically: the last of its operands (R278, R300). -/
  seed : Option SReg := none

/-- The base of the open frame: its header lies at the stack's depth (R280, R281). -/
def CoreSt.openHdr (k : CoreSt) : BitVec 512 :=
  match k.res.stack with
  | some st => if k.f.blk.dir = 2 then st.hdr st.topf else st.hdr st.depth
  | none => 0
def CoreSt.openBase (k : CoreSt) : Nat :=
  match k.res.stack with
  | some st => if k.f.blk.dir = 2 then st.topf else st.depth
  | none => 0

/-- A pending register stalls the unit that reads or writes it (R21). -/
def CoreSt.anyPend (k : CoreSt) (rs : List SReg) : Bool := rs.any k.isPend

/-- The stall conditions of a format-T word on registers: operands, destinations, the token. A predicated-off word uses its token only. -/
def Req.blocked (r : Req) (k : CoreSt) : Bool :=
  let on := k.taken r.h
  k.isPend r.t.td || (on && (k.anyPend (r.srcs ++ r.dst ++ r.seed.toList) || (r.hnds ++ r.hdst).any (fun x => k.hpend.getLsbD x.toNat))) ||
  (on && r.releases && k.loc.promo.isSome)

/-- The waited tokens that are pending at issue (R21). -/
def toksPending (t : Toks) (k : CoreSt) : List SReg := [t.tw1, t.tw2, t.tw3].filter k.isPend

/-- R278: the block state after a word's item and seed, the item's place in the frame, and the seed it uses; FRAME when the item or the seed
does not fit. -/
def CoreSt.takeItem (k : CoreSt) (size : Nat) (seed : Option Word) : Except (Cause × Word) (CoreSt × Nat × Option Word) :=
  if !k.inBlock then .ok (k, 0, seed)
  else
    let h := k.openHdr
    let b := k.f.blk
    -- a recompute block counts its items and does not write them (R280)
    let off := if size = 0 || (frRcp h && b.dir == 0) then 0 else k.openBase + frKeep h + b.cur + 1
    if size ≠ 0 ∧ 64 * frFsz h < frKeep h + b.cur + size then .error (.frame, 0)
    else match seed with
      | none => .ok (k.setBlk { b with cur := b.cur + size }, off, none)
      | some x =>
        if frNseed h ≤ b.seeds then .error (.frame, 0)
        else
          let a := k.openBase + 64 + 4 * b.seeds
          let k1 := k.setBlk { b with cur := b.cur + size, seeds := b.seeds + 1 }
          match k.res.stack with
          | none => .ok (k1, off, some x)
          | some st =>
            if b.dir = 2 then .ok (k1, off, some (BitVec.ofNat 64 (st.num a 4)))
            else .ok ({ k1 with res := { k1.res with stack := some { st with bytes := putStackBytes st.bytes a (natBytes 4 x.toNat) } } }, off, some x)

/-- The seed that a word uses: in a replay the one its frame holds (R300). -/
def CoreSt.seedAt (k : CoreSt) (seed : Option Word) : Option Word :=
  match seed, k.res.stack with
  | some x, some st => if k.inBlock && k.f.blk.dir = 2 then some (BitVec.ofNat 64 (st.num (k.openBase + 64 + 4 * k.f.blk.seeds) 4)) else some x
  | _, _ => seed

/-- A word's item, seed, push or pop changes the block state or the stack. -/
def Req.steps (r : Req) (k : CoreSt) (hs : List Handle) : Bool := r.place.isSome || (k.inBlock && (r.item hs != 0 || r.seed.isSome))

/-- What issue makes of a word that takes effect, on the core: it has its checks and its step, or its step is made again. Answers the core, the
entry's place, its seed, and the stack before the word. -/
def takeStep (c : Nat) (r : Req) (xs : List Word) (hs : List Handle) : M (CoreSt × Nat × Option Word × Option Stack) := do
  let k ← getCore c
  let seed := r.seed.map k.rd
  match k.redoStep with
  | some (x, k1) => pure ((k1.redone x).noteStep k x.aux, x.aux, k.seedAt seed, k.res.stack)
  | none => do
    r.pre c xs hs
    let k1 ← getCore c
    match k1.takeItem (r.item hs) seed with
    | .error (cause, fptr) => trap cause fptr
    | .ok (k2, a, seed) =>
      let aux := match r.place with | some f => f k2 | none => a
      let before := if r.place.isSome && r.op.pushes then k1.res.stack.map Stack.unpush else if r.place.isSome then k.res.stack else k1.res.stack
      pure (if r.steps k1 hs then k2.newStep k aux else k2, aux, seed, before)

/-- The entry of a word as it is issued: `k` is the core before it, `stk` the stack before it. -/
def Req.entry (r : Req) (k : CoreSt) (stk : Option Stack) (priv null muted : Bool) (xs : List Word) (hs : List Handle) (aux : Nat) : Entry :=
  { op := r.op, pc := k.f.pc, qs := r.qs, seq := k.q.issued, barrier := r.barrier && !null, passed := false, near := !null && r.near xs hs,
    null := null, muted := muted, priv := priv, td := r.t.td, waits := toksPending r.t k, xs := xs, hs := hs, dst := if null then [] else r.dst, hdst := if null then [] else r.hdst,
    snap := k.f, stk := stk, mark := k.res.steps, adj := false,
    phase := .queued, wrs := [], word := 0, aux := aux, held := false, waited := 0, since := 0, start := none, counted := false, via := none }

/-- Puts an entry into its queues: its token and destinations become pending, the counts and the PC advance. -/
def CoreSt.enqueue (k : CoreSt) (h : Hdr) (e : Entry) : CoreSt :=
  let k1 := e.hdst.foldl CoreSt.setHpend ((e.td :: e.dst).foldl CoreSt.setPend (k.next h))
  let n := k1.q.issued.bumps e.qs
  { k1 with q := { k1.q with es := k1.q.es ++ [e], issued := n, sup := supAfter k1.q.sup n } }

/-- R370: a unit issued now is suppressed. -/
def CoreSt.suppresses (k : CoreSt) (qs : List QId) : Bool := match k.q.sup with | some u => u.covers k.q.issued qs | none => false

/-- The core past a suppressed unit: its counts advance. -/
def CoreSt.skip (k : CoreSt) (qs : List QId) : CoreSt :=
  let n := k.q.issued.bumps qs
  { k with q := { k.q with issued := n, sup := supAfter k.q.sup n } }

/-- R278, R370: the reeve passes a suppressed unit. Its step of the block state and of the stack's position is made again; its item, its seed and
its frame's bytes are there already. A unit that made none at its first issue counts its item all the same. -/
def passOver (r : Req) (c : Nat) (s : State) : State :=
  let k := s.core c
  let on := k.taken r.h
  let hs := r.hnds.map k.rdH
  match (if on then k.redoStep else none) with
  | some (x, k1) => s.setCore c ((((k1.redone x).noteStep k x.aux).next r.h).skip r.qs)
  | none =>
    if on && r.hnds.any (fun x => k.hpend.getLsbD x.toNat) then s
    else
      let blk := match (if on then k.takeItem (r.item hs) (r.seed.map k.rd) else .ok (k, 0, none)) with
        | .ok x => x.1.f.blk
        | .error _ => k.f.blk
      s.setCore c (((k.setBlk blk).next r.h).skip r.qs)

/-- ISSUE of a format-T word that enters a queue (R18, R19, R21, R156, R160): the reeve holds while a register is pending or a queue is
full; checks placed at issue trap; otherwise the entry enters its queues, as a null entry when the word is predicated off. A word whose
entry already retired or is held is passed over after a resumption (R370). With `eager`, whatever can start then starts and completes. -/
def issue (perf : Perf) (r : Req) (s : State) : Out :=
  let c := s.active
  let k := s.core c
  if r.noBlock && k.blockOpen then .next (trapAtIssue c .frame 0 0 s)
  else if k.suppresses r.qs then .next (passOver r c s)
  else if r.blocked k then .next s
  else
    let on := k.taken r.h
    let xs := r.srcs.map k.rd
    let hs := r.hnds.map k.rdH
    match (if on then takeStep c r xs hs else pure (k, 0, none, k.res.stack)) s with
    | (.error (.trap cause fptr), s') => .next (trapAtIssue c cause 0 fptr s')
    | (.error _, s') => .next (s.heldBack s')
    | (.ok (k1, aux, seed, stk), s1) =>
      if r.qs.any (fun q => !k.admits q) then .next s
      else
        let replay := r.effect && k.inBlock && k.f.blk.dir == 2
        let muted := on && replay && aux != 0
        let null := !on || (replay && aux == 0)
        let e := r.entry k stk (s.privileged c) null muted (xs ++ seed.toList) hs aux
        let s2 := s1.setCore c (k1.enqueue r.h e)
        .next (if s.eager then runQueues perf c s2 else s2)

/-- ISSUE of a scalar unit (R20): it executes at once, unless a register it uses is pending or its predicate is false. `f` answers the core
after it, or a trap at issue (R361). -/
def scalarUnit (h : Hdr) (regs : List SReg) (f : Nat → CoreSt → Except (Cause × Nat × Word) CoreSt) (s : State) : Out :=
  let c := s.active
  let k := s.core c
  if !k.taken h then .next (s.setCore c (k.next h))
  else if k.anyPend regs then .next s
  else match f c k with
    | .ok k' => .next (s.setCore c k')
    | .error (cause, code, fptr) => .next (trapAtIssue c cause code fptr s)

end Sys2Proof.Machine
end

