-- ==== Sys2Proof/Machine/Operands.lean ====
section
/-! DEFINITION. Operand forms: memory operands (R186, R187), vector options as they stand in a word, and the ways a scalar word reads its
operands and writes its result. -/

namespace Sys2Proof

/-- R186: the scale k of a memory operand. -/
def MemOp.factor (m : MemOp) : Nat := 2 ^ m.ks.toNat

/-- R178, R187: the offset that a memory operand forms from sA = `x` and sB = `y`, exact. -/
def MemOp.off (m : MemOp) (x y : Word) : Int := (ptrOffset x : Int) + y.toInt * (m.factor : Int) + m.disp.toInt

/-- R178: the pointer that `LEA` forms. -/
def MemOp.lea (m : MemOp) (x y : Word) : Word := mkPtr (ptrIndex x) (wrapInt 48 (m.off x y))

end Sys2Proof

namespace Sys2Proof.Machine

/-- A scalar access's place: where it goes, its pointer and its offset. -/
structure Addr where
  loc : Loc
  ptr : Word
  off : Nat

/-- R187: forms and checks the address of a scalar access of `n` bytes; the translation follows with the access. Atomics may not use the
PORT window (R193). -/
def scalarAddr (c : Nat) (a : Acc) (m : MemOp) (x y : Word) (n : Nat) : M Addr := do
  let o := m.off x y
  if o < 0 || 2 ^ 48 ≤ o then trap .bounds (mkPtr (ptrIndex x) (wrapInt 48 o))
  else
    let off := o.toNat
    let p := ptrAt x off
    let l ← checkSpan c .scalar a p off (off + n - 1 : Nat)
    if l = .port ∧ a = .at then trap .rights p
    else if n > 1 ∧ off % n ≠ 0 then trap .align p
    else pure ⟨l, p, off⟩

/-- A scalar operand of an entry, as read at issue (R168). -/
def Entry.x (e : Entry) (n : Nat) : Word := e.xs.getD n 0
/-- A handle copy of an entry, as taken at issue (R250). -/
def Entry.hd (e : Entry) (n : Nat) : Handle := e.hs.getD n .unbound

/-- The word after this one of the pair a 16-byte form names (R189). -/
def pairHigh (r : SReg) : SReg := r + 1

/-- Scalar words that compute one register from the file (R20, R168). -/
def scalarOp (h : Hdr) (d : SReg) (srcs : List SReg) (f : CoreSt → Word) (s : State) : Out :=
  scalarUnit h (d :: srcs) (fun _ k => .ok ((k.next h).wr d (f k))) s

/-- `OP sD, sA, sB` (R170). -/
def scalar2 (h : Hdr) (d a b : SReg) (f : Word → Word → Word) (s : State) : Out :=
  scalarOp h d [a, b] (fun k => f (k.rd a) (k.rd b)) s

/-- `OP sD, sA` (R172). -/
def scalar1 (h : Hdr) (d a : SReg) (f : Word → Word) (s : State) : Out :=
  scalarOp h d [a] (fun k => f (k.rd a)) s

/-- Scalar words that compute one predicate (R176). -/
def predOp (h : Hdr) (d : PReg) (srcs : List SReg) (f : CoreSt → Bool) (s : State) : Out :=
  scalarUnit h srcs (fun _ k => .ok ((k.next h).wrP d (f k))) s

/-- A control transfer (R181): sets the PC, after the checks on its target. -/
def transfer (k : CoreSt) (target : Word) : Except (Cause × Nat × Word) CoreSt :=
  if ptrOffset target % 8 ≠ 0 then .error (.align, 0, target) else .ok (k.setPc target)

/-- R181: a relative transfer from the PC of the branch word. -/
def relTransfer (k : CoreSt) (pc : Word) (imm : BitVec 35) : Except (Cause × Nat × Word) CoreSt :=
  let o : Int := (ptrOffset pc : Int) + 8 * imm.toInt
  if o < 0 || 2 ^ 48 ≤ o then .error (.bounds, 0, BitVec.ofNat 64 (wrapInt 48 o)) else transfer k (ptrAt pc o.toNat)

end Sys2Proof.Machine
end

