-- ==== Sys2Proof/Machine/Control.lean ====
section
/-! DEFINITION. Control words (major 0x10, R181 to R185): transfers, `YIELD`, `HALT`, `BKPT`, `WAITN`. -/

namespace Sys2Proof.Machine

/-- R181, R272: a control transfer; FRAME while a block is open. -/
def control (h : Hdr) (regs : List SReg) (f : CoreSt → Except (Cause × Nat × Word) CoreSt) (s : State) : Out :=
  if (s.core s.active).blockOpen then .next (trapAtIssue s.active .frame 0 0 s) else scalarUnit h regs (fun _ k => f k) s

/-- R181: the target of `JMP`. -/
def jmpTarget (pc : Word) (imm : BitVec 35) : Word := ptrAt pc (8 * imm.toNat)

def execBr (h : Hdr) (imm : BitVec 35) (s : State) : Out := control h [] (fun k => relTransfer k k.f.pc imm) s
def execJmp (h : Hdr) (imm : BitVec 35) (s : State) : Out := control h [] (fun k => .ok (k.setPc (jmpTarget k.f.pc imm))) s
def execCall (h : Hdr) (a : SReg) (imm : BitVec 35) (s : State) : Out :=
  control h [a] (fun k => relTransfer (k.wr a (advance k.f.pc 8)) k.f.pc imm) s
def execJr (h : Hdr) (a : SReg) (s : State) : Out := control h [a] (fun k => transfer k (k.rd a)) s
def execRet (h : Hdr) (a : SReg) (s : State) : Out := control h [a] (fun k => transfer k (k.rd a)) s
def execLoop (h : Hdr) (a : SReg) (imm : BitVec 35) (s : State) : Out :=
  control h [a] (fun k =>
    let x := k.rd a - 1
    if x = 0 then .ok ((k.next h).wr a x) else relTransfer (k.wr a x) k.f.pc imm) s

/-- R182, R185: the reeve holds until a condition on the queues is met. -/
def holdUntil (h : Hdr) (p : CoreSt → Bool) (s : State) : Out :=
  let c := s.active
  let k := s.core c
  if !k.taken h || p k then .next (s.setCore c (k.next h)) else .next s

def execYield (h : Hdr) (s : State) : Out := holdUntil h CoreSt.allStarted s

/-- R185: all ones sets no condition. -/
def CoreSt.meets {w : Nat} (k : CoreSt) (q : QId) (x : BitVec w) : Bool := x == BitVec.allOnes w || k.inFlight q ≤ x.toNat

def execWaitn (h : Hdr) (lq sq vq : BitVec 6) (mq cq : BitVec 5) (s : State) : Out :=
  holdUntil h (fun k => k.meets .lq lq && k.meets .sq sq && k.meets .vq vq && k.meets .mq mq && k.meets .cq cq) s

/-- A unit that raises a trap with a code (R183, R184, R327). -/
def raises (h : Hdr) (cause : Cause) (code : Nat) (s : State) : Out :=
  scalarUnit h [] (fun _ _ => .error (cause, code, 0)) s

/-- R183: a halted reeve (log entry 22). -/
def CoreSt.haltReeve (k : CoreSt) : CoreSt := { k with slot := { k.slot with roles := k.slot.roles ||| 1 } }

def execHalt (h : Hdr) (s : State) : Out :=
  scalarUnit h [] (fun _ k => if k.ctl.dbgctl.getLsbD 1 then .ok (k.next h).haltReeve else .error (.trapi, 0, 0)) s

def execBkpt (h : Hdr) (code : BitVec 14) (s : State) : Out := raises h .bkpt code.toNat s

end Sys2Proof.Machine
end

