-- ==== Sys2Proof/Machine/Shapes.lean ====
section
/-! DEFINITION. Tensors: shape records and handles (R69 to R71), walks (R72 to R77), tags (R78 to R80, R97), plane blocks (R98 to R101),
and the reads and writes that copies, the loom, the gleaner and the fabric make through them (R110, R111). -/

namespace Sys2Proof.Machine

-- ### Binding (R70, R71)

/-- R70: the base is aligned as its format requires. -/
def shAligned (r : BitVec 512) : Bool :=
  let f := shFmt r
  let off := ptrOffset (shPtr r)
  if isPlane f then off % 64 == 0 && shBitoff r == 0
  else if fmtWidth f % 8 == 0 then off % (fmtWidth f / 8) == 0 && shBitoff r == 0
  else true

/-- R71: binding accepts the record. -/
def recordOk (r : BitVec 512) : Bool :=
  fmtDefined (shFmt r) && 1 ≤ shRank r && shRank r ≤ 6 &&
  (upTo 6).all (fun k => k < shRank r || (fld r (96 + 32 * k) 32 == 0 && fld r (288 + 32 * k) 32 == 0)) &&
  fld r 89 7 == 0 && fld r 480 32 == 0 && shBitoff r ≤ 7 && shAligned r && shCount r ≤ 2 ^ 40 &&
  ptrIndex (shPtr r) != 0xFFF3 && ptrIndex (shPtr r) != 0xFFF8

/-- R69, R71, R251: the handle of a record read at an address. -/
def bindRecord (r : BitVec 512) (addr : Word) : Handle :=
  if shFmt r = 0 then ⟨false, false, 0, addr⟩ else if recordOk r then ⟨true, false, r, addr⟩ else ⟨false, true, 0, addr⟩

/-- R252 step 1: bound, and not marked HDLBAD. -/
def Handle.good (x : Handle) : Bool := x.bound && !x.bad

-- ### Walks (R72 to R77)

/-- The element indices that the counters below `k` visit from index `e`, in walk order. -/
def walkFrom (r : BitVec 512) : Nat → Int → List Int
  | 0, e => [e]
  | k + 1, e => ((upTo (shE r k)).map (fun (i : Nat) => walkFrom r k (e + (i : Int) * shS r k))).flatten

/-- R72: the element indices of a walk. -/
def walkOffs (r : BitVec 512) : List Int := walkFrom r 6 0

/-- The sum over the counters of the least, or the greatest, index that each contributes (R74). -/
def walkLow (r : BitVec 512) : Int := ((upTo 6).map (fun k => min 0 (((shE r k : Int) - 1) * shS r k))).foldl (· + ·) 0
def walkHigh (r : BitVec 512) : Int := ((upTo 6).map (fun k => max 0 (((shE r k : Int) - 1) * shS r k))).foldl (· + ·) 0

/-- R99: bytes of a plane block. -/
def planeB (f : Nat) : Nat := 64 + 8 * planeN f * planeG f

/-- R74, R99: first and last byte of a record's span, as offsets. -/
def shSpan (r : BitVec 512) : Int × Int :=
  let off : Int := ptrOffset (shPtr r)
  let f := shFmt r
  if isPlane f then (off + walkLow r / 64 * planeB f, off + (walkHigh r / 64 + 1) * planeB f - 1)
  else
    let b : Int := 8 * off + shBitoff r
    let w : Int := fmtWidth f
    ((b + w * walkLow r) / 8, (b + w * walkHigh r + w - 1) / 8)

/-- Inserts a counter among counters of rising |stride|. -/
def insertCounter (x : Nat × Nat) : List (Nat × Nat) → List (Nat × Nat)
  | [] => [x]
  | y :: ys => if x.1 ≤ y.1 then x :: y :: ys else y :: insertCounter x ys

/-- The counters with more than one position as (|stride|, extent), by rising |stride| (R75). -/
def activeCounters (r : BitVec 512) : List (Nat × Nat) :=
  (((upTo 6).filter (fun k => 1 < shE r k)).map (fun k => ((shS r k).natAbs, shE r k))).foldr insertCounter []

def injectFrom (reach : Nat) : List (Nat × Nat) → Bool
  | [] => true
  | (s, e) :: r => reach < s && injectFrom (reach + s * (e - 1)) r

/-- R75: the walk is injective. -/
def shInjective (r : BitVec 512) : Bool := injectFrom 0 (activeCounters r)

/-- R75: a read walk is allowed. -/
def readWalkOk (r : BitVec 512) : Bool := shInjective r || shOverlap r

/-- R77: a write walk of a sub-byte format keeps every row on byte boundaries. -/
def writeShapeOk (r : BitVec 512) : Bool :=
  isPlane (shFmt r) || fmtWidth (shFmt r) % 8 == 0 ||
  (upTo 6).all (fun k => k == 0 || shE r k ≤ 1 || (shS r k * (fmtWidth (shFmt r) : Int)) % 8 == 0)

/-- R74: the span of a record, checked as one access; the pointer reported is the record's `PTR`. -/
def checkShape (c : Nat) (u : User) (a : Acc) (r : BitVec 512) : M Loc :=
  checkSpan c u a (shPtr r) (shSpan r).1 (shSpan r).2

/-- A tensor in use: its record and where its bytes are. -/
structure Tens where
  r : BitVec 512
  loc : Loc

def Tens.lo (t : Tens) : Nat := (shSpan t.r).1.toNat
def Tens.hi (t : Tens) : Nat := (shSpan t.r).2.toNat
def Tens.tagged (t : Tens) : Bool := match t.loc with | .glob b => bufTagged b | _ => false

/-- Translation of every page of a tensor's span before its first element (R234, R252). -/
def Tens.translateAll (c : Nat) (a : Acc) (t : Tens) : M Unit :=
  match t.loc with
  | .glob b => translatePages c b a (shPtr t.r) (pageOffs b t.lo t.hi)
  | _ => pure ()

/-- R111: the issuing croft's L1 over a tensor's span. -/
def Tens.flush (c : Nat) (drop : Bool) (t : Tens) : M Unit := flushSpan c t.loc drop t.lo t.hi

-- ### Runs of bytes at home

/-- A run of bytes cut at the line boundaries: offset and length of each piece. -/
def pieces (off n : Nat) : List (Nat × Nat) :=
  if n = 0 then [] else (lineOffs off (off + n - 1)).map (fun o => (o, min (256 - o % 256) (off + n - o)))

def readPieces (c : Nat) (l : Loc) (a : Acc) (ptr : Word) : List (Nat × Nat) → M (List Byte)
  | [] => pure []
  | (o, n) :: ps => do
    let x ← homeRead c l a (ptrAt ptr o) o n
    let y ← readPieces c l a ptr ps
    pure (x ++ y)

def writePieces (c : Nat) (l : Loc) (ptr : Word) : List (Nat × Nat) → List Byte → M Unit
  | [], _ => pure ()
  | (o, n) :: ps, bs => do
    homeStore c l .wr (ptrAt ptr o) o (bs.take n)
    writePieces c l ptr ps (bs.drop n)

/-- Reads bytes at home or at the local memory (R110). -/
def readRun (c : Nat) (l : Loc) (a : Acc) (ptr : Word) (off n : Nat) : M (List Byte) := readPieces c l a ptr (pieces off n)
def writeRun (c : Nat) (l : Loc) (ptr : Word) (off : Nat) (bs : List Byte) : M Unit := writePieces c l ptr (pieces off bs.length) bs

/-- Reads `w` bits at a bit offset (R91). -/
def readBits (c : Nat) (l : Loc) (a : Acc) (ptr : Word) (bit w : Nat) : M Nat := do
  let bs ← readRun c l a ptr (bit / 8) ((bit + w - 1) / 8 - bit / 8 + 1)
  pure (natBits (leNat bs) (bit % 8) w)

/-- Writes bytes one by one, of each the bits that its mask names (R77). -/
def writeMasked (c : Nat) (l : Loc) (ptr : Word) : Nat → List (Byte × Byte) → M Unit
  | _, [] => pure ()
  | off, (b, m) :: ps => do
    if m = 0xFF then homeStore c l .wr (ptrAt ptr off) off [b]
    else
      let old := (← homeRead c l .wr (ptrAt ptr off) off 1).headD 0
      homeStoreBits c l .wr (ptrAt ptr off) off [mergeBits old b m] [m]
    writeMasked c l ptr (off + 1) ps

/-- Writes `w` bits at a bit offset; the other bits of the bytes at its ends keep what they hold at that step (R77). -/
def writeBits (c : Nat) (l : Loc) (ptr : Word) (bit w x : Nat) : M Unit := do
  let n := (bit + w - 1) / 8 - bit / 8 + 1
  let y := x % 2 ^ w
  if bit % 8 = 0 ∧ w % 8 = 0 then writeRun c l ptr (bit / 8) (natBytes n y)
  else writeMasked c l ptr (bit / 8) ((natBytes n (atBit y (bit % 8))).zip (natBytes n (atBit (2 ^ w - 1) (bit % 8))))

-- ### Tags (R78 to R80)

/-- The sector that holds offset `off` of a tagged buffer: its number among the physical sectors. -/
def sectorOf (c : Nat) (l : Loc) (a : Acc) (ptr : Word) (off : Nat) : M (Option Nat) :=
  match l with
  | .glob b => if bufTagged b then do
      let pl ← translate c b (bufBase b + off) a (ptrAt ptr off)
      pure (some (pl.pa / 64))
    else pure none
  | _ => pure none

/-- The tag that governs offset `off`; `none` in an untagged buffer. -/
def tagAt (c : Nat) (l : Loc) (a : Acc) (ptr : Word) (off : Nat) : M (Option Nat) := do
  match ← sectorOf c l a ptr off with
  | none => pure none
  | some n => do
    let s ← get
    -- R425: a tag that cannot be corrected
    if s.tagBad.contains n then lineErr .ecc (64 * n) ptr off
    else pure (some (SMap.get 0 s.tags n))

/-- The tag of a physical sector is written. -/
def State.putTag (s : State) (n tag : Nat) : State := { s with tags := SMap.set 0 s.tags n tag, tagBad := s.tagBad.filter (fun x => x != n) }

/-- Writes the tag of the sector that holds `off`, in a tagged buffer. -/
def setTag (c : Nat) (l : Loc) (ptr : Word) (off tag : Nat) : M Unit := do
  match ← sectorOf c l .wr ptr off with
  | none => pure ()
  | some n => modify (fun s => s.putTag n (tag % 65536))

/-- R79 for a numeric format: the tag's format is 0x00, or a defined code of the same width that is no plane form. -/
def tagOk (f tag : Nat) : Bool :=
  let tf := tag % 256
  tf == 0 || (fmtDefined tf && !isPlane tf && !isPlane f && fmtWidth tf == fmtWidth f)

/-- The first bytes of the sectors that `w` bits at a bit offset reach. -/
def sectorsOf (bit w : Nat) : List Nat := (upTo ((bit + w - 1) / 512 - bit / 512 + 1)).map (fun i => 64 * (bit / 512 + i))

/-- The faulting pointer of a sector (R79). -/
def sectorPtr (r : BitVec 512) (off : Nat) : Word := ptrAt (shPtr r) (off - off % 64)

/-- R79: every sector that an element reaches passes its check. -/
def checkTags (c : Nat) (t : Tens) (a : Acc) : List Nat → M Unit
  | [] => pure ()
  | off :: offs => do
    match ← tagAt c t.loc a (shPtr t.r) off with
    | none => pure ()
    | some g => check (tagOk (shFmt t.r) g) .hdlbad (sectorPtr t.r off)
    checkTags c t a offs

-- ### Elements

/-- The first bit of element index `e` (R72). -/
def elemBit (r : BitVec 512) (e : Int) : Nat := ((8 * ptrOffset (shPtr r) + shBitoff r : Nat) + e * (fmtWidth (shFmt r) : Int)).toNat

/-- R99: the first byte of group index `e`'s plane block, and its place in the block. -/
def groupBlk (r : BitVec 512) (e : Int) : Nat := ((ptrOffset (shPtr r) : Int) + e / 64 * planeB (shFmt r)).toNat
def groupPos (e : Int) : Nat := (e % 64).toNat
def groupPlanes (r : BitVec 512) (e : Int) : Nat := groupBlk r e + 64 + groupPos e * groupBytes (shFmt r)

/-- An element as bits: first bit and width of each piece. A group of a plane form is its scale byte and the bytes of its planes. -/
def elemPieces (r : BitVec 512) (e : Int) : List (Nat × Nat) :=
  if isPlane (shFmt r) then
    (8 * (groupBlk r e + groupPos e), 8) :: (upTo (groupBytes (shFmt r))).map (fun i => (8 * (groupPlanes r e + i), 8))
  else [(elemBit r e, fmtWidth (shFmt r))]

def readParts (c : Nat) (t : Tens) : List (Nat × Nat) → M (List Nat)
  | [] => pure []
  | (b, w) :: ps => do
    let x ← readBits c t.loc .rd (shPtr t.r) b w
    let y ← readParts c t ps
    pure (x :: y)

def writeParts (c : Nat) (t : Tens) : List (Nat × Nat) → List Nat → M Unit
  | (b, w) :: ps, x :: xs => do
    writeBits c t.loc (shPtr t.r) b w x
    writeParts c t ps xs
  | _, _ => pure ()

/-- Writes one tag into the sectors of a piece. -/
def setTags (c : Nat) (t : Tens) (tag : Nat) : List Nat → M Unit
  | [] => pure ()
  | off :: offs => do
    setTag c t.loc (shPtr t.r) off tag
    setTags c t tag offs

/-- R97: what governs the value of an element of format `f` in a sector with tag `g`: the format that it is decoded by, and its scale. -/
def tagForm (f : Nat) (g : Option Nat) : Nat × Int :=
  match g with
  | none => (f, 0)
  | some t => (if t % 256 = 0 then f else t % 256, sextNat (t / 256) 8)

/-- R97: the value of an element, with its tag checked (R79). `flush`: BF16 is flushed on input (R87). -/
def readVal (c : Nat) (flush : Bool) (t : Tens) (e : Int) : M Val := do
  let f := shFmt t.r
  let bit := elemBit t.r e
  checkTags c t .rd (sectorsOf bit (fmtWidth f))
  let x ← readBits c t.loc .rd (shPtr t.r) bit (fmtWidth f)
  let (tf, sd) := tagForm f (← tagAt c t.loc .rd (shPtr t.r) (bit / 8))
  pure ((decodeFmt tf (flush && tf == 2) x).scale sd)

/-- Writes the bits of an element, and into a tagged buffer its sectors' tag (R80): the record's format with scale `sd`. -/
def writeVal (c : Nat) (t : Tens) (e : Int) (sd : Int) (x : Nat) : M Unit := do
  let f := shFmt t.r
  let bit := elemBit t.r e
  writeBits c t.loc (shPtr t.r) bit (fmtWidth f) x
  if t.tagged then setTags c t (f + 256 * wrapInt 8 sd) (sectorsOf bit (fmtWidth f))

-- ### Walking pairs (R76)

/-- An operation that may stop, with its stop as a value. -/
def tryM {α : Type} (m : M α) : M (Except Stop α) := fun s =>
  match m s with
  | (r, s') => (.ok r, s')

/-- Reads in order until one stops: what was read, and why it stopped. -/
def readUntil {α β : Type} (f : β → M α) : List β → M (List α × Option Stop)
  | [] => pure ([], none)
  | e :: es => do
    match ← tryM (f e) with
    | .ok x => do
      let r ← readUntil f es
      pure (x :: r.1, r.2)
    | .error st => pure ([], some st)

def writeEach {α β : Type} (g : β → α → M Unit) : List β → List α → M Unit
  | e :: es, x :: xs => do
    g e x
    writeEach g es xs
  | _, _ => pure ()

/-- A walk in runs of `n` elements: the sources of a run are read, then its destinations are written; a stop leaves the elements before
it written. -/
def pairRuns {α β γ : Type} (n : Nat) (f : β → M α) (g : γ → α → M Unit) : Nat → List β → List γ → M Unit
  | 0, _, _ => pure ()
  | k + 1, src, dst => do
    match src with
    | [] => pure ()
    | _ => do
      let r ← readUntil f (src.take n)
      writeEach g (dst.take n) r.1
      match r.2 with
      | some st => throw st
      | none => pairRuns n f g k (src.drop n) (dst.drop n)

/-- A walk with its numbers (R72). -/
def numbered (r : BitVec 512) : List (Nat × Int) := (walkOffs r).zipIdx.map (fun p => (p.2, p.1))

/-- The physical lines of a tensor's span. -/
def Tens.lines (c : Nat) (t : Tens) (s : State) : List Nat :=
  match t.loc with
  | .glob b => (lineOffs t.lo t.hi).filterMap (fun off => (s.paAt c (bufBase b + off)).map (fun pa => pa / 256))
  | _ => []

/-- The spans of two tensors overlap. -/
def Tens.meets (c : Nat) (x y : Tens) (s : State) : Bool :=
  match x.loc, y.loc with
  | .glob _, .glob _ => (x.lines c s).any (fun l => (y.lines c s).contains l)
  | .croft, .croft | .hamlet, .hamlet | .commons, .commons => x.lo ≤ y.hi && y.lo ≤ x.hi
  | _, _ => false

/-- R76: how many source elements are read ahead of the writes: all of them, unless the spans overlap; then as many as the device
chooses (log entry 20). -/
def Tens.ahead (c : Nat) (src dst : Tens) (s : State) : Nat :=
  if src.meets c dst s then Config.readAhead s.tick + 1 else shCount src.r

/-- Pairs what is read of one tensor with what is written of another, in order. -/
def pairOver {α β γ : Type} (c : Nat) (src dst : Tens) (f : β → M α) (g : γ → α → M Unit) (xs : List β) (ys : List γ) : M Unit := do
  let n := src.ahead c dst (← get)
  pairRuns n f g xs.length xs ys

/-- Pairs element n of a source walk with element n of a destination walk (R73). -/
def pairWalk {α : Type} (c : Nat) (src dst : Tens) (f : Nat × Int → M α) (g : Nat × Int → α → M Unit) : M Unit :=
  pairOver c src dst f g (numbered src.r) (numbered dst.r)

-- ### Copies of bits with tags (R80)

/-- The source tag that each destination sector of an equal-format copy takes: the first in walk order, and the sectors whose elements come
from sectors with different tags. -/
structure TagPlan where
  first : SMap (Option Nat)
  bad : List Nat

def planSectors (tag : Nat) (p : TagPlan) : List Nat → TagPlan
  | [] => p
  | off :: offs =>
    planSectors tag (match SMap.get none p.first (off / 64) with
      | none => { p with first := SMap.set none p.first (off / 64) (some tag) }
      | some t => if t = tag then p else { p with bad := (off / 64) :: p.bad }) offs

def planParts (c : Nat) (src : Tens) (dflt : Nat) : List (Nat × Nat) → List (Nat × Nat) → TagPlan → M TagPlan
  | (b, _) :: ps, (d, w) :: qs, p => do
    let g ← tagAt c src.loc .rd (shPtr src.r) (b / 8)
    planParts c src dflt ps qs (planSectors (g.getD dflt) p (sectorsOf d w))
  | _, _, p => pure p

def planElems (c : Nat) (src dst : Tens) : List Int → List Int → TagPlan → M TagPlan
  | e :: es, d :: ds, p => do
    let q ← planParts c src (shFmt dst.r) (elemPieces src.r e) (elemPieces dst.r d) p
    planElems c src dst es ds q
  | _, _, p => pure p

/-- Writes the pieces of an element of an equal-format copy, each sector's tag with its data; a sector fed from different tags raises HDLBAD
(R80). -/
def writeTagged (c : Nat) (dst : Tens) (plan : TagPlan) (e : Int) (xs : List Nat) : M Unit := do
  let ps := elemPieces dst.r e
  let secs := (ps.map (fun p => sectorsOf p.1 p.2)).flatten
  match secs.find? (fun off => plan.bad.contains (off / 64)) with
  | some off => trap .hdlbad (sectorPtr dst.r off)
  | none => do
    writeParts c dst ps xs
    if dst.tagged then secs.forM (fun off => setTag c dst.loc (shPtr dst.r) off ((SMap.get none plan.first (off / 64)).getD 0))

/-- R253 with equal codes: the bits move unchanged. -/
def copyBits (c : Nat) (src dst : Tens) : M Unit := do
  let plan ← (if dst.tagged then planElems c src dst (walkOffs src.r) (walkOffs dst.r) ⟨[], []⟩ else pure ⟨[], []⟩ : M TagPlan)
  pairWalk c src dst (fun e => readParts c src (elemPieces src.r e.2)) (fun e xs => writeTagged c dst plan e.2 xs)

-- ### A tensor as bytes (R269)


def readElems (c : Nat) (t : Tens) : List Int → M (List Byte)
  | [] => pure []
  | e :: es => do
    let ps := elemPieces t.r e
    let xs ← readParts c t ps
    let r ← readElems c t es
    pure ((ps.zip xs).flatMap (fun p => natBytes (p.1.2 / 8) p.2) ++ r)

/-- The bytes of a tensor in walk order. -/
def readTensor (c : Nat) (t : Tens) : M (List Byte) := readElems c t (walkOffs t.r)

/-- Writes bytes into successive elements, as many as there are bytes for; sectors take the record's format with scale 0 (R80). -/
def writeElems (c : Nat) (t : Tens) : List Int → List Byte → M Unit
  | [], _ => pure ()
  | e :: es, bs => do
    if bs.isEmpty then pure ()
    else
      let ps := elemPieces t.r e
      let used := ps.zipIdx.filter (fun p => (((ps.take p.2).map (fun q => q.2 / 8)).foldl (· + ·) 0) < bs.length)
      writeBytes bs (used.map Prod.fst)
      if t.tagged then setTags c t (shFmt t.r) ((used.map (fun p => sectorsOf p.1.1 p.1.2)).flatten)
      writeElems c t es (bs.drop (elemBytes (shFmt t.r)))
where
  /-- Writes the pieces that bytes are left for; the last may be covered in part. -/
  writeBytes : List Byte → List (Nat × Nat) → M Unit
    | _, [] => pure ()
    | bs, (b, w) :: ps => do
      writeRun c t.loc (shPtr t.r) (b / 8) (bs.take (w / 8))
      writeBytes (bs.drop (w / 8)) ps

/-- Writes bytes into a tensor in walk order. -/
def writeTensor (c : Nat) (t : Tens) (bs : List Byte) : M Unit := writeElems c t (walkOffs t.r) bs

-- ### Groups (R98 to R101)

/-- The integer of element k of a group, from its planes as one number with plane j at bit g × j. -/
def planeInt (n g x k : Nat) : Int :=
  sextNat (((upTo n).map (fun j => if x.testBit (g * j + k) then 2 ^ j else 0)).foldl (· + ·) 0) n

/-- The group at index `e` of a plane-form tensor, of which the planes from `lo` on are read (R232); those below count as 0. -/
def readPlanes (c : Nat) (t : Tens) (e : Int) (lo : Nat) : M Group := do
  let f := shFmt t.r
  let skip := lo * (planeG f / 8)
  let sb ← readRun c t.loc .rd (shPtr t.r) (groupBlk t.r e + groupPos e) 1
  let ps ← readRun c t.loc .rd (shPtr t.r) (groupPlanes t.r e + skip) (groupBytes f - skip)
  let x := leNat ps * 2 ^ (8 * skip)
  pure ⟨leNat sb, (upTo (planeG f)).map (planeInt (planeN f) (planeG f) x)⟩

/-- The group at index `e` of a plane-form tensor. -/
def readGroup (c : Nat) (t : Tens) (e : Int) : M Group := readPlanes c t e 0

/-- The planes of a group, as one number. -/
def planeBits (n g : Nat) (q : List Int) : Nat :=
  (q.zipIdx.map (fun p =>
    let x := wrapInt n p.1
    ((upTo n).map (fun j => if x.testBit j then 2 ^ (g * j + p.2) else 0)).foldl (· + ·) 0)).foldl (· + ·) 0

/-- Writes a group at index `e`: its scale byte, its planes, and the tags of its sectors (R80, scale 0). -/
def writeGroup (c : Nat) (t : Tens) (e : Int) (x : Group) : M Unit := do
  let f := shFmt t.r
  let sb := groupBlk t.r e + groupPos e
  writeRun c t.loc (shPtr t.r) sb (natBytes 1 x.e)
  writeRun c t.loc (shPtr t.r) (groupPlanes t.r e) (natBytes (groupBytes f) (planeBits (planeN f) (planeG f) x.q))
  if t.tagged then setTags c t f (sectorsOf (8 * sb) 8 ++ sectorsOf (8 * groupPlanes t.r e) (8 * groupBytes f))

end Sys2Proof.Machine
end

