-- ==== Sys2Proof/Machine/Atomic.lean ====
section
/-! DEFINITION. Atomics (R126 to R131, R193 to R196): the operations, the place that performs them, the mixed-size check. -/

namespace Sys2Proof.Machine

/-- The atomic operations (R193 to R195). -/
inductive AmoOp where
  | add | and | or | xor | min | max | minu | maxu | swap | cas | fadd
deriving DecidableEq, Repr

/-- R193 to R195: what is written over `old` (`n` bytes), `none` when nothing is: `z` is the operand, `x` the expected value of a CAS. -/
def AmoOp.new (op : AmoOp) (n old z x : Nat) : Option Nat :=
  let m := 2 ^ (8 * n)
  let zz := z % m
  match op with
  | .add => some ((old + zz) % m)
  | .and => some (old &&& zz)
  | .or => some (old ||| zz)
  | .xor => some (old ^^^ zz)
  | .min => some (if sextNat old (8 * n) ≤ sextNat zz (8 * n) then old else zz)
  | .max => some (if sextNat old (8 * n) ≤ sextNat zz (8 * n) then zz else old)
  | .minu => some (Nat.min old zz)
  | .maxu => some (Nat.max old zz)
  | .swap => some zz
  | .cas => if old = x % m then some zz else none
  | .fadd => some (addF32 old (natBits z 0 32))

/-- R128: an earlier atomic of another croft, within 4,096 cycles, that overlaps this one with a different address or size. -/
def State.mixed (s : State) (c pa n : Nat) : Bool :=
  s.atomLog.any (fun x => x.2.2.1 != c && x.1 < pa + n && pa < x.1 + x.2.1 && !(x.1 == pa && x.2.1 == n) &&
    (s.cycle - BitVec.ofNat 64 x.2.2.2).toNat < 4096)

/-- The record of the atomics performed at home slices; older ones no longer matter (R128). -/
def State.logAtomic (s : State) (c pa n : Nat) : State :=
  { s with atomLog := s.atomLog.filter (fun x => (s.cycle - BitVec.ofNat 64 x.2.2.2).toNat < 4096) ++ [(pa, n, c, s.cycle.toNat)] }

/-- R128: an atomic that the home slice performs. -/
def State.atomicDone (s : State) (c pa n : Nat) : State := if isHostPath pa then s else s.logAtomic c pa n

/-- R126, R130: one read and write of `n` bytes at home: the old value. -/
def State.atomicHome (s : State) (pa key : Nat) (compr : Bool) (n : Nat) (f : Nat → Option Nat) : Except LineErr (Nat × State) :=
  match s.homeBytes pa n key compr with
  | .error e => .error e
  | .ok bs =>
    match f (leNat bs) with
    | none => .ok (leNat bs, s.retag (pa / 256) key)
    | some x => match s.homePut pa key compr (natBytes n x) with
      | .error e => .error e
      | .ok s' => .ok (leNat bs, s'.noted pa key compr (natBytes n x) (wholeBits (natBytes n x)))

/-- An atomic of core `c` at the home slice. The issuing croft's line goes home first. A check is that of the entry at work (R128); one that
another module sent is recorded and not checked (log entry 92). -/
def homeAtomic (c : Nat) (pl : Place) (ptr : Word) (off n : Nat) (f : Nat → Option Nat) : M Nat := do
  awaitAt c pl
  flushLines c [pl.pa / 256]
  let s ← get
  if (s.author.map Author.mxc).getD false && !isHostPath pl.pa && s.mixed c pl.pa n then trap .mixsz ptr
  else match s.atomicHome pl.pa pl.key pl.compr n f with
    | .error e => lineErr e pl.pa ptr off
    | .ok (old, s') => do
      set (s'.atomicDone c pl.pa n)
      pure old

/-- R130: an atomic of `n` bytes at its place; scope 0 is C. -/
def atomicAt (c : Nat) (l : Loc) (a : Acc) (ptr : Word) (off n scope : Nat) (f : Nat → Option Nat) : M Nat := do
  match l with
  | .glob b =>
    let pl ← translate c b (bufBase b + off) a ptr
    if scope = 0 then
      let old := leNat (← l1Read c pl ptr off n)
      match f old with
      | some x => l1Write c pl ptr off (natBytes n x)
      | none => pure ()
      pure old
    else homeAtomic c pl ptr off n f
  | .port => pure 0
  | l => do
    localCheck c l ptr off n
    let s ← get
    let old := leNat ((upTo n).map (fun i => s.localByte c l (off + i)))
    match f old with
    | some x => modify (fun s => s.localPut c l off (natBytes n x))
    | none => pure ()
    pure old

/-- R349, R403: the page of a global byte is still at its home device, and the access has its rights: that device, and the address. -/
def pullPage (c : Nat) (l : Loc) (off : Nat) (a : Acc) : M (Option (Nat × Nat)) := do
  match l with
  | .glob b =>
    let va := bufBase b + off
    match (← get).leafAt c va a with
    | .leaf e _ _ => pure (if ptePull e && leafGrants a e then some (pteHome e, va) else none)
    | _ => pure none
  | _ => pure none

/-- A number for each operation, in the order of R193: what a forwarded atomic carries. -/
def AmoOp.num : AmoOp → Nat
  | .add => 0 | .and => 1 | .or => 2 | .xor => 3 | .min => 4 | .max => 5 | .minu => 6 | .maxu => 7 | .swap => 8 | .cas => 9 | .fadd => 10

/-- The operation of a number. -/
def AmoOp.ofNum : Nat → AmoOp
  | 0 => .add | 1 => .and | 2 => .or | 3 => .xor | 4 => .min | 5 => .max | 6 => .minu | 7 => .maxu | 8 => .swap | 9 => .cas | _ => .fadd

/-- The lines of a place are reached as compressible ones (R82). -/
def Loc.compr : Loc → Bool
  | .glob b => bufCompr b
  | _ => false

/-- R193: an atomic word's work. `xs`: base, index, operand, its high half, expected value, its high half. An atomic on a page that is
elsewhere is forwarded to its home device, and one that was sent back waits for the pull (R403). -/
def runAmo (op : AmoOp) (n : Nat) (d : SReg) (m : MemOp) (sc : BitVec 2) : Perf := fun c e => do
  let a ← scalarAddr c .at m (e.x 0) (e.x 1) n
  let z := (e.x 2).toNat + atBit (e.x 3).toNat 64
  let x := (e.x 4).toNat + atBit (e.x 5).toNat 64
  let home ← pullPage c a.loc a.off .at
  match (if e.aux = 0 then home else none) with
  | some (dev, va) => do
    modify (fun s => { s with fab := { s.fab with out := s.fab.out ++
      [.forward dev { ctx := s.ctxIndex (s.core c).ctx.part (s.core c).ctx.asid, va := va, op := op.num, size := n, x := z, y := x, tag := c, compr := a.loc.compr }] } })
    pure .pend
  | none =>
    let old ← atomicAt c a.loc .at a.ptr a.off n sc.toNat (fun old => op.new n old z x)
    pure (.done (if n = 16 then [.s d (BitVec.ofNat 64 old), .s (pairHigh d) (BitVec.ofNat 64 (old / 2 ^ 64))] else [.s d (BitVec.ofNat 64 old)]) 0)

end Sys2Proof.Machine
end

