-- ==== Sys2Proof/Machine/Gates.lean ====
section
/-! DEFINITION. Gates (R259 to R261, R376), rings (R262, R263) and the bounds of waits (R248). -/

namespace Sys2Proof.Machine

-- ### Gates

/-- The croft and the gate that a gate name gives (R259). -/
def gateCroft (name : Word) : Nat := natBits name.toNat 6 8
def gateNum (name : Word) : Nat := natBits name.toNat 0 6
def gateKey (t g : Nat) : Nat := 64 * t + g

def State.gate (s : State) (t g : Nat) : Gate := SMap.get .none s.gates (gateKey t g)
def State.setGate (s : State) (t g : Nat) (x : Gate) : State := { s with gates := SMap.set .none s.gates (gateKey t g) x }

/-- R260: an arrival of `n`. -/
def Gate.arrive (x : Gate) (n : Nat) : Gate :=
  let y := if x.init = 0 ∨ x.cnt < n then { x with ovr := true } else x
  if 0 < y.init ∧ 0 < y.cnt then
    if y.cnt ≤ n then { y with cnt := y.init, phase := (y.phase + 1) % 2 ^ 32 } else { y with cnt := y.cnt - n }
  else y

/-- R376: a parked gate, and back. -/
def Gate.bits (x : Gate) : Nat := x.init + atBit x.cnt 40 + atBit x.phase 80 + atBit (bitNat x.ovr) 112 + atBit (bitNat x.valid) 113
def Gate.ofBits (x : Nat) : Gate :=
  if x.testBit 113 then ⟨natBits x 0 40, natBits x 40 40, natBits x 80 32, x.testBit 112, true⟩ else .none

/-- Where gate `g` of croft `t` is parked in a context's park area (R376). -/
def State.gatePark (s : State) (p asid t g : Nat) : Nat := descPark (s.descOf p asid) + 0x10000 + 1024 * t + 16 * g

/-- R261: an arrival of `n` from a context at a gate; false: it is dropped, as it is by a parked gate that cannot be read (R421). -/
def State.arrive (s : State) (p asid t g n : Nat) : Bool × State :=
  if SMap.get 0 s.gateAsid t = asid + 1 then
    let x := s.gate t g
    if x.valid then (true, (s.setGate t g (x.arrive n)).modCore t (fun k => { k with slot := { k.slot with gated := false } })) else (false, s)
  else
    let a := s.gatePark p asid t g
    match s.phys a 16 with
    | .ok bs =>
      let x := Gate.ofBits (leNat bs)
      if x.valid then (true, s.physPut a (natBytes 16 (x.arrive n).bits)) else (false, s)
    | .error e => (false, if e = .ecc then s.countEcc a else s)

/-- R428, R431: an arrival at a parked gate waits for its stack. -/
def State.gateWaits (s : State) (p asid t g : Nat) : Bool := SMap.get 0 s.gateAsid t != asid + 1 && s.paWaits (s.gatePark p asid t g)

/-- An arrival made by core `c`; false: it is dropped. A parked gate whose line fails is met by an access that names no pointer (R455). -/
def arriveFrom (c : Nat) (name : Word) (n : Nat) : M Bool := do
  let s ← get
  let k := s.core c
  let a := s.gatePark k.ctx.part k.ctx.asid (gateCroft name) (gateNum name)
  if SMap.get 0 s.gateAsid (gateCroft name) ≠ k.ctx.asid + 1 then
    await c a
    match s.phys a 16 with
    | .error e => walkErr e a 0
    | .ok _ => pure ()
  let r := s.arrive k.ctx.part k.ctx.asid (gateCroft name) (gateNum name) n
  set r.2
  pure r.1

/-- The word of R245 that says GONE. -/
def wordGone : Word := cword 5 0 0

/-- R259, R261: the gate arrival of an entry that wrote `n` bytes, and its completion word: an OK becomes GONE when the arrival is dropped. -/
def genArrival (c : Nat) (gen : Bool) (name : Word) (n : Nat) (w : Word) : M Word := do
  if gen && n != 0 then
    let ok ← arriveFrom c name n
    pure (if !ok && w.toNat % 256 == 0 then wordGone else w)
  else pure w

/-- R260: the gates of a croft that a core may initialise and wait on are its own; the faulting pointer names the gate. -/
def ownGate (c : Nat) (name : Word) : M Unit :=
  check (!isBailiff c && gateCroft name == c) .rights (name &&& 0x3FFF)

/-- R260. -/
def runGateInit : Perf := fun c e => do
  ownGate c (e.x 0)
  let n := natBits (e.x 1).toNat 0 40
  modify (fun s => s.setGate c (gateNum (e.x 0)) ⟨n, n, 0, false, true⟩)
  pure (.done [] (wordOk 0))

def runGateArr : Perf := fun c e => do
  let ok ← arriveFrom c (e.x 0) (natBits (e.x 1).toNat 0 40)
  pure (.done [] (if ok then wordOk 0 else wordGone))

/-- R260: the gate has opened since phase `p`. -/
def Gate.isOpen (x : Gate) (p : Nat) : Bool :=
  let d := (x.phase + 2 ^ 32 - p % 2 ^ 32) % 2 ^ 32
  x.init == 0 || (1 ≤ d && d ≤ 2 ^ 31)

def runGateWait : Perf := fun c e => do
  ownGate c (e.x 0)
  let x := (← get).gate c (gateNum (e.x 0))
  if x.isOpen (natBits (e.x 1).toNat 0 32) then pure (.done [] (cword 0 (bitNat x.ovr) x.phase)) else throw .wait

-- ### Bounds of waits (R248, R326)

/-- R248: the bound in cycles of a wait; `none`: none. -/
def limCycles (lim : BitVec 6) : Option Nat := if lim = 0 then some (2 ^ 24) else if lim = 63 then none else some (2 ^ lim.toNat)

/-- An entry that has waited has exceeded its bound (R248, R326 `SUPTO`). -/
def State.overdue (s : State) (c : Nat) (e : Entry) (lim : BitVec 6) : Bool :=
  match limCycles lim with
  | none => false
  | some n => !(s.core c).ctl.dbgctl.getLsbD 2 && e.waited != 0 && n < (s.cycle - BitVec.ofNat 64 (e.waited - 1)).toNat

-- ### Rings

/-- A ring in use: its memory, the offset of its header, its slots, `RID`, `HEAD`, `TAIL` (R262). -/
structure Ring where
  loc : Loc
  off : Nat
  slots : Nat
  logn : Nat
  rid : Nat
  hd : Nat
  tl : Nat

/-- The place of a ring's header in the module. -/
def ringPlace (c : Nat) (ptr : Word) : Nat × Nat :=
  if ptrIndex ptr = 0xFFF1 then (hamletOf c, ptrOffset ptr) else (16, ptrOffset ptr)

def localNum (s : State) (c : Nat) (l : Loc) (off n : Nat) : Nat := leNat ((upTo n).map (fun i => s.localByte c l (off + i)))

/-- R262: the ring of a header pointer: header and slots in the HAMLET window, or in the COMMONS window within one field; else RIGHTS. So is
a `SLOTS` pointer that is no multiple of 8, for which R262 names no cause (log entry 108). -/
def ringAt (c : Nat) (ptr : Word) : M Ring := do
  if ptrIndex ptr ≠ 0xFFF1 ∧ ptrIndex ptr ≠ 0xFFF2 then trap .rights ptr
  else
    let off := ptrOffset ptr
    let l ← checkSpan c .scalar .at ptr off (off + 63)
    localCheck c l ptr off 64
    let s ← get
    let slots := BitVec.ofNat 64 (localNum s c l off 8)
    let logn := localNum s c l (off + 8) 1 % 32
    let lo := ptrOffset slots
    let hi := lo + 8 * 2 ^ logn - 1
    let ok ← tryM (checkSpan c .scalar .at slots lo hi)
    if logn < 1 || 20 < logn || ptrIndex slots != ptrIndex ptr || lo % 8 != 0 || (match ok with | .ok _ => false | .error _ => true) ||
       (l = .commons && !(off / 2 ^ 25 == (off + 63) / 2 ^ 25 && lo / 2 ^ 25 == off / 2 ^ 25 && hi / 2 ^ 25 == off / 2 ^ 25)) then trap .rights ptr
    else pure ⟨l, off, lo, logn, localNum s c l (off + 10) 2, localNum s c l (off + 16) 4, localNum s c l (off + 20) 4⟩

/-- R263: another entry of the same kind has been waiting at the ring for longer. -/
def ringTaken (s : State) (c : Nat) (e : Entry) (push : Bool) (place : Nat × Nat) : Bool :=
  s.cores.any (fun ck => ck.2.q.es.any (fun x =>
    x.phase == .waiting && !x.held && x.since != 0 && (e.since == 0 || x.since < e.since) && ck.1 != c &&
    (match x.op with
     | .rpush .. => push && ringPlace ck.1 (x.x 0) == place
     | .rpop .. => !push && ringPlace ck.1 (x.x 0) == place
     | _ => false)))

def runRpush : Perf := fun c e => do
  let r ← ringAt c (e.x 0)
  let s ← get
  if (r.tl + 2 ^ 32 - r.hd) % 2 ^ 32 < 2 ^ r.logn && !ringTaken s c e true (ringPlace c (e.x 0)) then
    let t := (r.tl + 1) % 2 ^ 32
    modify (fun s => (s.localPut c r.loc (r.slots + 8 * (r.tl % 2 ^ r.logn)) (natBytes 8 (e.x 1).toNat)).localPut c r.loc (r.off + 20) (natBytes 4 t))
    pure (.done [] (wordOk t))
  else throw .wait

def runRpop (d : SReg) : Perf := fun c e => do
  let r ← ringAt c (e.x 0)
  let s ← get
  if r.tl ≠ r.hd && !ringTaken s c e false (ringPlace c (e.x 0)) then
    let h := (r.hd + 1) % 2 ^ 32
    let slot := r.slots + 8 * (r.hd % 2 ^ r.logn)
    localCheck c r.loc (ptrAt (e.x 0) slot) slot 8
    modify (fun s => s.localPut c r.loc (r.off + 16) (natBytes 4 h))
    pure (.done [.s d (BitVec.ofNat 64 (localNum s c r.loc slot 8))] (wordOk h))
  else throw .wait

/-- R260, R263, R270: the faulting pointer of a wait that exceeds its bound. -/
def timeoutPtr (c : Nat) (e : Entry) (s : State) : Word :=
  match e.op with
  | .gateWait .. => (e.x 0 &&& 0x3FFF) + BitVec.ofNat 64 (atBit (s.gate c (gateNum (e.x 0))).cnt 24)
  | .rpush .. | .rpop .. =>
    match (ringAt c (e.x 0) s).1 with
    | .ok r => BitVec.ofNat 64 (r.tl % 2 ^ 24 + atBit (r.hd % 2 ^ 24) 24 + atBit r.rid 48)
    | .error _ => 0
  | .chRecv _ _ _ ch _ => BitVec.ofNat 64 ch.toNat
  | _ => 0

/-- The bound that an entry's word sets on its wait. -/
def Entry.lim (e : Entry) : Option (BitVec 6) :=
  match e.op with
  | .gateWait _ _ _ _ l | .rpush _ _ _ _ l | .rpop _ _ _ _ l | .chRecv _ _ _ _ l => some l
  | _ => none

end Sys2Proof.Machine
end

