-- ==== Sys2Proof/Machine/Copies.lean ====
section
/-! DEFINITION. Handles (R250, R251), the copies and the gleaner (R252 to R258): checks at issue, and the work of each entry. -/

namespace Sys2Proof

/-- R248: the scalar of a word's seed, when it rounds stochastically. -/
def Rnd.srcs (r : Rnd) : List SReg := if r.rm = .sr then [r.seed] else []

-- R258: extremes are ordered as `VMAX` and `VMIN` order them (R204): −0 lies below +0; any NaN gives NaN.

/-- The sign of a value. -/
def Val.sign : Val → Bool
  | .nan => false
  | .inf s => s
  | .fin s _ _ => s
def Val.max (a b : Val) : Val :=
  match a, b with
  | .nan, _ | _, .nan => .nan
  | a, b => if a.lt b then b else if b.lt a then a else if a.sign then b else a
def Val.min (a b : Val) : Val :=
  match a, b with
  | .nan, _ | _, .nan => .nan
  | a, b => if a.lt b then a else if b.lt a then b else if a.sign then a else b

end Sys2Proof

namespace Sys2Proof.Machine

-- ### Operands

/-- The rounding of element `i`: the seed is the last operand. -/
def Entry.mode (e : Entry) (r : Rnd) (i : Nat) : Mode := ⟨r.rm, fld (e.xs.getLastD 0) 0 32, i⟩
/-- R247: the scalar of a word's gate name. -/
def genSrcs (gen : Bool) (xr : SReg) : List SReg := if gen then [xr] else []

/-- R84: a numeric format code, 0x01 to 0x0E. -/
def fmtNumeric (f : Nat) : Bool := 1 ≤ f && f ≤ 0x0E

-- ### Checks at issue (R252, R457)

/-- R252 step 1. -/
def goodHandles (hs : List Handle) : M Unit := check (hs.all Handle.good) .hdlbad 0

/-- R252 steps 4 and 5 on a source, and on a destination. -/
def checkSource (c : Nat) (r : BitVec 512) : M Unit := do
  let _ ← checkShape c .copy .rd r
def checkDest (c : Nat) (r : BitVec 512) : M Unit := do
  let _ ← checkShape c .copy .wr r

/-- R252: the checks of a word that pairs a destination walk with a source walk. `more` stands with the span checks. -/
def pairPre (shape : BitVec 512 → BitVec 512 → Bool) (more : Nat → BitVec 512 → BitVec 512 → M Unit) : Nat → List Word → List Handle → M Unit :=
  fun c _ hs => do
    goodHandles hs
    let d := (hs.getD 0 .unbound).shape
    let r := (hs.getD 1 .unbound).shape
    check (shape d r && writeShapeOk d) .hdlbad 0
    check (shCount d == shCount r) .hdlbad 0
    if shCount r = 0 then pure ()
    else
      more c d r
      checkSource c r
      checkDest c d
      check (readWalkOk r && shInjective d) .hdlbad 0

/-- The buffer of a record is global and compressible; else RIGHTS (R255). -/
def needCompr (c : Nat) (r : BitVec 512) : M Unit := do
  check (isGlobal (shPtr r)) .rights (shPtr r)
  let b ← bufEntry c (ptrIndex (shPtr r))
  check (bufCompr b) .rights (shPtr r)

/-- The tensor of a record, for a user and an access. -/
def tensor (c : Nat) (u : User) (a : Acc) (r : BitVec 512) : M Tens := do
  let l ← checkShape c u a r
  pure ⟨r, l⟩

/-- R111, R252: at the start of a copy: its spans in the issuing croft's L1, and the translation of every page. -/
def openCopy (c : Nat) (src dst : Tens) : M Unit := do
  src.flush c false
  dst.flush c true
  src.translateAll c .rd
  dst.translateAll c .wr

/-- The source and the destination of an entry that pairs two walks. -/
def openPair (c : Nat) (e : Entry) : M (Tens × Tens) := do
  let src ← tensor c .copy .rd (e.hd 1).shape
  let dst ← tensor c .copy .wr (e.hd 0).shape
  openCopy c src dst
  pure (src, dst)

/-- The bytes that a write walk reaches (R259). -/
def walkBytes (r : BitVec 512) : Nat :=
  let f := shFmt r
  if isPlane f || fmtWidth f % 8 == 0 then shBytes r
  else
    let w := fmtWidth f
    ((walkOffs r).foldl (fun (m : SMap Unit) e =>
      (upTo ((elemBit r e + w - 1) / 8 - elemBit r e / 8 + 1)).foldl (fun m i => SMap.put (SMap.del m (elemBit r e / 8 + i)) (elemBit r e / 8 + i) ()) m) []).length

/-- The completion of an entry with a gate arrival of `n` bytes. -/
def finishGen (c : Nat) (e : Entry) (gen : Bool) (n : Nat) (w : Word) : M Fin := do
  let w' ← genArrival c gen (e.x 0) n w
  pure (.done [] w')

-- ### Handles (R251)

/-- Reads and binds a record. -/
def bindAt (c : Nat) (d : HReg) (l : Loc) (ptr : Word) : M Fin := do
  let off := ptrOffset ptr
  flushSpan c l false off (off + 63)
  let bs ← readRun c l .rd ptr off 64
  pure (.done [.h d (bindRecord (BitVec.ofNat 512 (leNat bs)) ptr)] (wordOk 0))

/-- R251, `HDL.SET`. -/
def runHdlSet (d : HReg) : Perf := fun c e => do
  let ptr := e.x 0
  let l ← checkSpan c .copy .rd ptr (ptrOffset ptr) (ptrOffset ptr + 63)
  if ptrOffset ptr % 64 ≠ 0 then trap .align ptr else bindAt c d l ptr

/-- The translations of the pages that a handle's span reaches, which the croft's own TLB holds for it, are dropped (R251; log entry 93). -/
def dropXlats (c : Nat) (h : Handle) : M Unit :=
  modCore c (fun k => match SMap.get none k.ctx.bufs (ptrIndex (shPtr h.shape)) with
    | some b =>
      let t : Tens := ⟨h.shape, .glob b⟩
      if h.bound && shCount h.shape != 0 && t.lo ≤ t.hi then
        let keys := (pageOffs b t.lo t.hi).flatMap (fun o => (upTo 3).map (fun z => tlbKey z k.ctx.asid (bufBase b + o)))
        { k with ctx := { k.ctx with tlb := k.ctx.tlb.filter (fun x => !keys.contains x.1) } }
      else k
    | none => k)

/-- R251, `HDL.INV`: the record's address as the handle keeps it. -/
def runHdlInv (d : HReg) : Perf := fun c e => do
  dropXlats c (e.hd 0)
  let ptr := (e.hd 0).addr
  let l ← checkSpan c .copy .rd ptr (ptrOffset ptr) (ptrOffset ptr + 63)
  bindAt c d l ptr

-- ### CP (R253)

def cpShape (d r : BitVec 512) : Bool := shFmt d == shFmt r || (!isPlane (shFmt d) && !isPlane (shFmt r))

/-- R253: equal codes move the bits; other codes convert (R80, R97). -/
def runCopy (c : Nat) (src dst : Tens) (sd : Int) (md : Nat → Mode) : M Unit :=
  if shFmt src.r = shFmt dst.r then copyBits c src dst
  else pairWalk c src dst (fun e => readVal c false src e.2)
    (fun e v => writeVal c dst e.2 sd (roundFmt (shFmt dst.r) false (md e.1) (v.scale (-sd))))

def runCp (rnd : Rnd) (dscale : BitVec 8) (gen : Bool) : Perf := fun c e => do
  let n := shCount (e.hd 1).shape
  if n = 0 then pure (.done [] (wordOk 0))
  else
    let (src, dst) ← openPair c e
    runCopy c src dst dscale.toInt (e.mode rnd)
    finishGen c e gen (walkBytes dst.r) (wordOk n)

-- ### CP.ACC (R254)

def cpAccShape (d r : BitVec 512) : Bool := (shFmt d == 1 || shFmt d == 2) && fmtNumeric (shFmt r)

/-- R254: one element: `(old × 2^Sd + v) × 2^−Sd`, rounded once to format `f`; `tf` decodes the old bits (R97); BF16 is flushed on input and
output (R87). -/
def accumulated (f tf : Nat) (sd : Int) (old : Nat) (v : Val) : Nat :=
  roundFmt f (f == 2) .rne ((((decodeFmt tf (tf == 2) old).scale sd).add v).scale (-sd))

def accElem (c : Nat) (dst : Tens) (e : Int) (v : Val) : M Unit := do
  let f := shFmt dst.r
  let bit := elemBit dst.r e
  checkTags c dst .wr (sectorsOf bit (fmtWidth f))
  let (tf, sd) := tagForm f (← tagAt c dst.loc .wr (shPtr dst.r) (bit / 8))
  let _ ← atomicAt c dst.loc .wr (ptrAt (shPtr dst.r) (bit / 8)) (bit / 8) (fmtWidth f / 8) 2 (fun old => some (accumulated f tf sd old v))

def runCpAcc (gen : Bool) : Perf := fun c e => do
  let n := shCount (e.hd 1).shape
  if n = 0 then pure (.done [] (wordOk 0))
  else
    let (src, dst) ← openPair c e
    pairWalk c src dst (fun e => readVal c false src e.2) (fun e v => accElem c dst e.2 v)
    finishGen c e gen (walkBytes dst.r) (wordOk n)

-- ### CP.DEC (R255)

/-- R255: the form of a record of fixed-rate lines. -/
def linesShape (r : BitVec 512) : Bool :=
  (shFmt r == 2 || shFmt r == 3 || shFmt r == 5 || shFmt r == 8) && shRank r == 1 && shS r 0 == 1 &&
  ptrOffset (shPtr r) % 256 == 0 && shE r 0 % 128 == 0

def cpDecShape (d r : BitVec 512) : Bool := linesShape r && ptrIndex (shPtr d) == 0xFFF0 && shFmt d == shFmt r

/-- A line as its home slice holds it: code and stored bytes (R255). -/
def storedLine (c : Nat) (l : Loc) (ptr : Word) (off : Nat) : M (Nat × BitVec 2048) := do
  match l with
  | .glob b =>
    let pl ← translate c b (bufBase b + off) .rd ptr
    awaitAt c pl
    let s ← get
    let st := s.lineSt (pl.pa / 256)
    match (if isHostPath pl.pa then some 0 else s.keyMat pl.key) with
    | none => lineErr .keygone pl.pa ptr off
    | some mat =>
      if st.poison || st.ecc then lineErr .ecc pl.pa ptr off
      else do
        set (s.retag (pl.pa / 256) pl.key)
        pure (st.code, s.rawLine (pl.pa / 256) mat)
  | _ => pure (0, 0)

/-- R255: the elements of a line by its code; `none` for a failing block. -/
def expandLine (code : Nat) (raw : BitVec 2048) : Option (BitVec 2048) :=
  if code = 0 ∨ code = 0xF then some raw
  else if code = 1 then some 0
  else decodeBlock (fld raw 0 (8 * (64 * (code - 1)))) (64 * (code - 1))

/-- Reads line `j` of the source into elements 128j to 128j + 127; answers whether the block failed. -/
def decLine (c : Nat) (src dst : Tens) (j : Nat) (ds : List (Nat × Int)) : M Bool := do
  let off := ptrOffset (shPtr src.r) + 256 * j
  let p := ptrAt (shPtr src.r) off
  let (code, raw) ← storedLine c src.loc p off
  if 5 ≤ code ∧ code ≤ 0xE then
    match src.loc with
    | .glob b => do
      let pl ← translate c b (bufBase b + off) .rd p
      lineErr .ecc pl.pa p off
    | _ => pure false
  else
    let x := expandLine code raw
    writeEach (fun d v => writeVal c dst d.2 0 v) ds ((upTo 128).map (fun i => fld (x.getD 0) (16 * i) 16))
    pure x.isNone

def decLines (c : Nat) (src dst : Tens) : Nat → Nat → List (Nat × Int) → M (List Nat)
  | 0, _, _ => pure []
  | n + 1, j, ds => do
    let bad ← decLine c src dst j (ds.take 128)
    let r ← decLines c src dst n (j + 1) (ds.drop 128)
    pure (if bad then j :: r else r)

def runCpDec (gen : Bool) : Perf := fun c e => do
  let n := shCount (e.hd 1).shape
  if n = 0 then pure (.done [] (wordOk 0))
  else
    let (src, dst) ← openPair c e
    let bad ← decLines c src dst (n / 128) 0 (numbered dst.r)
    finishGen c e gen (2 * n) (match bad with
      | [] => wordOk n
      | j :: _ => cword 6 (min bad.length 255) j)

-- ### CP.CMP (R256)

def cpCmpShape (d r : BitVec 512) : Bool :=
  !isPlane (shFmt r) && fmtWidth (shFmt r) == 16 && shCount r % 128 == 0 && linesShape d

/-- Stores a line under a code, data and code in one step; bytes beyond the class keep what they hold (R256, R425). The key is
ignored on the host path (R357). -/
def State.putBlock (s : State) (line key code n : Nat) (x : Nat) : Except LineErr State :=
  let host := isHostPath (256 * line)
  match (if host then some 0 else s.keyMat key) with
  | none => .error .keygone
  | some mat =>
    let st := s.lineSt line
    let m := BitVec.ofNat 256 (2 ^ n - 1)
    -- bytes beyond the class stay the stored ones, as this key material reads them
    let s0 := (s.sliceRoom line).outdate line m
    let s1 := if st.mat = mat then s0 else { s0 with mem := putBytes s.mem (256 * line) (s.rawLine line mat) allBytes 256 }
    .ok ({ s1 with mem := putBytes s1.mem (256 * line) (BitVec.ofNat 2048 x) m 256 }.setLineSt line
      { code := code, mat := mat, dirty := if host then 0 else key + 1, poison := st.poison && n != 256, ecc := st.ecc && n != 256, got := 0 })

/-- Writes line `j` of the destination; answers its bytes and whether it was escaped. -/
def cmpLine (c : Nat) (dst : Tens) (op j : Nat) (xs : List Nat) : M (Nat × Bool) := do
  let off := ptrOffset (shPtr dst.r) + 256 * j
  let p := ptrAt (shPtr dst.r) off
  let line := BitVec.ofNat 2048 ((xs.zipIdx.map (fun q => atBit q.1 (16 * q.2))).foldl (· + ·) 0)
  let (code, n) := classOf op line
  match dst.loc with
  | .glob b =>
    let pl ← translate c b (bufBase b + off) .wr p
    awaitAt c pl
    match (← get).putBlock (pl.pa / 256) pl.key code n (if code = 0xF then line.toNat else (blockOf line).1) with
    | .error e => lineErr e pl.pa p off
    | .ok s => set s
  | _ => pure ()
  pure (n, code == 0xF)

/-- The 16 bits of a source element as `CP` would convert it (R253): the value under its tag, or the bits when nothing changes them. -/
def cmpElem (c : Nat) (src : Tens) (f : Nat) (md : Nat → Mode) (e : Nat × Int) : M Nat := do
  let bit := elemBit src.r e.2
  let g ← tagAt c src.loc .rd (shPtr src.r) (bit / 8)
  if shFmt src.r = f && tagForm f g == (f, 0) then readBits c src.loc .rd (shPtr src.r) bit 16
  else
    let v ← readVal c false src e.2
    pure (roundFmt f false (md e.1) v)

def cmpLines (c : Nat) (src dst : Tens) (op : Nat) (md : Nat → Mode) : Nat → Nat → List (Nat × Int) → M (Nat × Nat)
  | 0, _, _ => pure (0, 0)
  | n + 1, j, es => do
    let r ← readUntil (cmpElem c src (shFmt dst.r) md) (es.take 128)
    match r.2 with
    | some st => do
      -- what comes before a failing element is written (R79), as a write that leaves the rest of its line as it is (R82)
      let off := ptrOffset (shPtr dst.r) + 256 * j
      writeRun c dst.loc (ptrAt (shPtr dst.r) off) off (r.1.flatMap (natBytes 2))
      throw st
    | none => do
      let (k, esc) ← cmpLine c dst op j r.1
      let (k', e') ← cmpLines c src dst op md n (j + 1) (es.drop 128)
      pure (k + k', bitNat esc + e')

def runCpCmp (rnd : Rnd) (op : BitVec 3) (gen : Bool) : Perf := fun c e => do
  let n := shCount (e.hd 1).shape
  if n = 0 then pure (.done [] (wordOk 0))
  else
    let (src, dst) ← openPair c e
    let (k, esc) ← cmpLines c src dst op.toNat (e.mode rnd) (n / 128) 0 (numbered src.r)
    finishGen c e gen k (cword 0 (min esc 255) n)

-- ### CP.PF (R257)

/-- The lines that a span brings into the slices, page by page until a page drops (R60, R351): their number, and whether a page dropped for
want of a mapping. -/
def pfPages (s : State) (c : Nat) (b : BitVec 256) (hi : Nat) : List Nat → Nat × Bool
  | [] => (0, false)
  | off :: offs =>
    match s.leafAt c (bufBase b + off) .rd with
    | .leaf e level _ =>
      if ptePull e then (0, true)
      else if !leafGrants .rd e || s.refuses b (leafPa e level (bufBase b + off)) then (0, false)
      else
        let last := min hi (off + (65535 - (bufBase b + off) % 65536))
        let r := pfPages s c b hi offs
        (last / 256 - off / 256 + 1 + r.1, r.2)
    | .unmapped .. => (0, true)
    | .held _ | .failed .. => (0, false)

def runCpPf : Perf := fun c e => do
  let r := (e.hd 0).shape
  if shCount r = 0 || !isGlobal (shPtr r) || !readWalkOk r then pure (.done [] (wordOk 0))
  else match ← tryM (checkShape c .copy .rd r) with
    | .ok (.glob b) => do
      let t : Tens := ⟨r, .glob b⟩
      let s ← get
      let offs := (pageOffs b t.lo t.hi).map (fun o => max o t.lo)
      let (n, dropped) := pfPages s c b t.hi offs
      if dropped then dropPf (s.core c).ctx.part
      pure (.done [] (wordOk n))
    | .error .wait => throw .wait
    | _ => pure (.done [] (wordOk 0))

-- ### GLEAN (R258)

def gleanShape (op : Nat) (d r : BitVec 512) : Bool :=
  fmtNumeric (shFmt r) && shRank d == 1 && fmtNumeric (shFmt d) && (op != 4 || shFmt d == 7)

/-- The checks of `GLEAN`: its walks are not paired; a source in a local window raises RIGHTS. -/
def gleanPre (op : Nat) : Nat → List Word → List Handle → M Unit := fun c _ hs => do
  goodHandles hs
  let d := (hs.getD 0 .unbound).shape
  let r := (hs.getD 1 .unbound).shape
  check (gleanShape op d r && writeShapeOk d) .hdlbad 0
  if shCount r = 0 || shCount d = 0 then pure ()
  else
    check (isGlobal (shPtr r)) .rights (shPtr r)
    checkSource c r
    checkDest c d
    check (readWalkOk r && shInjective d) .hdlbad 0

/-- R258: the result of a scan over the values of the source, but for `IDXNZ`. -/
def gleanResult (op f : Nat) (vs : List Val) : Val :=
  if op = 0 then
    if isFloat f then f32 (vs.foldl (fun acc v => toF32 ((f32 acc).add v)) 0x80000000) else vs.foldl Val.add (.fin false 0 0)
  else if op = 1 then vs.tail.foldl Val.max (vs.headD .zero)
  else if op = 2 then vs.tail.foldl Val.min (vs.headD .zero)
  else Val.ofInt (vs.filter (fun v => !v.isZero)).length

/-- The values of a walk, without tags (R78). The table of R87 has no row for `GLEAN`: subnormals keep their value (log entry 94). -/
def gleanVal (c : Nat) (src : Tens) (e : Nat × Int) : M Val := do
  let f := shFmt src.r
  let x ← readBits c src.loc .rd (shPtr src.r) (elemBit src.r e.2) (fmtWidth f)
  pure (decodeFmt f false x)

def runGlean (rnd : Rnd) (op : BitVec 3) : Perf := fun c e => do
  let n := shCount (e.hd 1).shape
  if n = 0 || shCount (e.hd 0).shape = 0 then pure (.done [] (wordOk 0))
  else
    let (src, dst) ← openPair c e
    let r ← readUntil (gleanVal c src) (numbered src.r)
    match r.2 with
    | some st => throw st
    | none =>
      if op = 4 then do
        let idx := (r.1.zipIdx.filter (fun p => !p.1.isZero)).map (fun p => p.2 % 2 ^ 32)
        writeEach (fun d x => writeVal c dst d.2 0 x) (numbered dst.r) idx
        pure (.done [] (wordOk idx.length))
      else do
        let x := roundFmt (shFmt dst.r) false (e.mode rnd 0) (gleanResult op.toNat (shFmt src.r) r.1)
        writeEach (fun d x => writeVal c dst d.2 0 x) (numbered dst.r) [x]
        pure (.done [] (wordOk n))

end Sys2Proof.Machine
end

