-- ==== Sys2Proof/Machine/Loom.lean ====
section
/-! DEFINITION. The loom (R222 to R243): nest slots, products, accumulator tiles, plane pack and unpack; and the residual items that block
words push (R276 to R278). -/

namespace Sys2Proof

/-- R232: a plane group read with fewer planes. -/
def Group.lower (x : Group) (n ne : Nat) : Group := { x with q := x.q.map (fun q => q / (2 ^ (n - ne) : Nat)) }

end Sys2Proof

namespace Sys2Proof.Machine

-- ### Residual items (R278)

/-- Writes an entry's residual item, at the place its issue assigned. -/
def pushItem (c : Nat) (e : Entry) (bs : List Byte) : M Unit := if e.aux = 0 then pure () else stackPut c (e.aux - 1) bs

-- ### Nest slots (R223 to R227)

def updAt (xs : List Nat) (n v : Nat) : List Nat := xs.set n v

/-- A change of a nest slot when its entry starts (R224). -/
def modSlot (sl : LReg) (f : Nest → Nest) : Perf := fun c _ => do
  modCore c (fun k => k.wrSlot sl (f (k.rdSlot sl)))
  pure (.done [] (wordOk 0))

def runNestClr (sl : LReg) : Perf := modSlot sl (fun _ => Nest.clear)
/-- R226. -/
def runNestLvl (sl : LReg) (lvl : BitVec 3) (extm1 : BitVec 24) (sa sb : BitVec 14) : Perf :=
  modSlot sl (fun x => { x with e := updAt x.e lvl.toNat (extm1.toNat + 1), sa := updAt x.sa lvl.toNat sa.toNat, sb := updAt x.sb lvl.toNat sb.toNat })
/-- R227: 0 planes encode 16. -/
def planesOf (n : BitVec 4) : Nat := if n = 0 then 16 else n.toNat
def runNestOpt (sl : LReg) (o : NestOpt) : Perf := fun c e =>
  modSlot sl (fun x => { x with na := planesOf o.na, nb := planesOf o.nb, gg := o.gg.toNat, pi := o.pi.toNat, rma := o.rma, rmb := o.rmb,
                                tagp := o.tagp, seed := fld (e.xs.getLastD 0) 0 32 }) c e
def runNestAcc (sl : LReg) (d : AReg) (rorg : BitVec 7) (corg : BitVec 6) : Perf :=
  modSlot sl (fun x => { x with acc := d.toNat, rorg := rorg.toNat, corg := corg.toNat })

/-- A slot as a number: the snapshot of R298 and the image of R378, in the device's own layout (log entry 21). -/
def Nest.bits (x : Nest) : Nat :=
  let lv := ((upTo 6).map (fun l => atBit (x.e.getD l 1 - 1 + atBit (x.sa.getD l 0) 24 + atBit (x.sb.getD l 0) 38) (52 * l))).foldl (· + ·) 0
  lv + atBit x.acc 312 + atBit x.rorg 315 + atBit x.corg 322 + atBit (x.na - 1) 328 + atBit (x.nb - 1) 332 + atBit x.gg 336 + atBit x.pi 338 +
  atBit (bitNat x.rma) 347 + atBit (bitNat x.rmb) 348 + atBit (bitNat x.tagp) 349 + atBit x.seed 350
def Nest.ofBits (n : Nat) : Nest where
  e := (upTo 6).map (fun l => natBits n (52 * l) 24 + 1)
  sa := (upTo 6).map (fun l => natBits n (52 * l + 24) 14)
  sb := (upTo 6).map (fun l => natBits n (52 * l + 38) 14)
  acc := natBits n 312 3
  rorg := natBits n 315 7
  corg := natBits n 322 6
  na := natBits n 328 4 + 1
  nb := natBits n 332 4 + 1
  gg := natBits n 336 2
  pi := natBits n 338 9
  rma := n.testBit 347
  rmb := n.testBit 348
  tagp := n.testBit 349
  seed := natBits n 350 32

/-- The group size of a slot (R223). -/
def Nest.g (x : Nest) : Nat := 16 * 2 ^ x.gg

/-- The group indices (kA, kB) of a walk, level 5 outermost (R229). -/
def Nest.walk (x : Nest) : Nat → Nat → Nat → List (Nat × Nat)
  | 0, a, b => [(a, b)]
  | l + 1, a, b => ((upTo (x.e.getD l 1)).map (fun i => x.walk l (a + i * x.sa.getD l 0) (b + i * x.sb.getD l 0))).flatten

def Nest.iters (x : Nest) : List (Nat × Nat) := x.walk 6 0 0

/-- The number of iterations, and the greatest group index on each side (R228). -/
def Nest.count (x : Nest) : Nat := (x.e.take 6).foldl (· * ·) 1
def Nest.maxA (x : Nest) : Nat := ((upTo 6).map (fun l => (x.e.getD l 1 - 1) * x.sa.getD l 0)).foldl (· + ·) 0
def Nest.maxB (x : Nest) : Nat := ((upTo 6).map (fun l => (x.e.getD l 1 - 1) * x.sb.getD l 0)).foldl (· + ·) 0

-- ### Operands of products (R228 to R233)

/-- R228: the formats of operand records. -/
def loomFmt (f : Nat) : Bool := (1 ≤ f && f ≤ 9)
def operandFmtOk (f g : Nat) : Bool := loomFmt f || (isPlane f && planeG f == g)
/-- R228: groups along K. -/
def groupsK (r : BitVec 512) (g : Nat) : Nat := if isPlane (shFmt r) then shE r 0 else (shE r 0 + g - 1) / g

/-- One operand of a product: tensor, group size, planes after the cap, rounding, seed, `TAGP`. -/
structure Side where
  t : Tens
  g : Nat
  n : Nat
  rm : Rm
  seed : Nat
  tagp : Bool

/-- A group as a product takes it: effective planes and tag scale with it. -/
structure SideGroup where
  gr : Group
  n : Nat
  s : Int

/-- R233: every other sector of a plane block carries 0x00 or the code that governs it. -/
def checkBlockTags (c : Nat) (t : Tens) (code : Nat) : List Nat → M Unit
  | [] => pure ()
  | off :: offs => do
    match ← tagAt c t.loc .rd (shPtr t.r) off with
    | none => pure ()
    | some g => check (g % 256 == 0 || g % 256 == code) .hdlbad (sectorPtr t.r off)
    checkBlockTags c t code offs

/-- R233: the code that governs a plane block and the scale of its groups, by the tag of its first sector: also where the block's sectors carry
different scales (log entry 107). -/
def blockHead (c : Nat) (t : Tens) (tagp : Bool) (blk : Nat) : M (Nat × Int) := do
  let f := shFmt t.r
  match ← tagAt c t.loc .rd (shPtr t.r) blk with
  | none => pure (f, 0)
  | some g0 =>
    let tf := g0 % 256
    let ok := tf == 0 || (if tagp then isPlane tf && planeG tf == planeG f && planeN tf ≤ planeN f else tf == f)
    check ok .hdlbad (sectorPtr t.r blk)
    pure (if tf = 0 then f else tf, sextNat (g0 / 256) 8)

/-- R233: the plane limit and the scale that a block's tags give its groups. -/
def blockTag (c : Nat) (t : Tens) (tagp : Bool) (blk : Nat) : M (Nat × Int) := do
  let (code, sc) ← blockHead c t tagp blk
  checkBlockTags c t code ((upTo (planeB (shFmt t.r) / 64)).tail.map (fun i => blk + 64 * i))
  pure (planeN code, sc)

/-- R229 to R233: group `k` of row `m` of batch `b`. -/
def sideGroup (c : Nat) (x : Side) (b m k : Nat) : M SideGroup := do
  let r := x.t.r
  let base := (m : Int) * shS r 1 + (b : Int) * shS r 2
  if isPlane (shFmt r) then
    let e := (k : Int) * shS r 0 + base
    let (lim, sc) ← blockTag c x.t x.tagp (groupBlk r e)
    let n := planeN (shFmt r)
    let ne := min (min x.n n) lim
    let gr ← readPlanes c x.t e (n - ne)
    pure ⟨gr.lower n ne, ne, sc⟩
  else
    let row := shE r 0 * (m + shE r 1 * b)
    let idx := (upTo x.g).map (fun j => x.g * k + j)
    let xs ← readUntil (fun (p : Nat × Int) => readVal c true x.t p.2)
      ((idx.filter (fun i => i < shE r 0)).map (fun i => (row + i, (i : Int) * shS r 0 + base)))
    match xs.2 with
    | some st => throw st
    | none =>
      let vs := (xs.1.zipIdx.map (fun v => (v.1, (⟨x.rm, x.seed, row + x.g * k + v.2⟩ : Mode)))) ++
        (idx.filter (fun i => shE r 0 ≤ i)).map (fun _ => (Val.zero, Mode.rne))
      pure ⟨toGroup x.n vs, x.n, 0⟩

/-- The groups of every row at one index. -/
def sideRows (c : Nat) (x : Side) (b k : Nat) : List Nat → M (List SideGroup)
  | [] => pure []
  | m :: ms => do
    let g ← sideGroup c x b m k
    let r ← sideRows c x b k ms
    pure (g :: r)

/-- Every iteration's groups of both operands. -/
def sidePairs (c : Nat) (x y : Side) (b : Nat) : List (Nat × Nat) → M (List (List SideGroup × List SideGroup))
  | [] => pure []
  | (ka, kb) :: r => do
    let p ← sideRows c x b ka (upTo (shE x.t.r 1))
    let q ← sideRows c y b kb (upTo (shE y.t.r 1))
    let z ← sidePairs c x y b r
    pure ((p, q) :: z)

-- ### Products

/-- R103 applied to one element, iteration by iteration. -/
def accumulateAll (pi m n : Nat) (x : AccEl) : List (List SideGroup × List SideGroup) → AccEl
  | [] => x
  | (p, q) :: r =>
    let a := p.getD m ⟨⟨0, []⟩, 1, 0⟩
    let b := q.getD n ⟨⟨0, []⟩, 1, 0⟩
    let u := accumulate pi (groupProduct a.n b.n a.s b.s a.gr b.gr) x.h.toNat x.w.toNat x.cnt
    accumulateAll pi m n ⟨BitVec.ofNat 32 u.1, BitVec.ofNat 32 u.2.1, u.2.2⟩ r

/-- Updates the output region at (r0, c0) of the slot's tile. -/
def CoreSt.addProduct (k : CoreSt) (x : Nest) (r0 c0 ma nb : Nat) (gs : List (List SideGroup × List SideGroup)) : CoreSt :=
  (upTo ma).foldl (fun k m => (upTo nb).foldl (fun k n =>
    k.wrAcc x.acc (r0 + m) (c0 + n) (accumulateAll x.pi m n (k.rdAcc x.acc (r0 + m) (c0 + n)) gs)) k) k

/-- R228 step 3, for `MM.RUN` and for `MM.BATCH` (R235). -/
def regionOk (batch : Bool) (x : Nest) (a b : BitVec 512) : Bool :=
  if batch then shE a 1 ≤ 8 && shE b 1 ≤ 4 && shE a 2 == shE b 2 && shE a 2 ≤ 16 && x.rorg == 0 && x.corg == 0
  else x.rorg + shE a 1 ≤ 128 && x.corg + shE b 1 ≤ 64

def rankOk (batch : Bool) (r : BitVec 512) : Bool := if batch then shRank r == 3 else shRank r == 1 || shRank r == 2

/-- R228 steps 1 to 3. -/
def productForm (batch : Bool) (x : Nest) (hs : List Handle) : M Unit := do
  goodHandles hs
  let a := (hs.getD 0 .unbound).shape
  let b := (hs.getD 1 .unbound).shape
  check (operandFmtOk (shFmt a) x.g && operandFmtOk (shFmt b) x.g && rankOk batch a && rankOk batch b) .hdlbad 0
  check (regionOk batch x a b) .hdlbad 0

/-- R228 steps 4 to 7: the operands, with R111 on their spans. -/
def openProduct (c : Nat) (x : Nest) (a b : BitVec 512) : M (Tens × Tens) := do
  check (x.count ≤ 2 ^ 24 && x.maxA < groupsK a x.g && x.maxB < groupsK b x.g) .hdlbad 0
  let ta ← tensor c .loom .rd a
  let tb ← tensor c .loom .rd b
  check (readWalkOk a && readWalkOk b) .hdlbad 0
  ta.flush c false
  tb.flush c false
  ta.translateAll c .rd
  tb.translateAll c .rd
  pure (ta, tb)

/-- R102, R231: the operands of a slot under the precision caps of A and B. -/
def sidesOf (x : Nest) (caps : Nat × Nat) (ta tb : Tens) : Side × Side :=
  (⟨ta, x.g, min caps.1 x.na, if x.rma then .sr else .rne, x.seed, x.tagp⟩,
   ⟨tb, x.g, min caps.2 x.nb, if x.rmb then .sr else .rne, x.seed, x.tagp⟩)

/-- R452: the precision caps in force when an entry started; 16 is none. -/
def Entry.caps (e : Entry) : Nat × Nat := match e.start with | some x => (x.capa, x.capb) | none => (16, 16)

/-- The products of one entry, batch by batch: groups first, then every update (R229, R234, R235). -/
def batchGroups (c : Nat) (a b : Side) (it : List (Nat × Nat)) : List Nat → M (List (List (List SideGroup × List SideGroup)))
  | [] => pure []
  | n :: ns => do
    let x ← sidePairs c a b n it
    let r ← batchGroups c a b it ns
    pure (x :: r)

/-- R243: the completion word of a product. -/
def productWord (x : Nest) (caps : Nat × Nat) : Word :=
  wordOk x.count + (if caps.1 < x.na || caps.2 < x.nb then 0x10000 else 0)

/-- The saved walk of an operand, padded to a multiple of 8 bytes (R298). -/
def savedWalk (bs : List Byte) : List Byte := bs ++ List.replicate ((8 - bs.length % 8) % 8) 0

/-- The saved walk of an operand (R298) of a product in which the other one may be empty (R73). -/
def saveOperand (c : Nat) (save : Bool) (r : BitVec 512) : M (List Byte) := do
  if !save || shCount r = 0 then pure []
  else
    let t ← tensor c .loom .rd r
    check (readWalkOk r) .hdlbad 0
    t.flush c false
    t.translateAll c .rd
    readTensor c t

/-- R228, R229, R235. `saveA`, `saveB`: the operand goes into the residual item (R298). An error on an operand leaves the output as it was before
the entry, and the word of an empty product has no capped indication (log entry 107). -/
def runProduct (batch saveA saveB : Bool) (sl : LReg) : Perf := fun c e => do
  let k ← getCore c
  let x := k.rdSlot sl
  productForm batch x e.hs
  let a := (e.hd 0).shape
  let b := (e.hd 1).shape
  if shCount a = 0 || shCount b = 0 then
    let ba ← saveOperand c saveA a
    let bb ← saveOperand c saveB b
    pushItem c e (natBytes 64 x.bits ++ savedWalk ba ++ savedWalk bb)
    pure (.done [] (wordOk 0))
  else
    let (ta, tb) ← openProduct c x a b
    let (sa, sb) := sidesOf x e.caps ta tb
    let gs ← batchGroups c sa sb x.iters (upTo (shE a 2))
    let ba ← (if saveA then readTensor c ta else pure [] : M (List Byte))
    let bb ← (if saveB then readTensor c tb else pure [] : M (List Byte))
    pushItem c e (natBytes 64 x.bits ++ savedWalk ba ++ savedWalk bb)
    modCore c (fun k => gs.zipIdx.foldl (fun k q =>
      k.addProduct x (if batch then 8 * q.2 else x.rorg) (if batch then 4 * q.2 else x.corg) (shE a 1) (shE b 1) q.1) k)
    let w := productWord x e.caps
    if w.getLsbD 16 then modPart k.ctx.part (fun q => { q with launches := q.launches.map (fun l =>
      if k.slot.running.map Point.lid == some l.lid then { l with cap := true } else l) })
    pure (.done [] w)

-- ### Accumulator tiles (R236 to R239)

/-- The exact sum H + W of an element (R236). -/
def AccEl.value (x : AccEl) : Val := (f32 x.h.toNat).add (decodeFloat 0xD false x.w.toNat)
/-- R236: the element's value as FP32. -/
def AccEl.toFp32 (x : AccEl) : Nat := toF32 x.value

/-- Changes every element of a tile (R237). -/
def CoreSt.mapTile (k : CoreSt) (t : Nat) (f : AccEl → AccEl) : CoreSt :=
  (upTo 128).foldl (fun k r => (upTo 64).foldl (fun k c => k.wrAcc t r c (f (k.rdAcc t r c))) k) k

/-- R237: a NaN pattern becomes the canonical NaN. -/
def runAccInit (d : AReg) : Perf := fun c e => do
  let h := BitVec.ofNat 32 (toF32 (f32 (fld (e.x 0) 0 32)))
  modCore c (fun k => k.mapTile d.toNat (fun _ => ⟨h, 0, 0⟩))
  pure (.done [] (wordOk 0))

def runAccFlush (d : AReg) : Perf := fun c _ => do
  modCore c (fun k => k.mapTile d.toNat (fun x => ⟨BitVec.ofNat 32 x.toFp32, 0, 0⟩))
  pure (.done [] (wordOk 0))

/-- R238, R239: formats, rank and region of a tile transfer. -/
def tileForm (hs : List Handle) (roff coff : Nat) : M Unit := do
  goodHandles hs
  let r := (hs.getD 0 .unbound).shape
  check ((loomFmt (shFmt r) || shFmt r == 0xD) && (shRank r == 1 || shRank r == 2)) .hdlbad 0
  check (roff + shE r 1 ≤ 128 && coff + shE r 0 ≤ 64) .hdlbad 0

/-- The tile row and column of walk number `n` (R238). -/
def tileAt (r : BitVec 512) (roff coff n : Nat) : Nat × Nat := (roff + n / shE r 0, coff + n % shE r 0)

/-- R238. A record of no element is done at once, without a check of its span or its walk (log entry 107). No flush of BF16 or FP16 subnormals is made: R87 lists none here (log entry 94). -/
def runAccRd (a : AReg) (rnd : Rnd) (roff : BitVec 7) (coff : BitVec 6) : Perf := fun c e => do
  tileForm e.hs roff.toNat coff.toNat
  let r := (e.hd 0).shape
  if shCount r = 0 then pure (.done [] (wordOk 0))
  else
    let t ← tensor c .loom .wr r
    check (shInjective r) .hdlbad 0
    t.flush c true
    t.translateAll c .wr
    let k ← getCore c
    let xs := (numbered r).map (fun p =>
      let q := tileAt r roff.toNat coff.toNat p.1
      roundFmt (shFmt r) false (e.mode rnd p.1) (k.rdAcc a.toNat q.1 q.2).value)
    writeEach (fun p x => writeVal c t p.2 0 x) (numbered r) xs
    pure (.done [] (wordOk 0))

/-- R239: one element of `ACC.WR` and `ACC.WR.ADD`. -/
def AccEl.take (add : Bool) (x : AccEl) (v : Val) : AccEl :=
  if add then { x with h := BitVec.ofNat 32 (toF32 ((f32 x.h.toNat).add v)) } else ⟨BitVec.ofNat 32 (toF32 v), 0, 0⟩

/-- R239. BF16 and FP16 subnormals are read at their values: R87 lists no flush here (log entry 94). -/
def runAccWr (add : Bool) (d : AReg) (roff : BitVec 7) (coff : BitVec 6) : Perf := fun c e => do
  tileForm e.hs roff.toNat coff.toNat
  let r := (e.hd 0).shape
  if shCount r = 0 then pure (.done [] (wordOk 0))
  else
    let t ← tensor c .loom .rd r
    check (readWalkOk r) .hdlbad 0
    t.flush c false
    t.translateAll c .rd
    let vs ← readUntil (fun p => readVal c false t p.2) (numbered r)
    modCore c (fun k => (vs.1.zipIdx).foldl (fun k v =>
      let q := tileAt r roff.toNat coff.toNat v.2
      k.wrAcc d.toNat q.1 q.2 ((k.rdAcc d.toNat q.1 q.2).take add v.1)) k)
    match vs.2 with
    | some st => throw st
    | none => pure (.done [] (wordOk 0))

-- ### Plane pack and unpack (R241)

/-- A list in runs of `n`. -/
def chunks {α : Type} (n : Nat) : Nat → List α → List (List α)
  | 0, _ => []
  | k + 1, xs => if xs.isEmpty then [] else xs.take n :: chunks n k (xs.drop n)

/-- R241: rank and outer extents agree. -/
def packOuter (p n : BitVec 512) : Bool := shRank p == shRank n && (upTo 5).all (fun k => shE p (k + 1) == shE n (k + 1))

def planePackForm (d r : BitVec 512) : Bool :=
  isPlane (shFmt d) && loomFmt (shFmt r) && packOuter d r && shE d 0 == (shE r 0 + planeG (shFmt d) - 1) / planeG (shFmt d)
def planeUnpkForm (d r : BitVec 512) : Bool :=
  isPlane (shFmt r) && (shFmt d == 1 || shFmt d == 2 || shFmt d == 3) && packOuter r d &&
  ((shE r 0 : Int) - 1) * planeG (shFmt r) < shE d 0 && shE d 0 ≤ shE r 0 * planeG (shFmt r)

/-- The walk of a numeric record, in the groups of each row. -/
def rowGroups (r : BitVec 512) (g : Nat) : List (List (Nat × Int)) :=
  ((chunks (shE r 0) (shCount r) (numbered r)).map (fun row => chunks g row.length row)).flatten

/-- Source and destination of a plane instruction, checked as R228 steps 5 to 7 and R238. -/
def openPlane (c : Nat) (e : Entry) : M (Tens × Tens) := do
  let r := (e.hd 1).shape
  let d := (e.hd 0).shape
  let src ← tensor c .loom .rd r
  let dst ← tensor c .loom .wr d
  check (readWalkOk r && shInjective d) .hdlbad 0
  openCopy c src dst
  pure (src, dst)

/-- The group of form `f` that the elements `es` of a row come to. -/
def packGroup (c : Nat) (src : Tens) (f : Nat) (md : Nat → Mode) (es : List (Nat × Int)) : M Group := do
  let vs ← readUntil (fun p => readVal c true src p.2) es
  match vs.2 with
  | some st => throw st
  | none =>
    let xs := (vs.1.zip es).map (fun v => (v.1, md v.2.1))
    pure (toGroup (planeN f) (xs ++ List.replicate (planeG f - xs.length) (Val.zero, Mode.rne)))

def runPlanePack (rnd : Rnd) : Perf := fun c e => do
  goodHandles e.hs
  let d := (e.hd 0).shape
  let r := (e.hd 1).shape
  check (planePackForm d r) .hdlbad 0
  if shCount r = 0 || shCount d = 0 then pure (.done [] (wordOk 0))
  else
    let (src, dst) ← openPlane c e
    pairOver c src dst (packGroup c src (shFmt d) (e.mode rnd)) (fun p g => writeGroup c dst p.2 g) (rowGroups r (planeG (shFmt d))) (numbered d)
    pure (.done [] (wordOk 0))

/-- The values of a group of a plane-form walk (R100); the tags of the sectors that it lies in are checked first (R79). -/
def unpackGroup (c : Nat) (src : Tens) (e : Int) : M (List Val) := do
  let f := shFmt src.r
  let blk := groupBlk src.r e
  let (code, sc) ← blockHead c src false blk
  checkBlockTags c src code ((sectorsOf (8 * groupPlanes src.r e) (8 * groupBytes f)).filter (fun off => off != blk))
  let g ← readGroup c src e
  pure (g.q.map (groupVal (planeN f) sc g.e))

/-- R241. BF16 and FP16 subnormals are written: R87 lists no flush here (log entry 94). -/
def runPlaneUnpk (rnd : Rnd) : Perf := fun c e => do
  goodHandles e.hs
  let d := (e.hd 0).shape
  let r := (e.hd 1).shape
  check (planeUnpkForm d r) .hdlbad 0
  if shCount r = 0 || shCount d = 0 then pure (.done [] (wordOk 0))
  else
    let (src, dst) ← openPlane c e
    pairOver c src dst (unpackGroup c src)
      (fun es vs => writeEach (fun p v => writeVal c dst p.2 0 (roundFmt (shFmt d) false (e.mode rnd p.1) v)) es vs)
      (walkOffs r) (rowGroups d (planeG (shFmt r)))
    pure (.done [] (wordOk 0))

end Sys2Proof.Machine
end

