-- ==== Sys2Proof/Decode.lean ====
section
/-! DEFINITION. The decoder of R164, total on any bytes, and after it the encoder. A unit is one governed word and, where one
stands in front of it, an `EXT`. -/

namespace Sys2Proof

/-- A fetched unit: the payload of its `EXT`, when it has one, and its governed word. -/
structure Raw where
  xp : Option (BitVec 52)
  w : Word
deriving DecidableEq, Repr

/-- The formats of R151. -/
inductive Fmt where
  | r | i | j | t
deriving DecidableEq, Repr

/-- What the opcode map and the operand fields say of a unit: whether `EXT` may govern it, whether it is privileged, its format,
whether a field breaks R152 or R153 (ILLOP), whether a register field breaks R154 (BADREG), and the instruction. -/
inductive Arm where
  | mk (e p : Bool) (fmt : Fmt) (ill bad : Bool) (ins : Instr)

/-- Why bytes name no instruction. `short`: fewer bytes than the unit has. -/
inductive DecErr where
  | illop | badreg | short
deriving DecidableEq, Repr

def Raw.ver (f : Raw) : BitVec 2 := f.w.extractLsb' 62 2
def Raw.sc (f : Raw) : BitVec 4 := f.w.extractLsb' 58 4
def Raw.maj (f : Raw) : BitVec 6 := f.w.extractLsb' 52 6
def Raw.pred (f : Raw) : BitVec 3 := f.w.extractLsb' 49 3
def Raw.pn (f : Raw) : Bool := f.w.getLsbD 48
def Raw.fn (f : Raw) : BitVec 6 := f.w.extractLsb' 42 6
/-- The option bits of a format-T unit; zero without a prefix (R159). -/
def Raw.x (f : Raw) : BitVec 52 := f.xp.getD 0
def Raw.hdr (f : Raw) : Hdr := ⟨f.ver, f.sc, f.pred, f.pn, f.xp.isSome⟩
-- formats R, I and J (R151)
def Raw.d (f : Raw) : BitVec 7 := f.w.extractLsb' 35 7
def Raw.a (f : Raw) : BitVec 7 := f.w.extractLsb' 28 7
def Raw.b (f : Raw) : BitVec 7 := f.w.extractLsb' 21 7
def Raw.c (f : Raw) : BitVec 7 := f.w.extractLsb' 14 7
def Raw.mod (f : Raw) : BitVec 14 := f.w.extractLsb' 0 14
def Raw.imm28 (f : Raw) : BitVec 28 := f.w.extractLsb' 0 28
def Raw.ja (f : Raw) : BitVec 7 := f.w.extractLsb' 35 7
def Raw.imm35 (f : Raw) : BitVec 35 := f.w.extractLsb' 0 35
/-- The 64-bit immediate of a format-I unit (R159). -/
def Raw.imm (f : Raw) : Word :=
  match f.xp with
  | some x => x.extractLsb' 0 36 ++ f.imm28
  | none => f.imm28.signExtend 64
-- format T (R151, R152)
def Raw.td (f : Raw) : BitVec 6 := f.w.extractLsb' 36 6
def Raw.o1 (f : Raw) : BitVec 6 := f.w.extractLsb' 12 6
def Raw.o2 (f : Raw) : BitVec 6 := f.w.extractLsb' 6 6
def Raw.o3 (f : Raw) : BitVec 6 := f.w.extractLsb' 0 6
def Raw.toks (f : Raw) : Toks := ⟨f.td, f.w.extractLsb' 30 6, f.w.extractLsb' 24 6, f.w.extractLsb' 18 6⟩
/-- R152: the token fields break a rule. -/
def Raw.toksBad (f : Raw) : Bool := !f.toks.wf
/-- A token field is set in a word that takes none. -/
def Raw.toksNZ (f : Raw) : Bool := f.toks != Toks.zero

-- register fields (R154): the register of a field, and whether the field lies beyond its file
def r6 (b : BitVec 7) : SReg := b.setWidth 6
def r3 (b : BitVec 7) : BitVec 3 := b.setWidth 3
def r5 (b : BitVec 6) : BitVec 5 := b.setWidth 5
def q3 (b : BitVec 6) : BitVec 3 := b.setWidth 3
def s7 (b : BitVec 7) : Bool := b.getLsbD 6
def p7 (b : BitVec 7) : Bool := 8 ≤ b.toNat
def v6 (b : BitVec 6) : Bool := b.getLsbD 5
def p6 (b : BitVec 6) : Bool := 8 ≤ b.toNat

/-- The memory operand of a format-R word (R188). -/
def mop (f : Raw) : MemOp := ⟨r6 f.a, r6 f.b, f.mod.extractLsb' 0 3, f.mod.extractLsb' 5 9⟩

-- the payload of the vector majors (R201)
def xo (x : BitVec 52) : VOpt :=
  ⟨Ety.ofCode (x.extractLsb' 0 3), x.getLsbD 3, x.extractLsb' 4 3, x.getLsbD 7⟩
def xrnd (x : BitVec 52) : Rnd := ⟨Rm.ofCode (x.extractLsb' 8 2), x.extractLsb' 10 6⟩
def xseed (x : BitVec 52) : SReg := x.extractLsb' 10 6
def xi (x : BitVec 52) : BitVec 16 := x.extractLsb' 16 16
def xf (x : BitVec 52) : BitVec 8 := x.extractLsb' 32 8
def xo4 (x : BitVec 52) : BitVec 6 := x.extractLsb' 40 6

/-- R201: a vector payload breaks the limits of its instruction: the element types it takes, whether it may be masked, whether it
rounds, and which of `XI`, `XF`, `O4` and `SEED` its table gives a meaning. A nonzero `MREG` with `MEN` = 0 is no breach on a word that may be
masked (log entry 99). -/
def vill (x : BitVec 52) (etys : List Nat) (maskOK rndOK xiUsed xfUsed o4Used seedFree : Bool) : Bool :=
  !etys.contains (x.extractLsb' 0 3).toNat ||
  (!maskOK && (x.getLsbD 3 || x.extractLsb' 4 3 != 0 || x.getLsbD 7)) ||
  (x.getLsbD 7 && !x.getLsbD 3) ||
  (if rndOK then x.extractLsb' 8 2 == 3 else x.extractLsb' 8 2 != 0) ||
  (!seedFree && !(rndOK && x.extractLsb' 8 2 == 2) && xseed x != 0) ||
  (!xiUsed && xi x != 0) || (!xfUsed && xf x != 0) || (!o4Used && xo4 x != 0) || x.extractLsb' 46 6 != 0

/-- The rounding fields of the loom, copy and channel payloads (R225, R248). -/
def lrnd (x : BitVec 52) : Rnd := ⟨Rm.ofCode (x.extractLsb' 0 2), x.extractLsb' 2 6⟩

-- control-register fields (R324)
def ctlD (b : BitVec 7) : Ctl := (Ctl.ofNum b).getD .ptx
def ctlBad (b : BitVec 7) : Bool := (Ctl.ofNum b).isNone
/-- R164: a control register named may not be read in this mode. -/
def ctlNoRead (priv : Bool) (b : BitVec 7) : Bool := match Ctl.ofNum b with | some c => !c.readable priv | none => false
/-- R164: a control register named may not be written in this mode. -/
def ctlNoWrite (priv : Bool) (b : BitVec 7) : Bool := match Ctl.ofNum b with | some c => !c.writable priv | none => false

/-- Major `0x00` of R167: the rows of its `FN` values. -/
def arms00 (_priv : Bool) (f : Raw) : Nat → Option Arm
  | 0 => some (.mk false false .r ((f.c != 0) || (f.mod != 0)) ((s7 f.d) || (s7 f.a) || (s7 f.b)) (.add f.hdr (r6 f.d) (r6 f.a) (r6 f.b)))
  | 1 => some (.mk false false .r ((f.c != 0) || (f.mod != 0)) ((s7 f.d) || (s7 f.a) || (s7 f.b)) (.sub f.hdr (r6 f.d) (r6 f.a) (r6 f.b)))
  | 2 => some (.mk false false .r ((f.c != 0) || (f.mod != 0)) ((s7 f.d) || (s7 f.a) || (s7 f.b)) (.mul f.hdr (r6 f.d) (r6 f.a) (r6 f.b)))
  | 3 => some (.mk false false .r ((f.c != 0) || (f.mod != 0)) ((s7 f.d) || (s7 f.a) || (s7 f.b)) (.mulh f.hdr (r6 f.d) (r6 f.a) (r6 f.b)))
  | 4 => some (.mk false false .r ((f.c != 0) || (f.mod != 0)) ((s7 f.d) || (s7 f.a) || (s7 f.b)) (.mulhu f.hdr (r6 f.d) (r6 f.a) (r6 f.b)))
  | 5 => some (.mk false false .r ((f.c != 0) || (f.mod != 0)) ((s7 f.d) || (s7 f.a) || (s7 f.b)) (.div f.hdr (r6 f.d) (r6 f.a) (r6 f.b)))
  | 6 => some (.mk false false .r ((f.c != 0) || (f.mod != 0)) ((s7 f.d) || (s7 f.a) || (s7 f.b)) (.divu f.hdr (r6 f.d) (r6 f.a) (r6 f.b)))
  | 7 => some (.mk false false .r ((f.c != 0) || (f.mod != 0)) ((s7 f.d) || (s7 f.a) || (s7 f.b)) (.rem f.hdr (r6 f.d) (r6 f.a) (r6 f.b)))
  | 8 => some (.mk false false .r ((f.c != 0) || (f.mod != 0)) ((s7 f.d) || (s7 f.a) || (s7 f.b)) (.remu f.hdr (r6 f.d) (r6 f.a) (r6 f.b)))
  | 9 => some (.mk false false .r ((f.c != 0) || (f.mod != 0)) ((s7 f.d) || (s7 f.a) || (s7 f.b)) (.and f.hdr (r6 f.d) (r6 f.a) (r6 f.b)))
  | 10 => some (.mk false false .r ((f.c != 0) || (f.mod != 0)) ((s7 f.d) || (s7 f.a) || (s7 f.b)) (.or f.hdr (r6 f.d) (r6 f.a) (r6 f.b)))
  | 11 => some (.mk false false .r ((f.c != 0) || (f.mod != 0)) ((s7 f.d) || (s7 f.a) || (s7 f.b)) (.xor f.hdr (r6 f.d) (r6 f.a) (r6 f.b)))
  | 12 => some (.mk false false .r ((f.c != 0) || (f.mod != 0)) ((s7 f.d) || (s7 f.a) || (s7 f.b)) (.andn f.hdr (r6 f.d) (r6 f.a) (r6 f.b)))
  | 13 => some (.mk false false .r ((f.c != 0) || (f.mod != 0)) ((s7 f.d) || (s7 f.a) || (s7 f.b)) (.orn f.hdr (r6 f.d) (r6 f.a) (r6 f.b)))
  | 14 => some (.mk false false .r ((f.c != 0) || (f.mod != 0)) ((s7 f.d) || (s7 f.a) || (s7 f.b)) (.shl f.hdr (r6 f.d) (r6 f.a) (r6 f.b)))
  | 15 => some (.mk false false .r ((f.c != 0) || (f.mod != 0)) ((s7 f.d) || (s7 f.a) || (s7 f.b)) (.shr f.hdr (r6 f.d) (r6 f.a) (r6 f.b)))
  | 16 => some (.mk false false .r ((f.c != 0) || (f.mod != 0)) ((s7 f.d) || (s7 f.a) || (s7 f.b)) (.sra f.hdr (r6 f.d) (r6 f.a) (r6 f.b)))
  | 17 => some (.mk false false .r ((f.c != 0) || (f.mod != 0)) ((s7 f.d) || (s7 f.a) || (s7 f.b)) (.rol f.hdr (r6 f.d) (r6 f.a) (r6 f.b)))
  | 18 => some (.mk false false .r ((f.c != 0) || (f.mod != 0)) ((s7 f.d) || (s7 f.a) || (s7 f.b)) (.ror f.hdr (r6 f.d) (r6 f.a) (r6 f.b)))
  | 19 => some (.mk false false .r ((f.c != 0) || (f.mod != 0)) ((s7 f.d) || (s7 f.a) || (s7 f.b)) (.min f.hdr (r6 f.d) (r6 f.a) (r6 f.b)))
  | 20 => some (.mk false false .r ((f.c != 0) || (f.mod != 0)) ((s7 f.d) || (s7 f.a) || (s7 f.b)) (.max f.hdr (r6 f.d) (r6 f.a) (r6 f.b)))
  | 21 => some (.mk false false .r ((f.c != 0) || (f.mod != 0)) ((s7 f.d) || (s7 f.a) || (s7 f.b)) (.minu f.hdr (r6 f.d) (r6 f.a) (r6 f.b)))
  | 22 => some (.mk false false .r ((f.c != 0) || (f.mod != 0)) ((s7 f.d) || (s7 f.a) || (s7 f.b)) (.maxu f.hdr (r6 f.d) (r6 f.a) (r6 f.b)))
  | 23 => some (.mk false false .r ((f.b != 0) || (f.c != 0) || (f.mod != 0)) ((s7 f.d) || (s7 f.a)) (.clz f.hdr (r6 f.d) (r6 f.a)))
  | 24 => some (.mk false false .r ((f.b != 0) || (f.c != 0) || (f.mod != 0)) ((s7 f.d) || (s7 f.a)) (.ctz f.hdr (r6 f.d) (r6 f.a)))
  | 25 => some (.mk false false .r ((f.b != 0) || (f.c != 0) || (f.mod != 0)) ((s7 f.d) || (s7 f.a)) (.popc f.hdr (r6 f.d) (r6 f.a)))
  | 26 => some (.mk false false .r ((f.b != 0) || (f.c != 0) || (f.mod != 0)) ((s7 f.d) || (s7 f.a)) (.brev f.hdr (r6 f.d) (r6 f.a)))
  | 27 => some (.mk false false .r ((f.b != 0) || (f.c != 0) || (f.mod != 0)) ((s7 f.d) || (s7 f.a)) (.bswap f.hdr (r6 f.d) (r6 f.a)))
  | 28 => if !f.mod.getLsbD 12 then some (.mk false false .r ((f.b != 0) || (f.c != 0) || (f.mod.getLsbD 13) || (64 < (f.mod.extractLsb' 0 6).toNat + (f.mod.extractLsb' 6 6).toNat + 1)) ((s7 f.d) || (s7 f.a)) (.bfx f.hdr (r6 f.d) (r6 f.a) (f.mod.extractLsb' 0 6) (f.mod.extractLsb' 6 6)))
    else some (.mk false false .r ((f.b != 0) || (f.c != 0) || (f.mod.getLsbD 13) || (64 < (f.mod.extractLsb' 0 6).toNat + (f.mod.extractLsb' 6 6).toNat + 1)) ((s7 f.d) || (s7 f.a)) (.bfxS f.hdr (r6 f.d) (r6 f.a) (f.mod.extractLsb' 0 6) (f.mod.extractLsb' 6 6)))
  | 29 => some (.mk false false .r ((f.c != 0) || (f.mod.getLsbD 13) || (f.mod.getLsbD 12) || (64 < (f.mod.extractLsb' 0 6).toNat + (f.mod.extractLsb' 6 6).toNat + 1)) ((s7 f.d) || (s7 f.a) || (s7 f.b)) (.bfi f.hdr (r6 f.d) (r6 f.a) (r6 f.b) (f.mod.extractLsb' 0 6) (f.mod.extractLsb' 6 6)))
  | 30 => if !f.mod.getLsbD 6 then some (.mk false false .r ((f.mod != 0)) ((s7 f.d) || (s7 f.a) || (s7 f.b) || (s7 f.c)) (.fshl f.hdr (r6 f.d) (r6 f.a) (r6 f.b) (r6 f.c)))
    else some (.mk false false .r ((f.c != 0) || (f.mod.extractLsb' 7 7 != 0)) ((s7 f.d) || (s7 f.a) || (s7 f.b)) (.fshlImm f.hdr (r6 f.d) (r6 f.a) (r6 f.b) (f.mod.extractLsb' 0 6)))
  | 31 => if !f.mod.getLsbD 6 then some (.mk false false .r ((f.mod != 0)) ((s7 f.d) || (s7 f.a) || (s7 f.b) || (s7 f.c)) (.fshr f.hdr (r6 f.d) (r6 f.a) (r6 f.b) (r6 f.c)))
    else some (.mk false false .r ((f.c != 0) || (f.mod.extractLsb' 7 7 != 0)) ((s7 f.d) || (s7 f.a) || (s7 f.b)) (.fshrImm f.hdr (r6 f.d) (r6 f.a) (r6 f.b) (f.mod.extractLsb' 0 6)))
  | 32 => some (.mk false false .r ((f.mod != 0)) ((s7 f.d) || (s7 f.a) || (s7 f.b) || (p7 f.c)) (.sel f.hdr (r6 f.d) (r6 f.a) (r6 f.b) (r3 f.c)))
  | 33 => some (.mk false false .r ((f.b != 0) || (f.c != 0) || (f.mod != 0)) ((s7 f.d) || (s7 f.a)) (.mov f.hdr (r6 f.d) (r6 f.a)))
  | 34 => some (.mk false false .r ((f.c != 0) || (4 < (f.mod.extractLsb' 0 3).toNat) || (f.mod.extractLsb' 3 2 != 0)) ((s7 f.d) || (s7 f.a) || (s7 f.b)) (.lea f.hdr (r6 f.d) (mop f)))
  | 35 => some (.mk false false .r ((f.c != 0)) ((s7 f.d) || (s7 f.a) || (s7 f.b)) (.padd f.hdr (r6 f.d) (r6 f.a) (r6 f.b) f.mod))
  | 36 => if !f.mod.getLsbD 0 then some (.mk false false .r ((f.b != 0) || (f.c != 0) || (f.mod != 0)) ((s7 f.d) || (s7 f.a)) (.pidx f.hdr (r6 f.d) (r6 f.a)))
    else some (.mk false false .r ((f.c != 0) || (f.mod.extractLsb' 1 13 != 0)) ((s7 f.d) || (s7 f.a) || (s7 f.b)) (.pidxSet f.hdr (r6 f.d) (r6 f.a) (r6 f.b)))
  | _ => none

/-- Major `0x01` of R167: the rows of its `FN` values. -/
def arms01 (_priv : Bool) (f : Raw) : Nat → Option Arm
  | 0 => some (.mk false false .r ((f.c != 0) || (f.mod != 0)) ((p7 f.d) || (s7 f.a) || (s7 f.b)) (.cmpEq f.hdr (r3 f.d) (r6 f.a) (r6 f.b)))
  | 1 => some (.mk false false .r ((f.c != 0) || (f.mod != 0)) ((p7 f.d) || (s7 f.a) || (s7 f.b)) (.cmpNe f.hdr (r3 f.d) (r6 f.a) (r6 f.b)))
  | 2 => some (.mk false false .r ((f.c != 0) || (f.mod != 0)) ((p7 f.d) || (s7 f.a) || (s7 f.b)) (.cmpLt f.hdr (r3 f.d) (r6 f.a) (r6 f.b)))
  | 3 => some (.mk false false .r ((f.c != 0) || (f.mod != 0)) ((p7 f.d) || (s7 f.a) || (s7 f.b)) (.cmpLe f.hdr (r3 f.d) (r6 f.a) (r6 f.b)))
  | 4 => some (.mk false false .r ((f.c != 0) || (f.mod != 0)) ((p7 f.d) || (s7 f.a) || (s7 f.b)) (.cmpLtu f.hdr (r3 f.d) (r6 f.a) (r6 f.b)))
  | 5 => some (.mk false false .r ((f.c != 0) || (f.mod != 0)) ((p7 f.d) || (s7 f.a) || (s7 f.b)) (.cmpLeu f.hdr (r3 f.d) (r6 f.a) (r6 f.b)))
  | 8 => some (.mk false false .r ((f.c != 0) || (f.mod != 0)) ((p7 f.d) || (p7 f.a) || (p7 f.b)) (.pand f.hdr (r3 f.d) (r3 f.a) (r3 f.b)))
  | 9 => some (.mk false false .r ((f.c != 0) || (f.mod != 0)) ((p7 f.d) || (p7 f.a) || (p7 f.b)) (.por f.hdr (r3 f.d) (r3 f.a) (r3 f.b)))
  | 10 => some (.mk false false .r ((f.b != 0) || (f.c != 0) || (f.mod != 0)) ((p7 f.d) || (p7 f.a)) (.pnot f.hdr (r3 f.d) (r3 f.a)))
  | _ => none

/-- Major `0x08` of R167: the rows of its `FN` values. -/
noncomputable def arms08 (_priv : Bool) (f : Raw) : Nat → Option Arm
  | 0 => some (.mk true false .i ((f.a != 0)) ((s7 f.d)) (.ldi f.hdr (r6 f.d) f.imm))
  | 1 => some (.mk true false .i (false) ((s7 f.d) || (s7 f.a)) (.addi f.hdr (r6 f.d) (r6 f.a) f.imm))
  | 2 => some (.mk true false .i (false) ((s7 f.d) || (s7 f.a)) (.andi f.hdr (r6 f.d) (r6 f.a) f.imm))
  | 3 => some (.mk true false .i (false) ((s7 f.d) || (s7 f.a)) (.ori f.hdr (r6 f.d) (r6 f.a) f.imm))
  | 4 => some (.mk true false .i (false) ((s7 f.d) || (s7 f.a)) (.xori f.hdr (r6 f.d) (r6 f.a) f.imm))
  | 5 => some (.mk false false .i ((f.imm28.extractLsb' 6 22 != 0)) ((s7 f.d) || (s7 f.a)) (.shli f.hdr (r6 f.d) (r6 f.a) (f.imm28.setWidth 6)))
  | 6 => some (.mk false false .i ((f.imm28.extractLsb' 6 22 != 0)) ((s7 f.d) || (s7 f.a)) (.shri f.hdr (r6 f.d) (r6 f.a) (f.imm28.setWidth 6)))
  | 7 => some (.mk false false .i ((f.imm28.extractLsb' 6 22 != 0)) ((s7 f.d) || (s7 f.a)) (.srai f.hdr (r6 f.d) (r6 f.a) (f.imm28.setWidth 6)))
  | 8 => some (.mk true false .i (false) ((p7 f.d) || (s7 f.a)) (.cmpiEq f.hdr (r3 f.d) (r6 f.a) f.imm))
  | 9 => some (.mk true false .i (false) ((p7 f.d) || (s7 f.a)) (.cmpiNe f.hdr (r3 f.d) (r6 f.a) f.imm))
  | 10 => some (.mk true false .i (false) ((p7 f.d) || (s7 f.a)) (.cmpiLt f.hdr (r3 f.d) (r6 f.a) f.imm))
  | 11 => some (.mk true false .i (false) ((p7 f.d) || (s7 f.a)) (.cmpiLe f.hdr (r3 f.d) (r6 f.a) f.imm))
  | 12 => some (.mk true false .i (false) ((p7 f.d) || (s7 f.a)) (.cmpiLtu f.hdr (r3 f.d) (r6 f.a) f.imm))
  | 13 => some (.mk true false .i (false) ((p7 f.d) || (s7 f.a)) (.cmpiLeu f.hdr (r3 f.d) (r6 f.a) f.imm))
  | _ => none

/-- Major `0x10` of R167: the rows of its `FN` values. -/
noncomputable def arms10 (_priv : Bool) (f : Raw) : Nat → Option Arm
  | 0 => some (.mk false false .j ((f.ja != 0)) (false) (.br f.hdr f.imm35))
  | 1 => some (.mk false false .j ((f.ja != 0)) (false) (.jmp f.hdr f.imm35))
  | 2 => some (.mk false false .j (false) ((s7 f.ja)) (.call f.hdr (r6 f.ja) f.imm35))
  | 3 => some (.mk false false .r ((f.d != 0) || (f.b != 0) || (f.c != 0) || (f.mod != 0)) ((s7 f.a)) (.jr f.hdr (r6 f.a)))
  | 4 => some (.mk false false .r ((f.d != 0) || (f.b != 0) || (f.c != 0) || (f.mod != 0)) ((s7 f.a)) (.ret f.hdr (r6 f.a)))
  | 5 => some (.mk false false .j (false) ((s7 f.ja)) (.loop f.hdr (r6 f.ja) f.imm35))
  | 6 => some (.mk false false .r ((f.d != 0) || (f.a != 0) || (f.b != 0) || (f.c != 0) || (f.mod != 0)) (false) (.yield f.hdr))
  | 7 => some (.mk false false .r ((f.d != 0) || (f.a != 0) || (f.b != 0) || (f.c != 0) || (f.mod != 0)) (false) (.halt f.hdr))
  | 8 => some (.mk false false .r ((f.d != 0) || (f.a != 0) || (f.b != 0) || (f.c != 0)) (false) (.bkpt f.hdr f.mod))
  | 9 => some (.mk false false .i ((f.d != 0) || (f.a != 0)) (false) (.waitn f.hdr (f.imm28.extractLsb' 0 6) (f.imm28.extractLsb' 6 6) (f.imm28.extractLsb' 12 6) (f.imm28.extractLsb' 18 5) (f.imm28.extractLsb' 23 5)))
  | _ => none

/-- Major `0x14` of R167: the rows of its `FN` values. -/
def arms14 (_priv : Bool) (f : Raw) : Nat → Option Arm
  | 0 => some (.mk false false .r ((f.c != 0) || (4 < (f.mod.extractLsb' 0 3).toNat) || (f.mod.extractLsb' 3 2 != 0)) ((s7 f.d) || (s7 f.a) || (s7 f.b)) (.ldB f.hdr (r6 f.d) (mop f)))
  | 1 => some (.mk false false .r ((f.c != 0) || (4 < (f.mod.extractLsb' 0 3).toNat) || (f.mod.extractLsb' 3 2 != 0)) ((s7 f.d) || (s7 f.a) || (s7 f.b)) (.ldH f.hdr (r6 f.d) (mop f)))
  | 2 => some (.mk false false .r ((f.c != 0) || (4 < (f.mod.extractLsb' 0 3).toNat) || (f.mod.extractLsb' 3 2 != 0)) ((s7 f.d) || (s7 f.a) || (s7 f.b)) (.ldW f.hdr (r6 f.d) (mop f)))
  | 3 => some (.mk false false .r ((f.c != 0) || (4 < (f.mod.extractLsb' 0 3).toNat) || (f.mod.extractLsb' 3 2 != 0)) ((s7 f.d) || (s7 f.a) || (s7 f.b)) (.ldD f.hdr (r6 f.d) (mop f)))
  | 4 => some (.mk false false .r ((f.c != 0) || (4 < (f.mod.extractLsb' 0 3).toNat) || (f.mod.extractLsb' 3 2 != 0) || (f.d.getLsbD 0)) ((s7 f.d) || (s7 f.a) || (s7 f.b)) (.ldQ f.hdr (r6 f.d) (mop f)))
  | 5 => some (.mk false false .r ((f.c != 0) || (4 < (f.mod.extractLsb' 0 3).toNat) || (f.mod.extractLsb' 3 2 != 0)) ((s7 f.d) || (s7 f.a) || (s7 f.b)) (.ldsB f.hdr (r6 f.d) (mop f)))
  | 6 => some (.mk false false .r ((f.c != 0) || (4 < (f.mod.extractLsb' 0 3).toNat) || (f.mod.extractLsb' 3 2 != 0)) ((s7 f.d) || (s7 f.a) || (s7 f.b)) (.ldsH f.hdr (r6 f.d) (mop f)))
  | 7 => some (.mk false false .r ((f.c != 0) || (4 < (f.mod.extractLsb' 0 3).toNat) || (f.mod.extractLsb' 3 2 != 0)) ((s7 f.d) || (s7 f.a) || (s7 f.b)) (.ldsW f.hdr (r6 f.d) (mop f)))
  | 8 => some (.mk false false .r ((f.d != 0) || (4 < (f.mod.extractLsb' 0 3).toNat) || (f.mod.extractLsb' 3 2 != 0)) ((s7 f.c) || (s7 f.a) || (s7 f.b)) (.stB f.hdr (r6 f.c) (mop f)))
  | 9 => some (.mk false false .r ((f.d != 0) || (4 < (f.mod.extractLsb' 0 3).toNat) || (f.mod.extractLsb' 3 2 != 0)) ((s7 f.c) || (s7 f.a) || (s7 f.b)) (.stH f.hdr (r6 f.c) (mop f)))
  | 10 => some (.mk false false .r ((f.d != 0) || (4 < (f.mod.extractLsb' 0 3).toNat) || (f.mod.extractLsb' 3 2 != 0)) ((s7 f.c) || (s7 f.a) || (s7 f.b)) (.stW f.hdr (r6 f.c) (mop f)))
  | 11 => some (.mk false false .r ((f.d != 0) || (4 < (f.mod.extractLsb' 0 3).toNat) || (f.mod.extractLsb' 3 2 != 0)) ((s7 f.c) || (s7 f.a) || (s7 f.b)) (.stD f.hdr (r6 f.c) (mop f)))
  | 12 => some (.mk false false .r ((f.d != 0) || (4 < (f.mod.extractLsb' 0 3).toNat) || (f.mod.extractLsb' 3 2 != 0) || (f.c.getLsbD 0)) ((s7 f.c) || (s7 f.a) || (s7 f.b)) (.stQ f.hdr (r6 f.c) (mop f)))
  | 16 => some (.mk false false .r ((f.c != 0) || (4 < (f.mod.extractLsb' 0 3).toNat)) ((s7 f.d) || (s7 f.a) || (s7 f.b)) (.ldAcqB f.hdr (r6 f.d) (mop f) (f.mod.extractLsb' 3 2)))
  | 17 => some (.mk false false .r ((f.c != 0) || (4 < (f.mod.extractLsb' 0 3).toNat)) ((s7 f.d) || (s7 f.a) || (s7 f.b)) (.ldAcqH f.hdr (r6 f.d) (mop f) (f.mod.extractLsb' 3 2)))
  | 18 => some (.mk false false .r ((f.c != 0) || (4 < (f.mod.extractLsb' 0 3).toNat)) ((s7 f.d) || (s7 f.a) || (s7 f.b)) (.ldAcqW f.hdr (r6 f.d) (mop f) (f.mod.extractLsb' 3 2)))
  | 19 => some (.mk false false .r ((f.c != 0) || (4 < (f.mod.extractLsb' 0 3).toNat)) ((s7 f.d) || (s7 f.a) || (s7 f.b)) (.ldAcqD f.hdr (r6 f.d) (mop f) (f.mod.extractLsb' 3 2)))
  | 20 => some (.mk false false .r ((f.c != 0) || (4 < (f.mod.extractLsb' 0 3).toNat) || (f.d.getLsbD 0)) ((s7 f.d) || (s7 f.a) || (s7 f.b)) (.ldAcqQ f.hdr (r6 f.d) (mop f) (f.mod.extractLsb' 3 2)))
  | 24 => some (.mk false false .r ((f.d != 0) || (4 < (f.mod.extractLsb' 0 3).toNat)) ((s7 f.c) || (s7 f.a) || (s7 f.b)) (.stRelB f.hdr (r6 f.c) (mop f) (f.mod.extractLsb' 3 2)))
  | 25 => some (.mk false false .r ((f.d != 0) || (4 < (f.mod.extractLsb' 0 3).toNat)) ((s7 f.c) || (s7 f.a) || (s7 f.b)) (.stRelH f.hdr (r6 f.c) (mop f) (f.mod.extractLsb' 3 2)))
  | 26 => some (.mk false false .r ((f.d != 0) || (4 < (f.mod.extractLsb' 0 3).toNat)) ((s7 f.c) || (s7 f.a) || (s7 f.b)) (.stRelW f.hdr (r6 f.c) (mop f) (f.mod.extractLsb' 3 2)))
  | 27 => some (.mk false false .r ((f.d != 0) || (4 < (f.mod.extractLsb' 0 3).toNat)) ((s7 f.c) || (s7 f.a) || (s7 f.b)) (.stRelD f.hdr (r6 f.c) (mop f) (f.mod.extractLsb' 3 2)))
  | 28 => some (.mk false false .r ((f.d != 0) || (4 < (f.mod.extractLsb' 0 3).toNat) || (f.c.getLsbD 0)) ((s7 f.c) || (s7 f.a) || (s7 f.b)) (.stRelQ f.hdr (r6 f.c) (mop f) (f.mod.extractLsb' 3 2)))
  | 32 => if (f.mod.extractLsb' 3 2) != 1 then some (.mk false false .r ((f.c != 0) || (f.d != 0) || (4 < (f.mod.extractLsb' 0 3).toNat) || ((f.mod.extractLsb' 3 2) != 0)) ((s7 f.a) || (s7 f.b)) (.pfL1 f.hdr (mop f)))
    else some (.mk false false .r ((f.c != 0) || (f.d != 0) || (4 < (f.mod.extractLsb' 0 3).toNat) || ((f.mod.extractLsb' 3 2) != 1)) ((s7 f.a) || (s7 f.b)) (.pfMsc f.hdr (mop f)))
  | _ => none

/-- Major `0x18` of R167: the rows of its `FN` values. -/
def arms18 (_priv : Bool) (f : Raw) : Nat → Option Arm
  | 0 => some (.mk false false .r ((4 < (f.mod.extractLsb' 0 3).toNat)) ((s7 f.d) || (s7 f.a) || (s7 f.b) || (s7 f.c)) (.amoAddW f.hdr (r6 f.d) (mop f) (r6 f.c) (f.mod.extractLsb' 3 2)))
  | 1 => some (.mk false false .r ((4 < (f.mod.extractLsb' 0 3).toNat)) ((s7 f.d) || (s7 f.a) || (s7 f.b) || (s7 f.c)) (.amoAddD f.hdr (r6 f.d) (mop f) (r6 f.c) (f.mod.extractLsb' 3 2)))
  | 2 => some (.mk false false .r ((4 < (f.mod.extractLsb' 0 3).toNat)) ((s7 f.d) || (s7 f.a) || (s7 f.b) || (s7 f.c)) (.amoAndW f.hdr (r6 f.d) (mop f) (r6 f.c) (f.mod.extractLsb' 3 2)))
  | 3 => some (.mk false false .r ((4 < (f.mod.extractLsb' 0 3).toNat)) ((s7 f.d) || (s7 f.a) || (s7 f.b) || (s7 f.c)) (.amoAndD f.hdr (r6 f.d) (mop f) (r6 f.c) (f.mod.extractLsb' 3 2)))
  | 4 => some (.mk false false .r ((4 < (f.mod.extractLsb' 0 3).toNat)) ((s7 f.d) || (s7 f.a) || (s7 f.b) || (s7 f.c)) (.amoOrW f.hdr (r6 f.d) (mop f) (r6 f.c) (f.mod.extractLsb' 3 2)))
  | 5 => some (.mk false false .r ((4 < (f.mod.extractLsb' 0 3).toNat)) ((s7 f.d) || (s7 f.a) || (s7 f.b) || (s7 f.c)) (.amoOrD f.hdr (r6 f.d) (mop f) (r6 f.c) (f.mod.extractLsb' 3 2)))
  | 6 => some (.mk false false .r ((4 < (f.mod.extractLsb' 0 3).toNat)) ((s7 f.d) || (s7 f.a) || (s7 f.b) || (s7 f.c)) (.amoXorW f.hdr (r6 f.d) (mop f) (r6 f.c) (f.mod.extractLsb' 3 2)))
  | 7 => some (.mk false false .r ((4 < (f.mod.extractLsb' 0 3).toNat)) ((s7 f.d) || (s7 f.a) || (s7 f.b) || (s7 f.c)) (.amoXorD f.hdr (r6 f.d) (mop f) (r6 f.c) (f.mod.extractLsb' 3 2)))
  | 8 => some (.mk false false .r ((4 < (f.mod.extractLsb' 0 3).toNat)) ((s7 f.d) || (s7 f.a) || (s7 f.b) || (s7 f.c)) (.amoMinW f.hdr (r6 f.d) (mop f) (r6 f.c) (f.mod.extractLsb' 3 2)))
  | 9 => some (.mk false false .r ((4 < (f.mod.extractLsb' 0 3).toNat)) ((s7 f.d) || (s7 f.a) || (s7 f.b) || (s7 f.c)) (.amoMinD f.hdr (r6 f.d) (mop f) (r6 f.c) (f.mod.extractLsb' 3 2)))
  | 10 => some (.mk false false .r ((4 < (f.mod.extractLsb' 0 3).toNat)) ((s7 f.d) || (s7 f.a) || (s7 f.b) || (s7 f.c)) (.amoMaxW f.hdr (r6 f.d) (mop f) (r6 f.c) (f.mod.extractLsb' 3 2)))
  | 11 => some (.mk false false .r ((4 < (f.mod.extractLsb' 0 3).toNat)) ((s7 f.d) || (s7 f.a) || (s7 f.b) || (s7 f.c)) (.amoMaxD f.hdr (r6 f.d) (mop f) (r6 f.c) (f.mod.extractLsb' 3 2)))
  | 12 => some (.mk false false .r ((4 < (f.mod.extractLsb' 0 3).toNat)) ((s7 f.d) || (s7 f.a) || (s7 f.b) || (s7 f.c)) (.amoMinuW f.hdr (r6 f.d) (mop f) (r6 f.c) (f.mod.extractLsb' 3 2)))
  | 13 => some (.mk false false .r ((4 < (f.mod.extractLsb' 0 3).toNat)) ((s7 f.d) || (s7 f.a) || (s7 f.b) || (s7 f.c)) (.amoMinuD f.hdr (r6 f.d) (mop f) (r6 f.c) (f.mod.extractLsb' 3 2)))
  | 14 => some (.mk false false .r ((4 < (f.mod.extractLsb' 0 3).toNat)) ((s7 f.d) || (s7 f.a) || (s7 f.b) || (s7 f.c)) (.amoMaxuW f.hdr (r6 f.d) (mop f) (r6 f.c) (f.mod.extractLsb' 3 2)))
  | 15 => some (.mk false false .r ((4 < (f.mod.extractLsb' 0 3).toNat)) ((s7 f.d) || (s7 f.a) || (s7 f.b) || (s7 f.c)) (.amoMaxuD f.hdr (r6 f.d) (mop f) (r6 f.c) (f.mod.extractLsb' 3 2)))
  | 16 => some (.mk false false .r ((4 < (f.mod.extractLsb' 0 3).toNat)) ((s7 f.d) || (s7 f.a) || (s7 f.b) || (s7 f.c)) (.amoSwapW f.hdr (r6 f.d) (mop f) (r6 f.c) (f.mod.extractLsb' 3 2)))
  | 17 => some (.mk false false .r ((4 < (f.mod.extractLsb' 0 3).toNat)) ((s7 f.d) || (s7 f.a) || (s7 f.b) || (s7 f.c)) (.amoSwapD f.hdr (r6 f.d) (mop f) (r6 f.c) (f.mod.extractLsb' 3 2)))
  | 18 => some (.mk false false .r ((4 < (f.mod.extractLsb' 0 3).toNat)) ((s7 f.d) || (s7 f.a) || (s7 f.b) || (s7 f.c)) (.amoCasW f.hdr (r6 f.d) (mop f) (r6 f.c) (f.mod.extractLsb' 3 2)))
  | 19 => some (.mk false false .r ((4 < (f.mod.extractLsb' 0 3).toNat)) ((s7 f.d) || (s7 f.a) || (s7 f.b) || (s7 f.c)) (.amoCasD f.hdr (r6 f.d) (mop f) (r6 f.c) (f.mod.extractLsb' 3 2)))
  | 20 => some (.mk false false .r ((4 < (f.mod.extractLsb' 0 3).toNat) || (f.d.getLsbD 0) || (f.c.getLsbD 0)) ((s7 f.d) || (s7 f.a) || (s7 f.b) || (s7 f.c)) (.amoCasQ f.hdr (r6 f.d) (mop f) (r6 f.c) (f.mod.extractLsb' 3 2)))
  | 22 => some (.mk false false .r ((4 < (f.mod.extractLsb' 0 3).toNat)) ((s7 f.d) || (s7 f.a) || (s7 f.b) || (s7 f.c)) (.amoFaddW f.hdr (r6 f.d) (mop f) (r6 f.c) (f.mod.extractLsb' 3 2)))
  | _ => none

/-- Major `0x1C` of R167: the rows of its `FN` values. -/
def arms1C (_priv : Bool) (f : Raw) : Nat → Option Arm
  | 0 => some (.mk true false .t ((f.o1 != 0) || (f.o2 != 0) || (f.o3 != 0) || (f.x != 0) || f.toksBad) (false) (.tokWait f.hdr f.toks))
  | 1 => some (.mk true false .t ((f.x != 0) || f.toksNZ) (false) (.tokClr f.hdr f.o1 f.o2 f.o3))
  | 2 => some (.mk true false .t ((f.o1 != 0) || (f.o2 != 0) || (f.o3 != 0) || (f.x != 0) || f.toksBad) (false) (.mark f.hdr f.toks))
  | 3 => some (.mk true false .t ((f.o2 != 0) || (f.o3 != 0) || (4 <= f.o1.toNat) || (f.x != 0) || f.toksBad) (false) (.fence f.hdr f.toks (f.o1.setWidth 2)))
  | 4 => some (.mk true false .t ((f.o2 != 0) || (f.o3 != 0) || (4 <= f.o1.toNat) || (f.x != 0) || f.toksBad) (false) (.acq f.hdr f.toks (f.o1.setWidth 2)))
  | 5 => some (.mk true false .t ((f.o2 != 0) || (f.o3 != 0) || (4 <= f.o1.toNat) || (f.x != 0) || f.toksBad) (false) (.rel f.hdr f.toks (f.o1.setWidth 2)))
  | 6 => some (.mk true false .t ((f.o3 != 0) || (f.o2 != 2) || (f.x != 0) || f.toksBad) (false) (.acqP f.hdr f.toks f.o1))
  | 8 => some (.mk true false .t ((f.o3 != 0) || (f.x != 0) || f.toksBad) (false) (.gateInit f.hdr f.toks f.o1 f.o2))
  | 9 => some (.mk true false .t ((f.o3 != 0) || (f.x != 0) || f.toksBad) (false) (.gateArr f.hdr f.toks f.o1 f.o2))
  | 10 => some (.mk true false .t ((f.o3 != 0) || (f.x.extractLsb' 6 46 != 0) || (badLim (f.x.extractLsb' 0 6)) || f.toksBad) (false) (.gateWait f.hdr f.toks f.o1 f.o2 (f.x.extractLsb' 0 6)))
  | 12 => some (.mk true false .t ((f.o3 != 0) || (f.x.extractLsb' 6 46 != 0) || (badLim (f.x.extractLsb' 0 6)) || f.toksBad) (false) (.rpush f.hdr f.toks f.o1 f.o2 (f.x.extractLsb' 0 6)))
  | 13 => some (.mk true false .t ((f.o3 != 0) || (f.x.extractLsb' 6 46 != 0) || (badLim (f.x.extractLsb' 0 6)) || f.toksBad) (false) (.rpop f.hdr f.toks f.o1 f.o2 (f.x.extractLsb' 0 6)))
  | _ => none

/-- Major `0x20` of R167: the rows of its `FN` values. -/
def arms20 (_priv : Bool) (f : Raw) : Nat → Option Arm
  | 0 => some (.mk true false .t ((vill f.x [0,1,2,3,4] true false false false false false) || f.toksBad) ((v6 f.o1) || (v6 f.o2) || (v6 f.o3)) (.vadd f.hdr f.toks (xo f.x) (r5 f.o1) (r5 f.o2) (r5 f.o3)))
  | 1 => some (.mk true false .t ((vill f.x [0,1,2,3,4] true false false false false false) || f.toksBad) ((v6 f.o1) || (v6 f.o2) || (v6 f.o3)) (.vsub f.hdr f.toks (xo f.x) (r5 f.o1) (r5 f.o2) (r5 f.o3)))
  | 2 => some (.mk true false .t ((vill f.x [0,1,2,3,4] true false false false false false) || f.toksBad) ((v6 f.o1) || (v6 f.o2) || (v6 f.o3)) (.vmul f.hdr f.toks (xo f.x) (r5 f.o1) (r5 f.o2) (r5 f.o3)))
  | 3 => some (.mk true false .t ((vill f.x [0,1,2,3,4] true false false false false false) || f.toksBad) ((v6 f.o1) || (v6 f.o2) || (v6 f.o3)) (.vmad f.hdr f.toks (xo f.x) (r5 f.o1) (r5 f.o2) (r5 f.o3)))
  | 4 => some (.mk true false .t ((vill f.x [0,1,2,3,4] true false false false false false) || f.toksBad) ((v6 f.o1) || (v6 f.o2) || (v6 f.o3)) (.vmin f.hdr f.toks (xo f.x) (r5 f.o1) (r5 f.o2) (r5 f.o3)))
  | 5 => some (.mk true false .t ((vill f.x [0,1,2,3,4] true false false false false false) || f.toksBad) ((v6 f.o1) || (v6 f.o2) || (v6 f.o3)) (.vmax f.hdr f.toks (xo f.x) (r5 f.o1) (r5 f.o2) (r5 f.o3)))
  | 6 => some (.mk true false .t ((f.o3 != 0) || (vill f.x [0,1,3] true false false false false false) || f.toksBad) ((v6 f.o1) || (v6 f.o2)) (.vabs f.hdr f.toks (xo f.x) (r5 f.o1) (r5 f.o2)))
  | 7 => some (.mk true false .t ((f.o3 != 0) || (vill f.x [0,1,3] true false false false false false) || f.toksBad) ((v6 f.o1) || (v6 f.o2)) (.vneg f.hdr f.toks (xo f.x) (r5 f.o1) (r5 f.o2)))
  | 8 => some (.mk true false .t ((f.o3 != 0) || (vill f.x [0,1,3] true false false false false false) || f.toksBad) ((v6 f.o1) || (v6 f.o2)) (.vrelu f.hdr f.toks (xo f.x) (r5 f.o1) (r5 f.o2)))
  | 9 => some (.mk true false .t ((f.o3 != 0) || (vill f.x [0] true false false false false false) || f.toksBad) ((v6 f.o1) || (v6 f.o2)) (.vexp2 f.hdr f.toks (xo f.x) (r5 f.o1) (r5 f.o2)))
  | 10 => some (.mk true false .t ((f.o3 != 0) || (vill f.x [0] true false false false false false) || f.toksBad) ((v6 f.o1) || (v6 f.o2)) (.vlog2 f.hdr f.toks (xo f.x) (r5 f.o1) (r5 f.o2)))
  | 11 => some (.mk true false .t ((f.o3 != 0) || (vill f.x [0] true false false false false false) || f.toksBad) ((v6 f.o1) || (v6 f.o2)) (.vrcp f.hdr f.toks (xo f.x) (r5 f.o1) (r5 f.o2)))
  | 12 => some (.mk true false .t ((f.o3 != 0) || (vill f.x [0] true false false false false false) || f.toksBad) ((v6 f.o1) || (v6 f.o2)) (.vrsq f.hdr f.toks (xo f.x) (r5 f.o1) (r5 f.o2)))
  | 13 => some (.mk true false .t ((f.o3 != 0) || (vill f.x [0] true false false false false false) || f.toksBad) ((v6 f.o1) || (v6 f.o2)) (.vtanh f.hdr f.toks (xo f.x) (r5 f.o1) (r5 f.o2)))
  | _ => none

/-- Major `0x21` of R167: the rows of its `FN` values. -/
def arms21 (_priv : Bool) (f : Raw) : Nat → Option Arm
  | 0 => some (.mk true false .t ((vill f.x [0,1,2,3,4] true false false false false false) || f.toksBad) ((v6 f.o1) || (v6 f.o2) || (v6 f.o3)) (.vand f.hdr f.toks (xo f.x) (r5 f.o1) (r5 f.o2) (r5 f.o3)))
  | 1 => some (.mk true false .t ((vill f.x [0,1,2,3,4] true false false false false false) || f.toksBad) ((v6 f.o1) || (v6 f.o2) || (v6 f.o3)) (.vor f.hdr f.toks (xo f.x) (r5 f.o1) (r5 f.o2) (r5 f.o3)))
  | 2 => some (.mk true false .t ((vill f.x [0,1,2,3,4] true false false false false false) || f.toksBad) ((v6 f.o1) || (v6 f.o2) || (v6 f.o3)) (.vxor f.hdr f.toks (xo f.x) (r5 f.o1) (r5 f.o2) (r5 f.o3)))
  | 3 => some (.mk true false .t ((f.o3 != 0) || (vill f.x [0,1,2,3,4] true false false false false false) || f.toksBad) ((v6 f.o1) || (v6 f.o2)) (.vnot f.hdr f.toks (xo f.x) (r5 f.o1) (r5 f.o2)))
  | 4 => some (.mk true false .t ((vill f.x [0,1,2,3,4] true false true true false false) || (1 < (xf f.x).toNat) || (if (xf f.x).getLsbD 0 then f.o3 != 0 || (xo f.x).ety.width <= (xi f.x).toNat else (xi f.x) != 0) || f.toksBad) ((!(xf f.x).getLsbD 0 && v6 f.o3) || (v6 f.o1) || (v6 f.o2)) (.vshl f.hdr f.toks (xo f.x) (r5 f.o1) (r5 f.o2) (if (xf f.x).getLsbD 0 then .imm (xi f.x) else .reg (r5 f.o3))))
  | 5 => some (.mk true false .t ((vill f.x [0,1,2,3,4] true false true true false false) || (1 < (xf f.x).toNat) || (if (xf f.x).getLsbD 0 then f.o3 != 0 || (xo f.x).ety.width <= (xi f.x).toNat else (xi f.x) != 0) || f.toksBad) ((!(xf f.x).getLsbD 0 && v6 f.o3) || (v6 f.o1) || (v6 f.o2)) (.vshr f.hdr f.toks (xo f.x) (r5 f.o1) (r5 f.o2) (if (xf f.x).getLsbD 0 then .imm (xi f.x) else .reg (r5 f.o3))))
  | 6 => some (.mk true false .t ((vill f.x [0,1,2,3,4] true false true true false false) || (1 < (xf f.x).toNat) || (if (xf f.x).getLsbD 0 then f.o3 != 0 || (xo f.x).ety.width <= (xi f.x).toNat else (xi f.x) != 0) || f.toksBad) ((!(xf f.x).getLsbD 0 && v6 f.o3) || (v6 f.o1) || (v6 f.o2)) (.vsra f.hdr f.toks (xo f.x) (r5 f.o1) (r5 f.o2) (if (xf f.x).getLsbD 0 then .imm (xi f.x) else .reg (r5 f.o3))))
  | _ => none

/-- Major `0x22` of R167: the rows of its `FN` values. -/
def arms22 (_priv : Bool) (f : Raw) : Nat → Option Arm
  | 0 => some (.mk true false .t ((vill f.x [0,1,2,3,4] true false false true false false) || (5 < (xf f.x).toNat) || f.toksBad) ((p6 f.o1) || (v6 f.o2) || (v6 f.o3)) (.vcmp f.hdr f.toks (xo f.x) (VCond.ofCode ((xf f.x).setWidth 3)) (q3 f.o1) (r5 f.o2) (r5 f.o3)))
  | 1 => some (.mk true false .t ((vill f.x [0,1,2,3,4] true false false false true false) || f.toksBad) ((p6 (xo4 f.x)) || (v6 f.o1) || (v6 f.o2) || (v6 f.o3)) (.vsel f.hdr f.toks (xo f.x) (r5 f.o1) (r5 f.o2) (r5 f.o3) (q3 (xo4 f.x))))
  | 2 => some (.mk true false .t ((f.x != 0) || f.toksBad) ((p6 f.o1) || (p6 f.o2) || (p6 f.o3)) (.mand f.hdr f.toks (q3 f.o1) (q3 f.o2) (q3 f.o3)))
  | 3 => some (.mk true false .t ((f.x != 0) || f.toksBad) ((p6 f.o1) || (p6 f.o2) || (p6 f.o3)) (.mor f.hdr f.toks (q3 f.o1) (q3 f.o2) (q3 f.o3)))
  | 4 => some (.mk true false .t ((f.o3 != 0) || (f.x != 0) || f.toksBad) ((p6 f.o1) || (p6 f.o2)) (.mnot f.hdr f.toks (q3 f.o1) (q3 f.o2)))
  | 5 => some (.mk true false .t ((f.o3 != 0) || (vill f.x [0,1,2,3,4] false false false false false false) || f.toksBad) ((v6 f.o1) || (p6 f.o2)) (.mpopc f.hdr f.toks (xo f.x) (r5 f.o1) (q3 f.o2)))
  | _ => none

/-- Major `0x23` of R167: the rows of its `FN` values. -/
def arms23 (_priv : Bool) (f : Raw) : Nat → Option Arm
  | 0 => some (.mk true false .t ((vill f.x [3,4] true false false false false false) || f.toksBad) ((v6 f.o1) || (v6 f.o2) || (v6 f.o3)) (.vadds f.hdr f.toks (xo f.x) (r5 f.o1) (r5 f.o2) (r5 f.o3)))
  | 1 => some (.mk true false .t ((vill f.x [3,4] true false false false false false) || f.toksBad) ((v6 f.o1) || (v6 f.o2) || (v6 f.o3)) (.vsubs f.hdr f.toks (xo f.x) (r5 f.o1) (r5 f.o2) (r5 f.o3)))
  | 2 => some (.mk true false .t ((vill f.x [3,4] true false false false false false) || f.toksBad) ((v6 f.o1) || (v6 f.o2) || (v6 f.o3)) (.vmulh f.hdr f.toks (xo f.x) (r5 f.o1) (r5 f.o2) (r5 f.o3)))
  | 3 => some (.mk true false .t ((vill f.x [3,4] true false false false false false) || f.toksBad) ((v6 f.o1) || (v6 f.o2) || (v6 f.o3)) (.vavg f.hdr f.toks (xo f.x) (r5 f.o1) (r5 f.o2) (r5 f.o3)))
  | 4 => some (.mk true false .t ((vill f.x [3,4] false false false false false false) || f.toksBad) ((v6 f.o1) || (v6 f.o2) || (v6 f.o3)) (.vsad f.hdr f.toks (xo f.x) (r5 f.o1) (r5 f.o2) (r5 f.o3)))
  | _ => none

/-- Major `0x24` of R167: the rows of its `FN` values. -/
def arms24 (_priv : Bool) (f : Raw) : Nat → Option Arm
  | 0 => some (.mk true false .t ((vill f.x [0,1,2] false true false true false false) || (!fmt16 (xf f.x)) || f.toksBad) ((v6 f.o1) || (v6 f.o2) || (v6 f.o3)) (.vpack f.hdr f.toks (xo f.x) (xf f.x) (xrnd f.x) (r5 f.o1) (r5 f.o2) (r5 f.o3)))
  | 1 => some (.mk true false .t ((f.o3 != 0) || (vill f.x [0,1,2] false true true true false false) || (!fmt16 (xf f.x)) || (1 < (xi f.x).toNat) || f.toksBad) ((v6 f.o1) || (v6 f.o2)) (.vunpk f.hdr f.toks (xo f.x) (xf f.x) ((xi f.x).getLsbD 0) (xrnd f.x) (r5 f.o1) (r5 f.o2)))
  | 2 => some (.mk true false .t ((f.o3 != 0) || (vill f.x [4] false false true true false false) || (!fmtPix (xf f.x)) || ((xi f.x).extractLsb' 11 5 != 0) || (2048 < ((xi f.x).setWidth 11).toNat + 128 * pixWidth (xf f.x)) || f.toksBad) ((v6 f.o1) || (v6 f.o2)) (.pixUnpk f.hdr f.toks (xo f.x) (xf f.x) ((xi f.x).setWidth 11) (r5 f.o1) (r5 f.o2)))
  | 3 => some (.mk true false .t ((f.o3 != 0) || (vill f.x [4] false false false true false false) || (!fmtPix (xf f.x)) || f.toksBad) ((v6 f.o1) || (v6 f.o2)) (.pixPack f.hdr f.toks (xo f.x) (xf f.x) (r5 f.o1) (r5 f.o2)))
  | _ => none

/-- Major `0x25` of R167: the rows of its `FN` values. -/
def arms25 (_priv : Bool) (f : Raw) : Nat → Option Arm
  | 0 => some (.mk true false .t ((vill f.x [0,1,2,3,4] true false false true false false) || (1 < (xf f.x).toNat) || f.toksBad) ((v6 f.o1) || (v6 f.o2) || (v6 f.o3)) (.vbfx f.hdr f.toks (xo f.x) ((xf f.x).getLsbD 0) (r5 f.o1) (r5 f.o2) (r5 f.o3)))
  | 1 => some (.mk true false .t ((vill f.x [0,1,2,3,4] true false false false false false) || f.toksBad) ((v6 f.o1) || (v6 f.o2) || (v6 f.o3)) (.vbfi f.hdr f.toks (xo f.x) (r5 f.o1) (r5 f.o2) (r5 f.o3)))
  | 2 => if !(xf f.x).getLsbD 0 then some (.mk true false .t ((vill f.x [0,1,2,3,4] true false true true true false) || (3 < (xf f.x).toNat) || (if (xf f.x).getLsbD 1 then xo4 f.x != 0 || (xo f.x).ety.width <= (xi f.x).toNat else (xi f.x) != 0) || f.toksBad) ((!(xf f.x).getLsbD 1 && v6 (xo4 f.x)) || (v6 f.o1) || (v6 f.o2) || (v6 f.o3)) (.vfshR f.hdr f.toks (xo f.x) (r5 f.o1) (r5 f.o2) (r5 f.o3) (if (xf f.x).getLsbD 1 then .imm (xi f.x) else .reg (r5 (xo4 f.x)))))
    else some (.mk true false .t ((vill f.x [0,1,2,3,4] true false true true true false) || (3 < (xf f.x).toNat) || (if (xf f.x).getLsbD 1 then xo4 f.x != 0 || (xo f.x).ety.width <= (xi f.x).toNat else (xi f.x) != 0) || f.toksBad) ((!(xf f.x).getLsbD 1 && v6 (xo4 f.x)) || (v6 f.o1) || (v6 f.o2) || (v6 f.o3)) (.vfshL f.hdr f.toks (xo f.x) (r5 f.o1) (r5 f.o2) (r5 f.o3) (if (xf f.x).getLsbD 1 then .imm (xi f.x) else .reg (r5 (xo4 f.x)))))
  | 3 => some (.mk true false .t ((f.o3 != 0) || (vill f.x [0,1,2,3,4] true false false false false false) || f.toksBad) ((v6 f.o1) || (v6 f.o2)) (.vclz f.hdr f.toks (xo f.x) (r5 f.o1) (r5 f.o2)))
  | 4 => some (.mk true false .t ((f.o3 != 0) || (vill f.x [0,1,2,3,4] true false false false false false) || f.toksBad) ((v6 f.o1) || (v6 f.o2)) (.vpopc f.hdr f.toks (xo f.x) (r5 f.o1) (r5 f.o2)))
  | _ => none

/-- Major `0x26` of R167: the rows of its `FN` values. -/
def arms26 (_priv : Bool) (f : Raw) : Nat → Option Arm
  | 0 => some (.mk true false .t ((vill f.x [0,1,2,3,4] true false false false false false) || f.toksBad) ((v6 f.o1) || (v6 f.o2)) (.vlut f.hdr f.toks (xo f.x) (r5 f.o1) (r5 f.o2) f.o3))
  | _ => none

/-- Major `0x27` of R167: the rows of its `FN` values. -/
def arms27 (_priv : Bool) (f : Raw) : Nat → Option Arm
  | 0 => some (.mk true false .t ((f.o3 != 0) || (vill f.x [0] true true true true false false) || ((xi f.x).extractLsb' 8 8 != 0) || (!cvtPair ((xi f.x).setWidth 8) (xf f.x)) || f.toksBad) ((v6 f.o1) || (v6 f.o2)) (.vcvt f.hdr f.toks (xo f.x) (xf f.x) ((xi f.x).setWidth 8) (xrnd f.x) (r5 f.o1) (r5 f.o2)))
  | _ => none

/-- Major `0x28` of R167: the rows of its `FN` values. -/
def arms28 (_priv : Bool) (f : Raw) : Nat → Option Arm
  | 0 => some (.mk true false .t ((f.o3 != 0) || (vill f.x [0,1,2,3,4] true false false true false false) || (2 < (xf f.x).toNat) || ((xo f.x).zm) || f.toksBad) ((v6 f.o1) || (v6 f.o2)) (.vred f.hdr f.toks (xo f.x) (RedOp.ofCode ((xf f.x).setWidth 2)) (r5 f.o1) (r5 f.o2)))
  | 1 => some (.mk true false .t ((f.o3 != 0) || (vill f.x [0,1,2,3,4] true false false true false false) || (2 < (xf f.x).toNat) || f.toksBad) ((v6 f.o1) || (v6 f.o2)) (.vscan f.hdr f.toks (xo f.x) (RedOp.ofCode ((xf f.x).setWidth 2)) (r5 f.o1) (r5 f.o2)))
  | _ => none

/-- Major `0x29` of R167: the rows of its `FN` values. -/
def arms29 (_priv : Bool) (f : Raw) : Nat → Option Arm
  | 0 => some (.mk true false .t ((vill f.x [0,1,2,3,4] true false false false false false) || f.toksBad) ((v6 f.o1) || (v6 f.o2) || (v6 f.o3)) (.vperm f.hdr f.toks (xo f.x) (r5 f.o1) (r5 f.o2) (r5 f.o3)))
  | 1 => some (.mk true false .t ((vill f.x [0,1,2,3,4] true false true true false false) || (4 < (xf f.x).toNat) || (if xf f.x == 4 then (xo f.x).ety.count < (xi f.x).toNat else (xi f.x) != 0) || f.toksBad) ((v6 f.o1) || (v6 f.o2) || (v6 f.o3)) (.vshuf f.hdr f.toks (xo f.x) ((xf f.x).setWidth 3) (xi f.x) (r5 f.o1) (r5 f.o2) (r5 f.o3)))
  | 2 => if xf f.x != 1 then some (.mk true false .t ((f.o3 != 0) || (vill f.x [0,1,2,3,4] true false true true false false) || (xf f.x != 0) || (xi f.x != 0) || f.toksBad) ((v6 f.o1)) (.vbcast f.hdr f.toks (xo f.x) (r5 f.o1) f.o2))
    else some (.mk true false .t ((f.o3 != 0) || (vill f.x [0,1,2,3,4] true false true true false false) || (xf f.x != 1) || ((xo f.x).ety.count <= (xi f.x).toNat) || f.toksBad) ((v6 f.o1) || (v6 f.o2)) (.vbcastE f.hdr f.toks (xo f.x) (r5 f.o1) (r5 f.o2) (xi f.x)))
  | 3 => some (.mk true false .t ((f.o3 != 0) || (vill f.x [0,1,2,3,4] true false false false false false) || f.toksBad) ((v6 f.o1)) (.vidx f.hdr f.toks (xo f.x) (r5 f.o1) f.o2))
  | 4 => some (.mk true false .t ((f.o3 != 0) || (vill f.x [0,1,2,3,4] true false false false false false) || f.toksBad) ((v6 f.o1) || (v6 f.o2)) (.vmov f.hdr f.toks (xo f.x) (r5 f.o1) (r5 f.o2)))
  | _ => none

/-- Major `0x2A` of R167: the rows of its `FN` values. -/
def arms2A (_priv : Bool) (f : Raw) : Nat → Option Arm
  | 0 => some (.mk true false .t ((vill f.x [0] true false true false false false) || ((xi f.x).extractLsb' 7 9 != 0) || f.toksBad) ((v6 f.o1) || (p6 f.o2)) (.trd f.hdr f.toks (xo f.x) (r5 f.o1) (q3 f.o2) f.o3 ((xi f.x).setWidth 7)))
  | 1 => some (.mk true false .t ((vill f.x [0] true false true false false false) || ((xi f.x).extractLsb' 7 9 != 0) || f.toksBad) ((p6 f.o1) || (v6 f.o2)) (.twr f.hdr f.toks (xo f.x) (q3 f.o1) (r5 f.o2) f.o3 ((xi f.x).setWidth 7)))
  | _ => none

/-- Major `0x2C` of R167: the rows of its `FN` values. -/
def arms2C (_priv : Bool) (f : Raw) : Nat → Option Arm
  | 0 => some (.mk true false .t ((vill f.x [0,1,2,3,4] true false true false false false) || f.toksBad) ((v6 f.o1)) (.vld f.hdr f.toks (xo f.x) (r5 f.o1) f.o2 f.o3 (xi f.x)))
  | 1 => some (.mk true false .t ((vill f.x [0,1,2,3,4] true false true false false false) || f.toksBad) ((v6 f.o1)) (.vlds f.hdr f.toks (xo f.x) (r5 f.o1) f.o2 f.o3 (xi f.x)))
  | 2 => some (.mk true false .t ((vill f.x [0,1,2,3,4] true false true false false false) || f.toksBad) ((v6 f.o1) || (v6 f.o3)) (.vgath f.hdr f.toks (xo f.x) (r5 f.o1) f.o2 (r5 f.o3) (xi f.x)))
  | 3 => some (.mk true false .t ((vill f.x [0,1,2,3,4] true false true false false false) || f.toksBad) ((v6 f.o1)) (.vst f.hdr f.toks (xo f.x) (r5 f.o1) f.o2 f.o3 (xi f.x)))
  | 4 => some (.mk true false .t ((vill f.x [0,1,2,3,4] true false true false false false) || f.toksBad) ((v6 f.o1)) (.vsts f.hdr f.toks (xo f.x) (r5 f.o1) f.o2 f.o3 (xi f.x)))
  | 5 => some (.mk true false .t ((vill f.x [0,1,2,3,4] true false true false false false) || f.toksBad) ((v6 f.o1) || (v6 f.o3)) (.vscat f.hdr f.toks (xo f.x) (r5 f.o1) f.o2 (r5 f.o3) (xi f.x)))
  | 6 => if !(xf f.x).getLsbD 7 then some (.mk true false .t ((vill f.x [0] true false true true false true) || (!(xf f.x == 2 || xf f.x == 3)) || f.toksBad) ((v6 f.o1)) (.vstSrPtr f.hdr f.toks (xo f.x) (xf f.x) (xseed f.x) (r5 f.o1) f.o2 f.o3 (xi f.x)))
    else some (.mk true false .t ((vill f.x [0] true false true true false true) || (xf f.x != 0x80) || (xi f.x != 0) || f.toksBad) ((v6 f.o1)) (.vstSrHdl f.hdr f.toks (xo f.x) (xseed f.x) (r5 f.o1) f.o2 f.o3))
  | 7 => some (.mk true false .t ((vill f.x [0] true false true true false false) || (!(xf f.x == 1 || xf f.x == 2)) || f.toksBad) ((v6 f.o1)) (.vstAcc f.hdr f.toks (xo f.x) (xf f.x) (r5 f.o1) f.o2 f.o3 (xi f.x)))
  | _ => none

/-- Major `0x30` of R167: the rows of its `FN` values. -/
def arms30 (_priv : Bool) (f : Raw) : Nat → Option Arm
  | 0 => some (.mk true false .t ((f.o2 != 0) || (f.o3 != 0) || (f.x != 0) || f.toksBad) ((p6 f.o1)) (.nestClr f.hdr f.toks (q3 f.o1)))
  | 1 => some (.mk true false .t ((f.o3 != 0) || (5 < f.o2.toNat) || f.toksBad) ((p6 f.o1)) (.nestLvl f.hdr f.toks (q3 f.o1) (q3 f.o2) (f.x.extractLsb' 0 24) (f.x.extractLsb' 24 14) (f.x.extractLsb' 38 14)))
  | 2 => some (.mk true false .t ((f.o3 != 0) || (f.x.extractLsb' 22 30 != 0) || (256 < (f.x.extractLsb' 10 9).toNat) || (!f.x.getLsbD 19 && !f.x.getLsbD 20 && f.o2 != 0) || f.toksBad) ((p6 f.o1)) (.nestOpt f.hdr f.toks (q3 f.o1) f.o2 (NestOpt.ofBits f.x)))
  | 3 => some (.mk true false .t ((f.o3 != 0) || (f.x.extractLsb' 13 39 != 0) || f.toksBad) ((p6 f.o1) || (p6 f.o2)) (.nestAcc f.hdr f.toks (q3 f.o1) (q3 f.o2) (f.x.extractLsb' 0 7) (f.x.extractLsb' 7 6)))
  | 4 => some (.mk true false .t ((f.x != 0) || f.toksBad) ((p6 f.o1)) (.mmRun f.hdr f.toks (q3 f.o1) f.o2 f.o3))
  | 5 => some (.mk true false .t ((f.x != 0) || f.toksBad) ((p6 f.o1)) (.mmBatch f.hdr f.toks (q3 f.o1) f.o2 f.o3))
  | 6 => some (.mk true false .t ((f.o3 != 0) || (f.x != 0) || f.toksBad) ((p6 f.o1)) (.accInit f.hdr f.toks (q3 f.o1) f.o2))
  | 7 => some (.mk true false .t ((f.o2 != 0) || (f.o3 != 0) || (f.x != 0) || f.toksBad) ((p6 f.o1)) (.accFlush f.hdr f.toks (q3 f.o1)))
  | 8 => some (.mk true false .t ((f.o3 != 0) || ((f.x.extractLsb' 0 2).toNat == 3) || ((f.x.extractLsb' 0 2) != 2 && (f.x.extractLsb' 2 6) != 0) || (f.x.extractLsb' 21 31 != 0) || f.toksBad) ((p6 f.o2)) (.accRd f.hdr f.toks f.o1 (q3 f.o2) (lrnd f.x) (f.x.extractLsb' 8 7) (f.x.extractLsb' 15 6)))
  | 9 => if !f.x.getLsbD 21 then some (.mk true false .t ((f.o3 != 0) || (f.x.extractLsb' 0 8 != 0) || (f.x.extractLsb' 22 30 != 0) || f.toksBad) ((p6 f.o1)) (.accWr f.hdr f.toks (q3 f.o1) f.o2 (f.x.extractLsb' 8 7) (f.x.extractLsb' 15 6)))
    else some (.mk true false .t ((f.o3 != 0) || (f.x.extractLsb' 0 8 != 0) || (f.x.extractLsb' 22 30 != 0) || f.toksBad) ((p6 f.o1)) (.accWrAdd f.hdr f.toks (q3 f.o1) f.o2 (f.x.extractLsb' 8 7) (f.x.extractLsb' 15 6)))
  | 10 => some (.mk true false .t ((f.o3 != 0) || ((f.x.extractLsb' 0 2).toNat == 3) || ((f.x.extractLsb' 0 2) != 2 && (f.x.extractLsb' 2 6) != 0) || (f.x.extractLsb' 8 44 != 0) || f.toksBad) (false) (.planePack f.hdr f.toks f.o1 f.o2 (lrnd f.x)))
  | 11 => some (.mk true false .t ((f.o3 != 0) || ((f.x.extractLsb' 0 2).toNat == 3) || ((f.x.extractLsb' 0 2) != 2 && (f.x.extractLsb' 2 6) != 0) || (f.x.extractLsb' 8 44 != 0) || f.toksBad) (false) (.planeUnpk f.hdr f.toks f.o1 f.o2 (lrnd f.x)))
  | _ => none

/-- Major `0x34` of R167: the rows of its `FN` values. -/
def arms34 (_priv : Bool) (f : Raw) : Nat → Option Arm
  | 0 => some (.mk true false .t ((f.o3 != 0) || (f.x != 0) || f.toksBad) (false) (.hdlSet f.hdr f.toks f.o1 f.o2))
  | 1 => some (.mk true false .t ((f.o2 != 0) || (f.o3 != 0) || (f.x != 0) || f.toksBad) (false) (.hdlInv f.hdr f.toks f.o1))
  | 2 => some (.mk true false .t ((f.o3 != 0) || ((f.x.extractLsb' 0 2).toNat == 3) || ((f.x.extractLsb' 0 2) != 2 && (f.x.extractLsb' 2 6) != 0) || (!f.x.getLsbD 16 && (f.x.extractLsb' 17 6) != 0) || (f.x.extractLsb' 23 3 != 0) || (f.x.extractLsb' 26 26 != 0) || f.toksBad) (false) (.cp f.hdr f.toks f.o1 f.o2 (lrnd f.x) (f.x.extractLsb' 8 8) (f.x.getLsbD 16) (f.x.extractLsb' 17 6)))
  | 3 => some (.mk true false .t ((f.o3 != 0) || (f.x.extractLsb' 0 8 != 0) || (f.x.extractLsb' 8 8 != 0) || (!f.x.getLsbD 16 && (f.x.extractLsb' 17 6) != 0) || (f.x.extractLsb' 23 3 != 0) || (f.x.extractLsb' 26 26 != 0) || f.toksBad) (false) (.cpAcc f.hdr f.toks f.o1 f.o2 (f.x.getLsbD 16) (f.x.extractLsb' 17 6)))
  | 4 => some (.mk true false .t ((f.o3 != 0) || (f.x.extractLsb' 0 8 != 0) || (f.x.extractLsb' 8 8 != 0) || (!f.x.getLsbD 16 && (f.x.extractLsb' 17 6) != 0) || (f.x.extractLsb' 23 3 != 0) || (f.x.extractLsb' 26 26 != 0) || f.toksBad) (false) (.cpDec f.hdr f.toks f.o1 f.o2 (f.x.getLsbD 16) (f.x.extractLsb' 17 6)))
  | 5 => some (.mk true false .t ((f.o3 != 0) || ((f.x.extractLsb' 0 2).toNat == 3) || ((f.x.extractLsb' 0 2) != 2 && (f.x.extractLsb' 2 6) != 0) || (f.x.extractLsb' 8 8 != 0) || (!f.x.getLsbD 16 && (f.x.extractLsb' 17 6) != 0) || (f.x.extractLsb' 26 26 != 0) || (3 < (f.x.extractLsb' 23 3).toNat) || f.toksBad) (false) (.cpCmp f.hdr f.toks f.o1 f.o2 (lrnd f.x) (f.x.extractLsb' 23 3) (f.x.getLsbD 16) (f.x.extractLsb' 17 6)))
  | 6 => some (.mk true false .t ((f.o1 != 0) || (f.o3 != 0) || (f.x != 0) || f.toksBad) (false) (.cpPf f.hdr f.toks f.o2))
  | 7 => some (.mk true false .t ((f.o3 != 0) || ((f.x.extractLsb' 0 2).toNat == 3) || ((f.x.extractLsb' 0 2) != 2 && (f.x.extractLsb' 2 6) != 0) || (f.x.extractLsb' 8 8 != 0) || (f.x.extractLsb' 16 7 != 0) || (f.x.extractLsb' 26 26 != 0) || (4 < (f.x.extractLsb' 23 3).toNat) || f.toksBad) (false) (.glean f.hdr f.toks f.o1 f.o2 (lrnd f.x) (f.x.extractLsb' 23 3)))
  | _ => none

/-- Major `0x38` of R167: the rows of its `FN` values. -/
def arms38 (_priv : Bool) (f : Raw) : Nat → Option Arm
  | 0 => some (.mk true false .t ((f.o3 != 0) || (f.x.extractLsb' 0 10 == 0) || f.toksNZ) (false) (.blkBegin f.hdr f.o1 f.o2 (BlkParm.ofBits f.x)))
  | 1 => some (.mk true false .t ((f.o1 != 0) || (f.o2 != 0) || (f.o3 != 0) || (f.x != 0) || f.toksNZ) (false) (.blkEnd f.hdr))
  | 2 => some (.mk true false .t ((f.o1 != 0) || (f.o2 != 0) || (f.o3 != 0) || (f.x != 0) || f.toksNZ) (false) (.revb f.hdr))
  | 3 => if f.o1 != 1 && f.o1 != 2 then some (.mk true false .t ((f.o2 != 0) || (f.o3 != 0) || (f.o1 != 0) || (f.x.extractLsb' 16 36 != 0) || f.toksBad) (false) (.gradZeroV f.hdr f.toks (f.x.setWidth 16)))
    else if f.o1 == 1 then some (.mk true false .t ((f.o2 != 0) || (f.o3 != 0) || (f.x.extractLsb' 4 48 != 0) || f.toksBad) (false) (.gradZeroAcc f.hdr f.toks (f.x.setWidth 4)))
    else some (.mk true false .t ((f.o3 != 0) || (f.o2.toNat < 32) || (f.x != 0) || f.toksBad) (false) (.gradZeroH f.hdr f.toks f.o2))
  | _ => none

/-- Major `0x39` of R167: the rows of its `FN` values. -/
def arms39 (_priv : Bool) (f : Raw) : Nat → Option Arm
  | 0 => some (.mk true false .t ((f.o2 != 0) || (f.o3 != 0) || (f.x != 0) || f.toksBad) (false) (.rsBind f.hdr f.toks f.o1))
  | 1 => some (.mk true false .t ((f.o1 != 0) || (f.o3 != 0) || (f.x != 0) || f.toksBad) (false) (.rsPush f.hdr f.toks f.o2))
  | 2 => some (.mk true false .t ((f.o2 != 0) || (f.o3 != 0) || (f.x != 0) || f.toksBad) (false) (.rsPop f.hdr f.toks f.o1))
  | 3 => some (.mk true false .t ((f.o2 != 0) || (f.o3 != 0) || (f.x != 0) || f.toksNZ) (false) (.rsMark f.hdr f.o1))
  | 4 => some (.mk true false .t ((f.o1 != 0) || (f.o3 != 0) || (f.x != 0) || f.toksNZ) (false) (.rsDrop f.hdr f.o2))
  | 5 => some (.mk true false .t ((f.o1 != 0) || (f.o2 != 0) || (f.o3 != 0) || (f.x != 0) || f.toksBad) (false) (.rsSpill f.hdr f.toks))
  | _ => none

/-- Major `0x3A` of R167: the rows of its `FN` values. -/
def arms3A (_priv : Bool) (f : Raw) : Nat → Option Arm
  | 0 => some (.mk true false .t ((f.o2 != 0) || (f.o3 != 0) || (f.x != 0) || f.toksBad) (false) (.launch f.hdr f.toks f.o1))
  | 1 => some (.mk true false .t ((f.o1 != 0) || (f.o2 != 0) || (f.o3 != 0) || (f.x != 0) || (f.td != 0) || f.toksBad) (false) (.ptDone f.hdr f.toks))
  | 2 => some (.mk true false .t ((f.o2 != 0) || (f.o3 != 0) || (f.x != 0) || (f.td != 0) || f.toksBad) (false) (.ptSelf f.hdr f.toks f.o1))
  | 3 => some (.mk true false .t ((f.o3 != 0) || (f.x != 0) || f.toksBad) (false) (.tlRead f.hdr f.toks f.o1 f.o2))
  | _ => none

/-- Major `0x3B` of R167: the rows of its `FN` values. -/
def arms3B (_priv : Bool) (f : Raw) : Nat → Option Arm
  | 0 => some (.mk true false .t ((f.o3 != 0) || (f.x != 0) || f.toksBad) ((v6 f.o1)) (.chSend f.hdr f.toks (r5 f.o1) f.o2))
  | 1 => some (.mk true false .t ((f.o3 != 0) || (f.x.extractLsb' 0 27 != 0) || (f.x.extractLsb' 33 19 != 0) || (badLim (f.x.extractLsb' 27 6)) || f.toksBad) ((v6 f.o2)) (.chRecv f.hdr f.toks f.o1 (r5 f.o2) (f.x.extractLsb' 27 6)))
  | 2 => some (.mk true false .t ((f.x.extractLsb' 0 16 != 0) || (!f.x.getLsbD 16 && (f.x.extractLsb' 17 6) != 0) || (f.x.extractLsb' 23 29 != 0) || f.toksBad) ((v6 f.o1)) (.chPut f.hdr f.toks (r5 f.o1) f.o2 f.o3 (f.x.getLsbD 16) (f.x.extractLsb' 17 6)))
  | 3 => some (.mk true false .t ((f.x.extractLsb' 0 16 != 0) || (!f.x.getLsbD 16 && (f.x.extractLsb' 17 6) != 0) || (f.x.extractLsb' 23 29 != 0) || f.toksBad) ((v6 f.o2)) (.chGet f.hdr f.toks f.o1 (r5 f.o2) f.o3 (f.x.getLsbD 16) (f.x.extractLsb' 17 6)))
  | 4 => some (.mk true false .t ((f.x.extractLsb' 0 17 != 0) || (f.x.extractLsb' 27 25 != 0) || f.toksBad) ((v6 f.o2)) (.chAmo f.hdr f.toks f.o1 (r5 f.o2) f.o3 (f.x.extractLsb' 17 6) (f.x.extractLsb' 23 3) (f.x.extractLsb' 26 1)))
  | 5 => some (.mk true false .t ((f.x.extractLsb' 0 16 != 0) || (!f.x.getLsbD 16 && (f.x.extractLsb' 17 6) != 0) || (f.x.extractLsb' 23 29 != 0) || f.toksBad) ((v6 f.o1)) (.chMcast f.hdr f.toks (r5 f.o1) f.o2 f.o3 (f.x.getLsbD 16) (f.x.extractLsb' 17 6)))
  | 6 => some (.mk true false .t ((f.o3 != 0) || (f.x != 0) || (f.td != 0) || f.toksBad) ((v6 f.o2)) (.chQry f.hdr f.toks f.o1 (r5 f.o2)))
  | 7 => some (.mk true false .t ((f.x.extractLsb' 0 16 != 0) || (!f.x.getLsbD 16 && (f.x.extractLsb' 17 6) != 0) || (f.x.extractLsb' 23 29 != 0) || f.toksBad) ((v6 f.o2)) (.sioRead f.hdr f.toks f.o1 (r5 f.o2) f.o3 (f.x.getLsbD 16) (f.x.extractLsb' 17 6)))
  | _ => none

/-- Major `0x3C` of R167: the rows of its `FN` values. -/
def arms3C (priv : Bool) (f : Raw) : Nat → Option Arm
  | 0 => some (.mk false false .i ((f.d != 0) || (f.a != 0)) (false) (.trap f.hdr f.imm28))
  | 1 => some (.mk false true .r ((f.d != 0) || (f.b != 0) || (f.c != 0) || (f.mod != 0)) ((s7 f.a)) (.tret f.hdr (r6 f.a)))
  | 2 => some (.mk false false .i ((f.imm28 != 0) || (ctlNoRead priv f.a)) ((s7 f.d) || (ctlBad f.a)) (.ctlRd f.hdr (r6 f.d) (ctlD f.a)))
  | 3 => some (.mk false false .i ((f.imm28 != 0) || (ctlNoWrite priv f.d)) ((s7 f.a) || (ctlBad f.d)) (.ctlWr f.hdr (ctlD f.d) (r6 f.a)))
  | 4 => some (.mk true false .i ((f.a != 0) || (ctlNoWrite priv f.d)) ((ctlBad f.d)) (.ctlWrImm f.hdr (ctlD f.d) f.imm))
  | 5 => some (.mk true true .t ((f.o3 != 0) || (f.x != 0) || f.toksBad) (false) (.cutSave f.hdr f.toks f.o1 f.o2))
  | 6 => some (.mk true true .t ((f.o3 != 0) || (f.x != 0) || f.toksBad) (false) (.cutLoad f.hdr f.toks f.o1 f.o2))
  | 7 => some (.mk true true .t ((f.o2 != 0) || (f.o3 != 0) || (f.x != 0) || f.toksBad) (false) (.park f.hdr f.toks f.o1))
  | 8 => some (.mk true true .t ((f.o2 != 0) || (f.o3 != 0) || (f.x != 0) || f.toksBad) (false) (.wake f.hdr f.toks f.o1))
  | 9 => some (.mk false true .r ((f.d != 0) || (f.a != 0) || (f.b != 0) || (f.c != 0) || (f.mod != 0)) (false) (.idle f.hdr))
  | _ => none

/-- Major `0x3D` of R167: the rows of its `FN` values. -/
def arms3D (_priv : Bool) (f : Raw) : Nat → Option Arm
  | 0 => if !f.x.getLsbD 1 then some (.mk true true .t ((f.o3 != 0) || (f.x.extractLsb' 2 50 != 0) || f.toksBad) (false) (.probe f.hdr f.toks f.o1 f.o2 (f.x.getLsbD 0)))
    else some (.mk true true .t ((f.o3 != 0) || (f.x.extractLsb' 2 50 != 0) || f.toksBad) (false) (.probeRes f.hdr f.toks f.o1 f.o2 (f.x.getLsbD 0)))
  | 1 => some (.mk true true .t ((f.x.extractLsb' 2 50 != 0) || (f.x.getLsbD 0 && f.o1 != 0) || (f.x.getLsbD 1 && (f.o2 != 0 || f.o3 != 0)) || f.toksBad) (false) (.mmuInv f.hdr f.toks f.o1 f.o2 f.o3 (f.x.getLsbD 0) (f.x.getLsbD 1)))
  | 2 => some (.mk true true .t ((f.o1 != 0) || (f.o2 != 0) || (f.o3 != 0) || (f.x != 0) || f.toksBad) (false) (.mmuSync f.hdr f.toks))
  | 3 => some (.mk true true .t ((f.x != 0) || f.toksBad) (false) (.mmuWalk f.hdr f.toks f.o1 f.o2 f.o3))
  | 4 => some (.mk true true .t ((f.o3 != 0) || (f.x != 0) || f.toksBad) (false) (.keyLoad f.hdr f.toks f.o1 f.o2))
  | 5 => some (.mk true true .t ((f.o2 != 0) || (f.o3 != 0) || (f.x != 0) || f.toksBad) (false) (.keyKill f.hdr f.toks f.o1))
  | _ => none

/-- The opcode map of R166 and R167; `none` is an unassigned major or function. -/
noncomputable def armOf (priv : Bool) (f : Raw) : Nat → Option Arm
  | 0x00 => arms00 priv f f.fn.toNat
  | 0x01 => arms01 priv f f.fn.toNat
  | 0x08 => arms08 priv f f.fn.toNat
  | 0x10 => arms10 priv f f.fn.toNat
  | 0x14 => arms14 priv f f.fn.toNat
  | 0x18 => arms18 priv f f.fn.toNat
  | 0x1C => arms1C priv f f.fn.toNat
  | 0x20 => arms20 priv f f.fn.toNat
  | 0x21 => arms21 priv f f.fn.toNat
  | 0x22 => arms22 priv f f.fn.toNat
  | 0x23 => arms23 priv f f.fn.toNat
  | 0x24 => arms24 priv f f.fn.toNat
  | 0x25 => arms25 priv f f.fn.toNat
  | 0x26 => arms26 priv f f.fn.toNat
  | 0x27 => arms27 priv f f.fn.toNat
  | 0x28 => arms28 priv f f.fn.toNat
  | 0x29 => arms29 priv f f.fn.toNat
  | 0x2A => arms2A priv f f.fn.toNat
  | 0x2C => arms2C priv f f.fn.toNat
  | 0x30 => arms30 priv f f.fn.toNat
  | 0x34 => arms34 priv f f.fn.toNat
  | 0x38 => arms38 priv f f.fn.toNat
  | 0x39 => arms39 priv f f.fn.toNat
  | 0x3A => arms3A priv f f.fn.toNat
  | 0x3B => arms3B priv f f.fn.toNat
  | 0x3C => arms3C priv f f.fn.toNat
  | 0x3D => arms3D priv f f.fn.toNat
  | _ => none

/-- R164 on a fetched unit, in a core of the given mode; `bailiff` says that the core is a bailiff. Every ILLOP comes before
BADREG. -/
noncomputable def decodeRaw (priv bailiff : Bool) (f : Raw) : Except DecErr Instr :=
  if f.ver == 3 || f.maj == 0x3F then .error .illop
  else match armOf priv f f.maj.toNat with
  | none => .error .illop
  | some (.mk e p fmt ill bad ins) =>
    if f.pred == 0 && f.pn then .error .illop
    else if p && !priv then .error .illop
    else if f.maj == 0x3A && f.fn == 1 && bailiff then .error .illop
    else if f.xp.isSome && !e then .error .illop
    else if fmt == .i && f.x.extractLsb' 36 16 != 0 then .error .illop
    else if ill then .error .illop
    else if bad then .error .badreg
    else .ok ins

/-- The little-endian word of the first eight bytes (R8), and the rest. -/
def takeWord : List Byte → Option (Word × List Byte)
  | b0 :: b1 :: b2 :: b3 :: b4 :: b5 :: b6 :: b7 :: rest => some (b7 ++ b6 ++ b5 ++ b4 ++ b3 ++ b2 ++ b1 ++ b0, rest)
  | _ => none

/-- The unit that words fetched in sequence form: an `EXT` governs the word after it (R159). -/
def unitOf (w : Word) (next : Option Word) : Except DecErr Raw :=
  if w.extractLsb' 52 6 == 0x3F then
    if w.extractLsb' 58 6 != 0 then .error .illop
    else match next with
    | none => .error .short
    | some w2 => .ok ⟨some (w.extractLsb' 0 52), w2⟩
  else .ok ⟨none, w⟩

/-- The instruction at the head of a list of bytes, with the bytes after it. -/
noncomputable def decode (priv bailiff : Bool) (bytes : List Byte) : Except DecErr (Instr × List Byte) :=
  match takeWord bytes with
  | none => .error .short
  | some (w, rest) =>
    match unitOf w ((takeWord rest).map Prod.fst) with
    | .error e => .error e
    | .ok f =>
      match decodeRaw priv bailiff f with
      | .error e => .error e
      | .ok i => .ok (i, if f.xp.isSome then rest.drop 8 else rest)

/-- Little-endian bytes of a number (R8). -/
def leBytes : Nat → Nat → List Byte
  | 0, _ => []
  | n + 1, v => BitVec.ofNat 8 v :: leBytes n (v / 256)

/-- The instruction that the decoder reads from a unit whose bits are `w`, numbered from the first word's bit 0; a unit of more
than `nbits` bits has zeros above. Read in privileged mode on a croft, so that every row of the map can be asked about. -/
noncomputable def decodeTableWord (nbits w : Nat) : Option Instr :=
  match decode true false (leBytes 16 (w % 2 ^ nbits)) with
  | .ok (i, _) => some i
  | .error _ => none

/-- R164: the control register that an instruction names, if it names one, may be reached in a core of the given mode. -/
def Instr.reaches (priv : Bool) : Instr → Bool
  | .ctlRd _ _ c => c.readable priv
  | .ctlWr _ c _ | .ctlWrImm _ c _ => c.writable priv
  | _ => true

/-- The governed word of a header, an opcode and 42 operand bits (R150). -/
def encW (h : Hdr) (maj fn : BitVec 6) (body : BitVec 42) : Word :=
  h.ver ++ h.sc ++ maj ++ h.pred ++ BitVec.ofBool h.pn ++ fn ++ body

/-- The `EXT` payload, when the header asks for one. -/
def encX (h : Hdr) (x : BitVec 52) : Option (BitVec 52) := if h.ext then some x else none

def encR (h : Hdr) (maj fn : BitVec 6) (d a b c : BitVec 7) (mod : BitVec 14) : Raw :=
  ⟨encX h 0, encW h maj fn (d ++ a ++ b ++ c ++ mod)⟩

def encI (h : Hdr) (maj fn : BitVec 6) (d a : BitVec 7) (imm : Word) : Raw :=
  ⟨encX h ((imm.extractLsb' 28 36).setWidth 52), encW h maj fn (d ++ a ++ imm.setWidth 28)⟩

def encJ (h : Hdr) (maj fn : BitVec 6) (a : BitVec 7) (imm : BitVec 35) : Raw :=
  ⟨encX h 0, encW h maj fn (a ++ imm)⟩

def encT (h : Hdr) (maj fn : BitVec 6) (t : Toks) (o1 o2 o3 : BitVec 6) (x : BitVec 52) : Raw :=
  ⟨encX h x, encW h maj fn (t.td ++ t.tw1 ++ t.tw2 ++ t.tw3 ++ o1 ++ o2 ++ o3)⟩

/-- The bytes of a unit, lowest address first (R150). -/
def Raw.bytes (f : Raw) : List Byte :=
  (match f.xp with
   | some x => leBytes 8 ((0x03F#12 ++ x : Word)).toNat
   | none => []) ++ leBytes 8 f.w.toNat

/-- The unit of an instruction: its governed word and, when its header says so, the `EXT` in front of it. Written from the
encoding tables of 07 and of each chapter; an event row has no word and gets the zero unit. -/
def encode : Instr → Raw
  | .add h d a b => encR h 0x00#6 0x00#6 (w7 d) (w7 a) (w7 b) 0#7 0#14
  | .sub h d a b => encR h 0x00#6 0x01#6 (w7 d) (w7 a) (w7 b) 0#7 0#14
  | .mul h d a b => encR h 0x00#6 0x02#6 (w7 d) (w7 a) (w7 b) 0#7 0#14
  | .mulh h d a b => encR h 0x00#6 0x03#6 (w7 d) (w7 a) (w7 b) 0#7 0#14
  | .mulhu h d a b => encR h 0x00#6 0x04#6 (w7 d) (w7 a) (w7 b) 0#7 0#14
  | .div h d a b => encR h 0x00#6 0x05#6 (w7 d) (w7 a) (w7 b) 0#7 0#14
  | .divu h d a b => encR h 0x00#6 0x06#6 (w7 d) (w7 a) (w7 b) 0#7 0#14
  | .rem h d a b => encR h 0x00#6 0x07#6 (w7 d) (w7 a) (w7 b) 0#7 0#14
  | .remu h d a b => encR h 0x00#6 0x08#6 (w7 d) (w7 a) (w7 b) 0#7 0#14
  | .and h d a b => encR h 0x00#6 0x09#6 (w7 d) (w7 a) (w7 b) 0#7 0#14
  | .or h d a b => encR h 0x00#6 0x0A#6 (w7 d) (w7 a) (w7 b) 0#7 0#14
  | .xor h d a b => encR h 0x00#6 0x0B#6 (w7 d) (w7 a) (w7 b) 0#7 0#14
  | .andn h d a b => encR h 0x00#6 0x0C#6 (w7 d) (w7 a) (w7 b) 0#7 0#14
  | .orn h d a b => encR h 0x00#6 0x0D#6 (w7 d) (w7 a) (w7 b) 0#7 0#14
  | .shl h d a b => encR h 0x00#6 0x0E#6 (w7 d) (w7 a) (w7 b) 0#7 0#14
  | .shr h d a b => encR h 0x00#6 0x0F#6 (w7 d) (w7 a) (w7 b) 0#7 0#14
  | .sra h d a b => encR h 0x00#6 0x10#6 (w7 d) (w7 a) (w7 b) 0#7 0#14
  | .rol h d a b => encR h 0x00#6 0x11#6 (w7 d) (w7 a) (w7 b) 0#7 0#14
  | .ror h d a b => encR h 0x00#6 0x12#6 (w7 d) (w7 a) (w7 b) 0#7 0#14
  | .min h d a b => encR h 0x00#6 0x13#6 (w7 d) (w7 a) (w7 b) 0#7 0#14
  | .max h d a b => encR h 0x00#6 0x14#6 (w7 d) (w7 a) (w7 b) 0#7 0#14
  | .minu h d a b => encR h 0x00#6 0x15#6 (w7 d) (w7 a) (w7 b) 0#7 0#14
  | .maxu h d a b => encR h 0x00#6 0x16#6 (w7 d) (w7 a) (w7 b) 0#7 0#14
  | .clz h d a => encR h 0x00#6 0x17#6 (w7 d) (w7 a) 0#7 0#7 0#14
  | .ctz h d a => encR h 0x00#6 0x18#6 (w7 d) (w7 a) 0#7 0#7 0#14
  | .popc h d a => encR h 0x00#6 0x19#6 (w7 d) (w7 a) 0#7 0#7 0#14
  | .brev h d a => encR h 0x00#6 0x1A#6 (w7 d) (w7 a) 0#7 0#7 0#14
  | .bswap h d a => encR h 0x00#6 0x1B#6 (w7 d) (w7 a) 0#7 0#7 0#14
  | .bfx h d a pos lenm1 => encR h 0x00#6 0x1C#6 (w7 d) (w7 a) 0#7 0#7 (0#1 ++ 0#1 ++ lenm1 ++ pos)
  | .bfxS h d a pos lenm1 => encR h 0x00#6 0x1C#6 (w7 d) (w7 a) 0#7 0#7 (0#1 ++ 1#1 ++ lenm1 ++ pos)
  | .bfi h d a b pos lenm1 => encR h 0x00#6 0x1D#6 (w7 d) (w7 a) (w7 b) 0#7 (0#2 ++ lenm1 ++ pos)
  | .fshl h d a b c => encR h 0x00#6 0x1E#6 (w7 d) (w7 a) (w7 b) (w7 c) 0#14
  | .fshlImm h d a b n => encR h 0x00#6 0x1E#6 (w7 d) (w7 a) (w7 b) 0#7 (0#7 ++ 1#1 ++ n)
  | .fshr h d a b c => encR h 0x00#6 0x1F#6 (w7 d) (w7 a) (w7 b) (w7 c) 0#14
  | .fshrImm h d a b n => encR h 0x00#6 0x1F#6 (w7 d) (w7 a) (w7 b) 0#7 (0#7 ++ 1#1 ++ n)
  | .sel h d a b c => encR h 0x00#6 0x20#6 (w7 d) (w7 a) (w7 b) (w7 c) 0#14
  | .mov h d a => encR h 0x00#6 0x21#6 (w7 d) (w7 a) 0#7 0#7 0#14
  | .lea h d mem => encR h 0x00#6 0x22#6 (w7 d) (w7 mem.a) (w7 mem.b) 0#7 (mem.mod 0#2)
  | .padd h d a b imm => encR h 0x00#6 0x23#6 (w7 d) (w7 a) (w7 b) 0#7 imm
  | .pidx h d a => encR h 0x00#6 0x24#6 (w7 d) (w7 a) 0#7 0#7 0#14
  | .pidxSet h d a b => encR h 0x00#6 0x24#6 (w7 d) (w7 a) (w7 b) 0#7 1#14
  | .cmpEq h d a b => encR h 0x01#6 0x00#6 (w7 d) (w7 a) (w7 b) 0#7 0#14
  | .cmpNe h d a b => encR h 0x01#6 0x01#6 (w7 d) (w7 a) (w7 b) 0#7 0#14
  | .cmpLt h d a b => encR h 0x01#6 0x02#6 (w7 d) (w7 a) (w7 b) 0#7 0#14
  | .cmpLe h d a b => encR h 0x01#6 0x03#6 (w7 d) (w7 a) (w7 b) 0#7 0#14
  | .cmpLtu h d a b => encR h 0x01#6 0x04#6 (w7 d) (w7 a) (w7 b) 0#7 0#14
  | .cmpLeu h d a b => encR h 0x01#6 0x05#6 (w7 d) (w7 a) (w7 b) 0#7 0#14
  | .pand h d a b => encR h 0x01#6 0x08#6 (w7 d) (w7 a) (w7 b) 0#7 0#14
  | .por h d a b => encR h 0x01#6 0x09#6 (w7 d) (w7 a) (w7 b) 0#7 0#14
  | .pnot h d a => encR h 0x01#6 0x0A#6 (w7 d) (w7 a) 0#7 0#7 0#14
  | .ldi h d imm => encI h 0x08#6 0x00#6 (w7 d) 0#7 imm
  | .addi h d a imm => encI h 0x08#6 0x01#6 (w7 d) (w7 a) imm
  | .andi h d a imm => encI h 0x08#6 0x02#6 (w7 d) (w7 a) imm
  | .ori h d a imm => encI h 0x08#6 0x03#6 (w7 d) (w7 a) imm
  | .xori h d a imm => encI h 0x08#6 0x04#6 (w7 d) (w7 a) imm
  | .shli h d a n => encI h 0x08#6 0x05#6 (w7 d) (w7 a) (n.setWidth 64)
  | .shri h d a n => encI h 0x08#6 0x06#6 (w7 d) (w7 a) (n.setWidth 64)
  | .srai h d a n => encI h 0x08#6 0x07#6 (w7 d) (w7 a) (n.setWidth 64)
  | .cmpiEq h d a imm => encI h 0x08#6 0x08#6 (w7 d) (w7 a) imm
  | .cmpiNe h d a imm => encI h 0x08#6 0x09#6 (w7 d) (w7 a) imm
  | .cmpiLt h d a imm => encI h 0x08#6 0x0A#6 (w7 d) (w7 a) imm
  | .cmpiLe h d a imm => encI h 0x08#6 0x0B#6 (w7 d) (w7 a) imm
  | .cmpiLtu h d a imm => encI h 0x08#6 0x0C#6 (w7 d) (w7 a) imm
  | .cmpiLeu h d a imm => encI h 0x08#6 0x0D#6 (w7 d) (w7 a) imm
  | .br h imm => encJ h 0x10#6 0x00#6 0#7 imm
  | .jmp h imm => encJ h 0x10#6 0x01#6 0#7 imm
  | .call h a imm => encJ h 0x10#6 0x02#6 (w7 a) imm
  | .loop h a imm => encJ h 0x10#6 0x05#6 (w7 a) imm
  | .jr h a => encR h 0x10#6 0x03#6 0#7 (w7 a) 0#7 0#7 0#14
  | .ret h a => encR h 0x10#6 0x04#6 0#7 (w7 a) 0#7 0#7 0#14
  | .yield h => encR h 0x10#6 0x06#6 0#7 0#7 0#7 0#7 0#14
  | .halt h => encR h 0x10#6 0x07#6 0#7 0#7 0#7 0#7 0#14
  | .bkpt h code => encR h 0x10#6 0x08#6 0#7 0#7 0#7 0#7 code
  | .waitn h lq sq vq mq cq => encI h 0x10#6 0x09#6 0#7 0#7 ((cq ++ mq ++ vq ++ sq ++ lq : BitVec 28).setWidth 64)
  | .ldB h d mem => encR h 0x14#6 0x00#6 (w7 d) (w7 mem.a) (w7 mem.b) 0#7 (mem.mod 0#2)
  | .ldH h d mem => encR h 0x14#6 0x01#6 (w7 d) (w7 mem.a) (w7 mem.b) 0#7 (mem.mod 0#2)
  | .ldW h d mem => encR h 0x14#6 0x02#6 (w7 d) (w7 mem.a) (w7 mem.b) 0#7 (mem.mod 0#2)
  | .ldD h d mem => encR h 0x14#6 0x03#6 (w7 d) (w7 mem.a) (w7 mem.b) 0#7 (mem.mod 0#2)
  | .ldQ h d mem => encR h 0x14#6 0x04#6 (w7 d) (w7 mem.a) (w7 mem.b) 0#7 (mem.mod 0#2)
  | .ldsB h d mem => encR h 0x14#6 0x05#6 (w7 d) (w7 mem.a) (w7 mem.b) 0#7 (mem.mod 0#2)
  | .ldsH h d mem => encR h 0x14#6 0x06#6 (w7 d) (w7 mem.a) (w7 mem.b) 0#7 (mem.mod 0#2)
  | .ldsW h d mem => encR h 0x14#6 0x07#6 (w7 d) (w7 mem.a) (w7 mem.b) 0#7 (mem.mod 0#2)
  | .stB h c mem => encR h 0x14#6 0x08#6 0#7 (w7 mem.a) (w7 mem.b) (w7 c) (mem.mod 0#2)
  | .stH h c mem => encR h 0x14#6 0x09#6 0#7 (w7 mem.a) (w7 mem.b) (w7 c) (mem.mod 0#2)
  | .stW h c mem => encR h 0x14#6 0x0A#6 0#7 (w7 mem.a) (w7 mem.b) (w7 c) (mem.mod 0#2)
  | .stD h c mem => encR h 0x14#6 0x0B#6 0#7 (w7 mem.a) (w7 mem.b) (w7 c) (mem.mod 0#2)
  | .stQ h c mem => encR h 0x14#6 0x0C#6 0#7 (w7 mem.a) (w7 mem.b) (w7 c) (mem.mod 0#2)
  | .ldAcqB h d mem sc => encR h 0x14#6 0x10#6 (w7 d) (w7 mem.a) (w7 mem.b) 0#7 (mem.mod sc)
  | .ldAcqH h d mem sc => encR h 0x14#6 0x11#6 (w7 d) (w7 mem.a) (w7 mem.b) 0#7 (mem.mod sc)
  | .ldAcqW h d mem sc => encR h 0x14#6 0x12#6 (w7 d) (w7 mem.a) (w7 mem.b) 0#7 (mem.mod sc)
  | .ldAcqD h d mem sc => encR h 0x14#6 0x13#6 (w7 d) (w7 mem.a) (w7 mem.b) 0#7 (mem.mod sc)
  | .ldAcqQ h d mem sc => encR h 0x14#6 0x14#6 (w7 d) (w7 mem.a) (w7 mem.b) 0#7 (mem.mod sc)
  | .stRelB h c mem sc => encR h 0x14#6 0x18#6 0#7 (w7 mem.a) (w7 mem.b) (w7 c) (mem.mod sc)
  | .stRelH h c mem sc => encR h 0x14#6 0x19#6 0#7 (w7 mem.a) (w7 mem.b) (w7 c) (mem.mod sc)
  | .stRelW h c mem sc => encR h 0x14#6 0x1A#6 0#7 (w7 mem.a) (w7 mem.b) (w7 c) (mem.mod sc)
  | .stRelD h c mem sc => encR h 0x14#6 0x1B#6 0#7 (w7 mem.a) (w7 mem.b) (w7 c) (mem.mod sc)
  | .stRelQ h c mem sc => encR h 0x14#6 0x1C#6 0#7 (w7 mem.a) (w7 mem.b) (w7 c) (mem.mod sc)
  | .pfL1 h mem => encR h 0x14#6 0x20#6 0#7 (w7 mem.a) (w7 mem.b) 0#7 (mem.mod 0#2)
  | .pfMsc h mem => encR h 0x14#6 0x20#6 0#7 (w7 mem.a) (w7 mem.b) 0#7 (mem.mod 1#2)
  | .amoAddW h d mem c sc => encR h 0x18#6 0x00#6 (w7 d) (w7 mem.a) (w7 mem.b) (w7 c) (mem.mod sc)
  | .amoAddD h d mem c sc => encR h 0x18#6 0x01#6 (w7 d) (w7 mem.a) (w7 mem.b) (w7 c) (mem.mod sc)
  | .amoAndW h d mem c sc => encR h 0x18#6 0x02#6 (w7 d) (w7 mem.a) (w7 mem.b) (w7 c) (mem.mod sc)
  | .amoAndD h d mem c sc => encR h 0x18#6 0x03#6 (w7 d) (w7 mem.a) (w7 mem.b) (w7 c) (mem.mod sc)
  | .amoOrW h d mem c sc => encR h 0x18#6 0x04#6 (w7 d) (w7 mem.a) (w7 mem.b) (w7 c) (mem.mod sc)
  | .amoOrD h d mem c sc => encR h 0x18#6 0x05#6 (w7 d) (w7 mem.a) (w7 mem.b) (w7 c) (mem.mod sc)
  | .amoXorW h d mem c sc => encR h 0x18#6 0x06#6 (w7 d) (w7 mem.a) (w7 mem.b) (w7 c) (mem.mod sc)
  | .amoXorD h d mem c sc => encR h 0x18#6 0x07#6 (w7 d) (w7 mem.a) (w7 mem.b) (w7 c) (mem.mod sc)
  | .amoMinW h d mem c sc => encR h 0x18#6 0x08#6 (w7 d) (w7 mem.a) (w7 mem.b) (w7 c) (mem.mod sc)
  | .amoMinD h d mem c sc => encR h 0x18#6 0x09#6 (w7 d) (w7 mem.a) (w7 mem.b) (w7 c) (mem.mod sc)
  | .amoMaxW h d mem c sc => encR h 0x18#6 0x0A#6 (w7 d) (w7 mem.a) (w7 mem.b) (w7 c) (mem.mod sc)
  | .amoMaxD h d mem c sc => encR h 0x18#6 0x0B#6 (w7 d) (w7 mem.a) (w7 mem.b) (w7 c) (mem.mod sc)
  | .amoMinuW h d mem c sc => encR h 0x18#6 0x0C#6 (w7 d) (w7 mem.a) (w7 mem.b) (w7 c) (mem.mod sc)
  | .amoMinuD h d mem c sc => encR h 0x18#6 0x0D#6 (w7 d) (w7 mem.a) (w7 mem.b) (w7 c) (mem.mod sc)
  | .amoMaxuW h d mem c sc => encR h 0x18#6 0x0E#6 (w7 d) (w7 mem.a) (w7 mem.b) (w7 c) (mem.mod sc)
  | .amoMaxuD h d mem c sc => encR h 0x18#6 0x0F#6 (w7 d) (w7 mem.a) (w7 mem.b) (w7 c) (mem.mod sc)
  | .amoSwapW h d mem c sc => encR h 0x18#6 0x10#6 (w7 d) (w7 mem.a) (w7 mem.b) (w7 c) (mem.mod sc)
  | .amoSwapD h d mem c sc => encR h 0x18#6 0x11#6 (w7 d) (w7 mem.a) (w7 mem.b) (w7 c) (mem.mod sc)
  | .amoCasW h d mem c sc => encR h 0x18#6 0x12#6 (w7 d) (w7 mem.a) (w7 mem.b) (w7 c) (mem.mod sc)
  | .amoCasD h d mem c sc => encR h 0x18#6 0x13#6 (w7 d) (w7 mem.a) (w7 mem.b) (w7 c) (mem.mod sc)
  | .amoCasQ h d mem c sc => encR h 0x18#6 0x14#6 (w7 d) (w7 mem.a) (w7 mem.b) (w7 c) (mem.mod sc)
  | .amoFaddW h d mem c sc => encR h 0x18#6 0x16#6 (w7 d) (w7 mem.a) (w7 mem.b) (w7 c) (mem.mod sc)
  | .tokWait h t => encT h 0x1C#6 0x00#6 t 0#6 0#6 0#6 0#52
  | .tokClr h a b c => encT h 0x1C#6 0x01#6 Toks.zero a b c 0#52
  | .mark h t => encT h 0x1C#6 0x02#6 t 0#6 0#6 0#6 0#52
  | .fence h t sc => encT h 0x1C#6 0x03#6 t (sc.setWidth 6) 0#6 0#6 0#52
  | .acq h t sc => encT h 0x1C#6 0x04#6 t (sc.setWidth 6) 0#6 0#6 0#52
  | .rel h t sc => encT h 0x1C#6 0x05#6 t (sc.setWidth 6) 0#6 0#6 0#52
  | .acqP h t a => encT h 0x1C#6 0x06#6 t a 2#6 0#6 0#52
  | .gateInit h t g n => encT h 0x1C#6 0x08#6 t g n 0#6 0#52
  | .gateArr h t g n => encT h 0x1C#6 0x09#6 t g n 0#6 0#52
  | .gateWait h t g p lim => encT h 0x1C#6 0x0A#6 t g p 0#6 (lim.setWidth 52)
  | .rpush h t r v lim => encT h 0x1C#6 0x0C#6 t r v 0#6 (lim.setWidth 52)
  | .rpop h t d r lim => encT h 0x1C#6 0x0D#6 t d r 0#6 (lim.setWidth 52)
  | .vadd h t o d a b => encT h 0x20#6 0x00#6 t (d.setWidth 6) (a.setWidth 6) (b.setWidth 6) (vx o 0#2 0#6 0#16 0#8 0#6)
  | .vsub h t o d a b => encT h 0x20#6 0x01#6 t (d.setWidth 6) (a.setWidth 6) (b.setWidth 6) (vx o 0#2 0#6 0#16 0#8 0#6)
  | .vmul h t o d a b => encT h 0x20#6 0x02#6 t (d.setWidth 6) (a.setWidth 6) (b.setWidth 6) (vx o 0#2 0#6 0#16 0#8 0#6)
  | .vmad h t o d a b => encT h 0x20#6 0x03#6 t (d.setWidth 6) (a.setWidth 6) (b.setWidth 6) (vx o 0#2 0#6 0#16 0#8 0#6)
  | .vmin h t o d a b => encT h 0x20#6 0x04#6 t (d.setWidth 6) (a.setWidth 6) (b.setWidth 6) (vx o 0#2 0#6 0#16 0#8 0#6)
  | .vmax h t o d a b => encT h 0x20#6 0x05#6 t (d.setWidth 6) (a.setWidth 6) (b.setWidth 6) (vx o 0#2 0#6 0#16 0#8 0#6)
  | .vabs h t o d a => encT h 0x20#6 0x06#6 t (d.setWidth 6) (a.setWidth 6) 0#6 (vx o 0#2 0#6 0#16 0#8 0#6)
  | .vneg h t o d a => encT h 0x20#6 0x07#6 t (d.setWidth 6) (a.setWidth 6) 0#6 (vx o 0#2 0#6 0#16 0#8 0#6)
  | .vrelu h t o d a => encT h 0x20#6 0x08#6 t (d.setWidth 6) (a.setWidth 6) 0#6 (vx o 0#2 0#6 0#16 0#8 0#6)
  | .vexp2 h t o d a => encT h 0x20#6 0x09#6 t (d.setWidth 6) (a.setWidth 6) 0#6 (vx o 0#2 0#6 0#16 0#8 0#6)
  | .vlog2 h t o d a => encT h 0x20#6 0x0A#6 t (d.setWidth 6) (a.setWidth 6) 0#6 (vx o 0#2 0#6 0#16 0#8 0#6)
  | .vrcp h t o d a => encT h 0x20#6 0x0B#6 t (d.setWidth 6) (a.setWidth 6) 0#6 (vx o 0#2 0#6 0#16 0#8 0#6)
  | .vrsq h t o d a => encT h 0x20#6 0x0C#6 t (d.setWidth 6) (a.setWidth 6) 0#6 (vx o 0#2 0#6 0#16 0#8 0#6)
  | .vtanh h t o d a => encT h 0x20#6 0x0D#6 t (d.setWidth 6) (a.setWidth 6) 0#6 (vx o 0#2 0#6 0#16 0#8 0#6)
  | .vand h t o d a b => encT h 0x21#6 0x00#6 t (d.setWidth 6) (a.setWidth 6) (b.setWidth 6) (vx o 0#2 0#6 0#16 0#8 0#6)
  | .vor h t o d a b => encT h 0x21#6 0x01#6 t (d.setWidth 6) (a.setWidth 6) (b.setWidth 6) (vx o 0#2 0#6 0#16 0#8 0#6)
  | .vxor h t o d a b => encT h 0x21#6 0x02#6 t (d.setWidth 6) (a.setWidth 6) (b.setWidth 6) (vx o 0#2 0#6 0#16 0#8 0#6)
  | .vnot h t o d a => encT h 0x21#6 0x03#6 t (d.setWidth 6) (a.setWidth 6) 0#6 (vx o 0#2 0#6 0#16 0#8 0#6)
  | .vshl h t o d a n => encT h 0x21#6 0x04#6 t (d.setWidth 6) (a.setWidth 6) n.o3 (vx o 0#2 0#6 n.xi (n.flag 1#8) 0#6)
  | .vshr h t o d a n => encT h 0x21#6 0x05#6 t (d.setWidth 6) (a.setWidth 6) n.o3 (vx o 0#2 0#6 n.xi (n.flag 1#8) 0#6)
  | .vsra h t o d a n => encT h 0x21#6 0x06#6 t (d.setWidth 6) (a.setWidth 6) n.o3 (vx o 0#2 0#6 n.xi (n.flag 1#8) 0#6)
  | .vcmp h t o cc d a b => encT h 0x22#6 0x00#6 t (d.setWidth 6) (a.setWidth 6) (b.setWidth 6) (vx o 0#2 0#6 0#16 (cc.code.setWidth 8) 0#6)
  | .vsel h t o d a b c => encT h 0x22#6 0x01#6 t (d.setWidth 6) (a.setWidth 6) (b.setWidth 6) (vx o 0#2 0#6 0#16 0#8 (c.setWidth 6))
  | .mand h t d a b => encT h 0x22#6 0x02#6 t (d.setWidth 6) (a.setWidth 6) (b.setWidth 6) 0#52
  | .mor h t d a b => encT h 0x22#6 0x03#6 t (d.setWidth 6) (a.setWidth 6) (b.setWidth 6) 0#52
  | .mnot h t d a => encT h 0x22#6 0x04#6 t (d.setWidth 6) (a.setWidth 6) 0#6 0#52
  | .mpopc h t o d a => encT h 0x22#6 0x05#6 t (d.setWidth 6) (a.setWidth 6) 0#6 (vx o 0#2 0#6 0#16 0#8 0#6)
  | .vadds h t o d a b => encT h 0x23#6 0x00#6 t (d.setWidth 6) (a.setWidth 6) (b.setWidth 6) (vx o 0#2 0#6 0#16 0#8 0#6)
  | .vsubs h t o d a b => encT h 0x23#6 0x01#6 t (d.setWidth 6) (a.setWidth 6) (b.setWidth 6) (vx o 0#2 0#6 0#16 0#8 0#6)
  | .vmulh h t o d a b => encT h 0x23#6 0x02#6 t (d.setWidth 6) (a.setWidth 6) (b.setWidth 6) (vx o 0#2 0#6 0#16 0#8 0#6)
  | .vavg h t o d a b => encT h 0x23#6 0x03#6 t (d.setWidth 6) (a.setWidth 6) (b.setWidth 6) (vx o 0#2 0#6 0#16 0#8 0#6)
  | .vsad h t o d a b => encT h 0x23#6 0x04#6 t (d.setWidth 6) (a.setWidth 6) (b.setWidth 6) (vx o 0#2 0#6 0#16 0#8 0#6)
  | .vpack h t o df rnd d a b => encT h 0x24#6 0x00#6 t (d.setWidth 6) (a.setWidth 6) (b.setWidth 6) (vx o rnd.rm.code rnd.seed 0#16 df 0#6)
  | .vunpk h t o sf half rnd d a => encT h 0x24#6 0x01#6 t (d.setWidth 6) (a.setWidth 6) 0#6 (vx o rnd.rm.code rnd.seed (if half then 1#16 else 0#16) sf 0#6)
  | .pixUnpk h t o pf off d a => encT h 0x24#6 0x02#6 t (d.setWidth 6) (a.setWidth 6) 0#6 (vx o 0#2 0#6 (off.setWidth 16) pf 0#6)
  | .pixPack h t o pf d a => encT h 0x24#6 0x03#6 t (d.setWidth 6) (a.setWidth 6) 0#6 (vx o 0#2 0#6 0#16 pf 0#6)
  | .vbfx h t o sx d a b => encT h 0x25#6 0x00#6 t (d.setWidth 6) (a.setWidth 6) (b.setWidth 6) (vx o 0#2 0#6 0#16 (if sx then 1#8 else 0#8) 0#6)
  | .vbfi h t o d a b => encT h 0x25#6 0x01#6 t (d.setWidth 6) (a.setWidth 6) (b.setWidth 6) (vx o 0#2 0#6 0#16 0#8 0#6)
  | .vfshR h t o d a b n => encT h 0x25#6 0x02#6 t (d.setWidth 6) (a.setWidth 6) (b.setWidth 6) (vx o 0#2 0#6 n.xi (n.flag 2#8 ||| 0#8) n.o3)
  | .vfshL h t o d a b n => encT h 0x25#6 0x02#6 t (d.setWidth 6) (a.setWidth 6) (b.setWidth 6) (vx o 0#2 0#6 n.xi (n.flag 2#8 ||| 1#8) n.o3)
  | .vclz h t o d a => encT h 0x25#6 0x03#6 t (d.setWidth 6) (a.setWidth 6) 0#6 (vx o 0#2 0#6 0#16 0#8 0#6)
  | .vpopc h t o d a => encT h 0x25#6 0x04#6 t (d.setWidth 6) (a.setWidth 6) 0#6 (vx o 0#2 0#6 0#16 0#8 0#6)
  | .vlut h t o d a b => encT h 0x26#6 0x00#6 t (d.setWidth 6) (a.setWidth 6) b (vx o 0#2 0#6 0#16 0#8 0#6)
  | .vcvt h t o df sf rnd d a => encT h 0x27#6 0x00#6 t (d.setWidth 6) (a.setWidth 6) 0#6 (vx o rnd.rm.code rnd.seed (sf.setWidth 16) df 0#6)
  | .vred h t o op d a => encT h 0x28#6 0x00#6 t (d.setWidth 6) (a.setWidth 6) 0#6 (vx o 0#2 0#6 0#16 (op.code.setWidth 8) 0#6)
  | .vscan h t o op d a => encT h 0x28#6 0x01#6 t (d.setWidth 6) (a.setWidth 6) 0#6 (vx o 0#2 0#6 0#16 (op.code.setWidth 8) 0#6)
  | .vperm h t o d a b => encT h 0x29#6 0x00#6 t (d.setWidth 6) (a.setWidth 6) (b.setWidth 6) (vx o 0#2 0#6 0#16 0#8 0#6)
  | .vshuf h t o pat k d a b => encT h 0x29#6 0x01#6 t (d.setWidth 6) (a.setWidth 6) (b.setWidth 6) (vx o 0#2 0#6 k (pat.setWidth 8) 0#6)
  | .vbcast h t o d a => encT h 0x29#6 0x02#6 t (d.setWidth 6) a 0#6 (vx o 0#2 0#6 0#16 0#8 0#6)
  | .vbcastE h t o d a k => encT h 0x29#6 0x02#6 t (d.setWidth 6) (a.setWidth 6) 0#6 (vx o 0#2 0#6 k 1#8 0#6)
  | .vidx h t o d a => encT h 0x29#6 0x03#6 t (d.setWidth 6) a 0#6 (vx o 0#2 0#6 0#16 0#8 0#6)
  | .vmov h t o d a => encT h 0x29#6 0x04#6 t (d.setWidth 6) (a.setWidth 6) 0#6 (vx o 0#2 0#6 0#16 0#8 0#6)
  | .trd h t o d a b k => encT h 0x2A#6 0x00#6 t (d.setWidth 6) (a.setWidth 6) b (vx o 0#2 0#6 (k.setWidth 16) 0#8 0#6)
  | .twr h t o d a b k => encT h 0x2A#6 0x01#6 t (d.setWidth 6) (a.setWidth 6) b (vx o 0#2 0#6 (k.setWidth 16) 0#8 0#6)
  | .vld h t o d a b disp => encT h 0x2C#6 0x00#6 t (d.setWidth 6) a b (vx o 0#2 0#6 disp 0#8 0#6)
  | .vlds h t o d a b disp => encT h 0x2C#6 0x01#6 t (d.setWidth 6) a b (vx o 0#2 0#6 disp 0#8 0#6)
  | .vgath h t o d a b disp => encT h 0x2C#6 0x02#6 t (d.setWidth 6) a (b.setWidth 6) (vx o 0#2 0#6 disp 0#8 0#6)
  | .vst h t o d a b disp => encT h 0x2C#6 0x03#6 t (d.setWidth 6) a b (vx o 0#2 0#6 disp 0#8 0#6)
  | .vsts h t o d a b disp => encT h 0x2C#6 0x04#6 t (d.setWidth 6) a b (vx o 0#2 0#6 disp 0#8 0#6)
  | .vscat h t o d a b disp => encT h 0x2C#6 0x05#6 t (d.setWidth 6) a (b.setWidth 6) (vx o 0#2 0#6 disp 0#8 0#6)
  | .vstSrPtr h t o df seed c a b disp => encT h 0x2C#6 0x06#6 t (c.setWidth 6) a b (vx o 0#2 seed disp df 0#6)
  | .vstSrHdl h t o seed c a b => encT h 0x2C#6 0x06#6 t (c.setWidth 6) a b (vx o 0#2 seed 0#16 0x80#8 0#6)
  | .vstAcc h t o df c a b disp => encT h 0x2C#6 0x07#6 t (c.setWidth 6) a b (vx o 0#2 0#6 disp df 0#6)
  | .nestClr h t sl => encT h 0x30#6 0x00#6 t (sl.setWidth 6) 0#6 0#6 0#52
  | .nestLvl h t sl lvl extm1 sa sb => encT h 0x30#6 0x01#6 t (sl.setWidth 6) (lvl.setWidth 6) 0#6 (sb ++ sa ++ extm1)
  | .nestOpt h t sl seed n => encT h 0x30#6 0x02#6 t (sl.setWidth 6) seed 0#6 n.bits
  | .nestAcc h t sl d rorg corg => encT h 0x30#6 0x03#6 t (sl.setWidth 6) (d.setWidth 6) 0#6 (0#39 ++ corg ++ rorg)
  | .mmRun h t sl a b => encT h 0x30#6 0x04#6 t (sl.setWidth 6) a b 0#52
  | .mmBatch h t sl a b => encT h 0x30#6 0x05#6 t (sl.setWidth 6) a b 0#52
  | .accInit h t d b => encT h 0x30#6 0x06#6 t (d.setWidth 6) b 0#6 0#52
  | .accFlush h t d => encT h 0x30#6 0x07#6 t (d.setWidth 6) 0#6 0#6 0#52
  | .accRd h t d a rnd roff coff => encT h 0x30#6 0x08#6 t d (a.setWidth 6) 0#6 (0#31 ++ coff ++ roff ++ rnd.seed ++ rnd.rm.code)
  | .accWr h t d a roff coff => encT h 0x30#6 0x09#6 t (d.setWidth 6) a 0#6 (0#30 ++ 0#1 ++ coff ++ roff ++ 0#8)
  | .accWrAdd h t d a roff coff => encT h 0x30#6 0x09#6 t (d.setWidth 6) a 0#6 (0#30 ++ 1#1 ++ coff ++ roff ++ 0#8)
  | .planePack h t d a rnd => encT h 0x30#6 0x0A#6 t d a 0#6 (0#44 ++ rnd.seed ++ rnd.rm.code)
  | .planeUnpk h t d a rnd => encT h 0x30#6 0x0B#6 t d a 0#6 (0#44 ++ rnd.seed ++ rnd.rm.code)
  | .hdlSet h t d a => encT h 0x34#6 0x00#6 t d a 0#6 0#52
  | .hdlInv h t d => encT h 0x34#6 0x01#6 t d 0#6 0#6 0#52
  | .cp h t d a rnd dscale gen xr => encT h 0x34#6 0x02#6 t d a 0#6 (cpx rnd dscale gen xr 0 0 0)
  | .cpAcc h t d a gen xr => encT h 0x34#6 0x03#6 t d a 0#6 (cpx Rnd.rne 0 gen xr 0 0 0)
  | .cpDec h t d a gen xr => encT h 0x34#6 0x04#6 t d a 0#6 (cpx Rnd.rne 0 gen xr 0 0 0)
  | .cpCmp h t d a rnd op gen xr => encT h 0x34#6 0x05#6 t d a 0#6 (cpx rnd 0 gen xr op 0 0)
  | .cpPf h t a => encT h 0x34#6 0x06#6 t 0#6 a 0#6 0#52
  | .glean h t d a rnd op => encT h 0x34#6 0x07#6 t d a 0#6 (cpx rnd 0 false 0 op 0 0)
  | .blkBegin h a b p => encT h 0x38#6 0x00#6 Toks.zero a b 0#6 p.bits
  | .blkEnd h => encT h 0x38#6 0x01#6 Toks.zero 0#6 0#6 0#6 0#52
  | .revb h => encT h 0x38#6 0x02#6 Toks.zero 0#6 0#6 0#6 0#52
  | .gradZeroV h t msk => encT h 0x38#6 0x03#6 t 0#6 0#6 0#6 (msk.setWidth 52)
  | .gradZeroAcc h t msk => encT h 0x38#6 0x03#6 t 1#6 0#6 0#6 (msk.setWidth 52)
  | .gradZeroH h t d => encT h 0x38#6 0x03#6 t 2#6 d 0#6 0#52
  | .rsBind h t a => encT h 0x39#6 0x00#6 t a 0#6 0#6 0#52
  | .rsPush h t a => encT h 0x39#6 0x01#6 t 0#6 a 0#6 0#52
  | .rsPop h t d => encT h 0x39#6 0x02#6 t d 0#6 0#6 0#52
  | .rsMark h d => encT h 0x39#6 0x03#6 Toks.zero d 0#6 0#6 0#52
  | .rsDrop h a => encT h 0x39#6 0x04#6 Toks.zero 0#6 a 0#6 0#52
  | .rsSpill h t => encT h 0x39#6 0x05#6 t 0#6 0#6 0#6 0#52
  | .launch h t a => encT h 0x3A#6 0x00#6 t a 0#6 0#6 0#52
  | .ptDone h t => encT h 0x3A#6 0x01#6 t 0#6 0#6 0#6 0#52
  | .ptSelf h t d => encT h 0x3A#6 0x02#6 t d 0#6 0#6 0#52
  | .tlRead h t a b => encT h 0x3A#6 0x03#6 t a b 0#6 0#52
  | .chSend h t ch a => encT h 0x3B#6 0x00#6 t (ch.setWidth 6) a 0#6 0#52
  | .chRecv h t d ch lim => encT h 0x3B#6 0x01#6 t d (ch.setWidth 6) 0#6 (cpx Rnd.rne 0 false 0 0 0 lim)
  | .chPut h t ch a r gen xr => encT h 0x3B#6 0x02#6 t (ch.setWidth 6) a r (cpx Rnd.rne 0 gen xr 0 0 0)
  | .chMcast h t ch a r gen xr => encT h 0x3B#6 0x05#6 t (ch.setWidth 6) a r (cpx Rnd.rne 0 gen xr 0 0 0)
  | .chGet h t d ch r gen xr => encT h 0x3B#6 0x03#6 t d (ch.setWidth 6) r (cpx Rnd.rne 0 gen xr 0 0 0)
  | .sioRead h t d ch r gen xr => encT h 0x3B#6 0x07#6 t d (ch.setWidth 6) r (cpx Rnd.rne 0 gen xr 0 0 0)
  | .chAmo h t d ch p v op sz => encT h 0x3B#6 0x04#6 t d (ch.setWidth 6) p (cpx Rnd.rne 0 false v op sz 0)
  | .chQry h t d ch => encT h 0x3B#6 0x06#6 t d (ch.setWidth 6) 0#6 0#52
  | .trap h code => encI h 0x3C#6 0x00#6 0#7 0#7 (code.setWidth 64)
  | .tret h a => encR h 0x3C#6 0x01#6 0#7 (w7 a) 0#7 0#7 0#14
  | .ctlRd h d ctl => encI h 0x3C#6 0x02#6 (w7 d) ctl.num 0#64
  | .ctlWr h ctl a => encI h 0x3C#6 0x03#6 ctl.num (w7 a) 0#64
  | .ctlWrImm h ctl imm => encI h 0x3C#6 0x04#6 ctl.num 0#7 imm
  | .cutSave h t a b => encT h 0x3C#6 0x05#6 t a b 0#6 0#52
  | .cutLoad h t a b => encT h 0x3C#6 0x06#6 t a b 0#6 0#52
  | .park h t a => encT h 0x3C#6 0x07#6 t a 0#6 0#6 0#52
  | .wake h t a => encT h 0x3C#6 0x08#6 t a 0#6 0#6 0#52
  | .idle h => encR h 0x3C#6 0x09#6 0#7 0#7 0#7 0#7 0#14
  | .probe h t d a pw => encT h 0x3D#6 0x00#6 t d a 0#6 (0#50 ++ 0#1 ++ BitVec.ofBool pw)
  | .probeRes h t d a pw => encT h 0x3D#6 0x00#6 t d a 0#6 (0#50 ++ 1#1 ++ BitVec.ofBool pw)
  | .mmuInv h t i b l allas allva => encT h 0x3D#6 0x01#6 t i b l (0#50 ++ BitVec.ofBool allva ++ BitVec.ofBool allas)
  | .mmuSync h t => encT h 0x3D#6 0x02#6 t 0#6 0#6 0#6 0#52
  | .mmuWalk h t d i v => encT h 0x3D#6 0x03#6 t d i v 0#52
  | .keyLoad h t k a => encT h 0x3D#6 0x04#6 t k a 0#6 0#52
  | .keyKill h t k => encT h 0x3D#6 0x05#6 t k 0#6 0#6 0#52
  | .entryStart .. => .mk none 0
  | .entryComplete .. => .mk none 0
  | .l1WriteBack .. => .mk none 0
  | .l1Drop .. => .mk none 0
  | .promotionRequest .. => .mk none 0
  | .promotionEnd .. => .mk none 0
  | .gateArrival .. => .mk none 0
  | .ringSlotRead .. => .mk none 0
  | .deferredAccept .. => .mk none 0
  | .pointFire .. => .mk none 0
  | .outOfTurnService .. => .mk none 0
  | .pointStart .. => .mk none 0
  | .ptDoneRetire .. => .mk none 0
  | .trapTaken .. => .mk none 0
  | .cutComplete .. => .mk none 0
  | .waitTimeout .. => .mk none 0
  | .drainTimeout .. => .mk none 0
  | .revbWalk .. => .mk none 0
  | .spillEngineMove .. => .mk none 0
  | .fltack .. => .mk none 0
  | .pagePullRequest .. => .mk none 0
  | .pullDataArrival .. => .mk none 0
  | .forwardedAtomic .. => .mk none 0
  | .redirect .. => .mk none 0
  | .remoteAdmit .. => .mk none 0
  | .mcastAggAck .. => .mk none 0
  | .linkFlitRefused .. => .mk none 0
  | .linkRetrain .. => .mk none 0
  | .windowRevoke .. => .mk none 0
  | .windowRetire .. => .mk none 0
  | .windowCmdEnd .. => .mk none 0
  | .pcmdSuspend .. => .mk none 0
  | .suspendDrainEnd .. => .mk none 0
  | .pcmdResume .. => .mk none 0
  | .pcmdDhalt .. => .mk none 0
  | .pcmdDrun .. => .mk none 0
  | .pcmdKill .. => .mk none 0
  | .roleCommand .. => .mk none 0
  | .migArm .. => .mk none 0
  | .migFreeze .. => .mk none 0
  | .freezeComplete .. => .mk none 0
  | .migSend .. => .mk none 0
  | .migResume .. => .mk none 0
  | .migDrain .. => .mk none 0
  | .drainComplete .. => .mk none 0
  | .migRelease .. => .mk none 0
  | .migAbort .. => .mk none 0
  | .doorbellTail .. => .mk none 0
  | .rovfClear .. => .mk none 0
  | .nvmeCompletion .. => .mk none 0
  | .sioCommandTimeout .. => .mk none 0
  | .selfRefreshEnter .. => .mk none 0
  | .selfRefreshExit .. => .mk none 0
  | .powerStepDown => .mk none 0
  | .powerStepUp => .mk none 0
  | .parkRegate .. => .mk none 0
  | .coldStart => .mk none 0
  | .bootStage .. => .mk none 0
  | .startStall => .mk none 0
  | .phyReadTest .. => .mk none 0
  | .phyWriteReadTest .. => .mk none 0
  | .phyTestComplete .. => .mk none 0
  | .phyRdall .. => .mk none 0
  | .phyWrall .. => .mk none 0
  | .mdptrWrite .. => .mk none 0
  | .mdvalWrite .. => .mk none 0
  | .pfdropRead .. => .mk none 0
  | .rdcntRead .. => .mk none 0
  | .qerrRead .. => .mk none 0
  | .registerWrite .. => .mk none 0
  | .provision .. => .mk none 0
  | .release .. => .mk none 0
  | .preset .. => .mk none 0
  | .wreset => .mk none 0
  | .telem => .mk none 0
  | .clrcnt => .mk none 0
  | .fullreq => .mk none 0
  | .tagfr .. => .mk none 0
  | .retire .. => .mk none 0
  | .hamletFence .. => .mk none 0
  | .unfence .. => .mk none 0
  | .plimit .. => .mk none 0
  | .attest .. => .mk none 0
  | .trnWrite .. => .mk none 0
  | .clockStepChange .. => .mk none 0
  | .powerLoss => .mk none 0
  | .routeReturns .. => .mk none 0
  | .imageSent .. => .mk none 0
  | .hostMailboxWrite => .mk none 0

end Sys2Proof
end

