-- ==== Sys2Proof/Machine/Fetch.lean ====
section
/-! DEFINITION. Fetching and decoding a unit (R160 to R164). -/

namespace Sys2Proof.Machine

/-- R163: the word at a pointer, as the instruction cache sees it. -/
def fetchWord (c : Nat) (pc : Word) : M Word := do
  let off := ptrOffset pc
  let l ← (if isGlobal pc then checkSpan c .scalar .rd pc off (off + 7) else trap .rights pc : M Loc)
  if off % 8 ≠ 0 then trap .align pc
  else match l with
    | .glob b =>
      let pl ← translate c b (bufBase b + off) .rd pc
      awaitAt c pl
      let s ← get
      let k := s.core c
      match ({ s with mem := k.ctx.imem, lines := k.ctx.ilines } : State).homeBytes pl.pa 8 pl.key pl.compr with
      | .ok bs => pure (BitVec.ofNat 64 (leNat bs))
      | .error e => lineErr e pl.pa pc off
    | _ => trap .rights pc

/-- R160, R164: the words of the unit at `pc`; `.error` when an `EXT` is malformed, before a second word is fetched. -/
def fetchRaw (c : Nat) (pc : Word) : M (Except DecErr Raw) := do
  let w ← fetchWord c pc
  if w.extractLsb' 52 6 == 0x3F && w.extractLsb' 58 6 == 0 then
    let w2 ← fetchWord c (advance pc 8)
    pure (unitOf w (some w2))
  else pure (unitOf w none)

/-- R164: the unit at `pc` decoded in the core's mode. -/
noncomputable def fetchUnit (c : Nat) (pc : Word) : M (Except DecErr Instr) := do
  match ← fetchRaw c pc with
  | .error e => pure (.error e)
  | .ok f => pure (decodeRaw ((← get).privileged c) (isBailiff c) f)

/-- The cause of a decode trap (R164). -/
def decCause : DecErr → Cause
  | .illop | .short => .illop
  | .badreg => .badreg

end Sys2Proof.Machine
end

