-- ==== Sys2Proof/Machine/Blocks.lean ====
section
/-! DEFINITION. Differentiable blocks and residual stacks: `BLK.BEGIN`, `BLK.END`, `REVB` (R272 to R281, R291, R300), `GRAD.ZERO` (R299) and the
`RS` words (R286 to R290). -/

namespace Sys2Proof.Machine

-- ### Units as words, which the walk steps over (R162)

/-- The start of the unit before the one that starts at `pc` (R162). -/
def prevUnit (c : Nat) (pc : Word) : M Word := do
  let w ← fetchWord c (ptrAt pc (ptrOffset pc - 16))
  pure (if w.extractLsb' 52 6 == 0x3F then ptrAt pc (ptrOffset pc - 16) else ptrAt pc (ptrOffset pc - 8))

/-- A well-formed `BLK.BEGIN` (R279). -/
def Raw.isBlkBegin (f : Raw) : Bool :=
  f.maj == 0x38 && f.fn == 0 && f.ver != 3 && !(f.pred == 0 && f.pn) && f.toks == Toks.zero && f.o3 == 0 && f.x.extractLsb' 0 10 != 0
/-- A well-formed `BLK.END` (R279). -/
def Raw.isBlkEnd (f : Raw) : Bool :=
  f.maj == 0x38 && f.fn == 1 && f.ver != 3 && !(f.pred == 0 && f.pn) && f.toks == Toks.zero && f.o1 == 0 && f.o2 == 0 && f.o3 == 0 && f.x == 0

/-- The unit at a pointer meets a condition. -/
def unitIs (c : Nat) (pc : Word) (p : Raw → Bool) : M Bool := do
  match ← fetchRaw c pc with
  | .ok f => pure (p f)
  | .error _ => pure false

-- ### Common stalls and changes of the stack

/-- R286: an `RS.BIND` issued earlier has not completed. -/
def CoreSt.binding (k : CoreSt) : Bool := k.q.es.any (fun e => match e.op with | .rsBind .. => !e.null | _ => false)
/-- R284: an earlier `RS.POP` or adjoint has yet to read frame bytes. -/
def CoreSt.reading (k : CoreSt) : Bool := (k.q.es ++ k.q.heldEs).any (fun e => e.adj || (match e.op with | .rsPop .. => !e.null | _ => false))

/-- The bound stack; FRAME when none is; the reeve stalls while a binding is undecided (R286). -/
def theStack (c : Nat) : M Stack := do
  let k ← getCore c
  if k.binding then throw .wait
  else match k.res.stack with
    | some st => pure st
    | none => trap .frame 0

def setStack (c : Nat) (st : Stack) : M Unit := modCore c (fun k => { k with res := { k.res with stack := some st } })

/-- R280, R285: reserves `need` bytes at the top, RSOVF when that cannot be done. No reservation is made while frame bytes are still to be read
(R284), nor one that would move a frame with items still to come (log entry 24). -/
def reserveTop (c : Nat) (st : Stack) (need : Nat) : M Stack := do
  let s ← get
  let k := s.core c
  if k.reading then throw .wait
  else
    let m := st.reserve k.openedBlk (s.tierRoom k.ctx.part st) need (st.nfr + 1) (fillLow (k.q.es ++ k.q.heldEs))
    if m.blocked then throw .wait
    else
      applyMoved c true st m
      if m.ok then pure m.st else trap .rsovf 0

def align64 (n : Nat) : Nat := 64 * ((n + 63) / 64)

/-- The word after a unit in the core's file. -/
def stepOver (c : Nat) (h : Hdr) : M Unit := modCore c (fun k => k.next h)

/-- A unit that the reeve executes on the state as a whole: predicated off it falls through; it traps at issue, or it stalls. -/
def reeveUnit (h : Hdr) (regs : List SReg) (m : Nat → M Unit) (s : State) : Out :=
  let c := s.active
  let k := s.core c
  if !k.taken h then .next (s.setCore c (k.next h))
  else if k.anyPend regs then .next s
  else match m c s with
    | (.ok (), s') => .next s'
    | (.error (.trap cause fptr), s') => .next (trapAtIssue c cause 0 fptr s')
    | (.error _, s') => .next (s.heldBack s')

/-- R272: FRAME while a block is open, whatever the predicate. -/
def outsideBlock (s : State) (x : Out) : Out :=
  if (s.core s.active).blockOpen then .next (trapAtIssue s.active .frame 0 0 s) else x

-- ### BLK.BEGIN and BLK.END (R280, R281)

/-- `KEEP` of a block (R277). -/
def keepOf (nseed : Nat) (scal : Bool) : Nat := 64 + align64 (4 * nseed) + (if scal then 128 else 0)

/-- s16 to s31 in register order (R277). -/
def scalarSection (k : CoreSt) : List Byte := ((upTo 16).map (fun i => natBytes 8 (k.rd (BitVec.ofNat 6 (16 + i))).toNat)).flatten

/-- R280: the block opens. -/
def openBlock (a b : SReg) (p : BlkParm) (c : Nat) : M Unit := do
  let st0 ← theStack c
  let k ← getCore c
  if fld (k.rd a) 0 16 ≠ st0.id then trap .frame 0
  else
    let size := 64 * p.fsz.toNat
    let st ← reserveTop c st0 size
    let scal := p.dem || p.rcp
    let keep := keepOf p.nseed.toNat scal
    let hd := mkHdr k.f.pc 0 (k.rd b) p.fsz.toNat p.nseed.toNat p.dem p.rcp false false p.hsave 0 keep st.topf
    let st1 := ({ st with bytes := SMap.clear st.bytes st.depth keep }).setHdr st.depth hd
    let st2 := if scal then { st1 with bytes := putStackBytes st1.bytes (st.depth + keep - 128) (scalarSection k) } else st1
    setStack c st2
    modCore c (fun k => k.setBlk ⟨true, 0, k.f.pc, 0, 0⟩)

/-- `BLK.BEGIN`. When it is executed again after a cut, the block's seeds and items are in its frame already (R278, R281). -/
def runBlkBegin (h : Hdr) (a b : SReg) (p : BlkParm) (c : Nat) : M Unit := do
  stackUnit c (openBlock a b p c)
  modCore c (fun k => { k.next h with res := { k.res with outer := false } })

def execBlkBegin (h : Hdr) (a b : SReg) (p : BlkParm) (s : State) : Out := outsideBlock s (reeveUnit h [a, b] (runBlkBegin h a b p) s)

/-- The header that closes a block: `EPC`, `PBYTES`, `DMTD` (R281). -/
def closeHdr (h : BitVec 512) (epc : Word) (pbytes : Nat) : BitVec 512 :=
  mkHdr (frBpc h) epc (frGdisp h) (frFsz h) (frNseed h) (frDem h) (frRcp h) (frRcp h) false (frHsave h) pbytes (frKeep h) (frPrev h)

/-- R281: the open frame becomes the top frame, its payload filled up with zeros. -/
def Stack.close (st : Stack) (epc : Word) (pbytes : Nat) : Stack :=
  let h := closeHdr (st.hdr st.depth) epc pbytes
  let used := frKeep h + pbytes
  let st1 := { st with bytes := SMap.clear st.bytes (st.depth + used) (frSize h - used) }.setHdr st.depth h
  { st1 with topf := st.depth, depth := st.depth + frSize h, nfr := st.nfr + 1 }

/-- R300 step 5: the replayed frame has its payload again. -/
def Stack.revive (st : Stack) : Stack :=
  let h := st.hdr st.topf
  let h' := mkHdr (frBpc h) (frEpc h) (frGdisp h) (frFsz h) (frNseed h) (frDem h) (frRcp h) false false (frHsave h) (frPbytes h) (frKeep h) (frPrev h)
  let st1 := st.setHdr st.topf h'
  { st1 with depth := st.topf + frSize h' }

/-- The block state at the start of the walk proper (R291): the unit walked, the cursor. -/
def walkBlk (pc : Word) (cur : Nat) : Blk := ⟨false, 1, pc, cur, 0⟩

def runBlkEnd (h : Hdr) (c : Nat) : M Unit := do
  let k ← getCore c
  if !k.blockOpen then trap .frame 0
  else match k.res.stack with
    | none => trap .frame 0
    | some st =>
      if k.f.blk.dir = 2 then
        -- R300: every item is written, then the frame is walked
        if !k.q.es.isEmpty then throw .wait
        else if k.f.blk.cur ≠ frPbytes (st.hdr st.topf) then trap .frame 0
        else
          let pc ← prevUnit c k.f.pc
          setStack c st.revive
          modCore c (fun k => { (k.setBlk (walkBlk pc k.f.blk.cur)).setPc pc with res := { k.res with outer := false } })
      else
        stackUnit c (do
          setStack c (st.close k.f.pc k.f.blk.cur)
          modCore c (fun k => k.setBlk Blk.zero))
        modCore c (fun k => { k.next h with res := { k.res with outer := false } })

def execBlkEnd (h : Hdr) (s : State) : Out := reeveUnit h [] (runBlkEnd h) s

-- ### REVB (R291, R300)

/-- R300 step 2. -/
def CoreSt.loadScalars (k : CoreSt) (st : Stack) (d : Nat) : CoreSt :=
  (upTo 16).foldl (fun k i => k.wr (BitVec.ofNat 6 (16 + i)) (BitVec.ofNat 64 (st.num (d + 8 * i) 8))) k

def runRevb (c : Nat) : M Unit := do
  let k ← getCore c
  if !k.q.es.isEmpty then throw .wait
  else match k.res.stack with
    | none => trap .frame 0
    | some st =>
      if st.nfr = 0 then trap .rsunf 0
      else
        needTop st
        let f := st.hdr st.topf
        if frUf f then trap .frame 0
        else
          let okB ← unitIs c (frBpc f) Raw.isBlkBegin
          let okE ← unitIs c (frEpc f) Raw.isBlkEnd
          if !okB || !okE then trap .frame 0
          else
            let st0 ← warmTop c st
            if !frDmtd f then hotCheck c st.topf (frSize f)
            let w : Walk := ⟨k.f.pc, frBpc f, frEpc f, frGdisp f, frHsave f, 0⟩
            if frDmtd f then
              let st1 ← reserveTop c st0 (64 * frFsz f - frKeep f)
              let fst := SMap.clear st1.bytes st1.depth (64 * frFsz f - frKeep f)
              setStack c { st1 with bytes := fst }
              let start ← fetchWord c (frBpc f)
              let pc := advance (frBpc f) (if start.extractLsb' 52 6 == 0x3F then 16 else 8)
              modCore c (fun k => (((k.loadScalars st1 (st1.topf + frKeep f - 128)).setBlk ⟨true, 2, frBpc f, 0, 0⟩).setPc pc))
              modCore c (fun k => { k with res := { k.res with walk := some { w with base := st1.topf + frKeep f }, outer := false } })
            else
              let pc ← prevUnit c (frEpc f)
              setStack c st0
              modCore c (fun k => ((k.setBlk (walkBlk pc (frPbytes f))).setPc pc))
              modCore c (fun k => { k with res := { k.res with walk := some { w with base := st0.topf + frKeep f }, outer := false } })

def execRevb (h : Hdr) (s : State) : Out := outsideBlock s (reeveUnit h [] runRevb s)

/-- R291: the core walks a block in reverse; a trap handler that interrupted the walk runs forward (log entry 23). -/
def CoreSt.walking (k : CoreSt) : Bool := k.f.blk.dir == 1 && k.res.walk.isSome && !k.res.outer

/-- R291, the end of the walk: the frame is popped, and the reeve goes on after the `REVB`. -/
def CoreSt.popFrame (k : CoreSt) (w : Walk) : CoreSt :=
  match k.res.stack with
  | some st =>
    let st' := { st with depth := st.topf, topf := frPrev (st.hdr st.topf), nfr := st.nfr - 1, cold := min st.cold st.topf }
    { (k.setBlk Blk.zero).setPc (advance w.revb 8) with res := { k.res with stack := some st', walk := none, outer := false } }
  | none => k

-- ### GRAD.ZERO (R299)

def runGradZeroV (msk : BitVec 16) : Perf := fun _ _ =>
  pure (.done (((upTo 16).filter (fun j => msk.getLsbD j)).map (fun j => Wr.v (BitVec.ofNat 5 (16 + j)) 0 (BitVec.allOnes 2048))) (wordOk 0))

/-- Every element of a tile +0. -/
def CoreSt.zeroTile (k : CoreSt) (t : Nat) : CoreSt := { k with eng := { k.eng with acc := SMap.clear k.eng.acc (8192 * t) 8192 } }

def runGradZeroAcc (msk : BitVec 4) : Perf := fun c _ => do
  modCore c (fun k => ((upTo 4).filter (fun j => msk.getLsbD j)).foldl (fun k j => k.zeroTile (4 + j)) k)
  pure (.done [] (wordOk 0))

/-- R252 for a destination alone. -/
def zeroPre : Nat → List Word → List Handle → M Unit := fun c _ hs => do
  goodHandles hs
  let d := (hs.getD 0 .unbound).shape
  check (writeShapeOk d) .hdlbad 0
  if shCount d = 0 then pure ()
  else
    checkDest c d
    check (shInjective d) .hdlbad 0

/-- Writes zero bits into the elements of a walk, with the tags of R80. -/
def zeroElems (c : Nat) (t : Tens) : List Int → M Unit
  | [] => pure ()
  | e :: es => do
    let ps := elemPieces t.r e
    writeParts c t ps (ps.map (fun _ => 0))
    if t.tagged then setTags c t (shFmt t.r) ((ps.map (fun p => sectorsOf p.1 p.2)).flatten)
    zeroElems c t es

def runGradZeroH : Perf := fun c e => do
  let r := (e.hd 0).shape
  if shCount r = 0 then pure (.done [] (wordOk 0))
  else
    let t ← tensor c .copy .wr r
    t.flush c true
    t.translateAll c .wr
    zeroElems c t (walkOffs r)
    pure (.done [] (wordOk 0))

-- ### RS words (R286 to R290)

def runRsBind : Perf := fun c e => do
  let v := fld (e.x 0) 0 16
  let k ← getCore c
  if v ≠ 0xFFFF ∧ 4095 < v then trap .rights (BitVec.ofNat 64 (k.slot.rstab.toNat + 64 * v))
  else
    unbindStack c true
    if v = 0xFFFF then pure (.done [] (wordOk 0))
    else
      bindStack c v
      pure (.done [] (wordOk 0))

/-- R288, at issue: the push is checked, reserved and applied. -/
def rsPushPre : Nat → List Word → List Handle → M Unit := fun c _ hs => do
  let st0 ← theStack c
  goodHandles hs
  let r := (hs.getD 0 .unbound).shape
  check ((isPlane (shFmt r) || fmtWidth (shFmt r) % 8 == 0) && shBytes r ≤ 65408) .hdlbad 0
  if shCount r = 0 then pure ()
  else
    checkSource c r
    check (readWalkOk r) .hdlbad 0
  let n := shBytes r
  let st ← reserveTop c st0 (64 + align64 n)
  let st1 := ({ st with bytes := SMap.clear st.bytes (st.depth + 64 + n) (align64 n - n) }).setHdr st.depth (mkHdr 0 0 0 0 0 false false false true 0 n 64 st.topf)
  setStack c { st1 with topf := st.depth, depth := st.depth + 64 + align64 n, nfr := st.nfr + 1 }

/-- The payload of the top frame, and of the frame just popped, as a place (R288). -/
def pushPlace (k : CoreSt) : Nat := match k.res.stack with | some st => st.topf + 65 | none => 0
def popPlace (k : CoreSt) : Nat := match k.res.stack with | some st => st.depth + 65 | none => 0

def runRsPush : Perf := fun c e => do
  let r := (e.hd 0).shape
  if shCount r = 0 then pure (.done [] (wordOk 0))
  else
    let t ← tensor c .copy .rd r
    t.flush c false
    t.translateAll c .rd
    let bs ← readTensor c t
    if e.aux ≠ 0 then stackPut c (e.aux - 1) bs
    pure (.done [] (wordOk (shBytes r)))

/-- R288, at issue: the pop is checked and applied. -/
def rsPopPre : Nat → List Word → List Handle → M Unit := fun c _ hs => do
  let st ← theStack c
  if st.nfr = 0 then trap .rsunf 0
  else
    needTop st
    let f := st.hdr st.topf
    goodHandles hs
    let r := (hs.getD 0 .unbound).shape
    check (isPlane (shFmt r) || fmtWidth (shFmt r) % 8 == 0) .hdlbad 0
    check (frUf f && frPbytes f == shBytes r) .frame 0
    zeroPre c [] hs
    let st1 ← warmTop c st
    setStack c { st1 with depth := st.topf, topf := frPrev f, nfr := st.nfr - 1, cold := min st1.cold st.topf }

/-- An earlier `RS.PUSH` has bytes of the run from depth `d` on still to write. -/
def CoreSt.fillsAt (k : CoreSt) (e : Entry) (d n : Nat) : Bool := (k.before e).any (fun x => x.fills && d ≤ x.aux - 1 && x.aux - 1 < d + n)

def runRsPop : Perf := fun c e => do
  let r := (e.hd 0).shape
  if shCount r = 0 then pure (.done [] (wordOk 0))
  else if (← getCore c).fillsAt e (e.aux - 1) (shBytes r) then throw .wait
  else
    hotCheck c (e.aux - 1) (shBytes r)
    let k ← getCore c
    let t ← tensor c .copy .wr r
    t.flush c true
    t.translateAll c .wr
    let bs := match k.res.stack with
      | some st => (upTo (shBytes r)).map (fun i => SMap.get 0 st.bytes (e.aux - 1 + i))
      | none => []
    writeTensor c t bs
    pure (.done [] (wordOk (shBytes r)))

/-- R289: `NFR` mod 2^16 above `DEPTH`. -/
def Stack.mark (st : Stack) : Word := mkPtr (st.nfr % 65536) st.depth

def runRsMark (h : Hdr) (d : SReg) (c : Nat) : M Unit := do
  let st ← theStack c
  modCore c (fun k => (k.next h).wr d st.mark)

def execRsMark (h : Hdr) (d : SReg) (s : State) : Out := reeveUnit h [d] (runRsMark h d) s

/-- R289: without the frames whose headers lie at `d` or above. -/
def Stack.dropTo (st : Stack) (d : Nat) : Stack :=
  let gone := st.allFrames.filter (fun x => d ≤ x)
  st.goTo d ((gone.getLast?.map (fun x => frPrev (st.hdr x))).getD st.topf) (st.nfr - gone.length)

/-- What entries and steps have still to write into dropped frames is written nowhere. -/
def CoreSt.dropFills (k : CoreSt) (gen d : Nat) : CoreSt :=
  let es := fun (e : Entry) => if e.fills && d < e.aux then { e with aux := 0 } else e
  let rs := fun (r : StkStep) => if r.gen = gen ∧ d < r.aux then { r with aux := 0 } else r
  { k with q := { k.q with es := k.q.es.map es, heldEs := k.q.heldEs.map es }
           res := { k.res with log := k.res.log.map rs, redo := k.res.redo.map rs } }

/-- R289: the frames from depth `d` on are dropped. -/
def dropFrames (a : SReg) (c : Nat) : M Unit := do
  let st ← theStack c
  let d := fld ((← getCore c).rd a) 0 48
  -- the headers below cannot be read
  if d < st.lost then trap st.lostBy 0
  else if d ≠ st.depth ∧ !st.allFrames.contains d then trap .frame 0
  else
    setStack c (st.dropTo d)
    modCore c (fun k => k.dropFills st.gen d)

def runRsDrop (h : Hdr) (a : SReg) (c : Nat) : M Unit := do
  stackUnit c (dropFrames a c)
  stepOver c h

def execRsDrop (h : Hdr) (a : SReg) (s : State) : Out := outsideBlock s (reeveUnit h [a] (runRsDrop h a) s)

/-- R286: FRAME when no stack is bound. -/
def rsSpillPre : Nat → List Word → List Handle → M Unit := fun c _ _ => do
  let _ ← theStack c

/-- R290: the frames that the stack held at the word's issue go to the lower tiers, once earlier entries have written their items; a later push goes
on meanwhile. -/
def runRsSpill : Perf := fun c e => do
  let s ← get
  let k := s.core c
  match k.res.stack with
  | none => pure (.done [] (wordOk 0))
  | some st =>
    if (k.before e).any Entry.fills then throw .wait
    let own := match e.stk with | some o => if o.gen = st.gen then o.depth else 0 | none => 0
    let lim := min (min own st.depth) (fillLow (k.q.es ++ k.q.heldEs))
    let m := st.spillAll k.openedBlk (s.tierRoom k.ctx.part st) (st.nfr + 1) lim
    applyMoved c true st m
    pure (.done [] (wordOk m.n))

end Sys2Proof.Machine
end

