-- ==== Sys2Proof/Machine/Sync.lean ====
section
/-! DEFINITION. Ordering words (R109 to R125, R246, R264): `MARK`, `FENCE`, `ACQ`, `REL`, `ACQ.P` and promotions. -/

namespace Sys2Proof.Machine

-- ### Releases and acquires of entries

/-- A fabric operation that an S-scope release waits for (R115). -/
def Entry.remoteWrite (e : Entry) : Bool :=
  match e.op with
  | .chPut .. | .chAmo .. | .chMcast .. => !e.null
  | _ => false

/-- A release that an entry performs: it waits while its croft is under victim stall (R120), and at scope S for the earlier fabric operations
(R115). -/
def releaseBy (c scope : Nat) (e : Entry) : M Unit := do
  let k ← getCore c
  if k.loc.promo.isSome || (scope == 3 && (k.before e).any Entry.remoteWrite) then throw .wait
  else release c scope

def runMark : Perf := fun _ _ => pure (.done [] (wordOk 0))

def runRel (sc : BitVec 2) : Perf := fun c e => do
  releaseBy c sc.toNat e
  pure (.done [] (wordOk 0))

def runAcq (sc : BitVec 2) : Perf := fun c _ => do
  acquire c sc.toNat
  pure (.done [] (wordOk 0))

def runFence (sc : BitVec 2) : Perf := fun c e => do
  releaseBy c sc.toNat e
  acquire c sc.toNat
  pure (.done [] (wordOk 0))

/-- R246: a joining `TOK.WAIT` whose waits are met. -/
def runTokWait : Perf := fun _ _ => pure (.done [] (wordOk 0))

-- ### Promotions (R119 to R125)

/-- The croft and the device of a target operand (R264). -/
def targetCroft (x : Word) : Nat := natBits x.toNat 0 8
def targetDev (x : Word) : Nat := natBits x.toNat 8 9

/-- R123: croft `t` runs a point of the context, so that a request of that context is answered by a promotion. -/
def State.answers (s : State) (t part asid : Nat) : Bool :=
  let k := s.core t
  k.slot.running.isSome && k.ctx.asid == asid && k.ctx.part == part

/-- R123: a hard cut or a kill of a croft is under way, and with it the drain of R117. -/
def CoreSt.beingCut (k : CoreSt) : Bool := match k.q.trap with | some t => t.cause == .preempt | none => false

/-- R123, R125: of a croft that is being cut, nothing is at work any more but `ACQ.P`s, which wait for the drain of R117 themselves when they name
this croft, or for that of another: it drains now, and requests are answered. -/
def CoreSt.drainable (k : CoreSt) : Bool :=
  k.beingCut && k.q.es.all (fun e => e.unstarted || e.heldByCut || !e.engine || (match e.op with | .acqP .. => true | _ => false))

/-- R119 step 1: the lines with a stamp, and the log. -/
def CoreSt.snapshot (k : CoreSt) : List Nat × List (BitVec 5) :=
  ((k.loc.l1.filter (fun p => match p.2 with | some x => x.stamp.isSome | none => false)).map Prod.fst, k.loc.plog)

/-- R119 steps 2 and 3. -/
def promoteEnd (t : Nat) : M Unit := do
  match (← getCore t).loc.promo with
  | none => pure ()
  | some (lines, log) =>
    writeBackAll t lines
    modCore t (fun k => { k with loc := { k.loc with promo := none, plog := k.loc.plog.filter (fun e => !log.contains e) } })

def promoteStart (t : Nat) : M Unit :=
  modCore t (fun k => if k.loc.promo.isSome then k else { k with loc := { k.loc with promo := some k.snapshot } })

/-- R122: `ACQ.P`. The request is answered at once when the model is eager and no promotion of the target is in progress; otherwise it is
sent, and the events of R121 and R123 end it. -/
def runAcqP : Perf := fun c e => do
  let s ← get
  let k := s.core c
  if targetDev (e.x 0) ≠ s.devid then trap .badtgt (e.x 0)
  else
    let t := targetCroft (e.x 0)
    if !s.eager || (s.core t).loc.promo.isSome then pure .pend
    else if (s.core t).drainable then
      drainL1 t
      acquireD c
      pure (.done [] (wordOk 0))
    else if (s.core t).beingCut then throw .wait
    else
      if s.answers t k.ctx.part k.ctx.asid then
        promoteStart t
        promoteEnd t
      acquireD c
      pure (.done [] (wordOk 0))

/-- An entry's work ends through something from outside: what it writes and its word. -/
def CoreSt.finishAt (k : CoreSt) (i : Nat) (wrs : List Wr) (w : Word) : CoreSt :=
  match k.q.es[i]? with
  | some e => k.setEntry i { e with phase := .done, wrs := wrs, word := w }
  | none => k

/-- The position of the first entry of a core that meets a condition. -/
def CoreSt.entryPos (k : CoreSt) (f : Entry → Bool) : Option Nat := k.q.es.findIdx? f

/-- An `ACQ.P` of a core that waits for an answer of croft `t`: `joined` says that a promotion took it up. -/
def Entry.asks (t : Nat) (joined : Bool) (e : Entry) : Bool :=
  match e.op with
  | .acqP .. => e.phase == .pend && targetCroft (e.x 0) == t && e.aux == bitNat joined
  | _ => false

/-- R122: the acknowledgement reaches core `c`: an acquire at D, and the entry is done. -/
def ackPromotion (t : Nat) (joined : Bool) (c : Nat) (s : State) : State :=
  match (s.core c).entryPos (Entry.asks t joined) with
  | none => s
  | some i => ((acquireD c s).2).modCore c (fun k => k.finishAt i [] (wordOk 0))

/-- R121, R123: the request of core `src` reaches croft `t`. -/
def promotionRequest (src t : Nat) (s : State) : State :=
  let k := s.core src
  match k.entryPos (Entry.asks t false) with
  | none => s
  | some i =>
    if (s.core t).drainable then
      match drainL1 t s with
      | (.ok (), s1) => ackPromotion t false src s1
      | (.error _, s1) => s.heldBack s1
    else if (s.core t).beingCut then s
    else if s.answers t k.ctx.part k.ctx.asid then
      let s1 := (promoteStart t s).2
      s1.modCore src (fun k => match k.q.es[i]? with | some e => k.setEntry i { e with aux := 1 } | none => k)
    else ackPromotion t false src s

/-- R119, R121: a promotion of croft `t` ends, once every line of it can go home, and every joined request is acknowledged. -/
def promotionEnd (t : Nat) (s : State) : State :=
  match promoteEnd t s with
  | (.ok (), s1) => (s1.cores.map Prod.fst).foldl (fun a c => ackPromotion t true c a) s1
  | (.error _, s1) => s.heldBack s1

end Sys2Proof.Machine
end

