-- ==== Sys2Proof/Machine/Channels.lean ====
section
/-! DEFINITION. Channel slots and channel words (R269 to R271, R388 to R394), the storage port as a point sees it (R417 to R419), and the
answers that end their entries. What another module does with a request is outside: a request is put on the fabric, and an event brings
its answer. -/

namespace Sys2Proof

/-- The slot that a channel word names. -/
def Instr.chan : Instr → Option CReg
  | .chSend _ _ ch _ | .chPut _ _ ch _ _ _ _ | .chMcast _ _ ch _ _ _ _ | .chRecv _ _ _ ch _ | .chGet _ _ _ ch _ _ _ | .sioRead _ _ _ ch _ _ _
  | .chAmo _ _ _ ch _ _ _ _ => some ch
  | _ => none

end Sys2Proof

namespace Sys2Proof.Machine

-- ### Slots (R388, R389)

def chValid (x : BitVec 512) : Bool := x.getLsbD 0
/-- Permission n: 0 send, 1 receive, 2 put, 3 get, 4 atomic, 5 multicast, 6 storage. -/
def chPerm (x : BitVec 512) (n : Nat) : Bool := x.getLsbD (1 + n)
def chPair (x : BitVec 512) : Bool := x.getLsbD 8
def chKind (x : BitVec 512) : Nat := fld x 9 2
def chDev (x : BitVec 512) : Nat := fld x 16 9
def chWin (x : BitVec 512) : Nat := fld x 32 16
def chNsid (x : BitVec 512) : Nat := fld x 128 32

/-- The rights that a kind admits (R389). -/
def kindPerms (kind : Nat) : Nat := if kind = 0 then 0x1F else if kind = 1 then 0x20 else if kind = 2 then 0x40 else 0

/-- R389 on an entry alone. -/
def slotAlone (x : BitVec 512) : Bool :=
  fld x 11 5 == 0 && fld x 25 7 == 0 && fld x 48 16 == 0 && fld x 104 24 == 0 && fld x 160 352 == 0 && chKind x != 3 &&
  (fld x 1 7 &&& (0x7F ^^^ kindPerms (chKind x))) == 0

/-- R389: slot `n` as it loads from a table. -/
def slotLoad (tab : Nat → BitVec 512) (n : Nat) : BitVec 512 :=
  let x := tab n
  let y := tab (n - 1)
  if slotAlone x && (!chPair x || (n % 2 == 1 && chValid y && slotAlone y && !chPair y && chDev y == chDev x)) then x else 0

/-- Where an operation of a slot goes: device, and `WIN` with its partition, as the redirect cache has them (R405). -/
def State.remoteOf (s : State) (x : BitVec 512) : Nat × Nat :=
  match s.fab.redir.find? (fun e => e.1 == (chDev x, chWin x)) with
  | some e => (e.2.1, 4096 * e.2.2 + chWin x % 4096)
  | none => (chDev x, chWin x)

-- ### Checks at issue (R252, R269, R457)

/-- R269: the slot is valid and has the permission; the faulting pointer is its number (R360). -/
def slotPre (c : Nat) (ch : CReg) (perm : Nat) : M Unit := do
  let x := (← getCore c).rdCh ch
  check (chValid x && chPerm x perm) .badch (BitVec.ofNat 64 ch.toNat)

/-- A tensor of whole bytes. -/
def byteShape (r : BitVec 512) : Bool := isPlane (shFmt r) || fmtWidth (shFmt r) % 8 == 0

/-- R252 steps 4 and 5 on the one record of a channel word. -/
def spanPre (c : Nat) (write : Bool) (r : BitVec 512) : M Unit := do
  if shCount r = 0 then pure ()
  else if write then do
    checkDest c r
    check (shInjective r) .hdlbad 0
  else do
    checkSource c r
    check (readWalkOk r) .hdlbad 0

/-- R269: the checks of a fabric word with a tensor. -/
def chanPre (ch : CReg) (perm : Nat) (write sends : Bool) : Nat → List Word → List Handle → M Unit := fun c _ hs => do
  slotPre c ch perm
  goodHandles hs
  let r := (hs.getD 0 .unbound).shape
  check (byteShape r && shBytes r ≤ 65536) .hdlbad 0
  let x := (← getCore c).rdCh ch
  check (!sends || shBytes r ≤ chAllow x) .badch (BitVec.ofNat 64 ch.toNat)
  spanPre c write r

/-- The queue pair of a slot (R388, R418). -/
def State.qpair (s : State) (q : Nat) : QPair := if q < 64 then SMap.get .zero s.stor.qps q else .zero
def State.setQpair (s : State) (q : Nat) (x : QPair) : State := { s with stor := { s.stor with qps := SMap.set .zero s.stor.qps q x } }
def QPair.blkSize (q : QPair) : Nat := if q.blk then 4096 else 512

/-- R269, R270: the checks of `SIO.READ`. -/
def sioPre (ch : CReg) : Nat → List Word → List Handle → M Unit := fun c _ hs => do
  slotPre c ch 6
  goodHandles hs
  let r := (hs.getD 0 .unbound).shape
  let s ← get
  let q := s.qpair (chWin ((s.core c).rdCh ch))
  check (byteShape r && shBytes r ≤ 2 ^ 21 && shBytes r % q.blkSize == 0) .hdlbad 0
  spanPre c true r

-- ### Requests

/-- The destination of a scalar atomic, and its bytes. -/
def amoDest : Instr → Option (SReg × Nat)
  | .amoAddW _ d _ _ _ | .amoAndW _ d _ _ _ | .amoOrW _ d _ _ _ | .amoXorW _ d _ _ _ | .amoMinW _ d _ _ _ | .amoMaxW _ d _ _ _ | .amoMinuW _ d _ _ _
  | .amoMaxuW _ d _ _ _ | .amoSwapW _ d _ _ _ | .amoCasW _ d _ _ _ | .amoFaddW _ d _ _ _ => some (d, 4)
  | .amoAddD _ d _ _ _ | .amoAndD _ d _ _ _ | .amoOrD _ d _ _ _ | .amoXorD _ d _ _ _ | .amoMinD _ d _ _ _ | .amoMaxD _ d _ _ _ | .amoMinuD _ d _ _ _
  | .amoMaxuD _ d _ _ _ | .amoSwapD _ d _ _ _ | .amoCasD _ d _ _ _ => some (d, 8)
  | .amoCasQ _ d _ _ _ => some (d, 16)
  | _ => none

/-- Puts a request on the fabric. -/
def sendOut (x : FabOut) : M Unit := modify (fun s => { s with fab := { s.fab with out := s.fab.out ++ [x] } })

/-- Puts an entry's request on the fabric; its answer ends the entry. -/
def sendRequest (dev : Nat) (op : RemoteOp) : M Fin := do
  sendOut (.request dev op)
  pure (.asked dev op)

/-- R386: something of this kind is still to be put on a link, whole or in part, so that nothing can answer it. -/
def State.unsent (s : State) (f : FabOut → Bool) : Bool := s.fab.out.any f || s.fab.resend.any (fun x => x.seq == none && f x.of)

/-- R386: what an entry has asked the fabric for has left the module. -/
def State.hasLeft (s : State) (c : Nat) (e : Entry) : Bool :=
  match e.via with
  | some (dev, op) => !s.unsent (· == .request dev op)
  | none => !s.unsent (fun x => match x with | .forward _ a => a.tag == c && (amoDest e.op).isSome | _ => false)

/-- A request of a core through its slot; a gradient partner's travels in class 1 (R390). -/
def chanOp (s : State) (c : Nat) (x : BitVec 512) (kind : RKind) (ptr : Word) (len : Nat) (gate : Option Word) (bs : List Byte) : RemoteOp :=
  let w := (s.remoteOf x).2
  { src := s.devid, part := w / 4096, win := w % 4096, kind := kind, ptr := ptr, len := len, gate := gate, op := 0, size := 0, x := 0, y := 0,
    data := bs, tag := c, cls := bitNat (chPair x) }

/-- R110, R111, R252: the bytes of an entry's source, once they count against its slot's allowance. -/
def sendBytes (c : Nat) (e : Entry) : M (List Byte) := do
  let r := (e.hd 0).shape
  if !e.counted then throw .wait
  else
    let t ← tensor c .copy .rd r
    t.flush c false
    t.translateAll c .rd
    readTensor c t

/-- R252: opens an entry's destination: its span in the issuing croft's L1, its pages. -/
def openDest (c : Nat) (e : Entry) : M Tens := do
  let t ← tensor c .copy .wr (e.hd 0).shape
  t.flush c true
  t.translateAll c .wr
  pure t

/-- The gate of a word with a `GEN` bit. -/
def Entry.gate (e : Entry) (gen : Bool) : Option Word := if gen then some (e.x 0) else none
/-- The remote pointer or block address of a channel word: the last of its operands. -/
def Entry.far (e : Entry) : Word := e.xs.getLastD 0

/-- An entry of no element completes at once (R73). -/
def Entry.empty (e : Entry) : Bool := shCount (e.hd 0).shape == 0

def runChPut (ch : CReg) (gen : Bool) : Perf := fun c e => do
  if e.empty then pure (.done [] (wordOk 0))
  else
    let bs ← sendBytes c e
    let s ← get
    let x := (s.core c).rdCh ch
    sendRequest (s.remoteOf x).1 (chanOp s c x .put e.far bs.length (e.gate gen) bs)

/-- R393: an earlier message of the slot has started and is still to be sent. -/
def CoreSt.sendsBefore (k : CoreSt) (e : Entry) (ch : CReg) : Bool :=
  (k.before e).any (fun x => x.phase == .waiting && !x.held && (match x.op with | .chSend _ _ ch' _ => ch' == ch | _ => false))

def runChSend (ch : CReg) : Perf := fun c e => do
  if e.empty then pure (.done [] (wordOk 0))
  else if (← getCore c).sendsBefore e ch then throw .wait
  else
    let bs ← sendBytes c e
    let s ← get
    let x := (s.core c).rdCh ch
    sendRequest (s.remoteOf x).1 (chanOp s c x .send 0 bs.length none bs)

/-- R395: word 0 of a group, by its number within a partition's grant; a group beyond the grant is not valid. -/
def State.groupWord (s : State) (p g : Nat) : Word :=
  let fb := (s.part p).fb
  if g < fb.grpcnt then SMap.get 0 s.fab.groups (fb.grpbase + g) else 0

/-- R270, R395, R396: a put to every member of the slot's group, through the switch. -/
def runChMcast (ch : CReg) (gen : Bool) : Perf := fun c e => do
  let s ← get
  let k := s.core c
  let x := k.rdCh ch
  let g := s.groupWord k.ctx.part (chWin x)
  if !g.getLsbD 0 then trap .badch (BitVec.ofNat 64 ch.toNat)
  else if e.empty then pure (.done [] (wordOk 0))
  else
    let bs ← sendBytes c e
    let op := { chanOp s c x .mcast e.far bs.length (e.gate gen) bs with part := 0, win := natBits g.toNat 32 12 }
    sendRequest (natBits g.toNat 16 16) op

def runChGet (ch : CReg) : Perf := fun c e => do
  if e.empty then pure (.done [] (wordOk 0))
  else
    let _ ← openDest c e
    let s ← get
    let x := (s.core c).rdCh ch
    sendRequest (s.remoteOf x).1 (chanOp s c x .get e.far (shBytes (e.hd 0).shape) none [])

/-- The operation of `CH.AMO` (R270). -/
def chAmoOp (n : Nat) : AmoOp :=
  if n = 0 then .add else if n = 1 then .and else if n = 2 then .or else if n = 3 then .xor else if n = 4 then .min else if n = 5 then .max
  else if n = 6 then .swap else .cas

/-- R270: `CH.AMO`; its operands are the remote pointer, sV and sD. -/
def runChAmo (ch : CReg) (op : BitVec 3) (sz : BitVec 1) : Perf := fun c e => do
  let s ← get
  let x := (s.core c).rdCh ch
  let n := if sz = 0 then 4 else 8
  let o := { chanOp s c x .amo (e.x 0) n none [] with op := (chAmoOp op.toNat).num, size := n, x := fld (e.x 1) 0 (8 * n), y := fld (e.x 2) 0 (8 * n) }
  sendRequest (s.remoteOf x).1 o

-- ### Windows and messages (R391, R270)

/-- Where window `w` of a partition lies, and its 32 bytes; zero beyond the table. -/
def State.winAddr (s : State) (p w : Nat) : Nat := (s.part p).fb.inbase + 32 * w
def State.window (s : State) (p w : Nat) : BitVec 256 :=
  if w < (s.part p).fb.incnt then BitVec.ofNat 256 (s.physNat (s.winAddr p w) 32) else 0
/-- R421: a window's entry cannot be read. -/
def State.windowErr (s : State) (p w : Nat) : Option LineErr :=
  if w < (s.part p).fb.incnt then (match s.phys (s.winAddr p w) 32 with | .error e => some e | .ok _ => none) else none

/-- A core of a partition is to have a window read: it waits for its stack, and an error has pointer 0 (R455). -/
def openWindow (c p w : Nat) : M (BitVec 256) := do
  await c ((← get).winAddr p w)
  let s ← get
  match s.windowErr p w with
  | some e => walkErr e (s.winAddr p w) 0
  | none => do
    modify (fun s => s.touched (s.winAddr p w) 32 0)
    pure (s.window p w)

def winSt (x : BitVec 256) : Nat := fld x 0 2
def winQueue (x : BitVec 256) : Bool := x.getLsbD 2
def winCtx (x : BitVec 256) : Nat := fld x 18 10
def winQptr (x : BitVec 256) : Word := x.extractLsb' 64 64
def winQlog (x : BitVec 256) : Nat := fld x 128 4
def winQsz (x : BitVec 256) : Nat := 256 * (fld x 132 8 + 1)
def winHead (x : BitVec 256) : Nat := fld x 160 32
def winTail (x : BitVec 256) : Nat := fld x 192 32
/-- The messages that a window's queue holds; none unless it is a queue. -/
def winPending (x : BitVec 256) : Nat := if winQueue x && winSt x != 0 then (winTail x + 2 ^ 32 - winHead x) % 2 ^ 32 else 0
/-- Offsets of message slot m and of its length, from `QPTR`. -/
def winSlot (x : BitVec 256) (m : Nat) : Nat := m % 2 ^ winQlog x * winQsz x
def winLen (x : BitVec 256) (m : Nat) : Nat := 2 ^ winQlog x * winQsz x + 4 * (m % 2 ^ winQlog x)

/-- Bytes of a global buffer as core `c` reads and writes them at home. -/
def globalRead (c : Nat) (ptr : Word) (off n : Nat) : M (List Byte) := do
  let l ← checkSpan c .copy .rd ptr off (off + n - 1 : Nat)
  readRun c l .rd ptr off n
def globalWrite (c : Nat) (ptr : Word) (off : Nat) (bs : List Byte) : M Unit := do
  let l ← checkSpan c .copy .wr ptr off (off + bs.length - 1 : Nat)
  writeRun c l ptr off bs

/-- An operation in a context of a partition, within another one: its stop is passed on. -/
def inContextM {α : Type} (p asid : Nat) (m : Nat → M α) : M α := fun s => inContext p asid m s

/-- R270: `CH.RECV`: the oldest message of the endpoint that the slot names on its own module (R389). -/
def runChRecv (ch : CReg) : Perf := fun c e => do
  let s ← get
  let k := s.core c
  let p := k.ctx.part
  let w := chWin (k.rdCh ch) % 4096
  let x ← (if e.empty then pure 0 else openWindow c p w : M (BitVec 256))
  if e.empty then pure (.done [] (wordOk 0))
  else if winPending x = 0 then throw .wait
  else
    let t ← openDest c e
    let m := winHead x
    let q := winQptr x
    let asid := (s.part p).tb.asidbase + winCtx x
    let len := leNat (← inContextM p asid (fun h => globalRead h q (ptrOffset q + winLen x m) 4))
    let n := min len (shBytes t.r)
    let bs ← (if n = 0 then pure [] else inContextM p asid (fun h => globalRead h q (ptrOffset q + winSlot x m) n) : M (List Byte))
    writeTensor c t bs
    -- a message that waits at the port for a place may be admitted (R392)
    modify (fun s => { s.physPut (s.winAddr p w + 20) (natBytes 4 ((m + 1) % 2 ^ 32)) with agenda := s.agenda ++ [.portRetry] })
    pure (.done [] (if shBytes t.r < len then cword 8 0 len else wordOk n))

/-- R270: what `CH.QRY` reads. -/
def chQuery (s : State) (c : Nat) (ch : CReg) : Word :=
  let k := s.core c
  let x := k.rdCh ch
  if !chValid x then 0
  else
    let msgs := if chPerm x 1 then min (winPending (s.window k.ctx.part (chWin x % 4096))) 65535 else 0
    BitVec.ofNat 64 (1 + 2 * fld x 1 7 + atBit ((chAllow x - k.chOut ch) % 2 ^ 40) 8 + atBit msgs 48)

-- ### The storage port (R419)

def State.sioRing (s : State) (q : Nat) : SioRing := SMap.get .zero s.stor.rings q
def State.setSioRing (s : State) (q : Nat) (x : SioRing) : State := { s with stor := { s.stor with rings := SMap.set .zero s.stor.rings q x } }

/-- The commands outstanding on a queue pair. -/
def State.sioOut (s : State) (q : Nat) : Nat := (s.sioRing q).cmds.length

/-- R417: a Read command's entry of the submission queue, in the layout of NVMe (log entry 95): opcode, command id, namespace, the PRP entries of its
staging buffer, first block, number of blocks − 1. -/
def readCommand (cid nsid slba nlb : Nat) : List Byte :=
  natBytes 64 (2 + atBit (cid % 65536) 16 + atBit (nsid % 2 ^ 32) 32 + atBit (Config.staging cid 0).toNat 192 + atBit (Config.staging cid 1).toNat 256 +
    atBit (slba % 2 ^ 64) 320 + atBit (nlb % 65536) 384)

/-- An entry of the completion queue: the submission head, the queue, the command id, the phase, the status. -/
def completionEntry (hd q cid : Nat) (phase : Bool) (sc sct : Nat) : List Byte :=
  natBytes 16 (atBit (hd % 65536) 64 + atBit (q % 65536) 80 + atBit (cid % 65536) 96 + atBit (bitNat phase) 112 + atBit (sc % 256) 113 + atBit (sct % 8) 121)

/-- R419 step 3: the port submits a Read command: its entry goes to the queue's tail, and the drive's doorbell is written. -/
def sioSubmit (q core seq nsid slba nlb : Nat) (s : State) : State :=
  let x := s.qpair q
  let r := s.sioRing q
  let depth := 2 ^ x.qlog
  let cid := ((upTo depth).find? (fun n => !r.cmds.any (fun d => d.cid == n))).getD 0
  let tail := (r.tail + 1) % depth
  let s1 := (s.physPut (x.sqb + 64 * r.tail) (readCommand cid nsid slba nlb)).setSioRing q
    { r with tail := tail, cmds := r.cmds ++ [⟨core, seq, cid, s.cycle.toNat⟩] }
  { s1 with fab := { s1.fab with out := s1.fab.out ++ [.nvme q nsid slba nlb, .doorbell x.sqdb tail] } }

/-- R417: the drive completes a command, and the port, which polls the queue, takes the completion and tells the drive how far it has come. -/
def sioTake (q core seq sc sct : Nat) (s : State) : State :=
  let x := s.qpair q
  let r := s.sioRing q
  match r.cmds.find? (fun d => d.core == core && d.seq == seq) with
  | none => s
  | some d =>
    let hd := (r.hd + 1) % 2 ^ x.qlog
    let s1 := (s.physPut (x.cqb + 16 * r.hd) (completionEntry r.tail q d.cid r.phase sc sct)).setSioRing q
      { r with hd := hd, phase := r.phase != (hd == 0), cmds := r.cmds.filter (fun y => y != d) }
    { s1 with fab := { s1.fab with out := s1.fab.out ++ [.doorbell x.cqdb hd] } }

/-- R419: a command is aborted; a completion that comes later is not taken. -/
def sioAbort (q core seq : Nat) (s : State) : State :=
  let r := s.sioRing q
  match r.cmds.find? (fun d => d.core == core && d.seq == seq) with
  | none => s
  | some d =>
    let s1 := s.setSioRing q { r with cmds := r.cmds.filter (fun y => y != d) }
    { s1 with fab := { s1.fab with out := s1.fab.out ++ [.nvmeAbort q d.cid] } }

def runSioRead (ch : CReg) : Perf := fun c e => do
  let s ← get
  let k := s.core c
  let x := k.rdCh ch
  let q := s.qpair (chWin x)
  if !q.ownv || !q.en || q.own ≠ k.ctx.part then trap .badch (BitVec.ofNat 64 ch.toNat)
  else if e.empty then pure (.done [] (wordOk 0))
  else if 2 ^ q.qlog - 1 ≤ s.sioOut (chWin x) then throw .wait
  else
    let _ ← openDest c e
    await c (q.sqb + 64 * (s.sioRing (chWin x)).tail)
    modify (sioSubmit (chWin x) c e.seq.cq (chNsid x) e.far.toNat (shBytes (e.hd 0).shape / q.blkSize - 1))
    pure .pend

-- ### Answers

/-- R271: a refusal with a code. -/
def wordNak (code : Nat) : Word := cword 7 code 0

/-- R110, R111: bytes that arrive for an entry go into its destination at home, and the issuing croft's lines of it are dropped. -/
def landBytes (c : Nat) (e : Entry) (bs : List Byte) : M Unit := do
  let t ← tensor c .copy .wr (e.hd 0).shape
  t.flush c true
  writeTensor c t (bs.take (shBytes t.r))
  t.flush c true

/-- What an answer from outside makes of a waiting entry: its register writes and its word. Code 0 is an acknowledgement, 5 one whose gate
arrival was dropped (R261), 1 to 4 a refusal (R271). -/
def answer (c : Nat) (e : Entry) (r : Reply) : M (List Wr × Word) := do
  let n := shBytes (e.hd 0).shape
  match e.op with
  | .chPut .. => pure ([], if r.code = 0 then wordOk n else if r.code = 5 then wordGone else wordNak r.code)
  | .chSend .. => pure ([], if r.code = 0 then wordOk 0 else wordNak r.code)
  | .chGet _ _ _ _ _ gen _ =>
    if r.code = 0 then
      landBytes c e r.data
      pure ([], ← genArrival c gen (e.x 0) n (wordOk n))
    else pure ([], wordNak r.code)
  | .chAmo _ _ d _ _ _ _ sz =>
    let v := if sz = 0 then r.val &&& 0xFFFFFFFF else r.val
    pure (if r.code = 0 then ([.s d v], wordOk 0) else ([.s d 0], wordNak r.code))
  | op => match amoDest op with
    | some (d, k) =>
      let old := leNat (r.data.take k)
      pure (if k = 16 then [.s d (BitVec.ofNat 64 old), .s (pairHigh d) (BitVec.ofNat 64 (old / 2 ^ 64))] else [.s d (BitVec.ofNat 64 old)], 0)
    | none => pure ([], r.val)

/-- R271, R396: the aggregated acknowledgement of a multicast. -/
def mcastWord (members naks : List Nat) (code : Nat) : Word :=
  if naks.isEmpty then wordOk members.length
  else cword 7 code (members.length - naks.length + atBit naks.length 10 + atBit (naks.foldl min 511) 20)

/-- R419: an entry's Read command ends, taken (`m`) or aborted: its data lands, and it counts an error. -/
def sioEnd (c : Nat) (e : Entry) (m : Nat → State → State) (sc sct : Nat) (bs : List Byte) : M (List Wr × Word) := do
  match e.op with
  | .sioRead _ _ _ ch _ gen _ =>
    let k ← getCore c
    await c ((← get).qpair (chWin (k.rdCh ch))).cqb
    -- the command is done with, whatever its bytes meet
    modify (m (chWin (k.rdCh ch)))
    landBytes c e bs
    let n := shBytes (e.hd 0).shape
    if sc = 0 ∧ sct = 0 then pure ([], ← genArrival c gen (e.x 0) n (wordOk n))
    else
      modify (fun s =>
        let q := chWin ((s.core c).rdCh ch)
        s.setQpair q { s.qpair q with err := min ((s.qpair q).err + 1) (2 ^ 51 - 1) })
      pure ([], cword 9 sc sct)
  | _ => throw .wait

/-- An entry that waits for an answer takes it: it is done, or it faults, or the answer has to wait. -/
def answerEntry (c i : Nat) (m : Entry → M (List Wr × Word)) (s : State) : State :=
  match (s.core c).q.es[i]? with
  | none => s
  | some e =>
    if e.phase != .pend || !s.hasLeft c e then s
    else match m e s with
      | (.ok (wrs, w), s') => s'.modCore c (fun k => k.finishAt i wrs w)
      | (.error (.trap cause fptr), s') => s'.modCore c (fun k => (k.setEntry i { e with phase := .waiting, held := true }).choose (entryTrap e cause fptr))
      | (.error _, s') => s.heldBack s'

/-- The position of a queue's entry number `n` among a core's incomplete entries. -/
def CoreSt.posIn (k : CoreSt) (q : QId) (n : Nat) : Option Nat := ((k.q.es.zipIdx.filter (fun p => p.1.inQ q)).map Prod.snd)[n]?

/-- R405: a redirected operation: the cache, the slot's copy, the counter; tried again, or refused the fourth time. `dev` and `part` name the
partition's new place. -/
def redirected (c i dev part : Nat) (s : State) : State :=
  match (s.core c).q.es[i]? with
  | none => s
  | some e =>
    if e.phase != .pend || !s.hasLeft c e then s
    else match e.op.chan, e.via with
      | some ch, some (vdev, vop) =>
        let k := s.core c
        let x := k.rdCh ch
        -- the device that answered, and the window that it was asked for
        let key := (vdev, 4096 * vop.part + vop.win)
        let old := s.fab.redir.filter (fun r => r.1 != key)
        let cache := (if old.length < 256 then old else old.drop 1) ++ [(key, (dev, part))]
        let y := BitVec.ofNat 512 (x.toNat - atBit (chDev x) 16 - atBit (chWin x) 32 + atBit (dev % 512) 16 + atBit (4096 * (part % 16) + chWin x % 4096) 32)
        let s1 := { s with fab := { s.fab with redir := cache } }.modPart k.ctx.part (fun p => { p with fb := { p.fb with rdcnt := min (p.fb.rdcnt + 1) (2 ^ 48 - 1) } })
        let s2 := s1.modCore c (fun k => { k with eng := { k.eng with ch := SMap.set 0 k.eng.ch ch.toNat y } })
        if 3 ≤ e.aux then s2.modCore c (fun k => k.finishAt i (match e.op with | .chAmo _ _ d _ _ _ _ _ => [.s d 0] | _ => []) (wordNak 2))
        else s2.modCore c (fun k => k.setEntry i { e with aux := e.aux + 1, phase := .waiting, wrs := [] })
      | _, _ => s

end Sys2Proof.Machine
end

