-- ==== Sys2Proof/Machine/Points.lean ====
section
/-! DEFINITION. Launches and points: `LAUNCH`, `PT.DONE`, `PT.SELF`, `TL.READ` (R265 to R268), the hayward's choice and placement of points (R40,
R43, R44), point start (R46 to R48, R117) and the end of a point (R41, R42, R49, R266). -/

namespace Sys2Proof.Machine

-- ### Tokens that the hayward writes (R265, R365)

/-- A token written into a core from outside its queues. -/
def CoreSt.token (k : CoreSt) (r : SReg) (w : Word) : CoreSt :=
  let k1 := (k.wr r w).clrPend r
  let f := fun (x : Entry) => (x.tokenWritten r).commitWrs [.s r w]
  { k1 with q := { k1.q with es := k1.q.es.map f, heldEs := k1.q.heldEs.map f } }

/-- Bytes of a cut area's first lines (R378), read and written at home. -/
def CutPt.pa (x : CutPt) (off : Nat) : Nat := 256 * x.lines.getD (off / 256) 0 + off % 256

/-- R365: a token of a point in cut state: the saved value of its register, and its pending bit. -/
def tokenInArea (x : CutPt) (r : SReg) (w : Word) (s : State) : State :=
  if r = 0 then s
  else match s.homePut (x.pa (0x200 + 8 * r.toNat)) x.key x.compr (natBytes 8 w.toNat) with
    | .error _ => s
    | .ok s1 =>
      let a := x.pa (0x430 + r.toNat / 8)
      match s1.homeBytes a 1 x.key x.compr with
      | .error _ => s1
      | .ok bs =>
        let b := bs.headD 0 &&& ~~~(1#8 <<< (r.toNat % 8))
        match s1.homePut a x.key x.compr [b] with
        | .ok s2 => s2
        | .error _ => s1

/-- The croft of a partition on which a point runs. -/
def State.croftOf (s : State) (p : Nat) (pt : Point) : Option Nat :=
  (s.part p).crofts.find? (fun c => let k := s.core c; k.ctx.part == p && k.slot.active && k.slot.running == some pt)

/-- R365: where the token of a deferred `LAUNCH` goes. -/
def sendToken (p : Nat) (d : Deferred) (w : Word) (s : State) : State :=
  match d.core with
  | none => s
  | some (c, r) =>
    match d.pt with
    | none => if isBailiff c then s.modCore c (fun k => k.token r w) else s
    | some pt =>
      match s.croftOf p pt with
      | some c => s.modCore c (fun k => k.token r w)
      | none =>
        match ((s.part p).launches.flatMap (fun l => l.cutPts)).find? (fun x => x.pt == pt) with
        | some x => tokenInArea x r w s
        | none => s

-- ### LAUNCH (R265)

/-- R35, R400: a well-formed record is accepted now, not deferred. -/
def State.accepts (s : State) (p : Nat) : Bool :=
  let q := s.part p
  q.launches.length < 64 && q.deferred.isEmpty && (q.mg.st == .run || q.mg.st == .live)

/-- `JAUX` of an acceptance that no ring slot submitted (R441). -/
def noSlot : Nat := 2 ^ 32 - 1

def runLaunch : Perf := fun c e => do
  let ptr := e.x 0
  let off := ptrOffset ptr
  let l ← checkSpan c .copy .rd ptr off (off + 255)
  if off % 256 ≠ 0 then trap .align ptr
  releaseBy c 2 e
  let bs ← homeRead c l .rd ptr off 256
  let s ← get
  let k := s.core c
  let p := k.ctx.part
  let d : Deferred := { rec_ := BitVec.ofNat 2048 (leNat bs), asid := k.ctx.asid, vf := descVf k.ctx.desc, core := some (c, e.td), pt := k.slot.running }
  let code ← judge p k.ctx.asid d.rec_
  if code ≠ 0 then
    reject p d code
    pure (.done [] (cword 2 code 0))
  else if s.accepts p then
    let (lid, s') := accept p d noSlot (← get)
    set s'
    pure (.done [] (wordOk lid))
  else
    modPart p (fun q => { q with deferred := q.deferred ++ [d] })
    pure .handed

/-- R414: slots of a doorbell write that has not been served to its `TAIL` are left. -/
def Bell.owes (b : Bell) (tail : Nat) : Bool :=
  let n := (tail + 2 ^ 32 - b.head) % 2 ^ 32
  b.head != b.tail && 0 < n && n < 2 ^ 31

/-- R414: `HEAD` moves past a slot of ring `i`. -/
def passSlot (p i : Nat) (s : State) : State :=
  s.modPart p (fun q =>
    let b := SMap.get .zero q.bells i
    let b1 := { b with head := (b.head + 1) % 2 ^ 32 }
    { q with bells := SMap.set .zero q.bells i b1, rung := q.rung.filter (fun x => x.1 != i || b1.owes x.2) })

/-- R35: the oldest deferred record is accepted when a place is free. `HEAD` of the ring that held it advances (R414). -/
def acceptDeferred (p : Nat) (s : State) : State :=
  let q := s.part p
  match q.deferred with
  | [] => s
  | d :: rest =>
    if q.launches.length < 64 && (q.mg.st == .run || q.mg.st == .live) then
      let i := s.ctxIndex p d.asid
      let aux := match d.core with | some _ => noSlot | none => (SMap.get .zero q.bells i).head
      let s1 := s.modPart p (fun q => { q with deferred := rest })
      let (lid, s2) := accept p d aux s1
      match d.core with
      | some _ => sendToken p d (wordOk lid) s2
      | none => passSlot p i s2
    else s

-- ### Fireable points (R37, R40)

/-- R37: the coordinates of a predecessor, when they lie in the space. -/
def predOf (r : BitVec 2048) (x y z : Nat) (d : Int × Int × Int) : Option (Nat × Nat × Nat) :=
  let px := (x : Int) - d.1
  let py := (y : Int) - d.2.1
  let pz := (z : Int) - d.2.2
  if 0 ≤ px ∧ px < rcEx r ∧ 0 ≤ py ∧ py < rcEy r ∧ 0 ≤ pz ∧ pz < rcEz r then some (px.toNat, py.toNat, pz.toNat) else none

/-- Point (x, y, z) is done on a launch's treeline (R38). -/
def Launch.doneAt (l : Launch) (x y z : Nat) : Bool := l.tl.done (rcEx l.rec_) x (rowOf l.rec_ y z)

/-- R37, R40: every predecessor is done. -/
def predsDone (ls : List Launch) (l : Launch) (x y z : Nat) : Bool :=
  let r := l.rec_
  (upTo (rcNdep r)).all (fun n => match predOf r x y z (rcDep r n) with
    | some (a, b, c) => l.doneAt a b c
    | none => true) &&
  (!rcXvalid r || (match ls.find? (fun q => q.lid == rcXpred r) with
    | some q => q.doneAt x y z
    | none => true))

/-- The points of a launch that are running, staged or in cut state. -/
def State.heldPoints (s : State) (p : Nat) (l : Launch) : List Point :=
  (s.part p).crofts.flatMap (fun c =>
    let k := s.core c
    if k.ctx.part == p then (k.slot.running.toList ++ k.slot.staged.toList).filter (fun q => q.lid == l.lid) else []) ++ l.cutPts.map CutPt.pt

/-- R40: a point, by inner index and row. -/
def fireable (ls : List Launch) (held : List Point) (l : Launch) (inner row : Nat) : Bool :=
  let y := row % rcEy l.rec_
  let z := row / rcEy l.rec_
  !l.tl.done (rcEx l.rec_) inner row && !held.contains ⟨l.lid, inner, y, z⟩ && l.tl.wbase ≤ row && row < l.tl.wbase + 4096 &&
  row < rowCount l.rec_ && inner < rcEx l.rec_ && inner < l.tl.fAt (rcEx l.rec_) row + 64 && predsDone ls l inner y z

/-- R43: the first fireable point of a launch that runs: lowest row, then lowest inner index. A frozen context fires none (R428). -/
def State.firstFireable (s : State) (p : Nat) (l : Launch) : Option Point :=
  if l.st != .running || s.ctxFrozen l.asid then none
  else
    let ls := (s.part p).launches
    let held := s.heldPoints p l
    let rows := (upTo (min 4096 (rowCount l.rec_ - l.tl.wbase))).map (fun i => l.tl.wbase + i)
    rows.findSome? (fun row =>
      let f := l.tl.fAt (rcEx l.rec_) row
      ((upTo 64).find? (fun i => fireable ls held l (f + i) row)).map (fun i => ⟨l.lid, f + i, row % rcEy l.rec_, row / rcEy l.rec_⟩))

-- ### Placement (R43, R44)

/-- R44, R330, R380: a croft on which a launch's points may be placed. -/
def State.permits (s : State) (p : Nat) (l : Launch) (c : Nat) : Bool :=
  let k := s.core c
  k.ctx.part == p && (s.part p).hset.getLsbD (hamletOf c) && (rcHplace l.rec_).getLsbD (hamletOf c) && !s.mgmt.fenced.getLsbD (hamletOf c) &&
  !k.slot.parked && !k.slot.reqs.any Request.holds && k.slot.roles == 0 && !k.ctl.halted

/-- R44: the croft for a chosen point, and whether it is staged there. -/
def State.placeFor (s : State) (p : Nat) (l : Launch) : Option (Nat × Bool) :=
  let cs := (s.part p).crofts.filter (s.permits p l)
  match cs.find? (fun c => (s.core c).slot.running.isNone) with
  | some c => some (c, false)
  | none => (cs.find? (fun c => (s.core c).slot.staged.isNone)).map (fun c => (c, true))

/-- Puts a point into a slot. -/
def putPoint (c : Nat) (staged : Bool) (pt : Point) (s : State) : State :=
  s.modCore c (fun k => { k with slot := if staged then { k.slot with staged := some pt } else { k.slot with running := some pt, active := false } })

/-- A launch has a point that can be placed now. -/
def State.canFire (s : State) (p : Nat) (l : Launch) : Bool := (s.firstFireable p l).isSome && (s.placeFor p l).isSome

/-- Dispatches the next point of a launch; the credit is what the round leaves it. -/
def dispatchPoint (p lid credit : Nat) (s : State) : State :=
  match (s.part p).launches.find? (fun l => l.lid == lid) with
  | none => s
  | some l =>
    match s.firstFireable p l, s.placeFor p l with
    | some pt, some (c, staged) =>
      (putPoint c staged pt s).modPart p (fun q => { q with launches := q.launches.map (fun x =>
        if x.lid = lid then { x with credit := credit, age := s.cycle.toNat } else x) })
    | _, _ => s

/-- R43: one choice of the hayward: the lowest class with a point to place, then the round among its launches. -/
def firePoint (p : Nat) (s : State) : State :=
  let ready := (s.part p).launches.filter (s.canFire p)
  let cls := (ready.map (fun l => rcPrio l.rec_)).foldl min 4
  let mine := ready.filter (fun l => rcPrio l.rec_ == cls)
  match mine.find? (fun l => 0 < l.credit) with
  | some l => dispatchPoint p l.lid (l.credit - 1) s
  | none =>
    -- a new round: every launch of the class has its full weight
    let s1 := s.modPart p (fun q => { q with launches := q.launches.map (fun x => if rcPrio x.rec_ = cls then { x with credit := rcWeight x.rec_ } else x) })
    match mine with
    | l :: _ => dispatchPoint p l.lid (rcWeight l.rec_ - 1) s1
    | [] => s

/-- Cycles since a launch last had a point dispatched (R43, R377). -/
def Launch.since (l : Launch) (s : State) : Nat := (s.cycle - BitVec.ofNat 64 l.age).toNat

/-- R43: a launch of class 1, 2 or 3 that has waited for 2^24 cycles is served out of turn; the round is as it was. -/
def serveOutOfTurn (p lid : Nat) (s : State) : State :=
  match (s.part p).launches.find? (fun l => l.lid == lid) with
  | some l => if rcPrio l.rec_ ≠ 0 ∧ 2 ^ 24 ≤ l.since s then dispatchPoint p lid l.credit s else s
  | none => s

-- ### Change of context (R117, R259, R261, R339, R340, R376)

/-- The gates of a croft go to the park area of the context that holds them. -/
def parkGates (c : Nat) (s : State) : State :=
  match SMap.get 0 s.gateAsid c with
  | 0 => s
  | a + 1 =>
    let p := (s.core c).ctx.part
    let s1 := (upTo 64).foldl (fun (x : State) g => x.physPut (s.gatePark p a c g) (natBytes 16 (s.gate c g).bits)) s
    { s1 with gates := SMap.clear s1.gates (64 * c) 64, gateAsid := SMap.set 0 s1.gateAsid c 0 }

/-- R428, R431: the park area that a croft's gates go to, or come from, has to be waited for: its address. -/
def State.gatesWait? (s : State) (c p asid : Nat) : Option Nat :=
  let old := match SMap.get 0 s.gateAsid c with | a + 1 => [s.gatePark (s.core c).ctx.part a c 0] | 0 => []
  (old ++ (if isBailiff c then [] else [s.gatePark p asid c 0])).findSome? (fun pa => s.runWaits pa 1024)

/-- R421, R455: the gates of a context that returns to a croft cannot be read. -/
def State.gatesBad (s : State) (c p asid : Nat) : Option LineErr :=
  if isBailiff c then none else match s.phys (s.gatePark p asid c 0) 1024 with | .error e => some e | .ok _ => none

/-- A change of context waits while a line of the L1 or the park area must. -/
def awaitChange (c p asid : Nat) : M Unit := do
  awaitL1 c
  let s ← get
  match s.gatesWait? c p asid with
  | some pa =>
    set (s.freeze asid pa)
    throw .wait
  | none => pure ()

/-- The gates of a context that returns to a croft. -/
def unparkGates (c p asid : Nat) (s : State) : State :=
  let s1 := (upTo 64).foldl (fun (x : State) g => x.setGate c g (Gate.ofBits (s.physNat (s.gatePark p asid c g) 16))) s
  { s1 with gateAsid := SMap.set 0 s1.gateAsid c (asid + 1) }

/-- R117: another context comes to run on a core: its L1 is drained, its gates change hands, its cached buffer entries go, its local
memories hold nothing of the old context (R29). -/
def changeContext (c p asid : Nat) (s : State) : State :=
  let desc := s.descFor p asid
  let s1 := parkGates c (drainL1 c s).2
  let s2 := (if isBailiff c then s1 else unparkGates c p asid s1).storeRewritten c
  s2.modCore c (fun k =>
    { k with ctx := { k.ctx with asid := asid, part := p, desc := desc, bufs := [], imem := s2.mem, ilines := s2.lines },
             loc := { k.loc with store := [], lane := [], hot := [], binds := 0, hotSrc := [] } })

/-- A core runs a context already, and so keeps what it holds of it. -/
def State.runsContext (s : State) (c p asid : Nat) : Bool :=
  let k := s.core c
  k.ctx.part == p && SMap.get 0 s.gateAsid c == asid + 1 && k.ctx.asid == asid

/-- R29: what the local memories of a croft hold at a point start within one context (log entry 4). -/
def Local.keep (tick c : Nat) (l : Local) : Local :=
  { l with store := l.store.filter (fun e => Config.keepByte tick c e.1),
           lane := l.lane.filter (fun e => Config.keepByte tick c (2 ^ 24 + e.1)),
           hot := l.hot.map (fun e => (e.1, if Config.keepByte tick c e.1 then e.2 else some 0)) }

-- ### Point start (R46 to R48)

/-- R48: a table of a launch, as `n` bytes; nothing for the value 0. -/
def readTable (c : Nat) (ptr : Word) (n : Nat) : M (List Byte) := do
  if ptr = 0 then pure []
  else
    let off := ptrOffset ptr
    if !isGlobal ptr then trap .rights ptr
    let l ← checkSpan c .copy .rd ptr off (off + n - 1 : Nat)
    if off % 64 ≠ 0 then trap .align ptr
    match l with
    | .glob b => translatePages c b .rd ptr (pageOffs b off (off + n - 1))
    | _ => pure ()
    readRun c l .rd ptr off n

/-- Record `i` of 64 bytes. -/
def tableRec (bs : List Byte) (i : Nat) : BitVec 512 := BitVec.ofNat 512 (leNat ((bs.drop (64 * i)).take 64))

/-- R47, R251: the handles of a handle table; without one every handle is unbound, and still has its record address. -/
def tableHandles (ptr : Word) (bs : List Byte) : SMap Handle :=
  (upTo 64).foldl (fun m i => SMap.set .unbound m i (bindRecord (tableRec bs i) (advance ptr (64 * i)))) []

/-- R46, R389: the slots of a channel table. -/
def tableSlots (ptr : Word) (bs : List Byte) : SMap (BitVec 512) :=
  if ptr = 0 then [] else (upTo 32).foldl (fun m i => SMap.set 0 m i (slotLoad (tableRec bs) i)) []

/-- R325: a context's value of `DBGCTL`. -/
def State.dbgctl (s : State) (asid : Nat) (desc : BitVec 1024) : Word :=
  match SMap.get 0 s.dbg asid with
  | n + 1 => BitVec.ofNat 64 n
  | 0 => BitVec.ofNat 64 (descDbg desc)

/-- The scalar file at point start (R46). -/
def startFile (r : BitVec 2048) (pt : Point) : ScalarFile :=
  (((({ ScalarFile.zero with pc := rcEntry r }.wr 1 (BitVec.ofNat 64 pt.x)).wr 2 (BitVec.ofNat 64 pt.y)).wr 3 (BitVec.ofNat 64 pt.z)).wr 4 (rcArgs r))

/-- R46, R324: the core as its point starts. -/
def CoreSt.startPoint (k : CoreSt) (r : BitVec 2048) (pt : Point) (dbg : Word) (hs : SMap Handle) (chs : SMap (BitVec 512)) (mem : SMap Byte)
    (lines : SMap LineSt) : CoreSt :=
  { k with
    f := startFile r pt
    pend := 0
    hpend := 0
    ctl := { k.ctl with qslip := qslipReset, dbgctl := dbg, priv := false, inHandler := false, halted := false }
    eng := { v := [], m := [], acc := [], slots := [], h := hs, ch := chs }
    ctx := { k.ctx with imem := mem, ilines := lines }
    slot := { k.slot with csneed := rcCsneed r, rstab := rcRstab r, active := true, ending := false }
    res := CoreSt.cold.res
    q := CoreSt.cold.q }

/-- An error at home that is delivered as ECC counts (R448). -/
def State.countErr (s : State) (e : LineErr) (pa : Nat) : State := if e = .ecc then s.countEcc pa else s

/-- The cause of an error at home. -/
def LineErr.cause : LineErr → Cause
  | .keygone => .keygone
  | .ecc => .ecc
  | .rights => .rights

/-- R46: the point placed in a croft's running slot starts; an unusable descriptor (R339) or a table that fails its check (R48) ends its
launch instead. A point of a suspended launch does not start and leaves its slot (R44). -/
def startPoint (c : Nat) (s : State) : State :=
  let k := s.core c
  let p := k.ctx.part
  match k.slot.running with
  | none => s
  | some pt =>
    if k.slot.active then s
    else match (s.part p).launches.find? (fun l => l.lid == pt.lid) with
      | none => s
      | some l =>
        if l.st != .running then killPoint c s
        else if s.paWaits (s.descAddr p l.asid) then s.freeze l.asid (s.descAddr p l.asid)
        else match s.descRead p l.asid with
        | .error e => finishLaunch p l.lid 3 e.cause.code (s.countErr e (s.descAddr p l.asid))
        | .ok d =>
          if !descUsable (s.part p) d then finishLaunch p l.lid 3 Cause.rights.code s
          else match (if s.runsContext c p l.asid then pure () else awaitChange c p l.asid : M Unit) s,
              (if s.runsContext c p l.asid then none else s.gatesBad c p l.asid) with
          | (.error _, s1), _ => s.heldBack s1
          | (.ok (), _), some e => finishLaunch p l.lid 3 e.cause.code (s.countErr e (s.gatePark p l.asid c 0))
          | (.ok (), _), none =>
            let s := s.touched (s.descAddr p l.asid) 128 0
            let s1 := if s.runsContext c p l.asid then s.modCore c (fun k => { k with loc := k.loc.keep s.tick c }) else changeContext c p l.asid s
            match (do
                acquireD c
                let hb ← readTable c (rcHtab l.rec_) 4096
                let cb ← readTable c (rcCtab l.rec_) 2048
                pure (hb, cb) : M (List Byte × List Byte)) s1 with
            | (.ok (hb, cb), s2) =>
              s2.modCore c (fun k => k.startPoint l.rec_ pt (s2.dbgctl l.asid k.ctx.desc) (tableHandles (rcHtab l.rec_) hb)
                (tableSlots (rcCtab l.rec_) cb) s2.mem s2.lines)
            | (.error (.trap cause _), s2) => finishLaunch p l.lid 3 cause.code s2
            | (.error _, s2) => s.heldBack s2

-- ### PT.DONE (R41, R42, R266)

/-- R41: the hayward applies a completion; a launch whose floor reaches its rows ends. -/
def completePoint (p : Nat) (pt : Point) (s : State) : State :=
  let s1 := s.modPart p (fun q => { q with launches := q.launches.map (fun l =>
    if l.lid = pt.lid then
      { l with tl := l.tl.complete (rcEx l.rec_) (rowCount l.rec_) pt.x (rowOf l.rec_ pt.y pt.z), timedOut := l.timedOut.filter (fun x => x != pt) }
    else l) })
  match s1.launch? p pt.lid with
  | some l =>
    drainsOn p l.lid (if l.tl.floor = rowCount l.rec_ then finishLaunch p l.lid 0 0 s1 else if s1.allTimedOut p l.lid then notifyHay p s1 else s1)
  | none => s1

/-- R266: nothing is left to wait for. -/
def CoreSt.drained (k : CoreSt) : Bool := k.slot.ending && k.q.es.isEmpty && k.pend == 0 && k.loc.promo.isNone && k.q.trap.isNone

/-- R266, R290: `PT.DONE` retires when it can: the stack is unbound, the L1 released, the completion applied. -/
def retirePoint (c : Nat) (s : State) : State :=
  let k := s.core c
  if !k.drained then s
  else match (do let _ ← quiet (unbindStack c false); releaseD c : M Unit) s with
    | (.ok (), s1) =>
      let s2 := s1.modCore c CoreSt.emptied
      match k.slot.running with
      | some pt => completePoint k.ctx.part pt s2
      | none => s2
    | (.error _, s1) => s.heldBack s1

/-- R266, R272: `PT.DONE`. The PC stays at it, so that a point that is cut before it retires executes it again. -/
def execPtDone (h : Hdr) (_ : Toks) (s : State) : Out :=
  let c := s.active
  let k := s.core c
  if k.blockOpen then .next (trapAtIssue c .frame 0 0 s)
  else if isBailiff c then .next (trapAtIssue c .illop 0 0 s)
  else if !k.taken h then .next (s.setCore c (k.next h))
  else
    let s1 := s.setCore c { k with slot := { k.slot with ending := true } }
    .next (if s.eager then retirePoint c s1 else s1)

-- ### PT.SELF and TL.READ

/-- The croft number that a core gives for itself (R267, R352). A bailiff has none: what it gives is open, and the same every time (R5; log
entry 7). -/
def croftNumber (c : Nat) : Nat := if isBailiff c then (Config.freeWord (2 ^ 64 + c)).toNat % 256 else c % 256

/-- R267. -/
def ptSelf (s : State) (c : Nat) : Word :=
  let lid := match (s.core c).slot.running with | some pt => pt.lid | none => 0
  BitVec.ofNat 64 (croftNumber c + atBit s.devid 8 + atBit lid 32)

/-- The registers that a format-T word with no queue uses: it waits for the tokens it names (R21). -/
def toksOf (t : Toks) : List SReg := [t.tw1, t.tw2, t.tw3]

def execPtSelf (h : Hdr) (t : Toks) (d : SReg) (s : State) : Out :=
  reeveUnit h (d :: toksOf t) (fun c => modify (fun s => s.modCore c (fun k => (k.next h).wr d (ptSelf s c)))) s

/-- R270: `CH.QRY` writes at issue. -/
def execChQry (h : Hdr) (t : Toks) (d : SReg) (ch : CReg) (s : State) : Out :=
  reeveUnit h (d :: toksOf t) (fun c => do
    let k ← getCore c
    let x := k.rdCh ch
    if chValid x && chPerm x 1 then let _ ← openWindow c k.ctx.part (chWin x % 4096)
    modify (fun s => s.modCore c (fun k => (k.next h).wr d (chQuery s c ch)))) s

/-- R268, at issue. -/
def tlReadPre : Nat → List Word → List Handle → M Unit := fun c xs _ => do
  let ptr := xs.getD 0 0
  let off := ptrOffset ptr
  let _ ← checkSpan c .copy .wr ptr off (off + 65599)
  check (off % 64 == 0) .align ptr

def runTlRead : Perf := fun c e => do
  let s ← get
  let p := (s.core c).ctx.part
  match (s.part p).launches.find? (fun l => l.lid == natBits (e.x 1).toNat 0 32) with
  | none => pure (.done [] (cword 0xA 0 0))
  | some l =>
    let ptr := e.x 0
    let off := ptrOffset ptr
    let bs := l.saved
    let loc ← checkSpan c .copy .wr ptr off (off + 65599)
    flushSpan c loc true off (off + bs.length - 1)
    match loc with
    | .glob b => translatePages c b .wr ptr (pageOffs b off (off + bs.length - 1))
    | _ => pure ()
    writeRun c loc ptr off bs
    pure (.done [] (wordOk bs.length))

end Sys2Proof.Machine
end

