-- ==== Sys2Proof/Machine/Cut.lean ====
section
/-! DEFINITION. The saved state of a croft (R376 to R379): a cut area as bytes, its checks, and the resumption of a cut point. -/

namespace Sys2Proof.Config

/-- R378, R402: what a held-entry region that another module wrote says; `none`: it is not as it was written. Log entry 21. -/
opaque foreignForm : List Byte → Option Machine.HeldForm

end Sys2Proof.Config

namespace Sys2Proof.Machine

-- ### The block state as registers (R326)

/-- `BLKST`. -/
def CoreSt.blkst (k : CoreSt) : Word :=
  let b := k.f.blk
  let id := match k.res.stack with | some st => st.id | none => 0
  BitVec.ofNat 64 (bitNat b.opened + 2 * b.dir + 8 * (b.seeds % 256) + atBit (bitNat k.res.stack.isSome) 11 + atBit (id % 4096) 12)

-- ### Bytes

/-- The first `n` bytes of a list, with zeros after its end. -/
def padTo (n : Nat) (bs : List Byte) : List Byte := bs.take n ++ List.replicate (n - bs.length) 0

/-- `n` bytes of an area as a number. -/
def areaNum (bs : List Byte) (off n : Nat) : Nat := leNat ((bs.drop off).take n)
def areaWord (bs : List Byte) (off : Nat) : Word := BitVec.ofNat 64 (areaNum bs off 8)

/-- Words of 8 bytes. -/
def wordBytes (ws : List Nat) : List Byte := ws.flatMap (natBytes 8)

-- ### Held entries (R378)

/-- The held-entry region of form number `n` of this module. -/
def heldRegion (devid n : Nat) : List Byte := natBytes 8 (n + 1 + atBit devid 48) ++ (upTo 32760).map (Config.heldForm n)

/-- The form that a held-entry region stands for in a partition; `none`: it has changed since it was written (R379), or it was written for a
point of another partition (R4). -/
def State.formOf (s : State) (p : Nat) (bs : List Byte) : Option HeldForm :=
  let n := areaNum bs 0 8
  if n / 2 ^ 48 = s.devid ∧ n % 2 ^ 48 ≠ 0 then
    (if bs = heldRegion s.devid (n % 2 ^ 48 - 1) then (s.forms[n % 2 ^ 48 - 1]?).filter (fun x => x.part == p) else none)
  else Config.foreignForm bs

/-- The tokens of a point's deferred `LAUNCH` entries. -/
def State.launchTokens (s : State) (p : Nat) (pt : Point) : List (Nat × SReg) :=
  ((s.part p).deferred.zipIdx.filter (fun d => d.1.pt == some pt)).filterMap (fun d => d.1.core.map (fun x => (d.2, x.2)))

-- ### The area (R378)

/-- Accumulator elements in the order of the area. -/
def accOrder : List (Nat × Nat × Nat) :=
  (upTo 8).flatMap (fun t => (upTo 128).flatMap (fun r => (upTo 64).map (fun c => (t, r, c))))

/-- The image of a core that is cut: `k` as it stood, `r` its cut. -/
def cutImage (c devid nform : Nat) (k : CoreSt) (r : CutRes) (priv : Bool) : List Byte :=
  let pt := k.slot.running.getD ⟨0, 0, 0, 0⟩
  let f := r.core.f
  let x := r.core
  let stop := stopRecord k ⟨.preempt, 0, 0, 0, 0, 0, false⟩ r priv k.ctl.inHandler
  let hs := (upTo 64).map (fun i => x.rdH (BitVec.ofNat 6 i))
  let hot := fun (o : Nat) => match x.res.stack with
    | some st => if st.depth - st.cold ≤ (o + 65536 - st.cold % 65536) % 65536 then 0 else SMap.get 0 st.bytes (st.cold + (o + 65536 - st.cold % 65536) % 65536)
    | none => k.storeByte c (0x170000 + o)
  padTo 0x100 (wordBytes [0x10009, k.ctx.asid, pt.lid, k.slot.csneed]) ++ padTo 0x100 (natBytes 256 stop.toNat) ++
  (upTo 64).flatMap (fun i => natBytes 8 (f.rd (BitVec.ofNat 6 i)).toNat) ++
  padTo 0xC00 (wordBytes [(f.p ||| 1).toNat, x.ctl.qslip.toNat, x.blkst.toNat, f.blk.pc.toNat, f.blk.cur, x.loc.epoch.toNat,
    (x.pend ||| pendMask r.kept).toNat, 0]) ++
  (upTo 32).flatMap (fun i => natBytes 256 (x.rdV (BitVec.ofNat 5 i)).toNat) ++
  padTo 0x1000 ((upTo 8).flatMap (fun i => natBytes 16 (x.rdM (BitVec.ofNat 3 i)).toNat)) ++
  hs.flatMap (fun h => natBytes 64 (if h.bound then h.shape.toNat else 0)) ++
  (upTo 32).flatMap (fun i => natBytes 64 (x.rdCh (BitVec.ofNat 5 i)).toNat) ++
  hs.flatMap (fun h => natBytes 8 h.addr.toNat) ++
  padTo 0x600 (natBytes 8 ((hs.zipIdx.map (fun h => if h.1.bad then 2 ^ h.2 else 0)).foldl (· + ·) 0)) ++
  padTo 0x2000 ((upTo 8).flatMap (fun i => natBytes 128 (x.rdSlot (BitVec.ofNat 3 i)).bits)) ++
  padTo 0x8000 (heldRegion devid nform) ++
  accOrder.flatMap (fun e => let a := x.rdAcc e.1 e.2.1 e.2.2; natBytes 4 a.w.toNat ++ natBytes 4 a.h.toNat) ++
  padTo 0x30000 (accOrder.flatMap (fun e => natBytes 2 (x.rdAcc e.1 e.2.1 e.2.2).cnt)) ++
  padTo 0x40000 ((upTo 0x20000).map (fun i => SMap.get 0 x.loc.lane i)) ++
  padTo 0x200000 ((upTo 0x170000).map (fun i => k.storeByte c i) ++ (upTo 0x10000).map hot)

/-- R68: the words of a croft store that is saved whole are read: those that cannot be rebuilt raise ECC. -/
def storeCheck (t : Nat) : M Unit := do
  if (← get).lbad.isEmpty then pure () else localCheck t .croft (mkPtr 0xFFF0 0) 0 0x180000

/-- The bytes of a cut area. -/
def areaSize : Nat := 0x300000

/-- R362, R373: the cut of a core for its area: the image, the core as the point leaves it, and the form of its held entries, which is added
to the module's. The residual stack stays `BUSY`, bound to the cut point (R290). -/
def cutCore (c : Nat) (s : State) : List Byte × State :=
  let s1 := (drainL1 c s).2
  let k := s1.core c
  let r := k.cut
  let pt := k.slot.running.getD ⟨0, 0, 0, 0⟩
  let form : HeldForm := { es := r.kept, cnt := r.core.q.cutCnt, outerEs := k.q.heldEs, outerCnt := k.q.cutCnt, inHandler := k.ctl.inHandler,
                           stack := r.core.res.stack, walk := k.res.walk, outer := k.res.outer, steps := r.core.res.steps, log := r.core.res.log,
                           redo := r.core.res.redo, part := k.ctx.part,
                           tokens := s1.launchTokens k.ctx.part pt }
  let bs := cutImage c s1.devid s1.forms.length k r (s1.privileged c)
  let s2 := { s1 with forms := s1.forms ++ [form] }
  (bs, s2.setCore c k.emptied)

-- ### Resumption of a cut point (R330, R374, R379)

/-- The point of a stop record. -/
def stopPoint (x : BitVec 2048) : Point := ⟨fld x 32 32, fld x 64 24, fld x 96 24, fld x 128 24⟩

/-- The bytes of a run of an area as a map from `base`. -/
def areaMap (bs : List Byte) (off n base : Nat) : SMap Byte :=
  (((bs.drop off).take n).zipIdx.filter (fun e => e.1 != 0)).map (fun e => (base + e.2, e.1))

def areaHandle (bs : List Byte) (bad : Nat) (i : Nat) : Handle :=
  let sh := areaNum bs (0x4000 + 64 * i) 64
  let a := areaWord bs (0x5800 + 8 * i)
  if bad.testBit i then ⟨false, true, 0, a⟩ else if sh = 0 then ⟨false, false, 0, a⟩ else ⟨true, false, BitVec.ofNat 512 sh, a⟩

/-- The engines' registers of an area. -/
def areaEng (bs : List Byte) : EngRegs where
  v := (upTo 32).foldl (fun m i => SMap.set 0 m i (BitVec.ofNat 2048 (areaNum bs (0x1000 + 256 * i) 256))) []
  m := (upTo 8).foldl (fun m i => SMap.set 0 m i (BitVec.ofNat 128 (areaNum bs (0x3000 + 16 * i) 16))) []
  acc := accOrder.foldl (fun m e =>
    let i := 8192 * e.1 + 64 * e.2.1 + e.2.2
    SMap.set .zero m (accKey e.1 e.2.1 e.2.2) ⟨BitVec.ofNat 32 (areaNum bs (0x10004 + 8 * i) 4), BitVec.ofNat 32 (areaNum bs (0x10000 + 8 * i) 4),
      areaNum bs (0x90000 + 2 * i) 2⟩) []
  slots := (upTo 8).foldl (fun m i => SMap.set .clear m i (Nest.ofBits (areaNum bs (0x6000 + 128 * i) 128))) []
  h := (upTo 64).foldl (fun m i => SMap.set .unbound m i (areaHandle bs (areaNum bs 0x5A00 8) i)) []
  ch := (upTo 32).foldl (fun m i => SMap.set 0 m i (BitVec.ofNat 512 (areaNum bs (0x5000 + 64 * i) 64))) []

/-- The scalar file of an area, at the record's PC. -/
def areaFile (bs : List Byte) (pc : Word) : ScalarFile :=
  let st := areaNum bs 0x410 8
  { s := (upTo 64).foldl (fun m i => if i = 0 then m else SMap.set 0 m i (areaWord bs (0x200 + 8 * i))) [],
    p := BitVec.ofNat 8 (areaNum bs 0x400 1) ||| 1, pc := pc,
    blk := ⟨st.testBit 0, natBits st 1 2, areaWord bs 0x418, areaNum bs 0x420 8, natBits st 3 8⟩ }

/-- R370, R378: a core as its cut point resumes on it. -/
def CoreSt.restore (k : CoreSt) (bs : List Byte) (form : HeldForm) (l : Launch) (dbg : Word) : CoreSt :=
  let x := BitVec.ofNat 2048 (areaNum bs 0x100 256)
  let r := StopRec.of x
  let pend := BitVec.ofNat 64 (areaNum bs 0x430 8)
  -- tokens that came meanwhile stand in the area; the entries' committed files take them too (R363, R365)
  let came := (form.tokens.map Prod.snd).filter (fun r => r != 0 && !pend.getLsbD r.toNat)
  let told := Entry.commitWrs (came.map (fun r => Wr.s r (areaWord bs (0x200 + 8 * r.toNat))))
  let es := (form.es.map (Entry.resume r)).map (fun e => told (e.stillWaits pend))
  let hot : SMap (Option Byte) := if form.stack.isSome then [] else (upTo 0x10000).map (fun i => (0x170000 + i, some (bs.getD (0x270000 + i) 0)))
  { k with
    f := areaFile bs r.pc
    pend := pend
    hpend := hpendMask es
    ctl := { k.ctl with qslip := areaWord bs 0x408, dbgctl := dbg, priv := x.getLsbD 11, inHandler := x.getLsbD 12, halted := l.st == .halted || l.dhalt }
    eng := areaEng bs
    loc := { k.loc with store := areaMap bs 0x100000 0x170000 0, lane := areaMap bs 0xC0000 0x20000 0, hot := hot, epoch := BitVec.ofNat 5 (areaNum bs 0x428 1),
                        plog := [] }
    slot := { k.slot with running := some (stopPoint x), csneed := areaNum bs 24 8, rstab := rcRstab l.rec_, active := true, ending := false }
    res := { stack := form.stack, walk := form.walk, outer := form.outer, steps := form.steps, log := form.log, redo := form.redo }
    q := { es := es, issued := form.cnt, sup := some r.sup, trap := none, heldEs := form.outerEs.map told, cutCnt := form.outerCnt } }

/-- R379: an area that may be restored: its launch and the form of its held entries. -/
def State.areaOk (s : State) (p : Nat) (bs : List Byte) : Option (Launch × HeldForm) :=
  let q := s.part p
  let asid := natBits (areaNum bs 8 8) 0 16
  let x := BitVec.ofNat 2048 (areaNum bs 0x100 256)
  let pt := stopPoint x
  match q.launches.find? (fun l => l.lid == natBits (areaNum bs 16 8) 0 32), s.formOf p ((bs.drop 0x8000).take 0x8000) with
  | some l, some form =>
    if areaNum bs 0 8 = 0x10009 && q.tb.asidbase ≤ asid && asid < q.tb.asidbase + q.tb.ctxcnt && l.asid == asid && l.st != .running && l.st != .ending && pt.lid == l.lid &&
       !l.doneAt pt.x pt.y pt.z && !(q.crofts.any (fun c => let k := s.core c; k.ctx.part == p && (k.slot.running == some pt || k.slot.staged == some pt))) then
      some (l, form)
    else none
  | _, _ => none

/-- Restores an accepted area onto a free croft (R330, R374): another context's residue goes first (R117), the descriptor is read again (R339). -/
def restoreArea (t p : Nat) (bs : List Byte) (l : Launch) (form : HeldForm) (s : State) : State :=
  let s1 := (if s.runsContext t p l.asid then (acquireD t s).2 else changeContext t p l.asid s).storeRewritten t
  let desc := s1.descFor p l.asid
  let s2 := s1.modCore t (fun k =>
    let k1 := k.restore bs form l (s1.dbgctl l.asid desc)
    { k1 with ctx := { k1.ctx with desc := desc, imem := s1.mem, ilines := s1.lines } })
  let pt := stopPoint (BitVec.ofNat 2048 (areaNum bs 0x100 256))
  s2.modPart p (fun q => { q with launches := q.launches.map (fun x =>
    if x.lid = l.lid then { x with cutPts := x.cutPts.filter (fun y => y.pt != pt) } else x) })

/-- Records that a point is in cut state. -/
def noteCut (p : Nat) (x : CutPt) (s : State) : State :=
  s.modPart p (fun q => { q with launches := q.launches.map (fun l => if l.lid = x.pt.lid then { l with cutPts := l.cutPts ++ [x] } else l) })

end Sys2Proof.Machine
end

