-- ==== Sys2Proof/Machine/Preempt.lean ====
section
/-! DEFINITION. Pre-emption (R371 to R375, R380) and the words that cut, restore and park crofts (R330, R331). -/

namespace Sys2Proof.Machine

-- ### The launch slot (R377)

def State.slotBase (s : State) (p : Nat) (l : Launch) : Nat := descPark (s.descOf p l.asid) + 0x100000 + 0x20000 * l.place

/-- The launch slot's bytes, up to the end of the treeline. -/
def Launch.slotBytes (l : Launch) (s : State) : List Byte :=
  let areas := l.cutPts.filterMap CutPt.area
  let w0 := l.lid + atBit l.place 32 + atBit (if l.dhalt then 2 else 1) 38
  padTo 0x100 (natBytes 256 l.rec_.toNat) ++
  padTo 0x100 (wordBytes [w0, l.credit % 16, min (l.since s) (2 ^ 24 - 1), areas.length, if rcXvalid l.rec_ then rcXpred l.rec_ else 0, 0, 0, 0]) ++
  padTo 0xE00 (wordBytes areas) ++ l.saved

/-- R372 step 3, R373: when no point of a draining launch runs any more, its slot is written and it is suspended. -/
def drainEnd (p lid : Nat) (s : State) : State :=
  match s.launch? p lid with
  | none => if s.inCmd p lid 1 then endCmd p 1 s else s
  | some l =>
    if l.st != .draining || !(s.runners p lid).isEmpty || (s.runWaits (s.slotBase p l) 0x20000).isSome then s
    else
      let s1 := s.physPut (s.slotBase p l) (l.slotBytes s)
      let s2 := modLaunch p lid (fun l => { l with st := .suspended }) s1
      if s.inCmd p lid 1 then endCmd p 0 s2 else s2

/-- R45, R372: a launch is suspended and drains. -/
def startDrain (p lid : Nat) (s : State) : State :=
  modLaunch p lid (fun l => { l with st := .draining }) (withdrawAll p lid s)

-- ### The cut pool (R373, R376)

def State.poolBase (s : State) (p asid : Nat) : Nat := natBits (s.physNat (descPark (s.descOf p asid)) 8) 0 50
def State.poolCnt (s : State) (p asid : Nat) : Nat := natBits (s.physNat (descPark (s.descOf p asid) + 8) 8) 0 16
/-- R421: the header of the park area cannot be read. -/
def State.poolBad (s : State) (p asid : Nat) : Bool := match s.phys (descPark (s.descOf p asid)) 16 with | .error _ => true | .ok _ => false
def State.poolArea (s : State) (p asid i : Nat) : Nat := s.poolBase p asid + areaSize * i

/-- The next free area of a context's pool; none when the pool's place cannot be read. -/
def State.freeArea (s : State) (p asid : Nat) : Option Nat :=
  let used := ((s.part p).launches.filter (fun l => l.asid == asid)).flatMap (fun l => l.cutPts.filterMap CutPt.area)
  if s.poolBad p asid then none else (upTo (s.poolCnt p asid)).find? (fun i => !used.contains i)

/-- The cut record of a point in a pool area. -/
def poolPoint (pt : Point) (i pa : Nat) : CutPt := { pt := pt, area := some i, lines := (upTo 5).map (fun j => pa / 256 + j), key := 0, compr := false }

/-- R373: the hard cut of a croft, into the pool; without a free area the launch ends, and with it the command. So it does, with ECC, when a word of
the croft's store cannot be read (R68; log entry 105). A context that waits on a stack in self-refresh is frozen (R428). -/
def hardCut (c : Nat) (s : State) : State :=
  let k := s.core c
  let p := k.ctx.part
  match k.slot.running with
  | none => s
  | some pt =>
    match s.freeArea p k.ctx.asid with
    | none => finishLaunch p pt.lid 3 Cause.preempt.code s
    | some i =>
      let pa := s.poolArea p k.ctx.asid i
      match s.runWaits pa areaSize, (do awaitL1 c; storeCheck c : M Unit) s with
      | some a, _ => s.freeze k.ctx.asid a
      | none, (.error (.trap _ _), s1) => finishLaunch p pt.lid 3 Cause.ecc.code s1
      | none, (.error _, s1) => s.heldBack s1
      | none, (.ok (), s1) =>
        let (bs, s1) := cutCore c s1
        noteCut p (poolPoint pt i pa) (s1.physPut pa bs)

/-- The mark of a cut at drain-timeout expiry, among traps. -/
def drainTrap : TrapRec := ⟨.preempt, 1, 0, 0, 0, 0, false⟩

/-- A croft whose point is to be hard-cut is cut once what had started has completed (R362, R373). -/
def tryHardCut (c : Nat) (s : State) : State :=
  let k := s.core c
  if k.q.trap == some drainTrap && k.cutReady then
    match k.slot.running with
    | some pt => drainEnd k.ctx.part pt.lid (hardCut c s)
    | none => s
  else s

/-- R373: the drain timeout of a launch expires. -/
def drainExpire (p lid : Nat) (s : State) : State :=
  match s.launch? p lid with
  | none => s
  | some l =>
    if l.st != .draining then s
    else
      let s1 := (s.runners p lid).foldl (fun a c =>
        if rcRestart l.rec_ then killPoint c a
        else tryHardCut c (a.modCore c (fun k => { k with q := { k.q with trap := some drainTrap } }))) s
      drainEnd p lid s1

-- ### RESUME (R374)

/-- A free croft for a cut point, whose L1 can be drained and whose gates can change hands. -/
def State.freeCroft (s : State) (p : Nat) (l : Launch) : Option Nat :=
  (s.part p).crofts.find? (fun c => s.permits p l c && (s.core c).slot.running.isNone && (s.core c).slot.staged.isNone &&
    (s.runsContext c p l.asid || (!s.l1Waits c && (s.gatesWait? c p l.asid).isNone)))

/-- How a RESUME stands: it ends with a result, or waits, with these areas still to be restored. -/
inductive Resumed where
  | ends (res : Nat)
  | waits (areas : List Nat)
deriving DecidableEq, Repr

/-- Restores cut points from their areas: ends with 0 when all are restored, with 2 when one is refused; waits while no croft is free. -/
def restoreAll (p lid : Nat) : List Nat → State → Resumed × State
  | [], s => (.ends 0, s)
  | i :: is, s =>
    match s.launch? p lid with
    | none => (.ends 1, s)
    | some l =>
      let pa := s.poolArea p l.asid i
      match s.runWaits pa areaSize, s.phys pa areaSize, s.descRead p l.asid with
        | some a, _, _ => (.waits (i :: is), s.freeze l.asid a)
        | none, .error e, _ => (.ends 2, s.countErr e pa)
        | none, _, .error e => (.ends 2, s.countErr e (s.descAddr p l.asid))
        | none, .ok bs, .ok _ =>
          match s.areaOk p bs, s.freeCroft p l with
          | none, _ => (.ends 2, s)
          | some _, none => (.waits (i :: is), s)
          | some (l', form), some t =>
            if !s.runsContext t p l.asid && (s.gatesBad t p l.asid).isSome then (.ends 2, s) else restoreAll p lid is (restoreArea t p bs l' form s)

/-- R374 step 1: the launch slot of a suspended launch is read: treeline, credit and age, and the areas of the cut points to be restored. A slot that
cannot be read is refused as its image is. An image that has every row complete and none listed passes R55; the launch then runs on, and ends no
sooner than one of its points completes (log entry 109). -/
def readSlotOf (p : Nat) (l : Launch) (s : State) : Option State :=
  let base := s.slotBase p l
  match (match s.phys base 0x11040 with
    | .error _ => none
    | .ok bs => (if s.poolBad p l.asid then none else restoreTreeline l ((bs.drop 0x1000).take 65600))) with
  | none => none
  | some tl =>
    let n := natBits (s.physNat (base + 0x118) 8) 0 9
    let listed := (upTo n).map (fun i => natBits (s.physNat (base + 0x200 + 8 * i) 8) 0 16)
    let areas := listed.filter (fun i => l.cutPts.any (fun x => x.area == some i))
    let since := natBits (s.physNat (base + 0x110) 8) 0 24
    let credit := natBits (s.physNat (base + 0x108) 8) 0 4
    some (modLaunch p l.lid (fun l => { l with tl := tl, credit := credit, age := (s.cycle - BitVec.ofNat 64 since).toNat, restore := some areas }) s)

/-- R374: a suspended launch is restored, as far as that goes now. The slot is read once; a restore that had to wait goes on from the areas that
are left. -/
def resumeLaunch (p lid : Nat) (s : State) : Resumed × State :=
  match s.launch? p lid with
  | none => (.ends 1, s)
  | some l =>
    if l.st != .suspended then (.ends 3, s)
    else if l.restore.isNone && (s.runWaits (s.slotBase p l) 0x20000).isSome then (.waits [], s)
    else match (if l.restore.isSome then some s else readSlotOf p l s) with
      | none => (.ends 2, s)
      | some s1 =>
        let areas := match s1.launch? p lid with | some l => l.restore.getD [] | none => []
        let (r, s2) := restoreAll p lid areas s1
        match r with
        | .waits is => (r, modLaunch p lid (fun l => { l with restore := some is }) s2)
        | .ends res => (r, modLaunch p lid (fun l =>
            if res = 0 then { l with restore := none, st := if l.dhalt then .halted else .running, dhalt := false } else { l with restore := none }) s2)

-- ### The commands

/-- Halts, or releases, the reeves of a launch's running points (R375). -/
def haltReeves (p lid : Nat) (b : Bool) (s : State) : State :=
  (s.runners p lid).foldl (fun a c => a.modCore c (fun k => { k with ctl := { k.ctl with halted := b } })) s

/-- R372 to R375: the pre-emption command in progress goes on as far as it can. One on a launch that is ending ends with that launch, which
still runs until then. -/
def stepPre (p : Nat) (s : State) : State :=
  let b := (s.part p).pb
  if !b.busy then s
  else match s.launch? p b.slid with
    | none => endCmd p 1 s
    | some l =>
      let st := if (s.part p).mg.st == .freezing then LState.suspended else l.st
      if l.st == .ending then stepEnds p s
      else if b.sop = 1 then
        if st == .running then drainEnd p l.lid (startDrain p l.lid s)
        else if st == .draining then drainEnd p l.lid s
        else endCmd p 3 s
      else if b.sop = 2 then
        match resumeLaunch p l.lid s with
        | (.waits _, s1) => s1
        | (.ends res, s1) => endCmd p res s1
      else if b.sop = 3 then
        if l.st == .running then
          endCmd p 0 (haltReeves p l.lid true (modLaunch p l.lid (fun l => { l with st := .halted }) (withdrawAll p l.lid s)))
        else endCmd p 3 s
      else if b.sop = 4 then
        if l.st == .halted then endCmd p 0 (haltReeves p l.lid false (modLaunch p l.lid (fun l => { l with st := .running }) s)) else endCmd p 3 s
      else finishLaunch p l.lid 3 Cause.preempt.code s

/-- A command given and carried on: what a pre-emption event does. -/
def preCommand (p lid op : Nat) (s : State) : State :=
  let (started, s1) := startCmd p lid op s
  if started || s.inCmd p lid op then stepPre p s1 else s

/-- R380: a role command. -/
def roleCmd (p c : Nat) (roles : BitVec 5) (halt : Bool) (s : State) : State :=
  let s1 := s.modPart p (fun q => { q with pb := { q.pb with dcroft := c } })
  if !(s.part p).hset.getLsbD (hamletOf c) || isBailiff c then s1
  else s1.modCore c (fun k =>
    if halt then { k with slot := { k.slot with roles := k.slot.roles ||| roles } }
    else { k with slot := { k.slot with roles := k.slot.roles &&& ~~~roles } })

-- ### CUT.SAVE, CUT.LOAD, PARK, WAKE (R329 to R331)

/-- A faulting pointer that no rule states (log entry 7). -/
def openPtr : M Word := do return Config.freeWord (← get).tick

/-- R329: the target croft of a word. -/
def target (c : Nat) (x : Word) : M Nat := do
  let s ← get
  let t := targetCroft x
  check (targetDev x == s.devid && (s.part (s.core c).ctx.part).hset.getLsbD (hamletOf t)) .rights (← openPtr)
  pure t

/-- R329: the release that a word of these majors begins with. -/
def sysRelease (c : Nat) (e : Entry) : M Unit := if e.passed then pure () else releaseBy c 2 e

/-- R330: an area operand: its place. -/
def areaAt (c : Nat) (a : Acc) (ptr : Word) : M (Loc × Nat) := do
  let off := ptrOffset ptr
  check (isGlobal ptr) .rights ptr
  let l ← checkSpan c .copy a ptr off (off + areaSize - 1 : Nat)
  check (off % 65536 == 0) .align ptr
  match l with
  | .glob b => translatePages c b a ptr (pageOffs b off (off + areaSize - 1))
  | _ => pure ()
  pure (l, off)

/-- The first lines of an area in a global buffer (R365). -/
def areaLines (c : Nat) (l : Loc) (ptr : Word) (off : Nat) : List Nat → M (List Place)
  | [] => pure []
  | i :: is => do
    match l with
    | .glob b => do
      let pl ← translate c b (bufBase b + off + 256 * i) .wr ptr
      pure (pl :: (← areaLines c l ptr off is))
    | _ => pure []

-- Requests at a target (R330)

/-- The target holds a point, or a role of it is halted (R330, R380). -/
def CoreSt.occupied (k : CoreSt) : Bool := k.slot.running.isSome || k.slot.staged.isSome || k.slot.roles != 0

/-- The request of an entry at a target. -/
def Request.of (c : Nat) (e : Entry) (holds : Bool) : Request := ⟨c, e.seq.lq, holds⟩

/-- An entry's request has reached croft `t`, after those that came before it; answers whether its turn has come. -/
def request (t : Nat) (r : Request) : M Bool := do
  modCore t (fun k => if k.slot.reqs.contains r then k else { k with slot := { k.slot with reqs := k.slot.reqs ++ [r] } })
  pure ((← getCore t).slot.reqs.head? == some r)

/-- The request is no more. -/
def answerRequest (t : Nat) (r : Request) : M Unit :=
  modCore t (fun k => { k with slot := { k.slot with reqs := k.slot.reqs.filter (fun x => x != r) } })

/-- Work of an entry whose request stands at its target: it ends with the work's trap; while the work has to wait it keeps its turn. -/
def holding {α : Type} (t : Nat) (r : Request) (stop : Stop) (m : M α) : M α := do
  let s0 ← get
  match ← tryM m with
  | .ok x => pure x
  | .error (.trap cause ptr) => do
    answerRequest t r
    trap cause ptr
  | .error .wait => do
    modify (fun s => s0.heldBack s)
    throw stop
  | .error x => throw x

/-- R330: from its start on an entry's request stands at its target. It has its checks and its release, waits until it is served, then does what it
asks for. -/
def served {α β : Type} (t : Nat) (r : Request) (first : M β) (ready : M Bool) (m : β → M α) : M α := do
  let head ← request t r
  let b ← holding t r .kept first
  if !head then throw .sent
  if !(← ready) then throw .sent
  let x ← holding t r .sent (m b)
  answerRequest t r
  pure x

/-- The area of a word, and its release. -/
def areaReady (c : Nat) (e : Entry) (a : Acc) : M (Loc × Nat) := do
  let x ← areaAt c a (e.x 1)
  sysRelease c e
  pure x

/-- A mark that a `CUT.SAVE` sets on its target. -/
def saveTrap : TrapRec := ⟨.preempt, 0, 0, 0, 0, 0, false⟩

def runCutSave : Perf := fun c e => do
  let t ← target c (e.x 0)
  let ready : M Bool := do
    modCore t (fun k => if k.slot.active then k.choose saveTrap else k)
    let k ← getCore t
    pure (!k.slot.active || (k.q.trap == some saveTrap && k.cutReady && t != c))
  served t (.of c e false) (areaReady c e .wr) ready (fun (l, off) => do
    let k ← getCore t
    match (if k.slot.active then k.slot.running else none) with
    | none => pure (.done [] (wordOk 0))
    | some pt => do
        let ls ← areaLines c l (e.x 1) off (upTo 5)
        flushSpan c l true off (off + areaSize - 1)
        awaitL1 t
        storeCheck t
        let (bs, s1) := cutCore t (← get)
        set s1
        writeRun c l (e.x 1) off bs
        let x : CutPt := { pt := pt, area := none, lines := ls.map (fun pl => pl.pa / 256), key := (ls.map Place.key).headD 0,
                           compr := (ls.map Place.compr).headD false }
        modify (noteCut k.ctx.part x)
        pure (.done [] (wordOk areaSize)))

def runCutLoad : Perf := fun c e => do
  let t ← target c (e.x 0)
  served t (.of c e true) (areaReady c e .rd) (do pure !(← getCore t).occupied) (fun (l, off) => do
    flushSpan c l false off (off + areaSize - 1)
    let bs ← readRun c l .rd (e.x 1) off areaSize
    let s ← get
    let p := (s.core c).ctx.part
    match s.areaOk p bs with
    | none => trap .rights (e.x 1)
    | some (la, form) => do
      if !s.runsContext t p la.asid then
        awaitChange t p la.asid
        match s.gatesBad t p la.asid with
        | some x => walkErr x (s.gatePark p la.asid t 0) 0
        | none => pure ()
      await c (s.descAddr p la.asid)
      match s.descRead p la.asid with
      | .error x => walkErr x (s.descAddr p la.asid) 0
      | .ok _ => pure ()
      set (restoreArea t p bs la form s)
      pure (.done [] (wordOk areaSize)))

def runPark : Perf := fun c e => do
  let t ← target c (e.x 0)
  served t (.of c e true) (sysRelease c e) (do
    let k ← getCore t
    pure (k.slot.running.isNone && k.slot.staged.isNone)) (fun _ => do
    drainL1 t
    modCore t (fun k => { k with slot := { k.slot with parked := true, gated := true } })
    pure (.done [] (wordOk 0)))

def runWake : Perf := fun c e => do
  let t ← target c (e.x 0)
  served t (.of c e false) (sysRelease c e) (pure true) (fun _ => do
    modCore t (fun k =>
      let k1 := { k with slot := { k.slot with parked := false, gated := false } }
      if k.slot.gated then k1 else { k1 with ctl := { k1.ctl with bevt := k1.ctl.bevt ||| 8 } })
    pure (.done [] (wordOk 0)))

end Sys2Proof.Machine
end

