-- ==== Sys2Proof/Machine/Fabric.lean ====
section
/-! DEFINITION. The fabric as the module serves it: admission of remote operations (R391 to R394, R405, R408), window commands (R398), links (R386),
page pulls and forwarded atomics (R349, R403). -/

namespace Sys2Proof

/-- The bit of `WPERM` that an operation needs (R391). -/
def RKind.permBit : RKind → Nat
  | .put => 3 | .get => 4 | .amo => 5 | .mcast => 6 | .send => 7

/-- The gate at which an operation arrives. -/
def RemoteOp.arrival (op : RemoteOp) : Option Word := if (op.kind = .put ∨ op.kind = .mcast) ∧ op.len ≠ 0 then op.gate else none

end Sys2Proof

namespace Sys2Proof.Machine

-- ### Admission (R392)

/-- What the port decides of an operation: refused with a code; refused because its window cannot be read; sent on; not admitted yet; admitted
through a window. -/
inductive Admit where
  | nak (code : Nat)
  | bad (e : LineErr)
  | moved (dev part : Nat)
  | wait
  | ok (w : BitVec 256)
deriving DecidableEq, Repr

/-- R391: no reserved field of a window is set. -/
def winReservedZero (x : BitVec 256) : Bool := fld x 28 36 == 0 && fld x 140 20 == 0 && fld x 224 32 == 0

/-- The sends of a window's queue that are admitted and not yet performed: each has its message slot (R392). -/
def State.admittedSends (s : State) (p w : Nat) : Nat :=
  (s.fab.admitted.filter (fun x => x.op.kind == .send && x.op.part == p && x.op.win == w)).length

/-- R392 steps 1 to 3, and what migration makes of them (R400, R405). -/
def State.admission (s : State) (op : RemoteOp) : Admit :=
  let q := s.part op.part
  if !q.prov || 16 ≤ op.part then .nak 2
  else if q.mg.st = .frozen ∨ q.mg.st = .armed ∨ q.mg.st = .loaded then .wait
  else if q.mg.st = .sent ∨ q.mg.st = .released then .moved q.mg.peer q.mg.part
  else if s.paWaits (s.winAddr op.part op.win) then .wait
  else match s.windowErr op.part op.win with
  | some e => .bad e
  | none =>
    let x := s.window op.part op.win
    if q.fb.incnt ≤ op.win || winSt x = 0 || !winReservedZero x || !(x.getLsbD 8 || fld x 9 9 == op.src) then .nak 2
    else if winSt x = 2 then .nak 1
    else if winSt x = 3 then .nak 3
    else if !x.getLsbD op.kind.permBit || (op.kind = .send && !(winQueue x && op.len ≤ winQsz x)) then .nak 4
    else if op.kind = .send && 2 ^ winQlog x ≤ winPending x + s.admittedSends op.part op.win then .wait
    else .ok x

/-- The rights that an operation needs (R269). -/
def remoteAcc (op : RemoteOp) : Acc := match op.kind with | .get => .rd | .amo => .at | _ => .wr

/-- The runs of bytes that an operation reaches through a window: pointer, offset, length. `m` is the number of its message. -/
def remoteRuns (op : RemoteOp) (w : BitVec 256) (m : Nat) : List (Word × Nat × Nat) :=
  match op.kind with
  | .send => let q := winQptr w; [(q, ptrOffset q + winSlot w m, op.len), (q, ptrOffset q + winLen w m, 4)]
  | _ => [(op.ptr, ptrOffset op.ptr, op.len)]

/-- R59 step 5 for an operation that arrives: every page is mapped with the right, or is to be pulled. -/
def judgePages (c : Nat) (b : BitVec 256) (a : Acc) (ptr : Word) : List Nat → M Unit
  | [] => pure ()
  | off :: offs => do
    let s ← get
    let va := bufBase b + off
    match s.leafAt c va a with
    | .held pa => do await c pa; throw .wait
    | .failed e pa => walkErr e pa ptr
    | .unmapped _ _ => trap .xlate ptr
    | .leaf e level _ =>
      check (leafGrants a e) .rights ptr
      if ptePull e then check (!s.pullGone.contains ((s.core c).ctx.asid, va / 65536)) .xlate ptr
      else check (!s.refuses b (leafPa e level va)) .rights ptr
    judgePages c b a ptr offs

/-- R392 step 4 on one run. -/
def judgeRun (c : Nat) (a : Acc) (ptr : Word) (off n : Nat) : M Unit := do
  if !isGlobal ptr then trap .rights ptr
  else if n = 0 then pure ()
  else
    let l ← checkSpan c .copy a ptr off (off + n - 1 : Nat)
    if a == .at && off % n ≠ 0 then trap .align ptr
    match l with
    | .glob b => judgePages c b a ptr (pageOffs b off (off + n - 1))
    | _ => trap .rights ptr

def judgeRuns (c : Nat) (a : Acc) : List (Word × Nat × Nat) → M Unit
  | [] => pure ()
  | (ptr, off, n) :: r => do
    judgeRun c a ptr off n
    judgeRuns c a r

/-- A run of an operation, with its pages there. -/
def openRun (c : Nat) (a : Acc) (x : Word × Nat × Nat) : M Loc := do
  let l ← checkSpan c .copy a x.1 x.2.1 (x.2.1 + x.2.2 - 1 : Nat)
  match l with
  | .glob b => translatePages c b a x.1 (pageOffs b x.2.1 (x.2.1 + x.2.2 - 1))
  | _ => trap .rights x.1
  pure l

def openRuns (c : Nat) (a : Acc) : List (Word × Nat × Nat) → M (List Loc)
  | [] => pure []
  | x :: r => do
    let l ← (if x.2.2 = 0 then pure .port else openRun c a x : M Loc)
    let ls ← openRuns c a r
    pure (l :: ls)

def writeRuns (c : Nat) : List ((Word × Nat × Nat) × Loc) → List (List Byte) → M Unit
  | (x, l) :: r, bs :: bss => do
    if !bs.isEmpty then writeRun c l x.1 x.2.1 bs
    writeRuns c r bss
  | _, _ => pure ()

/-- R393: an admitted operation is performed in full: its old value and its bytes. What it writes, its device has written (R127). -/
def performRemote (op : RemoteOp) (w : BitVec 256) (c : Nat) : M (Nat × List Byte) := do
  modify (fun s => { s with author := some (fabricAgent op.src) })
  let xs := remoteRuns op w (winTail w)
  let ls ← openRuns c (remoteAcc op) xs
  let (ptr, off, n) := xs.headD (0, 0, 0)
  let l := ls.headD .port
  match op.kind with
  | .get => do
    let bs ← (if n = 0 then pure [] else readRun c l .rd ptr off n : M (List Byte))
    pure (0, bs)
  | .amo => do
    let old ← atomicAt c l .at ptr off n 2 (fun old => (AmoOp.ofNum op.op).new n old op.x op.y)
    pure (old, [])
  | _ => do
    writeRuns c (xs.zip ls) [op.data.take n, natBytes 4 n]
    pure (0, [])

def outPut (x : FabOut) (s : State) : State := { s with fab := { s.fab with out := s.fab.out ++ [x] } }

/-- R270, R408: after the last write, the gate's arrival; the code of the answer: 5 when it was dropped, which a multicast does not show. -/
def remoteGate (op : RemoteOp) (asid : Nat) (s : State) : Nat × State :=
  match op.arrival with
  | some g =>
    let (ok, s1) := s.arrive op.part asid (gateCroft g) (gateNum g) op.len
    (if ok || op.kind == .mcast then 0 else 5, s1)
  | none => (0, s)

/-- Two messages of one slot (R393): of the same croft, to the same window. -/
def sameSlot (a b : RemoteOp) : Bool :=
  a.kind == .send && b.kind == .send && a.src == b.src && a.tag == b.tag && a.part == b.part && a.win == b.win

/-- R403: an admitted atomic on a page that is elsewhere: its home device, and the address. -/
def farAtomic (op : RemoteOp) (c : Nat) : M (Option (Nat × Nat)) := do
  if op.kind != .amo then pure none
  else
    let off := ptrOffset op.ptr
    let l ← checkSpan c .copy .at op.ptr off (off + op.len - 1 : Nat)
    pullPage c l off .at

/-- Whether the line of an admitted atomic is reached as a compressible one. -/
def farCompr (op : RemoteOp) (c : Nat) : M Bool := do
  let off := ptrOffset op.ptr
  pure (← checkSpan c .copy .at op.ptr off (off + op.len - 1 : Nat)).compr

def keepAdmitted (x : Admitted) (s : State) : State := { s with fab := { s.fab with admitted := s.fab.admitted ++ [x] } }

/-- An admitted operation goes on (R392, R393, R403): it is performed and answered; forwarded, an atomic, to its page's home device, which answers;
or still waits. What has become of its mapping since is a REMFAULT. -/
def serveRemote (x : Admitted) (s : State) : State :=
  let op := x.op
  let p := op.part
  let ctx := winCtx x.win
  let asid := (s.part p).tb.asidbase + ctx
  -- its message is numbered by the queue as it stands
  let w := if op.kind = .send then s.window p op.win else x.win
  if x.fwd = 1 || s.paWaits (s.descAddr p asid) || s.fab.admitted.any (fun y => sameSlot y.op op) || op.arrival.any (fun g =>
      s.gateWaits p asid (gateCroft g) (gateNum g)) then keepAdmitted x s
  else if (s.part p).tb.ctxcnt ≤ ctx || !descUsable (s.part p) (s.descOf p asid) then outPut (.answer op 4 0 []) s
  else match (if x.fwd = 0 then inContext p asid (farAtomic op) s else (.ok none, s)) with
    | (.error (.trap _ _), _) => outPut (.answer op 4 0 []) s
    | (.error _, s1) => keepAdmitted x (s.heldBack s1)
    | (.ok (some (dev, va)), _) =>
      let compr := match inContext p asid (farCompr op) s with | (.ok b, _) => b | _ => false
      keepAdmitted { x with fwd := 1 } (outPut (.forward dev { ctx := ctx, va := va, op := op.op, size := op.len, x := op.x, y := op.y, tag := hayCore p, compr := compr }) s)
    | (.ok none, _) =>
      match inContext p asid (performRemote op w) s with
      | (.ok (old, bs), s1) =>
        let (code, s2) := remoteGate op asid s1
        let s3 := if op.kind = .send then s2.physPut (s2.winAddr p op.win + 24) (natBytes 4 ((winTail w + 1) % 2 ^ 32)) else s2
        outPut (.answer op code old bs) s3
      | (.error (.trap _ _), _) => outPut (.answer op 4 0 []) s
      | (.error _, s1) => keepAdmitted x (s.heldBack s1)

def keepAtPort (op : RemoteOp) (s : State) : State := { s with fab := { s.fab with inbox := s.fab.inbox ++ [op] } }

/-- R392: the receiving port takes an operation: it is answered, it waits at the port, or it is admitted under the mapping of this step (R398)
and goes on. A message waits behind an earlier one of its slot (R393). -/
def remoteArrives (op : RemoteOp) (s : State) : State :=
  if s.fab.inbox.any (fun x => sameSlot x op) then keepAtPort op s
  else match s.admission op with
    | .nak code => outPut (.answer op code 0 []) s
    | .bad e => outPut (.answer op 4 0 []) (s.countErr e (s.winAddr op.part op.win))
    | .moved dev part => outPut (.redirect op dev part) s
    | .wait => keepAtPort op s
    | .ok w =>
      let p := op.part
      let asid := (s.part p).tb.asidbase + winCtx w
      if (s.part p).tb.ctxcnt ≤ winCtx w then outPut (.answer op 4 0 []) s
      else if s.paWaits (s.descAddr p asid) then keepAtPort op s
      else if !descUsable (s.part p) (s.descOf p asid) then outPut (.answer op 4 0 []) s
      else match inContext p asid (fun c => judgeRuns c (remoteAcc op) (remoteRuns op w (winTail w + s.admittedSends p op.win))) s with
        | (.ok (), _) => serveRemote ⟨op, w, 0⟩ s
        | (.error (.trap _ _), _) => outPut (.answer op 4 0 []) s
        | (.error _, s1) => keepAtPort op (s.heldBack s1)

/-- Every operation that waits is tried: admitted ones first, then those at the port, class 1 before class 0 (R390). -/
def retryRemote (s : State) : State :=
  let s1 := s.fab.admitted.foldl (fun a x => serveRemote x a) { s with fab := { s.fab with admitted := [] } }
  let ops := s1.fab.inbox.filter (fun x => x.cls == 1) ++ s1.fab.inbox.filter (fun x => x.cls != 1)
  ops.foldl (fun a op => remoteArrives op a) { s1 with fab := { s1.fab with inbox := [] } }

/-- R403: the home device answers an admitted atomic that was forwarded to it: with the old value, or with REDIRECT, upon which the atomic waits
for the pull. -/
def fwdAnswer (op : RemoteOp) (old : Option Nat) (s : State) : State :=
  match s.fab.admitted.find? (fun x => x.op == op && x.fwd == 1) with
  | none => s
  | some x =>
    if s.unsent (fun f => match f with | .forward _ a => a.tag == hayCore op.part && a.va % 2 ^ 48 == ptrOffset op.ptr | _ => false) then s else
    let s1 := { s with fab := { s.fab with admitted := s.fab.admitted.erase x } }
    match old with
    | some v => outPut (.answer op 0 v []) s1
    | none => retryRemote (keepAdmitted { x with fwd := 2 } s1)

-- ### Window commands (R398)

/-- R398: the state of a partition's window under command changes in one step, once its stack is there (R428, R431); a window that cannot be read
stays as it is. What waits at the port is answered from here on as the window now stands. -/
def winChange (p : Nat) (s : State) : State :=
  let fb := (s.part p).fb
  let a := s.winAddr p fb.wwin
  if !fb.wdue || s.paWaits a then s
  else
    let s1 := match s.phys a 1 with
      | .ok bs => s.physPut a (natBytes 1 (leNat bs - leNat bs % 4 + (fb.wop + 1)))
      | .error e => s.countErr e a
    retryRemote (s1.modPart p (fun q => { q with fb := { q.fb with wdue := false } }))

/-- R398: a window command that starts. -/
def winCommand (p w op : Nat) (s : State) : State :=
  let fb := (s.part p).fb
  if fb.wbusy || fb.incnt ≤ w || (op ≠ 1 ∧ op ≠ 2) then s
  else winChange p (s.modPart p (fun q => { q with fb := { q.fb with wwin := w, wop := op, wbusy := true, wdue := true } }))

/-- R398, R441: the command ends once what was admitted before it has been performed. -/
def stepWin (p : Nat) (s : State) : State :=
  let s1 := winChange p s
  let fb := (s1.part p).fb
  if fb.wbusy && !fb.wdue && !s1.fab.admitted.any (fun x => x.op.part == p && x.op.win == fb.wwin) then
    (journal p 5 0 0 0 0 0 0 s1).modPart p (fun q => { q with fb := { q.fb with wbusy := false } })
  else s1

-- ### Links (R386)

def State.port (s : State) (n : Nat) : FPort := SMap.get .up s.fab.ports n
def State.setPort (s : State) (n : Nat) (x : FPort) : State := { s with fab := { s.fab with ports := SMap.set .up s.fab.ports n x } }

/-- What goes to the storage port, and on no link. -/
def FabOut.storage : FabOut → Bool
  | .nvme .. | .doorbell .. | .nvmeAbort .. => true
  | _ => false

/-- The fabric class of what the module sends (R390): an answer travels in its operation's. -/
def FabOut.cls : FabOut → Nat
  | .request _ op | .answer op .. | .redirect op .. => op.cls
  | _ => 0

/-- The device that something goes to: for an answer the device that asked, for what a page's home sends the partition's new place. -/
def State.dstOf (s : State) : FabOut → Nat
  | .answer op .. | .redirect op .. => op.src
  | .page p .. | .amoAnswer p .. | .pullRefusal p .. | .imageRefusal p => (s.part p).mg.peer
  | .image _ dev .. | .request dev _ | .forward dev _ | .pullRequest dev .. => dev
  | _ => 0

/-- The bytes that something carries beside what names it. -/
def FabOut.bytes : FabOut → Nat
  | .answer _ _ _ bs | .image _ _ _ _ bs => bs.length
  | .page _ _ _ x => x.data.length + x.codes.length / 2 + 2 * x.tags.length
  | .request _ op => op.data.length
  | _ => 0

/-- The flits of something, 224 bytes of payload each, before a link has taken them (R386). -/
def State.flitsOf (s : State) (x : FabOut) : List Flit :=
  (upTo (max 1 ((x.bytes + 223) / 224))).map (fun i => ⟨none, x.cls, s.devid, s.dstOf x, x, i⟩)

/-- The next flit of class 1, or of class 0: one that waits for a port, else the first one of what has not begun to go out; the others of it then
wait for a port. -/
def State.nextFlit (s : State) (grad : Bool) : Option (Flit × State) :=
  match s.fab.resend.find? (fun f => (f.cls == 1) == grad) with
  | some f => some (f, { s with fab := { s.fab with resend := s.fab.resend.erase f } })
  | none => match s.fab.out.find? (fun x => !x.storage && (x.cls == 1) == grad) with
    | none => none
    | some x => match s.flitsOf x with
      | f :: fs => some (f, { s with fab := { s.fab with out := s.fab.out.erase x, resend := s.fab.resend ++ fs } })
      | [] => none

/-- Port `n` puts the next flit on its link and into its replay buffer of 4,096, class 1 first; a port that is not UP takes nothing, so that what has
no route waits (R386, R390). Numbers from 24 on stand for the storage port, which takes what is its own. -/
def wireTake (n : Nat) (s : State) : State :=
  if 24 ≤ n then { s with fab := { s.fab with out := s.fab.out.eraseP FabOut.storage } }
  else
    let x := s.port n
    if x.st ≠ 0 ∨ 4096 ≤ x.sent.length then s
    else match (s.nextFlit true).or (s.nextFlit false) with
      | none => s
      | some (f, s1) => (if f.seq.isSome then s1.count 6 n else s1).setPort n { x with next := (x.next + 1) % 4096, sent := x.sent ++ [{ f with seq := some x.next }] }

/-- R386: the oldest flit on a link is acknowledged. -/
def linkAck (n : Nat) (s : State) : State := if 24 ≤ n then s else s.setPort n { s.port n with fails := 0, sent := (s.port n).sent.drop 1 }

/-- R386: a replay succeeds, and the count of consecutive failed ones starts again. -/
def linkGood (n : Nat) (s : State) : State := if 24 ≤ n then s else s.setPort n { s.port n with fails := 0 }

/-- R386, R448: a link is replayed from the refused flit on; every flit replayed counts. The refused one is the oldest that is not acknowledged, or
one that carries only acknowledgements. -/
def replayLink (n : Nat) (s : State) : State := s.addCount 6 n (max 1 (s.port n).sent.length)

/-- R386: a flit is refused and the link replayed; after 16 failed replays in a row the link retrains. -/
def flitRefused (n : Nat) (s : State) : State :=
  let x := s.port n
  if 24 ≤ n || x.st ≠ 0 then s
  else if x.fails < 16 then (replayLink n s).setPort n { x with fails := x.fails + 1 }
  else (s.count 7 n).setPort n { x with st := 1, fails := 0 }

/-- R386: a retraining ends, and the link is replayed; a failed one takes the port down, and the flits that were not acknowledged are replayed on
another port. -/
def retrained (n : Nat) (ok : Bool) (s : State) : State :=
  let x := s.port n
  if x.st ≠ 1 then s
  else if ok then (if x.sent.isEmpty then s else replayLink n s).setPort n { x with st := 0 }
  else ({ s with fab := { s.fab with resend := x.sent ++ s.fab.resend } }.setPort n ⟨2, 0, 0, []⟩).logEvent evPortDown n

/-- A port that is down comes back; in minimal mode the fabric ports stay DOWN (R438). -/
def routeBack (n : Nat) (s : State) : State := if (s.port n).st = 2 && !s.mgmt.boot.minmode then s.setPort n .up else s

-- ### Pages (R349, R403)

/-- The bytes, line codes and tags of a page's frame, as they are stored; on the host path no key is used (R357). The lines of it that cannot be read
(R359, R421) and the sectors whose tags cannot (R425) go with it as such. -/
def State.framePage (s : State) (pa key : Nat) : PageData :=
  let k := if isHostPath pa then 0 else key
  let line := fun i => (s.homeLine (pa / 256 + i) k false)
  { data := (upTo 256).flatMap (fun i => natBytes 256 (match line i with | .ok x => x.toNat | .error _ => 0)),
    codes := (upTo 256).map (fun i => (s.lineSt (pa / 256 + i)).code),
    tags := (upTo 1024).map (fun i => SMap.get 0 s.tags (pa / 64 + i)),
    bad := (upTo 256).filter (fun i => (line i).toOption.isNone),
    tagBad := (upTo 1024).filter (fun i => s.tagBad.contains (pa / 64 + i)) }

/-- Writes a page into a frame: bytes under the leaf's key, codes and tags; what could not be read at its home cannot be read here. -/
def State.putPage (s : State) (pa mat key : Nat) (x : PageData) : State :=
  let s1 := (upTo 256).foldl (fun (a : State) i =>
    let bytes := BitVec.ofNat 2048 (leNat ((x.data.drop (256 * i)).take 256))
    { (a.sliceRoom (pa / 256 + i)).outdate (pa / 256 + i) allBytes with mem := putBytes a.mem (pa + 256 * i) bytes allBytes 256 }.setLineSt (pa / 256 + i)
      { code := x.codes.getD i 0 % 16, mat := mat, dirty := if isHostPath pa then 0 else key + 1, poison := false, ecc := x.bad.contains i, got := 0 }) s
  { s1 with
    tags := (upTo 1024).foldl (fun m i => SMap.set 0 m (pa / 64 + i) (x.tags.getD i 0 % 65536)) s1.tags
    tagBad := s1.tagBad.filter (fun n => n < pa / 64 || pa / 64 + 1024 ≤ n) ++ (x.tagBad.filter (· < 1024)).map (pa / 64 + ·) }

/-- A map with the keys of a run taken from another one. -/
def graft {α : Type} (new old : SMap α) (lo n : Nat) : SMap α :=
  old.filter (fun e => e.1 < lo) ++ SMap.slice new lo n ++ old.filter (fun e => lo + n ≤ e.1)

/-- The instruction caches cannot hold lines of a frame before its page has come: they read it as it lands (R163, R349). -/
def State.refetch (s : State) (pa : Nat) : State :=
  { s with cores := SMap.mapVals .cold (fun k =>
      { k with ctx := { k.ctx with
          imem := graft s.mem k.ctx.imem pa 65536
          ilines := graft s.lines k.ctx.ilines (pa / 256) 256 } }) s.cores }

/-- The pull in progress of a page ends. -/
def State.endPull (s : State) (asid page : Nat) : State := { s with pulls := s.pulls.filter (fun y => !(y.asid == asid && y.page == page)) }

/-- R349: a pulled page arrives: the frame of the entry that the pull started from is written with that entry's key; `PULL` is cleared only while the
entry still holds what it held then. -/
def pageArrives (asid va : Nat) (x : PageData) (s : State) : State :=
  match s.pulls.find? (fun y => y.asid == asid && y.page == va / 65536) with
  | none => s
  | some y =>
    let pa := 65536 * ptePfn y.e
    let asked := fun f => match f with | .pullRequest dev ctx a => (dev, ctx + ((s.partOfAsid asid).map (fun p => (s.part p).tb.asidbase)).getD 0, a / 65536) == (pteHome y.e, asid, va / 65536) | _ => false
    if s.unsent asked || s.paWaits pa || s.paWaits y.addr then s
    else
      let s1 := s.endPull asid (va / 65536)
      match (if isHostPath pa then some 0 else s1.keyMat (pteKey y.e)) with
      | none => retryRemote s1
      | some mat =>
        let s2 := (s1.putPage pa mat (pteKey y.e) x).refetch pa
        retryRemote (if s2.physNat y.addr 8 = y.e then s2.physPut y.addr (natBytes 8 (natBits y.e 0 55 - 2)) else s2)

/-- R403: this module, as the home of a page, serves its pull; after RELEASE it refuses it (R404). -/
def servePull (p ctx va : Nat) (s : State) : State :=
  let q := s.part p
  let asid := q.tb.asidbase + ctx
  if q.mg.st = .released then outPut (.pullRefusal p ctx (va - va % 65536)) s
  else if q.mg.st ≠ .sent then s
  else match s.walk q (descRoot (s.descOf p asid)) va with
    | .leaf e level _ =>
      let pa := leafPa e level (va - va % 65536)
      if (ptePull e && level == 3) || s.paWaits pa then s
      else
        let x := s.framePage pa (pteKey e)
        let s1 := s.modPart p (fun q => { q with mg := { q.mg with served := q.mg.served ++ [(ctx, va / 65536)] } })
        outPut (.page p ctx (va - va % 65536) x) (s1.touched pa 65536 (pteKey e))
    | _ => s

/-- R403: this module, as the home of a page, performs a forwarded atomic at its home slice, where it is recorded (R128), or sends it back; it sends
back too what its own line or key keeps it from performing (log entry 92). -/
def forwarded (p : Nat) (a : FwdAtomic) (s : State) : State :=
  let q := s.part p
  let asid := q.tb.asidbase + a.ctx
  let back := outPut (.amoAnswer p a none) s
  if q.mg.st ≠ .sent || q.mg.served.contains (a.ctx, a.va / 65536) then back
  else match s.walk q (descRoot (s.descOf p asid)) a.va with
    | .leaf e level _ =>
      let pa := leafPa e level a.va
      if s.paWaits pa then s
      else match s.atomicHome pa (pteKey e) a.compr a.size (fun old => (AmoOp.ofNum a.op).new a.size old a.x a.y) with
        | .error _ => back
        | .ok (old, s1) => outPut (.amoAnswer p a (some old)) (s1.atomicDone (1024 * (1 + q.mg.peer) + a.tag) pa a.size)
    | .held _ => s
    | _ => back

/-- R404: the home device refuses a pull: what needs the page raises XLATE. -/
def pullRefused (asid va : Nat) (s : State) : State :=
  if s.pulling asid (va / 65536) then
    retryRemote { s.endPull asid (va / 65536) with pullGone := s.pullGone ++ [(asid, va / 65536)] }
  else s

end Sys2Proof.Machine
end

