-- ==== Sys2Proof/Machine/Migrate.lean ====
section
/-! DEFINITION. Migration (R399 to R404): the commands, the image and its installation. -/

namespace Sys2Proof.Machine

-- ### Leaves (R401, R404)

/-- The entries of a table of `n` entries that a condition keeps, with their indices. -/
def tableEntries (s : State) (base n : Nat) (ok : Nat → Bool) : List (Nat × Nat) :=
  (upTo n).filterMap (fun i => let e := s.physNat (base + 8 * i) 8; if ok e then some (i, e) else none)

/-- Every leaf of a context's tables: virtual address, entry, level. -/
def State.leaves (s : State) (p : Part) (root : Nat) : List (Nat × Nat × Nat) :=
  (tableEntries s root 1024 (s.pteOk p 1)).flatMap (fun a =>
    (tableEntries s (65536 * ptePfn a.2) 8192 (s.pteOk p 2)).flatMap (fun b =>
      let va := 2 ^ 42 * a.1 + 2 ^ 29 * b.1
      if pteBlk b.2 then [(va, b.2, 2)]
      else (tableEntries s (65536 * ptePfn b.2) 8192 (s.pteOk p 3)).map (fun c => (va + 65536 * c.1, c.2, 3))))

/-- The contexts of a partition that exist: index and descriptor. -/
def State.contexts (s : State) (p : Nat) : List (Nat × BitVec 1024) :=
  let q := s.part p
  ((upTo q.tb.ctxcnt).map (fun i => (i, s.descOf p (q.tb.asidbase + i)))).filter (fun x => descUsable q x.2)

/-- R399 `MPULLS`: the PULL leaves of a partition: context index and virtual address. -/
def State.pullLeaves (s : State) (p : Nat) : List (Nat × Nat) :=
  (s.contexts p).flatMap (fun x => ((s.leaves (s.part p) (descRoot x.2)).filter (fun l => ptePull l.2.1 && l.2.2 == 3)).map (fun l => (x.1, l.1)))

/-- R404: the pull engine starts on a PULL leaf of a partition, given by context index and address. -/
def pullLeaf (p : Nat) (x : Nat × Nat) (s : State) : State :=
  let asid := (s.part p).tb.asidbase + x.1
  match s.walk (s.part p) (descRoot (s.descOf p asid)) x.2 with
  | .leaf e 3 addr => s.startPull ⟨asid, x.2 / 65536, e, addr⟩
  | _ => s

-- ### The image (R401)

/-- A section: type, context index, `AUX`, body. -/
structure Section where
  type : Nat
  ctx : Nat
  aux : Nat
  body : List Byte

def Section.bytes (x : Section) : List Byte :=
  wordBytes [x.type + atBit x.ctx 8 + atBit x.body.length 32, x.aux] ++ padTo (align64 x.body.length) x.body

/-- What a migration command of a partition reaches: its tables, its contexts' descriptors, buffer tables, park areas and cut areas, its windows, its image area. -/
def State.migReach (s : State) (p : Nat) : List (Nat × Nat) :=
  let q := s.part p
  let table := fun e => (65536 * ptePfn e, 65536)
  [(q.fb.inbase, 32 * q.fb.incnt), (q.mg.img, q.mg.len)] ++ (upTo q.tb.ctxcnt).map (fun i => (s.descAddr p (q.tb.asidbase + i), 128)) ++
  (s.contexts p).flatMap (fun x =>
    let tops := tableEntries s (descRoot x.2) 1024 (s.pteOk q 1)
    [(descBtBase x.2, 32 * descBtCnt x.2), (descPark x.2, 0x900000), (descRoot x.2, 8192)] ++
    (upTo (s.poolCnt p (q.tb.asidbase + x.1))).map (fun i => (s.poolArea p (q.tb.asidbase + x.1) i, areaSize)) ++
    tops.map (fun a => table a.2) ++
    tops.flatMap (fun a => ((tableEntries s (65536 * ptePfn a.2) 8192 (s.pteOk q 2)).filter (fun b => !pteBlk b.2)).map (fun b => table b.2)))

/-- R428, R431: a migration command waits while what it reaches has to be waited for. -/
def State.migWaits (s : State) (p : Nat) : Bool :=
  !(s.hbm.sref == 0 && s.hbm.trn == 0) && (s.migReach p).any (fun x => (s.runWaits x.1 x.2).isSome)

/-- A physical run as bytes; an undeliverable byte is carried as zero. -/
def State.physBytes (s : State) (pa n : Nat) : List Byte := (upTo n).map (fun i => BitVec.ofNat 8 (s.physNat (pa + i) 1))

/-- An entry of a leaf list. -/
def leafEntry (ctx keybase : Nat) (l : Nat × Nat × Nat) : List Byte :=
  let e := l.2.1
  wordBytes [l.1 + atBit ctx 52 + atBit (if l.2.2 = 2 then 1 else 0) 62,
    bitNat (pteR e) + 2 * bitNat (pteW e) + 4 * bitNat (pteA e) + 8 * bitNat (pteRun e && l.2.2 == 3) + atBit ((pteKey e + 4096 - keybase) % 4096) 4]

/-- The sections of a frozen partition. -/
def State.sections (s : State) (p : Nat) : List Section :=
  let q := s.part p
  let cs := s.contexts p
  let idx := fun (l : Launch) => l.asid - q.tb.asidbase
  cs.map (fun x => ⟨1, x.1, 0, s.physBytes (descBtBase x.2) (32 * descBtCnt x.2)⟩) ++
  q.launches.map (fun l => ⟨2, idx l, l.place, l.slotBytes s⟩) ++
  q.launches.flatMap (fun l => (l.cutPts.filterMap CutPt.area).map (fun i => ⟨3, idx l, i, s.physBytes (s.poolArea p l.asid i) areaSize⟩)) ++
  cs.map (fun x => ⟨4, x.1, 0, s.physBytes (descPark x.2 + 0x10000) 0x40000⟩) ++
  [⟨5, 0, 0, s.physBytes q.fb.inbase (32 * q.fb.incnt)⟩,
   ⟨6, 0, 0, (upTo q.fb.grpcnt).flatMap (fun g => wordBytes [(s.groupWord p g).toNat, 0])⟩] ++
  cs.map (fun x => ⟨7, x.1, 0, (s.leaves q (descRoot x.2)).flatMap (leafEntry x.1 q.tb.keybase)⟩) ++
  q.deferred.zipIdx.map (fun d => ⟨8, d.1.asid - q.tb.asidbase, d.2, natBytes 256 d.1.rec_.toNat⟩)

def State.image (s : State) (p : Nat) : List Byte :=
  let q := s.part p
  let secs := s.sections p
  wordBytes [1, s.devid, q.nextLid, q.tb.asidbase + atBit q.tb.keybase 16, secs.length, 0, 0, 0] ++ secs.flatMap Section.bytes

/-- The sections of an image in memory, `n` of them from address `pa`, and the address after them. -/
def State.readSections (s : State) : Nat → Nat → List Section × Nat
  | 0, pa => ([], pa)
  | n + 1, pa =>
    let w0 := s.physNat pa 8
    let len := natBits w0 32 32
    let r := s.readSections n (pa + 16 + align64 len)
    (⟨natBits w0 0 8, natBits w0 8 10, natBits (s.physNat (pa + 8) 8) 0 16, s.physBytes (pa + 16) len⟩ :: r.1, r.2)

-- ### Commands

def modMig (p : Nat) (f : MBlock → MBlock) (s : State) : State := s.modPart p (fun q => { q with mg := f q.mg })

/-- R428, R431: the gates of a croft are to be parked where it has to be waited for. -/
def State.parkWaits (s : State) (c : Nat) : Bool :=
  match SMap.get 0 s.gateAsid c with
  | a + 1 => (s.runWaits (s.gatePark (s.core c).ctx.part a c 0) 1024).isSome
  | 0 => false

/-- R400: the source has stopped, while its FREEZE is in progress. -/
def freezeEnd (p : Nat) (s : State) : State :=
  let q := s.part p
  let stopped := q.crofts.all (fun c => let k := s.core c; k.ctx.part != p || (k.slot.running.isNone && k.slot.staged.isNone))
  if q.mg.st = .freezing && q.mg.busy && q.mg.cmd = 2 && q.launches.all (fun l => l.st == .suspended) && stopped &&
     !s.fab.admitted.any (fun x => x.op.part == p) && !q.crofts.any (fun c => s.parkWaits c) then
    let s1 := q.crofts.foldl (fun a c => parkGates c a) s
    endMig p 0 (modMig p (fun m => { m with st := .frozen }) s1)
  else s

/-- R400 steps 1 and 2. -/
def freeze (p : Nat) (s : State) : State :=
  let s1 := modMig p (fun m => { m with st := .freezing }) s
  (s1.part p).launches.foldl (fun a l =>
    if l.st == .running || l.restore.isSome then drainEnd p l.lid (startDrain p l.lid (modLaunch p l.lid (fun l => { l with restore := none }) a))
    else if l.st == .halted then drainEnd p l.lid (startDrain p l.lid (modLaunch p l.lid (fun l => { l with dhalt := true }) a))
    else a) s1

/-- R374 for every suspended launch; true when one waits for a free croft. -/
def resumeEvery (p : Nat) : List Nat → State → Bool × State
  | [], s => (false, s)
  | l :: ls, s =>
    let (res, s1) := resumeLaunch p l s
    let r := resumeEvery p ls s1
    ((match res with | .waits _ => true | .ends _ => r.1), r.2)

/-- The suspended launches of a partition. -/
def State.suspended (s : State) (p : Nat) : List Nat := ((s.part p).launches.filter (fun l => l.st == .suspended)).map (fun l => l.lid)

/-- A launch that was still draining runs on, and no point of it is to be cut any more. -/
def undrain (p : Nat) (l : Launch) (s : State) : State :=
  let s1 := (s.runners p l.lid).foldl (fun a c => a.modCore c (fun k =>
    if k.q.trap = some drainTrap then { k with q := { k.q with trap := none } } else k)) s
  modLaunch p l.lid (fun l => { l with st := if l.dhalt then .halted else .running, dhalt := false }) s1

/-- ABORT: launches that were still draining run on; the others are resumed. -/
def abortStep (p : Nat) (s : State) : State :=
  let s1 := (s.part p).launches.foldl (fun a l => if l.st == .draining then undrain p l a else a) s
  let (waits, s2) := resumeEvery p (s1.suspended p) s1
  if waits then s2 else retryRemote (endMig p 0 (modMig p (fun m => { m with st := .run }) s2))

-- ### Installation (R402)

/-- An ASID of the source as it is numbered at the target. -/
def moveAsid (from_ to_ a : Nat) : Nat := (a + 65536 + to_ - from_) % 65536

/-- A 16-bit field of a body, changed in place. -/
def patch16 (bs : List Byte) (off : Nat) (f : Nat → Nat) : List Byte :=
  bs.take off ++ natBytes 2 (f (areaNum bs off 2)) ++ bs.drop (off + 2)

def patchAll (f : Nat → Nat) : List Nat → List Byte → List Byte
  | [], bs => bs
  | o :: os, bs => patchAll f os (patch16 bs o f)

/-- A launch from its slot (R377); `cap` are the launches of which a product met a cap (R452). The image does not tell which of its cut points had
trapped TIMEOUT (R52): none has here (log entry 111). -/
def launchOf (cap : List Nat) (asid vf : Nat) (bs : List Byte) (s : State) : Launch :=
  let w0 := areaNum bs 0x100 8
  let rec_ := BitVec.ofNat 2048 (areaNum bs 0 256)
  { lid := natBits w0 0 32, asid := asid, rec_ := rec_, place := natBits w0 32 6, tl := .empty, st := .suspended, credit := areaNum bs 0x108 8 % 16,
    age := (s.cycle - BitVec.ofNat 64 (areaNum bs 0x110 8 % 2 ^ 24)).toNat, cutPts := [], timedOut := [], dhalt := natBits w0 38 2 == 2, cap := cap.contains (natBits w0 0 32), vf := vf,
    ended := none, restore := none }

/-- Installs one section; `a` is the source's `ASIDBASE`. -/
def installSection (p a : Nat) (x : Section) (s : State) : State :=
  let q := s.part p
  let asid := q.tb.asidbase + x.ctx
  let d := s.descOf p asid
  let f := moveAsid a q.tb.asidbase
  if x.type = 1 then s.physPut (descBtBase d) (patchAll f ((upTo (x.body.length / 32)).map (fun i => 32 * i + 18)) x.body)
  else if x.type = 2 then
    let l := launchOf ((q.mg.facts.map MigFacts.capped).getD []) asid (descVf d) x.body s
    let s1 := s.modPart p (fun q => { q with launches := q.launches ++ [l] })
    s1.physPut (s1.slotBase p l) x.body
  else if x.type = 3 then
    let body := patchAll f [8, 0x102] x.body
    let pa := s.poolArea p asid x.aux
    let pt := stopPoint (BitVec.ofNat 2048 (areaNum body 0x100 256))
    noteCut p (poolPoint pt x.aux pa) (s.physPut pa body)
  else if x.type = 4 then s.physPut (descPark d + 0x10000) x.body
  else if x.type = 5 then s.physPut q.fb.inbase x.body
  else if x.type = 6 then
    { s with fab := { s.fab with groups := (upTo (x.body.length / 16)).foldl (fun m g => SMap.set 0 m (q.fb.grpbase + g) (areaWord x.body (16 * g))) s.fab.groups } }
  else s

/-- R399: the partitions are alike: by what the source has told of itself, and by the contexts and groups of the image. -/
def alike (q : Part) (xs : List Section) : Bool :=
  xs.all (fun x => x.ctx < q.tb.ctxcnt && (x.type != 6 || x.body.length ≤ 16 * q.fb.grpcnt)) &&
  (match q.mg.facts with
   | some f => f.hset == q.hset && f.ctxcnt == q.tb.ctxcnt && f.keycnt ≤ q.tb.keycnt && f.grpcnt ≤ q.fb.grpcnt
   | none => true)

/-- The point whose cut area says that deferred record `n` writes one of its registers. -/
def tokenOwner (p n : Nat) (s : State) : Option (Point × SReg) :=
  ((s.part p).launches.flatMap (fun l => l.cutPts.map (fun x => (l, x)))).findSome? (fun y =>
    match y.2.area with
    | none => none
    | some i =>
      match s.formOf p (s.physBytes (s.poolArea p y.1.asid i + 0x8000) 0x8000) with
      | some f => (f.tokens.find? (fun t => t.1 == n)).map (fun t => (y.2.pt, t.2))
      | none => none)

/-- A deferred record of an image. -/
def deferOf (p : Nat) (x : Section) (s : State) : Deferred :=
  let asid := (s.part p).tb.asidbase + x.ctx
  let own := tokenOwner p x.aux s
  { rec_ := BitVec.ofNat 2048 (areaNum x.body 0 256), asid := asid, vf := descVf (s.descOf p asid),
    core := some (0, match own with | some o => o.2 | none => 0), pt := own.map Prod.fst }

/-- Accepts deferred records while places last. -/
def acceptAll (p : Nat) : Nat → State → State
  | 0, s => s
  | n + 1, s => acceptAll p n (acceptDeferred p s)

/-- Sections of a type, in rising `AUX` when they are deferred records. -/
def ofType (t : Nat) (xs : List Section) : List Section := xs.filter (fun x => x.type == t)

def insertAux (x : Section) : List Section → List Section
  | [] => [x]
  | y :: ys => if x.aux ≤ y.aux then x :: y :: ys else y :: insertAux x ys

/-- R402: RESUME installs the image. -/
def install (p : Nat) (s : State) : State :=
  let q := s.part p
  let base := q.mg.img
  let (secs, _) := s.readSections (s.physNat (base + 32) 8) (base + 64)
  if !alike q secs then endMig p 3 s
  else
    let a := natBits (s.physNat (base + 24) 8) 0 16
    let order := [1, 2, 3, 4, 5, 6].flatMap (fun t => ofType t secs)
    let s1 := order.foldl (fun st x => installSection p a x st) s
    let s2 := s1.modPart p (fun q => { q with nextLid := s.physNat (base + 16) 8 % 2 ^ 32, mg := { q.mg with st := .live } })
    let defs := (ofType 8 secs).foldr insertAux []
    let s3 := s2.modPart p (fun q => { q with deferred := defs.map (fun x => deferOf p x s2) })
    acceptAll p defs.length s3

/-- What a source tells its target of itself. -/
def State.migFacts (s : State) (p : Nat) : MigFacts :=
  let q := s.part p
  { hset := q.hset, ctxcnt := q.tb.ctxcnt, keycnt := q.tb.keycnt, grpcnt := q.fb.grpcnt,
    capped := (q.launches.filter (fun l => l.cap)).map (fun l => l.lid) }

/-- R399 to R404: the migration command in progress goes on as far as it can. -/
def stepMig (p : Nat) (s : State) : State :=
  let m := (s.part p).mg
  if !m.busy then s
  else if m.cmd = 1 then
    if m.st = .run && (s.part p).launches.isEmpty then endMig p 0 (modMig p (fun m => { m with st := .armed }) s) else endMig p 1 s
  else if m.cmd = 2 then
    if m.st = .run then freezeEnd p (freeze p s) else if m.st = .freezing then freezeEnd p s else endMig p 1 s
  else if m.cmd = 3 then
    if m.st ≠ .frozen then endMig p 1 s
    else if m.used ≠ 0 ∨ s.migWaits p then s
    else
      let im := s.image p
      outPut (.image p m.peer m.part (s.migFacts p) im) (modMig p (fun m => { m with used := im.length }) s)
  else if m.cmd = 4 then
    if m.st = .loaded ∧ s.migWaits p then s
    else if m.st = .loaded then
      let s1 := install p s
      if (s1.part p).mg.busy then
        let (waits, s2) := resumeEvery p (s1.suspended p) s1
        if waits then s2 else retryRemote (endMig p 0 s2)
      else s1
    else if m.st = .live then
      let (waits, s2) := resumeEvery p (s.suspended p) s
      if waits then s2 else retryRemote (endMig p 0 s2)
    else endMig p 1 s
  else if m.cmd = 5 then
    if m.st ≠ .live then endMig p 1 s
    else if s.migWaits p then s
    else
      let ls := s.pullLeaves p
      if ls.isEmpty then endMig p 0 s
      else ls.foldl (fun a x => pullLeaf p x a) s
  else if m.cmd = 6 then
    if m.st = .sent then endMig p 0 (modMig p (fun m => { m with st := .released }) s) else endMig p 1 s
  else if m.st = .freezing || m.st = .frozen then abortStep p s
  else endMig p 1 s

/-- A store to `MOP`: a command starts when none is in progress; an ABORT also takes over a FREEZE or a SEND. -/
def migStart (p op : Nat) (s : State) : Bool × State :=
  let m := (s.part p).mg
  if op = 0 || 7 < op then (false, s)
  else if m.busy && !(op == 7 && (m.cmd == 2 || m.cmd == 3)) then (false, s)
  else
    -- a RESUME that follows a finished one finds no state of its own (R399)
    if op = 4 && m.st = .live then (true, endMig p 1 s)
    else (true, modMig p (fun m => { m with cmd := op, busy := true, used := if op = 3 then 0 else m.used }) s)

/-- A migration command given and carried on: what a migration event does. -/
def migCommand (p op : Nat) (s : State) : State :=
  let m := (s.part p).mg
  if m.busy && m.cmd = op then stepMig p s
  else
    let (started, s1) := migStart p op s
    if started then stepMig p s1 else s

/-- R401: the image reaches its target, which writes it into its image area; one that does not fit is refused. -/
def imageArrives (p : Nat) (f : MigFacts) (data : List Byte) (s : State) : State :=
  let m := (s.part p).mg
  if m.st ≠ .armed || (s.runWaits m.img (min m.len data.length)).isSome then s
  else if m.len < data.length then outPut (.imageRefusal p) s
  else modMig p (fun m => { m with used := data.length, facts := some f }) (s.physPut m.img data)

/-- R401: the last write of the image has reached the target. -/
def imageDone (p : Nat) (s : State) : State :=
  let m := (s.part p).mg
  if m.st = .frozen && m.busy && m.cmd = 3 then retryRemote (endMig p 0 (modMig p (fun m => { m with st := .sent }) s))
  else if m.st = .armed && (s.runWaits m.img m.len).isNone then
    let used := if m.used ≠ 0 then m.used else (s.readSections (s.physNat (m.img + 32) 8) (m.img + 64)).2 - m.img
    modMig p (fun m => { m with st := .loaded, used := used }) s
  else s

/-- R401: the image is larger than the target's area. -/
def imageTooLarge (p : Nat) (s : State) : State :=
  let m := (s.part p).mg
  if m.st = .frozen && m.busy && m.cmd = 3 then endMig p 2 s else s

/-- R50, R371, R398, R399: what a partition has in progress goes on. -/
def stepCommands (p : Nat) (s : State) : State := stepMig p (stepWin p (stepPre p (stepEnds p s)))

end Sys2Proof.Machine
end

