-- ==== Sys2Proof/Machine/Rings.lean ====
section
/-! DEFINITION. The host's submissions: doorbell blocks and rings (R413, R414). -/

namespace Sys2Proof.Machine

/-- The partition and the index of a context that a function may reach (R413): the context exists and the function is its own. -/
def State.bellOf (s : State) (vf asid : Nat) : Option (Nat × Nat) :=
  match s.partOfAsid asid with
  | none => none
  | some p =>
    let d := s.descOf p asid
    if descUsable (s.part p) d && descVf d == vf then some (p, s.ctxIndex p asid) else none

def State.bell (s : State) (p i : Nat) : Bell := SMap.get .zero (s.part p).bells i
def setBell (p i : Nat) (b : Bell) (s : State) : State := s.modPart p (fun q => { q with bells := SMap.set .zero q.bells i b })

def Bell.enabled (b : Bell) : Bool := 1 ≤ b.rlog && b.rlog ≤ 12

/-- R414: a doorbell write. -/
def ringBell (vf asid tail : Nat) (s : State) : State :=
  match s.bellOf vf asid with
  | none => s
  | some (p, i) =>
    let b := s.bell p i
    let t := tail % 2 ^ 32
    if !b.enabled || 2 ^ b.rlog < (t + 2 ^ 32 - b.head) % 2 ^ 32 then setBell p i { b with rovf := true } s
    else
      let s1 := setBell p i { b with tail := t } s
      if t = b.head then s1.modPart p (fun q => { q with rung := q.rung.filter (fun x => x.1 != i) })
      else s1.modPart p (fun q => { q with rung := q.rung ++ [(i, t)] })

/-- R413: a write of 1 clears `ROVF`. -/
def clearRovf (vf asid : Nat) (s : State) : State :=
  match s.bellOf vf asid with
  | none => s
  | some (p, i) => setBell p i { s.bell p i with rovf := false } s

/-- R413: an 8-byte write of the host to a doorbell block. -/
def bellWrite (vf asid off : Nat) (v : Word) (s : State) : State :=
  match s.bellOf vf asid with
  | none => s
  | some (p, i) =>
    let b := s.bell p i
    if off = 0 then setBell p i { b with base := fld v 0 50 } s
    else if off = 8 then setBell p i { b with rlog := fld v 0 4 } s
    else if off = 16 then ringBell vf asid (fld v 0 32) s
    else if off = 24 then (if v.getLsbD 32 then clearRovf vf asid s else s)
    else s

/-- R413: an 8-byte read of the host. -/
def bellRead (vf asid off : Nat) (s : State) : Word :=
  match s.bellOf vf asid with
  | none => 0
  | some (p, i) =>
    let b := s.bell p i
    if off = 0 then BitVec.ofNat 64 b.base
    else if off = 8 then BitVec.ofNat 64 b.rlog
    else if off = 24 then BitVec.ofNat 64 (b.head + atBit (bitNat b.rovf) 32)
    else 0

/-- A ring's head is a deferred record (R35). -/
def Part.headDeferred (q : Part) (i : Nat) : Bool := q.deferred.any (fun d => d.core.isNone && d.asid == q.tb.asidbase + i)

/-- R34, R35, R414: the next slot of ring `i` is read, and its record accepted, rejected or deferred, once its place in memory can be read and its
completion word written. -/
def takeSlot (p i : Nat) : M Unit := do
  let s ← get
  let q := s.part p
  let b := s.bell p i
  let asid := q.tb.asidbase + i
  let pa := b.base + 256 * (b.head % 2 ^ b.rlog)
  if !b.enabled || q.headDeferred i || !(q.mg.st == .run || q.mg.st == .live) || s.paWaits pa then throw .wait
  match s.phys pa 256 with
  | .error e => modify (fun s => notifyHay p (passSlot p i (if e = .ecc then s.countEcc pa else s)))
  | .ok bs =>
    modify (fun s => s.touched pa 256 0)
    let d : Deferred := { rec_ := BitVec.ofNat 2048 (leNat bs), asid := asid, vf := descVf (s.descOf p asid), core := none, pt := none }
    let code ← judge p asid d.rec_
    if code ≠ 0 then
      reject p d code
      modify (passSlot p i)
    else if s.accepts p then modify (fun s => passSlot p i (accept p d b.head s).2)
    else modPart p (fun q => { q with deferred := q.deferred ++ [d] })

/-- R414: the ring to be served next: that of the oldest doorbell write with a slot that can be taken. -/
def State.nextRing (s : State) (p : Nat) : Option Nat :=
  ((s.part p).rung.map Prod.fst).find? (fun i => match takeSlot p i s with
    | (.ok _, _) => true
    | (.error _, _) => false)

/-- R414: the hayward takes the next slot of a context's ring, when it is that ring's turn; a slot that waits starts what it waits for. -/
def readSlot (asid : Nat) (s : State) : State :=
  match s.partOfAsid asid with
  | none => s
  | some p =>
    let i := s.ctxIndex p asid
    match takeSlot p i s with
    | (.ok _, s1) => if s.nextRing p == some i then s1 else s
    | (.error _, s1) => s.heldBack s1

end Sys2Proof.Machine
end

