-- ==== Sys2Proof/Machine/System.lean ====
section
/-! DEFINITION. Privileged words (R323 to R336): control registers, `TRAP`, `TRET`, `IDLE`, `PROBE` with its fault records (R352 to R354), `MMU.INV`
(R334, R381), `MMU.SYNC`, `MMU.WALK`, keys (R336, R359). -/

namespace Sys2Proof.Machine

/-- R164: the words marked P raise ILLOP in user mode, at decode. -/
def needsPriv (s : State) (x : Out) : Out := if s.privileged s.active then x else .next (trapAtIssue s.active .illop 0 0 s)

-- ### Control registers (R324 to R327)

/-- R326: the seed material of a core's point. -/
def kseed (s : State) (c : Nat) : Word :=
  let k := s.core c
  match k.slot.running with
  | none => 0
  | some pt => match s.launch? k.ctx.part pt.lid with
    | none => 0
    | some l => BitVec.ofNat 64 ((pt.x + rcEx l.rec_ * (pt.y + rcEy l.rec_ * pt.z)) % 2 ^ 40 + atBit (pt.lid % 2 ^ 24) 40)

/-- What a control register reads as. -/
def ctlRead (s : State) (c : Nat) (r : Ctl) : Word :=
  let k := s.core c
  let pt := k.slot.running.getD ⟨0, 0, 0, 0⟩
  match r with
  | .ptx => BitVec.ofNat 64 pt.x
  | .pty => BitVec.ofNat 64 pt.y
  | .ptz => BitVec.ofNat 64 pt.z
  | .kseed => kseed s c
  | .qslip => k.ctl.qslip
  | .devid => BitVec.ofNat 64 (s.devid % 512)
  | .blkst => k.blkst
  | .blkpc => k.f.blk.pc
  | .blkcur => BitVec.ofNat 64 k.f.blk.cur
  | .cycle => s.cycle
  | .tvec => k.ctl.tvec
  | .tcause => k.ctl.tcause
  | .tcut => k.ctl.tcut
  | .tscratch => k.ctl.tscratch
  | .dbgctl => k.ctl.dbgctl
  | .asid => BitVec.ofNat 64 (k.ctx.asid % 65536)
  | .partn => BitVec.ofNat 64 (k.ctx.part % 16)
  | .bevt => BitVec.ofNat 64 k.ctl.bevt.toNat

/-- R144, R325: one field of `QSLIP` as it is stored. -/
def slipField (x : Word) (q : QId) : Nat := atBit (max 1 (min (fld x q.slipBit q.slipBits) q.size)) q.slipBit

/-- R325: what a write of `QSLIP` stores. -/
def slipStored (x : Word) : Word :=
  BitVec.ofNat 64 (slipField x .lq + slipField x .sq + slipField x .vq + slipField x .mq + slipField x .cq)

/-- A write of a control register by core `c` (R325, R326). -/
def ctlWrite (c : Nat) (r : Ctl) (x : Word) (s : State) : State :=
  match r with
  | .qslip => s.modCore c (fun k => { k with ctl := { k.ctl with qslip := slipStored x } })
  | .tvec => s.modCore c (fun k => { k with ctl := { k.ctl with tvec := x } })
  | .tcause => s.modCore c (fun k => { k with ctl := { k.ctl with tcause := x &&& 0xFFFFFFFF000000FF } })
  | .tcut => s.modCore c (fun k => { k with ctl := { k.ctl with tcut := x } })
  | .tscratch => s.modCore c (fun k => { k with ctl := { k.ctl with tscratch := x } })
  | .dbgctl =>
    let s1 := s.modCore c (fun k => { k with ctl := { k.ctl with dbgctl := x &&& 7 } })
    { s1 with dbg := SMap.set 0 s1.dbg (s.core c).ctx.asid ((x &&& 7).toNat + 1) }
  | _ => s

/-- R324: reading `BEVT` clears it. -/
def ctlReadEffect (r : Ctl) (k : CoreSt) : CoreSt :=
  match r with
  | .bevt => { k with ctl := { k.ctl with bevt := 0 } }
  | _ => k

def execCtlRd (h : Hdr) (d : SReg) (ctl : Ctl) (s : State) : Out :=
  if !ctl.readable (s.privileged s.active) then .next (trapAtIssue s.active .illop 0 0 s)
  else reeveUnit h [d] (fun c => modify (fun s => s.modCore c (fun k => ctlReadEffect ctl ((k.next h).wr d (ctlRead s c ctl))))) s

/-- R327: a `CTL.WR` issues once every engine entry issued before it has started. -/
def writeCtl (h : Hdr) (ctl : Ctl) (regs : List SReg) (x : CoreSt → Word) (s : State) : Out :=
  if !ctl.writable (s.privileged s.active) then .next (trapAtIssue s.active .illop 0 0 s)
  else reeveUnit h regs (fun c => do
    let k ← getCore c
    if !k.allStarted then throw .wait
    modify (fun s => (ctlWrite c ctl (x k) s).modCore c (fun k => k.next h))) s

def execCtlWr (h : Hdr) (ctl : Ctl) (a : SReg) (s : State) : Out := writeCtl h ctl [a] (fun k => k.rd a) s
def execCtlWrImm (h : Hdr) (ctl : Ctl) (imm : Word) (s : State) : Out := writeCtl h ctl [] (fun _ => imm) s

-- ### TRAP, TRET, IDLE (R327, R328, R332)

def execTrap (h : Hdr) (code : BitVec 28) (s : State) : Out := scalarUnit h [] (fun _ _ => .error (.trapi, code.toNat, 0)) s

/-- R325: a core that resumes takes the context's value of `DBGCTL`. -/
def takeDbgctl (c : Nat) (s : State) : State :=
  s.modCore c (fun k => { k with ctl := { k.ctl with dbgctl := s.dbgctl k.ctx.asid k.ctx.desc } })

/-- R328: `TRET` waits for the handler's engine entries, then returns. -/
def execTret (h : Hdr) (a : SReg) (s : State) : Out :=
  needsPriv s (reeveUnit h [a] (fun c => do
    let k ← getCore c
    if k.q.es.any Entry.engine then throw .wait
    trapReturn c (if a = 0 then none else some (k.rd a))
    modify (takeDbgctl c)) s)

def execIdle (h : Hdr) (s : State) : Out :=
  needsPriv s (reeveUnit h [] (fun c => do
    let k ← getCore c
    if k.ctl.bevt = 0 then throw .wait
    modCore c (fun k => k.next h)) s)

-- ### PROBE (R333)

/-- What a probe finds: its result, a PULL page with its entry, or where the walk stopped. -/
inductive Probe where
  | code (n : Nat)
  | pull (x : Pull)
  | stop (va entry level : Nat)
deriving DecidableEq, Repr

/-- The translation part of a probe: a held translation or a walk that sets nothing; the access itself then marks its page (R333, R345). -/
def probePage (c : Nat) (b : BitVec 256) (a : Acc) (ptr : Word) : M Probe := do
  let s ← get
  let va := bufBase b + ptrOffset ptr
  let x := (s.core c).ctx
  if (s.heldXlat c x.asid va a).isNone then set (s.walkRead (s.accessWalk (s.part x.part) x.asid (descRoot x.desc) va))
  match s.leafAt c va a with
  | .held pa => do await c pa; throw .wait
  | .failed .rights _ => pure (.code 4)
  | .failed e pa => walkErr e pa ptr
  | .unmapped e level => pure (.stop va e level)
  | .leaf e level addr =>
    let pa := leafPa e level va
    if !leafGrants a e then pure (.code 4)
    else if ptePull e && level == 3 then pure (.pull ⟨(s.core c).ctx.asid, va / 65536, e, addr⟩)
    else if s.refuses b pa then pure (.code 4)
    else if !isHostPath pa && (s.keyMat (pteKey e)).isNone then pure (.code 5)
    else do
      let _ ← translate c b va a ptr
      pure (.code 0)

/-- R333: the checks of R59 or R62 on one byte. -/
def probe (c : Nat) (pw : Bool) (ptr : Word) : M Probe := do
  let a := if pw then Acc.wr else Acc.rd
  match ← tryM (checkSpan c .scalar a ptr (ptrOffset ptr) (ptrOffset ptr)) with
  | .error (.trap .bounds _) => pure (.code 3)
  | .error (.trap .rights _) => pure (.code 4)
  | .error x => throw x
  | .ok (.glob b) => probePage c b a ptr
  | .ok _ => pure (.code 0)

/-- What stands of an entry that has sent its request: a wait is tried again with what it did. -/
def dispatched {α : Type} (m : M α) : M α := do
  match ← tryM m with
  | .ok x => pure x
  | .error .wait => throw .sent
  | .error x => throw x

def runProbe (d : SReg) (pw : Bool) : Perf := fun c e => do
  sysRelease c e
  match ← dispatched (probe c pw (e.x 0)) with
  | .code n => pure (.done [.s d (BitVec.ofNat 64 n)] (wordOk 0))
  | .pull _ => pure (.done [.s d 1] (wordOk 0))
  | .stop _ _ _ => pure (.done [.s d 2] (wordOk 0))

-- ### Fault records (R352 to R354)

/-- The ring takes records. -/
def TBlock.ringOn (t : TBlock) : Bool := 4 ≤ t.fqlog && t.fqlog ≤ 12
/-- R353: the ring is full. -/
def TBlock.ringFull (t : TBlock) : Bool := 2 ^ t.fqlog ≤ (t.fqtail + 2 ^ 32 - t.fqhead) % 2 ^ 32

/-- R352: a record's bytes. The `CROFT` of a bailiff's `PROBE` is the number that the bailiff gives for itself, which is open (log entry 7). -/
def FltRec.bits (f : FltRec) : Nat :=
  f.va + atBit f.asid 64 + atBit (croftNumber f.core) 80 + atBit (bitNat f.write) 88 + atBit (f.replay % 4) 89 + atBit (bitNat (f.replay == 3)) 91 +
  atBit f.seq 96 + atBit f.entry 128 + atBit f.level 192

/-- The `PROBE.RES` entry that a record belongs to. -/
def FltRec.owns (f : FltRec) (e : Entry) : Bool :=
  match e.op with
  | .probeRes _ _ _ _ pw => e.phase == .pend && e.x 0 == f.ptr && pw == f.write
  | _ => false

/-- A `PROBE.RES` that waits on a record ends with a result. -/
def endProbe (f : FltRec) (n : Nat) (s : State) : State :=
  s.modCore f.core (fun k => match k.entryPos f.owns with
    | none => k
    | some i => match k.q.es[i]?.map Entry.op with
      | some (Instr.probeRes _ _ d _ _) => k.finishAt i [.s d (BitVec.ofNat 64 n)] (wordOk 0)
      | _ => k)

/-- Posts a record, or leaves it waiting for a place; without a ring the probe ends. The third replay's record is the last (R354). -/
def postRecord (p : Nat) (f : FltRec) (s : State) : State :=
  let t := (s.part p).tb
  let drop := fun (s : State) => s.modPart p (fun q => { q with flts := q.flts.filter (fun x => x != f) })
  if !t.ringOn then endProbe f 2 (drop s)
  else if t.ringFull || s.paWaits (t.fqbase + 32 * (t.fqtail % 2 ^ t.fqlog)) then s
  else
    let g := { f with seq := t.fqtail, posted := true }
    let s1 := s.physPut (t.fqbase + 32 * (t.fqtail % 2 ^ t.fqlog)) (natBytes 32 g.bits)
    let s2 := (drop s1).modPart p (fun q => { q with flts := q.flts ++ [g], tb := { q.tb with fqtail := (t.fqtail + 1) % 2 ^ 32 } })
    let s3 := if t.fqien then raiseMsix (s.part p).vfbase t.fqmsix s2 else s2
    if g.replay = 3 then
      let s4 := endProbe g 2 (s3.modPart p (fun q => { q with flts := q.flts.filter (fun x => x != g) }))
      faultContext p g.asid .xlate s4
    else s3

/-- Records that waited for a place go to the ring. -/
def postWaiting (p : Nat) (s : State) : State :=
  ((s.part p).flts.filter (fun f => !f.posted)).foldl (fun a f => postRecord p f a) s

/-- A record is made for a walk that stopped. -/
def newRecord (c : Nat) (ptr : Word) (pw : Bool) (replay va entry level : Nat) (s : State) : State :=
  let k := s.core c
  let f : FltRec := { seq := 0, core := c, asid := k.ctx.asid, va := va, ptr := ptr, write := pw, replay := replay, entry := entry, level := level,
                      posted := false }
  postRecord k.ctx.part f (s.modPart k.ctx.part (fun q => { q with flts := q.flts ++ [f] }))

/-- A PULL page that `PROBE.RES` waits for; when its home device has refused it, it stays a PULL page. -/
def awaitPull (x : Pull) : M Unit := do
  let s ← get
  if s.pullGone.contains (x.asid, x.page) then pure ()
  else
    set (s.startPull x)
    throw .sent

/-- A replay that had to wait (`faultAnswered`) posts its record with its own number, which stands in `aux`. -/
def runProbeRes (d : SReg) (pw : Bool) : Perf := fun c e => do
  sysRelease c e
  match ← dispatched (probe c pw (e.x 0)) with
  | .code n => pure (.done [.s d (BitVec.ofNat 64 n)] (wordOk 0))
  | .pull x => do
    awaitPull x
    pure (.done [.s d 1] (wordOk 0))
  | .stop va entry level => do
    let s ← get
    if !((s.part (s.core c).ctx.part).tb.ringOn) then pure (.done [.s d 2] (wordOk 0))
    else
      modify (newRecord c (e.x 0) pw e.aux va entry level)
      pure .pend

/-- R353, R354: the driver answers record `seq`: the walk is made again. -/
def faultAnswered (p seq : Nat) (s : State) : State :=
  match (s.part p).flts.find? (fun f => f.posted && f.seq == seq) with
  | none => s
  | some f =>
    let s1 := s.modPart p (fun q => { q with flts := q.flts.filter (fun x => x != f) })
    match (s.core f.core).entryPos f.owns with
    | none => s1
    | some i =>
      match probe f.core f.write f.ptr s1 with
      | (.ok (.code n), s2) => endProbe f n s2
      | (.ok (.stop va entry level), s2) => newRecord f.core f.ptr f.write (f.replay + 1) va entry level s2
      | (_, s2) =>
        -- a PULL page or a stack that is away: the entry goes on waiting, with the number of its replay
        (s1.heldBack s2).modCore f.core (fun k => match k.q.es[i]? with
          | some e => k.setEntry i { e with phase := .waiting, aux := f.replay + 1 }
          | none => k)

-- ### MMU words (R334, R335, R381)

/-- The pages that an `MMU.INV` covers: ASIDs and page numbers, both as first and number. -/
structure Cover where
  asid0 : Nat
  asids : Nat
  page0 : Nat
  pages : Nat

def Cover.has (v : Cover) (asid page0 n : Nat) : Bool :=
  v.asid0 ≤ asid && asid < v.asid0 + v.asids && page0 < v.page0 + v.pages && v.page0 < page0 + n

/-- R334: what the operands cover. -/
def coverOf (p : Part) (asid : Nat) (base len : Word) (allas allva : Bool) : Cover where
  asid0 := if allas then p.tb.asidbase else asid
  asids := if allas then p.tb.ctxcnt else 1
  page0 := if allva then 0 else fld base 0 52 / 65536
  pages := if allva then 2 ^ 36 else if len = 0 then 0 else min ((fld base 0 52 + len.toNat - 1) / 65536) (2 ^ 36 - 1) + 1 - fld base 0 52 / 65536

/-- A page of an address space is covered. -/
def Cover.hasPage (v : Cover) (page : Nat) : Bool := v.has (page / 2 ^ 36) (page % 2 ^ 36) 1

/-- The pages that the key of a held translation stands for (R344, R347): the first and their number. -/
def keyPages (key : Nat) : Nat × Nat :=
  let n := if key % 4 = 0 then 1 else if key % 4 = 1 then 32 else 8192
  (n * (key / 4 % 2 ^ 36), n)

/-- The translation under a key maps a covered page. -/
def Cover.drops (v : Cover) (key : Nat) : Bool := v.has (key / 2 ^ 38) (keyPages key).1 (keyPages key).2

/-- R334 step 1: what a TLB holds after an `MMU.INV`. -/
def Cover.keep (v : Cover) (m : Tlb) : Tlb := m.filter (fun e => !v.drops e.1)

/-- R381: the L1 lines of a core that lie in covered pages: those known through one, and those in a frame that a held translation gives one. -/
def CoreSt.coveredLines (k : CoreSt) (v : Cover) : List Nat :=
  let frames := k.ctx.tlb.filterMap (fun e => match e.2 with
    | some t => if v.drops e.1 then some (ptePfn t.leaf.toNat, (keyPages e.1).2) else none
    | none => none)
  (k.loc.l1.filter (fun e => match e.2 with
    | some x => x.pages.any v.hasPage || frames.any (fun f => f.1 ≤ e.1 / 256 && e.1 / 256 < f.1 + f.2)
    | none => false)).map Prod.fst

/-- One core under an `MMU.INV`: its lines go home first. -/
def invCore (v : Cover) (allva : Bool) (c : Nat) : M Unit := do
  flushLines c ((← getCore c).coveredLines v)
  modCore c (fun k =>
    { k with ctx := { k.ctx with
        tlb := v.keep k.ctx.tlb
        bufs := if allva && v.has k.ctx.asid 0 1 then [] else k.ctx.bufs } })

def invCores (v : Cover) (allva : Bool) : List Nat → M Unit
  | [] => pure ()
  | c :: cs => do
    invCore v allva c
    invCores v allva cs

/-- R334: what the module's shared structures hold of covered pages goes: L2 and L3 TLBs, the walkers' entries, pulls, the classes through which
frames are reached. -/
def State.invShared (s : State) (v : Cover) : State :=
  { s with
    tlb2 := SMap.mapVals [] v.keep s.tlb2
    tlb3 := SMap.mapVals [] v.keep s.tlb3
    wheld := SMap.mapVals [] (fun l => l.filter (fun x => !v.has x.asid x.page0 x.pages)) s.wheld
    pulls := s.pulls.filter (fun x => !v.has x.asid x.page 1)
    frames := SMap.mapVals .zero (fun x => x.only (fun page => !v.hasPage page)) s.frames }

/-- R329: an ASID of the core's partition. -/
def ownAsid (c asid : Nat) : M Unit := do
  let s ← get
  let t := (s.part (s.core c).ctx.part).tb
  check (t.asidbase ≤ asid && asid < t.asidbase + t.ctxcnt) .rights (← openPtr)

/-- The count of covered pages; one that the field cannot hold is open (log entry 7). -/
def coverCount (tick n : Nat) : Nat := if n < 2 ^ 40 then n else (Config.freeWord tick).toNat % 2 ^ 40

def runMmuInv (allas allva : Bool) : Perf := fun c e => do
  let asid := fld (e.x 0) 0 16
  if !allas then ownAsid c asid
  sysRelease c e
  let s ← get
  let v := coverOf (s.part (s.core c).ctx.part) asid (e.x 1) (e.x 2) allas allva
  dispatched (invCores v allva (s.cores.map Prod.fst))
  modify (fun s => s.invShared v)
  pure (.done [] (wordOk (coverCount s.tick (v.pages * v.asids))))

/-- R335: walks that start from now on read every table entry at home. -/
def runMmuSync : Perf := fun c e => do
  sysRelease c e
  modify (fun s => { s with wheld := [] })
  pure (.done [] (wordOk 0))

def runMmuWalk (d : SReg) : Perf := fun c e => do
  let asid := fld (e.x 0) 0 16
  ownAsid c asid
  sysRelease c e
  let s ← get
  let p := (s.core c).ctx.part
  dispatched (await c (s.descAddr p asid))
  match s.descRead p asid with
  | .error x => walkErr x (s.descAddr p asid) 0
  | .ok desc =>
    let r := s.walkBy s.homeEntry (s.part p) (descRoot desc) (fld (e.x 1) 0 52)
    modify (fun s => (s.touched (s.descAddr p asid) 128 0).walkRead r)
    match r.1 with
    | .held pa => do
      dispatched (await c pa)
      throw .sent
    | .failed x pa => walkErr x pa 0
    | .unmapped x level | .leaf x level _ => pure (.done [.s d (BitVec.ofNat 64 x)] (cword 0 level 0))

-- ### Keys (R336, R359)

/-- The key of a word, which lies in the partition's grant. -/
def ownKey (c : Nat) (x : Word) : M Nat := do
  let s ← get
  let k := fld x 0 12
  check (k != 0 && keyOk (s.part (s.core c).ctx.part) k) .rights (← openPtr)
  pure k

/-- R441: a key word's entry in the journal. -/
def journalKey (c k : Nat) (s : State) : State :=
  let x := (s.core c).ctx
  journal x.part 6 0 0 (s.ctxIndex x.part x.asid) 0 0 k s

def runKeyLoad : Perf := fun c e => do
  let k ← ownKey c (e.x 0)
  check (SMap.get 0 (← get).keys k == 0) .rights (← openPtr)
  let ptr := e.x 1
  let off := ptrOffset ptr
  let l ← checkSpan c .copy .rd ptr off (off + 63)
  check (off % 64 == 0) .align ptr
  sysRelease c e
  let bs ← dispatched (homeRead c l .rd ptr off 64)
  modify (fun s => journalKey c k { s with keys := SMap.set 0 s.keys k (leNat bs + 1) })
  pure (.done [] (wordOk 0))

/-- R336: every slice destroys a key: its dirty lines under it are dropped and poisoned. Answers their number. -/
def killKey (k : Nat) (s : State) : Nat × State :=
  let dirty := s.lines.filter (fun e => e.2.dirty == k + 1)
  if SMap.get 0 s.keys k = 0 then (0, s)
  else
    let lines := dirty.foldl (fun m e => SMap.set .zero m e.1 { e.2 with dirty := 0, poison := true, got := 0 }) s.lines
    (dirty.length, { s with keys := SMap.set 0 s.keys k 0, lines := lines })

def runKeyKill : Perf := fun c e => do
  let k ← ownKey c (e.x 0)
  sysRelease c e
  let (n, s1) := killKey k (← get)
  set (journalKey c k s1)
  pure (.done [] (wordOk n))

end Sys2Proof.Machine
end

