-- ==== Sys2Proof/Machine/Devices.lean ====
section
/-! DEFINITION. The register blocks behind the PORT window (R10, R191): HBM PHYs (R429 to R432), metadata (R426), queue pairs (R418), tier (R415),
start status (R439), journal (R442), and the fields of the translation, pre-emption, fabric and migration blocks (R337, R371, R397, R399). -/

namespace Sys2Proof.Machine

-- ### HBM PHYs (R429 to R432). A channel's number is 64 s + c.

def State.phy (s : State) (ch : Nat) : Phy := SMap.get .cold s.hbm.phy ch
def State.setPhy (s : State) (ch : Nat) (x : Phy) : State := { s with hbm := { s.hbm with phy := SMap.set .cold s.hbm.phy ch x } }
def State.trn (s : State) (ch : Nat) : Bool := s.hbm.trn.getLsbD ch

/-- R429, R420: the field whose bailiff reaches a channel's block. -/
def phyField (ch : Nat) : Nat := ch % 64 / 16 + 4 * (ch / 64 % 2)

/-- A lane's delays: `RD` in bits 6:0, `WR` in bits 14:8. -/
def Phy.lane (x : Phy) (n : Nat) : Nat := SMap.get 0x4040 x.lanes n
def Phy.setLane (x : Phy) (n v : Nat) : Phy := { x with lanes := SMap.set 0x4040 x.lanes n v }

/-- The lane of a register offset. -/
def phyLane (o : Nat) : Option Nat := if 0x100 ≤ o ∧ o < 0x100 + 8 * 34 ∧ o % 8 = 0 then some ((o - 0x100) / 8) else none

/-- R432 step 4: of a set of lanes, those that a test compares: a lane that a repair replaces is not. -/
def Phy.compared (x : Phy) (lanes : Nat) : Nat :=
  let r0 := if x.repair.testBit 5 then 2 ^ natBits x.repair 0 4 else 0
  let r1 := if x.repair.testBit 13 then 2 ^ (16 + natBits x.repair 8 4) else 0
  let e := lanes % 2 ^ 34
  e - (e &&& (r0 + r1))

/-- R430: the bursts of a test. -/
def Phy.bursts (x : Phy) : Nat := if x.tlen = 0 then 64 else x.tlen

/-- R432 step 2: the PRBS-23 state in which a lane's pattern starts, and the next state. -/
def prbsStart (seed lane : Nat) : Nat :=
  let x := (seed + 0x91A3 * lane) % 2 ^ 23
  if x = 0 then 1 else x
def prbsNext (x : Nat) : Nat := (2 * x + bitNat (x.testBit 22 != x.testBit 17)) % 2 ^ 23

/-- The eight UI of a lane's burst from a state, the first in bit 0, and the state after them. -/
def prbsBurst (x : Nat) : Nat × Nat :=
  (upTo 8).foldl (fun (r : Nat × Nat) i => (r.1 + atBit (bitNat (r.2.testBit 22)) i, prbsNext r.2)) (0, x)

/-- R432 step 3: a write-read test leaves its pattern in the first bursts of both pseudo-channels: `n` bursts from burst `b` on, with the lanes in
these states. Where they lie, and how a burst's bits stand in bytes, the spec leaves open (log entry 60). -/
def patternBursts (ch : Nat) : Nat → Nat → List Nat → State → State
  | 0, _, _, s => s
  | n + 1, b, lanes, s =>
    let out := lanes.map prbsBurst
    let pattern := fun (pc : Nat) => leNat ((((out.map Prod.fst).drop (16 * pc)).take 16).map (BitVec.ofNat 8))
    let put := fun (a : State) (i : Nat) =>
      a.physPut (2 ^ 34 * (ch / 16) + Config.burstAddr ch (32 * b + i) % 2 ^ 34) [Config.burstByte (pattern (i / 16)) (i % 16)]
    patternBursts ch n (b + 1) (out.map Prod.snd) ((upTo 32).foldl put s)

/-- A register of a PHY block. `TERR` and `TCNT` of a test in progress hold what it has compared so far (log entry 60). -/
def phyRead (s : State) (ch o : Nat) : Nat :=
  let x := s.phy ch
  match phyLane o with
  | some n => x.lane n
  | none =>
    if o = 0x000 then bitNat (s.trn ch)
    else if o = 0x008 then x.vrefc
    else if o = 0x010 then x.repair
    else if o = 0x030 then x.tseed
    else if o = 0x038 then x.tlen
    else if o = 0x040 then bitNat (x.test != 0)
    else if o = 0x048 then x.terr
    else if o = 0x050 then x.tcnt
    else 0

/-- R431: the block takes writes other than those to `TRN`. -/
def State.phyOpen (s : State) (ch : Nat) : Bool := s.trn ch && (s.phy ch).test == 0

/-- R441: the writes of the partitions' mirrors that waited are made. -/
def payJournals (s : State) : State := (upTo 16).foldl (fun a p => payJournal p a) s

/-- A bailiff starts its firmware in context 0 of a partition, at a place that the spec does not give (log entries 7, 26); once the context's
descriptor can be read (R428, R431). -/
def startBailiff (p f : Nat) (s : State) : State :=
  let asid := (s.part p).tb.asidbase
  if s.paWaits (s.descAddr p asid) then s else
  let pc := Config.freeWord (s.tick + f) &&& 0xFFFFFFFFFFFFFFF8
  s.modCore (256 + f) (fun k =>
    { CoreSt.cold with f := { ScalarFile.zero with pc := pc }, ctl := { CoreSt.cold.ctl with bevt := k.ctl.bevt },
                       ctx := { CoreSt.cold.ctx with asid := asid, part := p, desc := s.descFor p asid, imem := s.mem, ilines := s.lines },
                       slot := { CoreSt.cold.slot with active := true } })

/-- The bailiffs of a partition's fields that run no other partition's code. -/
def startBailiffs (p : Nat) (s : State) : State :=
  (s.part p).fields.foldl (fun a f => if (a.core (256 + f)).slot.active then a else startBailiff p f a) s

/-- What waited on memory is tried again: the bailiffs' start, the journals' mirrors (R441), remote operations at the port
(R392), window commands (R398), and fault records for their ring (R354). -/
def memoryBack (s : State) : State :=
  let s1 := (s.parts.filter (fun e => e.2.prov)).foldl (fun a e => startBailiffs e.1 a) (payJournals s)
  (upTo 16).foldl (fun a p => postWaiting p (winChange p a)) (retryRemote s1)

/-- R431: a write of `TRN`; what waited is tried again. -/
def writeTrn (ch : Nat) (v : Bool) (s : State) : State :=
  if v then
    if s.mgmt.provisioned then s else { s with hbm := { s.hbm with trn := s.hbm.trn ||| (1#2048 <<< ch) } }
  else if s.mgmt.retired.getLsbD (ch / 64) then s
  else memoryBack { s with hbm := { s.hbm with trn := s.hbm.trn &&& ~~~(1#2048 <<< ch) } }

/-- R432 step 1: a test starts. -/
def startTest (ch kind : Nat) (s : State) : State :=
  if s.phyOpen ch && (kind == 1 || kind == 2) then s.setPhy ch { s.phy ch with test := kind, terr := 0, tcnt := 0 } else s

/-- Both delays' codes of all 34 lanes (R430 `RDALL`, `WRALL`). -/
def writeAllLanes (ch v : Nat) (wr : Bool) (s : State) : State :=
  if s.phyOpen ch then
    s.setPhy ch ((upTo 34).foldl (fun x n => x.setLane n (if wr then x.lane n % 128 + 256 * (v % 128) else x.lane n / 256 * 256 + v % 128)) (s.phy ch))
  else s

/-- R432 step 4: what a test has compared when more of it is known: no lane of `TERR` and no bit counted is taken back, every lane has at least one
mismatched bit, and at most all of its bits. -/
def Phy.progress (x : Phy) (terr tcnt : Nat) : Phy :=
  let lanes := fun (e : Nat) => ((upTo 34).filter e.testBit).length
  let e := x.terr ||| x.compared terr
  let n := min (max tcnt (x.tcnt + lanes e - lanes x.terr)) (8 * x.bursts * lanes e)
  { x with terr := e, tcnt := min n (2 ^ 40 - 1) }

/-- R432: a test in progress compares more. -/
def testProgress (ch terr tcnt : Nat) (s : State) : State := if (s.phy ch).test = 0 then s else s.setPhy ch ((s.phy ch).progress terr tcnt)

/-- R432 steps 3 to 5: a test ends with what was compared. -/
def endTest (ch terr tcnt : Nat) (s : State) : State :=
  let x := s.phy ch
  if x.test = 0 then s
  else
    let s1 := s.setPhy ch { x.progress terr tcnt with test := 0 }
    if x.test = 2 then patternBursts ch x.bursts 0 ((upTo 32).map (prbsStart x.tseed)) s1 else s1

def phyWrite (ch o : Nat) (v : Word) (s : State) : State :=
  if o = 0x000 then writeTrn ch (v.getLsbD 0) s
  else if !s.phyOpen ch then s
  else
    let x := s.phy ch
    match phyLane o with
    | some n => s.setPhy ch (x.setLane n (v &&& 0x7F7F).toNat)
    | none =>
      if o = 0x008 then s.setPhy ch { x with vrefc := fld v 0 7 }
      else if o = 0x010 then s.setPhy ch { x with repair := (v &&& 0x2F2F).toNat }
      else if o = 0x018 then writeAllLanes ch (fld v 0 7) false s
      else if o = 0x020 then writeAllLanes ch (fld v 0 7) true s
      else if o = 0x028 then startTest ch (fld v 0 2) s
      else if o = 0x030 then s.setPhy ch { x with tseed := fld v 0 23 }
      else if o = 0x038 then s.setPhy ch { x with tlen := fld v 0 20 }
      else s

-- ### Metadata (R426)

/-- What `MDPTR` names, checked as a one-byte write. -/
def mdPlace (c : Nat) (ptr : Word) : M Place := do
  let off := ptrOffset ptr
  match ← checkSpan c .scalar .wr ptr off off with
  | .glob b => do
    let pl ← translate c b (bufBase b + off) .wr ptr
    awaitAt c pl
    pure pl
  | _ => trap .rights ptr

def writeMdptr (c : Nat) (v : Word) : M Unit := do
  let _ ← mdPlace c v
  modCore c (fun k => { k with ctl := { k.ctl with mdptr := some v } })

/-- Where an access to `MDVAL` goes: where `MDPTR` leads, if it has been written and still leads to memory. The access itself raises nothing
(log entry 97). -/
def mdvalPlace (c : Nat) : M (Option Place) := do
  match (← getCore c).ctl.mdptr with
  | some ptr => quiet (mdPlace c ptr)
  | none => pure none

/-- A sector's tag, or a line's code; a buffer that is neither tagged nor compressible has no metadata. -/
def readMdval (c : Nat) : M Word := do
  match ← mdvalPlace c with
  | none => pure 0
  | some pl =>
    let s ← get
    if pl.tagged && s.tagBad.contains (pl.pa / 64) then let ptr := (s.core c).ctl.mdptr.getD 0; lineErr .ecc pl.pa ptr (ptrOffset ptr)
    pure (if pl.tagged then BitVec.ofNat 64 (SMap.get 0 s.tags (pl.pa / 64))
      else if pl.compr then BitVec.ofNat 64 (s.lineSt (pl.pa / 256)).code else 0)

def writeMdval (c : Nat) (v : Word) : M Unit := do
  match ← mdvalPlace c with
  | none => pure ()
  | some pl => modify (fun s =>
    if pl.tagged then s.putTag (pl.pa / 64) (fld v 0 16)
    else if pl.compr then s.setLineSt (pl.pa / 256) { s.lineSt (pl.pa / 256) with code := fld v 0 4 }
    else s)

-- ### Queue pairs (R418)

def qpRead (s : State) (q o : Nat) : Nat :=
  let x := s.qpair q
  if o = 0x00 then x.sqb
  else if o = 0x08 then x.cqb
  else if o = 0x10 then x.qlog + atBit (bitNat x.blk) 4 + atBit x.own 5 + atBit (bitNat x.ownv) 9 + atBit (bitNat x.en) 10 + atBit x.tmo 11
  else if o = 0x18 then x.sqdb.toNat
  else if o = 0x20 then x.cqdb.toNat
  else if o = 0x28 then s.sioOut q % 2 ^ 13 + atBit x.err 13
  else 0

/-- `QERR` is cleared by a read. -/
def clearQerr (q : Nat) (s : State) : State := s.setQpair q { s.qpair q with err := 0 }

def qpWrite (q o : Nat) (v : Word) (s : State) : State :=
  if o = 0x10 then s.setQpair q { s.qpair q with en := v.getLsbD 10, tmo := fld v 11 16 } else s

-- ### Tier and start status (R415, R439)

def tierRead (s : State) (p o : Nat) : Nat := if !s.cxl then 0 else if o = 0 then (s.part p).tbase else (s.part p).tlen

def tierWrite (p o : Nat) (v : Word) (s : State) : State :=
  if !s.cxl then s
  else if o = 0 then s.modPart p (fun q => { q with tbase := fld v 0 50 })
  else s.modPart p (fun q => { q with tlen := fld v 0 45 })

def startRead (s : State) (o : Nat) : Nat :=
  let b := s.mgmt.boot
  if o = 0 then b.stage % 16 + atBit (b.reason % 256) 4 + atBit (b.failcnt % 4) 12 + atBit (bitNat b.minmode) 14 else b.detail % 2 ^ 32

-- ### Journal (R442)

def LState.ast : LState → Nat
  | .running => 1
  | .draining | .suspended => 2
  | .halted => 3
  | .ending => 1

/-- A place's row. -/
def placeRow (s : State) (p n : Nat) : Nat :=
  match (s.part p).launches.find? (fun l => l.place == n) with
  | some l => l.lid + atBit l.st.ast 32 + atBit (s.ctxIndex p l.asid) 34
  | none => 0

/-- A register of the journal block; `none`: the block has none there. -/
def journalRead (s : State) (p o : Nat) : Option Nat :=
  let j := (s.part p).jn
  if o = 0 then some (j.jbase + atBit j.jlog 50)
  else if o = 8 then some j.jnext
  else if 0x800 ≤ o ∧ o < 0xC00 then some (if o % 16 = 0 then placeRow s p ((o - 0x800) / 16) else 0)
  else if 0x1000 ≤ o ∧ o < 0x3000 then some (fld (SMap.get 0 j.entries ((o - 0x1000) / 32)) (8 * (o % 32)) 64)
  else none

def journalWrite (p o : Nat) (v : Word) (s : State) : State :=
  if o = 0 then s.modPart p (fun q => { q with jn := { q.jn with jbase := fld v 0 50, jlog := fld v 50 5 } }) else s

-- ### Translation (R337)

def tbRead (s : State) (p o : Nat) : Nat :=
  let t := (s.part p).tb
  if o = 0x00 then t.ctxbase
  else if o = 0x08 then t.asidbase + atBit t.ctxcnt 16
  else if o = 0x10 then t.keybase + atBit t.keycnt 12
  else if o = 0x18 then t.fqbase + atBit t.fqlog 50
  else if o = 0x20 then t.fqhead + atBit t.fqtail 32
  else if o = 0x30 then t.pfdrop
  else if o = 0x38 then t.fqmsix + atBit (bitNat t.fqien) 11
  else 0

def clearPfdrop (p : Nat) (s : State) : State := s.modPart p (fun q => { q with tb := { q.tb with pfdrop := 0 } })

def tbWrite (p o : Nat) (v : Word) (s : State) : State :=
  if o = 0x18 then postWaiting p (s.modPart p (fun q => { q with tb := { q.tb with fqbase := fld v 0 50, fqlog := fld v 50 5 } }))
  else if o = 0x20 then postWaiting p (s.modPart p (fun q => { q with tb := { q.tb with fqhead := fld v 0 32 } }))
  else if o = 0x28 then faultAnswered p (fld v 0 32) s
  else if o = 0x38 then s.modPart p (fun q => { q with tb := { q.tb with fqmsix := fld v 0 11, fqien := v.getLsbD 11 } })
  else s

-- ### Pre-emption (R371)

/-- A command in progress goes on before anything else happens to its partition. -/
def pushCommand (p : Nat) (s : State) : State := { s with agenda := s.agenda ++ [.command p] }

/-- R380: the roles of a core that are halted by now: a halted role that still has an entry at work is at no entry boundary yet. -/
def CoreSt.halted (k : CoreSt) : Nat :=
  ((upTo 5).filter (fun r => k.slot.roles.getLsbD r && (r == 0 || !k.q.es.any (fun e => !e.unstarted && !e.held && e.qs.any (fun q => q.role == r))))).foldl (fun n r => n + 2 ^ r) 0

def preRead (s : State) (p o : Nat) : Nat :=
  let b := (s.part p).pb
  if o = 0x08 then b.slid + atBit b.sop 32 + atBit (bitNat b.busy) 35 + atBit b.res 36 + atBit b.place 40
  else if o = 0x18 then (if (s.part p).hset.getLsbD (b.dcroft / 16) then atBit (s.core b.dcroft).halted 8 else 0)
  else 0

def preWrite (p o : Nat) (v : Word) (s : State) : State :=
  if o = 0x00 then
    let (started, s1) := startCmd p (fld v 0 32) (fld v 32 3) s
    if started then pushCommand p s1 else s1
  else if o = 0x10 then roleCmd p (fld v 0 8) (v.extractLsb' 8 5) (v.getLsbD 13) s
  else s

-- ### Fabric and migration (R395, R397, R399)

def fbRead (s : State) (p o : Nat) : Nat :=
  let f := (s.part p).fb
  if o = 0x00 then f.inbase
  else if o = 0x08 then f.incnt + atBit f.grpbase 13 + atBit f.grpcnt 25
  else if o = 0x18 then bitNat f.wbusy
  else if o = 0x20 then f.rdcnt
  else 0

def clearRdcnt (p : Nat) (s : State) : State := s.modPart p (fun q => { q with fb := { q.fb with rdcnt := 0 } })

def fbWrite (p o : Nat) (v : Word) (s : State) : State :=
  if o = 0x00 then s.modPart p (fun q => { q with fb := { q.fb with inbase := fld v 0 50 } })
  else if o = 0x08 then s.modPart p (fun q => { q with fb := { q.fb with incnt := fld v 0 13 } })
  else if o = 0x10 then pushCommand p (winCommand p (fld v 0 12) (fld v 12 2) s)
  else s

def MigSt.num : MigSt → Nat
  | .run => 0 | .freezing => 1 | .frozen => 2 | .sent => 3 | .released => 4 | .armed => 5 | .loaded => 6 | .live => 7

def mgRead (s : State) (p o : Nat) : Nat :=
  let m := (s.part p).mg
  if o = 0x08 then m.peer + atBit m.part 9
  else if o = 0x10 then m.img
  else if o = 0x18 then m.len
  else if o = 0x20 then m.st.num + atBit (bitNat m.busy) 3 + atBit m.res 4
  else if o = 0x28 then m.used
  else if o = 0x30 then (s.pullLeaves p).length
  else 0

def mgWrite (p o : Nat) (v : Word) (s : State) : State :=
  if o = 0x00 then
    let (started, s1) := migStart p (fld v 0 3) s
    if started then pushCommand p s1 else s1
  else if o = 0x08 then modMig p (fun m => { m with peer := fld v 0 9, part := fld v 9 4 }) s
  else if o = 0x10 then modMig p (fun m => { m with img := fld v 0 50 }) s
  else if o = 0x18 then modMig p (fun m => { m with len := fld v 0 40 }) s
  else s

def grpRead (s : State) (p g o : Nat) : Nat := if o = 0 then (s.groupWord p g).toNat else 0

def grpWrite (p g o : Nat) (v : Word) (s : State) : State :=
  if o = 0 then { s with fab := { s.fab with groups := SMap.set 0 s.fab.groups ((s.part p).fb.grpbase + g) (v &&& 0x00000FFFFFFF07FF) } } else s

end Sys2Proof.Machine
end

