-- ==== Sys2Proof/Machine/Mgmt.lean ====
section
/-! DEFINITION. Management: the start sequence (R435 to R439), partitions (R445, R446), resets (R447), health (R448, R449), degraded operation (R450
to R452), attestation (R453), self-refresh (R428). A command is done, with an answer of R444, in the step that takes it or, once begun, in a
later one. -/

namespace Sys2Proof.Config

/-- R453: byte `i` of a partition's `PROVISION` arguments as an attestation report lays them out. Log entry 25. -/
opaque argsForm : (args : List Nat) → (i : Nat) → Byte

/-- R453: byte `i` of the signature over a report's first 512 bytes. Log entry 25. -/
opaque signature : List Byte → (i : Nat) → Byte

end Sys2Proof.Config

namespace Sys2Proof.Machine

/-- R444: a command's answer. -/
def State.answered (s : State) (code : Nat) : State := { s with mgmt := { s.mgmt with answer := code } }

/-- R326: the host or management mailbox is written. -/
def mailbox (s : State) : State := (upTo 8).foldl (fun a f => setBevt f 2 a) s

/-- R444: a command comes through the mailbox; while another is in progress it is answered BUSY. -/
def command (f : State → State) (s : State) : State :=
  if s.mgmt.pending.isSome then (mailbox s).answered 1 else f (mailbox s)

/-- The answer of a command that succeeds only at another time, when R444 names no code for that: any but OK (log entry 7). -/
def openRefusal (s : State) : Nat := 1 + (Config.freeWord s.tick).toNat % 4

def State.setBoot (s : State) (b : Boot) : State := { s with mgmt := { s.mgmt with boot := b } }

-- ### The start sequence (R435 to R438)

/-- The module without power, or as power comes: everything at its Reset value but what is non-volatile and the management log. -/
def State.cold (s : State) (b : Boot) : State :=
  { State.reset with active := s.active, agenda := s.agenda, eager := s.eager, tick := s.tick,
                     mgmt := { State.reset.mgmt with boot := b, evlog := s.mgmt.evlog } }

/-- What non-volatile storage carries from one start to the next (R437, R439). -/
def Boot.keep (b : Boot) : Boot := { Boot.reset with stage := 0, reason := b.reason, detail := b.detail, failcnt := b.failcnt }

/-- R435, R437: power-good. A start past stage ROM that it cuts short has failed (R449), of a reason that R439 has no code for (log entry 68). -/
def coldStart (s : State) : State :=
  let cut := s.mgmt.boot.running && s.mgmt.boot.stage != 0
  let s := if cut then s.logEvent evStart ((Config.freeWord s.tick).toNat % 256) else s
  let b := s.mgmt.boot.keep
  s.cold { b with running := true, minmode := b.failcnt == 3 }

/-- A start fails (R435, R439, R449). -/
def startFails (reason detail : Nat) (s : State) : State :=
  let b := s.mgmt.boot
  (s.setBoot { b with running := false, reason := reason % 256, detail := detail % 2 ^ 32 }).logEvent evStart reason

/-- R437: power is lost. A start that was past stage ROM has failed; the supply rail that `DETAIL` names is open (log entry 7). -/
def powerLoss (s : State) : State :=
  let b := s.mgmt.boot
  let s1 := if b.running && b.stage ≠ 0 then startFails 0x0B (Config.freeWord s.tick).toNat s else s
  s1.cold s1.mgmt.boot.keep

/-- Stacks that stage HBM may train: all, or 0 to 3 in minimal mode (R438). -/
def Boot.stacks (b : Boot) : BitVec 32 := if b.minmode then 0xF else BitVec.allOnes 32

/-- R435: stage HBM passes with these stacks failed. -/
def hbmPasses (failed : BitVec 32) : Bool := failed &&& 0xF == 0 && onesBelow failed.toNat 32 ≤ 8

/-- `DETAIL` of HBMFAIL (R439). -/
def hbmDetail (failed : BitVec 32) : Nat := ((upTo 4).find? (fun i => failed.getLsbD i)).getD 0xFF

/-- R433, R434: the PHY block that training leaves of a channel (log entry 60). -/
def trainedPhy (ch : Nat) : Phy :=
  { Phy.cold with
    repair := (Config.trainedRepair ch).toNat &&& 0x2F2F
    tseed := 0x5A1F3
    tlen := 0x10000
    lanes := ((upTo 34).map (fun n => (n, (Config.trainedLane ch n).toNat &&& 0x7F7F))).filter (fun e => e.2 != 0x4040) }

/-- R435: stage HBM: the channels of the stacks that passed are trained; the others are retired. -/
def stageHbm (failed : BitVec 32) (s : State) : State :=
  let out := failed ||| ~~~s.mgmt.boot.stacks
  let trn := (upTo 32).foldl (fun (x : BitVec 2048) n => if out.getLsbD n then x else x &&& ~~~(BitVec.ofNat 2048 (atBit (2 ^ 64 - 1) (64 * n)))) s.hbm.trn
  let phy := ((upTo 2048).filter (fun ch => !out.getLsbD (ch / 64))).map (fun ch => (ch, trainedPhy ch))
  let s1 := { s with hbm := { s.hbm with trn := trn, phy := phy }, mgmt := { s.mgmt with retired := out } }
  ((upTo 32).filter (fun n => failed.getLsbD n)).foldl (fun a n => a.logEvent evRetired n) s1

/-- The image of a kind among those found (R436). -/
def fwImage (kind : Nat) (xs : List FwImage) : Option FwImage := xs.find? (fun m => m.present && fld m.header 32 8 == kind)

/-- R436: an image's signature checks. -/
def imageSigned (m : FwImage) : Bool :=
  fld m.header 0 32 == 0x39545A4F && fld m.header 864 1184 == 0 && fld m.header 56 8 < 4 && !m.revoked && m.signer && m.verifies &&
  fld m.header 96 256 == m.digest.toNat

/-- R436, R439: why the start fails on an image of a kind, if it does. -/
def fwFails (xs : List FwImage) (kind : Nat) : Option (Nat × Nat) :=
  match fwImage kind xs with
  | none => some (0x04, kind)
  | some m => if !imageSigned m then some (0x02, kind) else if fld m.header 40 16 < m.least then some (0x03, kind) else none

/-- R435, R439: the reason and the detail with which stage `k` fails, if it does; an outcome that the table has no reason for is none. -/
def stageFails (b : Boot) (k : Nat) (r : StageResult) : Option (Nat × Nat) :=
  let bad := r.failed &&& b.stacks
  if k = 2 then [1, 2, 3].findSome? (fwFails r.images)
  else if k = 5 then (if hbmPasses bad then none else some (0x07, hbmDetail bad))
  else if r.ok then none
  else if k = 1 then some (0x01, 0)
  else if k = 3 then some (0x05, r.detail % (if b.minmode then 2 else 8))
  else if k = 4 then some (0x06, r.detail % (if b.minmode then 1 else 8))
  else if k = 7 then (if b.minmode then none else some (0x08, r.detail % 24))
  else if k = 8 then some (0x09, r.detail % (if b.minmode then 1 else 2))
  else none

/-- R435, R411: the outcome is one that the stage can have: no reason stands for a failure of stages METADATA and READY, and one host port at
most is in storage mode. -/
def stageMeets (k : Nat) (r : StageResult) : Bool :=
  (r.ok || (k != 6 && k != 9)) && !(k == 8 && r.modes.1 % 3 == 2 && r.modes.2 % 3 == 2)

/-- What a passed stage leaves (R435 to R438). -/
def stageDone (k : Nat) (r : StageResult) (s : State) : State :=
  let b := s.mgmt.boot
  let s1 := s.setBoot { b with stage := k }
  if k = 1 then s1.setBoot { b with stage := 1, failcnt := min 3 (b.failcnt + 1) }
  else if k = 2 then
    let hs := [1, 2, 3].map (fun n => ((fwImage n r.images).map FwImage.header).getD 0)
    s1.setBoot { b with stage := 2, idig := hs.map (fun h => h.extractLsb' 96 256), isvn := hs.map (fun h => fld h 40 16) }
  else if k = 5 then stageHbm (r.failed &&& b.stacks) s1
  else if k = 6 then 
    { s1 with mden := r.mden, tagfr := min r.tagfr (2 ^ 18), tags := [], tagBad := [], lines := SMap.mapVals .zero (fun x => { x with code := 0 }) s1.lines }
  else if k = 7 then
    if b.minmode then
      (upTo 24).foldl (fun a n => a.logEvent evPortDown n) { s1 with devid := 0, fab := { s1.fab with ports := (upTo 24).map (fun n => (n, ⟨2, 0, 0, []⟩)) } }
    else { s1 with devid := r.devid % 512 }
  else if k = 8 then
    { s1 with stor := { s1.stor with mode0 := if b.minmode then 0 else r.modes.1 % 3, mode1 := if b.minmode then 3 else r.modes.2 % 3 } }
  else if k = 9 then
    let s2 := s1.setBoot { b with stage := 9, running := false, failcnt := if b.minmode then 3 else 0 }
    if b.minmode then { s2 with mgmt := { s2.mgmt with tclk := 1000 } }.logEvent evClock 0 else s2
  else s1

/-- R435: the stage that comes next ends. Stage FABRIC is skipped in minimal mode. -/
def bootStage (r : StageResult) (s : State) : State :=
  let b := s.mgmt.boot
  let k := b.stage + 1
  if !b.running || 9 < k || !stageMeets k r then s
  else match stageFails b k r with
    | some (reason, detail) => startFails reason detail s
    | none => stageDone k r s

/-- R435: READY is not reached in 10 s. -/
def startStall (s : State) : State := if s.mgmt.boot.running then startFails 0x0A s.mgmt.boot.stage s else s

/-- READY has been reached (R435). -/
def State.ready (s : State) : Bool := s.mgmt.boot.stage == 9 && !s.mgmt.boot.running

-- ### Partitions (R445)

/-- The partitions in use. -/
def State.inUse (s : State) : List (Nat × Part) := s.parts.filter (fun e => e.2.prov)

/-- Two ranges share a number. -/
def overlap (a n b m : Nat) : Bool := n != 0 && m != 0 && a < b + m && b < a + n

/-- R445: an argument lies outside its limits. -/
def provBad (s : State) (a : ProvArgs) : Bool :=
  let sum := fun (f : Part → Nat) => (s.inUse.map (fun e => f e.2)).foldl (· + ·) 0
  16 ≤ a.p || (s.part a.p).prov || a.hset == 0 || a.sset == 0 || a.sset &&& s.mgmt.retired != 0 || a.coml < a.comb || 65536 < a.coml ||
  a.nvf == 0 || 12 < a.nvf || 192 < a.nvf + sum Part.nvf || a.ctxcnt == 0 || 1024 < a.ctxcnt + sum (fun q => q.tb.ctxcnt) ||
  4095 < a.keycnt + sum (fun q => q.tb.keycnt) || 4096 < a.grpcnt + sum (fun q => q.fb.grpcnt) || 16 < a.capa || 16 < a.capb ||
  (s.mgmt.boot.minmode && (a.hset &&& 0xFFFC != 0 || 8192 < a.coml))

/-- R445: the request would take what another partition holds. -/
def provDenied (s : State) (a : ProvArgs) : Bool :=
  s.inUse.any (fun e => e.2.hset &&& a.hset != 0 || e.2.sset &&& a.sset != 0 || overlap e.2.comb (e.2.coml - e.2.comb) a.comb (a.coml - a.comb))

/-- The firmware's assignments are what R337, R445 and R357 make them: grants within their tables and disjoint. -/
def provAssigned (s : State) (a : ProvArgs) : Bool :=
  a.ctxbase % 65536 == 0 && a.ctxbase < 2 ^ 50 && a.asidbase + a.ctxcnt ≤ 65536 && 1 ≤ a.keybase && a.keybase + a.keycnt ≤ 4096 &&
  a.grpbase + a.grpcnt ≤ 4096 && a.vfbase + a.nvf ≤ 192 &&
  s.inUse.all (fun e => !overlap e.2.tb.asidbase e.2.tb.ctxcnt a.asidbase a.ctxcnt && !overlap e.2.tb.keybase e.2.tb.keycnt a.keybase a.keycnt &&
    !overlap e.2.fb.grpbase e.2.fb.grpcnt a.grpbase a.grpcnt && !overlap e.2.vfbase e.2.nvf a.vfbase a.nvf)

/-- A partition as it is created. -/
def newPart (a : ProvArgs) : Part :=
  { Part.free with
    prov := true, hset := a.hset, sset := a.sset, comb := a.comb, coml := a.coml, vfbase := a.vfbase, nvf := a.nvf, capa := a.capa, capb := a.capb
    tb := { Part.free.tb with ctxbase := a.ctxbase, asidbase := a.asidbase, ctxcnt := a.ctxcnt, keybase := a.keybase, keycnt := a.keycnt }
    fb := { FBlock.zero with grpbase := a.grpbase, grpcnt := a.grpcnt } }

/-- R445: `PROVISION`. A request for which there is no assignment, or none such as the event gives, is refused (log entry 66). -/
def provision (a : ProvArgs) (s : State) : State :=
  if !s.ready || (s.mgmt.boot.minmode && !s.inUse.isEmpty) then s.answered (openRefusal s)
  else if provBad s a then s.answered 2
  else if provDenied s a then s.answered 3
  else if !provAssigned s a then s.answered (openRefusal s)
  else
    let s1 := s.setPart a.p (newPart a)
    let s2 := { s1 with mgmt := { s1.mgmt with provisioned := true } }
    let s3 := (newPart a).crofts.foldl (fun x c => x.modCore c (fun k => { k with ctx := { k.ctx with part := a.p } })) s2
    let s4 := (startBailiffs a.p s3).answered 0
    if 1 ≤ s.mgmt.pstep && (a.capa != 0 || a.capb != 0) then s4.logEvent evCapOn a.p else s4

-- ### Resets (R447)

/-- R447, R13: what a reset leaves of a croft: no point, no entry, no L1 line; its control registers and `MDPTR` at their Reset values (R324, R326,
R426). -/
def CoreSt.stopped (k : CoreSt) : CoreSt :=
  { k.emptied with
    f := { k.emptied.f with blk := Blk.zero }
    loc := { k.loc with l1 := [], plog := [], promo := none }
    ctl := { k.emptied.ctl with tcause := 0, dbgctl := 0, bevt := 0, mdptr := none, tvec := 0, tcut := 0, tscratch := 0, qslip := qslipReset }
    slot := { k.emptied.slot with running := none, staged := none, reqs := [], roles := 0 } }

/-- What a stopped core had asked of others is withdrawn: its requests (R330), and its commands on queue pairs (R417). -/
def withdrawCore (c : Nat) (s : State) : State :=
  let drop := fun (k : CoreSt) => { k with slot := { k.slot with reqs := k.slot.reqs.filter (fun r => r.core != c) } }
  { s with
    cores := SMap.mapVals .cold drop s.cores
    stor := { s.stor with rings := SMap.mapVals .zero (fun r => { r with cmds := r.cmds.filter (fun d => d.core != c) }) s.stor.rings } }

/-- A croft under a reset: everything it had issued and every L1 line goes, as do its gates; what its stack had bound stays bound. -/
def resetCroft (p c : Nat) (s : State) : State :=
  let s1 := withdrawCore c (s.modCore c CoreSt.stopped)
  let s2 := (s.contexts p).foldl (fun (x : State) d =>
    (upTo 64).foldl (fun (y : State) g => y.physPut (descPark d.2 + 0x10000 + 1024 * c + 16 * g) (List.replicate 16 0)) x) s1
  { s2 with gates := SMap.clear s2.gates (64 * c) 64, gateAsid := SMap.set 0 s2.gateAsid c 0 }

/-- The journal's entries for launches that a reset ends. -/
def journalEnds (p : Nat) (s : State) : State :=
  (s.part p).launches.foldl (fun a l => journal p 2 3 Cause.preempt.code (a.ctxIndex p l.asid) l.place l.lid 0 a) s

/-- Dirty lines of a partition's stacks are written back by their slices. -/
def cleanLines (p : Nat) (s : State) : State :=
  let mine := fun (line : Nat) => 256 * line < 2 ^ 41 && (s.part p).sset.getLsbD (natBits (256 * line) 36 5)
  { s with lines := s.lines.foldl (fun m e => if mine e.1 then SMap.set .zero m e.1 { e.2 with dirty := 0, got := 0 } else m) s.lines }

/-- The keys of a partition's grant are destroyed. -/
def killKeys (p : Nat) (s : State) : State :=
  (upTo (s.part p).tb.keycnt).foldl (fun a i => (killKey ((a.part p).tb.keybase + i) a).2) s

/-- A partition's register blocks at their Reset values, but for what `PROVISION` set, the journal's copy and the next launch id. -/
def Part.afterReset (q : Part) : Part :=
  { q with
    tb := { Part.free.tb with ctxbase := q.tb.ctxbase, asidbase := q.tb.asidbase, ctxcnt := q.tb.ctxcnt, keybase := q.tb.keybase, keycnt := q.tb.keycnt }
    pb := Part.free.pb, launches := [], deferred := [], flts := [], jn := { q.jn with jbase := 0, jlog := 0 }, bells := [], rung := [], tbase := 0, tlen := 0
    fb := { FBlock.zero with grpbase := q.fb.grpbase, grpcnt := q.fb.grpcnt }, mg := .zero }

/-- An ASID of a partition's. -/
def Part.hasAsid (q : Part) (a : Nat) : Bool := q.tb.asidbase ≤ a && a < q.tb.asidbase + q.tb.ctxcnt

/-- What the module keeps by ASID of a partition's accesses under way: pulls, freezes, the contexts' values of `DBGCTL`. -/
def State.forgetAsids (s : State) (q : Part) : State :=
  { s with
    pulls := s.pulls.filter (fun x => !q.hasAsid x.asid)
    pullGone := s.pullGone.filter (fun x => !q.hasAsid x.1)
    dbg := s.dbg.filter (fun e => !q.hasAsid e.1)
    hbm := { s.hbm with frozen := s.hbm.frozen.filter (fun x => !q.hasAsid x.1) } }

/-- R347: nothing that the shared TLBs, the walkers or the frames know of a partition's pages is left. -/
def State.forgetPages (s : State) (q : Part) : State :=
  let keep := fun (m : Tlb) => m.filter (fun e => !q.hasAsid (e.1 / 2 ^ 38))
  { s with
    tlb2 := SMap.mapVals [] keep s.tlb2
    tlb3 := SMap.mapVals [] keep s.tlb3
    wheld := SMap.mapVals [] (fun l => l.filter (fun x => !q.hasAsid x.asid)) s.wheld
    frames := SMap.mapVals .zero (fun x => x.only (fun page => !q.hasAsid (page / 2 ^ 36))) s.frames }

/-- A partition's remote operations that had been admitted are at the port again, to be judged anew. -/
def unadmit (p : Nat) (s : State) : State :=
  { s with fab := { s.fab with inbox := (s.fab.admitted.filter (fun x => x.op.part == p)).map Admitted.op ++ s.fab.inbox,
                               admitted := s.fab.admitted.filter (fun x => x.op.part != p) } }

/-- R447: a partition reset. -/
def resetPart (p : Nat) (s : State) : State :=
  let s1 := journalEnds p s
  let s2 := (s1.part p).crofts.foldl (fun a c => resetCroft p c a) s1
  let s3 := killKeys p (cleanLines p s2)
  let s4 := s3.forgetAsids (s3.part p)
  retryRemote (unadmit p (s4.modPart p Part.afterReset))

/-- `PRESET`. -/
def preset (p : Nat) (s : State) : State :=
  let q := s.part p
  if !q.prov then s.answered 2
  else if q.mg.busy then s.answered 1
  else if q.mg.st = .sent ∨ q.mg.st = .loaded then s.answered 4
  else (resetPart p s).answered 0

/-- `WRESET`: every partition, every key, every croft; the bailiffs restart. -/
def wreset (s : State) : State :=
  let ps := s.inUse.map Prod.fst
  let s1 := ps.foldl (fun a p => resetPart p a) s
  let s2 := (upTo 4096).foldl (fun a k => (killKey k a).2) s1
  let s3 := (upTo 256).foldl (fun a c => a.modCore c CoreSt.stopped) s2
  let s4 := (upTo 8).foldl (fun a f => withdrawCore (256 + f) (a.setCore (256 + f) .cold)) s3
  (ps.foldl (fun a p => startBailiffs p a) s4).answered 0

/-- R445: `RELEASE`. The partition's crofts and bailiffs are left without a context. -/
def releasePart (p : Nat) (s : State) : State :=
  let q := s.part p
  if !q.prov then s.answered 2
  else if !q.launches.isEmpty then s.answered 4
  else
    let s1 := q.crofts.foldl (fun a c => resetCroft p c a) s
    let s2 := q.fields.foldl (fun a f => if (a.core (256 + f)).ctx.part = p then withdrawCore (256 + f) (a.setCore (256 + f) .cold) else a) s1
    let s3 := q.crofts.foldl (fun a c => a.modCore c (fun k => { k with ctx := CoreSt.cold.ctx, slot := { k.slot with parked := false, gated := false } })) s2
    let s4 := if 1 ≤ s.mgmt.pstep && (q.capa != 0 || q.capb != 0) then s3.logEvent evCapOff p else s3
    retryRemote (unadmit p ((((s4.forgetAsids q).forgetPages q).setPart p .free).answered 0))

-- ### Health (R448, R449, R437, R446)

/-- R448: `TELEM`'s counters by key and value, the present power (open, log entry 7), the states of the ports. -/
def telem (s : State) : State :=
  let r := s.mgmt.tel.flatMap (fun e => [e.1, e.2]) ++ [(Config.freeWord s.tick).toNat % 2 ^ 48] ++ (upTo 24).map (fun n => (s.port n).st)
  { s with mgmt := { s.mgmt with report := r } }.answered 0

def clrcnt (s : State) : State := { s with mgmt := { s.mgmt with tel := [] } }.answered 0

def fullreq (s : State) : State := (s.setBoot { s.mgmt.boot with failcnt := 2 }).answered 0

/-- R446: `TAGFR`; a quadrant has 2^18 frames, and the tags of all of them and the line codes fit one. -/
def setTagfr (n : Nat) (s : State) : State :=
  if !s.inUse.isEmpty then s.answered 4
  else if 2 ^ 18 < n then s.answered 2
  else { s with tagfr := n }.answered 0

-- ### Degraded operation (R450 to R452)

def retireStack (n : Nat) (s : State) : State :=
  if 32 ≤ n then s.answered 2
  else if s.inUse.any (fun e => e.2.sset.getLsbD n) then s.answered 4
  else if s.mgmt.retired.getLsbD n then s.answered 0
  else ({ s with mgmt := { s.mgmt with retired := s.mgmt.retired ||| (1#32 <<< n) } }.logEvent evRetired n).answered 0

def fenceHamlet (n : Nat) (on : Bool) (s : State) : State :=
  if 16 ≤ n then s.answered 2
  else if s.mgmt.fenced.getLsbD n = on then s.answered 0
  else
    let m := 1#16 <<< n
    let f := if on then s.mgmt.fenced ||| m else s.mgmt.fenced &&& ~~~m
    ({ s with mgmt := { s.mgmt with fenced := f } }.logEvent (if on then evFenced else evUnfenced) n).answered 0

/-- R451: the power limit in W. -/
def setPlimit (w : Nat) (s : State) : State :=
  if w < 1500 ∨ 3400 < w then s.answered 2 else { s with mgmt := { s.mgmt with plimit := w } }.answered 0

/-- R449: an entry for every partition whose cap becomes active or inactive. -/
def logCaps (kind : Nat) (s : State) : State :=
  (s.inUse.filter (fun e => e.2.capa != 0 || e.2.capb != 0)).foldl (fun a e => a.logEvent kind e.1) s

/-- The clock in force, in MHz (R450, R451). -/
def State.clock (s : State) : Nat :=
  min s.mgmt.tclk (if 3 ≤ s.mgmt.pstep then 1100 else if 2 ≤ s.mgmt.pstep then 1400 else 1700)

/-- R449: an entry when the clock in force is another than it was. -/
def logClock (old : Nat) (s : State) : State := if s.clock = old then s else s.logEvent evClock 0

def powerStepDown (s : State) : State :=
  let n := s.mgmt.pstep
  if 3 ≤ n then s
  else
    let s1 := { s with mgmt := { s.mgmt with pstep := n + 1 } }
    if n = 0 then logCaps evCapOn s1 else logClock s.clock s1

def powerStepUp (s : State) : State :=
  let n := s.mgmt.pstep
  if n = 0 then s
  else
    let s1 := { s with mgmt := { s.mgmt with pstep := n - 1 } }
    if n = 1 then logCaps evCapOff s1 else logClock s.clock s1

/-- R450: the clock that temperature allows, in MHz. -/
def clockStep (mhz : Nat) (s : State) : State :=
  if s.mgmt.boot.minmode || (mhz ≠ 1700 ∧ mhz ≠ 1400 ∧ mhz ≠ 1100) then s
  else logClock s.clock { s with mgmt := { s.mgmt with tclk := mhz } }

-- ### Attestation (R453)

def attestBody (s : State) (nonce : BitVec 256) (p : Nat) : List Byte :=
  let b := s.mgmt.boot
  let q := s.part p
  let args := if p = 0xF then List.replicate 40 0
    else (upTo 40).map (Config.argsForm [p, q.hset.toNat, q.sset.toNat, q.comb, q.coml, q.nvf, q.tb.ctxcnt, q.tb.keycnt, q.fb.grpcnt, q.capa, q.capb])
  natBytes 32 nonce.toNat ++ (upTo 3).flatMap (fun i => natBytes 32 (b.idig.getD i 0).toNat) ++ (upTo 3).flatMap (fun i => natBytes 2 (b.isvn.getD i 0)) ++
  natBytes 2 (s.devid % 512 + atBit (bitNat b.minmode) 15) ++ args ++ List.replicate 336 0

def attest (nonce : BitVec 256) (p : Nat) (s : State) : State :=
  if p ≠ 0xF ∧ !(s.part p).prov then s.answered 2
  else
    let body := attestBody s nonce p
    { s with mgmt := { s.mgmt with report := (body ++ (upTo 64).map (Config.signature body)).map BitVec.toNat } }.answered 0

-- ### Self-refresh (R428)

def srefEnter (n : Nat) (s : State) : State :=
  if 32 ≤ n || s.hbm.sref.getLsbD n then s
  else ({ s with hbm := { s.hbm with sref := s.hbm.sref ||| (1#32 <<< n) } }.count 8 n)

/-- A wait that was frozen for `d` cycles. -/
def Entry.thaw (d now : Nat) (e : Entry) : Entry := if e.waited = 0 then e else { e with waited := min (e.waited + d) (now + 1) }

def CoreSt.thaw (asid d now : Nat) (k : CoreSt) : CoreSt :=
  if k.ctx.asid = asid then { k with q := { k.q with es := k.q.es.map (Entry.thaw d now) } } else k

def Launch.thaw (asid d : Nat) (s : State) (l : Launch) : Launch :=
  if l.asid = asid then { l with age := (BitVec.ofNat 64 l.age + BitVec.ofNat 64 (min d (l.since s))).toNat } else l

def Part.thaw (asid d : Nat) (s : State) (q : Part) : Part := { q with launches := q.launches.map (Launch.thaw asid d s) }

/-- A context that is no longer frozen takes up its waits where they stood: what it waited for while frozen does not count. -/
def thaw (asid since : Nat) (s : State) : State :=
  let now := s.cycle.toNat
  let d := now - since
  let later := fun (r : SioRing) => { r with cmds := r.cmds.map (fun x => if (s.core x.core).ctx.asid = asid then { x with start := min (x.start + d) now } else x) }
  { s with cores := SMap.mapVals .cold (CoreSt.thaw asid d now) s.cores, parts := SMap.mapVals .free (Part.thaw asid d s) s.parts,
           stor := { s.stor with rings := SMap.mapVals .zero later s.stor.rings } }

def srefExit (n : Nat) (s : State) : State :=
  if !s.hbm.sref.getLsbD n then s
  else
    let gone := s.hbm.frozen.filter (fun x => x.2.1 == n)
    let rest := s.hbm.frozen.filter (fun x => x.2.1 != n)
    -- a context that another stack still freezes has been frozen since the earlier of the two
    let rest1 := rest.map (fun x => (x.1, x.2.1, (gone.filter (fun y => y.1 == x.1)).foldl (fun m y => min m y.2.2) x.2.2))
    let s1 := { s with hbm := { s.hbm with sref := s.hbm.sref &&& ~~~(1#32 <<< n), frozen := rest1 } }
    memoryBack ((gone.filter (fun x => !rest.any (fun y => y.1 == x.1))).foldl (fun a x => thaw x.1 x.2.2 a) s1)

-- ### The rest

/-- R330: a parked croft that an arrival woke has been idle for 4,096 cycles. -/
def regate (c : Nat) (s : State) : State := s.modCore c (fun k => if k.slot.parked then { k with slot := { k.slot with gated := true } } else k)

/-- What a command does once it is its turn (R445 to R453). -/
def mgmtRun : Instr → Option (State → State)
  | .provision a => some (provision a)
  | .release p => some (releasePart p)
  | .preset p => some (preset p)
  | .wreset => some wreset
  | .telem => some telem
  | .clrcnt => some clrcnt
  | .fullreq => some fullreq
  | .tagfr n => some (setTagfr n)
  | .retire n => some (retireStack n)
  | .hamletFence n => some (fenceHamlet n true)
  | .unfence n => some (fenceHamlet n false)
  | .plimit w => some (setPlimit w)
  | .attest nonce p => some (attest nonce p)
  | _ => none

/-- R444: a command begins that is done later. -/
def mgmtBegin (i : Instr) (s : State) : State :=
  if (mgmtRun i).isSome then command (fun a => { a with mgmt := { a.mgmt with pending := some i } }) s else s

/-- R444: the command in progress is done. -/
def mgmtEnd (s : State) : State :=
  match s.mgmt.pending.bind mgmtRun with
  | some f => f { s with mgmt := { s.mgmt with pending := none } }
  | none => s

end Sys2Proof.Machine
end

