-- ==== Sys2Proof/Machine/Vector.lean ====
section
/-! DEFINITION. The vector engine (R198 to R214, R220, R221): the work of every entry of majors 0x20 to 0x2A. -/

namespace Sys2Proof

-- ### Elements (R198, R201)

/-- Width of an element and number of elements. -/
def Ety.w : Ety → Nat
  | .fp32 | .i32 | .n32 => 32
  | .i16 | .n16 => 16
def Ety.n (t : Ety) : Nat := 2048 / t.w
def Ety.float : Ety → Bool
  | .fp32 => true
  | _ => false
def Ety.signed : Ety → Bool
  | .i32 | .i16 => true
  | _ => false
/-- The format code of an element type (R84). -/
def Ety.fmt : Ety → Nat
  | .fp32 => 1 | .i32 => 4 | .n32 => 7 | .i16 => 5 | .n16 => 8

/-- Element i of a register. -/
def vget (x : BitVec 2048) (w i : Nat) : Nat := fld x (w * i) w
/-- The register whose `n` elements of width `w` are given. -/
def vmake (w n : Nat) (f : Nat → Nat) : BitVec 2048 :=
  BitVec.ofNat 2048 ((upTo n).foldl (fun acc i => acc + atBit (f i % 2 ^ w) (w * i)) 0)
/-- All bits of the elements that are chosen. -/
def vmask (w n : Nat) (p : Nat → Bool) : BitVec 2048 := vmake w n (fun i => if p i then 2 ^ w - 1 else 0)

/-- The value of an integer element. -/
def Ety.int (t : Ety) (x : Nat) : Int := if t.signed then sextNat x t.w else (x : Int)

-- ### Element operations (R204)

def vAddE (t : Ety) (a b : Nat) : Nat := if t.float then addF32 a b else (a + b) % 2 ^ t.w
def vSubE (t : Ety) (a b : Nat) : Nat := if t.float then toF32 ((f32 a).add (f32 b).neg) else wrapInt t.w ((a : Int) - b)
def vMulE (t : Ety) (a b : Nat) : Nat := if t.float then mulF32 a b else a * b % 2 ^ t.w
def vMadE (t : Ety) (a b d : Nat) : Nat := if t.float then toF32 (((f32 a).mul (f32 b)).add (f32 d)) else (a * b + d) % 2 ^ t.w
def vMinE (t : Ety) (a b : Nat) : Nat := if t.float then minF32 a b else if t.int a ≤ t.int b then a else b
def vMaxE (t : Ety) (a b : Nat) : Nat := if t.float then maxF32 a b else if t.int a ≤ t.int b then b else a

/-- A NaN gives the canonical NaN; another pattern is kept. -/
def quiet (x : Nat) : Nat := match f32 x with | .nan => canonNaN 1 | _ => x

def vAbsE (t : Ety) (a : Nat) : Nat := if t.float then quiet (natBits a 0 31) else wrapInt t.w (sextNat a t.w).natAbs
def vNegE (t : Ety) (a : Nat) : Nat := if t.float then quiet (a ^^^ 0x80000000) else wrapInt t.w (-(a : Int))
/-- R204: a is above zero. -/
def vPos (t : Ety) (a : Nat) : Bool := if t.float then Val.zero.lt (f32 a) else 0 < t.int a
def vReluE (t : Ety) (a : Nat) : Nat := if t.float then (match f32 a with | .nan => canonNaN 1 | _ => if vPos t a then a else 0) else if vPos t a then a else 0

-- ### R206, R210

def vShlE (w a c : Nat) : Nat := a * 2 ^ c % 2 ^ w
def vShrE (a c : Nat) : Nat := a / 2 ^ c
def vSraE (w a c : Nat) : Nat := wrapInt w (sextNat a w / (2 ^ c : Nat))

/-- R210: the position and length of a bit-field element. -/
def bfPos (w b : Nat) : Nat := natBits b 0 (if w = 32 then 5 else 4)
def bfLen (w b : Nat) : Nat := natBits b 8 (if w = 32 then 5 else 4) + 1
def vBfxE (sx : Bool) (w a b : Nat) : Nat :=
  let f := natBits a (bfPos w b) (bfLen w b)
  if sx then wrapInt w (sextNat f (bfLen w b)) else f
def vBfiE (w a b d : Nat) : Nat :=
  let m := ((2 ^ bfLen w b - 1) * 2 ^ bfPos w b) % 2 ^ w
  (d &&& ((2 ^ w - 1) ^^^ m)) ||| ((a * 2 ^ bfPos w b) &&& m)
def vFshE (left : Bool) (w a b c : Nat) : Nat :=
  let x := a * 2 ^ w + b
  if left then natBits (x * 2 ^ c) w w else natBits (x / 2 ^ c) 0 w

-- ### R207

/-- R207: a comparison. -/
def VCond.holds (cc : VCond) (t : Ety) (a b : Nat) : Bool :=
  let lt := fun x y => if t.float then (f32 x).lt (f32 y) else t.int x < t.int y
  let eq := if t.float then (f32 a).eq (f32 b) else a == b
  match cc with
  | .eq => eq
  | .ne => !eq
  | .lt => lt a b
  | .le => lt a b || eq
  | .gt => lt b a
  | .ge => lt b a || eq

-- ### R208

/-- R208: a value clamped to the element type's range. -/
def satE (t : Ety) (x : Int) : Nat := wrapInt t.w (clampInt (intRange t.fmt).1 (intRange t.fmt).2 x)
def vMulhE (t : Ety) (a b : Nat) : Nat :=
  if t.signed then satE t ((t.int a * t.int b + 2 ^ 14) / 2 ^ 15) else a * b / 2 ^ 16
def vAvgE (t : Ety) (a b : Nat) : Nat := wrapInt t.w ((t.int a + t.int b + 1) / 2)
def vSadE (t : Ety) (x y : BitVec 2048) (d l : Nat) : Nat :=
  let z := fun i => (t.int (vget x 16 i) - t.int (vget y 16 i)).natAbs
  (d + z (2 * l) + z (2 * l + 1)) % 2 ^ 32

-- ### R213

def RedOp.app (op : RedOp) (t : Ety) (x y : Nat) : Nat :=
  match op with
  | .add => vAddE t x y
  | .max => vMaxE t x y
  | .min => vMinE t x y
/-- R213: the identity element. -/
def RedOp.unit (op : RedOp) (t : Ety) : Nat :=
  match op with
  | .add => if t.float then 0x80000000 else 0
  | .max => if t.float then 0xFF800000 else wrapInt t.w (intRange t.fmt).1
  | .min => if t.float then 0x7F800000 else wrapInt t.w (intRange t.fmt).2

/-- One level of the tree. -/
def pairUp (f : Nat → Nat → Nat) : List Nat → List Nat
  | x :: y :: r => f x y :: pairUp f r
  | r => r
/-- The tree of R213, over 2^k elements. -/
def redTree (f : Nat → Nat → Nat) : Nat → List Nat → Nat
  | 0, xs => xs.headD 0
  | k + 1, xs => redTree f k (pairUp f xs)
/-- The tree over the 64 or 128 elements of a register. -/
def redAll (op : RedOp) (t : Ety) (xs : List Nat) : Nat := redTree (op.app t) (if t.w = 32 then 6 else 7) xs

/-- R213: the inclusive scan, left to right: each element's result and the active ones. -/
def scanAll (f : Nat → Nat → Nat) (act : Nat → Bool) : Nat → Nat → List Nat → List Nat
  | _, _, [] => []
  | i, acc, x :: xs =>
    let y := if act i then f acc x else acc
    y :: scanAll f act (i + 1) y xs

-- ### R214

/-- R214: destination element i of `VSHUF`, from the elements of both sources. -/
def shufE (pat k n : Nat) (a b : Nat → Nat) (i : Nat) : Nat :=
  match pat with
  | 0 => if i % 2 = 0 then a (i / 2) else b (i / 2)
  | 1 => if i % 2 = 0 then a (i / 2 + n / 2) else b (i / 2 + n / 2)
  | 2 => if i < n / 2 then a (2 * i) else b (2 * (i - n / 2))
  | 3 => if i < n / 2 then a (2 * i + 1) else b (2 * (i - n / 2) + 1)
  | _ => if i + k < n then a (i + k) else b (i + k - n)

end Sys2Proof

namespace Sys2Proof.Machine

-- ### Masks and results (R202)

/-- R202: element i is active. -/
def CoreSt.active (k : CoreSt) (o : VOpt) (i : Nat) : Bool := !o.men || (k.rdM o.mreg).getLsbD i

/-- R202: the write of `n` elements of width `w` into vD: active ones take `f`; inactive ones keep their value or become zero. -/
def CoreSt.vres (k : CoreSt) (o : VOpt) (d : VReg) (w n : Nat) (f : Nat → Nat) : Wr :=
  .v d (vmake w n (fun i => if k.active o i then f i else 0)) (vmask w n (fun i => k.active o i || o.zm))

/-- The completion of a vector entry. -/
def vdone (ws : List Wr) : M Fin := pure (.done ws (wordOk 0))

/-- The mask item of R294: 16 bytes, when `MEN` is 1. -/
def CoreSt.maskItem (k : CoreSt) (o : VOpt) : List Byte := if o.men then natBytes 16 (k.rdM o.mreg).toNat else []
def maskSize (o : VOpt) : Nat := if o.men then 16 else 0
/-- A register's 256 bytes, as an item. -/
def vitem (x : BitVec 2048) : List Byte := natBytes 256 x.toNat

/-- `f` on every element of one source; `item` are the bytes that a block word pushes before its mask (R295). -/
def vmap1 (o : VOpt) (d a : VReg) (f : Nat → Nat) (item : CoreSt → List Byte) : Perf := fun c e => do
  let k ← getCore c
  pushItem c e (item k ++ k.maskItem o)
  vdone [k.vres o d o.ety.w o.ety.n (fun i => f (vget (k.rdV a) o.ety.w i))]

/-- `f` on the elements of two sources. -/
def vmap2 (o : VOpt) (d a b : VReg) (f : Nat → Nat → Nat) (item : CoreSt → List Byte) : Perf := fun c e => do
  let k ← getCore c
  pushItem c e (item k ++ k.maskItem o)
  vdone [k.vres o d o.ety.w o.ety.n (fun i => f (vget (k.rdV a) o.ety.w i) (vget (k.rdV b) o.ety.w i))]

/-- `f` on the elements of two sources and the destination. -/
def vmap3 (o : VOpt) (d a b : VReg) (f : Nat → Nat → Nat → Nat) (item : CoreSt → List Byte) : Perf := fun c e => do
  let k ← getCore c
  pushItem c e (item k ++ k.maskItem o)
  vdone [k.vres o d o.ety.w o.ety.n (fun i => f (vget (k.rdV a) o.ety.w i) (vget (k.rdV b) o.ety.w i) (vget (k.rdV d) o.ety.w i))]

def noItem : CoreSt → List Byte := fun _ => []
/-- Both sources of a product (R295). -/
def bothItem (a b : VReg) : CoreSt → List Byte := fun k => vitem (k.rdV a) ++ vitem (k.rdV b)

-- ### Arithmetic (R204, R205)

def runVadd (o : VOpt) (d a b : VReg) : Perf := vmap2 o d a b (vAddE o.ety) noItem
def runVsub (o : VOpt) (d a b : VReg) : Perf := vmap2 o d a b (vSubE o.ety) noItem
def runVmul (o : VOpt) (d a b : VReg) : Perf := vmap2 o d a b (vMulE o.ety) (bothItem a b)
def runVmad (o : VOpt) (d a b : VReg) : Perf := vmap3 o d a b (vMadE o.ety) (bothItem a b)
def runVmin (o : VOpt) (d a b : VReg) : Perf := vmap2 o d a b (vMinE o.ety) noItem
def runVmax (o : VOpt) (d a b : VReg) : Perf := vmap2 o d a b (vMaxE o.ety) noItem
def runVabs (o : VOpt) (d a : VReg) : Perf := vmap1 o d a (vAbsE o.ety) noItem
def runVneg (o : VOpt) (d a : VReg) : Perf := vmap1 o d a (vNegE o.ety) noItem

/-- R295: bit i is set when a is above zero. -/
def reluItem (o : VOpt) (a : VReg) : CoreSt → List Byte := fun k =>
  natBytes 8 (((upTo 64).map (fun i => if vPos o.ety (vget (k.rdV a) o.ety.w i) then 2 ^ i else 0)).foldl (· + ·) 0)
def runVrelu (o : VOpt) (d a : VReg) : Perf := vmap1 o d a (vReluE o.ety) (reluItem o a)

/-- R295: vD as it is at completion. -/
def CoreSt.after (k : CoreSt) (w : Wr) : BitVec 2048 :=
  match w with
  | .v d x m => mergeBits (k.rdV d) x m
  | _ => 0
/-- A function of one FP32 operand; `keep`: a block word saves its result. -/
def vfun (keep : Bool) (o : VOpt) (d a : VReg) (f : Nat → Nat) : Perf := fun c e => do
  let k ← getCore c
  let w := k.vres o d 32 64 (fun i => f (vget (k.rdV a) 32 i))
  pushItem c e ((if keep then vitem (k.after w) else []) ++ k.maskItem o)
  vdone [w]

def runVexp2 (o : VOpt) (d a : VReg) : Perf := vfun true o d a exp2F32
def runVlog2 (o : VOpt) (d a : VReg) : Perf := vfun false o d a log2F32
def runVrcp (o : VOpt) (d a : VReg) : Perf := vfun true o d a rcpF32
def runVrsq (o : VOpt) (d a : VReg) : Perf := vfun false o d a rsqF32
def runVtanh (o : VOpt) (d a : VReg) : Perf := vfun true o d a tanhF32

-- ### Logic, shifts, comparison, masks (R206, R207)

def runVand (o : VOpt) (d a b : VReg) : Perf := vmap2 o d a b (fun x y => x &&& y) noItem
def runVor (o : VOpt) (d a b : VReg) : Perf := vmap2 o d a b (fun x y => x ||| y) noItem
def runVxor (o : VOpt) (d a b : VReg) : Perf := vmap2 o d a b (fun x y => x ^^^ y) noItem
def runVnot (o : VOpt) (d a : VReg) : Perf := vmap1 o d a (fun x => (2 ^ o.ety.w - 1) ^^^ x) noItem

/-- R206: a shift by the elements of a register, or by an immediate. -/
def vshift (o : VOpt) (d a : VReg) (n : ShCnt) (f : Nat → Nat → Nat) : Perf :=
  match n with
  | .reg b => vmap2 o d a b (fun x y => f x (y % o.ety.w)) noItem
  | .imm m => vmap1 o d a (fun x => f x m.toNat) noItem

def runVshl (o : VOpt) (d a : VReg) (n : ShCnt) : Perf := vshift o d a n (vShlE o.ety.w)
def runVshr (o : VOpt) (d a : VReg) (n : ShCnt) : Perf := vshift o d a n vShrE
def runVsra (o : VOpt) (d a : VReg) (n : ShCnt) : Perf := vshift o d a n (vSraE o.ety.w)

/-- A mask of the bits i < n that meet a condition. -/
def mmake (n : Nat) (p : Nat → Bool) : BitVec 128 :=
  BitVec.ofNat 128 ((upTo n).foldl (fun acc i => acc + (if p i then 2 ^ i else 0)) 0)

/-- R207: bits n to 127 become 0; inactive bits follow R202. -/
def runVcmp (o : VOpt) (cc : VCond) (d : MReg) (a b : VReg) : Perf := fun c _ => do
  let k ← getCore c
  let w := o.ety.w
  let n := o.ety.n
  vdone [.m d (mmake n (fun i => k.active o i && cc.holds o.ety (vget (k.rdV a) w i) (vget (k.rdV b) w i)))
    (mmake 128 (fun i => n ≤ i || k.active o i || o.zm))]

def runVsel (o : VOpt) (d a b : VReg) (cm : MReg) : Perf := fun c _ => do
  let k ← getCore c
  vdone [k.vres o d o.ety.w o.ety.n (fun i => if (k.rdM cm).getLsbD i then vget (k.rdV a) o.ety.w i else vget (k.rdV b) o.ety.w i)]

/-- A mask written whole. -/
def mdone (d : MReg) (f : CoreSt → BitVec 128) : Perf := fun c _ => do
  let k ← getCore c
  vdone [.m d (f k) (BitVec.allOnes 128)]
def runMand (d a b : MReg) : Perf := mdone d (fun k => k.rdM a &&& k.rdM b)
def runMor (d a b : MReg) : Perf := mdone d (fun k => k.rdM a ||| k.rdM b)
def runMnot (d a : MReg) : Perf := mdone d (fun k => ~~~(k.rdM a))
def runMpopc (o : VOpt) (d : VReg) (a : MReg) : Perf := fun c _ => do
  let k ← getCore c
  vdone [k.vres o d o.ety.w o.ety.n (fun _ => onesBelow (k.rdM a).toNat o.ety.n)]

-- ### R208

def runVadds (o : VOpt) (d a b : VReg) : Perf := vmap2 o d a b (fun x y => satE o.ety (o.ety.int x + o.ety.int y)) noItem
def runVsubs (o : VOpt) (d a b : VReg) : Perf := vmap2 o d a b (fun x y => satE o.ety (o.ety.int x - o.ety.int y)) noItem
def runVmulh (o : VOpt) (d a b : VReg) : Perf := vmap2 o d a b (vMulhE o.ety) noItem
def runVavg (o : VOpt) (d a b : VReg) : Perf := vmap2 o d a b (vAvgE o.ety) noItem
def runVsad (o : VOpt) (d a b : VReg) : Perf := fun c _ => do
  let k ← getCore c
  vdone [.v d (vmake 32 64 (fun l => vSadE o.ety (k.rdV a) (k.rdV b) (vget (k.rdV d) 32 l) l)) (BitVec.allOnes 2048)]

-- ### R209

/-- The element `x` in format `sf`, in format `df`, with subnormals honoured (R87, R92). -/
def convE (df sf : Nat) (md : Mode) (x : Nat) : Nat := roundFmt df false md (decodeFmt sf false x)

def runVpack (o : VOpt) (df : BitVec 8) (rnd : Rnd) (d a b : VReg) : Perf := fun c e => do
  let k ← getCore c
  vdone [.v d (vmake 16 128 (fun i =>
    convE df.toNat o.ety.fmt (e.mode rnd i) (if i < 64 then vget (k.rdV a) 32 i else vget (k.rdV b) 32 (i - 64)))) (BitVec.allOnes 2048)]

def runVunpk (o : VOpt) (sf : BitVec 8) (half : Bool) (rnd : Rnd) (d a : VReg) : Perf := fun c e => do
  let k ← getCore c
  vdone [.v d (vmake 32 64 (fun i => convE o.ety.fmt sf.toNat (e.mode rnd i) (vget (k.rdV a) 16 (i + 64 * bitNat half)))) (BitVec.allOnes 2048)]

def runPixUnpk (pf : BitVec 8) (off : BitVec 11) (d a : VReg) : Perf := fun c _ => do
  let k ← getCore c
  let w := fmtWidth pf.toNat
  vdone [.v d (vmake 16 128 (fun i => fld (k.rdV a) (off.toNat + i * w) w)) (BitVec.allOnes 2048)]

def runPixPack (pf : BitVec 8) (d a : VReg) : Perf := fun c _ => do
  let k ← getCore c
  let w := fmtWidth pf.toNat
  vdone [.v d (vmake w 128 (fun i => Nat.min (vget (k.rdV a) 16 i) (2 ^ w - 1))) (BitVec.allOnes 2048)]

-- ### R210

def runVbfx (o : VOpt) (sx : Bool) (d a b : VReg) : Perf := vmap2 o d a b (vBfxE sx o.ety.w) noItem
def runVbfi (o : VOpt) (d a b : VReg) : Perf := vmap3 o d a b (vBfiE o.ety.w) noItem
/-- R210: a funnel shift by the elements of a register, or by an immediate. -/
def vfunnel (left : Bool) (o : VOpt) (d a b : VReg) (n : ShCnt) : Perf := fun c _ => do
  let k ← getCore c
  let w := o.ety.w
  let cnt := fun i => match n with | .reg v => vget (k.rdV v) w i % w | .imm m => m.toNat % w
  vdone [k.vres o d w o.ety.n (fun i => vFshE left w (vget (k.rdV a) w i) (vget (k.rdV b) w i) (cnt i))]
def runVfshR (o : VOpt) (d a b : VReg) (n : ShCnt) : Perf := vfunnel false o d a b n
def runVfshL (o : VOpt) (d a b : VReg) (n : ShCnt) : Perf := vfunnel true o d a b n
def runVclz (o : VOpt) (d a : VReg) : Perf := vmap1 o d a (fun x => o.ety.w - bitLen x) noItem
def runVpopc (o : VOpt) (d a : VReg) : Perf := vmap1 o d a (fun x => onesBelow x o.ety.w) noItem

-- ### Lookup (R211)

/-- The checks of every active element, in order; answers where the table lies. -/
def lutChecks (c : Nat) (p : Word) (es : Nat) : List Nat → M Unit
  | [] => pure ()
  | off :: offs => do
    let q := ptrAt p off
    check (!isGlobal p) .rights q
    let _ ← checkSpan c .vec .rd q off (off + es - 1 : Nat)
    check (off % es == 0) .align q
    lutChecks c p es offs

/-- One entry: a lane reads its own lane store. -/
def lutRead (c : Nat) (p : Word) (es lane off : Nat) : M Nat := do
  let l ← checkSpan c .vec .rd (ptrAt p off) off (off + es - 1 : Nat)
  match l with
  | .lane => do
    let k ← getCore c
    pure (leNat ((upTo es).map (fun i => k.laneByte lane (off + i))))
  | l => pure (leNat (← readAt c l (ptrAt p off) off es))

def lutReads (c : Nat) (p : Word) (w : Nat) (k : CoreSt) (o : VOpt) : List (Nat × Nat) → M (List Nat)
  | [] => pure []
  | (i, off) :: r => do
    let x ← (if k.active o i then lutRead c p (w / 8) (i * w / 32) off else pure 0 : M Nat)
    let xs ← lutReads c p w k o r
    pure (x :: xs)

def runVlut (o : VOpt) (d a : VReg) : Perf := fun c e => do
  let k ← getCore c
  let w := o.ety.w
  let p := e.x 0
  let offs := (upTo o.ety.n).map (fun i => (i, ptrOffset p + vget (k.rdV a) w i * (w / 8)))
  lutChecks c p (w / 8) ((offs.filter (fun x => k.active o x.1)).map Prod.snd)
  let xs ← lutReads c p w k o offs
  vdone [k.vres o d w o.ety.n (fun i => xs.getD i 0)]

-- ### Conversion (R212)

def runVcvt (o : VOpt) (df sf : BitVec 8) (rnd : Rnd) (d a : VReg) : Perf := fun c e => do
  let k ← getCore c
  let w := fmtWidth df.toNat
  pushItem c e (k.maskItem o)
  vdone [k.vres o d w (2048 / w) (fun i => convE df.toNat sf.toNat (e.mode rnd i) (vget (k.rdV a) w i))]

-- ### Reduction and scan (R213)

def runVred (o : VOpt) (op : RedOp) (d a : VReg) : Perf := fun c e => do
  let k ← getCore c
  let w := o.ety.w
  if op == .add then pushItem c e (k.maskItem o)
  let t := redAll op o.ety ((upTo o.ety.n).map (fun i => if k.active o i then vget (k.rdV a) w i else op.unit o.ety))
  vdone [.v d (vmake w o.ety.n (fun _ => t)) (BitVec.allOnes 2048)]

def runVscan (o : VOpt) (op : RedOp) (d a : VReg) : Perf := fun c _ => do
  let k ← getCore c
  let w := o.ety.w
  let xs := scanAll (op.app o.ety) (k.active o) 0 (op.unit o.ety) ((upTo o.ety.n).map (vget (k.rdV a) w))
  vdone [k.vres o d w o.ety.n (fun i => xs.getD i 0)]

-- ### Permutation (R214)

def runVperm (o : VOpt) (d a b : VReg) : Perf := fun c _ => do
  let k ← getCore c
  let w := o.ety.w
  vdone [k.vres o d w o.ety.n (fun i => vget (k.rdV a) w (vget (k.rdV b) w i % o.ety.n))]
def runVshuf (o : VOpt) (pat : BitVec 3) (n : BitVec 16) (d a b : VReg) : Perf := fun c _ => do
  let k ← getCore c
  let w := o.ety.w
  vdone [k.vres o d w o.ety.n (shufE pat.toNat n.toNat o.ety.n (vget (k.rdV a) w) (vget (k.rdV b) w))]
def runVbcast (o : VOpt) (d : VReg) : Perf := fun c e => do
  let k ← getCore c
  pushItem c e (k.maskItem o)
  vdone [k.vres o d o.ety.w o.ety.n (fun _ => (e.x 0).toNat)]
def runVbcastE (o : VOpt) (d a : VReg) (n : BitVec 16) : Perf := fun c e => do
  let k ← getCore c
  pushItem c e (k.maskItem o)
  vdone [k.vres o d o.ety.w o.ety.n (fun _ => vget (k.rdV a) o.ety.w n.toNat)]
def runVidx (o : VOpt) (d : VReg) : Perf := fun c e => do
  let k ← getCore c
  vdone [k.vres o d o.ety.w o.ety.n (fun i => (e.x 0).toNat + i)]
def runVmov (o : VOpt) (d a : VReg) : Perf := vmap1 o d a (fun x => x) noItem

-- ### Accumulator rows (R220)

/-- R220: the row; 128 or more raises BOUNDS with the row as the pointer. -/
def tileRow (e : Entry) (n : BitVec 7) : M Nat := do
  let r := (e.x 0).toNat + n.toNat
  check (r < 128) .bounds (BitVec.ofNat 64 r)
  pure r

def runTrd (o : VOpt) (d : VReg) (a : AReg) (n : BitVec 7) : Perf := fun c e => do
  let r ← tileRow e n
  let k ← getCore c
  vdone [k.vres o d 32 64 (fun j => (k.rdAcc a.toNat r j).toFp32)]

def runTwr (o : VOpt) (d : AReg) (a : VReg) (n : BitVec 7) : Perf := fun c e => do
  let r ← tileRow e n
  modCore c (fun k => (upTo 64).foldl (fun k' j =>
    if k.active o j then k'.wrAcc d.toNat r j ⟨BitVec.ofNat 32 (vget (k.rdV a) 32 j), 0, 0⟩
    else if o.zm then k'.wrAcc d.toNat r j .zero else k') k)
  vdone []

end Sys2Proof.Machine
end

