-- ==== Sys2Proof/Machine/VecMem.lean ====
section
/-! DEFINITION. Vector memory (R215 to R219): the work of every entry of major 0x2C. -/

namespace Sys2Proof.Machine

/-- A vector access in use: where element i lies (exact offset) and its size. -/
structure VAcc where
  ptr : Word
  es : Nat
  off : Nat → Int

/-- R215: the offset of element i of a contiguous, a strided and an indexed form. -/
def linOff (x y : Word) (d : BitVec 16) (es : Nat) : VAcc := ⟨x, es, fun i => (ptrOffset x : Int) + y.toInt + d.toInt + (i : Int) * es⟩
def strideOff (x y : Word) (d : BitVec 16) (es : Nat) : VAcc := ⟨x, es, fun i => (ptrOffset x : Int) + d.toInt + (i : Int) * y.toInt⟩
def indexOff (x : Word) (t : Ety) (b : BitVec 2048) (d : BitVec 16) : VAcc :=
  ⟨x, t.w / 8, fun i => (ptrOffset x : Int) + d.toInt + (if t.w = 32 then sextNat (vget b 32 i) 32 else (vget b 16 i : Int)) * (t.w / 8 : Nat)⟩

/-- R216: the checks of the active elements, in order. `lane`: the LANE window is open to it. -/
def vchecks (c : Nat) (a : Acc) (lane : Bool) (v : VAcc) : List Nat → M Unit
  | [] => pure ()
  | i :: is => do
    let o := v.off i
    let p := mkPtr (ptrIndex v.ptr) (wrapInt 48 o)
    check (0 ≤ o && o < 2 ^ 48) .bounds p
    check (lane || ptrIndex p != 0xFFF3) .rights p
    let _ ← checkSpan c .vec a p o (o + v.es - 1)
    check (o.toNat % v.es == 0) .align p
    vchecks c a lane v is

/-- The active elements of a form with `n` elements. -/
def CoreSt.actives (k : CoreSt) (o : VOpt) (n : Nat) : List Nat := (upTo n).filter (k.active o)

/-- Reads element i; `lane` is the lane that holds it (R65). -/
def vread (c : Nat) (v : VAcc) (lane i : Nat) : M Nat := do
  let off := (v.off i).toNat
  let p := ptrAt v.ptr off
  let l ← checkSpan c .vec .rd p off (off + v.es - 1 : Nat)
  match l with
  | .lane => do
    let k ← getCore c
    pure (leNat ((upTo v.es).map (fun j => k.laneByte lane (off + j))))
  | l => pure (leNat (← readAt c l p off v.es))

/-- Writes element i. -/
def vwrite (c : Nat) (v : VAcc) (lane i x : Nat) : M Unit := do
  let off := (v.off i).toNat
  let p := ptrAt v.ptr off
  let l ← checkSpan c .vec .wr p off (off + v.es - 1 : Nat)
  match l with
  | .lane => modCore c (fun k => ((natBytes v.es x).zipIdx).foldl (fun k b => k.setLaneByte lane (off + b.2) b.1) k)
  | l => writeAt c l p off (natBytes v.es x)

def vreads (c : Nat) (v : VAcc) (w : Nat) : List Nat → M (SMap Nat)
  | [] => pure []
  | i :: is => do
    let x ← vread c v (i * w / 32) i
    let r ← vreads c v w is
    pure (SMap.set 0 r i x)

def vwrites (c : Nat) (v : VAcc) (w : Nat) (f : Nat → Nat) : List Nat → M Unit
  | [] => pure ()
  | i :: is => do
    vwrite c v (i * w / 32) i (f i)
    vwrites c v w f is

/-- A vector load: an inactive element follows R202; a fault leaves vD unwritten (R216). -/
def vload (o : VOpt) (d : VReg) (v : VAcc) (item : List Byte) : Perf := fun c e => do
  let k := e.seen (← getCore c)
  pushItem c e item
  vchecks c .rd true v (k.actives o o.ety.n)
  let xs ← vreads c v o.ety.w (k.actives o o.ety.n)
  vdone [k.vres o d o.ety.w o.ety.n (fun i => SMap.get 0 xs i)]

/-- A vector store of the elements of vC; in replay it pushes its item and makes no access (R300). -/
def vstore (o : VOpt) (v : VAcc) (f : CoreSt → Nat → Nat) (item : List Byte) : Perf := fun c e => do
  let k := e.seen (← getCore c)
  pushItem c e item
  if e.muted then vdone []
  else
    vchecks c .wr true v (k.actives o o.ety.n)
    vwrites c v o.ety.w (f k) (k.actives o o.ety.n)
    vdone []

/-- The pointer of element 0, as an item (R296). -/
def ptrItem (v : VAcc) : List Byte := natBytes 8 (mkPtr (ptrIndex v.ptr) (wrapInt 48 (v.off 0))).toNat

def runVld (o : VOpt) (d : VReg) (disp : BitVec 16) : Perf := fun c e => do
  let k := e.seen (← getCore c)
  let v := linOff (e.x 0) (e.x 1) disp (o.ety.w / 8)
  vload o d v (ptrItem v ++ k.maskItem o) c e
def runVlds (o : VOpt) (d : VReg) (disp : BitVec 16) : Perf := fun c e => vload o d (strideOff (e.x 0) (e.x 1) disp (o.ety.w / 8)) [] c e
def runVgath (o : VOpt) (d b : VReg) (disp : BitVec 16) : Perf := fun c e => do
  let k := e.seen (← getCore c)
  vload o d (indexOff (e.x 0) o.ety (k.rdV b) disp) [] c e
def runVst (o : VOpt) (d : VReg) (disp : BitVec 16) : Perf := fun c e => do
  let k := e.seen (← getCore c)
  let v := linOff (e.x 0) (e.x 1) disp (o.ety.w / 8)
  vstore o v (fun k i => vget (k.rdV d) o.ety.w i) (ptrItem v ++ k.maskItem o) c e
def runVsts (o : VOpt) (d : VReg) (disp : BitVec 16) : Perf := fun c e =>
  vstore o (strideOff (e.x 0) (e.x 1) disp (o.ety.w / 8)) (fun k i => vget (k.rdV d) o.ety.w i) [] c e
def runVscat (o : VOpt) (d b : VReg) (disp : BitVec 16) : Perf := fun c e => do
  let k := e.seen (← getCore c)
  vstore o (indexOff (e.x 0) o.ety (k.rdV b) disp) (fun k i => vget (k.rdV d) o.ety.w i) [] c e

-- ### Stochastic stores (R218)

/-- The seed of a stochastic store: the last of its operands. -/
def Entry.srMode (e : Entry) (i : Nat) : Mode := ⟨.sr, fld (e.xs.getLastD 0) 0 32, i⟩

def runVstSrPtr (o : VOpt) (df : BitVec 8) (a : VReg) (disp : BitVec 16) : Perf := fun c e => do
  let k := e.seen (← getCore c)
  let v := linOff (e.x 0) (e.x 1) disp 2
  vstore o v (fun k i => convE df.toNat 1 (e.srMode i) (vget (k.rdV a) 32 i)) (ptrItem v ++ k.maskItem o) c e

/-- The element index of walk number n (R72). -/
def walkAt (r : BitVec 512) (n : Nat) : Int :=
  let q1 := n / shE r 0
  let q2 := q1 / shE r 1
  let q3 := q2 / shE r 2
  let q4 := q3 / shE r 3
  let q5 := q4 / shE r 4
  ((n % shE r 0 : Nat) : Int) * shS r 0 + ((q1 % shE r 1 : Nat) : Int) * shS r 1 + ((q2 % shE r 2 : Nat) : Int) * shS r 2 +
  ((q3 % shE r 3 : Nat) : Int) * shS r 3 + ((q4 % shE r 4 : Nat) : Int) * shS r 4 + ((q5 % shE r 5 : Nat) : Int) * shS r 5

/-- R218: the elements of a handle's walk from `n0` on, as a vector access. -/
def walkOff (r : BitVec 512) (n0 : Nat) : VAcc :=
  let es := fmtWidth (shFmt r) / 8
  ⟨shPtr r, es, fun i => (ptrOffset (shPtr r) : Int) + walkAt r (n0 + i) * es⟩

/-- R218: the handle form's check at issue. -/
def srHandlePre : Nat → List Word → List Handle → M Unit := fun _ _ hs => do
  goodHandles hs
  check (loomFmt (shFmt (hs.getD 0 .unbound).shape)) .hdlbad 0

def runVstSrHdl (o : VOpt) (a : VReg) : Perf := fun c e => do
  let k := e.seen (← getCore c)
  let r := (e.hd 0).shape
  let n0 := (e.x 0).toNat
  let v := walkOff r n0
  pushItem c e (natBytes 8 n0 ++ k.maskItem o)
  if e.muted then vdone []
  else
    let is := (k.actives o 64).filter (fun i => n0 + i < shCount r)
    vchecks c .wr true v is
    vwrites c v 32 (fun i => convE (shFmt r) 1 (e.srMode (n0 + i)) (vget (k.rdV a) 32 i)) is
    vdone []

-- ### Accumulating stores (R219)

/-- R219: one element, in one step at its place for scope D. -/
def vaccOne (c : Nat) (f : Nat) (v : VAcc) (i x : Nat) : M Unit := do
  let off := (v.off i).toNat
  let p := ptrAt v.ptr off
  let l ← checkSpan c .vec .wr p off (off + v.es - 1 : Nat)
  let _ ← atomicAt c l .wr p off v.es 2 (fun old => some (roundFmt f (f == 2) .rne ((decodeFmt f (f == 2) old).add (f32 x))))

def vaccAll (c : Nat) (f : Nat) (v : VAcc) (x : Nat → Nat) : List Nat → M Unit
  | [] => pure ()
  | i :: is => do
    vaccOne c f v i (x i)
    vaccAll c f v x is

def runVstAcc (o : VOpt) (df : BitVec 8) (a : VReg) (disp : BitVec 16) : Perf := fun c e => do
  let k := e.seen (← getCore c)
  let v := linOff (e.x 0) (e.x 1) disp (fmtWidth df.toNat / 8)
  vchecks c .wr false v (k.actives o 64)
  vaccAll c df.toNat v (fun i => vget (k.rdV a) 32 i) (k.actives o 64)
  vdone []

end Sys2Proof.Machine
end

