-- ==== Sys2Proof/Machine/Adjoint.lean ====
section
/-! DEFINITION. The reverse walk's adjoints (R273 to R275, R292 to R298): which words have one, their residual items, their work. -/

namespace Sys2Proof

namespace Machine

/-- The bytes of a saved operand, padded to a multiple of 8 (R298). -/
def savedSize (x : Handle) : Nat := 8 * ((shBytes x.shape + 7) / 8)

/-- An operand handle that `HSAVE` saves (R276). -/
def savesH (hsave : BitVec 32) (n : HReg) : Bool := n.toNat < 32 && hsave.getLsbD n.toNat

end Machine

open Machine in
/-- R295 to R298: the bytes of a word's residual item. `hs` are its handle copies. -/
def Instr.itemSize (i : Instr) (hsave : BitVec 32) (hs : List Handle) : Nat :=
  match i with
  | .vadd _ _ o _ _ _ | .vsub _ _ o _ _ _ | .vbcast _ _ o _ _ | .vbcastE _ _ o _ _ _ => maskSize o
  | .vred _ _ o op _ _ => if op == .add then maskSize o else 0
  | .vcvt _ _ o _ _ _ _ _ => maskSize o
  | .vmul _ _ o _ _ _ | .vmad _ _ o _ _ _ => 512 + maskSize o
  | .vrelu _ _ o _ _ => 8 + maskSize o
  | .vexp2 _ _ o _ _ | .vrcp _ _ o _ _ | .vtanh _ _ o _ _ => 256 + maskSize o
  | .vld _ _ o _ _ _ _ | .vst _ _ o _ _ _ _ => 8 + maskSize o
  | .vstSrPtr _ _ o _ _ _ _ _ _ => 8 + maskSize o
  | .vstSrHdl _ _ o _ _ _ _ => 8 + maskSize o
  | .mmRun _ _ _ a b =>
    64 + (if savesH hsave a then savedSize (hs.getD 0 .unbound) else 0) + (if savesH hsave b then savedSize (hs.getD 1 .unbound) else 0)
  | _ => 0

/-- R275: registers of the value half. -/
def lowV (rs : List VReg) : Bool := rs.all (fun r => r.toNat < 16)
def lowH (rs : List HReg) : Bool := rs.all (fun r => r.toNat < 32)

/-- The queue of a word's adjoint (R292, R296), when the word meets the conditions of R275 that its own fields decide; `none`: NODIFF. -/
def Instr.adjointQ (i : Instr) : Option QId :=
  let ok := fun (b : Bool) (q : QId) => if b then some q else none
  match i with
  | .vadd _ _ o d a b | .vsub _ _ o d a b | .vmul _ _ o d a b | .vmad _ _ o d a b => ok (o.ety == .fp32 && lowV [d, a, b]) .vq
  | .vrelu _ _ o d a | .vexp2 _ _ o d a | .vrcp _ _ o d a | .vtanh _ _ o d a => ok (o.ety == .fp32 && lowV [d, a]) .vq
  | .vred _ _ o op d a => ok (o.ety == .fp32 && op == .add && lowV [d, a]) .vq
  | .vbcast _ _ o d _ => ok (o.ety == .fp32 && lowV [d]) .vq
  | .vbcastE _ _ o d a _ => ok (o.ety == .fp32 && lowV [d, a]) .vq
  | .vcvt _ _ _ _ _ _ d a => ok (lowV [d, a]) .vq
  | .vld _ _ o d _ _ _ | .vst _ _ o d _ _ _ => ok (o.ety == .fp32 && lowV [d]) .sq
  | .vstSrPtr _ _ o _ _ a _ _ _ => ok (o.ety == .fp32 && lowV [a]) .sq
  | .vstSrHdl _ _ o _ a d _ => ok (o.ety == .fp32 && lowV [a] && lowH [d]) .cq
  | .cp _ _ d a _ _ _ _ => ok (lowH [d, a]) .cq
  | .mmRun _ _ _ a b => ok (lowH [a, b]) .mq
  | _ => none

/-- R293: a word that has an adjoint. -/
def Instr.hasAdjoint : Instr → Bool
  | .vadd .. | .vsub .. | .vmul .. | .vmad .. | .vrelu .. | .vexp2 .. | .vrcp .. | .vtanh .. | .vred .. | .vbcast .. | .vbcastE ..
  | .vcvt .. | .vld .. | .vst .. | .vstSrPtr .. | .vstSrHdl .. | .cp .. | .mmRun .. => true
  | _ => false

/-- R293: words that the walk skips, by their major and, where that does not decide, by the word. -/
def Instr.walkSkips (i : Instr) (maj : BitVec 6) : Bool :=
  maj == 0x00 || maj == 0x01 || maj == 0x08 || maj == 0x14 || maj == 0x18 || maj == 0x1C || maj == 0x3B || maj == 0x3D ||
  (match i with
   | .trap .. => false
   | .waitn .. | .yield .. | .vcmp .. | .mand .. | .mor .. | .mnot .. | .nestClr .. | .nestLvl .. | .nestOpt .. | .nestAcc .. | .accFlush ..
   | .cpPf .. | .gradZeroV .. | .gradZeroAcc .. | .gradZeroH .. | .rsMark .. | .launch .. | .ptSelf .. | .tlRead .. => true
   | _ => maj == 0x3C)

/-- R272: words that raise FRAME in a block. -/
def Instr.framed : Instr → Bool
  | .blkBegin .. | .revb .. | .br .. | .jmp .. | .call .. | .jr .. | .ret .. | .loop .. | .ptDone .. | .hdlSet .. | .hdlInv .. | .rsBind ..
  | .rsPush .. | .rsPop .. | .rsDrop .. | .rsSpill .. => true
  | _ => false

end Sys2Proof

namespace Sys2Proof.Machine

/-- The gradient partners (R273). -/
def gradV (r : VReg) : VReg := r + 16
def gradH (r : HReg) : HReg := r + 32

/-- R274: the gradient pointer of a value pointer. -/
def gradPtr (gdisp p : Word) : Word :=
  if isGlobal p then mkPtr ((ptrIndex p + fld gdisp 0 16) % 65536) (ptrOffset p)
  else mkPtr (ptrIndex p) (ptrOffset p + fld gdisp 16 48)

/-- The handles of which an adjoint takes copies when the walk issues it: gradient handles last (R296 to R298). -/
def adjointHandles (i : Instr) : List HReg :=
  match i with
  | .vstSrHdl _ _ _ _ _ d _ => [gradH d]
  | .cp _ _ d a _ _ _ _ => [d, a, gradH d, gradH a]
  | .mmRun _ _ _ a b => [a, b, gradH a, gradH b]
  | _ => []

/-- An item's bytes, as the frame holds them. -/
def CoreSt.item (k : CoreSt) (e : Entry) (off n : Nat) : Nat :=
  match k.res.stack with
  | some st => st.num (e.aux - 1 + off) n
  | none => 0

/-- The saved mask, at `off` of the item: element i takes the adjoint (R294). -/
def CoreSt.savedMask (k : CoreSt) (e : Entry) (o : VOpt) (off : Nat) (i : Nat) : Bool := !o.men || (k.item e off 16).testBit i

-- ### Vector adjoints (R295)

/-- The destination's gradient: active elements take `f`, inactive ones follow R294. -/
def CoreSt.gradDst (k : CoreSt) (o : VOpt) (w n : Nat) (act : Nat → Bool) (d : VReg) (f : Nat → Nat) : CoreSt :=
  let g := k.rdV (gradV d)
  k.wrV (gradV d) (vmake w n (fun i => if act i then f i else if o.zm then 0 else vget g w i))

/-- "+=" on the active elements of a source's gradient. -/
def CoreSt.gradAdd (k : CoreSt) (act : Nat → Bool) (r : VReg) (f : Nat → Nat) : CoreSt :=
  let g := k.rdV (gradV r)
  k.wrV (gradV r) (vmake 32 64 (fun i => if act i then addF32 (vget g 32 i) (f i) else vget g 32 i))

/-- The completion of a vector adjoint: the gradient registers it wrote. -/
def gradDone (k : CoreSt) (rs : List VReg) : M Fin :=
  pure (.done (rs.map (fun r => Wr.v (gradV r) (k.rdV (gradV r)) (BitVec.allOnes 2048))) 0)

/-- LN2 of R295. -/
def ln2F32 : Nat := 0x3F317218
/-- 1 − x. -/
def oneMinus (x : Nat) : Nat := toF32 ((f32 0x3F800000).add (f32 x).neg)

/-- `VADD`, `VSUB`, `VMUL`, `VMAD`: the two source gradients gain `fa i g` and `fb i g`. -/
def adj2 (o : VOpt) (d a b : VReg) (keep : Bool) (off : Nat) (fa fb : CoreSt → Nat → Nat → Nat) : Perf := fun c e => do
  let k ← getCore c
  let act := k.savedMask e o off
  let g := vget (k.rdV (gradV d)) 32
  let k1 := k.gradDst o 32 64 act d (fun i => if keep then g i else 0)
  let k2 := (k1.gradAdd act a (fun i => fa k i (g i))).gradAdd act b (fun i => fb k i (g i))
  gradDone k2 [d, a, b]

/-- `VRELU`, `VEXP2`, `VRCP`, `VTANH`: the source gradient gains `f i g`. -/
def adj1 (o : VOpt) (d a : VReg) (off : Nat) (f : CoreSt → Nat → Nat → Nat) : Perf := fun c e => do
  let k ← getCore c
  let act := k.savedMask e o off
  let g := vget (k.rdV (gradV d)) 32
  let k1 := (k.gradDst o 32 64 act d (fun _ => 0)).gradAdd act a (fun i => f k i (g i))
  gradDone k1 [d, a]

/-- Element i of the n-th saved register. -/
def CoreSt.savedV (k : CoreSt) (e : Entry) (n i : Nat) : Nat := k.item e (256 * n + 4 * i) 4

def adjVadd (o : VOpt) (d a b : VReg) : Perf := adj2 o d a b false 0 (fun _ _ g => g) (fun _ _ g => g)
def adjVsub (o : VOpt) (d a b : VReg) : Perf := adj2 o d a b false 0 (fun _ _ g => g) (fun _ _ g => negF32 g)
def adjVmul (keep : Bool) (o : VOpt) (d a b : VReg) : Perf := fun c e =>
  adj2 o d a b keep 512 (fun k i g => mulF32 g (k.savedV e 1 i)) (fun k i g => mulF32 g (k.savedV e 0 i)) c e
def adjVrelu (o : VOpt) (d a : VReg) : Perf := fun c e => adj1 o d a 8 (fun k i g => if (k.item e 0 8).testBit i then g else 0) c e
def adjVexp2 (o : VOpt) (d a : VReg) : Perf := fun c e => adj1 o d a 256 (fun k i g => mulF32 (mulF32 g (k.savedV e 0 i)) ln2F32) c e
def adjVrcp (o : VOpt) (d a : VReg) : Perf := fun c e =>
  adj1 o d a 256 (fun k i g => let y := k.savedV e 0 i; negF32 (mulF32 (mulF32 g y) y)) c e
def adjVtanh (o : VOpt) (d a : VReg) : Perf := fun c e =>
  adj1 o d a 256 (fun k i g => let y := k.savedV e 0 i; mulF32 g (oneMinus (mulF32 y y))) c e

def adjVred (o : VOpt) (d a : VReg) : Perf := fun c e => do
  let k ← getCore c
  let s := redAll .add .fp32 ((upTo 64).map (vget (k.rdV (gradV d)) 32))
  let k1 := (k.wrV (gradV d) 0).gradAdd (k.savedMask e o 0) a (fun _ => s)
  gradDone k1 [d, a]

def adjVbcast (o : VOpt) (d : VReg) : Perf := fun c e => do
  let k ← getCore c
  gradDone (k.gradDst o 32 64 (k.savedMask e o 0) d (fun _ => 0)) [d]

def adjVbcastE (o : VOpt) (d a : VReg) (n : BitVec 16) : Perf := fun c e => do
  let k ← getCore c
  let act := k.savedMask e o 0
  let g := vget (k.rdV (gradV d)) 32
  let s := redAll .add .fp32 ((upTo 64).map (fun i => if act i then g i else 0x80000000))
  gradDone ((k.gradDst o 32 64 act d (fun _ => 0)).gradAdd (fun i => i == n.toNat) a (fun _ => s)) [d, a]

def adjVcvt (o : VOpt) (df sf : BitVec 8) (d a : VReg) : Perf := fun c e => do
  let k ← getCore c
  let w := fmtWidth sf.toNat
  let n := 2048 / w
  let act := k.savedMask e o 0
  let g := vget (k.rdV (gradV d)) w
  let k1 := k.gradDst o w n act d (fun _ => 0)
  if isFloat df.toNat && isFloat sf.toNat then
    let old := k1.rdV (gradV a)
    let k2 := k1.wrV (gradV a) (vmake w n (fun i =>
      if act i then roundFmt sf.toNat false .rne ((decodeFmt sf.toNat false (vget old w i)).add (decodeFmt df.toNat false (g i))) else vget old w i))
    gradDone k2 [d, a]
  else gradDone k1 [d]

-- ### Memory adjoints (R296)

/-- The gradient access of a saved pointer: elements of `es` bytes from gp(p) on. -/
def gradAcc (e : Entry) (p : Word) (es : Nat) : VAcc :=
  let q := gradPtr (e.x 0) p
  ⟨q, es, fun i => (ptrOffset q : Int) + (i : Int) * es⟩

def adjVld (o : VOpt) (d : VReg) : Perf := fun c e => do
  let k := e.seen (← getCore c)
  let act := k.savedMask e o 8
  let v := gradAcc e (BitVec.ofNat 64 (k.item e 0 8)) 4
  let is := (upTo 64).filter act
  vchecks c .wr false v is
  vaccAll c 1 v (fun i => vget (k.rdV (gradV d)) 32 i) is
  gradDone (k.gradDst o 32 64 act d (fun _ => 0)) [d]

/-- Reads and clears element i of gradient memory in one step, at its place for scope D. -/
def clearAt (c : Nat) (u : User) (ptr : Word) (off es : Nat) : M Nat := do
  let p := ptrAt ptr off
  let l ← checkSpan c u .rdwr p off (off + es - 1 : Nat)
  atomicAt c l .rdwr p off es 2 (fun _ => some 0)

def clearEach (c : Nat) (u : User) (v : VAcc) : List Nat → M (SMap Nat)
  | [] => pure []
  | i :: is => do
    let x ← clearAt c u v.ptr (v.off i).toNat v.es
    let r ← clearEach c u v is
    pure (SMap.set 0 r i x)

/-- `VST` and the pointer form of `VST.SR`: elements of format `f`. -/
def adjVst (o : VOpt) (f : Nat) (d : VReg) : Perf := fun c e => do
  let k := e.seen (← getCore c)
  let act := k.savedMask e o 8
  let v := gradAcc e (BitVec.ofNat 64 (k.item e 0 8)) (fmtWidth f / 8)
  let is := (upTo 64).filter act
  vchecks c .rdwr false v is
  let xs ← clearEach c .vec v is
  gradDone (k.gradAdd act d (fun i => toF32 (decodeFmt f false (SMap.get 0 xs i)))) [d]

/-- The handle form: the checks of a walk's elements, in element order. -/
def gradChecks (c : Nat) (v : VAcc) : List Nat → M Unit
  | [] => pure ()
  | i :: is => do
    let o := v.off i
    let p := mkPtr (ptrIndex v.ptr) (wrapInt 48 o)
    check (0 ≤ o && o < 2 ^ 48) .bounds p
    let _ ← checkSpan c .copy .rdwr p o (o + v.es - 1)
    gradChecks c v is

/-- What the tag over each element gives it: the format that decodes it and its scale (R97). -/
def gradForms (c : Nat) (t : Tens) (v : VAcc) : List Nat → M (SMap (Nat × Int))
  | [] => pure []
  | i :: is => do
    let off := (v.off i).toNat
    checkTags c t .rd [off]
    let g ← tagAt c t.loc .rd (shPtr t.r) off
    let r ← gradForms c t v is
    pure (SMap.set (0, 0) r i (tagForm (shFmt t.r) g))

def adjVstHdl (o : VOpt) (a : VReg) : Perf := fun c e => do
  let k := e.seen (← getCore c)
  goodHandles e.hs
  let r := (e.hd 0).shape
  check (loomFmt (shFmt r)) .hdlbad 0
  let n0 := k.item e 0 8
  let act := fun i => k.savedMask e o 8 i && n0 + i < shCount r
  let v := walkOff r n0
  let is := (upTo 64).filter act
  if is.isEmpty then gradDone k [a]
  else
    gradChecks c v is
    let l ← checkSpan c .copy .rdwr (shPtr r) (v.off (is.headD 0)) (v.off (is.headD 0))
    let fs ← gradForms c ⟨r, l⟩ v is
    let xs ← clearEach c .copy v is
    let val := fun (i : Nat) => let (f, sd) := SMap.get (0, 0) fs i; (decodeFmt f false (SMap.get 0 xs i)).scale sd
    gradDone (k.gradAdd act a (fun i => toF32 (val i))) [a]

-- ### CP (R297)

/-- The checks of the adjoint of `CP`, made when the walk issues it. -/
def adjCpPre (c : Nat) (hs : List Handle) : M Unit := do
  goodHandles (hs.drop 2)
  let fwd := (hs.getD 0 .unbound).shape
  let d := (hs.getD 2 .unbound).shape
  let r := (hs.getD 3 .unbound).shape
  check ((shFmt d == 1 || shFmt d == 2 || shFmt d == 3) && (shFmt r == 1 || shFmt r == 2)) .hdlbad 0
  check (shCount d == shCount fwd && shCount r == shCount fwd) .hdlbad 0
  if shCount d = 0 then pure ()
  else
    let _ ← checkShape c .copy .rdwr d
    checkDest c r
    check (shInjective d && shInjective r) .hdlbad 0

def readVals (c : Nat) (t : Tens) : List Int → M (List Val)
  | [] => pure []
  | e :: es => do
    let v ← readVal c false t e
    let r ← readVals c t es
    pure (v :: r)

def accElems (c : Nat) (t : Tens) : List Int → List Val → M Unit
  | e :: es, v :: vs => do
    accElem c t e v
    accElems c t es vs
  | _, _ => pure ()

def adjCp : Perf := fun c e => do
  let d := (e.hd 2).shape
  let r := (e.hd 3).shape
  if shCount d = 0 then pure (.done [] 0)
  else
    let td ← tensor c .copy .rdwr d
    let tr ← tensor c .copy .wr r
    td.flush c true
    tr.flush c true
    td.translateAll c .rdwr
    tr.translateAll c .wr
    let vs ← readVals c td (walkOffs d)
    zeroElems c td (walkOffs d)
    accElems c tr (walkOffs r) vs
    pure (.done [] 0)

-- ### MM.RUN (R298)

/-- The form of a gradient record beside its operand's: FP32 or BF16, the operand's rank and extents, counter 0 along elements. -/
def gradShape (g r : BitVec 512) : Bool :=
  (shFmt g == 1 || shFmt g == 2) && shRank g == shRank r &&
  (upTo 6).all (fun k => shE g k == (if k = 0 ∧ isPlane (shFmt r) then planeG (shFmt r) * shE r 0 else shE r k))

/-- Elements along K of an operand (R298). -/
def elemsK (r : BitVec 512) : Nat := if isPlane (shFmt r) then planeG (shFmt r) * shE r 0 else shE r 0

/-- The values of a group (R100). -/
def groupVals (f : Nat) (s : Int) (x : Group) : List Val :=
  (upTo (planeG f)).map (fun j =>
    if x.e = 0 then Val.zero
    else if x.e = 255 then Val.nan
    else
      let q := x.q.getD j 0
      (Val.fin (q < 0) q.natAbs 0).scale ((x.e : Int) - 127 + s - (planeN f - 1)))

/-- A group from its saved bytes: the scale byte and the planes. -/
def groupOf (f : Nat) (bs : Nat) : Group :=
  ⟨bs % 256, (upTo (planeG f)).map (planeInt (planeN f) (planeG f) (bs / 256))⟩

/-- The stored values of one row of an operand, read through its handle (R97, R100), under the checks of R228 on its tags. -/
def rowVals (c : Nat) (t : Tens) (tagp : Bool) (m : Nat) : List Nat → M (List Val)
  | [] => pure []
  | i :: is => do
    let e := (i : Int) * shS t.r 0 + (m : Int) * shS t.r 1
    let v ← (if isPlane (shFmt t.r) then do
        let (_, sc) ← blockTag c t tagp (groupBlk t.r e)
        let x ← readGroup c t e
        pure (groupVals (shFmt t.r) sc x)
      else do
        let x ← readVal c false t e
        pure [x] : M (List Val))
    let r ← rowVals c t tagp m is
    pure (v ++ r)

def allRows (c : Nat) (t : Tens) (tagp : Bool) : List Nat → M (List (List Val))
  | [] => pure []
  | m :: ms => do
    let x ← rowVals c t tagp m (upTo (shE t.r 0))
    let r ← allRows c t tagp ms
    pure (x :: r)

/-- The values of a saved operand, row by row. -/
def savedRows' (k : CoreSt) (e : Entry) (off : Nat) (r : BitVec 512) : List (List Val) :=
  let n := elemBytes (shFmt r)
  (upTo (shE r 1)).map (fun m => ((upTo (shE r 0)).map (fun i =>
    let bs := k.item e (off + n * (i + shE r 0 * m)) n
    if isPlane (shFmt r) then groupVals (shFmt r) 0 (groupOf (shFmt r) bs) else [decodeFmt (shFmt r) false bs])).flatten)

/-- Adds a term to the sum of a gradient element; elements are keyed 2^32 * row + index along K. -/
def addTerm (sums : SMap (Option Val)) (key : Nat) (v : Val) : SMap (Option Val) :=
  SMap.set none sums key (some (match SMap.get none sums key with | some x => x.add v | none => v))

/-- The contributions of one iteration to the gradient of the operand whose group starts at `k1`; `y` is the other operand, whose group
starts at `k2`. -/
def termsOf (cv : Nat → Nat → Val) (g rows cols k1 lim1 k2 : Nat) (y : List (List Val)) (sums : SMap (Option Val)) : SMap (Option Val) :=
  (upTo rows).foldl (fun s m => (upTo cols).foldl (fun s n => (upTo g).foldl (fun s j =>
    match (y.getD n [])[k2 + j]? with
    | some b => if k1 + j < lim1 then addTerm s (2 ^ 32 * m + (k1 + j)) ((cv m n).mul b) else s
    | none => s) s) s) sums

/-- The first bit of a gradient element, by its key among the sums. -/
def sumBit (t : Tens) (key : Nat) : Nat :=
  elemBit t.r (((key % 2 ^ 32 : Nat) : Int) * shS t.r 0 + ((key / 2 ^ 32 : Nat) : Int) * shS t.r 1)

/-- R298: the tags of every gradient element, before any write. -/
def checkSums (c : Nat) (t : Tens) : List (Nat × Option Val) → M Unit
  | [] => pure ()
  | (key, _) :: r => do
    checkTags c t .wr (sectorsOf (sumBit t key) (fmtWidth (shFmt t.r)))
    checkSums c t r

/-- Adds each sum once to its gradient element (R298), at its place for scope D; the old value is decoded by its tag (R97). -/
def addSums (c : Nat) (t : Tens) : List (Nat × Option Val) → M Unit
  | [] => pure ()
  | (key, v) :: r => do
    let f := shFmt t.r
    let off := sumBit t key / 8
    let (tf, sd) := tagForm f (← tagAt c t.loc .wr (shPtr t.r) off)
    let _ ← atomicAt c t.loc .wr (ptrAt (shPtr t.r) off) off (fmtWidth f / 8) 2
      (fun old => some (roundFmt f false .rne ((((decodeFmt tf false old).scale sd).add (v.getD .zero)).scale (-sd))))
    addSums c t r

def adjMmRun (saveA saveB : Bool) : Perf := fun c e => do
  let k ← getCore c
  let x := Nest.ofBits (k.item e 0 64)
  productForm false x (e.hs.take 2)
  goodHandles (e.hs.drop 2)
  let a := (e.hd 0).shape
  let b := (e.hd 1).shape
  let ga := (e.hd 2).shape
  let gb := (e.hd 3).shape
  check (gradShape ga a && gradShape gb b) .hdlbad 0
  if shCount a = 0 || shCount b = 0 then pure (.done [] 0)
  else
    check (x.count ≤ 2 ^ 24 && x.maxA < groupsK a x.g && x.maxB < groupsK b x.g) .hdlbad 0
    let ta ← (if saveA then pure ⟨a, .port⟩ else tensor c .loom .rd a : M Tens)
    let tb ← (if saveB then pure ⟨b, .port⟩ else tensor c .loom .rd b : M Tens)
    let tga ← tensor c .loom .wr ga
    let tgb ← tensor c .loom .wr gb
    check (readWalkOk a && readWalkOk b && shInjective ga && shInjective gb) .hdlbad 0
    ta.flush c true
    tb.flush c true
    ta.translateAll c .rd
    tb.translateAll c .rd
    tga.translateAll c .wr
    tgb.translateAll c .wr
    let va ← (if saveA then pure (savedRows' k e 64 a) else allRows c ta x.tagp (upTo (shE a 1)) : M (List (List Val)))
    let vb ← (if saveB then pure (savedRows' k e (64 + (if saveA then savedSize (e.hd 0) else 0)) b) else allRows c tb x.tagp (upTo (shE b 1)) : M (List (List Val)))
    let cv := fun m n => f32 (k.rdAcc (x.acc + 4) (x.rorg + m) (x.corg + n)).toFp32
    let sa := x.iters.foldl (fun s p => termsOf cv x.g (shE a 1) (shE b 1) (x.g * p.1) (elemsK a) (x.g * p.2) vb s) []
    let sb := x.iters.foldl (fun s p => termsOf (fun n m => cv m n) x.g (shE b 1) (shE a 1) (x.g * p.2) (elemsK b) (x.g * p.1) va s) []
    checkSums c tga sa
    checkSums c tgb sb
    addSums c tga sa
    addSums c tgb sb
    pure (.done [] 0)

-- ### The work of an adjoint entry

/-- The work of the adjoint of a forward word (R294 to R298). -/
def runAdjoint (hsave : BitVec 32) : Perf := fun c e => do
  -- the item's words are checked as they are read (R68)
  if e.aux ≠ 0 then hotCheck c (e.aux - 1) (e.op.itemSize hsave e.hs)
  match e.op with
  | .vadd _ _ o d a b => adjVadd o d a b c e
  | .vsub _ _ o d a b => adjVsub o d a b c e
  | .vmul _ _ o d a b => adjVmul false o d a b c e
  | .vmad _ _ o d a b => adjVmul true o d a b c e
  | .vrelu _ _ o d a => adjVrelu o d a c e
  | .vexp2 _ _ o d a => adjVexp2 o d a c e
  | .vrcp _ _ o d a => adjVrcp o d a c e
  | .vtanh _ _ o d a => adjVtanh o d a c e
  | .vred _ _ o _ d a => adjVred o d a c e
  | .vbcast _ _ o d _ => adjVbcast o d c e
  | .vbcastE _ _ o d a n => adjVbcastE o d a n c e
  | .vcvt _ _ o df sf _ d a => adjVcvt o df sf d a c e
  | .vld _ _ o d _ _ _ => adjVld o d c e
  | .vst _ _ o d _ _ _ => adjVst o 1 d c e
  | .vstSrPtr _ _ o df _ a _ _ _ => adjVst o df.toNat a c e
  | .vstSrHdl _ _ o _ a _ _ => adjVstHdl o a c e
  | .cp .. => adjCp c e
  | .mmRun _ _ _ a b => adjMmRun (savesH hsave a) (savesH hsave b) c e
  | _ => pure (.done [] 0)

end Sys2Proof.Machine
end

