-- ==== Sys2Proof/Machine/Port.lean ====
section
/-! DEFINITION. The PORT window (R62, R191): which block an offset reaches, and the accesses of privileged code to it. An offset that no block takes
raises RIGHTS, like every access that a block does not take. -/

namespace Sys2Proof.Machine

/-- A register's block, with its number within a row of blocks and its offset in the block. -/
inductive Reg where
  | tb (o : Nat)
  | pre (o : Nat)
  | fb (o : Nat)
  | mg (o : Nat)
  | grp (g o : Nat)
  | qp (q o : Nat)
  | md (o : Nat)
  | tier (o : Nat)
  | start (o : Nat)
  | journal (o : Nat)
  | phy (ch o : Nat)
deriving DecidableEq, Repr

/-- The register at an offset that is a multiple of 8. -/
def regAt (off : Nat) : Option Reg :=
  if 0x20000 ≤ off ∧ off < 0x20040 then some (.tb (off - 0x20000))
  else if 0x30000 ≤ off ∧ off < 0x30020 then some (.pre (off - 0x30000))
  else if 0x40000 ≤ off ∧ off < 0x40030 then some (.fb (off - 0x40000))
  else if 0x40100 ≤ off ∧ off < 0x40138 then some (.mg (off - 0x40100))
  else if 0x50000 ≤ off ∧ off < 0x60000 then some (.grp ((off - 0x50000) / 16) (off % 16))
  else if 0x60000 ≤ off ∧ off < 0x61000 then some (.qp ((off - 0x60000) / 64) (off % 64))
  else if 0x70000 ≤ off ∧ off < 0x70010 then some (.md (off - 0x70000))
  else if 0x80000 ≤ off ∧ off < 0x80010 then some (.tier (off - 0x80000))
  else if 0x90000 ≤ off ∧ off < 0x90010 then some (.start (off - 0x90000))
  else if 0xA0000 ≤ off ∧ off < 0xA3000 then some (.journal (off - 0xA0000))
  else if 0x1000000 ≤ off ∧ off < 0x1800000 then some (.phy ((off - 0x1000000) / 4096) (off % 4096))
  else none

/-- R395, R418, R429, R439: whether core `c` may reach a register. -/
def State.mayReach (s : State) (c : Nat) (write : Bool) : Reg → Bool
  | .grp g _ => g < (s.part (s.core c).ctx.part).fb.grpcnt
  | .qp q _ => (s.qpair q).own == (s.core c).ctx.part
  | .start _ => !write
  | .journal o => (journalRead s (s.core c).ctx.part o).isSome
  | .phy ch _ => isBailiff c && fieldOf c == phyField ch
  | _ => true

/-- The value of a register; reading may raise a cause (R426). -/
def regValue (c : Nat) (r : Reg) : M Word := do
  let s ← get
  let p := (s.core c).ctx.part
  let n := fun (x : Nat) => (pure (BitVec.ofNat 64 x) : M Word)
  match r with
  | .tb o => n (tbRead s p o)
  | .pre o => n (preRead s p o)
  | .fb o => n (fbRead s p o)
  | .mg o => n (mgRead s p o)
  | .grp g o => n (grpRead s p g o)
  | .qp q o => n (qpRead s q o)
  | .md o => if o = 0 then pure 0 else readMdval c
  | .tier o => n (tierRead s p o)
  | .start o => n (startRead s o)
  | .journal o => n ((journalRead s p o).getD 0)
  | .phy ch o => n (phyRead s ch o)

/-- What a read changes: the registers that it clears. -/
def readEffect (p : Nat) (r : Reg) (s : State) : State :=
  match r with
  | .tb 0x30 => clearPfdrop p s
  | .fb 0x20 => clearRdcnt p s
  | .qp q 0x28 => clearQerr q s
  | _ => s

/-- A write of a register. -/
def regWrite (c : Nat) (r : Reg) (v : Word) : M Unit := do
  let p := (← getCore c).ctx.part
  match r with
  | .tb o => modify (tbWrite p o v)
  | .pre o => modify (preWrite p o v)
  | .fb o => modify (fbWrite p o v)
  | .mg o => modify (mgWrite p o v)
  | .grp g o => modify (grpWrite p g o v)
  | .qp q o => modify (qpWrite q o v)
  | .md o => if o = 0 then writeMdptr c v else writeMdval c v
  | .tier o => modify (tierWrite p o v)
  | .start _ => pure ()
  | .journal o => modify (journalWrite p o v)
  | .phy ch o => modify (phyWrite ch o v)

/-- The register that an access of `n` bytes reaches, or RIGHTS. -/
def portReg (c off n : Nat) (write : Bool) : M Reg := do
  let s ← get
  match (if n = 8 ∧ off % 8 = 0 then regAt off else none) with
  | some r => if s.mayReach c write r then pure r else trap .rights (mkPtr 0xFFF8 off)
  | none => trap .rights (mkPtr 0xFFF8 off)

/-- A load of `n` bytes through PORT. -/
def portRead (c off n : Nat) : M Word := do
  let r ← portReg c off n false
  let v ← regValue c r
  let p := (← getCore c).ctx.part
  modify (readEffect p r)
  pure v

/-- A store of `n` bytes through PORT. -/
def portWrite (c off n : Nat) (v : Word) : M Unit := do
  let r ← portReg c off n true
  regWrite c r v

end Sys2Proof.Machine
end

