-- ==== Sys2Proof/Machine/ScalarMem.lean ====
section
/-! DEFINITION. Scalar loads, stores and prefetches (R186 to R192): their work and the way they are issued. -/

namespace Sys2Proof.Machine

-- ### Work of the entries

/-- The register writes of a load of `n` bytes. -/
def loadWrs (n : Nat) (sx : Bool) (d : SReg) (v : Nat) : List Wr :=
  if n = 16 then [.s d (BitVec.ofNat 64 v), .s (pairHigh d) (BitVec.ofNat 64 (v / 2 ^ 64))]
  else [.s d (if sx then BitVec.ofInt 64 (sextNat v (8 * n)) else BitVec.ofNat 64 v)]

/-- The bytes at a checked address, through PORT or memory. -/
def loadAt (c : Nat) (a : Addr) (n : Nat) : M Nat := do
  match a.loc with
  | .port => do
    let v ← portRead c a.off n
    pure v.toNat
  | l => do
    let bs ← readAt c l a.ptr a.off n
    pure (leNat bs)

def storeAt (c : Nat) (a : Addr) (n v : Nat) : M Unit := do
  match a.loc with
  | .port => portWrite c a.off n (BitVec.ofNat 64 v)
  | l => writeAt c l a.ptr a.off (natBytes n v)

/-- R188: `LD` and `LDS`. -/
def runLd (n : Nat) (sx : Bool) (d : SReg) (m : MemOp) : Perf := fun c e => do
  let a ← scalarAddr c .rd m (e.x 0) (e.x 1) n
  let v ← loadAt c a n
  pure (.done (loadWrs n sx d v) 0)

/-- The data of a store, read at issue (R168, R189). -/
def Entry.storeData (e : Entry) : Nat := (e.x 2).toNat + atBit (e.x 3).toNat 64

/-- R188: `ST`. -/
def runSt (n : Nat) (m : MemOp) : Perf := fun c e => do
  let a ← scalarAddr c .wr m (e.x 0) (e.x 1) n
  storeAt c a n e.storeData
  pure (.done [] 0)

/-- R190: `LD.ACQ`: the load, then the acquire. -/
def runLdAcq (n : Nat) (d : SReg) (m : MemOp) (sc : BitVec 2) : Perf := fun c e => do
  let a ← scalarAddr c .rd m (e.x 0) (e.x 1) n
  let v ← loadAt c a n
  acquire c sc.toNat
  pure (.done (loadWrs n false d v) 0)

/-- R190: `ST.REL`: the release, then the store. -/
def runStRel (n : Nat) (m : MemOp) (sc : BitVec 2) : Perf := fun c e => do
  let a ← scalarAddr c .wr m (e.x 0) (e.x 1) n
  releaseBy c sc.toNat e
  storeAt c a n e.storeData
  pure (.done [] 0)

-- ### Prefetches (R192, R60, R351)

/-- What reaching for a byte ahead of its use comes to: its place; a page that is not mapped or elsewhere, so that it is dropped; another failed
check of R59; or a walk that waits for a stack. -/
inductive Ahead where
  | at_ (pl : Place)
  | dropped
  | refused
  | waits (pa : Nat)
deriving DecidableEq, Repr

/-- R60, R351: byte `off` of a buffer, by a walk that marks nothing. -/
def State.ahead (s : State) (c : Nat) (b : BitVec 256) (off : Nat) : Ahead :=
  let asid := (s.core c).ctx.asid
  let va := bufBase b + off
  match s.leafAt c va .rd with
  | .held pa => .waits pa
  | .failed .. => .refused
  | .unmapped .. => .dropped
  | .leaf e level _ =>
    let pa := leafPa e level va
    if ptePull e then .dropped
    else if !leafGrants .rd e || s.refuses b pa then .refused
    else .at_ ⟨pa, pteKey e, bufCompr b, bufTagged b, pageKey asid va, bufClass b⟩

/-- The buffer of a global pointer that checks out for a read of one byte (R59); a check that fails leaves nothing. -/
def bufAhead (c : Nat) (u : User) (ptr : Word) : M (Option (BitVec 256)) := fun s =>
  match checkSpan c u .rd ptr (ptrOffset ptr) (ptrOffset ptr) s with
  | (.ok (.glob b), s') => (.ok (some b), s')
  | (.error .wait, s') => (.error .wait, s')
  | _ => (.ok none, s)

/-- A fill whose failure raises nothing and counts nothing. -/
def quietFill (c : Nat) (pl : Place) (ptr : Word) (off : Nat) : M Unit := fun s =>
  match fill c pl ptr off s with
  | (.ok _, s') => (.ok (), s')
  | (.error .wait, s') => (.error .wait, s')
  | (.error _, _) => (.ok (), s)

/-- R192: `PF`. -/
def runPf (l1 : Bool) (m : MemOp) : Perf := fun c e => do
  let o := m.off (e.x 0) (e.x 1)
  let ptr := ptrAt (e.x 0) o.toNat
  if 0 ≤ o && o < 2 ^ 48 then
    match ← bufAhead c .scalar ptr with
    | none => pure ()
    | some b =>
      let s ← get
      match s.ahead c b o.toNat with
      | .at_ pl => if l1 then quietFill c pl ptr o.toNat else pure ()
      | .dropped => dropPf (s.core c).ctx.part
      | .refused => pure ()
      | .waits pa => await c pa
  pure (.done [] 0)

/-- R105: a croft fills a line of its L1 that it does not hold, at a time of its own choosing. -/
def l1Fill (c : Nat) (ptr : Word) : M Unit := do
  match ← bufAhead c .scalar ptr with
  | none => pure ()
  | some b => match (← get).ahead c b (ptrOffset ptr) with
    | .at_ pl => quietFill c pl ptr (ptrOffset ptr)
    | _ => pure ()

/-- R60, R351: the copy engine, the loom or the gleaner looks ahead, at an element beyond those that an instruction consumes. -/
def lookahead (c : Nat) (ptr : Word) : M Unit := do
  match ← bufAhead c .copy ptr with
  | none => pure ()
  | some b =>
    let s ← get
    match s.ahead c b (ptrOffset ptr) with
    | .dropped => dropPf (s.core c).ctx.part
    | _ => pure ()

-- ### Issue

/-- R155: a format-R word that is predicated off falls through and issues nothing. -/
def issueR (perf : Perf) (r : Req) (s : State) : Out :=
  let k := s.core s.active
  if k.taken r.h then issue perf r s else .next (s.setCore s.active (k.next r.h))

/-- R108: the base names the croft store or the lane store. -/
def nearBase (xs : List Word) (_ : List Handle) : Bool :=
  let i := ptrIndex (xs.getD 0 0)
  i == 0xFFF0 || i == 0xFFF3

/-- R191: an access of privileged code through PORT is a BARRIER. -/
def viaPort (m : MemOp) (s : State) : Bool := ptrIndex ((s.core s.active).rd m.a) == 0xFFF8 && s.privileged s.active

/-- The two registers of a 16-byte form, or the one of the others (R189). -/
def regsOf (n : Nat) (r : SReg) : List SReg := if n = 16 then [r, pairHigh r] else [r]

def issueLd (perf : Perf) (i : Instr) (h : Hdr) (n : Nat) (d : SReg) (m : MemOp) (s : State) : Out :=
  let port := viaPort m s
  issueR perf { op := i, h := h, t := .zero, qs := if port then [.lq, .sq] else [.lq], barrier := port, srcs := [m.a, m.b], dst := regsOf n d, near := nearBase } s

def issueSt (perf : Perf) (i : Instr) (h : Hdr) (n : Nat) (x : SReg) (m : MemOp) (s : State) : Out :=
  let port := viaPort m s
  issueR perf { op := i, h := h, t := .zero, qs := if port then [.lq, .sq] else [.sq], barrier := port, srcs := [m.a, m.b] ++ regsOf n x, near := nearBase,
                effect := true } s

def issueLdAcq (perf : Perf) (i : Instr) (h : Hdr) (n : Nat) (d : SReg) (m : MemOp) (s : State) : Out :=
  issueR perf { op := i, h := h, t := .zero, qs := [.lq, .sq], barrier := true, srcs := [m.a, m.b], dst := regsOf n d, near := nearBase } s

def issueStRel (perf : Perf) (i : Instr) (h : Hdr) (n : Nat) (x : SReg) (m : MemOp) (s : State) : Out :=
  issueR perf { op := i, h := h, t := .zero, qs := [.lq, .sq], barrier := true, srcs := [m.a, m.b] ++ regsOf n x, near := nearBase, effect := true,
                releases := true } s

def issuePf (perf : Perf) (i : Instr) (h : Hdr) (m : MemOp) (s : State) : Out :=
  issueR perf { op := i, h := h, t := .zero, qs := [.lq], srcs := [m.a, m.b] } s

/-- Atomics: base, index, operand, and what a CAS expects, read at issue (R193, R194). -/
def issueAmo (perf : Perf) (i : Instr) (h : Hdr) (n : Nat) (cas : Bool) (d : SReg) (m : MemOp) (x : SReg) (s : State) : Out :=
  let high := fun (r : SReg) => if n = 16 then pairHigh r else (0 : SReg)
  issueR perf { op := i, h := h, t := .zero, qs := [.sq], srcs := [m.a, m.b, x, high x] ++ (if cas then [d, high d] else []), dst := regsOf n d,
                near := nearBase, effect := true } s

end Sys2Proof.Machine
end

