-- ==== Sys2Proof/Machine/Perform.lean ====
section
/-! DEFINITION. The work of a started entry, by its instruction: one direct call for each word that enters a queue. -/

namespace Sys2Proof.Machine

/-- The work of scalar memory words and atomics (R186 to R196). -/
def performMem (i : Instr) : Perf :=
  match i with
  | .ldB _ d m => runLd 1 false d m
  | .ldH _ d m => runLd 2 false d m
  | .ldW _ d m => runLd 4 false d m
  | .ldD _ d m => runLd 8 false d m
  | .ldQ _ d m => runLd 16 false d m
  | .ldsB _ d m => runLd 1 true d m
  | .ldsH _ d m => runLd 2 true d m
  | .ldsW _ d m => runLd 4 true d m
  | .stB _ _ m => runSt 1 m
  | .stH _ _ m => runSt 2 m
  | .stW _ _ m => runSt 4 m
  | .stD _ _ m => runSt 8 m
  | .stQ _ _ m => runSt 16 m
  | .ldAcqB _ d m sc => runLdAcq 1 d m sc
  | .ldAcqH _ d m sc => runLdAcq 2 d m sc
  | .ldAcqW _ d m sc => runLdAcq 4 d m sc
  | .ldAcqD _ d m sc => runLdAcq 8 d m sc
  | .ldAcqQ _ d m sc => runLdAcq 16 d m sc
  | .stRelB _ _ m sc => runStRel 1 m sc
  | .stRelH _ _ m sc => runStRel 2 m sc
  | .stRelW _ _ m sc => runStRel 4 m sc
  | .stRelD _ _ m sc => runStRel 8 m sc
  | .stRelQ _ _ m sc => runStRel 16 m sc
  | .pfL1 _ m => runPf true m
  | .pfMsc _ m => runPf false m
  | .amoAddW _ d m _ sc => runAmo .add 4 d m sc
  | .amoAddD _ d m _ sc => runAmo .add 8 d m sc
  | .amoAndW _ d m _ sc => runAmo .and 4 d m sc
  | .amoAndD _ d m _ sc => runAmo .and 8 d m sc
  | .amoOrW _ d m _ sc => runAmo .or 4 d m sc
  | .amoOrD _ d m _ sc => runAmo .or 8 d m sc
  | .amoXorW _ d m _ sc => runAmo .xor 4 d m sc
  | .amoXorD _ d m _ sc => runAmo .xor 8 d m sc
  | .amoMinW _ d m _ sc => runAmo .min 4 d m sc
  | .amoMinD _ d m _ sc => runAmo .min 8 d m sc
  | .amoMaxW _ d m _ sc => runAmo .max 4 d m sc
  | .amoMaxD _ d m _ sc => runAmo .max 8 d m sc
  | .amoMinuW _ d m _ sc => runAmo .minu 4 d m sc
  | .amoMinuD _ d m _ sc => runAmo .minu 8 d m sc
  | .amoMaxuW _ d m _ sc => runAmo .maxu 4 d m sc
  | .amoMaxuD _ d m _ sc => runAmo .maxu 8 d m sc
  | .amoSwapW _ d m _ sc => runAmo .swap 4 d m sc
  | .amoSwapD _ d m _ sc => runAmo .swap 8 d m sc
  | .amoCasW _ d m _ sc => runAmo .cas 4 d m sc
  | .amoCasD _ d m _ sc => runAmo .cas 8 d m sc
  | .amoCasQ _ d m _ sc => runAmo .cas 16 d m sc
  | .amoFaddW _ d m _ sc => runAmo .fadd 4 d m sc
  | _ => fun _ _ => pure (.done [] 0)

/-- The work of ordering words, gates and rings (R246 to R264). -/
def performSync (i : Instr) : Perf :=
  match i with
  | .tokWait .. => runTokWait
  | .mark .. => runMark
  | .fence _ _ sc => runFence sc
  | .acq _ _ sc => runAcq sc
  | .rel _ _ sc => runRel sc
  | .acqP .. => runAcqP
  | .gateInit .. => runGateInit
  | .gateArr .. => runGateArr
  | .gateWait .. => runGateWait
  | .rpush .. => runRpush
  | .rpop _ _ d _ _ => runRpop d
  | _ => fun _ _ => pure (.done [] 0)

/-- The work of vector words (R204 to R220) and vector memory (R215 to R219). -/
def performVec (i : Instr) : Perf :=
  match i with
  | .vadd _ _ o d a b => runVadd o d a b
  | .vsub _ _ o d a b => runVsub o d a b
  | .vmul _ _ o d a b => runVmul o d a b
  | .vmad _ _ o d a b => runVmad o d a b
  | .vmin _ _ o d a b => runVmin o d a b
  | .vmax _ _ o d a b => runVmax o d a b
  | .vabs _ _ o d a => runVabs o d a
  | .vneg _ _ o d a => runVneg o d a
  | .vrelu _ _ o d a => runVrelu o d a
  | .vexp2 _ _ o d a => runVexp2 o d a
  | .vlog2 _ _ o d a => runVlog2 o d a
  | .vrcp _ _ o d a => runVrcp o d a
  | .vrsq _ _ o d a => runVrsq o d a
  | .vtanh _ _ o d a => runVtanh o d a
  | .vand _ _ o d a b => runVand o d a b
  | .vor _ _ o d a b => runVor o d a b
  | .vxor _ _ o d a b => runVxor o d a b
  | .vnot _ _ o d a => runVnot o d a
  | .vshl _ _ o d a n => runVshl o d a n
  | .vshr _ _ o d a n => runVshr o d a n
  | .vsra _ _ o d a n => runVsra o d a n
  | .vcmp _ _ o cc d a b => runVcmp o cc d a b
  | .vsel _ _ o d a b c => runVsel o d a b c
  | .mand _ _ d a b => runMand d a b
  | .mor _ _ d a b => runMor d a b
  | .mnot _ _ d a => runMnot d a
  | .mpopc _ _ o d a => runMpopc o d a
  | .vadds _ _ o d a b => runVadds o d a b
  | .vsubs _ _ o d a b => runVsubs o d a b
  | .vmulh _ _ o d a b => runVmulh o d a b
  | .vavg _ _ o d a b => runVavg o d a b
  | .vsad _ _ o d a b => runVsad o d a b
  | .vpack _ _ o df rnd d a b => runVpack o df rnd d a b
  | .vunpk _ _ o sf half rnd d a => runVunpk o sf half rnd d a
  | .pixUnpk _ _ _ pf off d a => runPixUnpk pf off d a
  | .pixPack _ _ _ pf d a => runPixPack pf d a
  | .vbfx _ _ o sx d a b => runVbfx o sx d a b
  | .vbfi _ _ o d a b => runVbfi o d a b
  | .vfshR _ _ o d a b n => runVfshR o d a b n
  | .vfshL _ _ o d a b n => runVfshL o d a b n
  | .vclz _ _ o d a => runVclz o d a
  | .vpopc _ _ o d a => runVpopc o d a
  | .vlut _ _ o d a _ => runVlut o d a
  | .vcvt _ _ o df sf rnd d a => runVcvt o df sf rnd d a
  | .vred _ _ o op d a => runVred o op d a
  | .vscan _ _ o op d a => runVscan o op d a
  | .vperm _ _ o d a b => runVperm o d a b
  | .vshuf _ _ o pat n d a b => runVshuf o pat n d a b
  | .vbcast _ _ o d _ => runVbcast o d
  | .vbcastE _ _ o d a n => runVbcastE o d a n
  | .vidx _ _ o d _ => runVidx o d
  | .vmov _ _ o d a => runVmov o d a
  | .trd _ _ o d a _ n => runTrd o d a n
  | .twr _ _ o d a _ n => runTwr o d a n
  | .vld _ _ o d _ _ disp => runVld o d disp
  | .vlds _ _ o d _ _ disp => runVlds o d disp
  | .vgath _ _ o d _ b disp => runVgath o d b disp
  | .vst _ _ o d _ _ disp => runVst o d disp
  | .vsts _ _ o d _ _ disp => runVsts o d disp
  | .vscat _ _ o d _ b disp => runVscat o d b disp
  | .vstSrPtr _ _ o df _ a _ _ disp => runVstSrPtr o df a disp
  | .vstSrHdl _ _ o _ a _ _ => runVstSrHdl o a
  | .vstAcc _ _ o df a _ _ disp => runVstAcc o df a disp
  | _ => fun _ _ => pure (.done [] 0)

/-- The work of loom words (R222 to R241). `hsave` is the open block's `HSAVE`. -/
def performLoom (hsave : BitVec 32) (i : Instr) : Perf :=
  match i with
  | .nestClr _ _ sl => runNestClr sl
  | .nestLvl _ _ sl lvl extm1 sa sb => runNestLvl sl lvl extm1 sa sb
  | .nestOpt _ _ sl _ n => runNestOpt sl n
  | .nestAcc _ _ sl d rorg corg => runNestAcc sl d rorg corg
  | .mmRun _ _ sl a b => runProduct false (savesH hsave a) (savesH hsave b) sl
  | .mmBatch _ _ sl _ _ => runProduct true false false sl
  | .accInit _ _ d _ => runAccInit d
  | .accFlush _ _ d => runAccFlush d
  | .accRd _ _ _ a rnd roff coff => runAccRd a rnd roff coff
  | .accWr _ _ d _ roff coff => runAccWr false d roff coff
  | .accWrAdd _ _ d _ roff coff => runAccWr true d roff coff
  | .planePack _ _ _ _ rnd => runPlanePack rnd
  | .planeUnpk _ _ _ _ rnd => runPlaneUnpk rnd
  | _ => fun _ _ => pure (.done [] 0)

/-- The work of copies, block words, stacks, launches and channels (R250 to R271, R286 to R299). -/
def performCopy (i : Instr) : Perf :=
  match i with
  | .hdlSet _ _ d _ => runHdlSet d
  | .hdlInv _ _ d => runHdlInv d
  | .cp _ _ _ _ rnd dscale gen _ => runCp rnd dscale gen
  | .cpAcc _ _ _ _ gen _ => runCpAcc gen
  | .cpDec _ _ _ _ gen _ => runCpDec gen
  | .cpCmp _ _ _ _ rnd op gen _ => runCpCmp rnd op gen
  | .cpPf .. => runCpPf
  | .glean _ _ _ _ rnd op => runGlean rnd op
  | .gradZeroV _ _ msk => runGradZeroV msk
  | .gradZeroAcc _ _ msk => runGradZeroAcc msk
  | .gradZeroH .. => runGradZeroH
  | .rsBind .. => runRsBind
  | .rsPush .. => runRsPush
  | .rsPop .. => runRsPop
  | .rsSpill .. => runRsSpill
  | .launch .. => runLaunch
  | .tlRead .. => runTlRead
  | .chSend _ _ ch _ => runChSend ch
  | .chRecv _ _ _ ch _ => runChRecv ch
  | .chPut _ _ ch _ _ gen _ => runChPut ch gen
  | .chMcast _ _ ch _ _ gen _ => runChMcast ch gen
  | .chGet _ _ _ ch _ _ _ => runChGet ch
  | .sioRead _ _ _ ch _ _ _ => runSioRead ch
  | .chAmo _ _ _ ch _ _ op sz => runChAmo ch op sz
  | _ => fun _ _ => pure (.done [] 0)

/-- The work of system words (R330 to R336). -/
def performSys (i : Instr) : Perf :=
  match i with
  | .cutSave .. => runCutSave
  | .cutLoad .. => runCutLoad
  | .park .. => runPark
  | .wake .. => runWake
  | .probe _ _ d _ pw => runProbe d pw
  | .probeRes _ _ d _ pw => runProbeRes d pw
  | .mmuInv _ _ _ _ _ allas allva => runMmuInv allas allva
  | .mmuSync .. => runMmuSync
  | .mmuWalk _ _ d _ _ => runMmuWalk d
  | .keyLoad .. => runKeyLoad
  | .keyKill .. => runKeyKill
  | _ => fun _ _ => pure (.done [] 0)

/-- The group of R166 that a queued word belongs to, for the choice of its work. -/
inductive Unit6 where
  | mem | sync | vec | loom | copy | sys
deriving DecidableEq, Repr

end Sys2Proof.Machine

namespace Sys2Proof

open Machine in
/-- R166: the group of a word. -/
def Instr.unit6 (i : Instr) : Unit6 :=
  match i with
  | .tokWait .. | .mark .. | .fence .. | .acq .. | .rel .. | .acqP .. | .gateInit .. | .gateArr .. | .gateWait .. | .rpush .. | .rpop .. => .sync
  | .nestClr .. | .nestLvl .. | .nestOpt .. | .nestAcc .. | .mmRun .. | .mmBatch .. | .accInit .. | .accFlush .. | .accRd .. | .accWr ..
  | .accWrAdd .. | .planePack .. | .planeUnpk .. => .loom
  | .hdlSet .. | .hdlInv .. | .cp .. | .cpAcc .. | .cpDec .. | .cpCmp .. | .cpPf .. | .glean .. | .gradZeroV .. | .gradZeroAcc ..
  | .gradZeroH .. | .rsBind .. | .rsPush .. | .rsPop .. | .rsSpill .. | .launch .. | .tlRead .. | .chSend .. | .chRecv .. | .chPut ..
  | .chMcast .. | .chGet .. | .sioRead .. | .chAmo .. => .copy
  | .cutSave .. | .cutLoad .. | .park .. | .wake .. | .probe .. | .probeRes .. | .mmuInv .. | .mmuSync .. | .mmuWalk .. | .keyLoad ..
  | .keyKill .. => .sys
  | .ldB .. | .ldH .. | .ldW .. | .ldD .. | .ldQ .. | .ldsB .. | .ldsH .. | .ldsW .. | .stB .. | .stH .. | .stW .. | .stD .. | .stQ ..
  | .ldAcqB .. | .ldAcqH .. | .ldAcqW .. | .ldAcqD .. | .ldAcqQ .. | .stRelB .. | .stRelH .. | .stRelW .. | .stRelD .. | .stRelQ ..
  | .pfL1 .. | .pfMsc .. | .amoAddW .. | .amoAddD .. | .amoAndW .. | .amoAndD .. | .amoOrW .. | .amoOrD .. | .amoXorW .. | .amoXorD ..
  | .amoMinW .. | .amoMinD .. | .amoMaxW .. | .amoMaxD .. | .amoMinuW .. | .amoMinuD .. | .amoMaxuW .. | .amoMaxuD .. | .amoSwapW ..
  | .amoSwapD .. | .amoCasW .. | .amoCasD .. | .amoCasQ .. | .amoFaddW .. => .mem
  | _ => .vec

end Sys2Proof

namespace Sys2Proof.Machine

/-- `HSAVE` of the block in which an entry that pushes an item was issued (R276, R278): from the stack as it stood at issue. -/
def Entry.hsave (e : Entry) : BitVec 32 :=
  match e.stk with
  | some st => if e.aux = 0 then 0 else frHsave (if e.snap.blk.dir = 2 then st.hdr st.topf else st.hdr st.depth)
  | none => 0

/-- The work of any entry: an adjoint under the walk's `HSAVE` (R292), another one by its word. -/
def perform : Perf := fun c e => do
  let k ← getCore c
  if e.adj then runAdjoint (match k.res.walk with | some w => w.hsave | none => 0) c e
  else match e.op.unit6 with
    | .mem => performMem e.op c e
    | .sync => performSync e.op c e
    | .vec => performVec e.op c e
    | .loom => performLoom e.hsave e.op c e
    | .copy => performCopy e.op c e
    | .sys => performSys e.op c e

end Sys2Proof.Machine
end

