-- ==== Sys2Proof/Machine/Events.lean ====
section
/-! DEFINITION. The meanings of the event rows of the opcode table: what the device does by itself and what its surroundings do to it. An
event whose condition does not hold changes nothing. -/

namespace Sys2Proof.Machine

/-- With `eager`, what an event lets a core's queues do happens at once (log entry 2). -/
def settle (c : Nat) (s : State) : State := if s.eager then runQueues perform c s else s

/-- An event that runs an operation: one that stops leaves no more than what it waits for. -/
def eventM (m : M Unit) (s : State) : State :=
  match m s with
  | (.ok (), s') => s'
  | (.error _, s') => s.heldBack s'

-- ### Queues (R22, R110, R248)

/-- R22: the entries of queue `q` that wait are tried once more: `m` entries from number `n` on. -/
def retryIn (c : Nat) (q : QId) : Nat → Nat → State → State
  | 0, _, s => s
  | m + 1, n, s =>
    match (s.core c).q.es[n]? with
    | some e => retryIn c q m (n + 1) (if e.inQ q && (s.core c).tries e then startEntry perform c n e s else s)
    | none => s

/-- R22, R23: queue `q` starts its next entry, when that can start. -/
def startNext (c : Nat) (q : QId) (s : State) : State :=
  let s1 := retryIn c q (s.core c).q.es.length 0 s
  if (s1.core c).q.trap.isSome then s1
  else match findEntry (fun e before => e.inQ q && s1.startable c e before) [] (s1.core c).q.es with
    | some (i, e) => startEntry perform c i e s1
    | none => s1

/-- Entries whose answer comes from another module and is no event of its own. -/
def answerable : Instr → Bool
  | .chSend .. | .chPut .. | .chGet .. | .chAmo .. => true
  | i => (amoDest i).isSome

/-- A forwarded atomic that is sent back waits for the pull of its page and is tried here (R403). -/
def sentBack (c i : Nat) (s : State) : State :=
  s.modCore c (fun k => match k.q.es[i]? with
    | some e => k.setEntry i { e with aux := 1, phase := .waiting }
    | none => k)

/-- Completes the entry at a position if its work is done (R21, R110). -/
def finishEntry (c i : Nat) (s : State) : State :=
  match (s.core c).q.es[i]? with
  | some e => if e.phase == .done then s.modCore c (fun k => k.complete i e) else s
  | none => s

/-- R110: entry number `n` of queue `q` completes; one that waits for another module first takes its answer. -/
def completeAt (c : Nat) (q : QId) (n : Nat) (r : Reply) (s : State) : State :=
  match (s.core c).posIn q n with
  | none => s
  | some i =>
    match (s.core c).q.es[i]? with
    | none => s
    | some e =>
      if e.phase == .pend && answerable e.op then
        if !s.hasLeft c e then s
        else if (amoDest e.op).isSome && r.code != 0 then sentBack c i s
        else finishEntry c i (answerEntry c i (fun e => answer c e r) s)
      else finishEntry c i s

/-- R248: the bound of entry number `n` of queue `q` is exceeded: TIMEOUT, as a trap of that entry. The waits of a frozen context stand
still (R428). -/
def timeoutAt (c : Nat) (q : QId) (n : Nat) (s : State) : State :=
  let k := s.core c
  match k.posIn q n with
  | none => s
  | some i =>
    match k.q.es[i]? with
    | none => s
    | some e =>
      if e.phase == .waiting && !e.held && !s.ctxFrozen k.ctx.asid && (match e.lim with | some l => s.overdue c e l | none => false) then
        s.modCore c (fun k => (k.setEntry i { e with held := true }).choose (entryTrap e .timeout (timeoutPtr c e s)))
      else s

def execEntryStart (c : Nat) (q : QId) (s : State) : Out := .next (settle c (startNext c q s))
def execEntryComplete (c : Nat) (q : QId) (k : Nat) (r : Reply) (s : State) : Out := .next (settle c (completeAt c q k r s))
def execWaitTimeout (c : Nat) (q : QId) (k : Nat) (s : State) : Out := .next (settle c (timeoutAt c q k s))

-- ### L1, promotions, gates (R105, R119, R123, R261)

def execL1WriteBack (c line : Nat) (s : State) : Out := .next (eventM (writeBack c line) s)
def execL1Drop (c line : Nat) (s : State) : Out := .next (eventM (dropClean c line) s)
def execPromotionRequest (src c : Nat) (s : State) : Out := .next (settle src (promotionRequest src c s))
def execPromotionEnd (c : Nat) (s : State) : Out := .next (settle c (promotionEnd c s))

/-- R261: an arrival from context `asid` at gate `g` of croft `c`. -/
def gateArrives (asid c g n : Nat) (s : State) : State :=
  match s.partOfAsid asid with
  | some p => if c < 256 ∧ g < 64 ∧ !s.gateWaits p asid c g then (s.arrive p asid c g (n % 2 ^ 40)).2 else s
  | none => s
def execGateArrival (asid c g n : Nat) (s : State) : Out := .next (settle c (gateArrives asid c g n s))

-- ### The hayward (R35, R43, R46, R266, R414)

def execRingSlotRead (asid : Nat) (s : State) : Out := .next (readSlot asid s)
def execDeferredAccept (p : Nat) (s : State) : Out := .next (acceptDeferred p s)
def execPointFire (p : Nat) (s : State) : Out := .next (firePoint p s)
def execOutOfTurnService (p lid : Nat) (s : State) : Out := .next (serveOutOfTurn p lid s)
def execPointStart (c : Nat) (s : State) : Out := .next (startPoint c s)
def execPtDoneRetire (c : Nat) (s : State) : Out := .next (retirePoint c s)

-- ### Traps and pre-emption (R361, R362, R372 to R375, R380)

/-- R361: the queue cut of the chosen trap begins, and ends if nothing that had started is left. -/
def execTrapTaken (c : Nat) (s : State) : Out := .next (tryCut c s)
def execCutComplete (c : Nat) (s : State) : Out := .next (tryHardCut c (tryCut c s))
def execDrainTimeout (p lid : Nat) (s : State) : Out :=
  .next (match s.launch? p lid with | some l => if s.ctxFrozen l.asid then s else drainExpire p lid s | none => s)
def execPcmdSuspend (p lid : Nat) (s : State) : Out := .next (preCommand p lid 1 s)
def execPcmdResume (p lid : Nat) (s : State) : Out := .next (preCommand p lid 2 s)
def execPcmdDhalt (p lid : Nat) (s : State) : Out := .next (preCommand p lid 3 s)
def execPcmdDrun (p lid : Nat) (s : State) : Out := .next (preCommand p lid 4 s)
def execPcmdKill (p lid : Nat) (s : State) : Out := .next (preCommand p lid 5 s)
def execSuspendDrainEnd (p lid : Nat) (s : State) : Out := .next (drainEnd p lid s)
def execRoleCommand (p c : Nat) (roles : BitVec 5) (halt : Bool) (s : State) : Out := .next (settle c (roleCmd p c roles halt s))
def execParkRegate (c : Nat) (s : State) : Out := .next (regate c s)

-- ### Blocks and stacks (R284, R291)

/-- R291: a core in a reverse walk makes one turn of it next. -/
def execRevbWalk (c : Nat) (s : State) : Out :=
  .next (if c < 264 && (s.core c).walking then { s with agenda := .core c :: s.agenda } else s)

/-- R284, R285: the spill engine moves the deepest hot frame of a bound stack to the lower tiers; it demotes for it only when no frame bytes
are still to be read, and moves nothing that an entry is still to write (log entry 24). A move that would meet an error is not made. -/
def spillMove (c : Nat) (s : State) : State :=
  let k := s.core c
  match k.res.stack with
  | none => s
  | some st =>
    let m := st.moveOut k.openedBlk (s.tierRoom k.ctx.part st) (st.nfr + 1) (min st.depth (fillLow (k.q.es ++ k.q.heldEs)))
    if st.depth ≤ st.cold || !m.ok || (k.reading && !m.shifts.isEmpty) then s else eventM (applyMoved c true st m) s
def execSpillEngineMove (c : Nat) (s : State) : Out := .next (spillMove c s)

-- ### Faults and pages (R349, R353, R403)

def execFltack (p seq : Nat) (s : State) : Out := .next (faultAnswered p seq s)
def execPagePullRequest (p ctx va : Nat) (s : State) : Out := .next (servePull p ctx va s)
def execPullDataArrival (asid va : Nat) (page : PageData) (s : State) : Out := .next (pageArrives asid va page s)
def execForwardedAtomic (p : Nat) (a : FwdAtomic) (s : State) : Out := .next (forwarded p a s)

-- ### The fabric (R386, R392, R396, R398, R405)

/-- Entry number `n` of CQ of a core that meets a condition takes an answer. -/
def cqAnswer (c n : Nat) (ok : Instr → Bool) (m : Entry → M (List Wr × Word)) (s : State) : State :=
  match (s.core c).posIn .cq n with
  | none => s
  | some i =>
    match (s.core c).q.es[i]? with
    | none => s
    | some e => if ok e.op then finishEntry c i (answerEntry c i m s) else s

def isMcast : Instr → Bool
  | .chMcast .. => true
  | _ => false
def isSio : Instr → Bool
  | .sioRead .. => true
  | _ => false

def execRedirect (c k dev part : Nat) (s : State) : Out :=
  .next (match (s.core c).posIn .cq k with
    | some i => settle c (redirected c i dev part s)
    | none => s)
def execRemoteAdmit (op : RemoteOp) (s : State) : Out := .next (remoteArrives op s)
def execMcastAggAck (c k : Nat) (members naks : List Nat) (code : Nat) (s : State) : Out :=
  .next (settle c (cqAnswer c k isMcast (fun _ => pure ([], mcastWord members naks code)) s))
def execLinkFlitRefused (port : Nat) (s : State) : Out := .next (flitRefused port s)
def execLinkRetrain (port : Nat) (ok : Bool) (s : State) : Out := .next (retrained port ok s)
def execRouteReturns (port : Nat) (s : State) : Out := .next (routeBack port s)

/-- R398: with `eager`, a window command ends at once when nothing admitted before it is left. -/
def winEvent (p w op : Nat) (s : State) : State :=
  let s1 := winCommand p w op s
  if s.eager then stepWin p s1 else s1
def execWindowRevoke (p w : Nat) (s : State) : Out := .next (winEvent p w 1 s)
def execWindowRetire (p w : Nat) (s : State) : Out := .next (winEvent p w 2 s)
def execWindowCmdEnd (p : Nat) (s : State) : Out := .next (stepWin p s)

-- ### Migration (R399 to R404)

def execMigArm (p : Nat) (s : State) : Out := .next (migCommand p 1 s)
def execMigFreeze (p : Nat) (s : State) : Out := .next (migCommand p 2 s)
def execFreezeComplete (p : Nat) (s : State) : Out := .next (freezeEnd p s)
def execMigSend (p : Nat) (s : State) : Out := .next (migCommand p 3 s)
def execImageSent (p : Nat) (s : State) : Out := .next (imageDone p s)
def execMigResume (p : Nat) (s : State) : Out := .next (migCommand p 4 s)
def execMigDrain (p : Nat) (s : State) : Out := .next (migCommand p 5 s)
def execDrainComplete (p : Nat) (s : State) : Out :=
  .next (let m := (s.part p).mg; if m.busy && m.cmd == 5 then stepMig p s else s)
def execMigRelease (p : Nat) (s : State) : Out := .next (migCommand p 6 s)
def execMigAbort (p : Nat) (s : State) : Out := .next (migCommand p 7 s)

-- ### The host and the storage port (R413, R414, R418, R419)

def execDoorbellTail (vf asid : Nat) (tail : BitVec 32) (s : State) : Out := .next (ringBell vf asid tail.toNat s)
def execRovfClear (vf asid : Nat) (s : State) : Out := .next (clearRovf vf asid s)
def execNvmeCompletion (c k : Nat) (sc : BitVec 8) (sct : BitVec 3) (data : List Byte) (s : State) : Out :=
  .next (settle c (cqAnswer c k isSio (fun e => sioEnd c e (fun q => sioTake q c e.seq.cq sc.toNat sct.toNat) sc.toNat sct.toNat data) s))

/-- R419: the command of entry number `k` of CQ has been outstanding for longer than its queue pair's `QTO`, in milliseconds of the clock in force. -/
def State.sioOverdue (s : State) (c k : Nat) : Bool :=
  match (s.core c).posIn .cq k with
  | none => false
  | some i => match (s.core c).q.es[i]? with
    | none => false
    | some e => (upTo 64).any (fun q => match (s.sioRing q).cmds.find? (fun d => d.core == c && d.seq == e.seq.cq) with
      | none => false
      | some d =>
        let ms := if (s.qpair q).tmo = 0 then 30000 else (s.qpair q).tmo
        1000 * ms * s.clock ≤ (s.cycle - BitVec.ofNat 64 d.start).toNat)

/-- R419: a command that exceeds `QTO` is aborted: IOERR with status 0x71 of type 3, and no data. Nothing of a frozen context times out (R428). -/
def execSioCommandTimeout (c k : Nat) (s : State) : Out :=
  .next (if s.ctxFrozen (s.core c).ctx.asid || !s.sioOverdue c k then s
    else settle c (cqAnswer c k isSio (fun e => sioEnd c e (fun q => sioAbort q c e.seq.cq) 0x71 3 []) s))
def execHostMailboxWrite (s : State) : Out := .next (mailbox s)

-- ### HBM and its training (R428 to R432)

def execSelfRefreshEnter (stack : Nat) (s : State) : Out := .next (srefEnter stack s)
def execSelfRefreshExit (stack : Nat) (s : State) : Out := .next (srefExit stack s)
def execPhyReadTest (ch : Nat) (s : State) : Out := .next (startTest ch 1 s)
def execPhyWriteReadTest (ch : Nat) (s : State) : Out := .next (startTest ch 2 s)
def execPhyTestComplete (ch : Nat) (terr : BitVec 34) (tcnt : BitVec 40) (s : State) : Out := .next (endTest ch terr.toNat tcnt.toNat s)
def execPhyRdall (ch : Nat) (v : BitVec 7) (s : State) : Out := .next (writeAllLanes ch v.toNat false s)
def execPhyWrall (ch : Nat) (v : BitVec 7) (s : State) : Out := .next (writeAllLanes ch v.toNat true s)
def execTrnWrite (ch : Nat) (v : Bool) (s : State) : Out := .next (writeTrn ch v s)

-- ### Registers (R10, R337, R397, R418, R426)

def execMdptrWrite (c : Nat) (v : Word) (s : State) : Out := .next (eventM (writeMdptr c v) s)
def execMdvalWrite (c : Nat) (v : Word) (s : State) : Out := .next (eventM (writeMdval c v) s)
def execPfdropRead (p : Nat) (s : State) : Out := .next (clearPfdrop p s)
def execRdcntRead (p : Nat) (s : State) : Out := .next (clearRdcnt p s)
def execQerrRead (q : Nat) (s : State) : Out := .next (clearQerr q s)
def execRegisterWrite (c off : Nat) (v : Word) (s : State) : Out := .next (eventM (portWrite c off 8 v) s)

-- ### Start and management (R435 to R453)

def execColdStart (s : State) : Out := .next (coldStart s)
def execBootStage (r : StageResult) (s : State) : Out := .next (bootStage r s)
def execStartStall (s : State) : Out := .next (startStall s)
def execPowerLoss (s : State) : Out := .next (powerLoss s)
def execProvision (a : ProvArgs) (s : State) : Out := .next (command (provision a) s)
def execRelease (p : Nat) (s : State) : Out := .next (command (releasePart p) s)
def execPreset (p : Nat) (s : State) : Out := .next (command (preset p) s)
def execWreset (s : State) : Out := .next (command wreset s)
def execTelem (s : State) : Out := .next (command telem s)
def execClrcnt (s : State) : Out := .next (command clrcnt s)
def execFullreq (s : State) : Out := .next (command fullreq s)
def execTagfr (n : Nat) (s : State) : Out := .next (command (setTagfr n) s)
def execRetire (stack : Nat) (s : State) : Out := .next (command (retireStack stack) s)
def execHamletFence (hm : Nat) (s : State) : Out := .next (command (fenceHamlet hm true) s)
def execUnfence (hm : Nat) (s : State) : Out := .next (command (fenceHamlet hm false) s)
def execPlimit (w : Nat) (s : State) : Out := .next (command (setPlimit w) s)
def execAttest (nonce : BitVec 256) (p : Nat) (s : State) : Out := .next (command (attest nonce p) s)
def execPowerStepDown (s : State) : Out := .next (powerStepDown s)
def execPowerStepUp (s : State) : Out := .next (powerStepUp s)
def execClockStepChange (mhz : Nat) (s : State) : Out := .next (clockStep mhz s)

end Sys2Proof.Machine
end

