-- ==== Sys2Proof/Machine/ExecVec.lean ====
section
/-! DEFINITION. The meanings of vector words and vector memory (majors 0x20 to 0x2C, R201 to R220): how each enters its queue. -/

namespace Sys2Proof.Machine

/-- The bytes of a word's residual item in the open block (R278, R295 to R298). -/
def itemIn (i : Instr) (s : State) (hs : List Handle) : Nat := i.itemSize (frHsave (s.core s.active).openHdr) hs

/-- A word of the vector engine (R203). -/
def issueVq (i : Instr) (h : Hdr) (t : Toks) (srcs : List SReg) (seed : Option SReg) (s : State) : Out :=
  issue perform { op := i, h := h, t := t, qs := [.vq], srcs := srcs, item := itemIn i s, seed := seed } s

/-- A vector load (R215). -/
def issueVld (i : Instr) (h : Hdr) (t : Toks) (srcs : List SReg) (s : State) : Out :=
  issue perform { op := i, h := h, t := t, qs := [.lq], srcs := srcs, near := nearBase, item := itemIn i s } s

/-- A vector store (R215); its base pointer is its first operand. -/
def issueVst (i : Instr) (h : Hdr) (t : Toks) (srcs : List SReg) (seed : Option SReg) (s : State) : Out :=
  issue perform { op := i, h := h, t := t, qs := [.sq], srcs := srcs, near := nearBase, effect := true, item := itemIn i s, seed := seed } s

/-- R108: a handle's tensor lies in the croft store or the lane store. -/
def nearHandle (_ : List Word) (hs : List Handle) : Bool :=
  let i := ptrIndex (shPtr (hs.getD 0 .unbound).shape)
  i == 0xFFF0 || i == 0xFFF3

/-- R278: the seed register of a word that rounds stochastically. -/
def seedReg (r : Rnd) : Option SReg := if r.rm = .sr then some r.seed else none

-- ### Major 0x20 to 0x2A

def execVadd (h : Hdr) (t : Toks) (o : VOpt) (d a b : VReg) (s : State) : Out :=
  issueVq (.vadd h t o d a b) h t [] none s
def execVsub (h : Hdr) (t : Toks) (o : VOpt) (d a b : VReg) (s : State) : Out :=
  issueVq (.vsub h t o d a b) h t [] none s
def execVmul (h : Hdr) (t : Toks) (o : VOpt) (d a b : VReg) (s : State) : Out :=
  issueVq (.vmul h t o d a b) h t [] none s
def execVmad (h : Hdr) (t : Toks) (o : VOpt) (d a b : VReg) (s : State) : Out :=
  issueVq (.vmad h t o d a b) h t [] none s
def execVmin (h : Hdr) (t : Toks) (o : VOpt) (d a b : VReg) (s : State) : Out :=
  issueVq (.vmin h t o d a b) h t [] none s
def execVmax (h : Hdr) (t : Toks) (o : VOpt) (d a b : VReg) (s : State) : Out :=
  issueVq (.vmax h t o d a b) h t [] none s
def execVabs (h : Hdr) (t : Toks) (o : VOpt) (d a : VReg) (s : State) : Out :=
  issueVq (.vabs h t o d a) h t [] none s
def execVneg (h : Hdr) (t : Toks) (o : VOpt) (d a : VReg) (s : State) : Out :=
  issueVq (.vneg h t o d a) h t [] none s
def execVrelu (h : Hdr) (t : Toks) (o : VOpt) (d a : VReg) (s : State) : Out :=
  issueVq (.vrelu h t o d a) h t [] none s
def execVexp2 (h : Hdr) (t : Toks) (o : VOpt) (d a : VReg) (s : State) : Out :=
  issueVq (.vexp2 h t o d a) h t [] none s
def execVlog2 (h : Hdr) (t : Toks) (o : VOpt) (d a : VReg) (s : State) : Out :=
  issueVq (.vlog2 h t o d a) h t [] none s
def execVrcp (h : Hdr) (t : Toks) (o : VOpt) (d a : VReg) (s : State) : Out :=
  issueVq (.vrcp h t o d a) h t [] none s
def execVrsq (h : Hdr) (t : Toks) (o : VOpt) (d a : VReg) (s : State) : Out :=
  issueVq (.vrsq h t o d a) h t [] none s
def execVtanh (h : Hdr) (t : Toks) (o : VOpt) (d a : VReg) (s : State) : Out :=
  issueVq (.vtanh h t o d a) h t [] none s
def execVand (h : Hdr) (t : Toks) (o : VOpt) (d a b : VReg) (s : State) : Out :=
  issueVq (.vand h t o d a b) h t [] none s
def execVor (h : Hdr) (t : Toks) (o : VOpt) (d a b : VReg) (s : State) : Out :=
  issueVq (.vor h t o d a b) h t [] none s
def execVxor (h : Hdr) (t : Toks) (o : VOpt) (d a b : VReg) (s : State) : Out :=
  issueVq (.vxor h t o d a b) h t [] none s
def execVnot (h : Hdr) (t : Toks) (o : VOpt) (d a : VReg) (s : State) : Out :=
  issueVq (.vnot h t o d a) h t [] none s
def execVshl (h : Hdr) (t : Toks) (o : VOpt) (d a : VReg) (n : ShCnt) (s : State) : Out :=
  issueVq (.vshl h t o d a n) h t [] none s
def execVshr (h : Hdr) (t : Toks) (o : VOpt) (d a : VReg) (n : ShCnt) (s : State) : Out :=
  issueVq (.vshr h t o d a n) h t [] none s
def execVsra (h : Hdr) (t : Toks) (o : VOpt) (d a : VReg) (n : ShCnt) (s : State) : Out :=
  issueVq (.vsra h t o d a n) h t [] none s
def execVcmp (h : Hdr) (t : Toks) (o : VOpt) (cc : VCond) (d : MReg) (a b : VReg) (s : State) : Out :=
  issueVq (.vcmp h t o cc d a b) h t [] none s
def execVsel (h : Hdr) (t : Toks) (o : VOpt) (d a b : VReg) (c : MReg) (s : State) : Out :=
  issueVq (.vsel h t o d a b c) h t [] none s
def execMand (h : Hdr) (t : Toks) (d a b : MReg) (s : State) : Out :=
  issueVq (.mand h t d a b) h t [] none s
def execMor (h : Hdr) (t : Toks) (d a b : MReg) (s : State) : Out :=
  issueVq (.mor h t d a b) h t [] none s
def execMnot (h : Hdr) (t : Toks) (d a : MReg) (s : State) : Out :=
  issueVq (.mnot h t d a) h t [] none s
def execMpopc (h : Hdr) (t : Toks) (o : VOpt) (d : VReg) (a : MReg) (s : State) : Out :=
  issueVq (.mpopc h t o d a) h t [] none s
def execVadds (h : Hdr) (t : Toks) (o : VOpt) (d a b : VReg) (s : State) : Out :=
  issueVq (.vadds h t o d a b) h t [] none s
def execVsubs (h : Hdr) (t : Toks) (o : VOpt) (d a b : VReg) (s : State) : Out :=
  issueVq (.vsubs h t o d a b) h t [] none s
def execVmulh (h : Hdr) (t : Toks) (o : VOpt) (d a b : VReg) (s : State) : Out :=
  issueVq (.vmulh h t o d a b) h t [] none s
def execVavg (h : Hdr) (t : Toks) (o : VOpt) (d a b : VReg) (s : State) : Out :=
  issueVq (.vavg h t o d a b) h t [] none s
def execVsad (h : Hdr) (t : Toks) (o : VOpt) (d a b : VReg) (s : State) : Out :=
  issueVq (.vsad h t o d a b) h t [] none s
def execVpack (h : Hdr) (t : Toks) (o : VOpt) (df : BitVec 8) (rnd : Rnd) (d a b : VReg) (s : State) : Out :=
  issueVq (.vpack h t o df rnd d a b) h t rnd.srcs none s
def execVunpk (h : Hdr) (t : Toks) (o : VOpt) (sf : BitVec 8) (half : Bool) (rnd : Rnd) (d a : VReg) (s : State) : Out :=
  issueVq (.vunpk h t o sf half rnd d a) h t rnd.srcs none s
def execPixUnpk (h : Hdr) (t : Toks) (o : VOpt) (pf : BitVec 8) (off : BitVec 11) (d a : VReg) (s : State) : Out :=
  issueVq (.pixUnpk h t o pf off d a) h t [] none s
def execPixPack (h : Hdr) (t : Toks) (o : VOpt) (pf : BitVec 8) (d a : VReg) (s : State) : Out :=
  issueVq (.pixPack h t o pf d a) h t [] none s
def execVbfx (h : Hdr) (t : Toks) (o : VOpt) (sx : Bool) (d a b : VReg) (s : State) : Out :=
  issueVq (.vbfx h t o sx d a b) h t [] none s
def execVbfi (h : Hdr) (t : Toks) (o : VOpt) (d a b : VReg) (s : State) : Out :=
  issueVq (.vbfi h t o d a b) h t [] none s
def execVfshR (h : Hdr) (t : Toks) (o : VOpt) (d a b : VReg) (n : ShCnt) (s : State) : Out :=
  issueVq (.vfshR h t o d a b n) h t [] none s
def execVfshL (h : Hdr) (t : Toks) (o : VOpt) (d a b : VReg) (n : ShCnt) (s : State) : Out :=
  issueVq (.vfshL h t o d a b n) h t [] none s
def execVclz (h : Hdr) (t : Toks) (o : VOpt) (d a : VReg) (s : State) : Out :=
  issueVq (.vclz h t o d a) h t [] none s
def execVpopc (h : Hdr) (t : Toks) (o : VOpt) (d a : VReg) (s : State) : Out :=
  issueVq (.vpopc h t o d a) h t [] none s
def execVlut (h : Hdr) (t : Toks) (o : VOpt) (d a : VReg) (b : SReg) (s : State) : Out :=
  issueVq (.vlut h t o d a b) h t [b] none s
def execVcvt (h : Hdr) (t : Toks) (o : VOpt) (df sf : BitVec 8) (rnd : Rnd) (d a : VReg) (s : State) : Out :=
  issueVq (.vcvt h t o df sf rnd d a) h t [] (seedReg rnd) s
def execVred (h : Hdr) (t : Toks) (o : VOpt) (op : RedOp) (d a : VReg) (s : State) : Out :=
  issueVq (.vred h t o op d a) h t [] none s
def execVscan (h : Hdr) (t : Toks) (o : VOpt) (op : RedOp) (d a : VReg) (s : State) : Out :=
  issueVq (.vscan h t o op d a) h t [] none s
def execVperm (h : Hdr) (t : Toks) (o : VOpt) (d a b : VReg) (s : State) : Out :=
  issueVq (.vperm h t o d a b) h t [] none s
def execVshuf (h : Hdr) (t : Toks) (o : VOpt) (pat : BitVec 3) (k : BitVec 16) (d a b : VReg) (s : State) : Out :=
  issueVq (.vshuf h t o pat k d a b) h t [] none s
def execVbcast (h : Hdr) (t : Toks) (o : VOpt) (d : VReg) (a : SReg) (s : State) : Out :=
  issueVq (.vbcast h t o d a) h t [a] none s
def execVbcastE (h : Hdr) (t : Toks) (o : VOpt) (d a : VReg) (k : BitVec 16) (s : State) : Out :=
  issueVq (.vbcastE h t o d a k) h t [] none s
def execVidx (h : Hdr) (t : Toks) (o : VOpt) (d : VReg) (a : SReg) (s : State) : Out :=
  issueVq (.vidx h t o d a) h t [a] none s
def execVmov (h : Hdr) (t : Toks) (o : VOpt) (d a : VReg) (s : State) : Out :=
  issueVq (.vmov h t o d a) h t [] none s
def execTrd (h : Hdr) (t : Toks) (o : VOpt) (d : VReg) (a : AReg) (b : SReg) (k : BitVec 7) (s : State) : Out :=
  issueVq (.trd h t o d a b k) h t [b] none s
def execTwr (h : Hdr) (t : Toks) (o : VOpt) (d : AReg) (a : VReg) (b : SReg) (k : BitVec 7) (s : State) : Out :=
  issueVq (.twr h t o d a b k) h t [b] none s

-- ### Major 0x2C

def execVld (h : Hdr) (t : Toks) (o : VOpt) (d : VReg) (a b : SReg) (disp : BitVec 16) (s : State) : Out :=
  issueVld (.vld h t o d a b disp) h t [a, b] s
def execVlds (h : Hdr) (t : Toks) (o : VOpt) (d : VReg) (a b : SReg) (disp : BitVec 16) (s : State) : Out :=
  issueVld (.vlds h t o d a b disp) h t [a, b] s
def execVgath (h : Hdr) (t : Toks) (o : VOpt) (d : VReg) (a : SReg) (b : VReg) (disp : BitVec 16) (s : State) : Out :=
  issueVld (.vgath h t o d a b disp) h t [a] s
def execVst (h : Hdr) (t : Toks) (o : VOpt) (d : VReg) (a b : SReg) (disp : BitVec 16) (s : State) : Out :=
  issueVst (.vst h t o d a b disp) h t [a, b] none s
def execVsts (h : Hdr) (t : Toks) (o : VOpt) (d : VReg) (a b : SReg) (disp : BitVec 16) (s : State) : Out :=
  issueVst (.vsts h t o d a b disp) h t [a, b] none s
def execVscat (h : Hdr) (t : Toks) (o : VOpt) (d : VReg) (a : SReg) (b : VReg) (disp : BitVec 16) (s : State) : Out :=
  issueVst (.vscat h t o d a b disp) h t [a] none s
def execVstSrPtr (h : Hdr) (t : Toks) (o : VOpt) (df : BitVec 8) (seed : SReg) (c : VReg) (a b : SReg) (disp : BitVec 16) (s : State) : Out :=
  issueVst (.vstSrPtr h t o df seed c a b disp) h t [a, b] (some seed) s
def execVstSrHdl (h : Hdr) (t : Toks) (o : VOpt) (seed : SReg) (c : VReg) (a : HReg) (b : SReg) (s : State) : Out :=
  issue perform { op := (.vstSrHdl h t o seed c a b), h := h, t := t, qs := [.sq], srcs := [b], hnds := [a], near := nearHandle, effect := true,
                  pre := srHandlePre, item := itemIn (.vstSrHdl h t o seed c a b) s, seed := some seed } s
def execVstAcc (h : Hdr) (t : Toks) (o : VOpt) (df : BitVec 8) (c : VReg) (a b : SReg) (disp : BitVec 16) (s : State) : Out :=
  issueVst (.vstAcc h t o df c a b disp) h t [a, b] none s

end Sys2Proof.Machine
end

