-- ==== Sys2Proof/Machine/ExecCopy.lean ====
section
/-! DEFINITION. The meanings of handle words, copies and the gleaner (major 0x34, R250 to R258), of the words of differentiable blocks and
residual stacks that enter a queue (R286 to R290, R299), of launches (R265, R268) and of channel words (R269, R270): how each enters its
queue. -/

namespace Sys2Proof.Machine

-- ### Handles (R251)

def execHdlSet (h : Hdr) (t : Toks) (d : HReg) (a : SReg) (s : State) : Out :=
  issue perform { op := (.hdlSet h t d a), h := h, t := t, qs := [.cq], srcs := [a], hdst := [d], noBlock := true } s
def execHdlInv (h : Hdr) (t : Toks) (d : HReg) (s : State) : Out :=
  issue perform { op := (.hdlInv h t d), h := h, t := t, qs := [.cq], hnds := [d], hdst := [d], noBlock := true } s

-- ### Copies and the gleaner (R252 to R258)

def execCp (h : Hdr) (t : Toks) (d a : HReg) (rnd : Rnd) (dscale : BitVec 8) (gen : Bool) (xr : SReg) (s : State) : Out :=
  issue perform { op := (.cp h t d a rnd dscale gen xr), h := h, t := t, qs := [.cq], srcs := genSrcs gen xr ++ rnd.srcs, hnds := [d, a], effect := true,
                  pre := pairPre cpShape (fun _ _ _ => pure ()), item := itemIn (.cp h t d a rnd dscale gen xr) s } s
def execCpAcc (h : Hdr) (t : Toks) (d a : HReg) (gen : Bool) (xr : SReg) (s : State) : Out :=
  issue perform { op := (.cpAcc h t d a gen xr), h := h, t := t, qs := [.cq], srcs := genSrcs gen xr, hnds := [d, a], effect := true,
                  pre := pairPre cpAccShape (fun _ _ _ => pure ()) } s
def execCpDec (h : Hdr) (t : Toks) (d a : HReg) (gen : Bool) (xr : SReg) (s : State) : Out :=
  issue perform { op := (.cpDec h t d a gen xr), h := h, t := t, qs := [.cq], srcs := genSrcs gen xr, hnds := [d, a], effect := true,
                  pre := pairPre cpDecShape (fun c _ r => needCompr c r) } s
def execCpCmp (h : Hdr) (t : Toks) (d a : HReg) (rnd : Rnd) (op : BitVec 3) (gen : Bool) (xr : SReg) (s : State) : Out :=
  issue perform { op := (.cpCmp h t d a rnd op gen xr), h := h, t := t, qs := [.cq], srcs := genSrcs gen xr ++ rnd.srcs, hnds := [d, a], effect := true,
                  pre := pairPre cpCmpShape (fun c d _ => needCompr c d) } s
def execCpPf (h : Hdr) (t : Toks) (a : HReg) (s : State) : Out :=
  issue perform { op := (.cpPf h t a), h := h, t := t, qs := [.cq], hnds := [a], pre := fun _ _ hs => goodHandles hs } s
def execGlean (h : Hdr) (t : Toks) (d a : HReg) (rnd : Rnd) (op : BitVec 3) (s : State) : Out :=
  issue perform { op := (.glean h t d a rnd op), h := h, t := t, qs := [.cq], srcs := rnd.srcs, hnds := [d, a], effect := true, pre := gleanPre op.toNat } s

-- ### Blocks and stacks (R286 to R290, R299)

def execGradZeroV (h : Hdr) (t : Toks) (msk : BitVec 16) (s : State) : Out :=
  issue perform { op := (.gradZeroV h t msk), h := h, t := t, qs := [.vq] } s
def execGradZeroAcc (h : Hdr) (t : Toks) (msk : BitVec 4) (s : State) : Out :=
  issue perform { op := (.gradZeroAcc h t msk), h := h, t := t, qs := [.mq] } s
def execGradZeroH (h : Hdr) (t : Toks) (d : HReg) (s : State) : Out :=
  issue perform { op := (.gradZeroH h t d), h := h, t := t, qs := [.cq], hnds := [d], effect := true, pre := zeroPre } s
def execRsBind (h : Hdr) (t : Toks) (a : SReg) (s : State) : Out :=
  issue perform { op := (.rsBind h t a), h := h, t := t, qs := [.lq, .sq], barrier := true, srcs := [a], noBlock := true } s
def execRsPush (h : Hdr) (t : Toks) (a : HReg) (s : State) : Out :=
  issue perform { op := (.rsPush h t a), h := h, t := t, qs := [.cq], hnds := [a], noBlock := true, pre := rsPushPre, place := some pushPlace } s
def execRsPop (h : Hdr) (t : Toks) (d : HReg) (s : State) : Out :=
  issue perform { op := (.rsPop h t d), h := h, t := t, qs := [.cq], hnds := [d], noBlock := true, pre := rsPopPre, place := some popPlace } s
def execRsSpill (h : Hdr) (t : Toks) (s : State) : Out :=
  issue perform { op := (.rsSpill h t), h := h, t := t, qs := [.cq], noBlock := true, pre := rsSpillPre } s

-- ### Launches (R265, R268)

def execLaunch (h : Hdr) (t : Toks) (a : SReg) (s : State) : Out :=
  issue perform { op := (.launch h t a), h := h, t := t, qs := [.lq, .sq], barrier := true, srcs := [a], releases := true, effect := true } s
def execTlRead (h : Hdr) (t : Toks) (a b : SReg) (s : State) : Out :=
  issue perform { op := (.tlRead h t a b), h := h, t := t, qs := [.cq], srcs := [a, b], effect := true, pre := tlReadPre } s

-- ### Channels (R269, R270)

def execChSend (h : Hdr) (t : Toks) (ch : CReg) (a : HReg) (s : State) : Out :=
  issue perform { op := (.chSend h t ch a), h := h, t := t, qs := [.cq], hnds := [a], effect := true, pre := chanPre ch 0 false true } s
def execChRecv (h : Hdr) (t : Toks) (d : HReg) (ch : CReg) (lim : BitVec 6) (s : State) : Out :=
  issue perform { op := (.chRecv h t d ch lim), h := h, t := t, qs := [.cq], hnds := [d], effect := true, pre := chanPre ch 1 true false } s
def execChPut (h : Hdr) (t : Toks) (ch : CReg) (a : HReg) (r : SReg) (gen : Bool) (xr : SReg) (s : State) : Out :=
  issue perform { op := (.chPut h t ch a r gen xr), h := h, t := t, qs := [.cq], srcs := genSrcs gen xr ++ [r], hnds := [a], effect := true, pre := chanPre ch 2 false true } s
def execChMcast (h : Hdr) (t : Toks) (ch : CReg) (a : HReg) (r : SReg) (gen : Bool) (xr : SReg) (s : State) : Out :=
  issue perform { op := (.chMcast h t ch a r gen xr), h := h, t := t, qs := [.cq], srcs := genSrcs gen xr ++ [r], hnds := [a], effect := true, pre := chanPre ch 5 false true } s
def execChGet (h : Hdr) (t : Toks) (d : HReg) (ch : CReg) (r : SReg) (gen : Bool) (xr : SReg) (s : State) : Out :=
  issue perform { op := (.chGet h t d ch r gen xr), h := h, t := t, qs := [.cq], srcs := genSrcs gen xr ++ [r], hnds := [d], effect := true, pre := chanPre ch 3 true false } s
def execSioRead (h : Hdr) (t : Toks) (d : HReg) (ch : CReg) (r : SReg) (gen : Bool) (xr : SReg) (s : State) : Out :=
  issue perform { op := (.sioRead h t d ch r gen xr), h := h, t := t, qs := [.cq], srcs := genSrcs gen xr ++ [r], hnds := [d], effect := true, pre := sioPre ch } s
def execChAmo (h : Hdr) (t : Toks) (d : SReg) (ch : CReg) (p v : SReg) (op : BitVec 3) (sz : BitVec 1) (s : State) : Out :=
  issue perform { op := (.chAmo h t d ch p v op sz), h := h, t := t, qs := [.cq], srcs := [p, v, d], dst := [d], effect := true, pre := fun c _ _ => slotPre c ch 4 } s

end Sys2Proof.Machine
end

