-- ==== Sys2Proof/Machine/ExecLoom.lean ====
section
/-! DEFINITION. The meanings of loom words (major 0x30, R222 to R243): how each enters MQ. -/

namespace Sys2Proof.Machine

/-- A word of the loom (R222). `effect`: it writes memory (R300). -/
def issueMq (i : Instr) (h : Hdr) (t : Toks) (srcs : List SReg) (hnds : List HReg) (effect : Bool) (s : State) : Out :=
  issue perform { op := i, h := h, t := t, qs := [.mq], srcs := srcs, hnds := hnds, effect := effect } s

/-- R298: an operand that a block saves has a width that is a multiple of 8 and lies in an untagged buffer. -/
def saveOk (c : Nat) (x : Handle) : M Unit := do
  let r := x.shape
  check (isPlane (shFmt r) || fmtWidth (shFmt r) % 8 == 0) .hdlbad 0
  if isGlobal (shPtr r) then
    match ← tryM (bufEntry c (ptrIndex (shPtr r))) with
    | .ok b => check (!bufTagged b) .hdlbad 0
    | .error .wait => throw .wait
    | .error _ => pure ()

/-- R298: the checks of `MM.RUN` at issue: those on the operands that the open block saves. A handle that is bad is found at the start. -/
def savePre (a b : HReg) : Nat → List Word → List Handle → M Unit := fun c _ hs => do
  let k ← getCore c
  let hsave := frHsave k.openHdr
  if k.inBlock && hs.all Handle.good then
    if savesH hsave a then saveOk c (hs.getD 0 .unbound)
    if savesH hsave b then saveOk c (hs.getD 1 .unbound)

def execNestClr (h : Hdr) (t : Toks) (sl : LReg) (s : State) : Out :=
  issueMq (.nestClr h t sl) h t [] [] false s
def execNestLvl (h : Hdr) (t : Toks) (sl : LReg) (lvl : BitVec 3) (extm1 : BitVec 24) (sa sb : BitVec 14) (s : State) : Out :=
  issueMq (.nestLvl h t sl lvl extm1 sa sb) h t [] [] false s
def execNestOpt (h : Hdr) (t : Toks) (sl : LReg) (seed : SReg) (n : NestOpt) (s : State) : Out :=
  issueMq (.nestOpt h t sl seed n) h t [seed] [] false s
def execNestAcc (h : Hdr) (t : Toks) (sl : LReg) (d : AReg) (rorg : BitVec 7) (corg : BitVec 6) (s : State) : Out :=
  issueMq (.nestAcc h t sl d rorg corg) h t [] [] false s
def execMmRun (h : Hdr) (t : Toks) (sl : LReg) (a b : HReg) (s : State) : Out :=
  issue perform { op := (.mmRun h t sl a b), h := h, t := t, qs := [.mq], hnds := [a, b], pre := savePre a b, item := itemIn (.mmRun h t sl a b) s } s
def execMmBatch (h : Hdr) (t : Toks) (sl : LReg) (a b : HReg) (s : State) : Out :=
  issueMq (.mmBatch h t sl a b) h t [] [a, b] false s
def execAccInit (h : Hdr) (t : Toks) (d : AReg) (b : SReg) (s : State) : Out :=
  issueMq (.accInit h t d b) h t [b] [] false s
def execAccFlush (h : Hdr) (t : Toks) (d : AReg) (s : State) : Out :=
  issueMq (.accFlush h t d) h t [] [] false s
def execAccRd (h : Hdr) (t : Toks) (d : HReg) (a : AReg) (rnd : Rnd) (roff : BitVec 7) (coff : BitVec 6) (s : State) : Out :=
  issueMq (.accRd h t d a rnd roff coff) h t rnd.srcs [d] true s
def execAccWr (h : Hdr) (t : Toks) (d : AReg) (a : HReg) (roff : BitVec 7) (coff : BitVec 6) (s : State) : Out :=
  issueMq (.accWr h t d a roff coff) h t [] [a] false s
def execAccWrAdd (h : Hdr) (t : Toks) (d : AReg) (a : HReg) (roff : BitVec 7) (coff : BitVec 6) (s : State) : Out :=
  issueMq (.accWrAdd h t d a roff coff) h t [] [a] false s
def execPlanePack (h : Hdr) (t : Toks) (d a : HReg) (rnd : Rnd) (s : State) : Out :=
  issueMq (.planePack h t d a rnd) h t rnd.srcs [d, a] true s
def execPlaneUnpk (h : Hdr) (t : Toks) (d a : HReg) (rnd : Rnd) (s : State) : Out :=
  issueMq (.planeUnpk h t d a rnd) h t rnd.srcs [d, a] true s

end Sys2Proof.Machine
end

