-- ==== Sys2Proof/Machine/ExecMem.lean ====
section
/-! DEFINITION. The meanings of scalar memory words and atomics (majors 0x14 and 0x18, R186 to R196): how each is issued. -/

namespace Sys2Proof.Machine

-- ### Loads and stores (R188, R189)

def execLdB (h : Hdr) (d : SReg) (mem : MemOp) (s : State) : Out :=
  issueLd perform (.ldB h d mem) h 1 d mem s
def execLdH (h : Hdr) (d : SReg) (mem : MemOp) (s : State) : Out :=
  issueLd perform (.ldH h d mem) h 2 d mem s
def execLdW (h : Hdr) (d : SReg) (mem : MemOp) (s : State) : Out :=
  issueLd perform (.ldW h d mem) h 4 d mem s
def execLdD (h : Hdr) (d : SReg) (mem : MemOp) (s : State) : Out :=
  issueLd perform (.ldD h d mem) h 8 d mem s
def execLdQ (h : Hdr) (d : SReg) (mem : MemOp) (s : State) : Out :=
  issueLd perform (.ldQ h d mem) h 16 d mem s
def execLdsB (h : Hdr) (d : SReg) (mem : MemOp) (s : State) : Out :=
  issueLd perform (.ldsB h d mem) h 1 d mem s
def execLdsH (h : Hdr) (d : SReg) (mem : MemOp) (s : State) : Out :=
  issueLd perform (.ldsH h d mem) h 2 d mem s
def execLdsW (h : Hdr) (d : SReg) (mem : MemOp) (s : State) : Out :=
  issueLd perform (.ldsW h d mem) h 4 d mem s
def execStB (h : Hdr) (c : SReg) (mem : MemOp) (s : State) : Out :=
  issueSt perform (.stB h c mem) h 1 c mem s
def execStH (h : Hdr) (c : SReg) (mem : MemOp) (s : State) : Out :=
  issueSt perform (.stH h c mem) h 2 c mem s
def execStW (h : Hdr) (c : SReg) (mem : MemOp) (s : State) : Out :=
  issueSt perform (.stW h c mem) h 4 c mem s
def execStD (h : Hdr) (c : SReg) (mem : MemOp) (s : State) : Out :=
  issueSt perform (.stD h c mem) h 8 c mem s
def execStQ (h : Hdr) (c : SReg) (mem : MemOp) (s : State) : Out :=
  issueSt perform (.stQ h c mem) h 16 c mem s

-- ### Acquiring loads and releasing stores (R190)

def execLdAcqB (h : Hdr) (d : SReg) (mem : MemOp) (sc : BitVec 2) (s : State) : Out :=
  issueLdAcq perform (.ldAcqB h d mem sc) h 1 d mem s
def execLdAcqH (h : Hdr) (d : SReg) (mem : MemOp) (sc : BitVec 2) (s : State) : Out :=
  issueLdAcq perform (.ldAcqH h d mem sc) h 2 d mem s
def execLdAcqW (h : Hdr) (d : SReg) (mem : MemOp) (sc : BitVec 2) (s : State) : Out :=
  issueLdAcq perform (.ldAcqW h d mem sc) h 4 d mem s
def execLdAcqD (h : Hdr) (d : SReg) (mem : MemOp) (sc : BitVec 2) (s : State) : Out :=
  issueLdAcq perform (.ldAcqD h d mem sc) h 8 d mem s
def execLdAcqQ (h : Hdr) (d : SReg) (mem : MemOp) (sc : BitVec 2) (s : State) : Out :=
  issueLdAcq perform (.ldAcqQ h d mem sc) h 16 d mem s
def execStRelB (h : Hdr) (c : SReg) (mem : MemOp) (sc : BitVec 2) (s : State) : Out :=
  issueStRel perform (.stRelB h c mem sc) h 1 c mem s
def execStRelH (h : Hdr) (c : SReg) (mem : MemOp) (sc : BitVec 2) (s : State) : Out :=
  issueStRel perform (.stRelH h c mem sc) h 2 c mem s
def execStRelW (h : Hdr) (c : SReg) (mem : MemOp) (sc : BitVec 2) (s : State) : Out :=
  issueStRel perform (.stRelW h c mem sc) h 4 c mem s
def execStRelD (h : Hdr) (c : SReg) (mem : MemOp) (sc : BitVec 2) (s : State) : Out :=
  issueStRel perform (.stRelD h c mem sc) h 8 c mem s
def execStRelQ (h : Hdr) (c : SReg) (mem : MemOp) (sc : BitVec 2) (s : State) : Out :=
  issueStRel perform (.stRelQ h c mem sc) h 16 c mem s

-- ### Prefetches (R192)

def execPfL1 (h : Hdr) (mem : MemOp) (s : State) : Out :=
  issuePf perform (.pfL1 h mem) h mem s
def execPfMsc (h : Hdr) (mem : MemOp) (s : State) : Out :=
  issuePf perform (.pfMsc h mem) h mem s

-- ### Atomics (R193 to R195)

def execAmoAddW (h : Hdr) (d : SReg) (mem : MemOp) (c : SReg) (sc : BitVec 2) (s : State) : Out :=
  issueAmo perform (.amoAddW h d mem c sc) h 4 false d mem c s
def execAmoAddD (h : Hdr) (d : SReg) (mem : MemOp) (c : SReg) (sc : BitVec 2) (s : State) : Out :=
  issueAmo perform (.amoAddD h d mem c sc) h 8 false d mem c s
def execAmoAndW (h : Hdr) (d : SReg) (mem : MemOp) (c : SReg) (sc : BitVec 2) (s : State) : Out :=
  issueAmo perform (.amoAndW h d mem c sc) h 4 false d mem c s
def execAmoAndD (h : Hdr) (d : SReg) (mem : MemOp) (c : SReg) (sc : BitVec 2) (s : State) : Out :=
  issueAmo perform (.amoAndD h d mem c sc) h 8 false d mem c s
def execAmoOrW (h : Hdr) (d : SReg) (mem : MemOp) (c : SReg) (sc : BitVec 2) (s : State) : Out :=
  issueAmo perform (.amoOrW h d mem c sc) h 4 false d mem c s
def execAmoOrD (h : Hdr) (d : SReg) (mem : MemOp) (c : SReg) (sc : BitVec 2) (s : State) : Out :=
  issueAmo perform (.amoOrD h d mem c sc) h 8 false d mem c s
def execAmoXorW (h : Hdr) (d : SReg) (mem : MemOp) (c : SReg) (sc : BitVec 2) (s : State) : Out :=
  issueAmo perform (.amoXorW h d mem c sc) h 4 false d mem c s
def execAmoXorD (h : Hdr) (d : SReg) (mem : MemOp) (c : SReg) (sc : BitVec 2) (s : State) : Out :=
  issueAmo perform (.amoXorD h d mem c sc) h 8 false d mem c s
def execAmoMinW (h : Hdr) (d : SReg) (mem : MemOp) (c : SReg) (sc : BitVec 2) (s : State) : Out :=
  issueAmo perform (.amoMinW h d mem c sc) h 4 false d mem c s
def execAmoMinD (h : Hdr) (d : SReg) (mem : MemOp) (c : SReg) (sc : BitVec 2) (s : State) : Out :=
  issueAmo perform (.amoMinD h d mem c sc) h 8 false d mem c s
def execAmoMaxW (h : Hdr) (d : SReg) (mem : MemOp) (c : SReg) (sc : BitVec 2) (s : State) : Out :=
  issueAmo perform (.amoMaxW h d mem c sc) h 4 false d mem c s
def execAmoMaxD (h : Hdr) (d : SReg) (mem : MemOp) (c : SReg) (sc : BitVec 2) (s : State) : Out :=
  issueAmo perform (.amoMaxD h d mem c sc) h 8 false d mem c s
def execAmoMinuW (h : Hdr) (d : SReg) (mem : MemOp) (c : SReg) (sc : BitVec 2) (s : State) : Out :=
  issueAmo perform (.amoMinuW h d mem c sc) h 4 false d mem c s
def execAmoMinuD (h : Hdr) (d : SReg) (mem : MemOp) (c : SReg) (sc : BitVec 2) (s : State) : Out :=
  issueAmo perform (.amoMinuD h d mem c sc) h 8 false d mem c s
def execAmoMaxuW (h : Hdr) (d : SReg) (mem : MemOp) (c : SReg) (sc : BitVec 2) (s : State) : Out :=
  issueAmo perform (.amoMaxuW h d mem c sc) h 4 false d mem c s
def execAmoMaxuD (h : Hdr) (d : SReg) (mem : MemOp) (c : SReg) (sc : BitVec 2) (s : State) : Out :=
  issueAmo perform (.amoMaxuD h d mem c sc) h 8 false d mem c s
def execAmoSwapW (h : Hdr) (d : SReg) (mem : MemOp) (c : SReg) (sc : BitVec 2) (s : State) : Out :=
  issueAmo perform (.amoSwapW h d mem c sc) h 4 false d mem c s
def execAmoSwapD (h : Hdr) (d : SReg) (mem : MemOp) (c : SReg) (sc : BitVec 2) (s : State) : Out :=
  issueAmo perform (.amoSwapD h d mem c sc) h 8 false d mem c s
def execAmoCasW (h : Hdr) (d : SReg) (mem : MemOp) (c : SReg) (sc : BitVec 2) (s : State) : Out :=
  issueAmo perform (.amoCasW h d mem c sc) h 4 true d mem c s
def execAmoCasD (h : Hdr) (d : SReg) (mem : MemOp) (c : SReg) (sc : BitVec 2) (s : State) : Out :=
  issueAmo perform (.amoCasD h d mem c sc) h 8 true d mem c s
def execAmoCasQ (h : Hdr) (d : SReg) (mem : MemOp) (c : SReg) (sc : BitVec 2) (s : State) : Out :=
  issueAmo perform (.amoCasQ h d mem c sc) h 16 true d mem c s
def execAmoFaddW (h : Hdr) (d : SReg) (mem : MemOp) (c : SReg) (sc : BitVec 2) (s : State) : Out :=
  issueAmo perform (.amoFaddW h d mem c sc) h 4 false d mem c s

end Sys2Proof.Machine
end

