-- ==== Sys2Proof/Machine/ExecSync.lean ====
section
/-! DEFINITION. The meanings of token words, ordering words, gates and rings (major 0x1C, R109 to R125, R246 to R263). -/

namespace Sys2Proof.Machine

-- ### Tokens (R246)

/-- `TOK.WAIT` enters no queue: with no token register it holds the reeve, otherwise its token is written once the waits are met. -/
def execTokWait (h : Hdr) (t : Toks) (s : State) : Out :=
  if t.td = 0 then reeveUnit h (toksOf t) (fun c => stepOver c h) s
  else
    let k := s.core s.active
    if k.taken h then issue perform { op := (.tokWait h t), h := h, t := t, qs := [] } s
    else if k.isPend t.td then .next s
    else .next (s.setCore s.active ((k.next h).wr t.td wordSkip))
def execTokClr (h : Hdr) (a b c : SReg) (s : State) : Out :=
  reeveUnit h [a, b, c] (fun n => modCore n (fun k => (((k.next h).wr a 0).wr b 0).wr c 0)) s

-- ### Ordering (R109, R115, R116, R122)

/-- A BARRIER word of this major. -/
def issueBarrier (i : Instr) (h : Hdr) (t : Toks) (srcs : List SReg) (releases : Bool) (s : State) : Out :=
  issue perform { op := i, h := h, t := t, qs := [.lq, .sq], barrier := true, srcs := srcs, releases := releases } s

def execMark (h : Hdr) (t : Toks) (s : State) : Out :=
  issueBarrier (.mark h t) h t [] false s
def execFence (h : Hdr) (t : Toks) (sc : BitVec 2) (s : State) : Out :=
  issueBarrier (.fence h t sc) h t [] true s
def execAcq (h : Hdr) (t : Toks) (sc : BitVec 2) (s : State) : Out :=
  issueBarrier (.acq h t sc) h t [] false s
def execRel (h : Hdr) (t : Toks) (sc : BitVec 2) (s : State) : Out :=
  issueBarrier (.rel h t sc) h t [] true s
def execAcqP (h : Hdr) (t : Toks) (a : SReg) (s : State) : Out :=
  issueBarrier (.acqP h t a) h t [a] false s

-- ### Gates and rings (R260, R263)

def execGateInit (h : Hdr) (t : Toks) (g n : SReg) (s : State) : Out :=
  issue perform { op := (.gateInit h t g n), h := h, t := t, qs := [.sq], srcs := [g, n] } s
def execGateArr (h : Hdr) (t : Toks) (g n : SReg) (s : State) : Out :=
  issue perform { op := (.gateArr h t g n), h := h, t := t, qs := [.sq], srcs := [g, n] } s
def execGateWait (h : Hdr) (t : Toks) (g p : SReg) (lim : BitVec 6) (s : State) : Out :=
  issue perform { op := (.gateWait h t g p lim), h := h, t := t, qs := [.sq], srcs := [g, p] } s
def execRpush (h : Hdr) (t : Toks) (r v : SReg) (lim : BitVec 6) (s : State) : Out :=
  issue perform { op := (.rpush h t r v lim), h := h, t := t, qs := [.sq], srcs := [r, v], effect := true } s
def execRpop (h : Hdr) (t : Toks) (d r : SReg) (lim : BitVec 6) (s : State) : Out :=
  issue perform { op := (.rpop h t d r lim), h := h, t := t, qs := [.sq], srcs := [r], dst := [d], effect := true } s

end Sys2Proof.Machine
end

