-- ==== Sys2Proof/Machine/ExecSys.lean ====
section
/-! DEFINITION. The meanings of the privileged words that enter the queues (majors 0x3C and 0x3D, R329 to R336). -/

namespace Sys2Proof.Machine

/-- R329: a BARRIER in both queues that begins with a D-scope release; ILLOP in user mode (R164). `effect`: it writes memory (R300). -/
def issueSys (i : Instr) (h : Hdr) (t : Toks) (srcs dst : List SReg) (effect : Bool) (s : State) : Out :=
  needsPriv s (issue perform { op := i, h := h, t := t, qs := [.lq, .sq], barrier := true, srcs := srcs, dst := dst, releases := true,
                               effect := effect } s)

def execCutSave (h : Hdr) (t : Toks) (a b : SReg) (s : State) : Out :=
  issueSys (.cutSave h t a b) h t [a, b] [] true s
def execCutLoad (h : Hdr) (t : Toks) (a b : SReg) (s : State) : Out :=
  issueSys (.cutLoad h t a b) h t [a, b] [] false s
def execPark (h : Hdr) (t : Toks) (a : SReg) (s : State) : Out :=
  issueSys (.park h t a) h t [a] [] false s
def execWake (h : Hdr) (t : Toks) (a : SReg) (s : State) : Out :=
  issueSys (.wake h t a) h t [a] [] false s
def execProbe (h : Hdr) (t : Toks) (d a : SReg) (pw : Bool) (s : State) : Out :=
  issueSys (.probe h t d a pw) h t [a] [d] false s
def execProbeRes (h : Hdr) (t : Toks) (d a : SReg) (pw : Bool) (s : State) : Out :=
  issueSys (.probeRes h t d a pw) h t [a] [d] false s
def execMmuInv (h : Hdr) (t : Toks) (i b l : SReg) (allas allva : Bool) (s : State) : Out :=
  issueSys (.mmuInv h t i b l allas allva) h t [i, b, l] [] false s
def execMmuSync (h : Hdr) (t : Toks) (s : State) : Out :=
  issueSys (.mmuSync h t) h t [] [] false s
def execMmuWalk (h : Hdr) (t : Toks) (d i v : SReg) (s : State) : Out :=
  issueSys (.mmuWalk h t d i v) h t [i, v] [d] false s
def execKeyLoad (h : Hdr) (t : Toks) (k a : SReg) (s : State) : Out :=
  issueSys (.keyLoad h t k a) h t [k, a] [] false s
def execKeyKill (h : Hdr) (t : Toks) (k : SReg) (s : State) : Out :=
  issueSys (.keyKill h t k) h t [k] [] false s

end Sys2Proof.Machine
end

