-- ==== Sys2Proof/Machine/Scalar.lean ====
section
/-! DEFINITION. The scalar integer words, pointers, comparisons and immediates (majors 0x00, 0x01, 0x08; R168 to R180), one definition for
each. -/

namespace Sys2Proof.Machine

-- ### Results (R170 to R174)

/-- R170: shift counts are taken mod 64. -/
def shiftBy (y : Word) : Nat := y.toNat % 64

def mulHigh (x y : Word) : Word := BitVec.ofInt 64 (x.toInt * y.toInt / 2 ^ 64)
def mulHighU (x y : Word) : Word := BitVec.ofNat 64 (x.toNat * y.toNat / 2 ^ 64)

/-- R171: division truncates (R14) and never traps. -/
def divS (x y : Word) : Word := if y = 0 then BitVec.allOnes 64 else BitVec.ofInt 64 (x.toInt.tdiv y.toInt)
def remS (x y : Word) : Word := if y = 0 then x else BitVec.ofInt 64 (x.toInt.tmod y.toInt)
def divU (x y : Word) : Word := if y = 0 then BitVec.allOnes 64 else BitVec.ofNat 64 (x.toNat / y.toNat)
def remU (x y : Word) : Word := if y = 0 then x else BitVec.ofNat 64 (x.toNat % y.toNat)

def shl64 (x y : Word) : Word := x <<< shiftBy y
def shr64 (x y : Word) : Word := x >>> shiftBy y
def sra64 (x y : Word) : Word := x.sshiftRight (shiftBy y)
def rol64 (x y : Word) : Word := if shiftBy y = 0 then x else (x <<< shiftBy y) ||| (x >>> (64 - shiftBy y))
def ror64 (x y : Word) : Word := if shiftBy y = 0 then x else (x >>> shiftBy y) ||| (x <<< (64 - shiftBy y))

def minS (x y : Word) : Word := if x.sle y then x else y
def maxS (x y : Word) : Word := if x.sle y then y else x
def minU (x y : Word) : Word := if x.ule y then x else y
def maxU (x y : Word) : Word := if x.ule y then y else x

/-- R172. -/
def clz64 (x : Word) : Word := BitVec.ofNat 64 (64 - bitLen x.toNat)
def ctz64 (x : Word) : Word := BitVec.ofNat 64 (((upTo 64).find? (fun i => x.getLsbD i)).getD 64)
def popc64 (x : Word) : Word := BitVec.ofNat 64 (onesBelow x.toNat 64)
def brev64 (x : Word) : Word := BitVec.ofNat 64 (((upTo 64).map (fun i => if x.getLsbD i then 2 ^ (63 - i) else 0)).foldl (· + ·) 0)
def bswap64 (x : Word) : Word := BitVec.ofNat 64 (leNat (natBytes 8 x.toNat).reverse)

/-- R173: the field of `x` at `pos`, of length `lenm1` + 1. -/
def bfx64 (sx : Bool) (x : Word) (pos lenm1 : Nat) : Word :=
  if sx then BitVec.ofInt 64 (sextNat (x.toNat >>> pos) (lenm1 + 1)) else BitVec.ofNat 64 (natBits x.toNat pos (lenm1 + 1))
def bfi64 (x y : Word) (pos lenm1 : Nat) : Word :=
  let m := BitVec.ofNat 64 ((2 ^ (lenm1 + 1) - 1) * 2 ^ pos)
  (x &&& ~~~m) ||| ((y <<< pos) &&& m)

/-- R174: cat(x, y). -/
def cat64 (x y : Word) : BitVec 128 := x ++ y
def fshl64 (x y : Word) (n : Nat) : Word := (cat64 x y <<< n).extractLsb' 64 64
def fshr64 (x y : Word) (n : Nat) : Word := (cat64 x y >>> n).extractLsb' 0 64

-- ### R170, R171

def execAdd (h : Hdr) (d a b : SReg) (s : State) : Out := scalar2 h d a b (fun x y => x + y) s
def execSub (h : Hdr) (d a b : SReg) (s : State) : Out := scalar2 h d a b (fun x y => x - y) s
def execMul (h : Hdr) (d a b : SReg) (s : State) : Out := scalar2 h d a b (fun x y => x * y) s
def execMulh (h : Hdr) (d a b : SReg) (s : State) : Out := scalar2 h d a b mulHigh s
def execMulhu (h : Hdr) (d a b : SReg) (s : State) : Out := scalar2 h d a b mulHighU s
def execDiv (h : Hdr) (d a b : SReg) (s : State) : Out := scalar2 h d a b divS s
def execDivu (h : Hdr) (d a b : SReg) (s : State) : Out := scalar2 h d a b divU s
def execRem (h : Hdr) (d a b : SReg) (s : State) : Out := scalar2 h d a b remS s
def execRemu (h : Hdr) (d a b : SReg) (s : State) : Out := scalar2 h d a b remU s
def execAnd (h : Hdr) (d a b : SReg) (s : State) : Out := scalar2 h d a b (fun x y => x &&& y) s
def execOr (h : Hdr) (d a b : SReg) (s : State) : Out := scalar2 h d a b (fun x y => x ||| y) s
def execXor (h : Hdr) (d a b : SReg) (s : State) : Out := scalar2 h d a b (fun x y => x ^^^ y) s
def execAndn (h : Hdr) (d a b : SReg) (s : State) : Out := scalar2 h d a b (fun x y => x &&& ~~~y) s
def execOrn (h : Hdr) (d a b : SReg) (s : State) : Out := scalar2 h d a b (fun x y => x ||| ~~~y) s
def execShl (h : Hdr) (d a b : SReg) (s : State) : Out := scalar2 h d a b shl64 s
def execShr (h : Hdr) (d a b : SReg) (s : State) : Out := scalar2 h d a b shr64 s
def execSra (h : Hdr) (d a b : SReg) (s : State) : Out := scalar2 h d a b sra64 s
def execRol (h : Hdr) (d a b : SReg) (s : State) : Out := scalar2 h d a b rol64 s
def execRor (h : Hdr) (d a b : SReg) (s : State) : Out := scalar2 h d a b ror64 s
def execMin (h : Hdr) (d a b : SReg) (s : State) : Out := scalar2 h d a b minS s
def execMax (h : Hdr) (d a b : SReg) (s : State) : Out := scalar2 h d a b maxS s
def execMinu (h : Hdr) (d a b : SReg) (s : State) : Out := scalar2 h d a b minU s
def execMaxu (h : Hdr) (d a b : SReg) (s : State) : Out := scalar2 h d a b maxU s

-- ### R172

def execClz (h : Hdr) (d a : SReg) (s : State) : Out := scalar1 h d a clz64 s
def execCtz (h : Hdr) (d a : SReg) (s : State) : Out := scalar1 h d a ctz64 s
def execPopc (h : Hdr) (d a : SReg) (s : State) : Out := scalar1 h d a popc64 s
def execBrev (h : Hdr) (d a : SReg) (s : State) : Out := scalar1 h d a brev64 s
def execBswap (h : Hdr) (d a : SReg) (s : State) : Out := scalar1 h d a bswap64 s
def execMov (h : Hdr) (d a : SReg) (s : State) : Out := scalar1 h d a (fun x => x) s

-- ### R173 to R175

def execBfx (h : Hdr) (d a : SReg) (pos lenm1 : BitVec 6) (s : State) : Out := scalar1 h d a (fun x => bfx64 false x pos.toNat lenm1.toNat) s
def execBfxS (h : Hdr) (d a : SReg) (pos lenm1 : BitVec 6) (s : State) : Out := scalar1 h d a (fun x => bfx64 true x pos.toNat lenm1.toNat) s
def execBfi (h : Hdr) (d a b : SReg) (pos lenm1 : BitVec 6) (s : State) : Out := scalar2 h d a b (fun x y => bfi64 x y pos.toNat lenm1.toNat) s
def execFshl (h : Hdr) (d a b c : SReg) (s : State) : Out :=
  scalarOp h d [a, b, c] (fun k => fshl64 (k.rd a) (k.rd b) (shiftBy (k.rd c))) s
def execFshlImm (h : Hdr) (d a b : SReg) (n : BitVec 6) (s : State) : Out := scalar2 h d a b (fun x y => fshl64 x y n.toNat) s
def execFshr (h : Hdr) (d a b c : SReg) (s : State) : Out :=
  scalarOp h d [a, b, c] (fun k => fshr64 (k.rd a) (k.rd b) (shiftBy (k.rd c))) s
def execFshrImm (h : Hdr) (d a b : SReg) (n : BitVec 6) (s : State) : Out := scalar2 h d a b (fun x y => fshr64 x y n.toNat) s
def execSel (h : Hdr) (d a b : SReg) (c : PReg) (s : State) : Out :=
  scalarOp h d [a, b] (fun k => if k.f.rdP c then k.rd a else k.rd b) s

-- ### Pointers (R178 to R180)

def execLea (h : Hdr) (d : SReg) (m : MemOp) (s : State) : Out := scalar2 h d m.a m.b m.lea s

/-- R179: the offset that `PADD` forms, exact. -/
def paddOff (x y : Word) (imm : BitVec 14) : Int := (ptrOffset x : Int) + y.toInt + imm.toInt

def execPadd (h : Hdr) (d a b : SReg) (imm : BitVec 14) (s : State) : Out :=
  scalarUnit h [d, a, b] (fun _ k =>
    let o := paddOff (k.rd a) (k.rd b) imm
    if o < 0 || 2 ^ 48 ≤ o then .error (.bounds, 0, k.rd a) else .ok ((k.next h).wr d (ptrAt (k.rd a) o.toNat))) s

def execPidx (h : Hdr) (d a : SReg) (s : State) : Out := scalar1 h d a (fun x => BitVec.ofNat 64 (ptrIndex x)) s
def execPidxSet (h : Hdr) (d a b : SReg) (s : State) : Out := scalar2 h d a b (fun x y => mkPtr (y.toNat % 65536) (ptrOffset x)) s

-- ### Comparisons and predicates (R176)

/-- `CMP.cc pD, sA, sB`. -/
def compare (cc : Cond) (h : Hdr) (d : PReg) (a b : SReg) (s : State) : Out := predOp h d [a, b] (fun k => cc.holds (k.rd a) (k.rd b)) s
/-- `CMPI.cc pD, sA, imm`. -/
def compareImm (cc : Cond) (h : Hdr) (d : PReg) (a : SReg) (imm : Word) (s : State) : Out := predOp h d [a] (fun k => cc.holds (k.rd a) imm) s

def execCmpEq (h : Hdr) (d : PReg) (a b : SReg) (s : State) : Out := compare .eq h d a b s
def execCmpNe (h : Hdr) (d : PReg) (a b : SReg) (s : State) : Out := compare .ne h d a b s
def execCmpLt (h : Hdr) (d : PReg) (a b : SReg) (s : State) : Out := compare .lt h d a b s
def execCmpLe (h : Hdr) (d : PReg) (a b : SReg) (s : State) : Out := compare .le h d a b s
def execCmpLtu (h : Hdr) (d : PReg) (a b : SReg) (s : State) : Out := compare .ltu h d a b s
def execCmpLeu (h : Hdr) (d : PReg) (a b : SReg) (s : State) : Out := compare .leu h d a b s
def execPand (h : Hdr) (d a b : PReg) (s : State) : Out := predOp h d [] (fun k => k.f.rdP a && k.f.rdP b) s
def execPor (h : Hdr) (d a b : PReg) (s : State) : Out := predOp h d [] (fun k => k.f.rdP a || k.f.rdP b) s
def execPnot (h : Hdr) (d a : PReg) (s : State) : Out := predOp h d [] (fun k => !k.f.rdP a) s

-- ### Immediates (R177)

def execLdi (h : Hdr) (d : SReg) (imm : Word) (s : State) : Out := scalarOp h d [] (fun _ => imm) s
def execAddi (h : Hdr) (d a : SReg) (imm : Word) (s : State) : Out := scalar1 h d a (fun x => x + imm) s
def execAndi (h : Hdr) (d a : SReg) (imm : Word) (s : State) : Out := scalar1 h d a (fun x => x &&& imm) s
def execOri (h : Hdr) (d a : SReg) (imm : Word) (s : State) : Out := scalar1 h d a (fun x => x ||| imm) s
def execXori (h : Hdr) (d a : SReg) (imm : Word) (s : State) : Out := scalar1 h d a (fun x => x ^^^ imm) s
def execShli (h : Hdr) (d a : SReg) (n : BitVec 6) (s : State) : Out := scalar1 h d a (fun x => x <<< n.toNat) s
def execShri (h : Hdr) (d a : SReg) (n : BitVec 6) (s : State) : Out := scalar1 h d a (fun x => x >>> n.toNat) s
def execSrai (h : Hdr) (d a : SReg) (n : BitVec 6) (s : State) : Out := scalar1 h d a (fun x => x.sshiftRight n.toNat) s
def execCmpiEq (h : Hdr) (d : PReg) (a : SReg) (imm : Word) (s : State) : Out := compareImm .eq h d a imm s
def execCmpiNe (h : Hdr) (d : PReg) (a : SReg) (imm : Word) (s : State) : Out := compareImm .ne h d a imm s
def execCmpiLt (h : Hdr) (d : PReg) (a : SReg) (imm : Word) (s : State) : Out := compareImm .lt h d a imm s
def execCmpiLe (h : Hdr) (d : PReg) (a : SReg) (imm : Word) (s : State) : Out := compareImm .le h d a imm s
def execCmpiLtu (h : Hdr) (d : PReg) (a : SReg) (imm : Word) (s : State) : Out := compareImm .ltu h d a imm s
def execCmpiLeu (h : Hdr) (d : PReg) (a : SReg) (imm : Word) (s : State) : Out := compareImm .leu h d a imm s

end Sys2Proof.Machine
end

