-- ==== Sys2Proof/Machine/Dispatch.lean ====
section
/-! DEFINITION. The dispatch of every row of the opcode table to its meaning: one arm per constructor of `Instr`. -/

namespace Sys2Proof.Machine

def exec (i : Instr) (s : State) : Host.Outcome State Fault Refusal :=
  match i with
  | .add h d a b => Sys2Proof.Machine.execAdd h d a b s
  | .sub h d a b => Sys2Proof.Machine.execSub h d a b s
  | .mul h d a b => Sys2Proof.Machine.execMul h d a b s
  | .mulh h d a b => Sys2Proof.Machine.execMulh h d a b s
  | .mulhu h d a b => Sys2Proof.Machine.execMulhu h d a b s
  | .div h d a b => Sys2Proof.Machine.execDiv h d a b s
  | .divu h d a b => Sys2Proof.Machine.execDivu h d a b s
  | .rem h d a b => Sys2Proof.Machine.execRem h d a b s
  | .remu h d a b => Sys2Proof.Machine.execRemu h d a b s
  | .and h d a b => Sys2Proof.Machine.execAnd h d a b s
  | .or h d a b => Sys2Proof.Machine.execOr h d a b s
  | .xor h d a b => Sys2Proof.Machine.execXor h d a b s
  | .andn h d a b => Sys2Proof.Machine.execAndn h d a b s
  | .orn h d a b => Sys2Proof.Machine.execOrn h d a b s
  | .shl h d a b => Sys2Proof.Machine.execShl h d a b s
  | .shr h d a b => Sys2Proof.Machine.execShr h d a b s
  | .sra h d a b => Sys2Proof.Machine.execSra h d a b s
  | .rol h d a b => Sys2Proof.Machine.execRol h d a b s
  | .ror h d a b => Sys2Proof.Machine.execRor h d a b s
  | .min h d a b => Sys2Proof.Machine.execMin h d a b s
  | .max h d a b => Sys2Proof.Machine.execMax h d a b s
  | .minu h d a b => Sys2Proof.Machine.execMinu h d a b s
  | .maxu h d a b => Sys2Proof.Machine.execMaxu h d a b s
  | .clz h d a => Sys2Proof.Machine.execClz h d a s
  | .ctz h d a => Sys2Proof.Machine.execCtz h d a s
  | .popc h d a => Sys2Proof.Machine.execPopc h d a s
  | .brev h d a => Sys2Proof.Machine.execBrev h d a s
  | .bswap h d a => Sys2Proof.Machine.execBswap h d a s
  | .bfx h d a pos lenm1 => Sys2Proof.Machine.execBfx h d a pos lenm1 s
  | .bfxS h d a pos lenm1 => Sys2Proof.Machine.execBfxS h d a pos lenm1 s
  | .bfi h d a b pos lenm1 => Sys2Proof.Machine.execBfi h d a b pos lenm1 s
  | .fshl h d a b c => Sys2Proof.Machine.execFshl h d a b c s
  | .fshlImm h d a b n => Sys2Proof.Machine.execFshlImm h d a b n s
  | .fshr h d a b c => Sys2Proof.Machine.execFshr h d a b c s
  | .fshrImm h d a b n => Sys2Proof.Machine.execFshrImm h d a b n s
  | .sel h d a b c => Sys2Proof.Machine.execSel h d a b c s
  | .mov h d a => Sys2Proof.Machine.execMov h d a s
  | .lea h d mem => Sys2Proof.Machine.execLea h d mem s
  | .padd h d a b imm => Sys2Proof.Machine.execPadd h d a b imm s
  | .pidx h d a => Sys2Proof.Machine.execPidx h d a s
  | .pidxSet h d a b => Sys2Proof.Machine.execPidxSet h d a b s
  | .cmpEq h d a b => Sys2Proof.Machine.execCmpEq h d a b s
  | .cmpNe h d a b => Sys2Proof.Machine.execCmpNe h d a b s
  | .cmpLt h d a b => Sys2Proof.Machine.execCmpLt h d a b s
  | .cmpLe h d a b => Sys2Proof.Machine.execCmpLe h d a b s
  | .cmpLtu h d a b => Sys2Proof.Machine.execCmpLtu h d a b s
  | .cmpLeu h d a b => Sys2Proof.Machine.execCmpLeu h d a b s
  | .pand h d a b => Sys2Proof.Machine.execPand h d a b s
  | .por h d a b => Sys2Proof.Machine.execPor h d a b s
  | .pnot h d a => Sys2Proof.Machine.execPnot h d a s
  | .ldi h d imm => Sys2Proof.Machine.execLdi h d imm s
  | .addi h d a imm => Sys2Proof.Machine.execAddi h d a imm s
  | .andi h d a imm => Sys2Proof.Machine.execAndi h d a imm s
  | .ori h d a imm => Sys2Proof.Machine.execOri h d a imm s
  | .xori h d a imm => Sys2Proof.Machine.execXori h d a imm s
  | .shli h d a n => Sys2Proof.Machine.execShli h d a n s
  | .shri h d a n => Sys2Proof.Machine.execShri h d a n s
  | .srai h d a n => Sys2Proof.Machine.execSrai h d a n s
  | .cmpiEq h d a imm => Sys2Proof.Machine.execCmpiEq h d a imm s
  | .cmpiNe h d a imm => Sys2Proof.Machine.execCmpiNe h d a imm s
  | .cmpiLt h d a imm => Sys2Proof.Machine.execCmpiLt h d a imm s
  | .cmpiLe h d a imm => Sys2Proof.Machine.execCmpiLe h d a imm s
  | .cmpiLtu h d a imm => Sys2Proof.Machine.execCmpiLtu h d a imm s
  | .cmpiLeu h d a imm => Sys2Proof.Machine.execCmpiLeu h d a imm s
  | .br h imm => Sys2Proof.Machine.execBr h imm s
  | .jmp h imm => Sys2Proof.Machine.execJmp h imm s
  | .call h a imm => Sys2Proof.Machine.execCall h a imm s
  | .loop h a imm => Sys2Proof.Machine.execLoop h a imm s
  | .jr h a => Sys2Proof.Machine.execJr h a s
  | .ret h a => Sys2Proof.Machine.execRet h a s
  | .yield h => Sys2Proof.Machine.execYield h s
  | .halt h => Sys2Proof.Machine.execHalt h s
  | .bkpt h code => Sys2Proof.Machine.execBkpt h code s
  | .waitn h lq sq vq mq cq => Sys2Proof.Machine.execWaitn h lq sq vq mq cq s
  | .ldB h d mem => Sys2Proof.Machine.execLdB h d mem s
  | .ldH h d mem => Sys2Proof.Machine.execLdH h d mem s
  | .ldW h d mem => Sys2Proof.Machine.execLdW h d mem s
  | .ldD h d mem => Sys2Proof.Machine.execLdD h d mem s
  | .ldQ h d mem => Sys2Proof.Machine.execLdQ h d mem s
  | .ldsB h d mem => Sys2Proof.Machine.execLdsB h d mem s
  | .ldsH h d mem => Sys2Proof.Machine.execLdsH h d mem s
  | .ldsW h d mem => Sys2Proof.Machine.execLdsW h d mem s
  | .stB h c mem => Sys2Proof.Machine.execStB h c mem s
  | .stH h c mem => Sys2Proof.Machine.execStH h c mem s
  | .stW h c mem => Sys2Proof.Machine.execStW h c mem s
  | .stD h c mem => Sys2Proof.Machine.execStD h c mem s
  | .stQ h c mem => Sys2Proof.Machine.execStQ h c mem s
  | .ldAcqB h d mem sc => Sys2Proof.Machine.execLdAcqB h d mem sc s
  | .ldAcqH h d mem sc => Sys2Proof.Machine.execLdAcqH h d mem sc s
  | .ldAcqW h d mem sc => Sys2Proof.Machine.execLdAcqW h d mem sc s
  | .ldAcqD h d mem sc => Sys2Proof.Machine.execLdAcqD h d mem sc s
  | .ldAcqQ h d mem sc => Sys2Proof.Machine.execLdAcqQ h d mem sc s
  | .stRelB h c mem sc => Sys2Proof.Machine.execStRelB h c mem sc s
  | .stRelH h c mem sc => Sys2Proof.Machine.execStRelH h c mem sc s
  | .stRelW h c mem sc => Sys2Proof.Machine.execStRelW h c mem sc s
  | .stRelD h c mem sc => Sys2Proof.Machine.execStRelD h c mem sc s
  | .stRelQ h c mem sc => Sys2Proof.Machine.execStRelQ h c mem sc s
  | .pfL1 h mem => Sys2Proof.Machine.execPfL1 h mem s
  | .pfMsc h mem => Sys2Proof.Machine.execPfMsc h mem s
  | .amoAddW h d mem c sc => Sys2Proof.Machine.execAmoAddW h d mem c sc s
  | .amoAddD h d mem c sc => Sys2Proof.Machine.execAmoAddD h d mem c sc s
  | .amoAndW h d mem c sc => Sys2Proof.Machine.execAmoAndW h d mem c sc s
  | .amoAndD h d mem c sc => Sys2Proof.Machine.execAmoAndD h d mem c sc s
  | .amoOrW h d mem c sc => Sys2Proof.Machine.execAmoOrW h d mem c sc s
  | .amoOrD h d mem c sc => Sys2Proof.Machine.execAmoOrD h d mem c sc s
  | .amoXorW h d mem c sc => Sys2Proof.Machine.execAmoXorW h d mem c sc s
  | .amoXorD h d mem c sc => Sys2Proof.Machine.execAmoXorD h d mem c sc s
  | .amoMinW h d mem c sc => Sys2Proof.Machine.execAmoMinW h d mem c sc s
  | .amoMinD h d mem c sc => Sys2Proof.Machine.execAmoMinD h d mem c sc s
  | .amoMaxW h d mem c sc => Sys2Proof.Machine.execAmoMaxW h d mem c sc s
  | .amoMaxD h d mem c sc => Sys2Proof.Machine.execAmoMaxD h d mem c sc s
  | .amoMinuW h d mem c sc => Sys2Proof.Machine.execAmoMinuW h d mem c sc s
  | .amoMinuD h d mem c sc => Sys2Proof.Machine.execAmoMinuD h d mem c sc s
  | .amoMaxuW h d mem c sc => Sys2Proof.Machine.execAmoMaxuW h d mem c sc s
  | .amoMaxuD h d mem c sc => Sys2Proof.Machine.execAmoMaxuD h d mem c sc s
  | .amoSwapW h d mem c sc => Sys2Proof.Machine.execAmoSwapW h d mem c sc s
  | .amoSwapD h d mem c sc => Sys2Proof.Machine.execAmoSwapD h d mem c sc s
  | .amoCasW h d mem c sc => Sys2Proof.Machine.execAmoCasW h d mem c sc s
  | .amoCasD h d mem c sc => Sys2Proof.Machine.execAmoCasD h d mem c sc s
  | .amoCasQ h d mem c sc => Sys2Proof.Machine.execAmoCasQ h d mem c sc s
  | .amoFaddW h d mem c sc => Sys2Proof.Machine.execAmoFaddW h d mem c sc s
  | .tokWait h t => Sys2Proof.Machine.execTokWait h t s
  | .tokClr h a b c => Sys2Proof.Machine.execTokClr h a b c s
  | .mark h t => Sys2Proof.Machine.execMark h t s
  | .fence h t sc => Sys2Proof.Machine.execFence h t sc s
  | .acq h t sc => Sys2Proof.Machine.execAcq h t sc s
  | .rel h t sc => Sys2Proof.Machine.execRel h t sc s
  | .acqP h t a => Sys2Proof.Machine.execAcqP h t a s
  | .gateInit h t g n => Sys2Proof.Machine.execGateInit h t g n s
  | .gateArr h t g n => Sys2Proof.Machine.execGateArr h t g n s
  | .gateWait h t g p lim => Sys2Proof.Machine.execGateWait h t g p lim s
  | .rpush h t r v lim => Sys2Proof.Machine.execRpush h t r v lim s
  | .rpop h t d r lim => Sys2Proof.Machine.execRpop h t d r lim s
  | .vadd h t o d a b => Sys2Proof.Machine.execVadd h t o d a b s
  | .vsub h t o d a b => Sys2Proof.Machine.execVsub h t o d a b s
  | .vmul h t o d a b => Sys2Proof.Machine.execVmul h t o d a b s
  | .vmad h t o d a b => Sys2Proof.Machine.execVmad h t o d a b s
  | .vmin h t o d a b => Sys2Proof.Machine.execVmin h t o d a b s
  | .vmax h t o d a b => Sys2Proof.Machine.execVmax h t o d a b s
  | .vabs h t o d a => Sys2Proof.Machine.execVabs h t o d a s
  | .vneg h t o d a => Sys2Proof.Machine.execVneg h t o d a s
  | .vrelu h t o d a => Sys2Proof.Machine.execVrelu h t o d a s
  | .vexp2 h t o d a => Sys2Proof.Machine.execVexp2 h t o d a s
  | .vlog2 h t o d a => Sys2Proof.Machine.execVlog2 h t o d a s
  | .vrcp h t o d a => Sys2Proof.Machine.execVrcp h t o d a s
  | .vrsq h t o d a => Sys2Proof.Machine.execVrsq h t o d a s
  | .vtanh h t o d a => Sys2Proof.Machine.execVtanh h t o d a s
  | .vand h t o d a b => Sys2Proof.Machine.execVand h t o d a b s
  | .vor h t o d a b => Sys2Proof.Machine.execVor h t o d a b s
  | .vxor h t o d a b => Sys2Proof.Machine.execVxor h t o d a b s
  | .vnot h t o d a => Sys2Proof.Machine.execVnot h t o d a s
  | .vshl h t o d a n => Sys2Proof.Machine.execVshl h t o d a n s
  | .vshr h t o d a n => Sys2Proof.Machine.execVshr h t o d a n s
  | .vsra h t o d a n => Sys2Proof.Machine.execVsra h t o d a n s
  | .vcmp h t o cc d a b => Sys2Proof.Machine.execVcmp h t o cc d a b s
  | .vsel h t o d a b c => Sys2Proof.Machine.execVsel h t o d a b c s
  | .mand h t d a b => Sys2Proof.Machine.execMand h t d a b s
  | .mor h t d a b => Sys2Proof.Machine.execMor h t d a b s
  | .mnot h t d a => Sys2Proof.Machine.execMnot h t d a s
  | .mpopc h t o d a => Sys2Proof.Machine.execMpopc h t o d a s
  | .vadds h t o d a b => Sys2Proof.Machine.execVadds h t o d a b s
  | .vsubs h t o d a b => Sys2Proof.Machine.execVsubs h t o d a b s
  | .vmulh h t o d a b => Sys2Proof.Machine.execVmulh h t o d a b s
  | .vavg h t o d a b => Sys2Proof.Machine.execVavg h t o d a b s
  | .vsad h t o d a b => Sys2Proof.Machine.execVsad h t o d a b s
  | .vpack h t o df rnd d a b => Sys2Proof.Machine.execVpack h t o df rnd d a b s
  | .vunpk h t o sf half rnd d a => Sys2Proof.Machine.execVunpk h t o sf half rnd d a s
  | .pixUnpk h t o pf off d a => Sys2Proof.Machine.execPixUnpk h t o pf off d a s
  | .pixPack h t o pf d a => Sys2Proof.Machine.execPixPack h t o pf d a s
  | .vbfx h t o sx d a b => Sys2Proof.Machine.execVbfx h t o sx d a b s
  | .vbfi h t o d a b => Sys2Proof.Machine.execVbfi h t o d a b s
  | .vfshR h t o d a b n => Sys2Proof.Machine.execVfshR h t o d a b n s
  | .vfshL h t o d a b n => Sys2Proof.Machine.execVfshL h t o d a b n s
  | .vclz h t o d a => Sys2Proof.Machine.execVclz h t o d a s
  | .vpopc h t o d a => Sys2Proof.Machine.execVpopc h t o d a s
  | .vlut h t o d a b => Sys2Proof.Machine.execVlut h t o d a b s
  | .vcvt h t o df sf rnd d a => Sys2Proof.Machine.execVcvt h t o df sf rnd d a s
  | .vred h t o op d a => Sys2Proof.Machine.execVred h t o op d a s
  | .vscan h t o op d a => Sys2Proof.Machine.execVscan h t o op d a s
  | .vperm h t o d a b => Sys2Proof.Machine.execVperm h t o d a b s
  | .vshuf h t o pat k d a b => Sys2Proof.Machine.execVshuf h t o pat k d a b s
  | .vbcast h t o d a => Sys2Proof.Machine.execVbcast h t o d a s
  | .vbcastE h t o d a k => Sys2Proof.Machine.execVbcastE h t o d a k s
  | .vidx h t o d a => Sys2Proof.Machine.execVidx h t o d a s
  | .vmov h t o d a => Sys2Proof.Machine.execVmov h t o d a s
  | .trd h t o d a b k => Sys2Proof.Machine.execTrd h t o d a b k s
  | .twr h t o d a b k => Sys2Proof.Machine.execTwr h t o d a b k s
  | .vld h t o d a b disp => Sys2Proof.Machine.execVld h t o d a b disp s
  | .vlds h t o d a b disp => Sys2Proof.Machine.execVlds h t o d a b disp s
  | .vgath h t o d a b disp => Sys2Proof.Machine.execVgath h t o d a b disp s
  | .vst h t o d a b disp => Sys2Proof.Machine.execVst h t o d a b disp s
  | .vsts h t o d a b disp => Sys2Proof.Machine.execVsts h t o d a b disp s
  | .vscat h t o d a b disp => Sys2Proof.Machine.execVscat h t o d a b disp s
  | .vstSrPtr h t o df seed c a b disp => Sys2Proof.Machine.execVstSrPtr h t o df seed c a b disp s
  | .vstSrHdl h t o seed c a b => Sys2Proof.Machine.execVstSrHdl h t o seed c a b s
  | .vstAcc h t o df c a b disp => Sys2Proof.Machine.execVstAcc h t o df c a b disp s
  | .nestClr h t sl => Sys2Proof.Machine.execNestClr h t sl s
  | .nestLvl h t sl lvl extm1 sa sb => Sys2Proof.Machine.execNestLvl h t sl lvl extm1 sa sb s
  | .nestOpt h t sl seed n => Sys2Proof.Machine.execNestOpt h t sl seed n s
  | .nestAcc h t sl d rorg corg => Sys2Proof.Machine.execNestAcc h t sl d rorg corg s
  | .mmRun h t sl a b => Sys2Proof.Machine.execMmRun h t sl a b s
  | .mmBatch h t sl a b => Sys2Proof.Machine.execMmBatch h t sl a b s
  | .accInit h t d b => Sys2Proof.Machine.execAccInit h t d b s
  | .accFlush h t d => Sys2Proof.Machine.execAccFlush h t d s
  | .accRd h t d a rnd roff coff => Sys2Proof.Machine.execAccRd h t d a rnd roff coff s
  | .accWr h t d a roff coff => Sys2Proof.Machine.execAccWr h t d a roff coff s
  | .accWrAdd h t d a roff coff => Sys2Proof.Machine.execAccWrAdd h t d a roff coff s
  | .planePack h t d a rnd => Sys2Proof.Machine.execPlanePack h t d a rnd s
  | .planeUnpk h t d a rnd => Sys2Proof.Machine.execPlaneUnpk h t d a rnd s
  | .hdlSet h t d a => Sys2Proof.Machine.execHdlSet h t d a s
  | .hdlInv h t d => Sys2Proof.Machine.execHdlInv h t d s
  | .cp h t d a rnd dscale gen xr => Sys2Proof.Machine.execCp h t d a rnd dscale gen xr s
  | .cpAcc h t d a gen xr => Sys2Proof.Machine.execCpAcc h t d a gen xr s
  | .cpDec h t d a gen xr => Sys2Proof.Machine.execCpDec h t d a gen xr s
  | .cpCmp h t d a rnd op gen xr => Sys2Proof.Machine.execCpCmp h t d a rnd op gen xr s
  | .cpPf h t a => Sys2Proof.Machine.execCpPf h t a s
  | .glean h t d a rnd op => Sys2Proof.Machine.execGlean h t d a rnd op s
  | .blkBegin h a b p => Sys2Proof.Machine.execBlkBegin h a b p s
  | .blkEnd h => Sys2Proof.Machine.execBlkEnd h s
  | .revb h => Sys2Proof.Machine.execRevb h s
  | .gradZeroV h t msk => Sys2Proof.Machine.execGradZeroV h t msk s
  | .gradZeroAcc h t msk => Sys2Proof.Machine.execGradZeroAcc h t msk s
  | .gradZeroH h t d => Sys2Proof.Machine.execGradZeroH h t d s
  | .rsBind h t a => Sys2Proof.Machine.execRsBind h t a s
  | .rsPush h t a => Sys2Proof.Machine.execRsPush h t a s
  | .rsPop h t d => Sys2Proof.Machine.execRsPop h t d s
  | .rsMark h d => Sys2Proof.Machine.execRsMark h d s
  | .rsDrop h a => Sys2Proof.Machine.execRsDrop h a s
  | .rsSpill h t => Sys2Proof.Machine.execRsSpill h t s
  | .launch h t a => Sys2Proof.Machine.execLaunch h t a s
  | .ptDone h t => Sys2Proof.Machine.execPtDone h t s
  | .ptSelf h t d => Sys2Proof.Machine.execPtSelf h t d s
  | .tlRead h t a b => Sys2Proof.Machine.execTlRead h t a b s
  | .chSend h t ch a => Sys2Proof.Machine.execChSend h t ch a s
  | .chRecv h t d ch lim => Sys2Proof.Machine.execChRecv h t d ch lim s
  | .chPut h t ch a r gen xr => Sys2Proof.Machine.execChPut h t ch a r gen xr s
  | .chMcast h t ch a r gen xr => Sys2Proof.Machine.execChMcast h t ch a r gen xr s
  | .chGet h t d ch r gen xr => Sys2Proof.Machine.execChGet h t d ch r gen xr s
  | .sioRead h t d ch r gen xr => Sys2Proof.Machine.execSioRead h t d ch r gen xr s
  | .chAmo h t d ch p v op sz => Sys2Proof.Machine.execChAmo h t d ch p v op sz s
  | .chQry h t d ch => Sys2Proof.Machine.execChQry h t d ch s
  | .trap h code => Sys2Proof.Machine.execTrap h code s
  | .tret h a => Sys2Proof.Machine.execTret h a s
  | .ctlRd h d ctl => Sys2Proof.Machine.execCtlRd h d ctl s
  | .ctlWr h ctl a => Sys2Proof.Machine.execCtlWr h ctl a s
  | .ctlWrImm h ctl imm => Sys2Proof.Machine.execCtlWrImm h ctl imm s
  | .cutSave h t a b => Sys2Proof.Machine.execCutSave h t a b s
  | .cutLoad h t a b => Sys2Proof.Machine.execCutLoad h t a b s
  | .park h t a => Sys2Proof.Machine.execPark h t a s
  | .wake h t a => Sys2Proof.Machine.execWake h t a s
  | .idle h => Sys2Proof.Machine.execIdle h s
  | .probe h t d a pw => Sys2Proof.Machine.execProbe h t d a pw s
  | .probeRes h t d a pw => Sys2Proof.Machine.execProbeRes h t d a pw s
  | .mmuInv h t i' b l allas allva => Sys2Proof.Machine.execMmuInv h t i' b l allas allva s
  | .mmuSync h t => Sys2Proof.Machine.execMmuSync h t s
  | .mmuWalk h t d i' v => Sys2Proof.Machine.execMmuWalk h t d i' v s
  | .keyLoad h t k a => Sys2Proof.Machine.execKeyLoad h t k a s
  | .keyKill h t k => Sys2Proof.Machine.execKeyKill h t k s
  | .entryStart c q => Sys2Proof.Machine.execEntryStart c q s
  | .entryComplete c q k r => Sys2Proof.Machine.execEntryComplete c q k r s
  | .l1WriteBack c line => Sys2Proof.Machine.execL1WriteBack c line s
  | .l1Drop c line => Sys2Proof.Machine.execL1Drop c line s
  | .promotionRequest src c => Sys2Proof.Machine.execPromotionRequest src c s
  | .promotionEnd c => Sys2Proof.Machine.execPromotionEnd c s
  | .gateArrival asid c g n => Sys2Proof.Machine.execGateArrival asid c g n s
  | .ringSlotRead asid => Sys2Proof.Machine.execRingSlotRead asid s
  | .deferredAccept p => Sys2Proof.Machine.execDeferredAccept p s
  | .pointFire p => Sys2Proof.Machine.execPointFire p s
  | .outOfTurnService p lid => Sys2Proof.Machine.execOutOfTurnService p lid s
  | .pointStart c => Sys2Proof.Machine.execPointStart c s
  | .ptDoneRetire c => Sys2Proof.Machine.execPtDoneRetire c s
  | .trapTaken c => Sys2Proof.Machine.execTrapTaken c s
  | .cutComplete c => Sys2Proof.Machine.execCutComplete c s
  | .waitTimeout c q k => Sys2Proof.Machine.execWaitTimeout c q k s
  | .drainTimeout p lid => Sys2Proof.Machine.execDrainTimeout p lid s
  | .revbWalk c => Sys2Proof.Machine.execRevbWalk c s
  | .spillEngineMove c => Sys2Proof.Machine.execSpillEngineMove c s
  | .fltack p seq => Sys2Proof.Machine.execFltack p seq s
  | .pagePullRequest p ctx va => Sys2Proof.Machine.execPagePullRequest p ctx va s
  | .pullDataArrival asid va page => Sys2Proof.Machine.execPullDataArrival asid va page s
  | .forwardedAtomic p a => Sys2Proof.Machine.execForwardedAtomic p a s
  | .redirect c k dev part => Sys2Proof.Machine.execRedirect c k dev part s
  | .remoteAdmit op => Sys2Proof.Machine.execRemoteAdmit op s
  | .mcastAggAck c k members naks code => Sys2Proof.Machine.execMcastAggAck c k members naks code s
  | .linkFlitRefused port => Sys2Proof.Machine.execLinkFlitRefused port s
  | .linkRetrain port ok => Sys2Proof.Machine.execLinkRetrain port ok s
  | .windowRevoke p w => Sys2Proof.Machine.execWindowRevoke p w s
  | .windowRetire p w => Sys2Proof.Machine.execWindowRetire p w s
  | .windowCmdEnd p => Sys2Proof.Machine.execWindowCmdEnd p s
  | .pcmdSuspend p lid => Sys2Proof.Machine.execPcmdSuspend p lid s
  | .suspendDrainEnd p lid => Sys2Proof.Machine.execSuspendDrainEnd p lid s
  | .pcmdResume p lid => Sys2Proof.Machine.execPcmdResume p lid s
  | .pcmdDhalt p lid => Sys2Proof.Machine.execPcmdDhalt p lid s
  | .pcmdDrun p lid => Sys2Proof.Machine.execPcmdDrun p lid s
  | .pcmdKill p lid => Sys2Proof.Machine.execPcmdKill p lid s
  | .roleCommand p c roles halt => Sys2Proof.Machine.execRoleCommand p c roles halt s
  | .migArm p => Sys2Proof.Machine.execMigArm p s
  | .migFreeze p => Sys2Proof.Machine.execMigFreeze p s
  | .freezeComplete p => Sys2Proof.Machine.execFreezeComplete p s
  | .migSend p => Sys2Proof.Machine.execMigSend p s
  | .migResume p => Sys2Proof.Machine.execMigResume p s
  | .migDrain p => Sys2Proof.Machine.execMigDrain p s
  | .drainComplete p => Sys2Proof.Machine.execDrainComplete p s
  | .migRelease p => Sys2Proof.Machine.execMigRelease p s
  | .migAbort p => Sys2Proof.Machine.execMigAbort p s
  | .doorbellTail vf asid tail => Sys2Proof.Machine.execDoorbellTail vf asid tail s
  | .rovfClear vf asid => Sys2Proof.Machine.execRovfClear vf asid s
  | .nvmeCompletion c k sc sct data => Sys2Proof.Machine.execNvmeCompletion c k sc sct data s
  | .sioCommandTimeout c k => Sys2Proof.Machine.execSioCommandTimeout c k s
  | .selfRefreshEnter stack => Sys2Proof.Machine.execSelfRefreshEnter stack s
  | .selfRefreshExit stack => Sys2Proof.Machine.execSelfRefreshExit stack s
  | .powerStepDown => Sys2Proof.Machine.execPowerStepDown s
  | .powerStepUp => Sys2Proof.Machine.execPowerStepUp s
  | .parkRegate c => Sys2Proof.Machine.execParkRegate c s
  | .coldStart => Sys2Proof.Machine.execColdStart s
  | .bootStage r => Sys2Proof.Machine.execBootStage r s
  | .startStall => Sys2Proof.Machine.execStartStall s
  | .phyReadTest ch => Sys2Proof.Machine.execPhyReadTest ch s
  | .phyWriteReadTest ch => Sys2Proof.Machine.execPhyWriteReadTest ch s
  | .phyTestComplete ch terr tcnt => Sys2Proof.Machine.execPhyTestComplete ch terr tcnt s
  | .phyRdall ch v => Sys2Proof.Machine.execPhyRdall ch v s
  | .phyWrall ch v => Sys2Proof.Machine.execPhyWrall ch v s
  | .mdptrWrite c v => Sys2Proof.Machine.execMdptrWrite c v s
  | .mdvalWrite c v => Sys2Proof.Machine.execMdvalWrite c v s
  | .pfdropRead p => Sys2Proof.Machine.execPfdropRead p s
  | .rdcntRead p => Sys2Proof.Machine.execRdcntRead p s
  | .qerrRead q => Sys2Proof.Machine.execQerrRead q s
  | .registerWrite c off v => Sys2Proof.Machine.execRegisterWrite c off v s
  | .provision a => Sys2Proof.Machine.execProvision a s
  | .release p => Sys2Proof.Machine.execRelease p s
  | .preset p => Sys2Proof.Machine.execPreset p s
  | .wreset => Sys2Proof.Machine.execWreset s
  | .telem => Sys2Proof.Machine.execTelem s
  | .clrcnt => Sys2Proof.Machine.execClrcnt s
  | .fullreq => Sys2Proof.Machine.execFullreq s
  | .tagfr n => Sys2Proof.Machine.execTagfr n s
  | .retire stack => Sys2Proof.Machine.execRetire stack s
  | .hamletFence hm => Sys2Proof.Machine.execHamletFence hm s
  | .unfence hm => Sys2Proof.Machine.execUnfence hm s
  | .plimit w => Sys2Proof.Machine.execPlimit w s
  | .attest nonce p => Sys2Proof.Machine.execAttest nonce p s
  | .trnWrite ch v => Sys2Proof.Machine.execTrnWrite ch v s
  | .clockStepChange mhz => Sys2Proof.Machine.execClockStepChange mhz s
  | .powerLoss => Sys2Proof.Machine.execPowerLoss s
  | .routeReturns port => Sys2Proof.Machine.execRouteReturns port s
  | .imageSent p => Sys2Proof.Machine.execImageSent p s
  | .hostMailboxWrite => Sys2Proof.Machine.execHostMailboxWrite s

end Sys2Proof.Machine
end

