-- ==== Sys2Proof/Machine/Walk.lean ====
section
/-! DEFINITION. The reverse walk (R291 to R293, R301): one unit of the open walk. -/

namespace Sys2Proof.Machine

/-- The adjoint of a unit enters its queue (R292), or is suppressed after a resumption (R301, R370). -/
def issueAdjoint (c : Nat) (w : Walk) (i : Instr) (q : QId) (cur : Nat) (z : Nat) (hs : List Handle) : M Unit := do
  let s ← get
  let k := s.core c
  if k.suppresses [q] then modCore c (fun k => k.skip [q])
  else if !k.admits q then throw .wait
  else
    let e : Entry :=
      { op := i, pc := k.f.pc, qs := [q], seq := k.q.issued, barrier := false, passed := false, near := false, null := false, adj := true, muted := false,
        priv := s.privileged c, td := 0, waits := [], xs := [w.gdisp], hs := hs, dst := [], hdst := [], snap := k.f, stk := k.res.stack, phase := .queued, mark := k.res.steps, counted := false, via := none,
        wrs := [], word := 0, aux := if z = 0 then 0 else w.base + cur + 1, held := false, waited := 0, since := 0, start := none }
    modCore c (fun k => { k with q := { k.q with es := k.q.es ++ [e], issued := k.q.issued.bump q } })

/-- R293: what the walk does at a unit with an adjoint; answers the cursor after it. -/
def walkAdjoint (c : Nat) (w : Walk) (i : Instr) : M Nat := do
  let k ← getCore c
  match (match i.hdr? with | some h => (if h.pred == 0 then i.adjointQ else none) | none => none) with
  | none => trap .nodiff 0
  | some q =>
    let rs := adjointHandles i
    if rs.any (fun x => k.hpend.getLsbD x.toNat) then throw .wait
    else
      let hs := rs.map k.rdH
      let z := i.itemSize w.hsave hs
      if k.f.blk.cur < z then trap .frame 0
      else
        let cur := k.f.blk.cur - z
        let acc := match k.res.stack with | some st => (Nest.ofBits (st.num (w.base + cur) 64)).acc | none => 0
        match i with
        | .mmRun .. => check (acc < 4) .nodiff 0
        | .cp .. => adjCpPre c hs
        | _ => pure ()
        issueAdjoint c w i q cur z hs
        pure cur

/-- R293: acts on a decoded unit. Answers the cursor after it, or the trap that `BKPT`, `HALT` or `TRAP` raises with its code. -/
def walkInstr (c : Nat) (w : Walk) (i : Instr) (maj : BitVec 6) : M (Except (Cause × Nat) Nat) := do
  let k ← getCore c
  let cur := k.f.blk.cur
  match i with
  | .bkpt h code => pure (if k.taken h then .error (.bkpt, code.toNat) else .ok cur)
  | .trap h code => pure (if k.taken h then .error (.trapi, code.toNat) else .ok cur)
  | .halt h =>
    if !k.taken h then pure (.ok cur)
    else if k.ctl.dbgctl.getLsbD 1 then
      modCore c (fun k => { k with slot := { k.slot with roles := k.slot.roles ||| 1 } })
      pure (.ok cur)
    else pure (.error (.trapi, 0))
  | _ =>
    if i.framed then trap .frame 0
    else if i.hasAdjoint then do
      let n ← walkAdjoint c w i
      pure (.ok n)
    else if i.walkSkips maj then pure (.ok cur)
    else trap .nodiff 0

/-- R291: one turn of the walk's loop. -/
noncomputable def walkUnit (c : Nat) : M (Except (Cause × Nat) Unit) := do
  let k ← getCore c
  match k.res.walk with
  | none => trap .frame 0
  | some w =>
    if k.f.pc = w.bpc then
      if k.f.blk.cur ≠ 0 then trap .frame 0
      else if !k.q.es.isEmpty then throw .wait
      else do
        modCore c (fun k => k.popFrame w)
        pure (.ok ())
    else
      match ← fetchRaw c k.f.pc with
      | .error e => trap (decCause e) 0
      | .ok f =>
        match decodeRaw ((← get).privileged c) (isBailiff c) f with
        | .error e => trap (decCause e) 0
        | .ok i =>
          match ← walkInstr c w i f.maj with
          | .error x => pure (.error x)
          | .ok cur =>
            let pc ← prevUnit c k.f.pc
            modCore c (fun k => (k.setBlk (walkBlk pc cur)).setPc pc)
            pure (.ok ())

/-- One unit of the walk on the state: a trap is one at issue, at the unit walked (R301). -/
noncomputable def walkStep (c : Nat) (s : State) : State :=
  match walkUnit c s with
  | (.ok (.ok ()), s') => s'
  | (.ok (.error (cause, code)), s') => trapAtIssue c cause code 0 s'
  | (.error (.trap cause fptr), s') => trapAtIssue c cause 0 fptr s'
  | (.error _, s') => s.heldBack s'

end Sys2Proof.Machine
end

