-- ==== Sys2Proof/Machine/Units.lean ====
section
/-! DEFINITION. One step of the module: a unit of the active core, or what the agenda says happens first. And how one instruction is placed
where the next step runs it. -/

namespace Sys2Proof.Machine

-- ### A unit of a core

/-- An entry that a cut has kept completes. -/
def CoreSt.completeKept (k : CoreSt) (n : Nat) (e : Entry) : CoreSt :=
  let k1 := { k with q := { k.q with es := k.q.heldEs } }.complete n e
  { k1 with q := { k1.q with heldEs := k1.q.es, es := k.q.es.map (fun x => (x.tokensWritten [e.td]).commitWrs [.s e.td e.word]) } }

/-- R246: joining `TOK.WAIT`s whose waits are met write their tokens, those that a cut has kept too: at most `n` of them. -/
def joinTokens (c : Nat) : Nat → State → State
  | 0, s => s
  | n + 1, s =>
    let met := fun (e : Entry) (_ : List Entry) => !e.engine && e.waits.isEmpty
    match findEntry met [] (s.core c).q.es with
    | some (i, e) => joinTokens c n (s.modCore c (fun k => k.complete i { e with wrs := [], word := wordOk 0 }))
    | none => match findEntry met [] (s.core c).q.heldEs with
      | some (i, e) => joinTokens c n (s.modCore c (fun k => k.completeKept i { e with wrs := [], word := wordOk 0 }))
      | none => s

/-- What moves in a core's queues before its reeve does anything (R19 to R23; log entry 2). -/
def prepare (c : Nat) (s : State) : State :=
  let s1 := joinTokens c ((s.core c).q.es.length + (s.core c).q.heldEs.length) s
  if s1.eager then tryHardCut c (runQueues perform c s1) else s1

/-- The reeve of a core may issue: it runs code, nothing halts or freezes it, and no trap is being taken (R361, R368, R375, R380, R428). -/
def State.mayIssue (s : State) (c : Nat) : Bool :=
  let k := s.core c
  k.slot.active && !k.ctl.stopped && !k.ctl.halted && !k.slot.roles.getLsbD 0 && k.q.trap.isNone && !s.ctxFrozen k.ctx.asid

/-- R157, R158: a word with V = 0 and its Y bit set holds the reeve while a queue has more than half its size in flight. -/
def CoreSt.yields (k : CoreSt) (i : Instr) : Bool :=
  match i.hdr? with
  | some h => h.ver == 0 && h.sc.getLsbD 3 && [QId.lq, .sq, .vq, .mq, .cq].any (fun q => q.size / 2 < k.inFlight q)
  | none => false

/-- Fetches, decodes and executes the unit at the core's PC (R160 to R164). -/
noncomputable def execUnit (c : Nat) (s : State) : Out :=
  match fetchUnit c (s.core c).f.pc s with
  | (.ok (.ok i), s') => if (s'.core c).yields i then .next s' else exec i s'
  | (.ok (.error e), s') => .next (trapAtIssue c (decCause e) 0 0 s')
  | (.error (.trap cause fptr), s') => .next (trapAtIssue c cause 0 fptr s')
  | (.error _, s') => .next (s.heldBack s')

/-- One unit of the active core: of its reverse walk (R291), of the end of its point (R266), or of its code. -/
noncomputable def runReeve (s : State) : Out :=
  let c := s.active
  if !s.mayIssue c then .next s
  else if (s.core c).walking then .next (walkStep c s)
  else if (s.core c).slot.ending then .next (if s.eager then retirePoint c s else s)
  else execUnit c s

/-- A step of the active core. Fault `absentCore` when it is none of the module's 264 cores. -/
noncomputable def runCore (s : State) : Out := if 264 ≤ s.active then .fault .absentCore else runReeve (prepare s.active s)

/-- A step's outcome with its next state changed. -/
def mapNext (x : Out) (f : State → State) : Out :=
  match x with
  | .next s => .next (f s)
  | .fault e => .fault e
  | .refused e => .refused e

-- ### What the agenda says

/-- A translation leaves a hamlet's L2 TLB, or (`h` from 16 on) a bank of the L3 TLB (R347). -/
def evictShared (h key : Nat) (s : State) : State :=
  if h < 16 then { s with tlb2 := SMap.set [] s.tlb2 h (SMap.del (SMap.get [] s.tlb2 h) key) }
  else { s with tlb3 := SMap.set [] s.tlb3 (h - 16) (SMap.del (SMap.get [] s.tlb3 (h - 16)) key) }

/-- A table entry leaves a field's walkers (R347). -/
def evictWalk (field addr : Nat) (s : State) : State :=
  { s with wheld := SMap.set [] s.wheld field ((SMap.get [] s.wheld field).filter (fun x => x.addr != addr)) }

/-- A translation (`key` = twice its TLB key) or a buffer entry (twice its index, plus 1) leaves a core's caches (R340, R347). -/
def evict (c key : Nat) (s : State) : State :=
  s.modCore c (fun k =>
    if key % 2 = 0 then { k with ctx := { k.ctx with tlb := SMap.set none k.ctx.tlb (key / 2) none } }
    else { k with ctx := { k.ctx with bufs := SMap.set none k.ctx.bufs (key / 2) none } })

/-- A slice writes a dirty line to its stack (R358). -/
def cleanLine (line : Nat) (s : State) : State := s.setLineSt line { s.lineSt line with dirty := 0, got := 0 }

/-- R412: the host writes a byte of HBM, or of its own memory on the host path, when its stack is there (R428, R431). -/
def hostWrites (pa : Nat) (b : Byte) (s : State) : State :=
  if (pa < 2 ^ 41 || isHostPath pa) && !s.paWaits pa then { { s with author := some hostAgent }.physPut pa [b] with author := s.author } else s

/-- R421, R448: an error that cannot be corrected, and one that is. -/
def eccAt (line : Nat) (s : State) : State := s.setLineSt line { s.lineSt line with ecc := true }
/-- R425: a sector's tag cannot be corrected. -/
def tagErrorAt (sector : Nat) (s : State) : State := { s with tagBad := if s.tagBad.contains sector then s.tagBad else s.tagBad ++ [sector] }
/-- R425: a line's code cannot be corrected: it reads as a reserved one. -/
def metaErrorAt (line code : Nat) (s : State) : State := s.setLineSt line { s.lineSt line with code := 5 + code % 10 }

/-- R68: a word of a local memory fails its check from now on. -/
def storeErrorAt (space word : Nat) (s : State) : State :=
  { s with lbad := if s.lbad.contains (space, word) then s.lbad else s.lbad ++ [(space, word)] }

def softErrorAt (line : Nat) (s : State) : State := (s.count 0 (natBits (256 * line) 36 5)).count 1 (fieldOfPa (256 * line))

/-- What happens next. A unit of another core leaves the active core the active one. -/
noncomputable def runAct (a : Act) (s : State) : Out :=
  match a with
  | .core c => mapNext (runCore { s with active := c }) (fun t => { t with active := s.active })
  | .event i => if i.isEvent then exec i s else .next s
  | .tlbEvict c key => .next (evict c key s)
  | .sharedEvict h key => .next (evictShared h key s)
  | .walkEvict field addr => .next (evictWalk field addr s)
  | .l1Fill c ptr => .next (if (s.core c).slot.active then eventM (l1Fill c ptr) s else s)
  | .lookahead c ptr => .next (if (s.core c).slot.active then eventM (lookahead c ptr) s else s)
  | .metaError line code => .next (metaErrorAt line code s)
  | .byteRace i j k => .next (s.raceByte i j k)
  | .mscWriteBack line => .next (cleanLine line s)
  | .hostWrite pa b => .next (hostWrites pa b s)
  | .eccError line => .next (eccAt line s)
  | .queuePair q e => .next (if q < 64 then s.setQpair q e else s)
  | .bellWrite vf asid off v => .next (bellWrite vf asid off v s)
  | .wireTake n => .next (wireTake n s)
  | .linkAck n => .next (linkAck n s)
  | .linkGood n => .next (linkGood n s)
  | .msixTake => .next { s with msix := s.msix.drop 1 }
  | .softError line => .next (softErrorAt line s)
  | .storeError space word => .next (storeErrorAt space word s)
  | .command p => .next (stepCommands p s)
  | .mgmtBegin i => .next (mgmtBegin i s)
  | .mgmtEnd => .next (mgmtEnd s)
  | .imageBytes p facts data => .next (imageArrives p facts data s)
  | .fwdAnswer op old => .next (fwdAnswer op old s)
  | .imageRefused p => .next (imageTooLarge p s)
  | .pullRefused asid va => .next (pullRefused asid va s)
  | .tagError sector => .next (tagErrorAt sector s)
  | .phyProgress ch terr tcnt => .next (testProgress ch terr tcnt s)
  | .portRetry => .next (retryRemote s)

/-- Time passes (R324 `CYCLE`; log entry 3). -/
def advanceTime (s : State) : State := { s with tick := s.tick + 1, cycle := s.cycle + BitVec.ofNat 64 (Config.cyclesTaken s.tick) }

/-- The step: the head of the agenda, or else a unit of the active core; then time passes. -/
noncomputable def stepOnce (s : State) : Out :=
  mapNext (match s.agenda with
    | [] => runCore s
    | a :: rest => runAct a { s with agenda := rest }) advanceTime

-- ### One instruction, placed where the next step runs it (log entry 27)

/-- A level-3 leaf of the page at physical address 0: valid, every right, key 0, accessed and written (R342). -/
def firstLeaf : Word := 0x19D

/-- Buffer 0 of a context: 64 KiB at virtual address 0, valid, every right, untagged and not compressible (R58). -/
def firstBuffer (asid : Nat) : BitVec 256 := BitVec.ofNat 256 (atBit 0x10000 64 + atBit 0xF 128 + atBit (asid % 65536) 144)

/-- A croft that holds buffer 0 and the translation of its first page, runs at `b0:0` in the given mode, and has nothing in its queues. -/
def CoreSt.atFirst (k : CoreSt) (priv : Bool) (mem : SMap Byte) (lines : SMap LineSt) : CoreSt :=
  let asid := k.ctx.asid % 65536
  { k with
    f := { k.f with pc := 0, blk := Blk.zero }
    pend := 0
    hpend := 0
    ctl := { k.ctl with priv := priv, inHandler := false, stopped := false, halted := false }
    ctx := { k.ctx with asid := asid, desc := BitVec.ofNat 1024 (atBit 1 128 + atBit 1 144), bufs := [(0, some (firstBuffer asid))],
                        tlb := [(tlbKey 0 asid 0, some ⟨firstLeaf, 3, false, true⟩)], imem := mem, ilines := lines }
    slot := { k.slot with active := true, ending := false, roles := 0 }
    q := CoreSt.cold.q }

/-- The bytes of a unit at physical address 0, croft 0 about to fetch them in the lowest mode in which they decode, every channel in service,
and nothing else first. -/
noncomputable def placeUnit (bytes : List Byte) (s : State) : State :=
  let priv := match decode false false bytes with | .ok _ => false | .error _ => true
  let mem := (bytes.zipIdx).foldl (fun m x => SMap.set 0 m x.2 x.1) s.mem
  let lines := SMap.set .zero s.lines 0 .zero
  let s1 := { s with active := 0, agenda := [], mem := mem, lines := lines, hbm := { s.hbm with trn := 0, sref := 0, frozen := [] } }
  s1.modCore 0 (fun k => k.atFirst priv mem lines)

end Sys2Proof.Machine
end

