-- ==== Sys2Proof/Machine/Step.lean ====
section
/-! DEFINITION. The step, and the placing of one instruction where it fetches. -/

namespace Sys2Proof.Machine

/-- One step of the module. -/
noncomputable def step (s : State) : Host.Outcome State Fault Refusal := stepOnce s

/-- The state in which the next step fetches and runs exactly the unit whose bits are `w` (log entry 27). -/
noncomputable def State.withFetchWord (s : State) (nbits w : Nat) : State := placeUnit (leBytes 16 (w % 2 ^ nbits)) s

end Sys2Proof.Machine
end

