-- ==== Sys2Proof/Safety.lean ====
section
/-! DEFINITION. What a safe run is: it never stops. The canonical form of memory, the cores that exist, and runs. -/

namespace Sys2Proof.Machine

/-- Memory in its canonical form: addresses strictly rising, no byte listed that reads as an unlisted one does. -/
def Memory.wf (m : List Host.Cell) : Bool := SMap.wf 0 m

/-- What the agenda names exists: a core that is to run is one of the module's 264 (R16, R17). -/
def Act.exists : Act → Bool
  | .core c => c < 264
  | _ => true

/-- The state names no core that does not exist. -/
def State.coresExist (s : State) : Bool := s.active < 264 && s.agenda.all Act.exists

/-- A step that answers a next state. -/
def State.goesOn (s : State) : Prop := ∃ t, step s = .next t

/-- `n` steps from a state, none of which stops. -/
def State.runs : Nat → State → State → Prop
  | 0, s, t => s = t
  | n + 1, s, t => ∃ u, step s = .next u ∧ State.runs n u t

/-- A safe state: however many steps follow, none stops. -/
def State.safe (s : State) : Prop := ∀ n t, State.runs n s t → t.goesOn

-- ### When instructions complete

/-- The core whose unit runs. -/
def State.me (s : State) : CoreSt := s.core s.active

/-- A scalar unit executes: its predicate holds, and none of the scalars it uses is pending (R155, R21). -/
structure State.Ready (s : State) (h : Hdr) (rs : List SReg) : Prop where
  taken : s.me.taken h = true
  free : s.me.anyPend rs = false

/-- A word can issue, start and complete with nothing before it: its predicate holds, the core's queues are empty and take entries, no
register is pending, no trap is being taken, no block is open, no role is halted, no work is half done, and the cores that share its copy
engines have nothing in their queues (R18 to R23). -/
structure State.Quiet (s : State) (h : Hdr) : Prop where
  taken : s.me.taken h = true
  noEntry : s.me.q.es = []
  noTrap : s.me.q.trap = none
  noSup : s.me.q.sup = none
  noRedo : s.me.res.redo = []
  noPend : s.me.pend = 0
  noHpend : s.me.hpend = 0
  noPromo : s.me.loc.promo = none
  noBlock : s.me.blockOpen = false
  roles : s.me.slot.roles = 0
  slips : ∀ q, 0 < s.me.slip q
  noAuthor : s.author = none
  copies : ∀ d ∈ copyCores (hamletOf s.active), d ≠ s.active → (s.core d).q.es = []

/-- The entry that a word leaves in the queues of a core at rest (R18, R21, R168, R250). -/
def Req.entryAt (r : Req) (s : State) : Entry :=
  r.entry s.me s.me.res.stack (s.privileged s.active) false false (r.srcs.map s.me.rd ++ (r.seed.map s.me.rd).toList) (r.hnds.map s.me.rdH) 0

/-- The module once a word is in the queues of its active core. -/
def State.entered (s : State) (r : Req) : State := s.setCore s.active (s.me.enqueue r.h (r.entryAt s))

/-- A core after a word that has issued and completed: the PC past it, its register writes, its completion word in its token, its entry
counted (R19, R21, R245). -/
def CoreSt.finished (k : CoreSt) (h : Hdr) (qs : List QId) (wrs : List Wr) (td : SReg) (word : Word) : CoreSt :=
  let k1 := (wrs.foldl Wr.apply (k.next h)).wr td word
  { k1 with q := { k1.q with issued := k1.q.issued.bumps qs } }

end Sys2Proof.Machine
end

