-- ==== Sys2Proof/Certificates/Slice0/Obligations.lean ====
section
/-! DEFINITION. The statements for the provers, each `def Obligations.<Name> : Prop`, with the tables that several of them share. -/

namespace Sys2Proof.Spec

open Sys2Proof.Machine

-- ### Results as the tables of the scalar chapter give them

/-- R170: the two-source operations and what each writes. Counts are taken mod 64; products are exact in 128 bits. -/
noncomputable def twoSource : List ((Hdr → SReg → SReg → SReg → Instr) × (Word → Word → Word)) :=
  [(.add, fun x y => x + y), (.sub, fun x y => x - y), (.mul, fun x y => x * y),
   (.mulh, fun x y => (x.signExtend 128 * y.signExtend 128).extractLsb' 64 64),
   (.mulhu, fun x y => (x.zeroExtend 128 * y.zeroExtend 128).extractLsb' 64 64),
   (.and, fun x y => x &&& y), (.or, fun x y => x ||| y), (.xor, fun x y => x ^^^ y),
   (.andn, fun x y => x &&& ~~~y), (.orn, fun x y => x ||| ~~~y),
   (.shl, fun x y => x <<< (y.toNat % 64)), (.shr, fun x y => x >>> (y.toNat % 64)), (.sra, fun x y => x.sshiftRight (y.toNat % 64)),
   (.rol, fun x y => x.rotateLeft (y.toNat % 64)), (.ror, fun x y => x.rotateRight (y.toNat % 64)),
   (.min, fun x y => if x.toInt < y.toInt then x else y), (.max, fun x y => if x.toInt < y.toInt then y else x),
   (.minu, fun x y => if x.toNat < y.toNat then x else y), (.maxu, fun x y => if x.toNat < y.toNat then y else x)]

/-- The most negative 64-bit number. -/
def least : Word := 0x8000000000000000

/-- R171: the four divisions, case by case. -/
noncomputable def divisions : List ((Hdr → SReg → SReg → SReg → Instr) × (Word → Word → Word)) :=
  [(.div, fun x y => if y = 0 then BitVec.allOnes 64 else if x = least ∧ y = BitVec.allOnes 64 then least else BitVec.ofInt 64 (x.toInt.tdiv y.toInt)),
   (.rem, fun x y => if y = 0 then x else if x = least ∧ y = BitVec.allOnes 64 then 0 else BitVec.ofInt 64 (x.toInt.tmod y.toInt)),
   (.divu, fun x y => if y = 0 then BitVec.allOnes 64 else BitVec.ofNat 64 (x.toNat / y.toNat)),
   (.remu, fun x y => if y = 0 then x else BitVec.ofNat 64 (x.toNat % y.toNat))]

/-- R172: the one-source operations, with their function codes. -/
noncomputable def oneSource : List ((Hdr → SReg → SReg → Instr) × BitVec 6 × (Word → Word)) :=
  [(.clz, 0x17, fun x => BitVec.ofNat 64 (if x = 0 then 64 else 63 - Nat.log2 x.toNat)),
   (.ctz, 0x18, fun x => x.ctz),
   (.popc, 0x19, fun x => BitVec.ofNat 64 ((List.range 64).countP x.getLsbD)),
   (.brev, 0x1A, fun x => x.reverse),
   (.bswap, 0x1B, fun x => x.extractLsb' 0 8 ++ x.extractLsb' 8 8 ++ x.extractLsb' 16 8 ++ x.extractLsb' 24 8 ++ x.extractLsb' 32 8 ++
     x.extractLsb' 40 8 ++ x.extractLsb' 48 8 ++ x.extractLsb' 56 8),
   (.mov, 0x21, fun x => x)]

/-- R177: the immediate forms that add or combine bits. -/
noncomputable def immediates : List ((Hdr → SReg → SReg → Word → Instr) × (Word → Word → Word)) :=
  [(.addi, fun x i => x + i), (.andi, fun x i => x &&& i), (.ori, fun x i => x ||| i), (.xori, fun x i => x ^^^ i)]

/-- R177: the immediate shifts. -/
noncomputable def shifts : List ((Hdr → SReg → SReg → BitVec 6 → Instr) × (Word → Nat → Word)) :=
  [(.shli, fun x n => x <<< n), (.shri, fun x n => x >>> n), (.srai, fun x n => x.sshiftRight n)]

/-- R176: the conditions of register and immediate comparisons. -/
noncomputable def comparisons : List ((Hdr → PReg → SReg → SReg → Instr) × (Hdr → PReg → SReg → Word → Instr) × (Word → Word → Prop)) :=
  [(.cmpEq, .cmpiEq, fun x y => x = y), (.cmpNe, .cmpiNe, fun x y => x ≠ y),
   (.cmpLt, .cmpiLt, fun x y => x.toInt < y.toInt), (.cmpLe, .cmpiLe, fun x y => x.toInt ≤ y.toInt),
   (.cmpLtu, .cmpiLtu, fun x y => x.toNat < y.toNat), (.cmpLeu, .cmpiLeu, fun x y => x.toNat ≤ y.toNat)]

-- ### Words and their places

/-- A header with no version bits, no comment class, always taken (R154, R155); with an `EXT` in front, or without. -/
def plain (ext : Bool) : Hdr := ⟨0, 0, 0, false, ext⟩

/-- Worked encodings of the chapters (07, 08, 09, 11, 14, 16): `EXT` payload, word, and the instruction that they stand for. -/
noncomputable def workedWords : List (Option (BitVec 52) × Word × Instr) :=
  [(none, 0x0000002050C00000, .add (plain false) 4 5 6),
   (none, 0x088704387FFFFFF0, .addi ⟨0, 2, 3, true, false⟩ 7 7 (BitVec.ofInt 64 (-16))),
   (some 0x002A00000, 0x0080004800001000, .ldi (plain true) 9 0x002A000000001000),
   (none, 0x0300116515002105, .mmRun (plain false) ⟨22, 20, 21, 0⟩ 2 4 5),
   (none, 0x0140085040A00202, .ldW (plain false) 10 ⟨4, 5, 2, 16⟩),
   (none, 0x01804C4060024010, .amoCasD (plain false) 8 ⟨6, 0, 0, 0⟩ 9 2),
   (none, 0x010024000FFFF000, .waitn (plain false) 0 0 63 31 31),
   (none, 0x0100143FFFFFFFFD, .loop (plain false) 7 (BitVec.ofInt 35 (-3))),
   (some 0x3, 0x0230015500005187, .vadds (plain true) ⟨21, 20, 0, 0⟩ ⟨.i16, false, 0, false⟩ 5 6 7),
   (some 0xB0000, 0x0340115500002040, .cpDec (plain true) ⟨21, 20, 0, 0⟩ 2 1 true 5),
   (none, 0x01C0296000005000, .gateWait (plain false) ⟨22, 0, 0, 0⟩ 5 0 0),
   (none, 0x0380080000000000, .revb (plain false)),
   (none, 0x03C0000000000005, .trap (plain false) 5)]

/-- The scalar words that may trap at issue (R179). -/
def traps : Instr → Bool
  | .padd .. => true
  | _ => false

/-- The scalar words of majors 0x00, 0x01 and 0x08 with their headers (R170 to R180). -/
def scalarWord : Instr → Option Hdr
  | .add h _ _ _ | .sub h _ _ _ | .mul h _ _ _ | .mulh h _ _ _ | .mulhu h _ _ _ | .div h _ _ _ | .divu h _ _ _ | .rem h _ _ _
  | .remu h _ _ _ | .and h _ _ _ | .or h _ _ _ | .xor h _ _ _ | .andn h _ _ _ | .orn h _ _ _ | .shl h _ _ _ | .shr h _ _ _
  | .sra h _ _ _ | .rol h _ _ _ | .ror h _ _ _ | .min h _ _ _ | .max h _ _ _ | .minu h _ _ _ | .maxu h _ _ _ | .clz h _ _
  | .ctz h _ _ | .popc h _ _ | .brev h _ _ | .bswap h _ _ | .mov h _ _ | .bfx h _ _ _ _ | .bfxS h _ _ _ _ | .bfi h _ _ _ _ _
  | .fshl h _ _ _ _ | .fshlImm h _ _ _ _ | .fshr h _ _ _ _ | .fshrImm h _ _ _ _ | .sel h _ _ _ _ | .lea h _ _ | .padd h _ _ _ _
  | .pidx h _ _ | .pidxSet h _ _ _ | .cmpEq h _ _ _ | .cmpNe h _ _ _ | .cmpLt h _ _ _ | .cmpLe h _ _ _ | .cmpLtu h _ _ _
  | .cmpLeu h _ _ _ | .pand h _ _ _ | .por h _ _ _ | .pnot h _ _ | .cmpiEq h _ _ _ | .cmpiNe h _ _ _ | .cmpiLt h _ _ _
  | .cmpiLe h _ _ _ | .cmpiLtu h _ _ _ | .cmpiLeu h _ _ _ | .ldi h _ _ | .addi h _ _ _ | .andi h _ _ _ | .ori h _ _ _
  | .xori h _ _ _ | .shli h _ _ _ | .shri h _ _ _ | .srai h _ _ _ => some h
  | _ => none

/-- The control transfers of R181 with their headers. -/
def transferWord : Instr → Option Hdr
  | .br h _ | .jmp h _ | .call h _ _ | .jr h _ | .ret h _ | .loop h _ _ => some h
  | _ => none

/-- The scalar register that a scalar word writes. -/
def scalarDest : Instr → Option SReg
  | .add _ d _ _ | .sub _ d _ _ | .mul _ d _ _ | .mulh _ d _ _ | .mulhu _ d _ _ | .div _ d _ _ | .divu _ d _ _ | .rem _ d _ _
  | .remu _ d _ _ | .and _ d _ _ | .or _ d _ _ | .xor _ d _ _ | .andn _ d _ _ | .orn _ d _ _ | .shl _ d _ _ | .shr _ d _ _
  | .sra _ d _ _ | .rol _ d _ _ | .ror _ d _ _ | .min _ d _ _ | .max _ d _ _ | .minu _ d _ _ | .maxu _ d _ _ | .clz _ d _
  | .ctz _ d _ | .popc _ d _ | .brev _ d _ | .bswap _ d _ | .mov _ d _ | .bfx _ d _ _ _ | .bfxS _ d _ _ _ | .bfi _ d _ _ _ _
  | .fshl _ d _ _ _ | .fshlImm _ d _ _ _ | .fshr _ d _ _ _ | .fshrImm _ d _ _ _ | .sel _ d _ _ _ | .lea _ d _ | .padd _ d _ _ _
  | .pidx _ d _ | .pidxSet _ d _ _ | .ldi _ d _ | .addi _ d _ _ | .andi _ d _ _ | .ori _ d _ _ | .xori _ d _ _ | .shli _ d _ _
  | .shri _ d _ _ | .srai _ d _ _ => some d
  | _ => none

/-- The predicate that a scalar word writes. -/
def predDest : Instr → Option PReg
  | .cmpEq _ d _ _ | .cmpNe _ d _ _ | .cmpLt _ d _ _ | .cmpLe _ d _ _ | .cmpLtu _ d _ _ | .cmpLeu _ d _ _ | .pand _ d _ _
  | .por _ d _ _ | .pnot _ d _ | .cmpiEq _ d _ _ | .cmpiNe _ d _ _ | .cmpiLt _ d _ _ | .cmpiLe _ d _ _ | .cmpiLtu _ d _ _
  | .cmpiLeu _ d _ _ => some d
  | _ => none

/-- The scalar registers that a scalar word reads or writes (R21). -/
def scalarRegs : Instr → List SReg
  | .add _ d a b | .sub _ d a b | .mul _ d a b | .mulh _ d a b | .mulhu _ d a b | .div _ d a b | .divu _ d a b | .rem _ d a b
  | .remu _ d a b | .and _ d a b | .or _ d a b | .xor _ d a b | .andn _ d a b | .orn _ d a b | .shl _ d a b | .shr _ d a b
  | .sra _ d a b | .rol _ d a b | .ror _ d a b | .min _ d a b | .max _ d a b | .minu _ d a b | .maxu _ d a b | .bfi _ d a b _ _
  | .fshlImm _ d a b _ | .fshrImm _ d a b _ | .sel _ d a b _ | .padd _ d a b _ | .pidxSet _ d a b => [d, a, b]
  | .fshl _ d a b c | .fshr _ d a b c => [d, a, b, c]
  | .clz _ d a | .ctz _ d a | .popc _ d a | .brev _ d a | .bswap _ d a | .mov _ d a | .bfx _ d a _ _ | .bfxS _ d a _ _
  | .pidx _ d a | .addi _ d a _ | .andi _ d a _ | .ori _ d a _ | .xori _ d a _ | .shli _ d a _ | .shri _ d a _ | .srai _ d a _ => [d, a]
  | .ldi _ d _ => [d]
  | .lea _ d m => [d, m.a, m.b]
  | .cmpEq _ _ a b | .cmpNe _ _ a b | .cmpLt _ _ a b | .cmpLe _ _ a b | .cmpLtu _ _ a b | .cmpLeu _ _ a b => [a, b]
  | .cmpiEq _ _ a _ | .cmpiNe _ _ a _ | .cmpiLt _ _ a _ | .cmpiLe _ _ a _ | .cmpiLtu _ _ a _ | .cmpiLeu _ _ a _ => [a]
  | _ => []

/-- A scalar access through the PORT window, from privileged code (R191). -/
def usesPort (s : State) (m : MemOp) : Bool := (s.me.rd m.a).extractLsb' 48 16 == 0xFFF8#16 && s.privileged s.active

/-- The register that names a gate, when the word has one (R245). -/
def gateSrcs (gen : Bool) (xr : SReg) : List SReg := if gen then [xr] else []

/-- What the chapters say of a word that enters a queue: its header and tokens, its queues, whether it is a BARRIER, the scalars and handles
that it reads at issue, the scalars and handles pending until it completes, the register of its seed. -/
structure Queued where
  h : Hdr
  t : Toks
  qs : List QId
  barrier : Bool := false
  srcs : List SReg := []
  hnds : List HReg := []
  dst : List SReg := []
  hdst : List HReg := []
  seed : Option SReg := none

/-- Every word that enters a queue (R18, R186 to R194, R203, R215, R222, R246 to R263, R250, R265, R269, R286 to R299, R329). -/
def queued (s : State) : Instr → Option Queued
  | .ldB h d mem | .ldH h d mem | .ldW h d mem | .ldD h d mem | .ldsB h d mem | .ldsH h d mem | .ldsW h d mem =>
    some { h := h, t := .zero, qs := if usesPort s mem then [.lq, .sq] else [.lq], barrier := usesPort s mem, srcs := [mem.a, mem.b],
           dst := [d] }
  | .ldQ h d mem =>
    some { h := h, t := .zero, qs := if usesPort s mem then [.lq, .sq] else [.lq], barrier := usesPort s mem, srcs := [mem.a, mem.b],
           dst := [d, d + 1] }
  | .stB h c mem | .stH h c mem | .stW h c mem | .stD h c mem =>
    some { h := h, t := .zero, qs := if usesPort s mem then [.lq, .sq] else [.sq], barrier := usesPort s mem, srcs := [mem.a, mem.b, c] }
  | .stQ h c mem =>
    some { h := h, t := .zero, qs := if usesPort s mem then [.lq, .sq] else [.sq], barrier := usesPort s mem, srcs := [mem.a, mem.b, c,
           c + 1] }
  | .hdlSet h t d a => some { h := h, t := t, qs := [.cq], srcs := [a], hdst := [d] }
  | .hdlInv h t d => some { h := h, t := t, qs := [.cq], hnds := [d], hdst := [d] }
  | .cp h t d a rnd _ gen xr | .cpCmp h t d a rnd _ gen xr =>
    some { h := h, t := t, qs := [.cq], srcs := gateSrcs gen xr ++ rnd.srcs, hnds := [d, a] }
  | .cpAcc h t d a gen xr | .cpDec h t d a gen xr => some { h := h, t := t, qs := [.cq], srcs := gateSrcs gen xr, hnds := [d, a] }
  | .cpPf h t a | .rsPush h t a | .chSend h t _ a => some { h := h, t := t, qs := [.cq], hnds := [a] }
  | .glean h t d a rnd _ => some { h := h, t := t, qs := [.cq], srcs := rnd.srcs, hnds := [d, a] }
  | .gradZeroV h t _ | .vadd h t _ _ _ _ | .vsub h t _ _ _ _ | .vmul h t _ _ _ _ | .vmad h t _ _ _ _ | .vmin h t _ _ _ _
  | .vmax h t _ _ _ _ | .vabs h t _ _ _ | .vneg h t _ _ _ | .vrelu h t _ _ _ | .vexp2 h t _ _ _ | .vlog2 h t _ _ _
  | .vrcp h t _ _ _ | .vrsq h t _ _ _ | .vtanh h t _ _ _ | .vand h t _ _ _ _ | .vor h t _ _ _ _ | .vxor h t _ _ _ _
  | .vnot h t _ _ _ | .vshl h t _ _ _ _ | .vshr h t _ _ _ _ | .vsra h t _ _ _ _ | .vcmp h t _ _ _ _ _ | .vsel h t _ _ _ _ _
  | .mand h t _ _ _ | .mor h t _ _ _ | .mnot h t _ _ | .mpopc h t _ _ _ | .vadds h t _ _ _ _ | .vsubs h t _ _ _ _
  | .vmulh h t _ _ _ _ | .vavg h t _ _ _ _ | .vsad h t _ _ _ _ | .pixUnpk h t _ _ _ _ _ | .pixPack h t _ _ _ _
  | .vbfx h t _ _ _ _ _ | .vbfi h t _ _ _ _ | .vfshR h t _ _ _ _ _ | .vfshL h t _ _ _ _ _ | .vclz h t _ _ _ | .vpopc h t _ _ _
  | .vred h t _ _ _ _ | .vscan h t _ _ _ _ | .vperm h t _ _ _ _ | .vshuf h t _ _ _ _ _ _ | .vbcastE h t _ _ _ _
  | .vmov h t _ _ _ => some { h := h, t := t, qs := [.vq] }
  | .gradZeroAcc h t _ | .nestClr h t _ | .nestLvl h t _ _ _ _ _ | .nestAcc h t _ _ _ _ | .accFlush h t _ =>
    some { h := h, t := t, qs := [.mq] }
  | .gradZeroH h t d | .rsPop h t d | .chRecv h t d _ _ => some { h := h, t := t, qs := [.cq], hnds := [d] }
  | .rsBind h t a | .launch h t a | .park h t a | .wake h t a | .acqP h t a =>
    some { h := h, t := t, qs := [.lq, .sq], barrier := true, srcs := [a] }
  | .rsSpill h t => some { h := h, t := t, qs := [.cq] }
  | .tlRead h t a b => some { h := h, t := t, qs := [.cq], srcs := [a, b] }
  | .chPut h t _ a r gen xr | .chMcast h t _ a r gen xr => some { h := h, t := t, qs := [.cq], srcs := gateSrcs gen xr ++ [r], hnds := [a] }
  | .chGet h t d _ r gen xr | .sioRead h t d _ r gen xr => some { h := h, t := t, qs := [.cq], srcs := gateSrcs gen xr ++ [r], hnds := [d] }
  | .chAmo h t d _ p v _ _ => some { h := h, t := t, qs := [.cq], srcs := [p, v, d], dst := [d] }
  | .cutSave h t a b | .cutLoad h t a b => some { h := h, t := t, qs := [.lq, .sq], barrier := true, srcs := [a, b] }
  | .probe h t d a _ | .probeRes h t d a _ => some { h := h, t := t, qs := [.lq, .sq], barrier := true, srcs := [a], dst := [d] }
  | .mmuInv h t i b l _ _ => some { h := h, t := t, qs := [.lq, .sq], barrier := true, srcs := [i, b, l] }
  | .mmuSync h t | .mark h t | .fence h t _ | .acq h t _ | .rel h t _ => some { h := h, t := t, qs := [.lq, .sq], barrier := true }
  | .mmuWalk h t d i v => some { h := h, t := t, qs := [.lq, .sq], barrier := true, srcs := [i, v], dst := [d] }
  | .keyLoad h t k a => some { h := h, t := t, qs := [.lq, .sq], barrier := true, srcs := [k, a] }
  | .keyKill h t k => some { h := h, t := t, qs := [.lq, .sq], barrier := true, srcs := [k] }
  | .ldAcqB h d mem _ | .ldAcqH h d mem _ | .ldAcqW h d mem _ | .ldAcqD h d mem _ =>
    some { h := h, t := .zero, qs := [.lq, .sq], barrier := true, srcs := [mem.a, mem.b], dst := [d] }
  | .ldAcqQ h d mem _ => some { h := h, t := .zero, qs := [.lq, .sq], barrier := true, srcs := [mem.a, mem.b], dst := [d, d + 1] }
  | .stRelB h c mem _ | .stRelH h c mem _ | .stRelW h c mem _ | .stRelD h c mem _ =>
    some { h := h, t := .zero, qs := [.lq, .sq], barrier := true, srcs := [mem.a, mem.b, c] }
  | .stRelQ h c mem _ => some { h := h, t := .zero, qs := [.lq, .sq], barrier := true, srcs := [mem.a, mem.b, c, c + 1] }
  | .pfL1 h mem | .pfMsc h mem => some { h := h, t := .zero, qs := [.lq], srcs := [mem.a, mem.b] }
  | .amoAddW h d mem c _ | .amoAddD h d mem c _ | .amoAndW h d mem c _ | .amoAndD h d mem c _ | .amoOrW h d mem c _
  | .amoOrD h d mem c _ | .amoXorW h d mem c _ | .amoXorD h d mem c _ | .amoMinW h d mem c _ | .amoMinD h d mem c _
  | .amoMaxW h d mem c _ | .amoMaxD h d mem c _ | .amoMinuW h d mem c _ | .amoMinuD h d mem c _ | .amoMaxuW h d mem c _
  | .amoMaxuD h d mem c _ | .amoSwapW h d mem c _ | .amoSwapD h d mem c _ | .amoFaddW h d mem c _ =>
    some { h := h, t := .zero, qs := [.sq], srcs := [mem.a, mem.b, c, 0], dst := [d] }
  | .amoCasW h d mem c _ | .amoCasD h d mem c _ => some { h := h, t := .zero, qs := [.sq], srcs := [mem.a, mem.b, c, 0, d, 0], dst := [d] }
  | .amoCasQ h d mem c _ => some { h := h, t := .zero, qs := [.sq], srcs := [mem.a, mem.b, c, (c + 1), d, (d + 1)], dst := [d, d + 1] }
  | .gateInit h t g n | .gateArr h t g n => some { h := h, t := t, qs := [.sq], srcs := [g, n] }
  | .gateWait h t g p _ => some { h := h, t := t, qs := [.sq], srcs := [g, p] }
  | .rpush h t r v _ => some { h := h, t := t, qs := [.sq], srcs := [r, v] }
  | .rpop h t d r _ => some { h := h, t := t, qs := [.sq], srcs := [r], dst := [d] }
  | .vpack h t _ _ rnd _ _ _ | .vunpk h t _ _ _ rnd _ _ => some { h := h, t := t, qs := [.vq], srcs := rnd.srcs }
  | .vlut h t _ _ _ b | .trd h t _ _ _ b _ | .twr h t _ _ _ b _ => some { h := h, t := t, qs := [.vq], srcs := [b] }
  | .vcvt h t _ _ _ rnd _ _ => some { h := h, t := t, qs := [.vq], seed := (seedReg rnd) }
  | .vbcast h t _ _ a | .vidx h t _ _ a => some { h := h, t := t, qs := [.vq], srcs := [a] }
  | .vld h t _ _ a b _ | .vlds h t _ _ a b _ => some { h := h, t := t, qs := [.lq], srcs := [a, b] }
  | .vgath h t _ _ a _ _ => some { h := h, t := t, qs := [.lq], srcs := [a] }
  | .vst h t _ _ a b _ | .vsts h t _ _ a b _ | .vstAcc h t _ _ _ a b _ => some { h := h, t := t, qs := [.sq], srcs := [a, b] }
  | .vscat h t _ _ a _ _ => some { h := h, t := t, qs := [.sq], srcs := [a] }
  | .vstSrPtr h t _ _ seed _ a b _ => some { h := h, t := t, qs := [.sq], srcs := [a, b], seed := (some seed) }
  | .vstSrHdl h t _ seed _ a b => some { h := h, t := t, qs := [.sq], srcs := [b], hnds := [a], seed := some seed }
  | .nestOpt h t _ seed _ => some { h := h, t := t, qs := [.mq], srcs := [seed] }
  | .mmRun h t _ a b | .mmBatch h t _ a b => some { h := h, t := t, qs := [.mq], hnds := [a, b] }
  | .accInit h t _ b => some { h := h, t := t, qs := [.mq], srcs := [b] }
  | .accRd h t d _ rnd _ _ => some { h := h, t := t, qs := [.mq], srcs := rnd.srcs, hnds := [d] }
  | .accWr h t _ a _ _ | .accWrAdd h t _ a _ _ => some { h := h, t := t, qs := [.mq], hnds := [a] }
  | .planePack h t d a rnd | .planeUnpk h t d a rnd => some { h := h, t := t, qs := [.mq], srcs := rnd.srcs, hnds := [d, a] }
  | _ => none

/-- The scalar memory words of majors 0x14 and 0x18, of format R, with their headers (R186 to R194). -/
def memoryWord : Instr → Option Hdr
  | .ldB h _ _ | .ldH h _ _ | .ldW h _ _ | .ldD h _ _ | .ldQ h _ _ | .ldsB h _ _ | .ldsH h _ _ | .ldsW h _ _ | .stB h _ _
  | .stH h _ _ | .stW h _ _ | .stD h _ _ | .stQ h _ _ | .ldAcqB h _ _ _ | .ldAcqH h _ _ _ | .ldAcqW h _ _ _ | .ldAcqD h _ _ _
  | .ldAcqQ h _ _ _ | .stRelB h _ _ _ | .stRelH h _ _ _ | .stRelW h _ _ _ | .stRelD h _ _ _ | .stRelQ h _ _ _ | .pfL1 h _
  | .pfMsc h _ | .amoAddW h _ _ _ _ | .amoAddD h _ _ _ _ | .amoAndW h _ _ _ _ | .amoAndD h _ _ _ _ | .amoOrW h _ _ _ _
  | .amoOrD h _ _ _ _ | .amoXorW h _ _ _ _ | .amoXorD h _ _ _ _ | .amoMinW h _ _ _ _ | .amoMinD h _ _ _ _ | .amoMaxW h _ _ _ _
  | .amoMaxD h _ _ _ _ | .amoMinuW h _ _ _ _ | .amoMinuD h _ _ _ _ | .amoMaxuW h _ _ _ _ | .amoMaxuD h _ _ _ _
  | .amoSwapW h _ _ _ _ | .amoSwapD h _ _ _ _ | .amoCasW h _ _ _ _ | .amoCasD h _ _ _ _ | .amoCasQ h _ _ _ _
  | .amoFaddW h _ _ _ _ => some h
  | _ => none

/-- The checks that a word makes at issue (R252, R257, R268, R269, R286, R288, R298, R419), by their operations. -/
def issueCheck : Instr → Nat → List Word → List Handle → M Unit
  | .cp _ _ _ _ _ _ _ _ => pairPre cpShape (fun _ _ _ => pure ())
  | .cpAcc _ _ _ _ _ _ => pairPre cpAccShape (fun _ _ _ => pure ())
  | .cpDec _ _ _ _ _ _ => pairPre cpDecShape (fun c _ r => needCompr c r)
  | .cpCmp _ _ _ _ _ _ _ _ => pairPre cpCmpShape (fun c d _ => needCompr c d)
  | .cpPf _ _ _ => fun _ _ hs => goodHandles hs
  | .glean _ _ _ _ _ op => gleanPre op.toNat
  | .gradZeroH _ _ _ => zeroPre
  | .rsPush _ _ _ => rsPushPre
  | .rsPop _ _ _ => rsPopPre
  | .rsSpill _ _ => rsSpillPre
  | .tlRead _ _ _ _ => tlReadPre
  | .chSend _ _ ch _ => chanPre ch 0 false true
  | .chRecv _ _ _ ch _ => chanPre ch 1 true false
  | .chPut _ _ ch _ _ _ _ => chanPre ch 2 false true
  | .chMcast _ _ ch _ _ _ _ => chanPre ch 5 false true
  | .chGet _ _ _ ch _ _ _ => chanPre ch 3 true false
  | .sioRead _ _ _ ch _ _ _ => sioPre ch
  | .chAmo _ _ _ ch _ _ _ _ => fun c _ _ => slotPre c ch 4
  | .vstSrHdl _ _ _ _ _ _ _ => srHandlePre
  | .mmRun _ _ _ a b => savePre a b
  | _ => fun _ _ _ => pure ()

/-- The words that reserve or release a frame of the bound stack at issue (R288). -/
def movesStack : Instr → Bool
  | .rsPush .. | .rsPop .. => true
  | _ => false

/-- What an entry carries of its word when it has just issued, at a core with nothing pending: the word, the PC, its queues, the operands as
they stood, its token; it is not null, waits on nothing, and has not started. -/
def asIssued (e : Entry) (i : Instr) (q : Queued) (s : State) : Prop :=
  e.op = i ∧ e.pc = s.me.f.pc ∧ e.qs = q.qs ∧ e.barrier = q.barrier ∧ e.seq = s.me.q.issued ∧ e.td = q.t.td ∧ e.waits = [] ∧
  e.xs = q.srcs.map s.me.rd ++ (q.seed.map s.me.rd).toList ∧ e.hs = q.hnds.map s.me.rdH ∧ e.dst = q.dst ∧ e.hdst = q.hdst ∧
  e.phase = .queued ∧ e.null = false ∧ e.muted = false ∧ e.priv = s.privileged s.active ∧ e.snap = s.me.f ∧ e.held = false

-- ### Pointers and control transfers

/-- A pointer's index and offset (R56), and the pointer at an offset of the same index. -/
def idx (p : Word) : BitVec 16 := p.extractLsb' 48 16
def ofs (p : Word) : Nat := (p.extractLsb' 0 48).toNat
def at_ (p : Word) (o : Int) : Word := idx p ++ BitVec.ofInt 48 o

/-- R181: the offset that a relative transfer reaches, exact. -/
def relOff (pc : Word) (imm : BitVec 35) : Int := (ofs pc : Int) + 8 * imm.toInt

/-- The words that transfer to a relative target, and whether they do in a core. -/
def relWord : Instr → Option (BitVec 35)
  | .br _ imm | .call _ _ imm | .loop _ _ imm => some imm
  | _ => none
def branches (k : CoreSt) : Instr → Bool
  | .br .. | .call .. => true
  | .loop _ a _ => k.rd a != 1
  | _ => false

/-- The scalar registers that a transfer uses. -/
def transferRegs : Instr → List SReg
  | .call _ a _ | .loop _ a _ | .jr _ a | .ret _ a => [a]
  | _ => []

/-- The words that take a trap by themselves, with its cause and `TCAUSE.CODE` (R183, R184, R327). -/
def trapWord (k : CoreSt) : Instr → Option (Hdr × Cause × Nat)
  | .trap h code => some (h, .trapi, code.toNat)
  | .bkpt h code => some (h, .bkpt, code.toNat)
  | .halt h => if k.ctl.dbgctl.getLsbD 1 then none else some (h, .trapi, 0)
  | _ => none

/-- R360: the number of each cause. -/
def causeCode : Cause → Nat
  | .none => 0 | .illop => 1 | .badreg => 2 | .badch => 3 | .bounds => 4 | .rights => 5 | .xlate => 6 | .align => 7 | .mixsz => 8
  | .timeout => 9 | .rsovf => 10 | .rsunf => 11 | .frame => 12 | .nodiff => 13 | .hdlbad => 14 | .badtgt => 15 | .ecc => 16
  | .keygone => 17 | .bkpt => 18 | .trapi => 19 | .preempt => 20

/-- R144: the fields of `QSLIP`: where each begins, its width, its queue's size. -/
def slipFields : List (Nat × Nat × Nat) := [(0, 7, 64), (8, 7, 64), (16, 7, 64), (24, 5, 16), (32, 6, 32)]

/-- R325: what a write of `x` to `QSLIP` stores: each field between 1 and its queue's size, and zero outside the fields. -/
def slipOf (x q : Word) : Prop :=
  (∀ f ∈ slipFields, (q.extractLsb' f.1 f.2.1).toNat = max 1 (min (x.extractLsb' f.1 f.2.1).toNat f.2.2)) ∧
  ∀ i < 64, (∀ f ∈ slipFields, ¬(f.1 ≤ i ∧ i < f.1 + f.2.1)) → q.getLsbD i = false

/-- R325 to R327: a control register has been written with `x`, and nothing else of the module has changed but the PC (and, for `DBGCTL`, the value
that the context keeps). -/
def ctlWritten (s t : State) (h : Hdr) (r : Ctl) (x : Word) : Prop :=
  let put := fun (c : CtlRegs) => s.setCore s.active ({ s.me with ctl := c }.next h)
  match r with
  | .qslip => ∃ q, slipOf x q ∧ t = put { s.me.ctl with qslip := q }
  | .tvec => t = put { s.me.ctl with tvec := x }
  | .tcause => t = put { s.me.ctl with tcause := x &&& 0xFFFFFFFF000000FF }
  | .tcut => t = put { s.me.ctl with tcut := x }
  | .tscratch => t = put { s.me.ctl with tscratch := x }
  | .dbgctl => ∃ m, t = { put { s.me.ctl with dbgctl := x &&& 7 } with dbg := m } ∧
      (∀ d, t.dbgctl s.me.ctx.asid d = x &&& 7) ∧ ∀ asid d, asid ≠ s.me.ctx.asid → t.dbgctl asid d = s.dbgctl asid d
  | _ => False

/-- The words that only privileged code may run and that act at issue (R327, R328, R332). -/
def privScalar : Instr → Bool
  | .tret .. | .idle .. => true
  | _ => false

-- ### Scalar accesses to the croft store

/-- R187: the offset that a memory operand forms, exact. -/
def memOff (s : State) (m : MemOp) : Int := (ofs (s.me.rd m.a) : Int) + (s.me.rd m.b).toInt * 2 ^ m.ks.toNat + m.disp.toInt

/-- R61, R62: the index of a local window. -/
def winIdx : Loc → BitVec 16
  | .croft => 0xFFF0 | .hamlet => 0xFFF1 | .commons => 0xFFF2 | _ => 0xFFF3

/-- R62 to R65: the core may reach `n` bytes at offset `off` of a local window: in the CROFT window the part of the store that belongs to the point
(a bailiff has all but the hot segment), in HAMLET and COMMONS the context's grant. -/
def inWindow (s : State) (l : Loc) (off n : Nat) : Prop :=
  match l with
  | .croft => off + n ≤ (if 256 ≤ s.active then 0x170000 else 1024 * s.me.slot.csneed) ∧ s.me.slot.csneed ≤ 1472
  | .hamlet => let g := descHg s.me.ctx.desc; g.1 ≤ off ∧ off + n ≤ g.1 + g.2 ∧ off + n ≤ 2 ^ 23
  | .commons => let g := descCg s.me.ctx.desc; g.1 ≤ off ∧ off + n ≤ g.1 + g.2 ∧ off + n ≤ 2 ^ 28
  | .lane => off + n ≤ 2048
  | _ => False

/-- R62, R187: a naturally aligned scalar access of `n` bytes at offset `off` of the CROFT, HAMLET or COMMONS window. -/
def inStore (s : State) (m : MemOp) (l : Loc) (n off : Nat) : Prop :=
  l ≠ .lane ∧ idx (s.me.rd m.a) = winIdx l ∧ memOff s m = off ∧ off % n = 0 ∧ inWindow s l off n

/-- The number whose little-endian bytes stand from `off` on (R8). -/
def leAt (f : Nat → Byte) (off : Nat) : Nat → Nat
  | 0 => 0
  | n + 1 => leAt f off n + (f (off + n)).toNat * 256 ^ n

/-- A core's byte of its croft store. -/
def storeByte (s : State) (off : Nat) : Byte := s.localByte s.active .croft off

/-- The bytes of the memory that a window of the active core reaches, by their place there: in its croft store, in hamlet memory (8 MiB a hamlet), in
the commons, in its lane stores (2 KiB a lane). -/
def spaceByte (s : State) : Loc → Nat → Byte
  | .croft, a => storeByte s a
  | .hamlet, a => SMap.get 0 s.hmem a
  | .commons, a => SMap.get 0 s.commons a
  | .lane, a => SMap.get 0 s.me.loc.lane a
  | _, _ => 0

/-- The place of offset `off` of a window; `lane` is the lane that asks (R65). -/
def place (s : State) (l : Loc) (lane off : Nat) : Nat :=
  match l with
  | .hamlet => 2 ^ 23 * (if 256 ≤ s.active then 2 * (s.active - 256) else s.active / 16) + off
  | .lane => 2048 * lane + off
  | _ => off

/-- The number in `n` bytes at an offset of a window. -/
def winNat (s : State) (l : Loc) (off n : Nat) : Nat := leAt (spaceByte s l) (place s l 0 off) n

/-- Loads and stores with their sizes, and whether a load sign-extends (R188). -/
noncomputable def loads : List ((Hdr → SReg → MemOp → Instr) × Nat × Bool) :=
  [(.ldB, 1, false), (.ldH, 2, false), (.ldW, 4, false), (.ldD, 8, false), (.ldsB, 1, true), (.ldsH, 2, true), (.ldsW, 4, true)]
noncomputable def stores : List ((Hdr → SReg → MemOp → Instr) × Nat) := [(.stB, 1), (.stH, 2), (.stW, 4), (.stD, 8)]
noncomputable def acquiring : List ((Hdr → SReg → MemOp → BitVec 2 → Instr) × Nat) :=
  [(.ldAcqB, 1), (.ldAcqH, 2), (.ldAcqW, 4), (.ldAcqD, 8)]
noncomputable def releasing : List ((Hdr → SReg → MemOp → BitVec 2 → Instr) × Nat) :=
  [(.stRelB, 1), (.stRelH, 2), (.stRelW, 4), (.stRelD, 8)]

/-- R193, R194: the atomics of one register with their sizes in bytes, and what each writes over `x` with operand `y`, as numbers of that
size. -/
noncomputable def atomics : List ((Hdr → SReg → MemOp → SReg → BitVec 2 → Instr) × Nat × (Nat → Nat → Nat)) :=
  let lt := fun (n x y : Nat) => ((BitVec.ofNat (8 * n) x).toInt < (BitVec.ofNat (8 * n) y).toInt)
  [(.amoAddW, 4, fun x y => (x + y) % 2 ^ 32), (.amoAddD, 8, fun x y => (x + y) % 2 ^ 64), (.amoAndW, 4, fun x y => x &&& y), (.amoAndD, 8, fun x y => x &&& y),
   (.amoOrW, 4, fun x y => x ||| y), (.amoOrD, 8, fun x y => x ||| y), (.amoXorW, 4, fun x y => x ^^^ y), (.amoXorD, 8, fun x y => x ^^^ y),
   (.amoMinW, 4, fun x y => if lt 4 y x then y else x), (.amoMinD, 8, fun x y => if lt 8 y x then y else x),
   (.amoMaxW, 4, fun x y => if lt 4 x y then y else x), (.amoMaxD, 8, fun x y => if lt 8 x y then y else x),
   (.amoMinuW, 4, fun x y => min x y), (.amoMinuD, 8, fun x y => min x y), (.amoMaxuW, 4, fun x y => max x y), (.amoMaxuD, 8, fun x y => max x y),
   (.amoSwapW, 4, fun _ y => y), (.amoSwapD, 8, fun _ y => y)]
noncomputable def swapsIfEqual : List ((Hdr → SReg → MemOp → SReg → BitVec 2 → Instr) × Nat) := [(.amoCasW, 4), (.amoCasD, 8)]

/-- A core after a write of a local memory: at most the bytes of its stores have changed. -/
def sameButStore (k g : CoreSt) : Prop := g = { k with loc := { k.loc with store := g.loc.store, hot := g.loc.hot, lane := g.loc.lane } }

/-- A word that writes a local memory has issued and completed, `fin` being what that makes of the core `k`: besides the bytes of local memories only
the record of racing writes (R127) has changed, and a word that failed its check may no longer do so (R68). -/
def wroteLocal (s t : State) (k : CoreSt) (fin : CoreSt → CoreSt) : Prop :=
  (∃ g, sameButStore k g ∧
    t = { s with writes := t.writes, lbad := t.lbad, hmem := t.hmem, commons := t.commons }.setCore s.active (fin g)) ∧ ∀ y ∈ t.lbad, y ∈ s.lbad

/-- `n` bytes of `x` have been written at offset `off` of a window; no other byte of a local memory has changed. -/
def stored (s t : State) (l : Loc) (off n x : Nat) (k : CoreSt) (fin : CoreSt → CoreSt) : Prop :=
  wroteLocal s t k fin ∧ winNat t l off n = x % 256 ^ n ∧
  ∀ l' a, (l' = l → a < place s l 0 off ∨ place s l 0 off + n ≤ a) → spaceByte t l' a = spaceByte s l' a

-- ### Accesses through global buffers (R57 to R59, R105, R187)

/-- A naturally aligned scalar access of `n` bytes that passes its checks: offset `off` of the buffer `b`, whose entry the core holds, at the place `pl`
that the core's L1 TLB has for it, with the rights of entry and leaf, reached before in this way. -/
def inBuffer (s : State) (m : MemOp) (a : Acc) (n off : Nat) (b : BitVec 256) (pl : Place) : Prop :=
  let i := (idx (s.me.rd m.a)).toNat
  let va := bufBase b + off
  i ≤ 0xFEFF ∧ i < descBtCnt s.me.ctx.desc ∧ SMap.get none s.me.ctx.bufs i = some b ∧ bufValid s.me.ctx.asid b = true ∧ bufGrants a b = true ∧
  memOff s m = off ∧ off % n = 0 ∧ off + n ≤ bufLen b ∧
  (∃ t, Tlb.find s.me.ctx.tlb s.me.ctx.asid va a = some t ∧ leafGrants a t.leaf.toNat = true ∧
    pl = ⟨t.pa va, pteKey t.leaf.toNat, bufCompr b, bufTagged b, pageKey s.me.ctx.asid va, bufClass b⟩) ∧
  s.refuses b pl.pa = false ∧ (isHostPath pl.pa = true ∨ (s.frame (pl.pa / 65536)).reach.contains (pl.page, pl.cls) = true)

/-- The bytes of a line from byte `lo` on, as a number. -/
def lineNat (x : BitVec 2048) (lo n : Nat) : Nat := (x.extractLsb' (8 * lo) (8 * n)).toNat

/-- A core whose L1 holds `x` for one line, and is as before otherwise. -/
def lineIs (k g : CoreSt) (line : Nat) (x : L1Line) : Prop :=
  g = { k with loc := { k.loc with l1 := g.loc.l1 } } ∧ g.l1Get line = some x ∧ ∀ i, i ≠ line → g.l1Get i = k.l1Get i

/-- A line after a store of `n` bytes of `v` at byte `lo`: those, marked dirty, and every other byte and mark as it was. -/
def lineStored (x y : L1Line) (pl : Place) (lo n v : Nat) : Prop :=
  y = { x with data := y.data, dirty := y.dirty, key := pl.key, compr := pl.compr, cls := pl.cls, pages := y.pages, sts := y.sts } ∧
  ∀ i < 256, lineNat y.data i 1 = (if lo ≤ i ∧ i < lo + n then v / 256 ^ (i - lo) % 256 else lineNat x.data i 1) ∧
    y.dirty.getLsbD i = (decide (lo ≤ i ∧ i < lo + n) || x.dirty.getLsbD i)

/-- R118, R115 at scope C: a release stamps every dirty line that has no stamp, and records its epoch. -/
def stamped (k : CoreSt) : CoreSt :=
  { k with loc := { k.loc with
      l1 := k.loc.l1.map (fun p => (p.1, p.2.map (fun x => if x.dirty ≠ 0 ∧ x.stamp = none then { x with stamp := some k.loc.epoch } else x)))
      plog := k.loc.plog ++ [k.loc.epoch]
      epoch := k.loc.epoch + 1 } }

/-- R116: what an acquire leaves of a core: at every scope but C no line without a dirty byte. -/
def acquired (sc : BitVec 2) (k : CoreSt) : CoreSt :=
  if sc = 0 then k else { k with loc := { k.loc with l1 := k.loc.l1.filter (fun p => match p.2 with | some x => x.dirty != 0 | none => false) } }

/-- R115, R118: what a release leaves of a core: at scope C over any L1, at the others over an empty one. -/
def released (sc : BitVec 2) (k : CoreSt) : CoreSt := if sc = 0 then stamped k else { k with loc := { k.loc with plog := [] } }

/-- The words of formats R and T that enter no queue and have no token (R156, R166), and whether the mode may run them. -/
def unqueued (priv : Bool) : Instr → Option Hdr
  | .yield h | .waitn h .. | .halt h | .bkpt h _ | .trap h _ | .tokClr h .. | .ptDone h _ | .ptSelf h .. | .chQry h .. | .rsMark h _ | .rsDrop h _
  | .blkBegin h .. | .blkEnd h | .revb h => some h
  | .tret h _ | .idle h => if priv then some h else none
  | .ctlRd h _ r => if r.readable priv then some h else none
  | .ctlWr h r _ | .ctlWrImm h r _ => if r.writable priv then some h else none
  | _ => none

-- ### Elements of vector registers (R198, R201, R204 to R214)

/-- Width of an element, and element `i` of a register. -/
def width : Ety → Nat
  | .fp32 | .i32 | .n32 => 32
  | .i16 | .n16 => 16
def elem (x : BitVec 2048) (w i : Nat) : Nat := (x.extractLsb' (w * i) w).toNat

/-- The number that an integer element stands for; a number wrapped, and clamped, to the element type. -/
def isSigned : Ety → Bool
  | .i32 | .i16 => true
  | _ => false
def num (t : Ety) (x : Nat) : Int := if isSigned t then (BitVec.ofNat (width t) x).toInt else x
def wrapE (t : Ety) (z : Int) : Nat := (z % 2 ^ width t).toNat
def clampE (t : Ety) (z : Int) : Nat :=
  wrapE t (if isSigned t then max (-2 ^ (width t - 1)) (min (2 ^ (width t - 1) - 1) z) else max 0 (min (2 ^ width t - 1) z))
/-- A floating-point element operation, or an integer one. -/
def fpOr (t : Ety) (f i : Nat) : Nat := match t with | .fp32 => f | _ => i

/-- R204, R206, R208, R210: element operations of two sources, with the words that do them. -/
noncomputable def lane2 : List ((Hdr → Toks → VOpt → VReg → VReg → VReg → Instr) × (Ety → Nat → Nat → Nat)) :=
  [(.vadd, fun t x y => fpOr t (addF32 x y) (wrapE t (num t x + num t y))),
   (.vsub, fun t x y => fpOr t (toF32 ((f32 x).add (f32 y).neg)) (wrapE t (num t x - num t y))),
   (.vmul, fun t x y => fpOr t (mulF32 x y) (wrapE t (num t x * num t y))),
   (.vmin, fun t x y => fpOr t (minF32 x y) (if num t y < num t x then y else x)),
   (.vmax, fun t x y => fpOr t (maxF32 x y) (if num t x < num t y then y else x)),
   (.vand, fun _ x y => x &&& y), (.vor, fun _ x y => x ||| y), (.vxor, fun _ x y => x ^^^ y),
   (.vadds, fun t x y => clampE t (num t x + num t y)), (.vsubs, fun t x y => clampE t (num t x - num t y)),
   (.vmulh, fun t x y => if isSigned t then clampE t ((num t x * num t y + 2 ^ 14) / 2 ^ 15) else x * y / 2 ^ 16),
   (.vavg, fun t x y => wrapE t ((num t x + num t y + 1) / 2))]

/-- R204, R205, R206, R210, R214: element operations of one source. -/
noncomputable def lane1 : List ((Hdr → Toks → VOpt → VReg → VReg → Instr) × (Ety → Nat → Nat)) :=
  [(.vabs, fun t x => fpOr t (match f32 x with | .nan => canonNaN 1 | _ => x % 2 ^ 31) (wrapE t (BitVec.ofNat (width t) x).toInt.natAbs)),
   (.vneg, fun t x => fpOr t (match f32 x with | .nan => canonNaN 1 | _ => x ^^^ 2 ^ 31) (wrapE t (-num t x))),
   (.vrelu, fun t x => fpOr t (match f32 x with | .nan => canonNaN 1 | y => if Val.zero.lt y then x else 0) (if 0 < num t x then x else 0)),
   (.vexp2, fun _ x => exp2F32 x), (.vlog2, fun _ x => log2F32 x), (.vrcp, fun _ x => rcpF32 x), (.vrsq, fun _ x => rsqF32 x),
   (.vtanh, fun _ x => tanhF32 x),
   (.vnot, fun t x => 2 ^ width t - 1 - x), (.vclz, fun t x => if x = 0 then width t else width t - 1 - Nat.log2 x),
   (.vpopc, fun t x => (List.range (width t)).countP x.testBit), (.vmov, fun _ x => x)]

/-- R206: the vector shifts, by a count below the width. -/
noncomputable def laneShifts : List ((Hdr → Toks → VOpt → VReg → VReg → ShCnt → Instr) × (Ety → Nat → Nat → Nat)) :=
  [(.vshl, fun t x n => x * 2 ^ n % 2 ^ width t), (.vshr, fun _ x n => x / 2 ^ n),
   (.vsra, fun t x n => wrapE t ((BitVec.ofNat (width t) x).toInt / 2 ^ n))]

/-- R202: element `i` is active. -/
def laneOn (k : CoreSt) (o : VOpt) (i : Nat) : Bool := !o.men || (k.rdM o.mreg).getLsbD i

/-- A vector word has issued, done its work and completed: its token says OK, and vD holds `f i` in each active element, while an inactive one is
zero or as it was (R202). Nothing else has changed but the PC and the count of VQ. -/
def vectorDone (s t : State) (h : Hdr) (td : SReg) (o : VOpt) (d : VReg) (w : Nat) (f : Nat → Nat) : Prop :=
  ∃ x m : BitVec 2048, t = s.setCore s.active (s.me.finished h [.vq] [.v d x m] td 0x800000) ∧
    ∀ i < 2048 / w, elem ((t.core s.active).rdV d) w i = if laneOn s.me o i then f i else if o.zm then 0 else elem (s.me.rdV d) w i

/-- Every active one of `n` elements lies, aligned, in what the core may reach of a local window: `off i` is its offset. -/
def lanesIn (s : State) (o : VOpt) (a : SReg) (l : Loc) (n es : Nat) (at_ : Nat → Int) (off : Nat → Nat) : Prop :=
  idx (s.me.rd a) = winIdx l ∧ ∀ i < n, laneOn s.me o i = true → at_ i = off i ∧ off i % es = 0 ∧ inWindow s l (off i) es

/-- The count of a vector shift in element `i` (R206, R210). -/
def shiftCount (k : CoreSt) (w i : Nat) : ShCnt → Nat
  | .reg b => elem (k.rdV b) w i % w
  | .imm n => n.toNat % w

/-- R213: the operations of reductions and scans, with their identities; a reduction's tree over 2^k elements, and a scan's running value. -/
def redStep (t : Ety) : RedOp → Nat → Nat → Nat
  | .add, x, y => fpOr t (addF32 x y) (wrapE t (num t x + num t y))
  | .max, x, y => fpOr t (maxF32 x y) (if num t x < num t y then y else x)
  | .min, x, y => fpOr t (minF32 x y) (if num t y < num t x then y else x)
def redUnit (t : Ety) : RedOp → Nat
  | .add => fpOr t 0x80000000 0
  | .max => fpOr t 0xFF800000 (wrapE t (if isSigned t then -2 ^ (width t - 1) else 0))
  | .min => fpOr t 0x7F800000 (wrapE t (if isSigned t then 2 ^ (width t - 1) - 1 else 2 ^ width t - 1))
def tree (f : Nat → Nat → Nat) : Nat → (Nat → Nat) → Nat
  | 0, t => t 0
  | k + 1, t => tree f k (fun j => f (t (2 * j)) (t (2 * j + 1)))

/-- R209, R212, R218: an element of format `sf` converted to format `df`: decoded, then rounded; element index `i` and the low half of the seed's register
matter to stochastic rounding alone. -/
def conv (k : CoreSt) (df sf : Nat) (rnd : Rnd) (i x : Nat) : Nat :=
  roundFmt df false ⟨rnd.rm, if rnd.rm = .sr then (k.rd rnd.seed).toNat % 2 ^ 32 else 0, i⟩ (decodeFmt sf false x) % 2 ^ fmtWidth df
/-- R84: the format of an element type. -/
def fmtOf : Ety → Nat
  | .fp32 => 1 | .i32 => 4 | .n32 => 7 | .i16 => 5 | .n16 => 8

-- ### Vector memory, slots, frames

/-- R215: the offset of element `i`: contiguous from `x + y`, in steps of `y`, or by the elements of a register. -/
inductive Pattern where
  | line | stride | index (b : VReg)

def elemOff (s : State) (t : Ety) (a b : SReg) (disp : BitVec 16) (p : Pattern) (i : Nat) : Int :=
  let es : Int := (width t / 8 : Nat)
  match p with
  | .line => (ofs (s.me.rd a) : Int) + (s.me.rd b).toInt + disp.toInt + i * es
  | .stride => (ofs (s.me.rd a) : Int) + disp.toInt + i * (s.me.rd b).toInt
  | .index v =>
    let x := elem (s.me.rdV v) (width t) i
    (ofs (s.me.rd a) : Int) + disp.toInt + (if width t = 32 then (BitVec.ofNat 32 x).toInt else (x : Int)) * es

/-- The vector loads and stores with their patterns. -/
noncomputable def vectorLoads (h : Hdr) (tk : Toks) (o : VOpt) (d v : VReg) (a b : SReg) (disp : BitVec 16) : List (Instr × Pattern) :=
  [(.vld h tk o d a b disp, .line), (.vlds h tk o d a b disp, .stride), (.vgath h tk o d a v disp, .index v)]
noncomputable def vectorStores (h : Hdr) (tk : Toks) (o : VOpt) (c v : VReg) (a b : SReg) (disp : BitVec 16) : List (Instr × Pattern) :=
  [(.vst h tk o c a b disp, .line), (.vsts h tk o c a b disp, .stride), (.vscat h tk o c a v disp, .index v)]

-- ### Tensors in local windows (R70, R72, R74)

/-- R72: the index that walk number `n` visits. -/
def walkPos (r : BitVec 512) : List Nat → Nat → Int
  | [], _ => 0
  | k :: ks, n => ((n % shE r k : Nat) : Int) * shS r k + walkPos r ks (n / shE r k)

/-- R72: the offset of element `n` of a record whose elements are whole bytes; and the element, in a local window. -/
def tensorOff (r : BitVec 512) (n : Nat) : Nat := ((ofs (shPtr r) : Int) + walkPos r [0, 1, 2, 3, 4, 5] n * (fmtWidth (shFmt r) / 8 : Nat)).toNat
def tensorNat (s : State) (l : Loc) (r : BitVec 512) (n : Nat) : Nat := winNat s l (tensorOff r n) (fmtWidth (shFmt r) / 8)

/-- R74: the span of a record, which has elements, lies in what the core may reach of a CROFT, HAMLET or COMMONS window. -/
def spanIn (s : State) (r : BitVec 512) (l : Loc) : Prop :=
  l ≠ .lane ∧ idx (shPtr r) = winIdx l ∧ 0 < shCount r ∧ ∃ lo hi : Nat, shSpan r = ((lo : Int), (hi : Int)) ∧ inWindow s l lo (hi + 1 - lo)

/-- The same of a record whose elements are whole bytes. -/
def tensorIn (s : State) (r : BitVec 512) (l : Loc) : Prop :=
  spanIn s r l ∧ 0 < fmtWidth (shFmt r) ∧ fmtWidth (shFmt r) % 8 = 0 ∧ shBitoff r = 0

/-- R75: a record that may be written: its walk is injective, so that no two of its elements lie at one place. -/
def writable (r : BitVec 512) : Prop := shInjective r = true ∧ ∀ n < shCount r, ∀ m < n, tensorOff r m ≠ tensorOff r n

/-- The spans of two records do not meet. -/
def apart (a b : BitVec 512) (la lb : Loc) : Prop := la ≠ lb ∨ (shSpan a).2 < (shSpan b).1 ∨ (shSpan b).2 < (shSpan a).1

/-- The first `m` elements of a tensor have been written, element `n` with `x n`; no other byte of a local memory has changed. -/
def firstStored (s t : State) (l : Loc) (r : BitVec 512) (m : Nat) (x : Nat → Nat) (k : CoreSt) (fin : CoreSt → CoreSt) : Prop :=
  let w := fmtWidth (shFmt r) / 8
  wroteLocal s t k fin ∧ (∀ n < m, tensorNat t l r n = x n % 256 ^ w) ∧
  ∀ l' a, (l' = l → ∀ n < m, a < place s l 0 (tensorOff r n) ∨ place s l 0 (tensorOff r n) + w ≤ a) → spaceByte t l' a = spaceByte s l' a

/-- All its elements have been written. -/
def tensorStored (s t : State) (l : Loc) (r : BitVec 512) (x : Nat → Nat) (k : CoreSt) (fin : CoreSt → CoreSt) : Prop :=
  firstStored s t l r (shCount r) x k fin

/-- The bytes of a tensor of whole bytes in a local window, in walk order (R269). -/
def tensorBytes (s : State) (l : Loc) (r : BitVec 512) : List Byte :=
  (List.range (shCount r)).flatMap (fun n => natBytes (fmtWidth (shFmt r) / 8) (tensorNat s l r n))

/-- A format of numbers in whole bytes. -/
def byteFmt (r : BitVec 512) : Prop := (1 ≤ shFmt r ∧ shFmt r ≤ 9) ∨ shFmt r = 0xD

/-- The word OK with a count (R245). -/
def okWord (n : Nat) : Word := BitVec.ofNat 64 (0x800000 + 2 ^ 24 * (n % 2 ^ 40))

/-- R269, R388: what a core asks through a channel slot, to the partition and the window that the slot names; a gradient partner's travels in class 1
(R390). -/
def ask (s : State) (x : BitVec 512) (kind : RKind) (ptr : Word) (gate : Option Word) (len : Nat) (bs : List Byte) : RemoteOp :=
  { src := s.devid, part := (x.extractLsb' 44 4).toNat, win := (x.extractLsb' 32 12).toNat, kind := kind, ptr := ptr, len := len, gate := gate, op := 0,
    size := 0, x := 0, y := 0, data := bs, tag := s.active, cls := (x.extractLsb' 8 1).toNat }

/-- A word has issued, and its entry on CQ has put a request to a device on the fabric, whose answer it awaits (R269, R386). -/
def asks (s : State) (h : Hdr) (i : Instr) (dev : Nat) (op : RemoteOp) : Prop :=
  ∃ (t : State) (e : Entry), exec i s = .next t ∧ t.me.q.es = [e] ∧ e.op = i ∧ e.qs = [.cq] ∧ e.phase = .pend ∧ e.via = some (dev, op) ∧
    t.fab = { s.fab with out := s.fab.out ++ [.request dev op] } ∧ t.mem = s.mem ∧ t.me.f = (s.me.next h).f ∧ t.me.loc = s.me.loc

/-- R94, R95: rounding of element `i` as a word asks for it. -/
def modeOf (k : CoreSt) (rnd : Rnd) (i : Nat) : Mode := ⟨rnd.rm, if rnd.rm = .sr then (k.rd rnd.seed).toNat % 2 ^ 32 else 0, i⟩

/-- A handle that holds a record, and is not marked. -/
def holds (k : CoreSt) (a : HReg) (r : BitVec 512) : Prop := (k.rdH a).bound = true ∧ (k.rdH a).bad = false ∧ (k.rdH a).shape = r

-- ### Products (R103, R228, R229)

/-- R229: group `k` of row `m` of batch `b` of a numeric operand, converted to `n` planes: the elements from `g * k` on, zeros from the extent on. -/
def operandGroup (s : State) (l : Loc) (r : BitVec 512) (g n : Nat) (md : Nat → Mode) (b m k : Nat) : Group :=
  toGroup n ((List.range g).map (fun j =>
    let i := g * k + j
    let w := i + shE r 0 * (m + shE r 1 * b)
    if i < shE r 0 then (decodeFmt (shFmt r) (shFmt r == 2) (tensorNat s l r w), md w) else (.zero, .rne)))

/-- R229: the group index of iteration `j`, from the extents and steps of the levels, level 0 first. -/
def groupIx : List (Nat × Nat) → Nat → Nat
  | [], _ => 0
  | (e, st) :: r, j => j % e * st + groupIx r (j / e)

/-- R225: a nest slot with its six levels; the number of its iterations. -/
def Nest.whole (x : Nest) : Prop := x.e.length = 6 ∧ x.sa.length = 6 ∧ x.sb.length = 6 ∧ ∀ e ∈ x.e, 0 < e
def iterations (x : Nest) : Nat := x.e.foldl (· * ·) 1

/-- R103, R229: an element after a product, from the groups of its row and of its column. -/
def productEl (x : Nest) (A B : Nat → Group) (el : AccEl) : AccEl :=
  (List.range (iterations x)).foldl (fun el j =>
    let u := accumulate x.pi (groupProduct x.na x.nb 0 0 (A (groupIx (x.e.zip x.sa) j)) (B (groupIx (x.e.zip x.sb) j))) el.h.toNat el.w.toNat el.cnt
    ⟨BitVec.ofNat 32 u.1, BitVec.ofNat 32 u.2.1, u.2.2⟩) el

/-- R228: an operand of numeric elements, in a local window, which holds the groups that the nest asks for. -/
def operandOk (s : State) (x : Nest) (l : Loc) (r : BitVec 512) (st : List Nat) : Prop :=
  1 ≤ shFmt r ∧ shFmt r ≤ 9 ∧ tensorIn s r l ∧ (shInjective r = true ∨ shOverlap r = true) ∧
  ∀ j < iterations x, groupIx (x.e.zip st) j < (shE r 0 + 16 * 2 ^ x.gg - 1) / (16 * 2 ^ x.gg)

/-- A word of the loom that changes accumulator tiles alone: `f` says what each element becomes. -/
def tilesDone (s t : State) (h : Hdr) (td : SReg) (word : Word) (f : Nat → Nat → Nat → AccEl) : Prop :=
  ∃ g : CoreSt, t = s.setCore s.active (g.finished h [.mq] [] td word) ∧ g = { s.me with eng := { s.me.eng with acc := g.eng.acc } } ∧
    ∀ n r c, r < 128 → c < 64 → g.rdAcc n r c = f n r c

-- ### Groups in plane form (R99, R241)

/-- R99: the offset of group `e`'s scale byte, and of its planes. -/
def scaleOff (r : BitVec 512) (e : Int) : Nat := ((ofs (shPtr r) : Int) + e / 64 * (64 + 8 * planeN (shFmt r) * planeG (shFmt r) : Nat) + e % 64).toNat
def planesOff (r : BitVec 512) (e : Int) : Nat :=
  ((ofs (shPtr r) : Int) + e / 64 * (64 + 8 * planeN (shFmt r) * planeG (shFmt r) : Nat) + 64 + e % 64 * (planeN (shFmt r) * planeG (shFmt r) / 8 : Nat)).toNat

/-- A group as it stands in memory: its scale byte, and bit `i` of element `j` in plane `i` (R98). -/
def groupIn (s : State) (l : Loc) (r : BitVec 512) (e : Int) (x : Group) : Prop :=
  let n := planeN (shFmt r)
  let g := planeG (shFmt r)
  x.q.length = g ∧ winNat s l (scaleOff r e) 1 = x.e ∧
  ∀ i < n, ∀ j < g, (winNat s l (planesOff r e) (n * g / 8)).testBit (g * i + j) = (BitVec.ofInt n (x.q.getD j 0)).getLsbD i

-- ### Adjoints (R294 to R298)

/-- R295: the words of two sources with an adjoint: where the mask lies in the item, whether the destination's gradient stays, and what the gradients of
the sources gain, from `g` and the saved elements of the sources. -/
noncomputable def adjoints2 : List ((Hdr → Toks → VOpt → VReg → VReg → VReg → Instr) × Nat × Bool × (Nat → Nat → Nat → Nat) × (Nat → Nat → Nat → Nat)) :=
  [(.vadd, 0, false, fun g _ _ => g, fun g _ _ => g), (.vsub, 0, false, fun g _ _ => g, fun g _ _ => toF32 (f32 g).neg),
   (.vmul, 512, false, fun g _ b => mulF32 g b, fun g a _ => mulF32 g a), (.vmad, 512, true, fun g _ b => mulF32 g b, fun g a _ => mulF32 g a)]

/-- R295: those of one source: what its gradient gains, from `g`, the saved element and the saved bit. -/
noncomputable def adjoints1 : List ((Hdr → Toks → VOpt → VReg → VReg → Instr) × Nat × (Nat → Nat → Bool → Nat)) :=
  [(.vrelu, 8, fun g _ p => if p then g else 0), (.vexp2, 256, fun g y _ => mulF32 (mulF32 g y) 0x3F317218),
   (.vrcp, 256, fun g y _ => toF32 (f32 (mulF32 (mulF32 g y) y)).neg),
   (.vtanh, 256, fun g y _ => mulF32 g (toF32 ((f32 0x3F800000).add (f32 (mulF32 y y)).neg)))]

/-- The elements of all vector registers, and what they become where those of one change. -/
abbrev Elems := VReg → Nat → Nat
def elemsOf (k : CoreSt) (w : Nat) : Elems := fun r i => elem (k.rdV r) w i
def changed (G : Elems) (r : VReg) (f : Nat → Nat → Nat) : Elems := fun x i => if x = r then f i (G r i) else G x i
/-- R273: the gradient partner of a register. -/
def partner (r : VReg) : VReg := r + 16

/-- R294: the destination's gradient: on active elements `f` of what stood there; an inactive one stays, or becomes +0 with `ZM`. -/
def destGrad (G : Elems) (o : VOpt) (act : Nat → Bool) (d : VReg) (f : Nat → Nat) : Elems :=
  changed G (partner d) (fun i x => if act i then f x else if o.zm then 0 else x)
/-- R294: a source's gradient, which gains `f i` on active elements, rounded to FP32. -/
def gains (G : Elems) (act : Nat → Bool) (a : VReg) (f : Nat → Nat) : Elems := changed G (partner a) (fun i x => if act i then addF32 x (f i) else x)

/-- The bytes of the item that an adjoint takes from its frame, and its mask (R278, R294). -/
def itemNat (st : Stack) (e : Entry) (off n : Nat) : Nat := leAt (fun j => SMap.get 0 st.bytes j) (e.aux - 1 + off) n
def itemMask (st : Stack) (e : Entry) (o : VOpt) (off i : Nat) : Bool := !o.men || (itemNat st e off 16).testBit i

/-- The adjoint of an entry writes the vector registers that make all elements of width `w` what `G` says, and nothing else. -/
def adjointWrites (c : Nat) (hsave : BitVec 32) (e : Entry) (s t : State) (w : Nat) (G : Elems) : Prop :=
  ∃ wrs : List Wr, runAdjoint hsave c e s = (.ok (.done wrs 0), t) ∧ (∀ x ∈ wrs, ∃ r v m, x = .v r v m) ∧
    ∀ r, ∀ i < 2048 / w, elem ((wrs.foldl Wr.apply (t.core c)).rdV r) w i = G r i

/-- R274: the gradient pointer of a value pointer. -/
def gradientOf (gdisp p : Word) : Word :=
  if (idx p).toNat ≤ 0xFEFF then (idx p + gdisp.extractLsb' 0 16) ++ p.extractLsb' 0 48 else idx p ++ (p.extractLsb' 0 48 + gdisp.extractLsb' 16 48)

/-- R298: what the element at index `i` of row `m` of an operand gains, term by term: `ix` are the nest's iterations as group indices of this operand and
of the other, `c m n` the tile's values, `y n` the other operand's values by their index, below `lim`. -/
def gradTerms (ix : List (Nat × Nat)) (g cols lim : Nat) (c : Nat → Nat → Val) (y : Nat → Nat → Val) (m i : Nat) : List Val :=
  ix.flatMap (fun p => if i / g = p.1 then (List.range cols).filterMap (fun n =>
    let j := g * p.2 + i % g
    if j < lim then some ((c m n).mul (y n j)) else none) else [])

/-- R298: a gradient element of format `f` that gains the exact sum of some terms, rounded once. -/
def gained (f old : Nat) : List Val → Nat
  | [] => old
  | v :: vs => roundFmt f false .rne ((decodeFmt f false old).add (vs.foldl Val.add v)) % 2 ^ fmtWidth f

/-- A word of the loom that changes one nest slot has issued, done its work and completed. -/
def slotDone (s : State) (h : Hdr) (td : SReg) (sl : LReg) (x : Nest) : State :=
  s.setCore s.active ((s.me.wrSlot sl x).finished h [.mq] [] td 0x800000)

/-- The core as a state has it, but for what it notes of the steps of its stack, for a later cut (R278, R362). -/
def steppedTo (u : CoreSt) (s : State) : Prop :=
  u = { s.core s.active with res := { (s.core s.active).res with steps := u.res.steps, log := u.res.log, redo := u.res.redo } }

/-- R260: what an arrival of `n` makes of a gate. -/
def arrived (x : Gate) (n : Nat) : Gate :=
  let ovr := x.ovr || decide (x.init = 0 ∨ x.cnt < n)
  if x.init = 0 ∨ x.cnt = 0 then { x with ovr := ovr }
  else if x.cnt ≤ n then { x with cnt := x.init, phase := (x.phase + 1) % 2 ^ 32, ovr := ovr }
  else { x with cnt := x.cnt - n, ovr := ovr }

/-- R262: a ring of 2^`logn` slots at offset `lo` of a window, its header at offset `off` of the same window, apart from them, which the core may
reach; in the commons both lie in one field (32 MiB). -/
def ringIs (s : State) (ptr : Word) (l : Loc) (off lo logn : Nat) : Prop :=
  (l = .hamlet ∨ l = .commons) ∧ idx ptr = winIdx l ∧ ofs ptr = off ∧ inWindow s l off 64 ∧
  idx (BitVec.ofNat 64 (winNat s l off 8)) = winIdx l ∧ ofs (BitVec.ofNat 64 (winNat s l off 8)) = lo ∧ lo % 8 = 0 ∧
  winNat s l (off + 8) 1 % 32 = logn ∧ 1 ≤ logn ∧ logn ≤ 20 ∧ inWindow s l lo (8 * 2 ^ logn) ∧ (lo + 8 * 2 ^ logn ≤ off ∨ off + 64 ≤ lo) ∧
  (l = .commons → off / 2 ^ 25 = (off + 63) / 2 ^ 25 ∧ lo / 2 ^ 25 = off / 2 ^ 25 ∧ (lo + 8 * 2 ^ logn - 1) / 2 ^ 25 = off / 2 ^ 25)

end Sys2Proof.Spec

section
open Sys2Proof Sys2Proof.Machine

-- ### Scalar words

/-- R170: each two-source operation writes its result to sD and moves past the word; nothing else of the module changes. -/
def Obligations.TwoSourceResults : Prop :=
  ∀ op ∈ Spec.twoSource, ∀ (h : Hdr) (d a b : SReg) (s : State), s.Ready h [d, a, b] →
    exec (op.1 h d a b) s = .next (s.setCore s.active ((s.me.next h).wr d (op.2 (s.me.rd a) (s.me.rd b))))

/-- R171: division never traps, and yields the table's result in every case. -/
def Obligations.DivisionNeverTraps : Prop :=
  ∀ op ∈ Spec.divisions, ∀ (h : Hdr) (d a b : SReg) (s : State), s.Ready h [d, a, b] →
    exec (op.1 h d a b) s = .next (s.setCore s.active ((s.me.next h).wr d (op.2 (s.me.rd a) (s.me.rd b))))

/-- R172: each one-source operation has its function code, with B, C and MOD zero, and writes its result to sD. -/
def Obligations.OneSourceResults : Prop :=
  ∀ op ∈ Spec.oneSource, ∀ (h : Hdr) (d a : SReg) (s : State),
    encode (op.1 h d a) = encR h 0x00 op.2.1 (w7 d) (w7 a) 0 0 0 ∧
    (s.Ready h [d, a] → exec (op.1 h d a) s = .next (s.setCore s.active ((s.me.next h).wr d (op.2.2 (s.me.rd a)))))

/-- R173, R178, R180: `BFX`, `BFX.S` and `BFI` at a position and length that lie in the word; `LEA` forms an address without any check; `PIDX` reads a
pointer's index and `PIDX.SET` replaces it. -/
def Obligations.FieldAndPointerResults : Prop :=
  (∀ (h : Hdr) (d a b : SReg) (pos lenm1 : BitVec 6) (s : State), pos.toNat + lenm1.toNat + 1 ≤ 64 →
    (s.Ready h [d, a] →
      exec (.bfx h d a pos lenm1) s = .next (s.setCore s.active ((s.me.next h).wr d
        (((s.me.rd a).extractLsb' pos.toNat (lenm1.toNat + 1)).zeroExtend 64))) ∧
      exec (.bfxS h d a pos lenm1) s = .next (s.setCore s.active ((s.me.next h).wr d
        (((s.me.rd a).extractLsb' pos.toNat (lenm1.toNat + 1)).signExtend 64)))) ∧
    (s.Ready h [d, a, b] → ∃ x : Word,
      exec (.bfi h d a b pos lenm1) s = .next (s.setCore s.active ((s.me.next h).wr d x)) ∧
      ∀ i < 64, x.getLsbD i = if pos.toNat ≤ i ∧ i ≤ pos.toNat + lenm1.toNat then (s.me.rd b).getLsbD (i - pos.toNat) else (s.me.rd a).getLsbD i)) ∧
  (∀ (h : Hdr) (d a b : SReg) (m : MemOp) (s : State),
    (s.Ready h [d, m.a, m.b] → exec (.lea h d m) s = .next (s.setCore s.active ((s.me.next h).wr d
      ((s.me.rd m.a).extractLsb' 48 16 ++
        BitVec.ofInt 48 (((s.me.rd m.a).extractLsb' 0 48).toNat + (s.me.rd m.b).toInt * 2 ^ m.ks.toNat + m.disp.toInt))))) ∧
    (s.Ready h [d, a] → exec (.pidx h d a) s = .next (s.setCore s.active ((s.me.next h).wr d
      (((s.me.rd a).extractLsb' 48 16).zeroExtend 64)))) ∧
    (s.Ready h [d, a, b] → exec (.pidxSet h d a b) s = .next (s.setCore s.active ((s.me.next h).wr d
      ((s.me.rd b).extractLsb' 0 16 ++ (s.me.rd a).extractLsb' 0 48)))))

/-- R174: the funnel shifts of cat(x, y), with their encodings. -/
def Obligations.FunnelShiftResults : Prop :=
  ∀ (h : Hdr) (d a b c : SReg) (n : BitVec 6) (s : State),
    encode (.fshl h d a b c) = encR h 0x00 0x1E (w7 d) (w7 a) (w7 b) (w7 c) 0 ∧
    encode (.fshr h d a b c) = encR h 0x00 0x1F (w7 d) (w7 a) (w7 b) (w7 c) 0 ∧
    encode (.fshlImm h d a b n) = encR h 0x00 0x1E (w7 d) (w7 a) (w7 b) 0 (0#7 ++ 1#1 ++ n) ∧
    encode (.fshrImm h d a b n) = encR h 0x00 0x1F (w7 d) (w7 a) (w7 b) 0 (0#7 ++ 1#1 ++ n) ∧
    (s.Ready h [d, a, b, c] →
      exec (.fshl h d a b c) s = .next (s.setCore s.active ((s.me.next h).wr d
        (((s.me.rd a ++ s.me.rd b : BitVec 128) <<< ((s.me.rd c).toNat % 64)).extractLsb' 64 64))) ∧
      exec (.fshr h d a b c) s = .next (s.setCore s.active ((s.me.next h).wr d
        (((s.me.rd a ++ s.me.rd b : BitVec 128) >>> ((s.me.rd c).toNat % 64)).extractLsb' 0 64)))) ∧
    (s.Ready h [d, a, b] →
      exec (.fshlImm h d a b n) s = .next (s.setCore s.active ((s.me.next h).wr d
        (((s.me.rd a ++ s.me.rd b : BitVec 128) <<< n.toNat).extractLsb' 64 64))) ∧
      exec (.fshrImm h d a b n) s = .next (s.setCore s.active ((s.me.next h).wr d
        (((s.me.rd a ++ s.me.rd b : BitVec 128) >>> n.toNat).extractLsb' 0 64))))

/-- R175, R177: `SEL` by its own predicate; `LDI`, and the immediate arithmetic and shifts. -/
def Obligations.SelectAndImmediateResults : Prop :=
  (∀ (h : Hdr) (d a b : SReg) (c : PReg) (s : State), s.Ready h [d, a, b] →
    exec (.sel h d a b c) s = .next (s.setCore s.active ((s.me.next h).wr d (if s.me.f.rdP c = true then s.me.rd a else s.me.rd b)))) ∧
  (∀ (h : Hdr) (d : SReg) (imm : Word) (s : State), s.Ready h [d] →
    exec (.ldi h d imm) s = .next (s.setCore s.active ((s.me.next h).wr d imm))) ∧
  (∀ op ∈ Spec.immediates, ∀ (h : Hdr) (d a : SReg) (imm : Word) (s : State), s.Ready h [d, a] →
    exec (op.1 h d a imm) s = .next (s.setCore s.active ((s.me.next h).wr d (op.2 (s.me.rd a) imm)))) ∧
  (∀ op ∈ Spec.shifts, ∀ (h : Hdr) (d a : SReg) (n : BitVec 6) (s : State), s.Ready h [d, a] →
    exec (op.1 h d a n) s = .next (s.setCore s.active ((s.me.next h).wr d (op.2 (s.me.rd a) n.toNat))))

/-- R176: comparisons of two registers, and of a register with an immediate, set pD to their condition; the predicate words. -/
def Obligations.PredicateResults : Prop :=
  (∀ op ∈ Spec.comparisons, ∀ (h : Hdr) (d : PReg) (a b : SReg) (imm : Word) (s : State),
    (s.Ready h [a, b] → ∃ v : Bool, (v = true ↔ op.2.2 (s.me.rd a) (s.me.rd b)) ∧
      exec (op.1 h d a b) s = .next (s.setCore s.active ((s.me.next h).wrP d v))) ∧
    (s.Ready h [a] → ∃ v : Bool, (v = true ↔ op.2.2 (s.me.rd a) imm) ∧
      exec (op.2.1 h d a imm) s = .next (s.setCore s.active ((s.me.next h).wrP d v)))) ∧
  (∀ (h : Hdr) (d a b : PReg) (s : State), s.Ready h [] →
    exec (.pand h d a b) s = .next (s.setCore s.active ((s.me.next h).wrP d (s.me.f.rdP a && s.me.f.rdP b))) ∧
    exec (.por h d a b) s = .next (s.setCore s.active ((s.me.next h).wrP d (s.me.f.rdP a || s.me.f.rdP b))) ∧
    exec (.pnot h d a) s = .next (s.setCore s.active ((s.me.next h).wrP d (!s.me.f.rdP a))))

/-- R179: `PADD` adds to a pointer's offset and keeps its index; a sum outside 48 bits raises BOUNDS with the pointer as faulting pointer. -/
def Obligations.PointerAddResult : Prop :=
  ∀ (h : Hdr) (d a b : SReg) (imm : BitVec 14) (s : State), s.Ready h [d, a, b] →
    let off : Int := ((s.me.rd a).extractLsb' 0 48).toNat + (s.me.rd b).toInt + imm.toInt
    exec (.padd h d a b imm) s = .next
      (if off < 0 ∨ 2 ^ 48 ≤ off then trapAtIssue s.active .bounds 0 (s.me.rd a) s
       else s.setCore s.active ((s.me.next h).wr d ((s.me.rd a).extractLsb' 48 16 ++ BitVec.ofInt 48 off)))

-- ### The module as a whole

/-- The module after a cold start (R324, R435, R447): registers, predicates, engines and queues empty, `QSLIP` at its queue sizes, nothing
provisioned, every channel out of service, `STAGE` 9. Where the spec gives no value (registers, memory) 0 is this model's choice (log
entry 1). The memory is in its canonical form, and no absent
core is named. -/
def Obligations.ResetState : Prop :=
  ((∀ (c : Nat) (r : SReg) (p : PReg), (State.reset.core c).rd r = 0 ∧ (State.reset.core c).f.rdP p = (p == 0) ∧
    (State.reset.core c).ctl.qslip = 0x2010404040 ∧ (State.reset.core c).ctl.tvec = 0 ∧ (State.reset.core c).ctl.tcause = 0 ∧
    (State.reset.core c).ctl.tcut = 0 ∧ (State.reset.core c).ctl.tscratch = 0 ∧ (State.reset.core c).ctl.dbgctl = 0 ∧
    (State.reset.core c).ctl.bevt = 0 ∧ (State.reset.core c).ctl.mdptr = none ∧ (State.reset.core c).ctl.priv = false ∧ (State.reset.core c).q.es = [] ∧
    (State.reset.core c).pend = 0 ∧ (State.reset.core c).res.stack = none ∧ (State.reset.core c).slot.active = false) ∧
  (∀ (c : Nat) (v : VReg) (m : MReg) (h : HReg) (ch : CReg), (State.reset.core c).rdV v = 0 ∧ (State.reset.core c).rdM m = 0 ∧
    ((State.reset.core c).rdH h).bound = false ∧ (State.reset.core c).rdCh ch = 0) ∧
  (∀ p, (State.reset.part p).prov = false) ∧ (∀ a, State.reset.byte a = 0) ∧ State.reset.cycle = 0 ∧
  State.reset.hbm.trn = BitVec.allOnes 2048 ∧ State.reset.mgmt.boot.stage = 9) ∧
  (Memory.wf State.reset.mem = true ∧ State.reset.coresExist = true)

/-- The worked encodings decode, in a core that may run privileged words, to the instructions that they stand for, and those encode to
them. -/
def Obligations.WorkedWordsDecode : Prop :=
  ∀ x ∈ Spec.workedWords, decodeRaw true false ⟨x.1, x.2.1⟩ = .ok x.2.2 ∧ encode x.2.2 = ⟨x.1, x.2.1⟩

/-- R160 to R164: with nothing on the agenda, once the active core's queues have moved, a reeve that may issue and is not in a walk runs the
unit that its fetch reads: the word at the PC, with the word after it when it is an `EXT`, decoded in the core's mode; R157, R158: a unit whose
header asks it to yield while a queue is more than half full waits instead. Then time passes. -/
def Obligations.StepRunsDecoded : Prop :=
  (∀ (s s1 s2 : State) (w : Word) (i : Instr), s.agenda = [] → s.active < 264 → s1 = prepare s.active s →
    s1.active = s.active → s1.mayIssue s1.active = true → s1.me.walking = false → s1.me.slot.ending = false →
    fetchWord s1.active s1.me.f.pc s1 = (.ok w, s2) →
    ((w.extractLsb' 52 6 ≠ 0x3F → decodeRaw (s2.privileged s1.active) (isBailiff s1.active) ⟨none, w⟩ = .ok i →
        step s = (if (s2.core s1.active).yields i then .next (advanceTime s2) else mapNext (exec i s2) advanceTime)) ∧
     (∀ (w2 : Word) (s3 : State), w.extractLsb' 52 6 = 0x3F → w.extractLsb' 58 6 = 0 →
        fetchWord s1.active (advance s1.me.f.pc 8) s2 = (.ok w2, s3) →
        decodeRaw (s3.privileged s1.active) (isBailiff s1.active) ⟨some (w.extractLsb' 0 52), w2⟩ = .ok i →
        step s = (if (s3.core s1.active).yields i then .next (advanceTime s3) else mapNext (exec i s3) advanceTime)))) ∧
  (∀ (k : CoreSt) (i : Instr) (h : Hdr), i.hdr? = some h →
    (k.yields i = true ↔ h.ver = 0 ∧ h.sc.getLsbD 3 = true ∧
      (32 < k.inFlight .lq ∨ 32 < k.inFlight .sq ∨ 32 < k.inFlight .vq ∨ 8 < k.inFlight .mq ∨ 16 < k.inFlight .cq)))

/-- Decode and encode agree on every well-formed instruction that has a word: in a mode that may run it, decoding the bytes of its encoding,
whatever bytes follow, gives it back and leaves what follows. -/
def Obligations.DecodeOfEncode : Prop :=
  ∀ (i : Instr) (priv bailiff : Bool) (rest : List Byte), i.isEvent = false → i.wf = true → (i.privileged = true → priv = true) →
    i.reaches priv = true → (bailiff = true → ¬((encode i).maj = 0x3A ∧ (encode i).fn = 1)) →
    decode priv bailiff ((encode i).bytes ++ rest) = .ok (i, rest)

/-- R164: a word that decodes at all, in either mode, decodes to an instruction that has a word; in user mode never to a privileged one; a privileged
word or register that user code names is ILLOP. -/
def Obligations.UserModeDecode : Prop :=
  (∀ (priv bailiff : Bool) (f : Raw) (i : Instr), decodeRaw priv bailiff f = .ok i → i.isEvent = false ∧ (priv = false → i.privileged = false)) ∧
  (∀ (i : Instr) (bailiff : Bool), i.isEvent = false → i.wf = true → (i.privileged = true ∨ i.reaches false = false) →
    decodeRaw false bailiff (encode i) = .error .illop)

/-- Every step from a state whose memory is in its canonical form, and that names no absent core, leads to such a state. -/
def Obligations.StepKeepsSound : Prop :=
  ∀ s t : State, Memory.wf s.mem = true → s.coresExist = true → step s = .next t → Memory.wf t.mem = true ∧ t.coresExist = true

/-- A step never stops in a state that names no absent core: every instruction and every event answers a next state. That an event whose condition does
not hold changes nothing and answers a next state is the model's choice (log entry 11); so is the one stop, the fault of a core that the module does not
have (log entry 76): R16 and R17 say only which cores there are. -/
def Obligations.StepsNeverStop : Prop :=
  (∀ s : State, s.coresExist = true → ∃ t, step s = .next t) ∧ (∀ (i : Instr) (s : State), ∃ t, exec i s = .next t) ∧
  (∀ s : State, s.agenda = [] → 264 ≤ s.active → step s = .fault .absentCore)

-- ### Predicates, pending registers, frames of scalar units

/-- R155, R156: a scalar word, a control transfer outside a block or a scalar memory word whose predicate does not hold moves the PC past itself and
does nothing else. R21: a scalar word that uses a pending register changes nothing: it is tried again. -/
def Obligations.ScalarIssueConditions : Prop :=
  ((∀ (i : Instr) (h : Hdr) (s : State), Spec.scalarWord i = some h → s.me.taken h = false →
    exec i s = .next (s.setCore s.active (s.me.next h))) ∧
  (∀ (i : Instr) (h : Hdr) (s : State), Spec.transferWord i = some h → s.me.blockOpen = false → s.me.taken h = false →
    exec i s = .next (s.setCore s.active (s.me.next h))) ∧
  (∀ (i : Instr) (h : Hdr) (s : State), Spec.memoryWord i = some h → s.me.taken h = false →
    exec i s = .next (s.setCore s.active (s.me.next h)))) ∧
  (∀ (i : Instr) (h : Hdr) (s : State), Spec.scalarWord i = some h → s.me.taken h = true → s.me.anyPend (Spec.scalarRegs i) = true →
    exec i s = .next s)

/-- R154, R170 to R180: whatever a scalar word does in its core, every other scalar register but its destination, every predicate but its
destination predicate, every special register, queue, engine register and local byte is as before, and so is everything outside the core:
memory, other cores, partitions. A word that traps at issue chooses the trap and is tried again. -/
def Obligations.ScalarFrame : Prop :=
  ∀ (i : Instr) (h : Hdr) (s t : State), Spec.scalarWord i = some h → s.me.q.trap.isSome = false → exec i s = .next t →
    t = s ∨
    (∃ k : CoreSt, t = s.setCore s.active k ∧
      (∀ r : SReg, some r ≠ Spec.scalarDest i → k.rd r = s.me.rd r) ∧
      (∀ p : PReg, some p ≠ Spec.predDest i → k.f.rdP p = s.me.f.rdP p) ∧ k.rd 0 = 0 ∧ k.f.rdP 0 = true ∧
      k.f.blk = s.me.f.blk ∧ k.pend = s.me.pend ∧ k.hpend = s.me.hpend ∧ k.ctl = s.me.ctl ∧ k.eng = s.me.eng ∧ k.loc = s.me.loc ∧
      k.ctx = s.me.ctx ∧ k.slot = s.me.slot ∧ k.res = s.me.res ∧ k.q = s.me.q) ∨
    (Spec.traps i = true ∧ ∃ x, t = trapAtIssue s.active .bounds 0 x s)

-- ### Control (R181 to R185)

/-- R181: where each control transfer goes, outside a block: `BR` and `CALL` to a target relative to their own PC, `JMP` within the PC's index,
`JR` and `RET` to the register, `LOOP` by its counter. -/
def Obligations.TransferResults : Prop :=
  ∀ (h : Hdr) (a : SReg) (imm : BitVec 35) (s : State), s.me.blockOpen = false →
    let o := Spec.relOff s.me.f.pc imm
    (s.Ready h [] → 0 ≤ o → o < 2 ^ 48 → o % 8 = 0 →
      exec (.br h imm) s = .next (s.setCore s.active (s.me.setPc (Spec.at_ s.me.f.pc o)))) ∧
    (s.Ready h [] → exec (.jmp h imm) s = .next (s.setCore s.active (s.me.setPc (Spec.at_ s.me.f.pc (8 * imm.toNat))))) ∧
    (s.Ready h [a] → 0 ≤ o → o < 2 ^ 48 → o % 8 = 0 →
      exec (.call h a imm) s = .next (s.setCore s.active ((s.me.wr a (Spec.at_ s.me.f.pc (Spec.ofs s.me.f.pc + 8))).setPc (Spec.at_ s.me.f.pc o)))) ∧
    (s.Ready h [a] → Spec.ofs (s.me.rd a) % 8 = 0 →
      exec (.jr h a) s = .next (s.setCore s.active (s.me.setPc (s.me.rd a))) ∧
      exec (.ret h a) s = .next (s.setCore s.active (s.me.setPc (s.me.rd a)))) ∧
    (s.Ready h [a] → (s.me.rd a = 1 → exec (.loop h a imm) s = .next (s.setCore s.active ((s.me.next h).wr a 0))) ∧
      (s.me.rd a ≠ 1 → 0 ≤ o → o < 2 ^ 48 → o % 8 = 0 →
        exec (.loop h a imm) s = .next (s.setCore s.active ((s.me.wr a (s.me.rd a - 1)).setPc (Spec.at_ s.me.f.pc o)))))

/-- R181, R163, R272: a transfer in an open block raises FRAME whatever its predicate; a relative target outside 48 bits raises BOUNDS with the
target's low 48 bits, one that is no multiple of 8 ALIGN with the target, both at the transfer. -/
def Obligations.TransferTraps : Prop :=
  (∀ (i : Instr) (h : Hdr) (s : State), Spec.transferWord i = some h → s.me.blockOpen = true →
    exec i s = .next (trapAtIssue s.active .frame 0 0 s)) ∧
  (∀ (i : Instr) (h : Hdr) (imm : BitVec 35) (s : State), Spec.transferWord i = some h → Spec.relWord i = some imm → s.me.blockOpen = false →
    s.Ready h (Spec.transferRegs i) → Spec.branches s.me i = true →
    let o := Spec.relOff s.me.f.pc imm
    ((o < 0 ∨ 2 ^ 48 ≤ o) → exec i s = .next (trapAtIssue s.active .bounds 0 ((BitVec.ofInt 48 o).zeroExtend 64) s)) ∧
    (0 ≤ o → o < 2 ^ 48 → o % 8 ≠ 0 → exec i s = .next (trapAtIssue s.active .align 0 (Spec.at_ s.me.f.pc o) s))) ∧
  (∀ (h : Hdr) (a : SReg) (s : State), s.me.blockOpen = false → s.Ready h [a] → Spec.ofs (s.me.rd a) % 8 ≠ 0 →
    exec (.jr h a) s = .next (trapAtIssue s.active .align 0 (s.me.rd a) s) ∧
    exec (.ret h a) s = .next (trapAtIssue s.active .align 0 (s.me.rd a) s))

/-- R182, R185, R332: `YIELD` goes on once every entry has started, `WAITN` once each queue with a field that is not all ones holds at most so many
incomplete entries, `IDLE` once a bit of `BEVT` is 1, which it does not clear; until then the reeve holds and nothing changes. R183: with `HALTEN`
set, `HALT` halts the reeve of its core and nothing else, the PC after it (that the PC advances and the halt shows as the reeve's role is the
model's choice, log entry 22). -/
def Obligations.ReeveHolds : Prop :=
  (∀ (h : Hdr) (lq sq vq : BitVec 6) (mq cq : BitVec 5) (s : State), s.me.taken h = true →
    let met := (lq = 63 ∨ s.me.inFlight .lq ≤ lq.toNat) ∧ (sq = 63 ∨ s.me.inFlight .sq ≤ sq.toNat) ∧ (vq = 63 ∨ s.me.inFlight .vq ≤ vq.toNat) ∧
      (mq = 31 ∨ s.me.inFlight .mq ≤ mq.toNat) ∧ (cq = 31 ∨ s.me.inFlight .cq ≤ cq.toNat)
    (s.me.allStarted = true → exec (.yield h) s = .next (s.setCore s.active (s.me.next h))) ∧
    (s.me.allStarted = false → exec (.yield h) s = .next s) ∧
    (met → exec (.waitn h lq sq vq mq cq) s = .next (s.setCore s.active (s.me.next h))) ∧
    (¬met → exec (.waitn h lq sq vq mq cq) s = .next s)) ∧
  (∀ (h : Hdr) (s : State), s.me.taken h = true → s.me.ctl.dbgctl.getLsbD 1 = true → ∃ k : CoreSt,
    exec (.halt h) s = .next (s.setCore s.active k) ∧ k.slot.roles.getLsbD 0 = true ∧ (∀ n, 0 < n → k.slot.roles.getLsbD n = s.me.slot.roles.getLsbD n) ∧
    k = { s.me.next h with slot := { s.me.slot with roles := k.slot.roles } } ∧
    ∀ t : State, t.core t.active = k → t.mayIssue t.active = false) ∧
  (∀ (h : Hdr) (s : State), s.privileged s.active = true → s.me.taken h = true →
    (s.me.ctl.bevt = 0 → exec (.idle h) s = .next s) ∧
    (s.me.ctl.bevt ≠ 0 → exec (.idle h) s = .next (s.setCore s.active (s.me.next h))))

-- ### Traps (R361 to R370)
/-- R183, R184, R327: `TRAP`, `BKPT` and a `HALT` that does not halt take their trap, with their cause and code: when every entry has started it
is chosen, with the word itself as faulting unit; until then the reeve holds at it. -/
def Obligations.TrapWordsTrap : Prop :=
  ∀ (i : Instr) (h : Hdr) (cause : Cause) (code : Nat) (s : State), Spec.trapWord s.me i = some (h, cause, code) → s.me.taken h = true →
    s.eager = false →
    ((s.me.q.trap = none → s.me.allStarted = true →
      exec i s = .next (s.setCore s.active { s.me with q := { s.me.q with trap := some ⟨cause, code, 0, s.me.f.pc, 0, 0, true⟩ } })) ∧
     (s.me.q.trap.isSome = true ∨ s.me.allStarted = false → exec i s = .next s))

/-- R362, R366, R367: the cut of a handler-kind trap at a core at rest: the stop record is written at `TCUT` and then the handler runs: `TCAUSE`
holds cause and code, the core is privileged and in a handler, the PC is `TVEC`, the queues are empty, and the field's bailiff is told of a
croft's trap. (A cut with entries in the queues is stated with the stop record's fields.) -/
def Obligations.TrapEntry : Prop :=
  ∀ (s s3 : State) (t : TrapRec) (l : Loc), s.me.q.trap = some t → s.me.q.es = [] → t.cause.fatal = false → t.cause ≠ .preempt → t.cause ≠ .timeout →
    s.me.ctl.inHandler = false →
    let r := s.me.cut
    trapArea s.active (s.setCore s.active r.core) = (.ok l, s3) →
    ∀ s4, writeStop s.active l s.me.ctl.tcut (stopRecord s.me t r (s.privileged s.active) false) s3 = (.ok (), s4) →
    ∃ u : State, exec (.trapTaken s.active) s = .next u ∧ u.mem = s4.mem ∧
      (u.core s.active).f.pc = (s4.core s.active).ctl.tvec ∧ (u.core s.active).ctl.tcause = BitVec.ofNat 64 (Spec.causeCode t.cause + 2 ^ 32 * t.code) ∧
      (u.core s.active).ctl.priv = true ∧ (u.core s.active).ctl.inHandler = true ∧ u.privileged s.active = true ∧ (u.core s.active).q.es = [] ∧
      (u.core s.active).f.s = (s4.core s.active).f.s ∧ (u.core s.active).f.p = (s4.core s.active).f.p ∧
      (s.active < 256 → (u.core (256 + s.active / 32)).ctl.bevt.getLsbD 0 = true)

/-- R366: what a stop record holds, word by word, in every field that R366 gives a width. R362 to R364: what a cut makes of a core: the queues are
empty, the file and the counts are those of before the oldest entry discarded unstarted, or stay when there is none; a held entry is kept, another is
not; with one entry in the queues the retired-prefix counts of its queues stand at its number, and with none, outside a resumption, every count stands
at the number issued. -/
def Obligations.StopRecordFields : Prop :=
  (∀ (k : CoreSt) (t : TrapRec) (r : CutRes) (priv nest : Bool), t.fq < 8 → t.fseq < 2 ^ 32 → t.code < 2 ^ 32 → k.ctx.asid < 2 ^ 16 →
    (∀ pt, k.slot.running = some pt → pt.lid < 2 ^ 32 ∧ pt.x < 2 ^ 24 ∧ pt.y < 2 ^ 24 ∧ pt.z < 2 ^ 24) →
    r.ret.lq < 2 ^ 32 → r.ret.sq < 2 ^ 32 → r.ret.vq < 2 ^ 32 → r.ret.mq < 2 ^ 32 → r.ret.cq < 2 ^ 32 → r.cqdone < 2 ^ 32 → r.cqheld < 2 ^ 32 → r.held < 16 →
    let x := stopRecord k t r priv nest
    let f := fun (n lo w : Nat) => (x.extractLsb' (64 * n + lo) w).toNat
    let pt := k.slot.running.getD ⟨0, 0, 0, 0⟩
    f 0 0 8 = Spec.causeCode t.cause ∧ f 0 8 3 = t.fq ∧ f 0 11 1 = priv.toNat ∧ f 0 12 1 = nest.toNat ∧ f 0 13 1 = 1 ∧ f 0 14 2 = 0 ∧ f 0 16 16 = k.ctx.asid ∧
    f 0 32 32 = pt.lid ∧ f 1 0 32 = pt.x ∧ f 1 32 32 = pt.y ∧ f 2 0 32 = pt.z ∧ f 2 32 32 = t.code ∧ x.extractLsb' 192 64 = r.core.f.pc ∧
    x.extractLsb' 256 64 = t.fptr ∧ x.extractLsb' 320 64 = t.fpc ∧ f 6 0 32 = r.ret.lq ∧ f 6 32 32 = r.ret.sq ∧ f 7 0 32 = r.ret.vq ∧ f 7 32 32 = r.ret.mq ∧
    f 8 0 32 = r.ret.cq ∧ f 8 32 32 = t.fseq ∧ f 9 0 32 = r.cqdone ∧ f 9 32 32 = r.cqheld ∧ f 10 0 4 = r.held ∧ x.toNat < 2 ^ 644) ∧
  (∀ k : CoreSt, let r := k.cut
    r.core.q.es = [] ∧ r.core.q.trap = none ∧ r.core.q.sup = none ∧ r.core.q.heldEs = r.kept ∧ r.core.ctl = k.ctl ∧ r.core.loc = k.loc ∧ r.core.eng = k.eng ∧
    (∀ e, k.oldestUnstarted = some e → e ∈ k.q.es ∧ e.phase = .queued ∧ r.core.f = e.snap ∧ r.core.q.cutCnt = e.seq) ∧
    (k.oldestUnstarted = none → r.core.f = k.f ∧ r.core.q.cutCnt = k.q.issued ∧ r.core.res.stack = k.res.stack) ∧
    (∀ e ∈ k.q.es, e.qs ≠ [] → (e ∈ r.kept ↔ e.heldByCut = true)) ∧
    (k.q.es = [] → k.q.sup = none → r.ret = k.q.issued ∧ r.kept = [] ∧ r.cqheld = 0 ∧ r.held = 0) ∧
    ∀ (e : Entry) (q : QId), k.q.es = [e] → e.inQ q = true → k.q.sup = none → countBefore (e.seq.at q) (k.q.issued.at q) = true →
      r.ret.at q = e.seq.at q)

/-- R368, R369: a nested trap or a fatal cause stops a bailiff: it is reported with its cause, and the bailiff issues nothing any more. On a croft every
launch of its context is ended; when none is active, and nothing of the point is left to be written, the memory has changed by the stop record in the
croft's stop slot alone, the point is gone, and the field's bailiff is told. -/
def Obligations.BailiffTrapStops : Prop :=
  (∀ (s : State) (t : TrapRec), 256 ≤ s.active → s.me.q.trap = some t → s.me.q.es = [] → t.cause ≠ .preempt →
    (t.cause.fatal = true ∨ s.me.ctl.inHandler = true) →
    ∃ u : State, exec (.trapTaken s.active) s = .next u ∧ u.reports = s.reports ++ [(s.active, Spec.causeCode t.cause)] ∧
      (u.core s.active).ctl.stopped = true ∧ u.mayIssue s.active = false ∧ u.mem = s.mem) ∧
  (∀ (s : State) (t : TrapRec), s.active < 256 → s.me.q.trap = some t → s.me.q.es = [] → t.cause ≠ .preempt →
    (t.cause.fatal = true ∨ s.me.ctl.inHandler = true) →
    let slot := descPark s.me.ctx.desc + 0x50000 + 256 * s.active
    let own := (s.part s.me.ctx.part).launches.filter (fun l => l.asid == s.me.ctx.asid)
    s.paWaits slot = false → ∃ u : State, exec (.trapTaken s.active) s = .next u ∧
      ((s.part s.me.ctx.part).launches.all (fun l => l.ended.isNone) = true → ∀ l ∈ own, ∀ x, u.launch? s.me.ctx.part l.lid = some x → x.ended.isSome = true) ∧
      (own = [] → s.me.res.stack = none → s.me.loc.l1 = [] → s.me.slot.active = true → s.me.slot.running.isSome = true →
        let r := s.me.cut
        u.mem = ((s.setCore s.active r.core).physPut slot (natBytes 256 (stopRecord s.me t r (s.privileged s.active) s.me.ctl.inHandler).toNat)).mem ∧
        (u.core s.active).slot.running = s.me.slot.staged ∧ (u.core s.active).slot.active = false ∧
        (u.core (256 + s.active / 32)).ctl.bevt.getLsbD 0 = true))

-- ### Privileged words and control registers (R164, R323 to R328, R332)

/-- R164, R323: in user mode every privileged word raises ILLOP, and so does reading or writing a control register that user mode may not. R329 to R336:
what system words do in privileged mode, at a core at rest without L1 lines, whose words' work follows in their step (log entry 2): `PROBE` of a byte of a
local window; `PARK` and `WAKE` of a croft without a point; `CUT.SAVE` of one; `MMU.INV`, `MMU.SYNC` and `MMU.WALK`; `KEY.LOAD` from a local window and
`KEY.KILL`. -/
def Obligations.UserModeIllop : Prop :=
  (∀ (s : State), s.privileged s.active = false →
    (∀ i : Instr, i.privileged = true → i.isEvent = false → exec i s = .next (trapAtIssue s.active .illop 0 0 s)) ∧
    (∀ (h : Hdr) (d : SReg) (r : Ctl) (imm : Word), (r.readable false = false → exec (.ctlRd h d r) s = .next (trapAtIssue s.active .illop 0 0 s)) ∧
      (r.writable false = false → exec (.ctlWr h r d) s = .next (trapAtIssue s.active .illop 0 0 s) ∧
        exec (.ctlWrImm h r imm) s = .next (trapAtIssue s.active .illop 0 0 s)))) ∧
  (∀ (h : Hdr) (tk : Toks) (d a b n : SReg) (pw allas allva : Bool) (l : Loc) (off : Nat) (s : State), s.Quiet h → s.eager = true →
    s.privileged s.active = true → s.me.loc.l1 = [] →
    let x := { s with writes := s.writes.map (fun w => if w.by_.core = s.active then { w with past := true } else w) }
    let k := Spec.released 2 s.me
    let part := s.part s.me.ctx.part
    let done := fun (t : State) (wrs : List Wr) (word : Word) => (.next (t.setCore s.active (k.finished h [.lq, .sq] wrs tk.td word)) : Out)
    let local_ := l ≠ .lane ∧ Spec.idx (s.me.rd a) = Spec.winIdx l ∧ Spec.ofs (s.me.rd a) = off
    (local_ → Spec.inWindow s l off 1 → exec (.probe h tk d a pw) s = done x [.s d 0] 0x800000) ∧
    (local_ → l = .hamlet ∨ l = .commons → ¬Spec.inWindow s l off 1 → exec (.probe h tk d a pw) s = done x [.s d 3] 0x800000) ∧
    (0xFF00 ≤ (Spec.idx (s.me.rd a)).toNat → (Spec.idx (s.me.rd a)).toNat < 0xFFF0 → exec (.probe h tk d a pw) s = done x [.s d 4] 0x800000) ∧
    (let t := ((s.me.rd a).extractLsb' 0 8).toNat
     let y := s.core t
     let moved := fun (i : Instr) (y' : CoreSt) => ∃ u, exec i s = .next u ∧ u.core t = y' ∧ u.core s.active = k.finished h [.lq, .sq] [] tk.td 0x800000 ∧
       u.mem = s.mem ∧ u.part s.me.ctx.part = part ∧ ∀ c, c ≠ t → c ≠ s.active → u.core c = s.core c
     t ≠ s.active → ((s.me.rd a).extractLsb' 8 9).toNat = s.devid → part.hset.getLsbD (t / 16) = true → y.slot.reqs = [] → y.loc.l1 = [] →
       (y.slot.running = none → y.slot.staged = none → moved (.park h tk a) { y with slot := { y.slot with parked := true, gated := true } }) ∧
       moved (.wake h tk a) { y with
         slot := { y.slot with parked := false, gated := false }
         ctl := { y.ctl with bevt := if y.slot.gated then y.ctl.bevt else y.ctl.bevt ||| 8 } }) ∧
    (exec (.mmuSync h tk) s = done { x with wheld := [] } [] 0x800000) ∧
    (let id := ((s.me.rd a).extractLsb' 0 16).toNat
     let inside := part.tb.asidbase ≤ id ∧ id < part.tb.asidbase + part.tb.ctxcnt
     let v := coverOf part id (s.me.rd b) (s.me.rd n) allas allva
     ((allas = true ∨ inside) → (∀ y ∈ s.cores, y.2.loc.l1 = []) → SMap.wf [] s.tlb2 = true → SMap.wf [] s.tlb3 = true → v.pages * v.asids < 2 ^ 40 → ∃ u, exec (.mmuInv h tk a b n allas allva) s = .next u ∧
       (∀ c, (u.core c).ctx.tlb = (s.core c).ctx.tlb.filter (fun e => !v.drops e.1)) ∧ (∀ g, SMap.get [] u.tlb2 g = (SMap.get [] s.tlb2 g).filter (fun e => !v.drops e.1)) ∧
       (∀ g, SMap.get [] u.tlb3 g = (SMap.get [] s.tlb3 g).filter (fun e => !v.drops e.1)) ∧ u.pulls = s.pulls.filter (fun p => !v.has p.asid p.page 1) ∧
       u.mem = s.mem ∧ (u.core s.active).rd tk.td = if tk.td = 0 then 0 else BitVec.ofNat 64 (0x800000 + 2 ^ 24 * (v.pages * v.asids))) ∧
     (inside → s.paWaits (s.descAddr s.me.ctx.part id) = false → ∀ desc, s.descRead s.me.ctx.part id = .ok desc →
       let r := x.walkBy x.homeEntry part (descRoot desc) ((s.me.rd b).extractLsb' 0 52).toNat
       ∀ e level, ((∃ addr, r.1 = .leaf e level addr) ∨ r.1 = .unmapped e level) → level < 256 →
         exec (.mmuWalk h tk d a b) s = done ((x.touched (s.descAddr s.me.ctx.part id) 128 0).walkRead r) [.s d (BitVec.ofNat 64 e)]
           (BitVec.ofNat 64 (0x800000 + 256 * level)))) ∧
    (let key := ((s.me.rd b).extractLsb' 0 12).toNat
     key ≠ 0 → keyOk part key = true →
       (SMap.get 0 s.keys key = 0 → local_ → Spec.inWindow s l off 64 → off % 64 = 0 → s.lbad = [] → exec (.keyLoad h tk b a) s =
         done (journalKey s.active key { x with keys := SMap.set 0 s.keys key (Spec.winNat s l off 64 + 1) }) [] 0x800000) ∧
       ∃ u, exec (.keyKill h tk b) s = .next u ∧ SMap.get 0 u.keys key = 0 ∧ (∀ i, i ≠ key → SMap.get 0 u.keys i = SMap.get 0 s.keys i) ∧
         (SMap.get 0 s.keys key ≠ 0 → SMap.wf .zero s.lines = true → part.jn.jlog < 6 →
           (∀ i, SMap.get .zero u.lines i = let y := SMap.get .zero s.lines i
             if y.dirty = key + 1 then { y with dirty := 0, poison := true, got := 0 } else y) ∧
           (s.lines.length < 2 ^ 40 → tk.td ≠ 0 →
             (u.core s.active).rd tk.td = BitVec.ofNat 64 (0x800000 + 2 ^ 24 * s.lines.countP (fun y => y.2.dirty == key + 1)))))) ∧
  ∀ (c : Nat) (e : Entry) (s s1 s2 u : State) (t : Nat) (z : Loc × Nat), target c (e.x 0) s = (.ok t, s) →
    request t (.of c e false) s = (.ok true, s1) → areaReady c e .wr s1 = (.ok z, s2) → (s2.core t).slot.active = false →
    answerRequest t (.of c e false) s2 = (.ok (), u) → runCutSave c e s = (.ok (.done [] 0x800000), u)

/-- R324, R326, R327: what `CTL.RD` writes for each control register; reading `BEVT` clears it, and nothing else that is read changes. -/
def Obligations.ControlReads : Prop :=
  ∀ (h : Hdr) (d : SReg) (r : Ctl) (s : State), s.Ready h [d] → r.readable (s.privileged s.active) = true →
    ∃ x : Word, exec (.ctlRd h d r) s = .next (s.setCore s.active (
      let k := (s.me.next h).wr d x
      if r = .bevt then { k with ctl := { k.ctl with bevt := 0 } } else k)) ∧
    (match r with
     | .ptx => ∀ pt, s.me.slot.running = some pt → x = BitVec.ofNat 64 pt.x
     | .pty => ∀ pt, s.me.slot.running = some pt → x = BitVec.ofNat 64 pt.y
     | .ptz => ∀ pt, s.me.slot.running = some pt → x = BitVec.ofNat 64 pt.z
     | .kseed => ∀ pt l, s.me.slot.running = some pt → s.launch? s.me.ctx.part pt.lid = some l →
         x.extractLsb' 0 40 = BitVec.ofNat 40 (pt.x + rcEx l.rec_ * (pt.y + rcEy l.rec_ * pt.z)) ∧ x.extractLsb' 40 24 = BitVec.ofNat 24 pt.lid
     | .qslip => x = s.me.ctl.qslip
     | .devid => x = BitVec.ofNat 64 (s.devid % 512)
     | .blkst => s.me.f.blk.dir < 4 → x.getLsbD 0 = s.me.f.blk.opened ∧ (x.extractLsb' 1 2).toNat = s.me.f.blk.dir ∧
         (x.extractLsb' 3 8).toNat = s.me.f.blk.seeds % 256 ∧ x.getLsbD 11 = s.me.res.stack.isSome ∧
         (∀ st, s.me.res.stack = some st → x.extractLsb' 12 12 = BitVec.ofNat 12 st.id) ∧ (s.me.res.stack = none → x.extractLsb' 12 12 = 0) ∧
         x.extractLsb' 24 40 = 0
     | .blkpc => x = s.me.f.blk.pc
     | .blkcur => x = BitVec.ofNat 64 s.me.f.blk.cur
     | .cycle => x = s.cycle
     | .tvec => x = s.me.ctl.tvec
     | .tcause => x = s.me.ctl.tcause
     | .tcut => x = s.me.ctl.tcut
     | .tscratch => x = s.me.ctl.tscratch
     | .dbgctl => x = s.me.ctl.dbgctl
     | .asid => x = BitVec.ofNat 64 (s.me.ctx.asid % 65536)
     | .partn => x = BitVec.ofNat 64 (s.me.ctx.part % 16)
     | .bevt => x = s.me.ctl.bevt.zeroExtend 64)

/-- R325, R326, R327: `CTL.WR` of a register, and of an immediate, to any register that the mode may write: until every entry issued before it has
started the reeve holds and nothing changes; then it completes, whatever is written. Each field of `QSLIP` takes its own bits of the value, kept
between 1 and its queue's size, and every bit outside the fields is zero. -/
def Obligations.ControlWrites : Prop :=
  (∀ (h : Hdr) (r : Ctl) (a : SReg) (s : State), r.writable (s.privileged s.active) = true → s.Ready h [a] →
    (s.me.allStarted = false → exec (.ctlWr h r a) s = .next s) ∧
    (s.me.allStarted = true → ∃ t, exec (.ctlWr h r a) s = .next t ∧ Spec.ctlWritten s t h r (s.me.rd a))) ∧
  (∀ (h : Hdr) (r : Ctl) (imm : Word) (s : State), r.writable (s.privileged s.active) = true → s.Ready h [] →
    (s.me.allStarted = false → exec (.ctlWrImm h r imm) s = .next s) ∧
    (s.me.allStarted = true → ∃ t, exec (.ctlWrImm h r imm) s = .next t ∧ Spec.ctlWritten s t h r imm)) ∧
  (∀ r : Ctl, (r.writable false = true ↔ r = .qslip) ∧ (r.writable true = true ↔ r ∈ [.qslip, .tvec, .tcause, .tcut, .tscratch, .dbgctl]))

/-- R328, R370: `TRET` waits for the handler's engine entries; then, with the record that stands at `TCUT`, it leaves the handler: user mode (a bailiff
stays privileged), the PC of the record or of sA, the entries that the cut held back at the front of the queues, each queued again with its word,
operands and numbers, the faulting one as a null entry when the record's `RESTART` is 0; behind them the handler's joining `TOK.WAIT`s (R246); the rest
of what the record counts as retired is to be suppressed. That the context's `DBGCTL` is taken is R325 as log entry 55 reads it. R370: a unit whose
number the record suppresses is passed over: nothing changes but the PC and the counts. -/
def Obligations.TrapReturn : Prop :=
  ∀ (h : Hdr) (a : SReg) (s s1 : State) (r : StopRec), s.privileged s.active = true → s.Ready h [a] →
    (s.me.q.es.any Entry.engine = true → exec (.tret h a) s = .next s) ∧
    (∀ (l : Loc) (bs : List Byte) (s0 s2 : State), s.me.q.es.any Entry.engine = false →
      checkSpan s.active .copy .rd s.me.ctl.tcut (Spec.ofs s.me.ctl.tcut) (Spec.ofs s.me.ctl.tcut + 255) s = (.ok l, s0) →
      Spec.ofs s.me.ctl.tcut % 256 = 0 → flushSpan s.active l false (Spec.ofs s.me.ctl.tcut) (Spec.ofs s.me.ctl.tcut + 255) s0 = (.ok (), s1) →
      homeRead s.active l .rd s.me.ctl.tcut (Spec.ofs s.me.ctl.tcut) 256 s1 = (.ok bs, s2) →
      r = StopRec.of (BitVec.ofNat 2048 (leNat bs)) →
      ∃ u : State, exec (.tret h a) s = .next u ∧ u.mem = s2.mem ∧ (u.core s.active).f.pc = (if a = 0 then r.pc else s.me.rd a) ∧
        (u.core s.active).ctl.inHandler = false ∧ (u.core s.active).ctl.priv = false ∧ (u.core s.active).q.sup = some r.sup ∧ (u.core s.active).q.trap = none ∧
        (u.core s.active).q.issued = (s2.core s.active).q.cutCnt ∧
        (let held := (s2.core s.active).q.heldEs
         (u.core s.active).q.es.drop held.length = (s2.core s.active).q.es ∧ ∀ (i : Nat) (e : Entry), held[i]? = some e → ∃ e' : Entry, (u.core s.active).q.es[i]? = some e' ∧
           e'.op = e.op ∧ e'.pc = e.pc ∧ e'.qs = e.qs ∧ e'.seq = e.seq ∧ e'.td = e.td ∧ e'.xs = e.xs ∧ e'.hs = e.hs ∧
           (e.qs ≠ [] → e'.phase = .queued ∧ e'.held = false ∧ e'.waits = [] ∧
             (e'.null = true ↔ e.null = true ∨ (r.restart = false ∧ ∃ q ∈ e.qs, q.fq = r.fq ∧ e.seq.at q = r.fseq)))) ∧
        (u.core s.active).ctl.dbgctl = u.dbgctl (u.core s.active).ctx.asid (u.core s.active).ctx.desc ∧ (u.core s.active).f.s = (s2.core s.active).f.s) ∧
    (∀ (i : Instr) (q : Spec.Queued) (x : Suppress), Spec.queued s i = some q → Spec.movesStack i = false → s.me.inBlock = false →
      (i.privileged = true → s.privileged s.active = true) → (Spec.memoryWord i).isSome = true ∨ s.me.blockOpen = false → s.me.taken q.h = true →
      s.me.hpend = 0 → s.me.res.redo = [] → s.me.q.sup = some x → x.covers s.me.q.issued q.qs = true → ∃ k : CoreSt,
      exec i s = .next (s.setCore s.active k) ∧ k.f.pc = (s.me.next q.h).f.pc ∧ k.f.s = s.me.f.s ∧ k.pend = s.me.pend ∧ k.q.es = s.me.q.es ∧
      k.q.issued = s.me.q.issued.bumps q.qs ∧ k.loc = s.me.loc ∧ k.eng = s.me.eng ∧ k.ctl = s.me.ctl)

-- ### Scalar memory (R186 to R196), at a core at rest, each word's work done in its step

/-- R188, R189: loads through the CROFT, HAMLET and COMMONS windows: the bytes at the address, extended to 64 bits; a 16-byte load fills a pair. Nothing
else changes. R59, R105: a load through a buffer takes the bytes of the line that the L1 holds, and otherwise of the line at home, which the L1 then
holds. R192: a prefetch through a window or a reserved index does nothing but retire. Each at a core at rest whose words' work follows in their step
(log entry 2). -/
def Obligations.ScalarLoads : Prop :=
  (∀ (h : Hdr) (d : SReg) (m : MemOp) (l : Loc) (s : State) (off : Nat), s.Quiet h → s.eager = true → s.lbad = [] →
    (∀ op ∈ Spec.loads, Spec.inStore s m l op.2.1 off →
      exec (op.1 h d m) s = .next (s.setCore s.active (s.me.finished h [.lq]
        [.s d (let x := BitVec.ofNat (8 * op.2.1) (Spec.winNat s l off op.2.1); if op.2.2 then x.signExtend 64 else x.zeroExtend 64)] 0 0))) ∧
    (Spec.inStore s m l 16 off →
      exec (.ldQ h d m) s = .next (s.setCore s.active (s.me.finished h [.lq]
        [.s d (BitVec.ofNat 64 (Spec.winNat s l off 8)), .s (d + 1) (BitVec.ofNat 64 (Spec.winNat s l (off + 8) 8))] 0 0)))) ∧
  (∀ (h : Hdr) (d : SReg) (m : MemOp) (s : State) (off : Nat) (b : BitVec 256) (pl : Place), s.Quiet h → s.eager = true →
    ∀ op ∈ Spec.loads, Spec.inBuffer s m .rd op.2.1 off b pl →
      let line := pl.pa / 256
      let value := fun (x : BitVec 2048) =>
        let v := BitVec.ofNat (8 * op.2.1) (Spec.lineNat x (pl.pa % 256) op.2.1); if op.2.2 then v.signExtend 64 else v.zeroExtend 64
      (∀ x, s.me.l1Get line = some x → ∃ g, Spec.lineIs s.me g line (x.via pl.page) ∧
        exec (op.1 h d m) s = .next (s.setCore s.active (g.finished h [.lq] [.s d (value x.data)] 0 0))) ∧
      (∀ x, s.me.l1Get line = none → s.me.loc.l1.length < 512 → s.clsWaits pl.cls pl.pa = false → s.homeLine line pl.key pl.compr = .ok x →
        ∃ g, Spec.lineIs s.me g line ⟨x, 0, none, pl.key, pl.compr, [pl.page], pl.cls, []⟩ ∧
        exec (op.1 h d m) s = .next ((s.retag line pl.key).setCore s.active (g.finished h [.lq] [.s d (value x)] 0 0)))) ∧
  (∀ (h : Hdr) (m : MemOp) (s : State), s.Quiet h → s.eager = true → 0xFF00 ≤ (Spec.idx (s.me.rd m.a)).toNat →
    exec (.pfL1 h m) s = .next (s.setCore s.active (s.me.finished h [.lq] [] 0 0)) ∧
    exec (.pfMsc h m) s = .next (s.setCore s.active (s.me.finished h [.lq] [] 0 0)))

/-- R188, R189: stores through the CROFT, HAMLET and COMMONS windows: the low bytes of the register, or of the pair, at the address that the operand
forms; every other byte of the local memories, and everything else but the record of racing writes, as before. R59, R105: a store through a buffer
to a line that the L1 holds changes the line's bytes and marks them dirty; memory stays. Each at a core at rest whose words' work follows in their
step (log entry 2). -/
def Obligations.ScalarStores : Prop :=
  (∀ (h : Hdr) (c : SReg) (m : MemOp) (l : Loc) (s : State) (off : Nat), s.Quiet h → s.eager = true →
    (∀ op ∈ Spec.stores, Spec.inStore s m l op.2 off → ∃ t, exec (op.1 h c m) s = .next t ∧
      Spec.stored s t l off op.2 (s.me.rd c).toNat s.me (fun g => g.finished h [.sq] [] 0 0)) ∧
    (Spec.inStore s m l 16 off → ∃ t, exec (.stQ h c m) s = .next t ∧
      Spec.stored s t l off 16 ((s.me.rd c).toNat + 2 ^ 64 * (s.me.rd (c + 1)).toNat) s.me (fun g => g.finished h [.sq] [] 0 0))) ∧
  (∀ (h : Hdr) (c : SReg) (m : MemOp) (s : State) (off : Nat) (b : BitVec 256) (pl : Place) (x : L1Line), s.Quiet h → s.eager = true →
    s.me.l1Get (pl.pa / 256) = some x →
    (∀ op ∈ Spec.stores, Spec.inBuffer s m .wr op.2 off b pl → ∃ g y, Spec.lineIs s.me g (pl.pa / 256) y ∧
      Spec.lineStored x y pl (pl.pa % 256) op.2 ((s.me.rd c).toNat % 256 ^ op.2) ∧
      exec (op.1 h c m) s = .next (s.setCore s.active (g.finished h [.sq] [] 0 0))) ∧
    (Spec.inBuffer s m .wr 16 off b pl → ∃ g y, Spec.lineIs s.me g (pl.pa / 256) y ∧
      Spec.lineStored x y pl (pl.pa % 256) 16 ((s.me.rd c).toNat + 2 ^ 64 * (s.me.rd (c + 1)).toNat) ∧
      exec (.stQ h c m) s = .next (s.setCore s.active (g.finished h [.sq] [] 0 0))))

/-- R190, R115, R116, R118: an acquiring load loads, and at every scope but C drops the clean lines of its L1; a releasing store, at scope C over any
L1 and at the others over an empty one, makes its release and stores. Both advance LQ and SQ by one entry. At a core at rest whose words' work
follows in their step (log entry 2). -/
def Obligations.AcquireLoadReleaseStore : Prop :=
  ∀ (h : Hdr) (r : SReg) (m : MemOp) (l : Loc) (sc : BitVec 2) (s : State) (off : Nat), s.Quiet h → s.eager = true → s.lbad = [] →
    let qs := [QId.lq, QId.sq]
    let dropped := Spec.acquired sc s.me
    (∀ op ∈ Spec.acquiring, Spec.inStore s m l op.2 off →
      exec (op.1 h r m sc) s = .next (s.setCore s.active (dropped.finished h qs [.s r (BitVec.ofNat 64 (Spec.winNat s l off op.2))] 0 0))) ∧
    (Spec.inStore s m l 16 off → exec (.ldAcqQ h r m sc) s = .next (s.setCore s.active (dropped.finished h qs
      [.s r (BitVec.ofNat 64 (Spec.winNat s l off 8)), .s (r + 1) (BitVec.ofNat 64 (Spec.winNat s l (off + 8) 8))] 0 0))) ∧
    (sc = 0 ∨ s.me.loc.l1 = [] → s.me.loc.plog.length < 32 →
      (∀ op ∈ Spec.releasing, Spec.inStore s m l op.2 off → ∃ t, exec (op.1 h r m sc) s = .next t ∧
        Spec.stored s t l off op.2 (s.me.rd r).toNat (Spec.released sc s.me) (fun g => g.finished h qs [] 0 0)) ∧
      (Spec.inStore s m l 16 off → ∃ t, exec (.stRelQ h r m sc) s = .next t ∧
        Spec.stored s t l off 16 ((s.me.rd r).toNat + 2 ^ 64 * (s.me.rd (r + 1)).toNat) (Spec.released sc s.me) (fun g => g.finished h qs [] 0 0)))

/-- R193, R194: atomics through the CROFT, HAMLET and COMMONS windows: the register gets what stood there, and the operation's result replaces it; a
compare-and-swap writes only when what stood there equals its register. Nothing else changes. R126, R130: one through a buffer, at another scope than
C, reads and writes at home, with no line of the L1 held there. At a core at rest whose words' work follows in their step (log entry 2). -/
def Obligations.Atomics : Prop :=
  (∀ (h : Hdr) (d c : SReg) (m : MemOp) (l : Loc) (sc : BitVec 2) (s : State) (off : Nat), s.Quiet h → s.eager = true → s.lbad = [] →
    (∀ op ∈ Spec.atomics, Spec.inStore s m l op.2.1 off →
      let old := Spec.winNat s l off op.2.1
      ∃ t, exec (op.1 h d m c sc) s = .next t ∧ Spec.stored s t l off op.2.1 (op.2.2 old ((s.me.rd c).toNat % 256 ^ op.2.1)) s.me
        (fun g => g.finished h [.sq] [.s d (BitVec.ofNat 64 old)] 0 0)) ∧
    (∀ op ∈ Spec.swapsIfEqual, Spec.inStore s m l op.2 off →
      let old := Spec.winNat s l off op.2
      ∃ t, exec (op.1 h d m c sc) s = .next t ∧
      Spec.stored s t l off op.2 (if old = (s.me.rd d).toNat % 256 ^ op.2 then (s.me.rd c).toNat % 256 ^ op.2 else old) s.me
        (fun g => g.finished h [.sq] [.s d (BitVec.ofNat 64 old)] 0 0)) ∧
    (Spec.inStore s m l 16 off →
      let old := Spec.winNat s l off 16
      ∃ t, exec (.amoCasQ h d m c sc) s = .next t ∧
      Spec.stored s t l off 16 (if old = (s.me.rd d).toNat + 2 ^ 64 * (s.me.rd (d + 1)).toNat
        then (s.me.rd c).toNat + 2 ^ 64 * (s.me.rd (c + 1)).toNat else old) s.me
        (fun g => g.finished h [.sq] [.s d (BitVec.ofNat 64 old), .s (d + 1) (BitVec.ofNat 64 (old / 2 ^ 64))] 0 0)) ∧
    (Spec.inStore s m l 4 off →
      let old := Spec.winNat s l off 4
      ∃ t, exec (.amoFaddW h d m c sc) s = .next t ∧ Spec.stored s t l off 4 (addF32 old ((s.me.rd c).toNat % 2 ^ 32)) s.me
        (fun g => g.finished h [.sq] [.s d (BitVec.ofNat 64 old)] 0 0))) ∧
  (∀ (h : Hdr) (d c : SReg) (m : MemOp) (sc : BitVec 2) (s s' : State) (off : Nat) (b : BitVec 256) (pl : Place) (bs : List Byte), s.Quiet h →
    s.eager = true → sc ≠ 0 → (∀ e lv ad, s.leafAt s.active (bufBase b + off) .at = .leaf e lv ad → ptePull e = false) →
    s.me.l1Get (pl.pa / 256) = none → s.clsWaits pl.cls pl.pa = false →
    ∀ op ∈ Spec.atomics, Spec.inBuffer s m .at op.2.1 off b pl → s.mixed s.active pl.pa op.2.1 = false →
      s.homeBytes pl.pa op.2.1 pl.key pl.compr = .ok bs →
      s.homePut pl.pa pl.key pl.compr (natBytes op.2.1 (op.2.2 (leNat bs) ((s.me.rd c).toNat % 256 ^ op.2.1))) = .ok s' →
      ∃ t, exec (op.1 h d m c sc) s = .next t ∧ t.mem = s'.mem ∧ (∀ x, x ≠ s.active → t.core x = s.core x) ∧
        t.core s.active = s.me.finished h [.sq] [.s d (BitVec.ofNat 64 (leNat bs))] 0 0)

/-- R187, R62, R63: where an access to the croft store does not lie in the core's part of it, its entry raises BOUNDS; where it is not aligned,
ALIGN; both with the address as faulting pointer, and nothing has changed. Stated of the address check that the work of every scalar access begins
with, while a stack is bound (the hot segment is then no part of the store). R64: outside its context's grant an access through HAMLET or COMMONS
raises BOUNDS. R62, R191: one through LANE, through a reserved index, or in user mode through PORT raises RIGHTS. -/
def Obligations.AccessTraps : Prop :=
  (∀ (c : Nat) (m : MemOp) (x y : Word) (n off : Nat) (a : Acc) (s : State), n ∈ [1, 2, 4, 8, 16] → Spec.idx x = 0xFFF0 → (s.core c).res.stack.isSome = true →
    (Spec.ofs x : Int) + y.toInt * 2 ^ m.ks.toNat + m.disp.toInt = off → off < 2 ^ 48 →
    ((if 256 ≤ c then 0x170000 else 1024 * (s.core c).slot.csneed) < off + n →
      scalarAddr c a m x y n s = (.error (.trap .bounds (Spec.at_ x off)), s)) ∧
    (off + n ≤ (if 256 ≤ c then 0x170000 else 1024 * (s.core c).slot.csneed) → (s.core c).slot.csneed ≤ 1472 → off % n ≠ 0 →
      scalarAddr c a m x y n s = (.error (.trap .align (Spec.at_ x off)), s))) ∧
  (∀ (c : Nat) (m : MemOp) (x y : Word) (n off : Nat) (a : Acc) (s : State), n ∈ [1, 2, 4, 8, 16] →
    (Spec.ofs x : Int) + y.toInt * 2 ^ m.ks.toNat + m.disp.toInt = off → off < 2 ^ 48 →
    let hg := descHg (s.core c).ctx.desc
    let cg := descCg (s.core c).ctx.desc
    let stops := fun (t : Cause) => scalarAddr c a m x y n s = (.error (.trap t (Spec.at_ x off)), s)
    (Spec.idx x = 0xFFF1 → (off < hg.1 ∨ hg.1 + hg.2 < off + n ∨ 2 ^ 23 < off + n) → stops .bounds) ∧
    (Spec.idx x = 0xFFF2 → (off < cg.1 ∨ cg.1 + cg.2 < off + n ∨ 2 ^ 28 < off + n) → stops .bounds) ∧
    (0xFF00 ≤ (Spec.idx x).toNat → Spec.idx x ≠ 0xFFF0 → Spec.idx x ≠ 0xFFF1 → Spec.idx x ≠ 0xFFF2 → Spec.idx x ≠ 0xFFF8 → stops .rights) ∧
    (Spec.idx x = 0xFFF8 → s.privileged c = false → stops .rights))

-- ### Words that enter queues
/-- R18, R21, R168, R245, R250, R329: at a core at rest a word enters its queues, with its operands as they stand and nothing done yet: the PC and
the counts advance, its token and its destinations become pending, and nothing else of the module changes. Words with checks at issue: where
those pass. A word that the mode may not run raises ILLOP instead (stated of its own). Stated where the device leaves the entry's work for a later step
(log entry 2). -/
def Obligations.WordsEnterQueues : Prop :=
  ∀ (i : Instr) (q : Spec.Queued) (s : State), Spec.queued s i = some q → Spec.movesStack i = false → s.Quiet q.h → s.eager = false →
    (i.privileged = true → s.privileged s.active = true) →
    Spec.issueCheck i s.active (q.srcs.map s.me.rd) (q.hnds.map s.me.rdH) s = (.ok (), s) →
    ∃ e : Entry, exec i s = .next (s.setCore s.active (s.me.enqueue q.h e)) ∧ Spec.asIssued e i q s

/-- R18, R19, R23, R110: with nothing before it a word's work follows in the same step where the device is that quick (log entry 2): what `perform`,
the work of entries, makes of its entry, as it starts and with the rotation past its core, is the next state, with the writes and the completion
word that it answers in the registers. -/
def Obligations.QueuedWorkCompletes : Prop :=
  ∀ (i : Instr) (q : Spec.Queued) (s : State), Spec.queued s i = some q → Spec.movesStack i = false → s.Quiet q.h → s.eager = true →
    (i.privileged = true → s.privileged s.active = true) →
    Spec.issueCheck i s.active (q.srcs.map s.me.rd) (q.hnds.map s.me.rdH) s = (.ok (), s) →
    ∃ e : Entry, Spec.asIssued e i q s ∧ ∀ (s' : State) (g : CoreSt) (wrs : List Wr) (word : Word),
      let s0 := s.setCore s.active (s.me.enqueue q.h e)
      perform s.active (e.starting s.active s0) (s0.working s.active e) = (.ok (.done wrs word), s') →
      s'.core s.active = g.enqueue q.h e → g.q.es = [] → g.pend = 0 → g.hpend = 0 → g.q.trap = none → g.q.sup = none →
      (∀ d ∈ copyCores (hamletOf s.active), d ≠ s.active → (s'.core d).q.es = []) →
      exec i s = .next ({ s' with author := none }.setCore s.active (g.finished q.h q.qs wrs q.t.td word))

/-- R156: a word of format T that is predicated off enters its queues as a null entry, which does nothing but write SKIP into its token (in the same
step where the device is that quick: log entry 2). One that enters no queue falls through, a `TOK.WAIT` with a token register writing SKIP into it:
`YIELD`, `WAITN`, `HALT`, `BKPT`, `TRAP`, `TRET`, `IDLE`, control register words, `TOK.CLR`, `PT.DONE`, `PT.SELF`, `CH.QRY` and the words of blocks and stacks that
act at issue (outside a block, `PT.DONE` on a croft: elsewhere they raise FRAME and ILLOP at decode). Scalar words, transfers and scalar memory words are
O16's. -/
def Obligations.PredicatedOffSkips : Prop :=
  (∀ (i : Instr) (q : Spec.Queued) (s : State), Spec.queued s i = some q → Spec.memoryWord i = none → s.Quiet { q.h with pn := !q.h.pn } →
    (i.privileged = true → s.privileged s.active = true) →
    (s.eager = false → ∃ e : Entry, exec i s = .next (s.setCore s.active (s.me.enqueue q.h e)) ∧ e.op = i ∧ e.null = true ∧ e.td = q.t.td ∧ e.qs = q.qs ∧
      e.dst = [] ∧ e.hdst = []) ∧
    (s.eager = true → exec i s = .next (s.setCore s.active (s.me.finished q.h q.qs [] q.t.td 0x800001)))) ∧
  (∀ (i : Instr) (h : Hdr) (s : State), Spec.unqueued (s.privileged s.active) i = some h → s.active < 256 → s.me.blockOpen = false → s.me.taken h = false →
    exec i s = .next (s.setCore s.active (s.me.next h))) ∧
  ∀ (h : Hdr) (tk : Toks) (s : State), s.me.taken h = false → (tk.td = 0 → exec (.tokWait h tk) s = .next (s.setCore s.active (s.me.next h))) ∧
    (tk.td ≠ 0 → s.me.isPend tk.td = false → exec (.tokWait h tk) s = .next (s.setCore s.active ((s.me.next h).wr tk.td 0x800001)))

-- ### The vector engine (R198 to R221), at a core at rest, each word's work done in its step

/-- R204 to R206, R208, R214: element operations of two sources, of one source, shifts by a register or an immediate, products added to vD, copies; every
element of vD, active or not. R210: bit fields and funnel shifts of elements, at positions and lengths that lie in the element. R212: conversions of
elements to a format of their width. At a core at rest whose words' work follows in their step (log entry 2). -/
def Obligations.ElementOperations : Prop :=
  (∀ (h : Hdr) (tk : Toks) (o : VOpt) (d a b : VReg) (n : ShCnt) (s : State), s.Quiet h → s.eager = true →
    let w := Spec.width o.ety
    let A := Spec.elem (s.me.rdV a) w
    let B := Spec.elem (s.me.rdV b) w
    let D := Spec.elem (s.me.rdV d) w
    (∀ op ∈ Spec.lane2, (op.1 h tk o d a b).wf = true → ∃ t, exec (op.1 h tk o d a b) s = .next t ∧
      Spec.vectorDone s t h tk.td o d w (fun i => op.2 o.ety (A i) (B i))) ∧
    (∀ op ∈ Spec.lane1, (op.1 h tk o d a).wf = true → ∃ t, exec (op.1 h tk o d a) s = .next t ∧
      Spec.vectorDone s t h tk.td o d w (fun i => op.2 o.ety (A i))) ∧
    (∀ op ∈ Spec.laneShifts, (op.1 h tk o d a n).wf = true → ∃ t, exec (op.1 h tk o d a n) s = .next t ∧
      Spec.vectorDone s t h tk.td o d w (fun i => op.2 o.ety (A i) (Spec.shiftCount s.me w i n))) ∧
    ((Instr.vmad h tk o d a b).wf = true → ∃ t, exec (.vmad h tk o d a b) s = .next t ∧
      Spec.vectorDone s t h tk.td o d w (fun i => Spec.fpOr o.ety (toF32 (((f32 (A i)).mul (f32 (B i))).add (f32 (D i))))
        (Spec.wrapE o.ety (Spec.num o.ety (A i) * Spec.num o.ety (B i) + Spec.num o.ety (D i)))))) ∧
  (∀ (h : Hdr) (tk : Toks) (o : VOpt) (sx : Bool) (d a b : VReg) (n : ShCnt) (s : State), s.Quiet h → s.eager = true →
    let w := Spec.width o.ety
    let A := Spec.elem (s.me.rdV a) w
    let B := Spec.elem (s.me.rdV b) w
    let D := Spec.elem (s.me.rdV d) w
    let pos := fun i => B i % w
    let len := fun i => B i / 256 % w + 1
    ((Instr.vbfx h tk o sx d a b).wf = true → (∀ i < 2048 / w, pos i + len i ≤ w) → ∃ t, exec (.vbfx h tk o sx d a b) s = .next t ∧
      Spec.vectorDone s t h tk.td o d w (fun i => let f := BitVec.ofNat (len i) (A i / 2 ^ pos i)
        if sx then (f.signExtend w).toNat else f.toNat)) ∧
    ((Instr.vbfi h tk o d a b).wf = true → (∀ i < 2048 / w, pos i + len i ≤ w) → ∃ t, exec (.vbfi h tk o d a b) s = .next t ∧ ∃ f : Nat → Nat,
      Spec.vectorDone s t h tk.td o d w f ∧
      ∀ i < 2048 / w, ∀ j < w, (f i).testBit j = if pos i ≤ j ∧ j < pos i + len i then (A i).testBit (j - pos i) else (D i).testBit j) ∧
    ((Instr.vfshR h tk o d a b n).wf = true → ∃ t, exec (.vfshR h tk o d a b n) s = .next t ∧
      Spec.vectorDone s t h tk.td o d w (fun i => (A i * 2 ^ w + B i) / 2 ^ Spec.shiftCount s.me w i n % 2 ^ w)) ∧
    ((Instr.vfshL h tk o d a b n).wf = true → ∃ t, exec (.vfshL h tk o d a b n) s = .next t ∧
      Spec.vectorDone s t h tk.td o d w (fun i => (A i * 2 ^ w + B i) * 2 ^ Spec.shiftCount s.me w i n / 2 ^ w % 2 ^ w))) ∧
  (∀ (h : Hdr) (tk : Toks) (o : VOpt) (df sf : BitVec 8) (rnd : Rnd) (d a : VReg) (s : State), s.Quiet h → s.eager = true →
    (Instr.vcvt h tk o df sf rnd d a).wf = true → ∃ t, exec (.vcvt h tk o df sf rnd d a) s = .next t ∧
      let w := fmtWidth df.toNat
      Spec.vectorDone s t h tk.td o d w (fun i => Spec.conv s.me df.toNat sf.toNat rnd i (Spec.elem (s.me.rdV a) w i)))

/-- R207: comparisons of elements into a mask, whose bits beyond the elements become 0 (FP32 elements by value, where a NaN is not equal to anything and
neither less nor greater); selection by a mask; logic and counting of masks. At a core at rest whose words' work follows in their step (log entry 2). -/
def Obligations.MaskWords : Prop :=
  ∀ (h : Hdr) (tk : Toks) (o : VOpt) (cc : VCond) (d a b : VReg) (p q r : MReg) (s : State), s.Quiet h → s.eager = true →
    let w := Spec.width o.ety
    let A := Spec.elem (s.me.rdV a) w
    let B := Spec.elem (s.me.rdV b) w
    let holds := fun (x y : Int) => match cc with | .eq => x == y | .ne => x != y | .lt => decide (x < y) | .le => decide (x ≤ y) | .gt => decide (y < x) | .ge => decide (y ≤ x)
    let holdsF := fun (x y : Val) => match cc with | .eq => x.eq y | .ne => !x.eq y | .lt => x.lt y | .le => x.lt y || x.eq y | .gt => y.lt x | .ge => y.lt x || x.eq y
    let whole := fun (x : BitVec 128) => s.setCore s.active (s.me.finished h [.vq] [.m p x (BitVec.allOnes 128)] tk.td 0x800000)
    (∃ x m : BitVec 128, let t := s.setCore s.active (s.me.finished h [.vq] [.m p x m] tk.td 0x800000)
      exec (.vcmp h tk o cc p a b) s = .next t ∧
      ∀ i < 128, ((t.core s.active).rdM p).getLsbD i = if 2048 / w ≤ i then false
        else if Spec.laneOn s.me o i then (if o.ety = .fp32 then holdsF (f32 (A i)) (f32 (B i)) else holds (Spec.num o.ety (A i)) (Spec.num o.ety (B i))) else if o.zm then false else (s.me.rdM p).getLsbD i) ∧
    (∃ t, exec (.vsel h tk o d a b p) s = .next t ∧ Spec.vectorDone s t h tk.td o d w (fun i => if (s.me.rdM p).getLsbD i then A i else B i)) ∧
    exec (.mand h tk p q r) s = .next (whole (s.me.rdM q &&& s.me.rdM r)) ∧
    exec (.mor h tk p q r) s = .next (whole (s.me.rdM q ||| s.me.rdM r)) ∧
    exec (.mnot h tk p q) s = .next (whole (~~~ s.me.rdM q)) ∧
    (∃ t, exec (.mpopc h tk o d q) s = .next t ∧
      Spec.vectorDone s t h tk.td o d w (fun _ => (List.range (2048 / w)).countP (s.me.rdM q).getLsbD))

/-- R213, R214: reductions, by the tree of R213 over all elements, and scans over the active ones, permutation by indices taken modulo the number of
elements, the five patterns of `VSHUF`, broadcasts of a register and of an element, and indices. R211: lookup through the CROFT, HAMLET, COMMONS and LANE
windows, a lane in its own lane store. At a core at rest whose words' work follows in their step (log entry 2). -/
def Obligations.MovementWords : Prop :=
  ∀ (h : Hdr) (tk : Toks) (o : VOpt) (op : RedOp) (d a b : VReg) (x : SReg) (pat : BitVec 3) (k : BitVec 16) (s : State), s.Quiet h → s.eager = true →
    let w := Spec.width o.ety
    let n := 2048 / w
    let A := Spec.elem (s.me.rdV a) w
    let B := Spec.elem (s.me.rdV b) w
    let fold := fun (m : Nat) => (List.range m).foldl (fun acc i => if Spec.laneOn s.me o i then Spec.redStep o.ety op acc (A i) else acc) (Spec.redUnit o.ety op)
    (∃ t, exec (.vred h tk o op d a) s = .next t ∧ Spec.vectorDone s t h tk.td ⟨o.ety, false, 0, false⟩ d w (fun _ =>
      Spec.tree (Spec.redStep o.ety op) (if w = 32 then 6 else 7) (fun i => if Spec.laneOn s.me o i then A i else Spec.redUnit o.ety op))) ∧
    (∃ t, exec (.vscan h tk o op d a) s = .next t ∧ Spec.vectorDone s t h tk.td o d w (fun i => fold (i + 1))) ∧
    (∃ t, exec (.vperm h tk o d a b) s = .next t ∧ Spec.vectorDone s t h tk.td o d w (fun i => A (B i % n))) ∧
    (pat.toNat ≤ 4 → k.toNat ≤ n → ∃ t, exec (.vshuf h tk o pat k d a b) s = .next t ∧ Spec.vectorDone s t h tk.td o d w (fun i =>
      match pat.toNat with
      | 0 => if i % 2 = 0 then A (i / 2) else B (i / 2)
      | 1 => if i % 2 = 0 then A (n / 2 + i / 2) else B (n / 2 + i / 2)
      | 2 => if i < n / 2 then A (2 * i) else B (2 * (i - n / 2))
      | 3 => if i < n / 2 then A (2 * i + 1) else B (2 * (i - n / 2) + 1)
      | _ => if i + k.toNat < n then A (i + k.toNat) else B (i + k.toNat - n))) ∧
    (∃ t, exec (.vbcast h tk o d x) s = .next t ∧ Spec.vectorDone s t h tk.td o d w (fun _ => (s.me.rd x).toNat % 2 ^ w)) ∧
    (∃ t, exec (.vbcastE h tk o d a k) s = .next t ∧ Spec.vectorDone s t h tk.td o d w (fun _ => A k.toNat)) ∧
    (∃ t, exec (.vidx h tk o d x) s = .next t ∧ Spec.vectorDone s t h tk.td o d w (fun i => ((s.me.rd x).toNat + i) % 2 ^ w)) ∧
    (∀ (l : Loc) (off : Nat → Nat), s.lbad = [] →
      Spec.lanesIn s o x l n (w / 8) (fun i => (Spec.ofs (s.me.rd x) : Int) + A i * (w / 8 : Nat)) off → ∃ t, exec (.vlut h tk o d a x) s = .next t ∧
      Spec.vectorDone s t h tk.td o d w (fun i => Spec.leAt (Spec.spaceByte s l) (Spec.place s l (w * i / 32) (off i)) (w / 8)))

/-- R208, R209: sums of absolute differences into 32-bit elements; two registers of 32-bit elements packed into one of 16-bit elements, and half a register
unpacked, with rounding; pixels unpacked from `w` bits at an offset into 128 elements of 16, and packed back with clamping (`w` the width of the pixel
format), the rest of vD zero. At a core at rest whose words' work follows in their step (log entry 2). -/
def Obligations.PixelWords : Prop :=
  ∀ (h : Hdr) (tk : Toks) (o : VOpt) (pf : BitVec 8) (off : BitVec 11) (half : Bool) (rnd : Rnd) (d a b : VReg) (s : State), s.Quiet h → s.eager = true →
    let all : VOpt := ⟨.n16, false, 0, false⟩
    let pw := fmtWidth pf.toNat
    ((Instr.vsad h tk o d a b).wf = true → ∃ t, exec (.vsad h tk o d a b) s = .next t ∧ Spec.vectorDone s t h tk.td all d 32 (fun i =>
      let z := fun j => (Spec.num o.ety (Spec.elem (s.me.rdV a) 16 j) - Spec.num o.ety (Spec.elem (s.me.rdV b) 16 j)).natAbs
      (Spec.elem (s.me.rdV d) 32 i + z (2 * i) + z (2 * i + 1)) % 2 ^ 32)) ∧
    ((Instr.vpack h tk o pf rnd d a b).wf = true → ∃ t, exec (.vpack h tk o pf rnd d a b) s = .next t ∧ Spec.vectorDone s t h tk.td all d 16 (fun i =>
      Spec.conv s.me pf.toNat (Spec.fmtOf o.ety) rnd i (if i < 64 then Spec.elem (s.me.rdV a) 32 i else Spec.elem (s.me.rdV b) 32 (i - 64)))) ∧
    ((Instr.vunpk h tk o pf half rnd d a).wf = true → ∃ t, exec (.vunpk h tk o pf half rnd d a) s = .next t ∧ Spec.vectorDone s t h tk.td all d 32 (fun i =>
      Spec.conv s.me (Spec.fmtOf o.ety) pf.toNat rnd i (Spec.elem (s.me.rdV a) 16 (if half then i + 64 else i)))) ∧
    ((Instr.pixUnpk h tk o pf off d a).wf = true → ∃ t, exec (.pixUnpk h tk o pf off d a) s = .next t ∧
      Spec.vectorDone s t h tk.td all d 16 (fun i => ((s.me.rdV a).extractLsb' (off.toNat + i * pw) pw).toNat)) ∧
    ((Instr.pixPack h tk o pf d a).wf = true → ∃ x : BitVec 2048, exec (.pixPack h tk o pf d a) s =
        .next (s.setCore s.active (s.me.finished h [.vq] [.v d x (BitVec.allOnes 2048)] tk.td 0x800000)) ∧
      (∀ i < 128, (x.extractLsb' (pw * i) pw).toNat = min (Spec.elem (s.me.rdV a) 16 i) (2 ^ pw - 1)) ∧ ∀ j, 128 * pw ≤ j → x.getLsbD j = false)

/-- R215, R216, R62, R65: vector loads and stores through the CROFT, HAMLET, COMMONS and LANE windows, contiguous, strided and by indices: each active
element from or to its place (through LANE in the store of its own lane), an inactive one of a load as R202 says; a store changes no other byte of a
local memory. Elements that a store writes do not overlap. R218, R219: the stores with stochastic rounding, to contiguous places and to a handle's walk,
whose elements at and beyond its count are skipped, and the accumulating stores, which add to what stands there. At a core at rest whose words' work
follows in their step (log entry 2). -/
def Obligations.VectorMemory : Prop :=
  ∀ (h : Hdr) (tk : Toks) (o : VOpt) (r v : VReg) (a b : SReg) (disp : BitVec 16) (l : Loc) (s : State) (off : Nat → Nat), s.Quiet h → s.eager = true →
    s.lbad = [] →
    let es := Spec.width o.ety / 8
    let at_ := fun (i : Nat) => Spec.place s l (8 * es * i / 32) (off i)
    (∀ x ∈ Spec.vectorLoads h tk o r v a b disp, Spec.lanesIn s o a l (256 / es) es (Spec.elemOff s o.ety a b disp x.2) off →
      ∃ y m : BitVec 2048, let t := s.setCore s.active (s.me.finished h [.lq] [.v r y m] tk.td 0x800000)
      exec x.1 s = .next t ∧ ∀ i < 256 / es, Spec.elem ((t.core s.active).rdV r) (8 * es) i =
        if Spec.laneOn s.me o i then Spec.leAt (Spec.spaceByte s l) (at_ i) es else if o.zm then 0 else Spec.elem (s.me.rdV r) (8 * es) i) ∧
    (∀ x ∈ Spec.vectorStores h tk o r v a b disp, Spec.lanesIn s o a l (256 / es) es (Spec.elemOff s o.ety a b disp x.2) off →
      (∀ i < 256 / es, ∀ j < i, Spec.laneOn s.me o i = true → Spec.laneOn s.me o j = true → at_ i + es ≤ at_ j ∨ at_ j + es ≤ at_ i) →
      ∃ t, exec x.1 s = .next t ∧ Spec.wroteLocal s t s.me (fun g => g.finished h [.sq] [] tk.td 0x800000) ∧
      (∀ i < 256 / es, Spec.laneOn s.me o i = true → Spec.leAt (Spec.spaceByte t l) (at_ i) es = Spec.elem (s.me.rdV r) (8 * es) i) ∧
      ∀ l' p, (l' = l → ∀ i < 256 / es, Spec.laneOn s.me o i = true → p < at_ i ∨ at_ i + es ≤ p) → Spec.spaceByte t l' p = Spec.spaceByte s l' p) ∧
    (let sent := fun (es n : Nat) (on : Nat → Bool) (x : Nat → Nat) (t : State) =>
       let at_ := fun (i : Nat) => Spec.place s l i (off i)
       Spec.wroteLocal s t s.me (fun g => g.finished h [.sq] [] tk.td 0x800000) ∧
       (∀ i < n, on i = true → Spec.leAt (Spec.spaceByte t l) (at_ i) es = x i) ∧
       ∀ l' p, (l' = l → ∀ i < n, on i = true → p < at_ i ∨ at_ i + es ≤ p) → Spec.spaceByte t l' p = Spec.spaceByte s l' p
     let A := Spec.elem (s.me.rdV r) 32
     (∀ (df : BitVec 8) (seed : SReg), (Instr.vstSrPtr h tk o df seed r a b disp).wf = true →
        Spec.lanesIn s o a l 64 2 (fun i => (Spec.ofs (s.me.rd a) : Int) + (s.me.rd b).toInt + disp.toInt + 2 * i) off →
        ∃ t, exec (.vstSrPtr h tk o df seed r a b disp) s = .next t ∧
          sent 2 64 (Spec.laneOn s.me o) (fun i => Spec.conv s.me df.toNat 1 ⟨.sr, seed⟩ i (A i)) t) ∧
     (∀ (seed : SReg) (x : HReg) (rec_ : BitVec 512) (n0 : Nat), Spec.holds s.me x rec_ → 1 ≤ shFmt rec_ → shFmt rec_ ≤ 9 → n0 = (s.me.rd b).toNat →
        let es := fmtWidth (shFmt rec_) / 8
        let on := fun i => Spec.laneOn s.me o i && decide (n0 + i < shCount rec_)
        Spec.idx (shPtr rec_) = Spec.winIdx l →
        (∀ i < 64, on i = true → off i = Spec.tensorOff rec_ (n0 + i) ∧ 0 ≤ (Spec.ofs (shPtr rec_) : Int) + Spec.walkPos rec_ [0, 1, 2, 3, 4, 5] (n0 + i) * es ∧
          off i % es = 0 ∧ Spec.inWindow s l (off i) es ∧ ∀ j < i, on j = true → Spec.place s l i (off i) + es ≤ Spec.place s l j (off j) ∨
            Spec.place s l j (off j) + es ≤ Spec.place s l i (off i)) →
        ∃ t, exec (.vstSrHdl h tk o seed r x b) s = .next t ∧ sent es 64 on (fun i => Spec.conv s.me (shFmt rec_) 1 ⟨.sr, seed⟩ (n0 + i) (A i)) t) ∧
     (∀ df : BitVec 8, df = 1 ∨ df = 2 → l ≠ .lane →
        let es := fmtWidth df.toNat / 8
        Spec.lanesIn s o a l 64 es (fun i => (Spec.ofs (s.me.rd a) : Int) + (s.me.rd b).toInt + disp.toInt + i * es) off →
        ∃ t, exec (.vstAcc h tk o df r a b disp) s = .next t ∧ sent es 64 (Spec.laneOn s.me o) (fun i =>
          roundFmt df.toNat (df == 2) .rne ((decodeFmt df.toNat (df == 2) (Spec.leAt (Spec.spaceByte s l) (Spec.place s l i (off i)) es)).add (f32 (A i))) % 256 ^ es) t))

-- ### The loom's slots and tiles (R222 to R241), gradients (R299)

/-- R224 to R227: the four words that set a nest slot. `NA` and `NB` of 0 stand for 16 planes. At a core at rest whose words' work follows in their step
(log entry 2). -/
def Obligations.NestWords : Prop :=
  ∀ (h : Hdr) (tk : Toks) (sl : LReg) (lvl : BitVec 3) (ext : BitVec 24) (sa sb : BitVec 14) (seed : SReg) (n : NestOpt) (d : AReg) (ro : BitVec 7)
    (co : BitVec 6) (s : State), s.Quiet h → s.eager = true →
    let x := s.me.rdSlot sl
    exec (.nestClr h tk sl) s = .next (Spec.slotDone s h tk.td sl
      ⟨[1, 1, 1, 1, 1, 1], [0, 0, 0, 0, 0, 0], [0, 0, 0, 0, 0, 0], 0, 0, 0, 16, 16, 0, 0, false, false, false, 0⟩) ∧
    exec (.nestLvl h tk sl lvl ext sa sb) s = .next (Spec.slotDone s h tk.td sl
      { x with e := x.e.set lvl.toNat (ext.toNat + 1), sa := x.sa.set lvl.toNat sa.toNat, sb := x.sb.set lvl.toNat sb.toNat }) ∧
    exec (.nestOpt h tk sl seed n) s = .next (Spec.slotDone s h tk.td sl
      { x with na := if n.na = 0 then 16 else n.na.toNat, nb := if n.nb = 0 then 16 else n.nb.toNat, gg := n.gg.toNat, pi := n.pi.toNat, rma := n.rma,
               rmb := n.rmb, tagp := n.tagp, seed := (s.me.rd seed).toNat % 2 ^ 32 }) ∧
    exec (.nestAcc h tk sl d ro co) s = .next (Spec.slotDone s h tk.td sl { x with acc := d.toNat, rorg := ro.toNat, corg := co.toNat })

/-- R222, R237: `ACC.INIT` sets every element of its tile to one FP32 value, `ACC.FLUSH` rounds every element of its tile to FP32 at home; the
other tiles are as before. R220: `TRD` takes a row of a tile as FP32 elements, `TWR` sets one; a row of 128 or more raises BOUNDS. R103, R228, R229,
R235: `MM.RUN` and `MM.BATCH` on numeric operands in the CROFT, HAMLET and COMMONS windows, with no precision cap below the slot's planes, and on an
operand without elements; from any operands, once their groups are read, each element of the region goes through them in order. R238, R239: `ACC.RD`,
`ACC.WR` and `ACC.WR.ADD` move a region between a tile and such a tensor. R241: `PLANE.PACK` and `PLANE.UNPK` between two of them. At a core at rest
whose words' work follows in their step (log entry 2); that an empty product's word has no CAP, and an empty record moves nothing unchecked, is log entry
107. -/
def Obligations.TileWords : Prop :=
  (∀ (h : Hdr) (tk : Toks) (d : AReg) (b : SReg) (s : State), s.Quiet h → s.eager = true →
    (∃ g : CoreSt, exec (.accInit h tk d b) s = .next (s.setCore s.active (g.finished h [.mq] [] tk.td 0x800000)) ∧
      g = { s.me with eng := { s.me.eng with acc := g.eng.acc } } ∧
      ∀ t r c, r < 128 → c < 64 → g.rdAcc t r c = if t = d.toNat then ⟨BitVec.ofNat 32 (toF32 (f32 ((s.me.rd b).toNat % 2 ^ 32))), 0, 0⟩ else s.me.rdAcc t r c) ∧
    (∃ g : CoreSt, exec (.accFlush h tk d) s = .next (s.setCore s.active (g.finished h [.mq] [] tk.td 0x800000)) ∧
      g = { s.me with eng := { s.me.eng with acc := g.eng.acc } } ∧
      ∀ t r c, r < 128 → c < 64 → g.rdAcc t r c = if t = d.toNat then ⟨BitVec.ofNat 32 (s.me.rdAcc t r c).toFp32, 0, 0⟩ else s.me.rdAcc t r c)) ∧
  (∀ (h : Hdr) (tk : Toks) (o : VOpt) (v : VReg) (d : AReg) (b : SReg) (n : BitVec 7) (s : State), s.Quiet h → s.eager = true →
    let row := (s.me.rd b).toNat + n.toNat
    (row < 128 → (∃ t, exec (.trd h tk o v d b n) s = .next t ∧ Spec.vectorDone s t h tk.td o v 32 (fun j => (s.me.rdAcc d.toNat row j).toFp32)) ∧
      ∃ g : CoreSt, exec (.twr h tk o d v b n) s = .next (s.setCore s.active (g.finished h [.vq] [] tk.td 0x800000)) ∧
        g = { s.me with eng := { s.me.eng with acc := g.eng.acc } } ∧
        ∀ t r c, r < 128 → c < 64 → g.rdAcc t r c = if t = d.toNat ∧ r = row ∧ Spec.laneOn s.me o c = true then ⟨BitVec.ofNat 32 (Spec.elem (s.me.rdV v) 32 c), 0, 0⟩
          else if t = d.toNat ∧ r = row ∧ o.zm = true then .zero else s.me.rdAcc t r c) ∧
    (∀ (c : Nat) (e : Entry) (u : State), 128 ≤ (e.x 0).toNat + n.toNat →
      let fails := ((.error (.trap .bounds (BitVec.ofNat 64 ((e.x 0).toNat + n.toNat))), u) : Except Stop Fin × State)
      runTrd o v d n c e u = fails ∧ runTwr o d v n c e u = fails)) ∧
  (∀ (h : Hdr) (tk : Toks) (sl : LReg) (a b : HReg) (A B : BitVec 512) (la lb : Loc) (s : State), s.Quiet h → s.eager = true → s.lbad = [] →
    Spec.holds s.me a A → Spec.holds s.me b B →
    let x := s.me.rdSlot sl
    let g := 16 * 2 ^ x.gg
    let md := fun (sr : Bool) (i : Nat) => (⟨if sr then .sr else .rne, x.seed, i⟩ : Mode)
    let ga := fun (n m k : Nat) => Spec.operandGroup s la A g x.na (md x.rma) n m k
    let gb := fun (n m k : Nat) => Spec.operandGroup s lb B g x.nb (md x.rmb) n m k
    let word := BitVec.ofNat 64 (0x800000 + 2 ^ 24 * Spec.iterations x)
    Spec.Nest.whole x → (Spec.iterations x ≤ 2 ^ 24 → Spec.operandOk s x la A x.sa → Spec.operandOk s x lb B x.sb →
      x.na ≤ (s.capsOf s.active).1 → x.nb ≤ (s.capsOf s.active).2 →
      (1 ≤ shRank A → shRank A ≤ 2 → 1 ≤ shRank B → shRank B ≤ 2 → x.rorg + shE A 1 ≤ 128 → x.corg + shE B 1 ≤ 64 → ∃ t, exec (.mmRun h tk sl a b) s = .next t ∧
        Spec.tilesDone s t h tk.td word (fun n r c => if n = x.acc ∧ x.rorg ≤ r ∧ r < x.rorg + shE A 1 ∧ x.corg ≤ c ∧ c < x.corg + shE B 1
          then Spec.productEl x (ga 0 (r - x.rorg)) (gb 0 (c - x.corg)) (s.me.rdAcc n r c) else s.me.rdAcc n r c)) ∧
      (shRank A = 3 → shRank B = 3 → shE A 1 ≤ 8 → shE B 1 ≤ 4 → shE A 2 = shE B 2 → shE A 2 ≤ 16 → x.rorg = 0 → x.corg = 0 → ∃ t,
        exec (.mmBatch h tk sl a b) s = .next t ∧
        Spec.tilesDone s t h tk.td word (fun n r c => if n = x.acc ∧ r / 8 = c / 4 ∧ r / 8 < shE A 2 ∧ r % 8 < shE A 1 ∧ c % 4 < shE B 1
          then Spec.productEl x (ga (r / 8) (r % 8)) (gb (r / 8) (c % 4)) (s.me.rdAcc n r c) else s.me.rdAcc n r c))) ∧
    (1 ≤ shFmt A → shFmt A ≤ 9 → 1 ≤ shFmt B → shFmt B ≤ 9 → 1 ≤ shRank A → shRank A ≤ 2 → 1 ≤ shRank B → shRank B ≤ 2 → x.rorg + shE A 1 ≤ 128 →
      x.corg + shE B 1 ≤ 64 → (shCount A = 0 ∨ shCount B = 0) →
      exec (.mmRun h tk sl a b) s = .next (s.setCore s.active (s.me.finished h [.mq] [] tk.td 0x800000)))) ∧
  (∀ (c : Nat) (e : Entry) (sl : LReg) (s s1 s2 : State) (ta tb : Tens) (gs : List (List SideGroup × List SideGroup)), e.aux = 0 →
    let x := (s.core c).rdSlot sl
    let a := (e.hd 0).shape
    let b := (e.hd 1).shape
    let sides := sidesOf x e.caps ta tb
    productForm false x e.hs s = (.ok (), s) → 0 < shCount a → 0 < shCount b → shE a 2 = 1 → openProduct c x a b s = (.ok (ta, tb), s1) →
    sidePairs c sides.1 sides.2 0 x.iters s1 = (.ok gs, s2) → x.na ≤ e.caps.1 → x.nb ≤ e.caps.2 → ∃ g : CoreSt,
      runProduct false false false sl c e s = (.ok (.done [] (BitVec.ofNat 64 (0x800000 + 2 ^ 24 * (x.count % 2 ^ 40)))), s2.setCore c g) ∧
      g = { s2.core c with eng := { (s2.core c).eng with acc := g.eng.acc } } ∧
      ∀ n r k, r < 128 → k < 64 → g.rdAcc n r k = if n = x.acc ∧ x.rorg ≤ r ∧ r < x.rorg + shE a 1 ∧ x.corg ≤ k ∧ k < x.corg + shE b 1
        then accumulateAll x.pi (r - x.rorg) (k - x.corg) ((s2.core c).rdAcc n r k) gs else (s2.core c).rdAcc n r k) ∧
  (∀ (h : Hdr) (tk : Toks) (d : AReg) (a : HReg) (rnd : Rnd) (roff : BitVec 7) (coff : BitVec 6) (R : BitVec 512) (l : Loc) (s : State), s.Quiet h →
    s.eager = true → s.lbad = [] → Spec.holds s.me a R → (1 ≤ shFmt R ∧ shFmt R ≤ 9) ∨ shFmt R = 0xD → 1 ≤ shRank R → shRank R ≤ 2 →
    roff.toNat + shE R 1 ≤ 128 → coff.toNat + shE R 0 ≤ 64 →
    (shCount R = 0 → exec (.accRd h tk a d rnd roff coff) s = .next (s.setCore s.active (s.me.finished h [.mq] [] tk.td 0x800000)) ∧
      exec (.accWr h tk d a roff coff) s = .next (s.setCore s.active (s.me.finished h [.mq] [] tk.td 0x800000))) ∧
    (Spec.tensorIn s R l →
      (Spec.writable R → ∃ t, exec (.accRd h tk a d rnd roff coff) s = .next t ∧ Spec.tensorStored s t l R
        (fun n => roundFmt (shFmt R) false (Spec.modeOf s.me rnd n) (s.me.rdAcc d.toNat (roff.toNat + n / shE R 0) (coff.toNat + n % shE R 0)).value)
        s.me (fun g => g.finished h [.mq] [] tk.td 0x800000)) ∧
      (shInjective R = true ∨ shOverlap R = true →
        let taken := fun (f : AccEl → Val → AccEl) (n r c : Nat) =>
          if n = d.toNat ∧ roff.toNat ≤ r ∧ r < roff.toNat + shE R 1 ∧ coff.toNat ≤ c ∧ c < coff.toNat + shE R 0
          then f (s.me.rdAcc n r c) (decodeFmt (shFmt R) false (Spec.tensorNat s l R ((r - roff.toNat) * shE R 0 + (c - coff.toNat)))) else s.me.rdAcc n r c
        (∃ t, exec (.accWr h tk d a roff coff) s = .next t ∧ Spec.tilesDone s t h tk.td 0x800000 (taken (fun _ v => ⟨BitVec.ofNat 32 (toF32 v), 0, 0⟩))) ∧
        ∃ t, exec (.accWrAdd h tk d a roff coff) s = .next t ∧
          Spec.tilesDone s t h tk.td 0x800000 (taken (fun x v => { x with h := BitVec.ofNat 32 (toF32 ((f32 x.h.toNat).add v)) }))))) ∧
  (∀ (h : Hdr) (tk : Toks) (d a : HReg) (rnd : Rnd) (D R : BitVec 512) (ld lr : Loc) (s : State), s.Quiet h → s.eager = true → s.lbad = [] →
    Spec.holds s.me d D → Spec.holds s.me a R → Spec.spanIn s D ld → Spec.spanIn s R lr → shBitoff D = 0 → shBitoff R = 0 → Spec.apart D R ld lr →
    shRank D = shRank R → (∀ k, 1 ≤ k → k < 6 → shE D k = shE R k) → shInjective D = true → (shInjective R = true ∨ shOverlap R = true) →
    let fin := fun (g : CoreSt) => g.finished h [.mq] [] tk.td 0x800000
    (isPlane (shFmt D) = true → 1 ≤ shFmt R → shFmt R ≤ 9 → shE D 0 = (shE R 0 + planeG (shFmt D) - 1) / planeG (shFmt D) →
      (∀ n < shCount D, ∀ m < n, Spec.walkPos D [0, 1, 2, 3, 4, 5] m ≠ Spec.walkPos D [0, 1, 2, 3, 4, 5] n) → ∃ t, exec (.planePack h tk d a rnd) s = .next t ∧
      Spec.wroteLocal s t s.me fin ∧ (∀ n < shCount D, Spec.groupIn t ld D (Spec.walkPos D [0, 1, 2, 3, 4, 5] n)
        (Spec.operandGroup s lr R (planeG (shFmt D)) (planeN (shFmt D)) (Spec.modeOf s.me rnd) 0 (n / shE D 0) (n % shE D 0))) ∧
      ∀ l' p, (l' = ld → ∀ n < shCount D, let q := Spec.place s ld 0 (Spec.planesOff D (Spec.walkPos D [0, 1, 2, 3, 4, 5] n))
        p ≠ Spec.place s ld 0 (Spec.scaleOff D (Spec.walkPos D [0, 1, 2, 3, 4, 5] n)) ∧
        (p < q ∨ q + planeN (shFmt D) * planeG (shFmt D) / 8 ≤ p)) → Spec.spaceByte t l' p = Spec.spaceByte s l' p) ∧
    (isPlane (shFmt R) = true → shFmt D ∈ [1, 2, 3] → (shE R 0 - 1) * planeG (shFmt R) < shE D 0 → shE D 0 ≤ shE R 0 * planeG (shFmt R) → Spec.writable D →
      ∀ G : Nat → Group, (∀ n < shCount R, Spec.groupIn s lr R (Spec.walkPos R [0, 1, 2, 3, 4, 5] n) (G n) ∧
        ∀ q ∈ (G n).q, -2 ^ (planeN (shFmt R) - 1) ≤ q ∧ q < 2 ^ (planeN (shFmt R) - 1)) → ∃ t, exec (.planeUnpk h tk d a rnd) s = .next t ∧
      Spec.tensorStored s t ld D (fun n =>
        let i := n % shE D 0
        let x := G (n / shE D 0 * shE R 0 + i / planeG (shFmt R))
        roundFmt (shFmt D) false (Spec.modeOf s.me rnd n) (groupVal (planeN (shFmt R)) 0 x.e (x.q.getD (i % planeG (shFmt R)) 0))) s.me fin))

/-- R299: `GRAD.ZERO` of vector registers clears those of v16 to v31 that its mask names, of tiles those of a4 to a7, of a handle the elements of its
walk, in a local window; nothing else. At a core at rest whose words' work follows in their step (log entry 2). R294 to R296: the adjoints of the vector
words and of `VLD`, `VST` and `VST.SR`: the destination's gradient is set, then the sources' gradients gain, from the saved item and mask, and gradient
memory in a local window is accumulated into, or read and cleared. R297: that of `CP`, over three passes. R298: that of `MM.RUN`, with numeric operands
that are not saved: the elements of both gradients gain the exact sums of their terms, rounded once. Stated of the work of an adjoint's entry. -/
def Obligations.GradZero : Prop :=
  (∀ (h : Hdr) (tk : Toks) (mv : BitVec 16) (ma : BitVec 4) (a : HReg) (R : BitVec 512) (l : Loc) (s : State), s.Quiet h → s.eager = true →
    (∃ wrs : List Wr, let t := s.setCore s.active (s.me.finished h [.vq] wrs tk.td 0x800000)
      exec (.gradZeroV h tk mv) s = .next t ∧ (∀ w ∈ wrs, ∃ r, w = .v r 0 (BitVec.allOnes 2048)) ∧
      ∀ r : VReg, (t.core s.active).rdV r = if 16 ≤ r.toNat ∧ mv.getLsbD (r.toNat - 16) = true then 0 else s.me.rdV r) ∧
    (∃ g : CoreSt, exec (.gradZeroAcc h tk ma) s = .next (s.setCore s.active (g.finished h [.mq] [] tk.td 0x800000)) ∧
      g = { s.me with eng := { s.me.eng with acc := g.eng.acc } } ∧
      ∀ t r c, t < 8 → r < 128 → c < 64 → g.rdAcc t r c = if 4 ≤ t ∧ ma.getLsbD (t - 4) = true then .zero else s.me.rdAcc t r c) ∧
    (Spec.holds s.me a R → Spec.tensorIn s R l → Spec.writable R → ∃ t, exec (.gradZeroH h tk a) s = .next t ∧
      Spec.tensorStored (s.passTurn s.active) t l R (fun _ => 0) s.me (fun g => g.finished h [.cq] [] tk.td 0x800000))) ∧
  (∀ (h : Hdr) (tk : Toks) (o : VOpt) (d a b : VReg) (x : SReg) (n : BitVec 16) (rnd : Rnd) (df sf : BitVec 8) (hsave : BitVec 32) (c : Nat) (e : Entry)
    (st : Stack) (s : State), (s.core c).res.stack = some st → s.lbad = [] →
    let G := Spec.elemsOf (s.core c) 32
    let g := G (Spec.partner d)
    let saved := fun (q i : Nat) => Spec.itemNat st e (256 * q + 4 * i) 4
    (∀ op ∈ Spec.adjoints2, e.op = op.1 h tk o d a b →
      let act := Spec.itemMask st e o op.2.1
      let G1 := Spec.destGrad G o act d (fun y => if op.2.2.1 then y else 0)
      let G2 := Spec.gains G1 act a (fun i => op.2.2.2.1 (g i) (saved 0 i) (saved 1 i))
      Spec.adjointWrites c hsave e s s 32 (Spec.gains G2 act b (fun i => op.2.2.2.2 (g i) (saved 0 i) (saved 1 i)))) ∧
    (∀ op ∈ Spec.adjoints1, e.op = op.1 h tk o d a →
      let act := Spec.itemMask st e o op.2.1
      Spec.adjointWrites c hsave e s s 32 (Spec.gains (Spec.destGrad G o act d (fun _ => 0)) act a
        (fun i => op.2.2 (g i) (saved 0 i) ((Spec.itemNat st e 0 8).testBit i)))) ∧
    (let act := Spec.itemMask st e o 0
     let tree := fun (f : Nat → Nat) => Spec.tree addF32 6 f
     (e.op = .vred h tk o .add d a → Spec.adjointWrites c hsave e s s 32 (Spec.gains (Spec.changed G (Spec.partner d) (fun _ _ => 0)) act a (fun _ => tree g))) ∧
     (e.op = .vbcast h tk o d x → Spec.adjointWrites c hsave e s s 32 (Spec.destGrad G o act d (fun _ => 0))) ∧
     (e.op = .vbcastE h tk o d a n → Spec.adjointWrites c hsave e s s 32 (Spec.gains (Spec.destGrad G o act d (fun _ => 0)) (fun i => i == n.toNat) a
       (fun _ => tree (fun i => if act i then g i else 0x80000000)))) ∧
     (e.op = .vcvt h tk o df sf rnd d a → fmtWidth sf.toNat = fmtWidth df.toNat → fmtWidth sf.toNat = 16 ∨ fmtWidth sf.toNat = 32 →
       let w := fmtWidth sf.toNat
       let G := Spec.elemsOf (s.core c) w
       let G1 := Spec.destGrad G o act d (fun _ => 0)
       Spec.adjointWrites c hsave e s s w (if isFloat df.toNat && isFloat sf.toNat then Spec.changed G1 (Spec.partner a) (fun i y =>
         if act i then roundFmt sf.toNat false .rne ((decodeFmt sf.toNat false y).add (decodeFmt df.toNat false (G (Spec.partner d) i))) % 2 ^ w else y) else G1)))) ∧
  (∀ (h : Hdr) (tk : Toks) (o : VOpt) (d : VReg) (a b sd : SReg) (disp : BitVec 16) (df : BitVec 8) (hsave : BitVec 32) (l : Loc) (e : Entry) (st : Stack) (s : State),
    s.me.res.stack = some st → s.lbad = [] → e.seen s.me = s.me →
    let G := Spec.elemsOf s.me 32
    let q := Spec.gradientOf (e.x 0) (BitVec.ofNat 64 (Spec.itemNat st e 0 8))
    let act := Spec.itemMask st e o 8
    let off := fun (es i : Nat) => Spec.ofs q + es * i
    let lies := fun (es : Nat) => l ≠ .lane ∧ Spec.idx q = Spec.winIdx l ∧ ∀ i < 64, act i = true → off es i % es = 0 ∧ Spec.inWindow s l (off es i) es
    let at_ := fun (es i : Nat) => Spec.place s l 0 (off es i)
    let moved := fun (es : Nat) (x : Nat → Nat) (t : State) => Spec.wroteLocal s t s.me id ∧
      (∀ i < 64, act i = true → Spec.winNat t l (off es i) es = x i) ∧
      ∀ l' p, (l' = l → ∀ i < 64, act i = true → p < at_ es i ∨ at_ es i + es ≤ p) → Spec.spaceByte t l' p = Spec.spaceByte s l' p
    (e.op = .vld h tk o d a b disp → lies 4 → ∃ t, moved 4 (fun i => addF32 (Spec.winNat s l (off 4 i) 4) (G (Spec.partner d) i)) t ∧
      Spec.adjointWrites s.active hsave e s t 32 (Spec.destGrad G o act d (fun _ => 0))) ∧
    (e.op = .vst h tk o d a b disp → lies 4 → ∃ t, moved 4 (fun _ => 0) t ∧
      Spec.adjointWrites s.active hsave e s t 32 (Spec.gains G act d (fun i => toF32 (f32 (Spec.winNat s l (off 4 i) 4))))) ∧
    (e.op = .vstSrPtr h tk o df sd d a b disp → df = 2 ∨ df = 3 → lies 2 → ∃ t, moved 2 (fun _ => 0) t ∧
      Spec.adjointWrites s.active hsave e s t 32 (Spec.gains G act d (fun i => toF32 (decodeFmt df.toNat false (Spec.winNat s l (off 2 i) 2)))))) ∧
  (∀ (h : Hdr) (tk : Toks) (hd ha : HReg) (rnd : Rnd) (ds : BitVec 8) (gen : Bool) (xr : SReg) (hsave : BitVec 32) (e : Entry) (F A D R : Handle) (ld lr : Loc) (s : State),
    s.lbad = [] → e.op = .cp h tk hd ha rnd ds gen xr → e.aux = 0 → e.hs = [F, A, D, R] → shFmt D.shape ∈ [1, 2, 3] → shFmt R.shape ∈ [1, 2] →
    shCount D.shape = shCount R.shape → Spec.tensorIn s D.shape ld → Spec.tensorIn s R.shape lr → Spec.writable D.shape → Spec.writable R.shape →
    Spec.apart D.shape R.shape ld lr → ∃ t, runAdjoint hsave s.active e s = (.ok (.done [] 0), t) ∧ Spec.wroteLocal s t s.me id ∧
      ∀ n < shCount D.shape, Spec.tensorNat t ld D.shape n = 0 ∧
        Spec.tensorNat t lr R.shape n = roundFmt (shFmt R.shape) (shFmt R.shape == 2) .rne
          ((decodeFmt (shFmt R.shape) (shFmt R.shape == 2) (Spec.tensorNat s lr R.shape n)).add (decodeFmt (shFmt D.shape) false (Spec.tensorNat s ld D.shape n))) %
          2 ^ fmtWidth (shFmt R.shape)) ∧
  (∀ (h : Hdr) (tk : Toks) (sl : LReg) (a b : HReg) (hsave : BitVec 32) (e : Entry) (A B GA GB : Handle) (la lb lga lgb : Loc) (st : Stack) (s : State),
    s.me.res.stack = some st → s.lbad = [] → e.op = .mmRun h tk sl a b → e.aux ≠ 0 → e.hs = [A, B, GA, GB] → (∀ x ∈ e.hs, x.bound = true ∧ x.bad = false) →
    savesH hsave a = false → savesH hsave b = false →
    let x := Nest.ofBits (Spec.itemNat st e 0 64)
    let g := 16 * 2 ^ x.gg
    let ra := A.shape
    let rb := B.shape
    (∀ p ∈ [(ra, GA.shape), (rb, GB.shape)], 1 ≤ shRank p.1 ∧ shRank p.1 ≤ 2 ∧ shRank p.2 = shRank p.1 ∧ (shFmt p.2 = 1 ∨ shFmt p.2 = 2) ∧ Spec.writable p.2 ∧
      ∀ k < 6, shE p.2 k = shE p.1 k) →
    Spec.iterations x ≤ 2 ^ 24 → Spec.operandOk s x la ra x.sa → Spec.operandOk s x lb rb x.sb → x.rorg + shE ra 1 ≤ 128 → x.corg + shE rb 1 ≤ 64 →
    Spec.tensorIn s GA.shape lga → Spec.tensorIn s GB.shape lgb → Spec.apart GA.shape GB.shape lga lgb →
    let ix := (List.range (Spec.iterations x)).map (fun j => (Spec.groupIx (x.e.zip x.sa) j, Spec.groupIx (x.e.zip x.sb) j))
    let c := fun (m n : Nat) => f32 (s.me.rdAcc (x.acc + 4) (x.rorg + m) (x.corg + n)).toFp32
    let val := fun (l : Loc) (r : BitVec 512) (m i : Nat) => decodeFmt (shFmt r) false (Spec.tensorNat s l r (i + shE r 0 * m))
    ∃ t, runAdjoint hsave s.active e s = (.ok (.done [] 0), t) ∧ Spec.wroteLocal s t s.me id ∧
      (∀ n < shCount GA.shape, Spec.tensorNat t lga GA.shape n = Spec.gained (shFmt GA.shape) (Spec.tensorNat s lga GA.shape n)
        (Spec.gradTerms ix g (shE rb 1) (shE rb 0) c (val lb rb) (n / shE ra 0) (n % shE ra 0))) ∧
      ∀ n < shCount GB.shape, Spec.tensorNat t lgb GB.shape n = Spec.gained (shFmt GB.shape) (Spec.tensorNat s lgb GB.shape n)
        (Spec.gradTerms (ix.map Prod.swap) g (shE ra 1) (shE ra 0) (fun n m => c m n) (val la ra) (n / shE rb 0) (n % shE rb 0)))

-- ### Handles, tokens, ordering, gates

/-- R69, R71, R251: `HDL.SET` binds a handle to the 64-byte record at an address in the croft store, and `HDL.INV` reads again the record of the
address that the handle keeps; format 0 unbinds, and a record that fails the checks of R71 marks the handle. Nothing but the handle, the token,
the count and the place of the hamlet's rotation (R23) changes; `HDL.INV` may also drop translations. R253, R254, R257: `CP` and `CP.ACC` between
tensors in the CROFT, HAMLET and COMMONS windows, and `CP.PF` of a handle that is not in a global buffer. R255, R256, R258: of entries that have read
their lines or elements, what `CP.DEC` makes of a line by its code, what `CP.CMP` stores of one, and the results of `GLEAN`. At a core at rest whose
words' work follows in their step (log entry 2). -/
def Obligations.HandleWords : Prop :=
  (∀ (h : Hdr) (tk : Toks) (d : HReg) (a : SReg) (s : State), s.Quiet h → s.eager = true → s.lbad = [] → s.me.slot.csneed ≤ 1472 →
    let inStore := fun (p : Word) => Spec.idx p = 0xFFF0 ∧ Spec.ofs p % 64 = 0 ∧ Spec.ofs p + 64 ≤ (if 256 ≤ s.active then 0x170000 else 1024 * s.me.slot.csneed)
    let record := fun (p : Word) => BitVec.ofNat 512 (Spec.leAt (Spec.storeByte s) (Spec.ofs p) 64)
    let bound := fun (k : CoreSt) (p : Word) => (s.passTurn s.active).setCore s.active (k.finished h [.cq] [.h d (
      if (record p).extractLsb' 64 8 = 0 then ⟨false, false, 0, p⟩ else if recordOk (record p) then ⟨true, false, record p, p⟩ else ⟨false, true, 0, p⟩)] tk.td 0x800000)
    (inStore (s.me.rd a) → exec (.hdlSet h tk d a) s = .next (bound s.me (s.me.rd a))) ∧
    (inStore (s.me.rdH d).addr → ∃ tlb : Tlb, exec (.hdlInv h tk d) s = .next (bound { s.me with ctx := { s.me.ctx with tlb := tlb } } (s.me.rdH d).addr) ∧
      (∀ x ∈ tlb, x ∈ s.me.ctx.tlb) ∧ ((s.me.rdH d).bound = false → tlb = s.me.ctx.tlb))) ∧
  (∀ (h : Hdr) (tk : Toks) (d a : HReg) (rnd : Rnd) (dscale : BitVec 8) (xr : SReg) (D R : BitVec 512) (ld lr : Loc) (s : State), s.Quiet h →
    s.eager = true → s.lbad = [] → Spec.holds s.me a R →
    let fin := fun (g : CoreSt) => g.finished h [.cq] [] tk.td (Spec.okWord (shCount R))
    (Spec.holds s.me d D → Spec.tensorIn s R lr → Spec.tensorIn s D ld → Spec.byteFmt R → Spec.byteFmt D → Spec.writable D →
      (shInjective R = true ∨ shOverlap R = true) → Spec.apart D R ld lr → shCount D = shCount R →
      let val := fun (n : Nat) => decodeFmt (shFmt R) false (Spec.tensorNat s lr R n)
      (∃ t, exec (.cp h tk d a rnd dscale false xr) s = .next t ∧ Spec.tensorStored (s.passTurn s.active) t ld D (fun n => if shFmt D = shFmt R
        then Spec.tensorNat s lr R n else roundFmt (shFmt D) false (Spec.modeOf s.me rnd n) ((val n).scale (-dscale.toInt))) s.me fin) ∧
      (shFmt D = 1 ∨ shFmt D = 2 → ∃ t, exec (.cpAcc h tk d a false xr) s = .next t ∧ Spec.tensorStored (s.passTurn s.active) t ld D (fun n =>
        roundFmt (shFmt D) (shFmt D == 2) .rne ((decodeFmt (shFmt D) (shFmt D == 2) (Spec.tensorNat s ld D n)).add (val n))) s.me fin)) ∧
    (0xFEFF < (Spec.idx (shPtr R)).toNat →
      exec (.cpPf h tk a) s = .next ((s.passTurn s.active).setCore s.active (s.me.finished h [.cq] [] tk.td (Spec.okWord 0))))) ∧
  (∀ (e : Entry) (s s1 s2 : State) (src dst : Tens) (ld : Loc), openPair s2.active e s = (.ok (src, dst), s1) → dst.loc = ld → s2.lbad = [] →
    let D := (e.hd 0).shape
    let put := fun (t : State) (m : Nat) (x : Nat → Nat) => Spec.firstStored s2 t ld D m x s2.me id
    Spec.tensorIn s2 D ld → Spec.writable D →
    (∀ (code : Nat) (raw : BitVec 2048), shCount (e.hd 1).shape = 128 → shCount D = 128 → fmtWidth (shFmt D) = 16 → shFmt D = shFmt (e.hd 1).shape →
      storedLine s2.active src.loc (ptrAt (shPtr src.r) (Spec.ofs (shPtr src.r))) (Spec.ofs (shPtr src.r)) s1 = (.ok (code, raw), s2) → code < 5 ∨ code = 0xF →
      let x : Option (BitVec 2048) := if code = 0 ∨ code = 0xF then some raw else if code = 1 then some 0
        else decodeBlock (raw.extractLsb' 0 (512 * (code - 1))).toNat (64 * (code - 1))
      ∃ t, runCpDec false s2.active e s = (.ok (.done [] (match x with | some _ => Spec.okWord 128 | none => 0x800106)), t) ∧
        put t 128 (fun n => ((x.getD 0).extractLsb' (16 * n) 16).toNat)) ∧
    (∀ (op : BitVec 3) (rnd : Rnd) (vs : List Val), 0 < shCount (e.hd 1).shape → 0 < shCount D → Spec.byteFmt D → op.toNat < 5 →
      readUntil (gleanVal s2.active src) (numbered src.r) s1 = (.ok (vs, none), s2) →
      let sum := if isFloat (shFmt (e.hd 1).shape) = true then f32 (vs.foldl (fun acc v => toF32 ((f32 acc).add v)) 0x80000000) else vs.foldl Val.add .zero
      let r : Val := if op = 0 then sum else if op = 1 then vs.tail.foldl Val.max (vs.headD .zero) else if op = 2 then vs.tail.foldl Val.min (vs.headD .zero)
        else Val.ofInt (vs.countP (fun v => !v.isZero))
      let ns := (List.range vs.length).filter (fun n => !(vs.getD n .zero).isZero)
      ∃ t, runGlean rnd op s2.active e s = (.ok (.done [] (Spec.okWord (if op = 4 then ns.length else vs.length))), t) ∧
        if op = 4 then put t (min ns.length (shCount D)) (fun n => ns.getD n 0 % 2 ^ 32)
        else put t 1 (fun _ => roundFmt (shFmt D) false (e.mode rnd 0) r))) ∧
  ∀ (c : Nat) (e : Entry) (s s1 s2 s3 s4 s5 : State) (src dst : Tens) (b : BitVec 256) (pl : Place) (rnd : Rnd) (op : BitVec 3) (xs : List Nat),
    openPair c e s = (.ok (src, dst), s1) → dst.loc = .glob b → shCount (e.hd 1).shape = 128 →
    readUntil (cmpElem c src (shFmt dst.r) (e.mode rnd)) (numbered src.r) s1 = (.ok (xs, none), s2) →
    let p := ptrAt (shPtr dst.r) (Spec.ofs (shPtr dst.r))
    let line := BitVec.ofNat 2048 ((List.range 128).foldl (fun acc i => acc + xs.getD i 0 % 2 ^ 16 * 2 ^ (16 * i)) 0)
    let block := blockOf line
    let size : Nat := if line = 0 then 0 else if op = 0 then (if block.2 ≤ 64 then 64 else if block.2 ≤ 128 then 128 else if block.2 ≤ 192 then 192 else 256)
      else if block.2 ≤ 64 * op.toNat then 64 * op.toNat else 256
    let code : Nat := if size = 256 then 0xF else size / 64 + 1
    (∀ x ∈ xs, x < 2 ^ 16) → op.toNat < 4 → translate c b (bufBase b + Spec.ofs (shPtr dst.r)) .wr p s2 = (.ok pl, s3) → awaitAt c pl s3 = (.ok (), s4) →
    s4.putBlock (pl.pa / 256) pl.key code size (if code = 0xF then line.toNat else block.1) = .ok s5 →
    runCpCmp rnd op false c e s = (.ok (.done [] (BitVec.ofNat 64 (0x800000 + 2 ^ 24 * 128 + (if code = 0xF then 256 else 0)))), s5) ∧
      (s5.lineSt (pl.pa / 256)).code = code

/-- R246: `TOK.CLR` clears its three registers; `TOK.WAIT` without a token register holds the reeve while a token that it names is pending, and
with one it writes OK into it once none is. (In the step of its issue where the device is that quick: log entry 2.) -/
def Obligations.TokenWords : Prop :=
  ∀ (h : Hdr) (tk : Toks) (a b c : SReg) (s : State),
    (s.Ready h [a, b, c] → exec (.tokClr h a b c) s = .next (s.setCore s.active ((((s.me.next h).wr a 0).wr b 0).wr c 0))) ∧
    (tk.td = 0 → s.me.taken h = true → (s.me.anyPend [tk.tw1, tk.tw2, tk.tw3] = true → exec (.tokWait h tk) s = .next s) ∧
      (s.me.anyPend [tk.tw1, tk.tw2, tk.tw3] = false → exec (.tokWait h tk) s = .next (s.setCore s.active (s.me.next h)))) ∧
    (tk.td ≠ 0 → s.Quiet h → s.eager = true → exec (.tokWait h tk) s = .next (s.setCore s.active ((s.me.next h).wr tk.td 0x800000)))

/-- R109, R113 to R118: `MARK`; acquires, which at every scope but C drop the clean lines of the L1; releases, which at scope C stamp the dirty lines
of any L1 and record an epoch in the log and at the others, over an empty L1, empty it; `FENCE` is a release and an acquire. At the other scopes a
dirty line goes home, its marks and stamp cleared; a `FENCE` then drops it. Each takes a place in LQ and in SQ. Besides, only the record of racing
writes changes (R127: what the core has written is ordered). At a core at rest whose words' work follows in their step (log entry 2). -/
def Obligations.OrderingWords : Prop :=
  ∀ (h : Hdr) (tk : Toks) (sc : BitVec 2) (s : State), s.Quiet h → s.eager = true →
    let fin := fun (g : CoreSt) => g.finished h [.lq, .sq] [] tk.td 0x800000
    let done := fun (x : State) (g : CoreSt) => (.next (x.setCore s.active (fin g)) : Out)
    let noted := { s with writes := s.writes.map (fun w => if w.by_.core = s.active then { w with past := true } else w) }
    exec (.mark h tk) s = done s s.me ∧ exec (.acq h tk sc) s = done s (Spec.acquired sc s.me) ∧
    (sc = 0 ∨ s.me.loc.l1 = [] → s.me.loc.plog.length < 32 →
      exec (.rel h tk sc) s = done noted (Spec.released sc s.me) ∧ exec (.fence h tk sc) s = done noted (Spec.acquired sc (Spec.released sc s.me))) ∧
    (∀ (n : Nat) (x : L1Line) (s' : State), sc ≠ 0 → s.me.loc.l1 = [(n, some x)] → x.dirty ≠ 0 → s.clsWaits x.cls (256 * n) = false →
      s.homeWrite n x.key x.compr x.data x.dirty = .ok s' →
      (∃ t g, exec (.rel h tk sc) s = .next t ∧ t.mem = s'.mem ∧ t.tags = s'.tags ∧ t.core s.active = fin g ∧
        g = { s.me with loc := { s.me.loc with l1 := g.loc.l1, plog := [] } } ∧ g.l1Get n = some { x with dirty := 0, stamp := none, sts := [] }) ∧
      (∃ t g, exec (.fence h tk sc) s = .next t ∧ t.mem = s'.mem ∧ t.tags = s'.tags ∧ t.core s.active = fin g ∧
        g = { s.me with loc := { s.me.loc with l1 := g.loc.l1, plog := [] } } ∧ g.l1Get n = none))

/-- R259 to R261: `GATE.INIT` of a gate of the croft itself sets its count and phase 0. `GATE.ARR` at any croft whose gates the context holds counts down,
opens the gate at zero (the phase advances and the count starts again) and marks an excess, as it does every arrival at a gate of `INIT` 0; at parked
gates it does so in the park area; at a gate that the context never initialised it is dropped, and the token says GONE. `GATE.WAIT` for a phase that the
gate has passed by 1 to 2^31, or at a gate of `INIT` 0, answers the phase and the overflow bit. R262, R263: `RPUSH` into a ring that is not full and
`RPOP` from one that is not empty move one slot and one count, and answer the new count. At a core at rest whose words' work follows in their step
(log entry 2). -/
def Obligations.GateWords : Prop :=
  (∀ (h : Hdr) (tk : Toks) (g n p : SReg) (lim : BitVec 6) (s : State), s.active < 256 → s.Quiet h → s.eager = true →
    let name := s.me.rd g
    let t := (name.extractLsb' 6 8).toNat
    let num := (name.extractLsb' 0 6).toNat
    let cnt := ((s.me.rd n).extractLsb' 0 40).toNat
    let fin := fun (x : State) (word : Word) => x.setCore s.active (s.me.finished h [.sq] [] tk.td word)
    let parked := descPark (s.descOf s.me.ctx.part s.me.ctx.asid) + 0x10000 + 1024 * t + 16 * num
    (t = s.active → exec (.gateInit h tk g n) s = .next (fin (s.setGate s.active num ⟨cnt, cnt, 0, false, true⟩) 0x800000)) ∧
    (SMap.get 0 s.gateAsid t = s.me.ctx.asid + 1 →
      ((s.gate t num).valid = true → (s.core t).slot.gated = false → ∃ u, exec (.gateArr h tk g n) s = .next u ∧ u.gate t num = Spec.arrived (s.gate t num) cnt ∧
        (∀ c i, i < 64 → (c ≠ t ∨ i ≠ num) → u.gate c i = s.gate c i) ∧ u.core s.active = s.me.finished h [.sq] [] tk.td 0x800000 ∧
        (∀ c, c ≠ s.active → u.core c = s.core c) ∧ u.mem = s.mem) ∧
      ((s.gate t num).valid = false → exec (.gateArr h tk g n) s = .next (fin s 0x800005))) ∧
    (SMap.get 0 s.gateAsid t ≠ s.me.ctx.asid + 1 → s.paWaits parked = false → ∀ bs, s.phys parked 16 = .ok bs →
      let x := Gate.ofBits (leNat bs)
      (x.valid = false → exec (.gateArr h tk g n) s = .next (fin s 0x800005)) ∧
      (x.valid = true → exec (.gateArr h tk g n) s = .next (fin (s.physPut parked (natBytes 16 (Spec.arrived x cnt).bits)) 0x800000))) ∧
    (t = s.active →
      let x := s.gate s.active num
      let past := (x.phase + 2 ^ 32 - ((s.me.rd p).extractLsb' 0 32).toNat) % 2 ^ 32
      (x.init = 0 ∨ (1 ≤ past ∧ past ≤ 2 ^ 31)) → exec (.gateWait h tk g p lim) s = .next (fin s (cword 0 x.ovr.toNat x.phase)))) ∧
  (∀ (h : Hdr) (tk : Toks) (r v d : SReg) (lim : BitVec 6) (l : Loc) (off lo logn : Nat) (s : State), s.Quiet h → s.eager = true → s.lbad = [] →
    (∀ x ∈ s.cores, x.1 ≠ s.active → x.2.q.es = []) → Spec.ringIs s (s.me.rd r) l off lo logn →
    let hd := Spec.winNat s l (off + 16) 4
    let tl := Spec.winNat s l (off + 20) 4
    let ok := fun (n : Nat) => BitVec.ofNat 64 (0x800000 + 2 ^ 24 * n)
    let at_ := fun (o : Nat) => Spec.place s l 0 o
    ((tl + 2 ^ 32 - hd) % 2 ^ 32 < 2 ^ logn →
      let slot := lo + 8 * (tl % 2 ^ logn)
      ∃ t, exec (.rpush h tk r v lim) s = .next t ∧ Spec.wroteLocal s t s.me (fun g => g.finished h [.sq] [] tk.td (ok ((tl + 1) % 2 ^ 32))) ∧
        Spec.winNat t l slot 8 = (s.me.rd v).toNat ∧ Spec.winNat t l (off + 20) 4 = (tl + 1) % 2 ^ 32 ∧
        ∀ l' a, (l' = l → (a < at_ slot ∨ at_ slot + 8 ≤ a) ∧ (a < at_ (off + 20) ∨ at_ (off + 20) + 4 ≤ a)) → Spec.spaceByte t l' a = Spec.spaceByte s l' a) ∧
    (tl ≠ hd → ∃ t, exec (.rpop h tk d r lim) s = .next t ∧
      Spec.stored s t l (off + 16) 4 ((hd + 1) % 2 ^ 32) s.me
        (fun g => g.finished h [.sq] [.s d (BitVec.ofNat 64 (Spec.winNat s l (lo + 8 * (hd % 2 ^ logn)) 8))] tk.td (ok ((hd + 1) % 2 ^ 32)))))

-- ### Blocks and residual stacks (R272 to R291)

/-- R280: `BLK.BEGIN` on the bound stack whose id its first register names opens a block: a frame whose header, at the stack's depth, holds the PC, the
displacement, the sizes and flags of the parameters, the former top and `KEEP`, the size of header, seeds and, when `DEM` or `RCP` is 1, the scalar
section (R277), which s16 to s31 fill; the payload cursor and the seeds taken are 0, and the seed section is zero. No byte below the frame changes,
and none of its payload. (The steps that a core notes of its stack, for a later cut, change with it: R278, R362.) -/
def Obligations.BlockBegins : Prop :=
  ∀ (h : Hdr) (a b : SReg) (p : BlkParm) (s : State) (st : Stack), s.Ready h [a, b] → s.me.blockOpen = false → s.me.q.es = [] → s.me.res.stack = some st → s.me.res.redo = [] →
    s.me.reading = false → ((s.me.rd a).extractLsb' 0 16).toNat = st.id → st.depth - st.cold + 64 * p.fsz.toNat ≤ 65536 → 1 ≤ p.fsz.toNat → st.topf < 2 ^ 48 →
    ∃ (k : CoreSt) (u : Stack), exec (.blkBegin h a b p) s = .next (s.setCore s.active k) ∧
      k = { s.me with f := { (s.me.next h).f with blk := ⟨true, 0, s.me.f.pc, 0, 0⟩ }, res := k.res } ∧
      k.res.stack = some u ∧ k.res.walk = s.me.res.walk ∧ k.res.outer = false ∧ u = { st with bytes := u.bytes } ∧
      (let x := u.hdr st.depth
       frBpc x = s.me.f.pc ∧ frEpc x = 0 ∧ frGdisp x = s.me.rd b ∧ frFsz x = p.fsz.toNat ∧ frNseed x = p.nseed.toNat ∧ frDem x = p.dem ∧ frRcp x = p.rcp ∧
       frDmtd x = false ∧ frUf x = false ∧ frHsave x = p.hsave ∧ frPbytes x = 0 ∧ frPrev x = st.topf ∧
       let scal : Nat := if p.dem || p.rcp then 128 else 0
       frKeep x = 64 + 64 * ((4 * p.nseed.toNat + 63) / 64) + scal ∧
       (∀ j, st.depth + 64 ≤ j → j < st.depth + frKeep x - scal → SMap.get 0 u.bytes j = 0) ∧
       (0 < scal → ∀ i < 16, u.num (st.depth + frKeep x - 128 + 8 * i) 8 = (s.me.rd (BitVec.ofNat 6 (16 + i))).toNat)) ∧
      ∀ d, (d < st.depth ∨ st.depth + frKeep (u.hdr st.depth) ≤ d) → SMap.get 0 u.bytes d = SMap.get 0 st.bytes d

/-- R281, R300, R272: `BLK.END` completes in an open block: the PC and the cursor go into the header, the frame becomes the top one above its
payload, and the block state is cleared; at the end of a replay, once the queues are empty and every item is written, it leaves the frame with its
payload again and starts the walk. Without a block, FRAME, and at the end of a replay that has not written every item; and FRAME is what a second
`BLK.BEGIN`, a `REVB` and an `RS.DROP` raise inside one. -/
def Obligations.BlockEnds : Prop :=
  (∀ (h : Hdr) (s : State) (st : Stack), s.me.taken h = true → s.me.blockOpen = true → s.me.f.blk.dir = 0 → s.me.res.stack = some st → s.me.res.redo = [] →
    ∃ (r : Resid) (u : Stack), exec (.blkEnd h) s = .next (s.setCore s.active ({ s.me with
        f := { s.me.f with blk := ⟨false, 0, 0, 0, 0⟩ }, res := r }.next h)) ∧
      r.stack = some u ∧ r.walk = s.me.res.walk ∧ r.outer = false ∧ u.topf = st.depth ∧ u.nfr = st.nfr + 1 ∧ u.id = st.id ∧ u.cold = st.cold ∧
      (s.me.f.blk.cur < 2 ^ 32 →
        let x := u.hdr st.depth
        frEpc x = s.me.f.pc ∧ frPbytes x = s.me.f.blk.cur ∧ frDmtd x = frRcp (st.hdr st.depth) ∧ frUf x = false ∧ frBpc x = frBpc (st.hdr st.depth) ∧
        u.depth = st.depth + frKeep x + (if frDmtd x then 0 else 64 * ((frPbytes x + 63) / 64))) ∧
      ∀ d < st.depth, SMap.get 0 u.bytes d = SMap.get 0 st.bytes d) ∧
  (∀ (h : Hdr) (s : State) (st : Stack), s.me.taken h = true → s.me.blockOpen = true → s.me.f.blk.dir = 2 → s.me.res.stack = some st → s.me.q.es = [] →
    (s.me.f.blk.cur ≠ frPbytes (st.hdr st.topf) → exec (.blkEnd h) s = .next (trapAtIssue s.active .frame 0 0 s)) ∧
    (∀ pc s1, s.me.f.blk.cur = frPbytes (st.hdr st.topf) → prevUnit s.active s.me.f.pc s = (.ok pc, s1) → (s1.core s.active).f = s.me.f →
      exec (.blkEnd h) s = .next (s1.modCore s.active (fun k => { k with
        f := { k.f with pc := pc, blk := ⟨false, 1, pc, s.me.f.blk.cur, 0⟩ }, res := { k.res with stack := some st.revive, outer := false } })))) ∧
  (∀ (h : Hdr) (s : State), s.me.taken h = true → s.me.blockOpen = false → exec (.blkEnd h) s = .next (trapAtIssue s.active .frame 0 0 s)) ∧
  (∀ (h : Hdr) (a b : SReg) (p : BlkParm) (s : State), s.me.blockOpen = true →
    exec (.blkBegin h a b p) s = .next (trapAtIssue s.active .frame 0 0 s) ∧ exec (.revb h) s = .next (trapAtIssue s.active .frame 0 0 s) ∧
    exec (.rsDrop h a) s = .next (trapAtIssue s.active .frame 0 0 s))

/-- R291: `REVB` with the queues empty starts the reverse walk of the top frame that a block left whole: from the unit before its `BLK.END`, with the
cursor at the end of the payload; the block is not open, and the frame's fields stand by. With no frame it raises RSUNF, with no stack FRAME. -/
def Obligations.ReverseWalkBegins : Prop :=
  ∀ (h : Hdr) (s : State), s.me.taken h = true → s.me.blockOpen = false → s.me.q.es = [] →
    (s.me.res.stack = none → exec (.revb h) s = .next (trapAtIssue s.active .frame 0 0 s)) ∧
    (∀ st, s.me.res.stack = some st → st.nfr = 0 → exec (.revb h) s = .next (trapAtIssue s.active .rsunf 0 0 s)) ∧
    (∀ (st : Stack) (pc : Word) (s1 s2 s3 : State), s.me.res.stack = some st → 0 < st.nfr → st.lost = 0 → s2.lbad = [] →
      let f := st.hdr st.topf
      st.cold ≤ st.topf → frUf f = false → frDmtd f = false → unitIs s.active (frBpc f) Raw.isBlkBegin s = (.ok true, s1) →
      unitIs s.active (frEpc f) Raw.isBlkEnd s1 = (.ok true, s2) → prevUnit s.active (frEpc f) s2 = (.ok pc, s3) →
      exec (.revb h) s = .next (s3.modCore s.active (fun k => { k with
        f := { k.f with pc := pc, blk := ⟨false, 1, pc, frPbytes f, 0⟩ },
        res := { k.res with
          stack := some st, walk := some ⟨s.me.f.pc, frBpc f, frEpc f, frGdisp f, frHsave f, st.topf + frKeep f⟩, outer := false } })))

/-- R289: `RS.MARK` writes the stack's depth below the count of frames mod 2^16; `RS.DROP` takes the stack back to a depth at which a frame begins or the
stack ends. R288: `RS.PUSH` and `RS.POP` enter CQ where their checks
at issue pass, with the stack that those leave. R266, R267, R270: `PT.DONE` on a croft ends the issue of its point, and the PC stays at it until it retires (log entry 53); `PT.SELF` writes croft, device and launch; `CH.QRY` writes what its channel
slot says: 0 when it is not valid. At a core at rest whose words' work follows in their step (log entry 2), and of the work of entries: R287, R288, R290:
`RS.BIND` without a stack to unbind or bind, what the entries of `RS.PUSH`, `RS.POP` and `RS.SPILL` move; R265, R268: a `LAUNCH` that is rejected, accepted or
deferred, and `TL.READ`; R269 to R271: channel words put their request on the fabric, with their bytes, and await the answer, or complete at once
with no element; what `CH.RECV` takes from its queue; R419: `SIO.READ` submits a Read command, on a queue pair of its own partition. -/
def Obligations.StackMarksAndPoints : Prop :=
  (∀ (h : Hdr) (r : SReg) (s : State) (st : Stack), s.Ready h [r] → s.me.q.es = [] → s.me.res.stack = some st →
    exec (.rsMark h r) s = .next (s.setCore s.active ((s.me.next h).wr r (BitVec.ofNat 16 st.nfr ++ BitVec.ofNat 48 st.depth))) ∧
    (s.me.blockOpen = false → s.me.res.redo = [] → s.me.q.heldEs = [] → st.lost = 0 →
      (Spec.ofs (s.me.rd r) = st.depth ∨ Spec.ofs (s.me.rd r) ∈ st.allFrames) → ∃ (v : Resid) (u : Stack),
      exec (.rsDrop h r) s = .next (s.setCore s.active ({ s.me with res := v }.next h)) ∧ v.stack = some u ∧ v.walk = s.me.res.walk ∧
      u.depth = Spec.ofs (s.me.rd r) ∧ u.nfr ≤ st.allFrames.length ∧ u.bytes = st.bytes ∧ (st.allFrames.filter (· < u.depth)).length = u.nfr)) ∧
  (∀ (h : Hdr) (tk : Toks) (a : HReg) (s s1 : State) (r : Resid), s.Quiet h → s.eager = false → s1.core s.active = { s.me with res := r } →
    let n := shBytes (s.me.rdH a).shape
    (rsPushPre s.active [] [s.me.rdH a] s = (.ok (), s1) → ∃ (e : Entry) (u : CoreSt), exec (.rsPush h tk a) s = .next (s1.setCore s.active (u.enqueue h e)) ∧
      Spec.steppedTo u s1 ∧ e.op = .rsPush h tk a ∧ e.hs = [s.me.rdH a] ∧ e.td = tk.td ∧ e.qs = [.cq] ∧ e.phase = .queued ∧ e.null = false ∧
      ∀ st, s.me.res.stack = some st → st.depth - st.cold + (64 + 64 * ((n + 63) / 64)) ≤ 65536 → st.topf < 2 ^ 48 → ∃ v : Stack, r.stack = some v ∧
        v.depth = st.depth + 64 + 64 * ((n + 63) / 64) ∧ v.topf = st.depth ∧ v.nfr = st.nfr + 1 ∧ e.aux = st.depth + 65 ∧
        frUf (v.hdr st.depth) = true ∧ frPbytes (v.hdr st.depth) = n ∧ frKeep (v.hdr st.depth) = 64 ∧ frPrev (v.hdr st.depth) = st.topf ∧
        ∀ d < st.depth, SMap.get 0 v.bytes d = SMap.get 0 st.bytes d) ∧
    (rsPopPre s.active [] [s.me.rdH a] s = (.ok (), s1) → ∃ (e : Entry) (u : CoreSt), exec (.rsPop h tk a) s = .next (s1.setCore s.active (u.enqueue h e)) ∧
      Spec.steppedTo u s1 ∧ e.op = .rsPop h tk a ∧ e.hs = [s.me.rdH a] ∧ e.td = tk.td ∧ e.qs = [.cq] ∧ e.phase = .queued ∧ e.null = false ∧
      ∀ st, s.me.res.stack = some st → 0 < st.nfr ∧ frUf (st.hdr st.topf) = true ∧ frPbytes (st.hdr st.topf) = n ∧ e.aux = st.topf + 65 ∧ ∃ v : Stack,
        r.stack = some v ∧ v.depth = st.topf ∧ v.topf = frPrev (st.hdr st.topf) ∧ v.nfr = st.nfr - 1)) ∧
  (∀ (h : Hdr) (tk : Toks) (d : SReg) (ch : CReg) (s : State),
    (s.active < 256 → s.me.taken h = true → s.me.blockOpen = false → s.eager = false →
      exec (.ptDone h tk) s = .next (s.setCore s.active { s.me with slot := { s.me.slot with ending := true } })) ∧
    (s.active < 256 → s.Ready h [d, tk.tw1, tk.tw2, tk.tw3] → s.devid < 512 → (∀ pt, s.me.slot.running = some pt → pt.lid < 2 ^ 32) → ∃ x : Word,
      exec (.ptSelf h tk d) s = .next (s.setCore s.active ((s.me.next h).wr d x)) ∧ (x.extractLsb' 0 8).toNat = s.active ∧
      (x.extractLsb' 8 9).toNat = s.devid ∧ x.extractLsb' 17 15 = 0 ∧ ∀ pt, s.me.slot.running = some pt → (x.extractLsb' 32 32).toNat = pt.lid) ∧
    (s.Ready h [d, tk.tw1, tk.tw2, tk.tw3] →
      let at_ := s.winAddr s.me.ctx.part (((s.me.rdCh ch).extractLsb' 32 16).toNat % 4096)
      let answer := fun (u : State) => ∃ x : Word, exec (.chQry h tk d ch) s = .next (u.setCore s.active ((s.me.next h).wr d x)) ∧
        ((s.me.rdCh ch).getLsbD 0 = false → x = 0) ∧ ((s.me.rdCh ch).getLsbD 0 = true → x.getLsbD 0 = true ∧ x.extractLsb' 1 7 = (s.me.rdCh ch).extractLsb' 1 7)
      ((s.me.rdCh ch).getLsbD 0 = false ∨ (s.me.rdCh ch).getLsbD 2 = false → answer s) ∧
      ((s.me.rdCh ch).getLsbD 0 = true → (s.me.rdCh ch).getLsbD 2 = true → s.paWaits at_ = false →
        s.windowErr s.me.ctx.part (((s.me.rdCh ch).extractLsb' 32 16).toNat % 4096) = none → answer (s.touched at_ 32 0)))) ∧
  (∀ (h : Hdr) (tk : Toks) (a b : SReg) (l : Loc) (s : State), s.Quiet h → s.eager = true →
    (s.me.res.stack = none → (s.me.rd a).extractLsb' 0 16 = 0xFFFF →
      exec (.rsBind h tk a) s = .next (s.setCore s.active (s.me.finished h [.lq, .sq] [] tk.td 0x800000))) ∧
    (s.me.res.stack = none → exec (.rsSpill h tk) s = .next (trapAtIssue s.active .frame 0 0 s)) ∧
    (let off := Spec.ofs (s.me.rd a)
     let at_ := s.passTurn s.active
     l ≠ .lane → Spec.idx (s.me.rd a) = Spec.winIdx l → Spec.inWindow s l off 65600 → off % 64 = 0 → s.lbad = [] →
     let named := fun (x : Launch) => x.lid = ((s.me.rd b).extractLsb' 0 32).toNat
     ((∀ x ∈ (s.part s.me.ctx.part).launches, ¬named x) →
       exec (.tlRead h tk a b) s = .next (at_.setCore s.active (s.me.finished h [.cq] [] tk.td 0x80000A))) ∧
     (∀ x, (s.part s.me.ctx.part).launches = [x] → named x → 0 < x.saved.length → x.saved.length ≤ 65600 → ∃ t, exec (.tlRead h tk a b) s = .next t ∧
       Spec.stored at_ t l off x.saved.length (leNat x.saved) s.me (fun g => g.finished h [.cq] [] tk.td (Spec.okWord x.saved.length))))) ∧
  (∀ (e : Entry) (R : BitVec 512) (l : Loc) (st : Stack) (s : State), Spec.tensorIn s R l → Spec.byteFmt R → s.me.res.stack = some st → s.lbad = [] →
    (e.hd 0).shape = R → e.aux ≠ 0 →
    (∀ x ∈ s.me.q.es, x.fills = false) → shBytes R ≤ 65408 →
    ((shInjective R = true ∨ shOverlap R = true) → ∃ m, runRsPush s.active e s = (.ok (.done [] (Spec.okWord (shBytes R))),
        s.setCore s.active { s.me with res := { s.me.res with stack := some { st with bytes := m } } }) ∧
      ∀ d, SMap.get 0 m d = if e.aux - 1 ≤ d ∧ d < e.aux - 1 + shBytes R then (Spec.tensorBytes s l R).getD (d - (e.aux - 1)) 0 else SMap.get 0 st.bytes d) ∧
    (Spec.writable R → let es := fmtWidth (shFmt R) / 8
      ∃ t, runRsPop s.active e s = (.ok (.done [] (Spec.okWord (shBytes R))), t) ∧
        Spec.tensorStored s t l R (fun n => Spec.itemNat st e (es * n) es) s.me id)) ∧
  (∀ (c : Nat) (e : Entry) (st o : Stack) (s s1 : State), (s.core c).res.stack = some st → e.stk = some o → o.gen = st.gen →
    ((s.core c).before e).any Entry.fills = false →
    let lim := min (min o.depth st.depth) (fillLow ((s.core c).q.es ++ (s.core c).q.heldEs))
    let m := st.spillAll (s.core c).openedBlk (s.tierRoom (s.core c).ctx.part st) (st.nfr + 1) lim
    applyMoved c true st m s = (.ok (), s1) → runRsSpill c e s = (.ok (.done [] (Spec.okWord m.n)), s1)) ∧
  (∀ (c : Nat) (e : Entry) (l : Loc) (bs : List Byte) (code : Nat) (s s1 s2 s3 s4 : State), Spec.ofs (e.x 0) % 256 = 0 →
    checkSpan c .copy .rd (e.x 0) (Spec.ofs (e.x 0)) (Spec.ofs (e.x 0) + 255) s = (.ok l, s1) → releaseBy c 2 e s1 = (.ok (), s2) →
    homeRead c l .rd (e.x 0) (Spec.ofs (e.x 0)) 256 s2 = (.ok bs, s3) →
    let k := s3.core c
    let p := k.ctx.part
    let d : Deferred := ⟨BitVec.ofNat 2048 (leNat bs), k.ctx.asid, descVf k.ctx.desc, some (c, e.td), k.slot.running⟩
    judge p k.ctx.asid d.rec_ s3 = (.ok code, s4) →
    let free := (s4.part p).launches.length < 64 ∧ (s4.part p).deferred = [] ∧ ((s4.part p).mg.st = .run ∨ (s4.part p).mg.st = .live)
    (code ≠ 0 → code < 256 → ∀ s5, reject p d code s4 = (.ok (), s5) → runLaunch c e s = (.ok (.done [] (BitVec.ofNat 64 (0x800002 + 256 * code))), s5)) ∧
    (code = 0 → free → runLaunch c e s = (.ok (.done [] (Spec.okWord (accept p d noSlot s4).1)), (accept p d noSlot s4).2)) ∧
    (code = 0 → ¬free → runLaunch c e s = (.ok .handed, s4.modPart p (fun q => { q with deferred := q.deferred ++ [d] })))) ∧
  (∀ (h : Hdr) (tk : Toks) (ch : CReg) (a : HReg) (r xr p v d : SReg) (gen : Bool) (op : BitVec 3) (sz : BitVec 1) (R : BitVec 512) (l : Loc) (s : State),
    s.Quiet h → s.eager = true → s.lbad = [] → s.fab.redir = [] → s.me.q.heldEs = [] → Spec.holds s.me a R → Spec.byteFmt R → shBitoff R = 0 → shBytes R ≤ 65536 →
    let x := s.me.rdCh ch
    let dev := (x.extractLsb' 16 9).toNat
    let gate := if gen then some (s.me.rd xr) else none
    x.getLsbD 0 = true →
    (let bs := Spec.tensorBytes s l R
     let group := s.groupWord s.me.ctx.part (x.extractLsb' 32 16).toNat
     Spec.tensorIn s R l → (shInjective R = true ∨ shOverlap R = true) → shBytes R ≤ (x.extractLsb' 64 40).toNat →
       (x.getLsbD 1 = true → Spec.asks s h (.chSend h tk ch a) dev (Spec.ask s x .send 0 none bs.length bs)) ∧
       (x.getLsbD 3 = true → Spec.asks s h (.chPut h tk ch a r gen xr) dev (Spec.ask s x .put (s.me.rd r) gate bs.length bs)) ∧
       (x.getLsbD 6 = true → group.getLsbD 0 = true → Spec.asks s h (.chMcast h tk ch a r gen xr) (group.extractLsb' 16 16).toNat
         { Spec.ask s x .mcast (s.me.rd r) gate bs.length bs with part := 0, win := (group.extractLsb' 32 12).toNat })) ∧
    (Spec.tensorIn s R l → Spec.writable R →
      (x.getLsbD 4 = true → Spec.asks s h (.chGet h tk a ch r gen xr) dev (Spec.ask s x .get (s.me.rd r) none (shBytes R) [])) ∧
      (let w := (x.extractLsb' 32 16).toNat
       let q := s.qpair w
       let ring := SMap.get .zero s.stor.rings w
       let size : Nat := if q.blk then 4096 else 512
       x.getLsbD 7 = true → shBytes R % size = 0 → q.ownv = true → q.en = true → q.own = s.me.ctx.part → ring.cmds.length < 2 ^ q.qlog - 1 →
         s.paWaits (q.sqb + 64 * ring.tail) = false → ∃ (t : State) (e : Entry), exec (.sioRead h tk a ch r gen xr) s = .next t ∧ t.me.q.es = [e] ∧ e.phase = .pend ∧
           t.fab.out = s.fab.out ++ [.nvme w (x.extractLsb' 128 32).toNat (s.me.rd r).toNat (shBytes R / size - 1), .doorbell q.sqdb ((ring.tail + 1) % 2 ^ q.qlog)] ∧
           (SMap.get .zero t.stor.rings w).cmds.length = ring.cmds.length + 1)) ∧
    (x.getLsbD 5 = true → let n : Nat := if sz = 0 then 4 else 8
      let code : Nat := if op.toNat < 6 then op.toNat else op.toNat + 2
      Spec.asks s h (.chAmo h tk d ch p v op sz) dev { Spec.ask s x .amo (s.me.rd p) none n [] with
        op := code, size := n, x := (s.me.rd v).toNat % 2 ^ (8 * n), y := (s.me.rd d).toNat % 2 ^ (8 * n) }) ∧
    (shCount R = 0 →
      let none_ := fun (i : Instr) => exec i s = .next ((s.passTurn s.active).setCore s.active (s.me.finished h [.cq] [] tk.td 0x800000))
      (x.getLsbD 1 = true → none_ (.chSend h tk ch a)) ∧ (x.getLsbD 3 = true → none_ (.chPut h tk ch a r gen xr)) ∧
      (x.getLsbD 4 = true → none_ (.chGet h tk a ch r gen xr)) ∧ (x.getLsbD 2 = true → none_ (.chRecv h tk a ch 0)))) ∧
  (∀ (c : Nat) (e : Entry) (ch : CReg) (s : State), let q := s.qpair (((s.core c).rdCh ch).extractLsb' 32 16).toNat
    (q.ownv = false ∨ q.en = false ∨ q.own ≠ (s.core c).ctx.part) → runSioRead ch c e s = (.error (.trap .badch (BitVec.ofNat 64 ch.toNat)), s)) ∧
  ∀ (c : Nat) (e : Entry) (ch : CReg) (x : BitVec 256) (t0 : Tens) (lb bs : List Byte) (s s1 s2 s3 s4 s5 : State),
    let p := (s.core c).ctx.part
    let w := (((s.core c).rdCh ch).extractLsb' 32 16).toNat % 4096
    let m := winHead x
    let q := winQptr x
    let slots := 2 ^ winQlog x
    let asid := (s.part p).tb.asidbase + winCtx x
    let cap := shBytes (e.hd 0).shape
    0 < shCount (e.hd 0).shape → openWindow c p w s = (.ok x, s1) →
    (winPending x = 0 → runChRecv ch c e s = (.error .wait, s1)) ∧
    (winPending x ≠ 0 → openDest c e s1 = (.ok t0, s2) → 0 < min (leNat lb) cap →
      inContextM p asid (fun h => globalRead h q (Spec.ofs q + (slots * winQsz x + 4 * (m % slots))) 4) s2 = (.ok lb, s3) →
      inContextM p asid (fun h => globalRead h q (Spec.ofs q + m % slots * winQsz x) (min (leNat lb) cap)) s3 = (.ok bs, s4) → writeTensor c t0 bs s4 = (.ok (), s5) →
      runChRecv ch c e s = (.ok (.done [] (if cap < leNat lb then BitVec.ofNat 64 (0x800008 + 2 ^ 24 * (leNat lb % 2 ^ 40)) else Spec.okWord (leNat lb))),
        { s5.physPut (s5.winAddr p w + 20) (natBytes 4 ((m + 1) % 2 ^ 32)) with agenda := s5.agenda ++ [.portRetry] }))

-- ### Points and channels at issue (R266, R267, R270)

-- ### Events: what the device does by itself and what its surroundings do to it

/-- R326, R444 to R453: a command of the management interface that comes while none is in progress: the mailbox is written, and it has its effect and the
answer 0 (OK), or the answer to its arguments; while another is in progress the answer is 1 (BUSY). A command that begins and is done
later does what it does at once. The model's choices here: which error an answer has where several hold, and of which argument (log entry 66), the form of the
telemetry report (log entry 61), and a command in two events, its begin and its end (log entry 103). -/
def Obligations.ManagementCommands : Prop :=
  ∀ s : State,
    let m := mailbox s
    (∀ i f, mgmtRun i = some f → (s.mgmt.pending.isSome = true → exec i s = .next { m with mgmt := { s.mgmt with answer := 1 } }) ∧
      (s.mgmt.pending = none → exec i s = .next (f m) ∧ mgmtEnd (mgmtBegin i s) = f m)) ∧
    (s.mgmt.pending = none →
      (∀ w, 1500 ≤ w → w ≤ 3400 → exec (.plimit w) s = .next { m with mgmt := { s.mgmt with plimit := w, answer := 0 } }) ∧
      (∀ w, (w < 1500 ∨ 3400 < w) → exec (.plimit w) s = .next { m with mgmt := { s.mgmt with answer := 2 } }) ∧
      (∀ n, s.inUse = [] → n ≤ 2 ^ 18 → exec (.tagfr n) s = .next { m with tagfr := n, mgmt := { s.mgmt with answer := 0 } }) ∧
      (exec .clrcnt s = .next { m with mgmt := { s.mgmt with tel := [], answer := 0 } }) ∧
      (exec .fullreq s = .next { m with mgmt := { s.mgmt with boot := { s.mgmt.boot with failcnt := 2 }, answer := 0 } }) ∧
      (∃ r, exec .telem s = .next { m with mgmt := { s.mgmt with report := r, answer := 0 } } ∧ ∀ x ∈ s.mgmt.tel, x.1 ∈ r ∧ x.2 ∈ r) ∧
      (∀ n < 32, s.inUse.all (fun e => !e.2.sset.getLsbD n) = true → ∃ u, exec (.retire n) s = .next u ∧ u.mgmt.retired.getLsbD n = true ∧
        (∀ j, j ≠ n → u.mgmt.retired.getLsbD j = s.mgmt.retired.getLsbD j) ∧ u.mgmt.answer = 0 ∧ u.parts = s.parts ∧ u.cores = m.cores) ∧
      (∀ n < 16, ∃ u v, exec (.hamletFence n) s = .next u ∧ exec (.unfence n) s = .next v ∧ u.mgmt.fenced.getLsbD n = true ∧
        v.mgmt.fenced.getLsbD n = false ∧
        (∀ j, j ≠ n → u.mgmt.fenced.getLsbD j = s.mgmt.fenced.getLsbD j ∧ v.mgmt.fenced.getLsbD j = s.mgmt.fenced.getLsbD j) ∧
        u.mgmt.answer = 0 ∧ v.mgmt.answer = 0) ∧
      (∀ (nonce : BitVec 256) (p : Nat), (p = 0xF ∨ (s.part p).prov = true) → ∃ r, exec (.attest nonce p) s =
        .next { m with mgmt := { s.mgmt with report := r, answer := 0 } } ∧ r.length = 576 ∧ r.take 32 = (natBytes 32 nonce.toNat).map BitVec.toNat) ∧
      (∀ a : ProvArgs, s.ready = true → s.mgmt.boot.minmode = false →
        (provBad s a = true → exec (.provision a) s = .next { m with mgmt := { s.mgmt with answer := 2 } }) ∧
        (provBad s a = false → provDenied s a = true → exec (.provision a) s = .next { m with mgmt := { s.mgmt with answer := 3 } }) ∧
        (provBad s a = false → provDenied s a = false → provAssigned s a = true → ∃ u, exec (.provision a) s = .next u ∧ u.mgmt.answer = 0 ∧
          (u.part a.p).prov = true ∧ (u.part a.p).hset = a.hset ∧ (u.part a.p).sset = a.sset ∧ (u.part a.p).nvf = a.nvf ∧
          (u.part a.p).tb.ctxcnt = a.ctxcnt ∧ u.mgmt.provisioned = true ∧ (∀ q, q ≠ a.p → u.part q = s.part q) ∧ u.mem = s.mem)) ∧
      (∀ p, (s.part p).prov = true → (s.part p).launches = [] → s.fab.admitted = [] → s.fab.inbox = [] → ∃ u, exec (.release p) s = .next u ∧
        u.mgmt.answer = 0 ∧ u.part p = .free) ∧
      (∀ p, (s.part p).prov = true → (s.part p).mg.busy = false → (s.part p).mg.st ≠ .sent → (s.part p).mg.st ≠ .loaded → s.fab.admitted = [] →
        s.fab.inbox = [] → ∃ u, exec (.preset p) s = .next u ∧ u.mgmt.answer = 0 ∧ (u.part p).prov = true ∧ (u.part p).launches = [] ∧
        (u.part p).hset = (s.part p).hset) ∧
      (∃ u, exec .wreset s = .next u ∧ u.mgmt.answer = 0 ∧ (s.inUse = [] → ∀ f < 8, u.core (256 + f) = .cold)))

/-- R435 to R439, R450, R451: a cold start leaves the module at its reset values with the sequence running; a stage that passes becomes the stage
reached, the last one ends the sequence, and one that fails stops it with a reason that the table has for that stage; a stall is reason
0x0A; the loss of power takes everything; power steps go one down or up; the clock that temperature allows is set, and logged when the
clock in force changes. The model's choices here: memory reads zero after a cold start or a loss of power, where R447 says any value (log entry 8); which
reason a stage may fail with, the reason 0x0B past stage ROM, and what each stage does (log entry 68). -/
def Obligations.StartAndPower : Prop :=
  ∀ s : State,
    (∃ u, exec .coldStart s = .next u ∧ u.mgmt.boot.running = true ∧ u.mgmt.boot.stage = 0 ∧ u.mgmt.boot.failcnt = s.mgmt.boot.failcnt ∧
      u.mgmt.boot.minmode = (s.mgmt.boot.failcnt == 3) ∧ u.mem = [] ∧ u.cores = [] ∧ u.parts = [] ∧ u.keys = [] ∧ u.cycle = 0) ∧
    (∀ r : StageResult, s.mgmt.boot.running = true → s.mgmt.boot.stage < 9 → stageMeets (s.mgmt.boot.stage + 1) r = true →
      (stageFails s.mgmt.boot (s.mgmt.boot.stage + 1) r = none → ∃ u, exec (.bootStage r) s = .next u ∧
        u.mgmt.boot.stage = s.mgmt.boot.stage + 1 ∧ u.mgmt.boot.running = decide (s.mgmt.boot.stage + 1 ≠ 9)) ∧
      (∀ reason detail, stageFails s.mgmt.boot (s.mgmt.boot.stage + 1) r = some (reason, detail) →
        (s.mgmt.boot.stage + 1, reason) ∈ [(1, 0x01), (2, 0x02), (2, 0x03), (2, 0x04), (3, 0x05), (4, 0x06), (5, 0x07), (7, 0x08), (8, 0x09)] ∧
        ∃ u, exec (.bootStage r) s = .next u ∧ u.mgmt.boot.stage = s.mgmt.boot.stage ∧ u.mgmt.boot.running = false ∧
          u.mgmt.boot.reason = reason ∧ u.mgmt.boot.detail = detail % 2 ^ 32 ∧ u.cores = s.cores ∧ u.mem = s.mem)) ∧
    (s.mgmt.boot.running = true → s.mgmt.boot.stage < 16 → ∃ u, exec .startStall s = .next u ∧ u.mgmt.boot.running = false ∧ u.mgmt.boot.reason = 0x0A ∧
      u.mgmt.boot.detail = s.mgmt.boot.stage ∧ u.cores = s.cores) ∧
    (∃ u, exec .powerLoss s = .next u ∧ u.mem = [] ∧ u.cores = [] ∧ u.parts = [] ∧ u.mgmt.boot.running = false ∧ u.mgmt.boot.failcnt = s.mgmt.boot.failcnt ∧
      (s.mgmt.boot.running = true → s.mgmt.boot.stage ≠ 0 → u.mgmt.boot.reason = 0x0B)) ∧
    (s.mgmt.pstep < 3 → ∃ u, exec .powerStepDown s = .next u ∧ u.mgmt.pstep = s.mgmt.pstep + 1 ∧ u.parts = s.parts ∧ u.cores = s.cores) ∧
    (0 < s.mgmt.pstep → ∃ u, exec .powerStepUp s = .next u ∧ u.mgmt.pstep = s.mgmt.pstep - 1 ∧ u.parts = s.parts ∧ u.cores = s.cores) ∧
    (∀ mhz, mhz ∈ [1700, 1400, 1100] → s.mgmt.boot.minmode = false → ∃ u, exec (.clockStepChange mhz) s = .next u ∧ u.mgmt.tclk = mhz ∧
      (u.clock = s.clock → u.mgmt.evlog = s.mgmt.evlog) ∧ (u.clock ≠ s.clock → u.mgmt.evlog.length = min (s.mgmt.evlog.length + 1) 1024) ∧
      u.cores = s.cores)

/-- R428 to R432: self-refresh of a stack; tests and delay codes of a channel that is in training with no test running; a test's end, with what it
compared: no lane and no bit of what the test had shown is taken back, and the count lies between one bit a lane and all bits of the lanes (how a
test's result is taken from the event is this model's choice, log entry 60); a test changes no byte outside its channel's quadrant, and only a
write-read test changes memory; a channel in training and back in service, where nothing waits on memory. -/
def Obligations.HbmEvents : Prop :=
  ∀ (s : State) (n ch : Nat), n < 32 → ch < 2048 →
    let idle := s.fab.admitted = [] ∧ s.fab.inbox = [] ∧ ∀ p, (s.part p).flts.all FltRec.posted = true ∧ (s.part p).jn.owed = [] ∧
      (s.part p).fb.wdue = false ∧ ∀ f ∈ (s.part p).fields, (s.core (256 + f)).slot.active = true
    let lanes := fun (e : Nat) => ((upTo 34).filter e.testBit).length
    (s.hbm.sref.getLsbD n = false → ∃ u, exec (.selfRefreshEnter n) s = .next u ∧ u.hbm.sref.getLsbD n = true ∧
      (∀ m, m ≠ n → u.hbm.sref.getLsbD m = s.hbm.sref.getLsbD m) ∧ u.mem = s.mem ∧ u.cores = s.cores) ∧
    (s.hbm.sref.getLsbD n = true → s.hbm.frozen = [] → idle → ∃ u, exec (.selfRefreshExit n) s = .next u ∧
      u.hbm.sref.getLsbD n = false ∧ (∀ m, m ≠ n → u.hbm.sref.getLsbD m = s.hbm.sref.getLsbD m) ∧ u.mem = s.mem ∧ u.cores = s.cores) ∧
    (s.trn ch = true → (s.phy ch).test = 0 →
      exec (.phyReadTest ch) s = .next (s.setPhy ch { s.phy ch with test := 1, terr := 0, tcnt := 0 }) ∧
      exec (.phyWriteReadTest ch) s = .next (s.setPhy ch { s.phy ch with test := 2, terr := 0, tcnt := 0 }) ∧
      ∀ v : BitVec 7, ∃ u w, exec (.phyRdall ch v) s = .next u ∧ exec (.phyWrall ch v) s = .next w ∧
        ∀ lane < 34, (u.phy ch).lane lane = (s.phy ch).lane lane / 256 * 256 + v.toNat ∧ (w.phy ch).lane lane = (s.phy ch).lane lane % 128 + 256 * v.toNat) ∧
    (∀ (terr : BitVec 34) (tcnt : BitVec 40), let x := s.phy ch
      x.test ≠ 0 → lanes x.terr ≤ x.tcnt → x.tcnt ≤ 8 * x.bursts * lanes x.terr → x.tcnt < 2 ^ 40 → ∃ u, exec (.phyTestComplete ch terr tcnt) s = .next u ∧
      let y := u.phy ch
      y.test = 0 ∧ (∀ i, x.terr.testBit i = true → y.terr.testBit i = true) ∧
      (∀ i, y.terr.testBit i = true → x.terr.testBit i = true ∨ terr.getLsbD i = true) ∧ (x.repair = 0 → y.terr = x.terr ||| terr.toNat) ∧
      x.tcnt ≤ y.tcnt ∧ lanes y.terr ≤ y.tcnt ∧ y.tcnt ≤ 8 * x.bursts * lanes y.terr ∧
      (x.tcnt + lanes y.terr - lanes x.terr ≤ tcnt.toNat → tcnt.toNat ≤ 8 * x.bursts * lanes y.terr → y.tcnt = tcnt.toNat) ∧
      (x.test ≠ 2 → u.mem = s.mem) ∧ (∀ a, a / 2 ^ 34 ≠ ch / 16 → u.byte a = s.byte a)) ∧
    (s.mgmt.provisioned = false → ∃ u, exec (.trnWrite ch true) s = .next u ∧ u.trn ch = true ∧ (∀ m, m ≠ ch → u.trn m = s.trn m) ∧ u.mem = s.mem) ∧
    (s.mgmt.provisioned = true → exec (.trnWrite ch true) s = .next s) ∧
    (s.mgmt.retired.getLsbD (ch / 64) = false → idle → ∃ u, exec (.trnWrite ch false) s = .next u ∧ u.trn ch = false ∧
      (∀ m, m ≠ ch → u.trn m = s.trn m) ∧ u.mem = s.mem)

/-- R10, R326, R337, R397, R413, R414, R418, R426: registers that a read clears; the metadata pointer and a value written through it; a register written
through the PORT window (stated of the event alone: it is `portWrite` of the register); doorbells; the mailbox. The model's choices here: `MDVAL` without a
pointer changes nothing (log entry 97), a buffer neither tagged nor compressible ignores a metadata write (log entry 36), the order in which rung doorbells are
served (log entry 101). -/
def Obligations.RegisterEvents : Prop :=
  ∀ s : State,
    (∀ p, exec (.pfdropRead p) s = .next (s.setPart p { s.part p with tb := { (s.part p).tb with pfdrop := 0 } })) ∧
    (∀ p, exec (.rdcntRead p) s = .next (s.setPart p { s.part p with fb := { (s.part p).fb with rdcnt := 0 } })) ∧
    (∀ q, ∃ u, exec (.qerrRead q) s = .next u ∧ (u.qpair q).err = 0 ∧ (u.qpair q).sqb = (s.qpair q).sqb ∧ u.cores = s.cores) ∧
    (∀ (c : Nat) (v : Word) (pl : Place) (s1 : State), mdPlace c v s = (.ok pl, s1) →
      exec (.mdptrWrite c v) s = .next (s1.setCore c { s1.core c with ctl := { (s1.core c).ctl with mdptr := some v } })) ∧
    (∀ (c : Nat) (v : Word), (s.core c).ctl.mdptr = none → exec (.mdvalWrite c v) s = .next s) ∧
    (∀ (c : Nat) (v ptr : Word) (pl : Place) (s1 : State), (s.core c).ctl.mdptr = some ptr → mdPlace c ptr s = (.ok pl, s1) → ∃ u,
      exec (.mdvalWrite c v) s = .next u ∧ u.cores = s1.cores ∧ u.mem = s1.mem ∧
      (pl.tagged = true → SMap.get 0 u.tags (pl.pa / 64) = (v.extractLsb' 0 16).toNat ∧ ∀ a, a ≠ pl.pa / 64 → SMap.get 0 u.tags a = SMap.get 0 s1.tags a) ∧
      (pl.tagged = false → pl.compr = true → (u.lineSt (pl.pa / 256)).code = (v.extractLsb' 0 4).toNat ∧ u.tags = s1.tags) ∧
      (pl.tagged = false → pl.compr = false → u = s1)) ∧
    (∀ (c off : Nat) (v : Word) (s1 : State), portWrite c off 8 v s = (.ok (), s1) → exec (.registerWrite c off v) s = .next s1) ∧
    (∀ (vf asid p i : Nat) (tail : BitVec 32), s.bellOf vf asid = some (p, i) → (s.bell p i).enabled = true →
      ((tail.toNat + 2 ^ 32 - (s.bell p i).head) % 2 ^ 32 ≤ 2 ^ (s.bell p i).rlog → ∃ u, exec (.doorbellTail vf asid tail) s = .next u ∧
        u.bell p i = { s.bell p i with tail := tail.toNat } ∧ (tail.toNat ≠ (s.bell p i).head → (u.part p).rung = (s.part p).rung ++ [(i, tail.toNat)]) ∧
        (tail.toNat = (s.bell p i).head → ∀ x ∈ (u.part p).rung, x.1 ≠ i ∧ x ∈ (s.part p).rung) ∧ u.mem = s.mem) ∧
      (2 ^ (s.bell p i).rlog < (tail.toNat + 2 ^ 32 - (s.bell p i).head) % 2 ^ 32 → ∃ u, exec (.doorbellTail vf asid tail) s = .next u ∧
        u.bell p i = { s.bell p i with rovf := true } ∧ (u.part p).rung = (s.part p).rung)) ∧
    (∀ (vf asid p i : Nat) (tail : BitVec 32), s.bellOf vf asid = some (p, i) → (s.bell p i).enabled = false → ∃ u,
      exec (.doorbellTail vf asid tail) s = .next u ∧ u.bell p i = { s.bell p i with rovf := true } ∧ (u.part p).rung = (s.part p).rung) ∧
    (∀ vf asid p i : Nat, s.bellOf vf asid = some (p, i) → ∃ u, exec (.rovfClear vf asid) s = .next u ∧ u.bell p i = { s.bell p i with rovf := false } ∧
      (u.part p).rung = (s.part p).rung) ∧
    (∃ u, exec .hostMailboxWrite s = .next u ∧ (∀ f < 8, (u.core (256 + f)).ctl.bevt = (s.core (256 + f)).ctl.bevt ||| 2) ∧ (∀ c < 256, u.core c = s.core c) ∧
      u.mem = s.mem)

/-- R22, R105, R110, R119, R123, R248, R260, R261, R285, R291, R372, R373: what a core's queues, its L1, its promotions, its gates and its stack do by
themselves, with one entry in the queues and entries left to start when an event says so (log entry 2). The model's choices here: which frame the spill
engine moves (log entry 72), which events end a cut entry (log entry 73), the walk as an event that puts its core at the front of the agenda (log entry 74). -/
def Obligations.QueueEvents : Prop :=
  ∀ (s : State) (c : Nat), s.eager = false →
    let k := s.core c
    (∀ (q : QId) (e : Entry) (r : Reply), k.q.es = [e] → k.q.trap = none → e.inQ q = true →
      (s.startable c e [] = true →
        let e1 := e.starting c s
        (e.null = true → exec (.entryStart c q) s =
          .next ({ s with author := none }.setCore c (k.setEntry 0 { e1 with phase := .done, wrs := [], word := 0x800001 }))) ∧
        (e.null = false → ∀ wrs word s', perform c e1 (s.working c e) = (.ok (.done wrs word), s') →
          exec (.entryStart c q) s = .next ({ s' with author := none }.modCore c
            (fun g => g.setEntry 0 { e1 with phase := .done, wrs := wrs, word := if e1.muted then 0x800001 else word })))) ∧
      (e.phase = .done → ∃ u, exec (.entryComplete c q 0 r) s = .next u ∧ (u.core c).q.es = [] ∧ (e.td ≠ 0 → (u.core c).rd e.td = e.word) ∧
        u.mem = s.mem ∧ ∀ d, d ≠ c → u.core d = s.core d) ∧
      (∀ h t ch a, e.phase = .pend → e.op = .chSend h t ch a → r.code < 5 → s.hasLeft c e = true → ∃ u, exec (.entryComplete c q 0 r) s = .next u ∧ (u.core c).q.es = [] ∧
        (e.td ≠ 0 → (u.core c).rd e.td = if r.code = 0 then 0x800000 else BitVec.ofNat 64 (0x800007 + 256 * r.code)) ∧ u.mem = s.mem) ∧
      (∀ l, e.lim = some l → e.phase = .waiting → e.held = false → s.ctxFrozen k.ctx.asid = false → s.overdue c e l = true → ∃ u x,
        exec (.waitTimeout c q 0) s = .next u ∧ (u.core c).q.es = [{ e with held := true }] ∧ (u.core c).q.trap = some x ∧ x.cause = .timeout ∧
        x.fpc = e.pc ∧ u.mem = s.mem)) ∧
    (∀ (line : Nat) (x : L1Line), k.l1Get line = some x →
      (x.dirty = 0 → (∃ u, exec (.l1WriteBack c line) s = .next u ∧ (u.core c).l1Get line = some { x with stamp := none } ∧ u.mem = s.mem) ∧
        ∃ u, exec (.l1Drop c line) s = .next u ∧ (u.core c).l1Get line = none ∧ (u.core c).f = k.f ∧ u.mem = s.mem) ∧
      (x.dirty ≠ 0 → (∀ s', s.clsWaits x.cls (256 * line) = false → s.homeWrite line x.key x.compr x.data x.dirty = .ok s' → ∃ u, exec (.l1WriteBack c line) s = .next u ∧ u.mem = s'.mem ∧
          (u.core c).l1Get line = some { x with dirty := 0, stamp := none, sts := [] }) ∧
        ∃ u, exec (.l1Drop c line) s = .next u ∧ u.core c = k ∧ u.mem = s.mem)) ∧
    (∀ (t i : Nat) (e : Entry), k.entryPos (Entry.asks t false) = some i → k.q.es[i]? = some e →
      ((s.core t).beingCut = true → (s.core t).drainable = false → exec (.promotionRequest c t) s = .next s) ∧
      ((s.core t).drainable = true → (s.core t).loc.l1 = [] → ∃ u, exec (.promotionRequest c t) s = .next u ∧
        (u.core c).q.es[i]? = some { e with phase := .done, wrs := [], word := 0x800000 } ∧ (u.core t).loc.promo = none ∧ u.mem = s.mem) ∧
      ((s.core t).beingCut = false → s.answers t k.ctx.part k.ctx.asid = true → ∃ u, exec (.promotionRequest c t) s = .next u ∧ (u.core t).loc.promo.isSome = true ∧
        (u.core c).q.es[i]? = some { e with aux := 1 } ∧ u.mem = s.mem) ∧
      ((s.core t).beingCut = false → s.answers t k.ctx.part k.ctx.asid = false → ∃ u, exec (.promotionRequest c t) s = .next u ∧
        (u.core c).q.es[i]? = some { e with phase := .done, wrs := [], word := 0x800000 } ∧ u.mem = s.mem)) ∧
    (∀ lines log, k.loc.promo = some (lines, log) → (∀ d, (s.core d).entryPos (Entry.asks c true) = none) →
      (∀ n ∈ lines, ∀ x, k.l1Get n = some x → s.clsWaits x.cls (256 * n) = false) → ∃ u, exec (.promotionEnd c) s = .next u ∧
      (u.core c).loc.promo = none ∧ (u.core c).loc.plog = k.loc.plog.filter (fun x => !log.contains x) ∧ (u.core c).f = k.f) ∧
    (∀ (asid p g n : Nat), s.partOfAsid asid = some p → c < 256 → g < 64 → n < 2 ^ 40 → SMap.get 0 s.gateAsid c = asid + 1 → (s.gate c g).valid = true →
      let x := s.gate c g
      ∃ u, exec (.gateArrival asid c g n) s = .next u ∧ u.mem = s.mem ∧ (∀ j, j < 64 → j ≠ g → u.gate c j = s.gate c j) ∧
        (n < x.cnt → 0 < x.init → u.gate c g = { x with cnt := x.cnt - n }) ∧
        (0 < x.cnt → 0 < x.init → n = x.cnt → u.gate c g = { x with cnt := x.init, phase := (x.phase + 1) % 2 ^ 32 }) ∧
        (0 < x.cnt → 0 < x.init → x.cnt < n → u.gate c g = { x with cnt := x.init, phase := (x.phase + 1) % 2 ^ 32, ovr := true })) ∧
    (c < 264 → k.walking = true → exec (.revbWalk c) s = .next { s with agenda := .core c :: s.agenda }) ∧
    (∀ (st : Stack) (s1 : State), k.res.stack = some st → st.cold < st.depth →
      let lim := min st.depth (fillLow (k.q.es ++ k.q.heldEs))
      let m := st.moveOut k.openedBlk (s.tierRoom k.ctx.part st) (st.nfr + 1) lim
      (st.coldNext ≤ lim → st.lowerFits (s.tierRoom k.ctx.part st) st.coldNext = true → m.ok = true ∧ m.st = { st with cold := st.coldNext } ∧ m.shifts = []) ∧
      (m.ok = true → (k.reading && !m.shifts.isEmpty) = false → applyMoved c true st m s = (.ok (), s1) →
        exec (.spillEngineMove c) s = .next s1 ∧ (s1.core c).res.stack = some m.st)) ∧
    (k.q.trap = none → exec (.cutComplete c) s = .next s) ∧
    (∀ (pt : Point) (l : Launch) (i : Nat), k.q.trap = some drainTrap → k.cutReady = true → k.slot.running = some pt →
      s.launch? k.ctx.part pt.lid = some l → s.freeArea k.ctx.part k.ctx.asid = some i →
      s.runWaits (s.poolArea k.ctx.part k.ctx.asid i) areaSize = none → s.l1Waits c = false → s.lbad = [] → ∃ u l', exec (.cutComplete c) s = .next u ∧
        u.launch? k.ctx.part pt.lid = some l' ∧ ∃ x ∈ l'.cutPts, x.pt = pt ∧ x.area = some i)

/-- R35, R40 to R46, R49, R266, R371 to R375, R380, R414: the hayward accepts records, fires, places and starts points and retires them; pre-emption
commands and role commands. The model's choices here: the order in which rings are served (log entry 101), and parked gates without their idle cycles
(log entry 30). -/
def Obligations.HaywardEvents : Prop :=
  ∀ (s : State) (p : Nat),
    let q := s.part p
    (∀ (asid i : Nat) (s1 : State), s.partOfAsid asid = some p → i = s.ctxIndex p asid → takeSlot p i s = (.ok (), s1) →
      s.nextRing p ≠ some i → exec (.ringSlotRead asid) s = .next s) ∧
    (∀ (asid i code : Nat) (bs : List Byte) (s1 : State), s.partOfAsid asid = some p → i = s.ctxIndex p asid → s.nextRing p = some i →
      let b := s.bell p i
      let pa := b.base + 256 * (b.head % 2 ^ b.rlog)
      let x := BitVec.ofNat 2048 (leNat bs)
      b.enabled = true → q.headDeferred i = false → (q.mg.st = .run ∨ q.mg.st = .live) → s.paWaits pa = false → s.phys pa 256 = .ok bs →
      judge p asid x (s.touched pa 256 0) = (.ok code, s1) → s1.parts = s.parts →
      (code = 0 → s1.accepts p = true → ∃ u l, exec (.ringSlotRead asid) s = .next u ∧ (u.part p).launches = q.launches ++ [l] ∧
        l.lid = q.nextLid ∧ l.rec_ = x ∧ l.asid = asid ∧ l.st = .running ∧ l.tl = .empty ∧ (u.part p).nextLid = (q.nextLid + 1) % 2 ^ 32 ∧
        (u.bell p i).head = (b.head + 1) % 2 ^ 32 ∧ (u.bell p i).tail = b.tail) ∧
      (code = 0 → s1.accepts p = false → ∃ u d, exec (.ringSlotRead asid) s = .next u ∧ (u.part p).deferred = q.deferred ++ [d] ∧
        d.rec_ = x ∧ d.core = none ∧ (u.part p).launches = q.launches ∧ u.bell p i = b ∧ u.mem = s1.mem) ∧
      (code ≠ 0 → ∀ s2, reject p { rec_ := x, asid := asid, vf := descVf (s.descOf p asid), core := none, pt := none } code s1 = (.ok (), s2) →
        exec (.ringSlotRead asid) s = .next (passSlot p i s2))) ∧
    (∀ d rest, q.deferred = d :: rest → q.launches.length < 64 → q.mg.st = .run → d.core = none → ∃ u l, exec (.deferredAccept p) s = .next u ∧
      (u.part p).launches = q.launches ++ [l] ∧ l.rec_ = d.rec_ ∧ l.lid = q.nextLid ∧ l.st = .running ∧ (u.part p).deferred = rest ∧
      (u.bell p (s.ctxIndex p d.asid)).head = ((s.bell p (s.ctxIndex p d.asid)).head + 1) % 2 ^ 32) ∧
    (∀ (l : Launch) (pt : Point) (c : Nat) (staged : Bool), q.launches = [l] → s.firstFireable p l = some pt → s.placeFor p l = some (c, staged) →
      rcPrio l.rec_ < 4 → 0 < l.credit → ∃ u, exec (.pointFire p) s = .next u ∧
      (u.part p).launches = [{ l with credit := l.credit - 1, age := s.cycle.toNat }] ∧
      (if staged then (u.core c).slot.staged = some pt else (u.core c).slot.running = some pt ∧ (u.core c).slot.active = false) ∧
      l.doneAt pt.x pt.y pt.z = false ∧ predsDone [l] l pt.x pt.y pt.z = true ∧ s.permits p l c = true ∧ u.mem = s.mem) ∧
    (∀ (l : Launch) (pt : Point) (c : Nat) (staged : Bool), q.launches = [l] → s.firstFireable p l = some pt → s.placeFor p l = some (c, staged) →
      rcPrio l.rec_ ≠ 0 → 2 ^ 24 ≤ l.since s → ∃ u, exec (.outOfTurnService p l.lid) s = .next u ∧
      (u.part p).launches = [{ l with age := s.cycle.toNat }] ∧
      (if staged then (u.core c).slot.staged = some pt else (u.core c).slot.running = some pt)) ∧
    (∀ (c : Nat) (pt : Point) (l : Launch), (s.core c).ctx.part = p → (s.core c).slot.running = some pt → (s.core c).slot.active = false →
      s.launch? p pt.lid = some l → l.st = .running → s.paWaits (s.descAddr p l.asid) = false → ∀ d, s.descRead p l.asid = .ok d →
      descUsable q d = true → s.runsContext c p l.asid = true → rcHtab l.rec_ = 0 → rcCtab l.rec_ = 0 → ∃ u, exec (.pointStart c) s = .next u ∧ (u.core c).f.pc = rcEntry l.rec_ ∧ (u.core c).rd 1 = BitVec.ofNat 64 pt.x ∧
        (u.core c).rd 2 = BitVec.ofNat 64 pt.y ∧ (u.core c).rd 3 = BitVec.ofNat 64 pt.z ∧ (u.core c).rd 4 = rcArgs l.rec_ ∧
        (∀ r : SReg, 5 ≤ r.toNat → (u.core c).rd r = 0) ∧
        (∀ x : HReg, (u.core c).rdH x = { bound := false, bad := false, shape := 0, addr := BitVec.ofNat 64 (64 * x.toNat) }) ∧ (u.core c).q.es = [] ∧ (u.core c).pend = 0 ∧
        (u.core c).slot.active = true ∧ (u.core c).ctl.priv = false ∧ (u.core c).res.stack = none ∧ u.mem = s.mem) ∧
    (∀ (c : Nat) (pt : Point) (l : Launch) (s1 : State), c < 256 → (s.core c).ctx.part = p → (s.core c).slot.running = some pt →
      (s.core c).drained = true → (do let _ ← quiet (unbindStack c false); releaseD c : M Unit) s = (.ok (), s1) → (s1.part p).launches = [l] → l.lid = pt.lid →
      l.st = .running → l.ended = none →
      let tl := l.tl.complete (rcEx l.rec_) (rowCount l.rec_) pt.x (rowOf l.rec_ pt.y pt.z)
      let s2 := s1.modCore c CoreSt.emptied
      let s3 := beginEnd p l.lid 0 0 (modLaunch p l.lid (fun x => { x with tl := tl, timedOut := x.timedOut.filter (fun y => y != pt) }) s2)
      ∃ u, exec (.ptDoneRetire c) s = .next u ∧
        (tl.floor = rowCount l.rec_ → (∀ d ∈ q.crofts, runsLaunch s2 p l.lid d = false) → ∀ s4,
          writeCw p l.asid (rcCwaddr l.rec_) (BitVec.ofNat 64 (0x800000 + l.lid * 2 ^ 24 + if l.cap then 0x10000 else 0)) s3 = (.ok (), s4) →
          s4.parts = s3.parts → (u.part p).launches = []) ∧
        (tl.floor ≠ rowCount l.rec_ → (u.core c) = (s1.core c).emptied ∧ ∃ l', (u.part p).launches = [l'] ∧ l'.tl = tl ∧ l'.st = .running ∧ l'.rec_ = l.rec_)) ∧
    (∀ (lid : Nat) (l : Launch), s.launch? p lid = some l →
      (l.st = .draining → s.runners p lid = [] → s.runWaits (s.slotBase p l) 0x20000 = none → s.inCmd p lid 1 = true → ∃ u l', exec (.suspendDrainEnd p lid) s = .next u ∧ u.launch? p lid = some l' ∧
        l'.st = .suspended ∧ (u.part p).pb.busy = false ∧ (u.part p).pb.res = 0) ∧
      (∀ c, l.st = .draining → s.ctxFrozen l.asid = false → s.runners p lid = [c] → rcRestart l.rec_ = false → (s.core c).q.trap = none →
        (s.core c).cutReady = false → ∃ u l', exec (.drainTimeout p lid) s = .next u ∧ (u.core c).q.trap = some drainTrap ∧ u.launch? p lid = some l' ∧
        l'.st = .draining ∧ u.mem = s.mem) ∧
      (q.pb.busy = false → q.mg.st ≠ .freezing →
        (l.st = .running → (∀ c ∈ q.crofts, runsLaunch s p lid c = false) → s.runWaits (s.slotBase p l) 0x20000 = none → ∃ u l', exec (.pcmdSuspend p lid) s = .next u ∧ u.launch? p lid = some l' ∧
          l'.st = .suspended ∧ (u.part p).pb.busy = false ∧ (u.part p).pb.res = 0) ∧
        (l.st = .suspended → l.restore = none → s.runWaits (s.slotBase p l) 0x20000 = none → s.poolBad p l.asid = false → ∀ bs tl,
          s.phys (s.slotBase p l) 0x11040 = .ok bs → restoreTreeline l ((bs.drop 0x1000).take 65600) = some tl →
          natBits (s.physNat (s.slotBase p l + 0x118) 8) 0 9 = 0 → ∃ u l', exec (.pcmdResume p lid) s = .next u ∧ u.launch? p lid = some l' ∧ l'.tl = tl ∧
          l'.st = (if l.dhalt then .halted else .running) ∧ l'.dhalt = false ∧ (u.part p).pb.busy = false ∧ (u.part p).pb.res = 0) ∧
        (l.st = .running → ∃ u l', exec (.pcmdDhalt p lid) s = .next u ∧ u.launch? p lid = some l' ∧ l'.st = .halted ∧
          (∀ c ∈ s.runners p lid, (u.core c).ctl.halted = true) ∧ (u.part p).pb.busy = false ∧ (u.part p).pb.res = 0) ∧
        (l.st = .halted → ∃ u l', exec (.pcmdDrun p lid) s = .next u ∧ u.launch? p lid = some l' ∧ l'.st = .running ∧
          (∀ c ∈ s.runners p lid, (u.core c).ctl.halted = false) ∧ (u.part p).pb.busy = false ∧ (u.part p).pb.res = 0) ∧
        (l.st ≠ .ending → exec (.pcmdKill p lid) s = .next (finishLaunch p lid 3 (Spec.causeCode .preempt) (s.setPart p { q with
          pb := { q.pb with slid := lid, sop := 5, busy := true, cctx := s.ctxIndex p l.asid + 1, cplace := l.place } }))))) ∧
    (∀ lid, s.launch? p lid = none → q.pb.busy = false → ∃ u, exec (.pcmdSuspend p lid) s = .next u ∧ (u.part p).pb.busy = false ∧ (u.part p).pb.res = 1 ∧
      (u.part p).launches = q.launches) ∧
    (∀ (c : Nat) (roles : BitVec 5) (b : Bool), c < 256 → q.hset.getLsbD (c / 16) = true → s.eager = false → ∃ u,
      exec (.roleCommand p c roles b) s = .next u ∧ (u.part p).pb.dcroft = c ∧
      (u.core c).slot.roles = (if b then (s.core c).slot.roles ||| roles else (s.core c).slot.roles &&& ~~~roles) ∧ u.mem = s.mem) ∧
    (∀ c, (s.core c).slot.parked = true → exec (.parkRegate c) s =
      .next (s.setCore c { s.core c with slot := { (s.core c).slot with gated := true } }))

/-- R349, R353, R386, R392, R396, R398, R403, R405, R419: what reaches the module from the fabric and the storage port, and its links.
The model's choices here: how refusals of a flit are counted and a link retrained (log entry 59), atomics that are forwarded (log entries 41 and 92), a route
that returns in minimal mode (log entry 68). -/
def Obligations.FabricAndStorageEvents : Prop :=
  ∀ s : State,
    (∀ n < 24, ((s.port n).st = 0 → (s.port n).fails < 16 → ∃ u, exec (.linkFlitRefused n) s = .next u ∧
        u.port n = { s.port n with fails := (s.port n).fails + 1 } ∧ u.mgmt = (s.addCount 6 n (max 1 (s.port n).sent.length)).mgmt ∧
        (∀ m, m ≠ n → u.port m = s.port m) ∧ u.cores = s.cores ∧ u.mem = s.mem) ∧
      ((s.port n).st = 0 → 16 ≤ (s.port n).fails → ∃ u, exec (.linkFlitRefused n) s = .next u ∧ u.port n = { s.port n with st := 1, fails := 0 } ∧
        u.cores = s.cores) ∧
      ((s.port n).st = 1 → (∃ u, exec (.linkRetrain n true) s = .next u ∧ u.port n = { s.port n with st := 0 } ∧ u.cores = s.cores) ∧
        ∃ u, exec (.linkRetrain n false) s = .next u ∧ u.port n = { FPort.up with st := 2 } ∧ u.fab.resend = (s.port n).sent ++ s.fab.resend ∧ u.fab.out = s.fab.out ∧
          u.mgmt.evlog.length = min (s.mgmt.evlog.length + 1) 1024) ∧
      ((s.port n).st = 2 → s.mgmt.boot.minmode = false → ∃ u, exec (.routeReturns n) s = .next u ∧ u.port n = .up ∧
        (∀ m, m ≠ n → u.port m = s.port m)) ∧
      (s.mgmt.boot.minmode = true → exec (.routeReturns n) s = .next s)) ∧
    (∀ (p w : Nat), let f := (s.part p).fb
      (f.wbusy = false → w < f.incnt → s.eager = false → s.fab.admitted = [] → s.fab.inbox = [] → s.paWaits (s.winAddr p w) = false → ∀ bs,
        s.phys (s.winAddr p w) 1 = .ok bs →
        let b := leNat bs
        (∃ u, exec (.windowRevoke p w) s = .next u ∧ u.mem = (s.physPut (s.winAddr p w) (natBytes 1 (b - b % 4 + 2))).mem ∧
          (u.part p).fb = { f with wwin := w, wop := 1, wbusy := true, wdue := false }) ∧
        ∃ u, exec (.windowRetire p w) s = .next u ∧ u.mem = (s.physPut (s.winAddr p w) (natBytes 1 (b - b % 4 + 3))).mem ∧
          (u.part p).fb = { f with wwin := w, wop := 2, wbusy := true, wdue := false }) ∧
      (f.wbusy = true → f.wdue = false → (∀ x ∈ s.fab.admitted, x.op.part = p → x.op.win ≠ f.wwin) → ∃ u, exec (.windowCmdEnd p) s = .next u ∧ (u.part p).fb = { f with wbusy := false } ∧
        (u.part p).jn.jnext = (s.part p).jn.jnext + 1)) ∧
    (∀ op : RemoteOp, s.fab.inbox.any (fun x => sameSlot x op) = true →
      exec (.remoteAdmit op) s = .next { s with fab := { s.fab with inbox := s.fab.inbox ++ [op] } }) ∧
    (∀ op : RemoteOp, s.fab.inbox.any (fun x => sameSlot x op) = false →
      (∀ code, s.admission op = .nak code → ∃ u, exec (.remoteAdmit op) s = .next u ∧ u.fab.out = s.fab.out ++ [.answer op code 0 []] ∧ u.mem = s.mem ∧
        u.cores = s.cores ∧ u.parts = s.parts) ∧
      (∀ e, s.admission op = .bad e → ∃ u, exec (.remoteAdmit op) s = .next u ∧ u.fab.out = s.fab.out ++ [.answer op 4 0 []] ∧ u.mem = s.mem ∧
        u.parts = s.parts) ∧
      (∀ dev part, s.admission op = .moved dev part → ∃ u, exec (.remoteAdmit op) s = .next u ∧ u.fab.out = s.fab.out ++ [.redirect op dev part] ∧
        u.mem = s.mem ∧ u.parts = s.parts) ∧
      (s.admission op = .wait → exec (.remoteAdmit op) s = .next { s with fab := { s.fab with inbox := s.fab.inbox ++ [op] } }) ∧
      (∀ w, s.admission op = .ok w → winCtx w < (s.part op.part).tb.ctxcnt →
        let asid := (s.part op.part).tb.asidbase + winCtx w
        let judged := inContext op.part asid (fun c => judgeRuns c (remoteAcc op) (remoteRuns op w (winTail w + s.admittedSends op.part op.win))) s
        s.paWaits (s.descAddr op.part asid) = false → descUsable (s.part op.part) (s.descOf op.part asid) = true →
        (∀ cause ptr s0, judged = (.error (.trap cause ptr), s0) → exec (.remoteAdmit op) s =
          .next { s with fab := { s.fab with out := s.fab.out ++ [.answer op 4 0 []] } }) ∧
        (∀ s0, judged = (.ok (), s0) → exec (.remoteAdmit op) s = .next (serveRemote { op := op, win := w, fwd := 0 } s) ∧
          ∀ old bs s1 s2, op.kind ≠ .send → op.gate = none → inContext op.part asid (farAtomic op) s = (.ok none, s2) →
            inContext op.part asid (performRemote op w) s = (.ok (old, bs), s1) → ∃ u, exec (.remoteAdmit op) s = .next u ∧
            u.fab.out = s1.fab.out ++ [.answer op 0 old bs] ∧ u.mem = s1.mem))) ∧
    (∀ op : RemoteOp, (s.part op.part).prov = false ∨ 16 ≤ op.part → s.admission op = .nak 2) ∧
    (∀ (p : Nat) (a : FwdAtomic), ((s.part p).mg.st ≠ .sent ∨ (s.part p).mg.served.contains (a.ctx, a.va / 65536) = true →
        exec (.forwardedAtomic p a) s = .next { s with fab := { s.fab with out := s.fab.out ++ [.amoAnswer p a none] } }) ∧
      (∀ e level addr bs, (s.part p).mg.st = .sent → (s.part p).mg.served.contains (a.ctx, a.va / 65536) = false →
        let asid := (s.part p).tb.asidbase + a.ctx
        s.walk (s.part p) (descRoot (s.descOf p asid)) a.va = .leaf e level addr → s.paWaits (leafPa e level a.va) = false →
        s.homeBytes (leafPa e level a.va) a.size (pteKey e) a.compr = .ok bs → a.op = 0 → a.size = 8 → ∀ s1,
        s.homePut (leafPa e level a.va) (pteKey e) a.compr (natBytes 8 ((leNat bs + a.x) % 2 ^ 64)) = .ok s1 → ∃ u,
          exec (.forwardedAtomic p a) s = .next u ∧ u.fab.out = s1.fab.out ++ [.amoAnswer p a (some (leNat bs))] ∧ u.mem = s1.mem)) ∧
    (∀ p ctx va : Nat, (s.part p).mg.st = .released → exec (.pagePullRequest p ctx va) s =
      .next { s with fab := { s.fab with out := s.fab.out ++ [.pullRefusal p ctx (va - va % 65536)] } }) ∧
    (∀ (p ctx va : Nat) e level addr, (s.part p).mg.st = .sent →
      s.walk (s.part p) (descRoot (s.descOf p ((s.part p).tb.asidbase + ctx))) va = .leaf e level addr → (ptePull e && level == 3) = false →
      s.paWaits (leafPa e level (va - va % 65536)) = false → ∃ u x,
        exec (.pagePullRequest p ctx va) s = .next u ∧ u.fab.out = s.fab.out ++ [.page p ctx (va - va % 65536) x] ∧ x.data.length = 65536 ∧
        x.codes.length = 256 ∧ x.tags.length = 1024 ∧ (u.part p).mg.served = (s.part p).mg.served ++ [(ctx, va / 65536)] ∧ u.mem = s.mem) ∧
    (∀ (asid va : Nat) (x : PageData), (s.pulling asid (va / 65536) = false → exec (.pullDataArrival asid va x) s = .next s) ∧
      (∀ y mat, s.pulls.find? (fun y => y.asid == asid && y.page == va / 65536) = some y → s.fab.admitted = [] → s.fab.inbox = [] →
        s.fab.out = [] → s.fab.resend = [] → s.paWaits (65536 * ptePfn y.e) = false → s.paWaits y.addr = false →
        (if isHostPath (65536 * ptePfn y.e) then some 0 else s.keyMat (pteKey y.e)) = some mat →
        let s1 := (s.endPull asid (va / 65536)).putPage (65536 * ptePfn y.e) mat (pteKey y.e) x
        ∃ u, exec (.pullDataArrival asid va x) s = .next u ∧ u.pulls = s.pulls.filter (fun y => !(y.asid == asid && y.page == va / 65536)) ∧
          u.mem = (if (s1.refetch (65536 * ptePfn y.e)).physNat y.addr 8 = y.e then
            ((s1.refetch (65536 * ptePfn y.e)).physPut y.addr (natBytes 8 (natBits y.e 0 55 - 2))).mem else s1.mem))) ∧
    (∀ (p seq : Nat) (f : FltRec), (s.part p).flts = [f] → f.posted = true → f.seq = seq → (s.core f.core).entryPos f.owns = none → ∃ u,
      exec (.fltack p seq) s = .next u ∧ (u.part p).flts = [] ∧ u.cores = s.cores ∧ u.mem = s.mem) ∧
    (∀ (c : Nat) (e : Entry), s.eager = false → (s.core c).q.es = [e] → e.inQ .cq = true → e.phase = .pend → e.td ≠ 0 → s.hasLeft c e = true →
      (∀ h t ch a r gen xr members, e.op = .chMcast h t ch a r gen xr → members.length < 512 → ∀ naks code, ∃ u,
        exec (.mcastAggAck c 0 members naks code) s = .next u ∧ (u.core c).q.es = [] ∧ u.mem = s.mem ∧
        (naks = [] → (u.core c).rd e.td = BitVec.ofNat 64 (0x800000 + 2 ^ 24 * members.length)) ∧
        (naks ≠ [] → ((u.core c).rd e.td).extractLsb' 0 8 = 7 ∧ (((u.core c).rd e.td).extractLsb' 8 8).toNat = code % 256)) ∧
      (∀ h t d ch r xr s1 (sc : BitVec 8) (sct : BitVec 3) data, e.op = .sioRead h t d ch r false xr →
        let q := chWin ((s.core c).rdCh ch)
        s.paWaits (s.qpair q).cqb = false → landBytes c e data (sioTake q c e.seq.cq sc.toNat sct.toNat s) = (.ok (), s1) → (s1.core c).q.es = [e] → ∃ u,
        exec (.nvmeCompletion c 0 sc sct data) s = .next u ∧ (u.core c).q.es = [] ∧ u.mem = s1.mem ∧
        (sc = 0 → sct = 0 → shBytes (e.hd 0).shape < 2 ^ 40 → (u.core c).rd e.td = BitVec.ofNat 64 (0x800000 + 2 ^ 24 * shBytes (e.hd 0).shape)) ∧
        (sc ≠ 0 ∨ sct ≠ 0 → (u.core c).rd e.td = BitVec.ofNat 64 (0x800009 + 256 * sc.toNat + 2 ^ 24 * sct.toNat))) ∧
      (s.ctxFrozen (s.core c).ctx.asid = true ∨ s.sioOverdue c 0 = false → exec (.sioCommandTimeout c 0) s = .next s) ∧
      (∀ h t d ch r xr s1, e.op = .sioRead h t d ch r false xr → s.ctxFrozen (s.core c).ctx.asid = false → s.sioOverdue c 0 = true →
        s.paWaits (s.qpair (chWin ((s.core c).rdCh ch))).cqb = false →
        landBytes c e [] (sioAbort (chWin ((s.core c).rdCh ch)) c e.seq.cq s) = (.ok (), s1) → (s1.core c).q.es = [e] → ∃ u,
        exec (.sioCommandTimeout c 0) s = .next u ∧ (u.core c).q.es = [] ∧ (u.core c).rd e.td = 0x3807109) ∧
      (∀ ch v dev part, e.op.chan = some ch → e.via = some v → e.aux < 3 → dev < 512 → part < 16 → ∃ u e', exec (.redirect c 0 dev part) s = .next u ∧
        (u.core c).q.es = [e'] ∧ e'.phase = .waiting ∧ e'.aux = e.aux + 1 ∧ chDev ((u.core c).rdCh ch) = dev ∧
        chWin ((u.core c).rdCh ch) = 4096 * part + chWin ((s.core c).rdCh ch) % 4096 ∧ u.mem = s.mem))

/-- R399 to R404: the migration of a partition: each command from the states that R399 allows it in, the image's first words, and the answer in the
other states. The model's choices here: `ABORT` over a running command (log entry 56), and that `RESUME` compares and parses what the image holds (log entry
58). -/
def Obligations.MigrationEvents : Prop :=
  ∀ (s : State) (p : Nat),
    let q := s.part p
    let m := q.mg
    let ended (st : MigSt) : MBlock := { m with st := st, busy := false, cmd := 0, res := 0 }
    let refused : MBlock := { m with busy := false, cmd := 0, res := 1 }
    (m.busy = false →
      (m.st = .run → q.launches = [] → ∃ u, exec (.migArm p) s = .next u ∧ (u.part p).mg = ended .armed ∧ (u.part p).launches = []) ∧
      (m.st ≠ .run ∨ q.launches ≠ [] → ∃ u, exec (.migArm p) s = .next u ∧ (u.part p).mg = refused ∧ (u.part p).launches = q.launches) ∧
      (m.st = .run → q.launches = [] → s.fab.admitted = [] → (∀ c ∈ q.crofts, s.parkWaits c = false ∧ (s.core c).slot.running = none ∧ (s.core c).slot.staged = none) → ∃ u,
        exec (.migFreeze p) s = .next u ∧ (u.part p).mg = ended .frozen) ∧
      (m.st ≠ .run → m.st ≠ .freezing → ∃ u, exec (.migFreeze p) s = .next u ∧ (u.part p).mg = refused) ∧
      (m.st = .frozen → s.migWaits p = false → ∃ u im, exec (.migSend p) s = .next u ∧ u.fab.out = s.fab.out ++ [.image p m.peer m.part (s.migFacts p) im] ∧
        (u.part p).mg = { m with cmd := 3, busy := true, used := im.length } ∧ leNat (im.take 8) = 1 ∧ leNat ((im.drop 8).take 8) = s.devid % 2 ^ 64 ∧
        leNat ((im.drop 16).take 8) = q.nextLid % 2 ^ 64 ∧ u.mem = s.mem) ∧
      (m.st ≠ .frozen → ∃ u, exec (.migSend p) s = .next u ∧ (u.part p).mg.busy = false ∧ (u.part p).mg.res = 1 ∧ (u.part p).mg.st = m.st) ∧
      (m.st = .live → ∃ u, exec (.migResume p) s = .next u ∧ (u.part p).mg = refused) ∧
      (m.st = .loaded → s.migWaits p = false → q.launches = [] → s.fab.admitted = [] → s.fab.inbox = [] → ∀ secs e, s.readSections (s.physNat (m.img + 32) 8) (m.img + 64) = (secs, e) →
        (alike q secs = false → ∃ u, exec (.migResume p) s = .next u ∧ (u.part p).mg.busy = false ∧ (u.part p).mg.res = 3 ∧ (u.part p).mg.st = .loaded) ∧
        (alike q secs = true → (∀ x ∈ secs, x.type ≠ 2 ∧ x.type ≠ 8) → ∃ u, exec (.migResume p) s = .next u ∧ (u.part p).mg = ended .live ∧
          (u.part p).nextLid = s.physNat (m.img + 16) 8 % 2 ^ 32 ∧ (u.part p).launches = [])) ∧
      (m.st = .live → s.migWaits p = false → s.pullLeaves p = [] → ∃ u, exec (.migDrain p) s = .next u ∧ (u.part p).mg = ended .live) ∧
      (m.st = .live → s.migWaits p = false → s.pullLeaves p ≠ [] → ∃ u, exec (.migDrain p) s = .next u ∧ (u.part p).mg = { m with cmd := 5, busy := true } ∧
        (∀ x ∈ s.pullLeaves p, ∀ e addr, s.walk q (descRoot (s.descOf p (q.tb.asidbase + x.1))) x.2 = .leaf e 3 addr →
          u.pulling (q.tb.asidbase + x.1) (x.2 / 65536) = true) ∧ u.mem = s.mem) ∧
      (m.st = .sent → ∃ u, exec (.migRelease p) s = .next u ∧ (u.part p).mg = ended .released) ∧
      (m.st ≠ .sent → ∃ u, exec (.migRelease p) s = .next u ∧ (u.part p).mg = refused) ∧
      (m.st = .freezing ∨ m.st = .frozen → s.fab.admitted = [] → s.fab.inbox = [] → (∀ l ∈ q.launches, l.st = .running) → ∃ u,
        exec (.migAbort p) s = .next u ∧ (u.part p).mg = ended .run ∧ (u.part p).launches = q.launches)) ∧
    (m.st = .freezing → m.busy = true → m.cmd = 2 → (∀ l ∈ q.launches, l.st = .suspended) → s.fab.admitted = [] →
      (∀ c ∈ q.crofts, s.parkWaits c = false ∧ (s.core c).slot.running = none ∧ (s.core c).slot.staged = none) → ∃ u, exec (.freezeComplete p) s = .next u ∧
      (u.part p).mg = ended .frozen ∧ (u.part p).launches = q.launches) ∧
    (m.st = .frozen → m.busy = true → m.cmd = 3 → s.fab.admitted = [] → s.fab.inbox = [] → ∃ u, exec (.imageSent p) s = .next u ∧
      (u.part p).mg = ended .sent ∧ (u.part p).launches = q.launches) ∧
    (m.st = .armed → s.runWaits m.img m.len = none → ∃ u, exec (.imageSent p) s = .next u ∧ (u.part p).mg.st = .loaded ∧
      (u.part p).mg.used = (if m.used ≠ 0 then m.used else (s.readSections (s.physNat (m.img + 32) 8) (m.img + 64)).2 - m.img) ∧ u.mem = s.mem ∧ u.cores = s.cores) ∧
    (m.st = .live → m.busy = true → m.cmd = 5 → s.migWaits p = false → s.pullLeaves p = [] → ∃ u, exec (.drainComplete p) s = .next u ∧ (u.part p).mg = ended .live)

end
end

