-- ==== Sys2Proof/Laws/Encoding.lean ====
section
/-! SUPPORT. The fields of an encoded unit are the fields it was encoded from: one lemma per field of each format and payload. -/

namespace Sys2Proof.Laws
open Sys2Proof

theorem ext_high (v w s n : Nat) (x : BitVec v) (y : BitVec w) (h : w ≤ s) : BitVec.extractLsb' s n (x ++ y) = BitVec.extractLsb' (s - w) n x := by
  apply BitVec.eq_of_getLsbD_eq; intro i hi
  simp only [BitVec.getLsbD_extractLsb', BitVec.getLsbD_append]
  simp [hi, show ¬ (s + i < w) by omega, show s + i - w = s - w + i by omega]
theorem ext_low (v w s n : Nat) (x : BitVec v) (y : BitVec w) (h : s + n ≤ w) : BitVec.extractLsb' s n (x ++ y) = BitVec.extractLsb' s n y := by
  apply BitVec.eq_of_getLsbD_eq; intro i hi
  simp only [BitVec.getLsbD_extractLsb', BitVec.getLsbD_append]
  simp [hi, show (s + i < w) by omega]
theorem bit_high (v w s : Nat) (x : BitVec v) (y : BitVec w) (h : w ≤ s) : (x ++ y).getLsbD s = x.getLsbD (s - w) := by
  simp [BitVec.getLsbD_append, show ¬ s < w by omega]
theorem bit_low (v w s : Nat) (x : BitVec v) (y : BitVec w) (h : s < w) : (x ++ y).getLsbD s = y.getLsbD s := by
  simp [BitVec.getLsbD_append, h]

section
variable (h : Hdr) (m f : BitVec 6) (o : BitVec 42)
theorem encW_ver : (encW h m f o).extractLsb' 62 2 = h.ver := by
  unfold encW
  erw [ext_high _ _ _ _ _ _ (by decide), ext_high _ _ _ _ _ _ (by decide), ext_high _ _ _ _ _ _ (by decide), ext_high _ _ _ _ _ _ (by decide), ext_high _ _ _ _ _ _ (by decide), ext_high _ _ _ _ _ _ (by decide)]
  exact BitVec.extractLsb'_eq_self
theorem encW_sc : (encW h m f o).extractLsb' 58 4 = h.sc := by
  unfold encW
  erw [ext_high _ _ _ _ _ _ (by decide), ext_high _ _ _ _ _ _ (by decide), ext_high _ _ _ _ _ _ (by decide), ext_high _ _ _ _ _ _ (by decide), ext_high _ _ _ _ _ _ (by decide), ext_low _ _ _ _ _ _ (by decide)]
  exact BitVec.extractLsb'_eq_self
theorem encW_maj : (encW h m f o).extractLsb' 52 6 = m := by
  unfold encW
  erw [ext_high _ _ _ _ _ _ (by decide), ext_high _ _ _ _ _ _ (by decide), ext_high _ _ _ _ _ _ (by decide), ext_high _ _ _ _ _ _ (by decide), ext_low _ _ _ _ _ _ (by decide)]
  exact BitVec.extractLsb'_eq_self
theorem encW_pred : (encW h m f o).extractLsb' 49 3 = h.pred := by
  unfold encW
  erw [ext_high _ _ _ _ _ _ (by decide), ext_high _ _ _ _ _ _ (by decide), ext_high _ _ _ _ _ _ (by decide), ext_low _ _ _ _ _ _ (by decide)]
  exact BitVec.extractLsb'_eq_self
theorem encW_pn : (encW h m f o).getLsbD 48 = h.pn := by
  unfold encW
  erw [bit_high _ _ _ _ _ (by decide), bit_high _ _ _ _ _ (by decide), bit_low _ _ _ _ _ (by decide)]
  simp
theorem encW_fn : (encW h m f o).extractLsb' 42 6 = f := by
  unfold encW
  erw [ext_high _ _ _ _ _ _ (by decide), ext_low _ _ _ _ _ _ (by decide)]
  exact BitVec.extractLsb'_eq_self
theorem encW_body (lo n : Nat) (hb : lo + n ≤ 42) : (encW h m f o).extractLsb' lo n = o.extractLsb' lo n := by
  unfold encW
  erw [ext_low _ _ _ _ _ _ hb]
end

theorem x_of_fits (h : Hdr) (x : BitVec 52) (hx : xfits h x = true) : (encX h x).getD 0 = x := by
  unfold encX xfits at *
  cases he : h.ext <;> simp_all
theorem isSome_encX (h : Hdr) (x : BitVec 52) : (encX h x).isSome = h.ext := by
  unfold encX; cases h.ext <;> rfl

section
variable (h : Hdr) (m f : BitVec 6) (d a b c : BitVec 7) (mod : BitVec 14)
@[simp] theorem encR_ver : (encR h m f d a b c mod).ver = h.ver := encW_ver _ _ _ _
@[simp] theorem encR_maj : (encR h m f d a b c mod).maj = m := encW_maj _ _ _ _
@[simp] theorem encR_pred : (encR h m f d a b c mod).pred = h.pred := encW_pred _ _ _ _
@[simp] theorem encR_pn : (encR h m f d a b c mod).pn = h.pn := encW_pn _ _ _ _
@[simp] theorem encR_fn : (encR h m f d a b c mod).fn = f := encW_fn _ _ _ _
@[simp] theorem encR_hdr : (encR h m f d a b c mod).hdr = h := by
  have := isSome_encX h 0
  unfold Raw.hdr
  simp only [encR_ver, encR_pred, encR_pn, show (encR h m f d a b c mod).sc = h.sc from encW_sc _ _ _ _]
  simp only [encR, this]
@[simp] theorem encR_ext : (encR h m f d a b c mod).xp.isSome = h.ext := isSome_encX h 0
@[simp] theorem encR_x : (encR h m f d a b c mod).x = 0 := by
  unfold Raw.x encR encX; cases h.ext <;> rfl
@[simp] theorem encR_d : (encR h m f d a b c mod).d = d := by
  refine (encW_body _ _ _ _ 35 7 (by decide)).trans ?_
  erw [ext_high _ _ _ _ _ _ (by decide), ext_high _ _ _ _ _ _ (by decide), ext_high _ _ _ _ _ _ (by decide), ext_high _ _ _ _ _ _ (by decide)]
  exact BitVec.extractLsb'_eq_self
@[simp] theorem encR_a : (encR h m f d a b c mod).a = a := by
  refine (encW_body _ _ _ _ 28 7 (by decide)).trans ?_
  erw [ext_high _ _ _ _ _ _ (by decide), ext_high _ _ _ _ _ _ (by decide), ext_high _ _ _ _ _ _ (by decide), ext_low _ _ _ _ _ _ (by decide)]
  exact BitVec.extractLsb'_eq_self
@[simp] theorem encR_b : (encR h m f d a b c mod).b = b := by
  refine (encW_body _ _ _ _ 21 7 (by decide)).trans ?_
  erw [ext_high _ _ _ _ _ _ (by decide), ext_high _ _ _ _ _ _ (by decide), ext_low _ _ _ _ _ _ (by decide)]
  exact BitVec.extractLsb'_eq_self
@[simp] theorem encR_c : (encR h m f d a b c mod).c = c := by
  refine (encW_body _ _ _ _ 14 7 (by decide)).trans ?_
  erw [ext_high _ _ _ _ _ _ (by decide), ext_low _ _ _ _ _ _ (by decide)]
  exact BitVec.extractLsb'_eq_self
@[simp] theorem encR_mod : (encR h m f d a b c mod).mod = mod := by
  refine (encW_body _ _ _ _ 0 14 (by decide)).trans ?_
  erw [ext_low _ _ _ _ _ _ (by decide)]
  exact BitVec.extractLsb'_eq_self
end

section
variable (h : Hdr) (m f : BitVec 6) (d a : BitVec 7) (imm : Word)
@[simp] theorem encI_ver : (encI h m f d a imm).ver = h.ver := encW_ver _ _ _ _
@[simp] theorem encI_maj : (encI h m f d a imm).maj = m := encW_maj _ _ _ _
@[simp] theorem encI_pred : (encI h m f d a imm).pred = h.pred := encW_pred _ _ _ _
@[simp] theorem encI_pn : (encI h m f d a imm).pn = h.pn := encW_pn _ _ _ _
@[simp] theorem encI_fn : (encI h m f d a imm).fn = f := encW_fn _ _ _ _
@[simp] theorem encI_ext : (encI h m f d a imm).xp.isSome = h.ext := isSome_encX h _
@[simp] theorem encI_hdr : (encI h m f d a imm).hdr = h := by
  unfold Raw.hdr
  rw [encI_ver, encI_pred, encI_pn, encI_ext, show (encI h m f d a imm).sc = h.sc from encW_sc _ _ _ _]
@[simp] theorem encI_xhigh : (encI h m f d a imm).x.extractLsb' 36 16 = 0 := by
  unfold Raw.x encI encX
  cases h.ext
  · simp
  · apply BitVec.eq_of_getLsbD_eq; intro i hi
    simp
@[simp] theorem encI_d : (encI h m f d a imm).d = d := by
  refine (encW_body _ _ _ _ 35 7 (by decide)).trans ?_
  erw [ext_high _ _ _ _ _ _ (by decide), ext_high _ _ _ _ _ _ (by decide)]
  exact BitVec.extractLsb'_eq_self
@[simp] theorem encI_a : (encI h m f d a imm).a = a := by
  refine (encW_body _ _ _ _ 28 7 (by decide)).trans ?_
  erw [ext_high _ _ _ _ _ _ (by decide), ext_low _ _ _ _ _ _ (by decide)]
  exact BitVec.extractLsb'_eq_self
@[simp] theorem encI_imm28 : (encI h m f d a imm).imm28 = imm.setWidth 28 := by
  refine (encW_body _ _ _ _ 0 28 (by decide)).trans ?_
  erw [ext_low _ _ _ _ _ _ (by decide)]
  exact BitVec.extractLsb'_eq_self
theorem encI_imm (hi : immFits h imm = true) : (encI h m f d a imm).imm = imm := by
  unfold Raw.imm
  rw [encI_imm28]
  unfold encI encX immFits at *
  cases he : h.ext
  · simp [he] at hi; simp; exact hi.symm
  · simp only [if_true]
    apply BitVec.eq_of_getLsbD_eq; intro i hi
    by_cases h2 : i < 28
    · erw [bit_low _ _ _ _ _ h2]; simp [h2]
    · erw [bit_high _ _ _ _ _ (Nat.le_of_not_lt h2)]
      simp [show i - 28 < 36 by omega, show i - 28 < 52 by omega, show 28 + (i - 28) = i by omega]
end

section
variable (h : Hdr) (m f : BitVec 6) (a : BitVec 7) (imm : BitVec 35)
@[simp] theorem encJ_ver : (encJ h m f a imm).ver = h.ver := encW_ver _ _ _ _
@[simp] theorem encJ_maj : (encJ h m f a imm).maj = m := encW_maj _ _ _ _
@[simp] theorem encJ_pred : (encJ h m f a imm).pred = h.pred := encW_pred _ _ _ _
@[simp] theorem encJ_pn : (encJ h m f a imm).pn = h.pn := encW_pn _ _ _ _
@[simp] theorem encJ_fn : (encJ h m f a imm).fn = f := encW_fn _ _ _ _
@[simp] theorem encJ_ext : (encJ h m f a imm).xp.isSome = h.ext := isSome_encX h _
@[simp] theorem encJ_hdr : (encJ h m f a imm).hdr = h := by
  unfold Raw.hdr
  rw [encJ_ver, encJ_pred, encJ_pn, encJ_ext, show (encJ h m f a imm).sc = h.sc from encW_sc _ _ _ _]
@[simp] theorem encJ_ja : (encJ h m f a imm).ja = a := by
  refine (encW_body _ _ _ _ 35 7 (by decide)).trans ?_
  erw [ext_high _ _ _ _ _ _ (by decide)]
  exact BitVec.extractLsb'_eq_self
@[simp] theorem encJ_imm : (encJ h m f a imm).imm35 = imm := by
  refine (encW_body _ _ _ _ 0 35 (by decide)).trans ?_
  erw [ext_low _ _ _ _ _ _ (by decide)]
  exact BitVec.extractLsb'_eq_self
end

section
variable (h : Hdr) (m f : BitVec 6) (t : Toks) (o1 o2 o3 : BitVec 6) (x : BitVec 52)
@[simp] theorem encT_ver : (encT h m f t o1 o2 o3 x).ver = h.ver := encW_ver _ _ _ _
@[simp] theorem encT_maj : (encT h m f t o1 o2 o3 x).maj = m := encW_maj _ _ _ _
@[simp] theorem encT_pred : (encT h m f t o1 o2 o3 x).pred = h.pred := encW_pred _ _ _ _
@[simp] theorem encT_pn : (encT h m f t o1 o2 o3 x).pn = h.pn := encW_pn _ _ _ _
@[simp] theorem encT_fn : (encT h m f t o1 o2 o3 x).fn = f := encW_fn _ _ _ _
@[simp] theorem encT_ext : (encT h m f t o1 o2 o3 x).xp.isSome = h.ext := isSome_encX h _
@[simp] theorem encT_hdr : (encT h m f t o1 o2 o3 x).hdr = h := by
  unfold Raw.hdr
  rw [encT_ver, encT_pred, encT_pn, encT_ext, show (encT h m f t o1 o2 o3 x).sc = h.sc from encW_sc _ _ _ _]
theorem encT_x (hx : xfits h x = true) : (encT h m f t o1 o2 o3 x).x = x := x_of_fits h x hx
@[simp] theorem encT_x0 : (encT h m f t o1 o2 o3 0#52).x = 0#52 := x_of_fits h _ (by unfold xfits; simp)
@[simp] theorem encT_o3 : (encT h m f t o1 o2 o3 x).o3 = o3 := by
  refine (encW_body _ _ _ _ 0 6 (by decide)).trans ?_
  erw [ext_low _ _ _ _ _ _ (by decide)]
  exact BitVec.extractLsb'_eq_self
@[simp] theorem encT_o2 : (encT h m f t o1 o2 o3 x).o2 = o2 := by
  refine (encW_body _ _ _ _ 6 6 (by decide)).trans ?_
  erw [ext_high _ _ _ _ _ _ (by decide), ext_low _ _ _ _ _ _ (by decide)]
  exact BitVec.extractLsb'_eq_self
@[simp] theorem encT_o1 : (encT h m f t o1 o2 o3 x).o1 = o1 := by
  refine (encW_body _ _ _ _ 12 6 (by decide)).trans ?_
  erw [ext_high _ _ _ _ _ _ (by decide), ext_high _ _ _ _ _ _ (by decide), ext_low _ _ _ _ _ _ (by decide)]
  exact BitVec.extractLsb'_eq_self
@[simp] theorem encT_td : (encT h m f t o1 o2 o3 x).td = t.td := by
  refine (encW_body _ _ _ _ 36 6 (by decide)).trans ?_
  erw [ext_high _ _ _ _ _ _ (by decide), ext_high _ _ _ _ _ _ (by decide), ext_high _ _ _ _ _ _ (by decide), ext_high _ _ _ _ _ _ (by decide), ext_high _ _ _ _ _ _ (by decide), ext_high _ _ _ _ _ _ (by decide)]
  exact BitVec.extractLsb'_eq_self
@[simp] theorem encT_toks : (encT h m f t o1 o2 o3 x).toks = t := by
  unfold Raw.toks
  rw [encT_td]
  rw [show (encT h m f t o1 o2 o3 x).w.extractLsb' 30 6 = t.tw1 by
    refine (encW_body _ _ _ _ 30 6 (by decide)).trans ?_
    erw [ext_high _ _ _ _ _ _ (by decide), ext_high _ _ _ _ _ _ (by decide), ext_high _ _ _ _ _ _ (by decide), ext_high _ _ _ _ _ _ (by decide), ext_high _ _ _ _ _ _ (by decide), ext_low _ _ _ _ _ _ (by decide)]
    exact BitVec.extractLsb'_eq_self]
  rw [show (encT h m f t o1 o2 o3 x).w.extractLsb' 24 6 = t.tw2 by
    refine (encW_body _ _ _ _ 24 6 (by decide)).trans ?_
    erw [ext_high _ _ _ _ _ _ (by decide), ext_high _ _ _ _ _ _ (by decide), ext_high _ _ _ _ _ _ (by decide), ext_high _ _ _ _ _ _ (by decide), ext_low _ _ _ _ _ _ (by decide)]
    exact BitVec.extractLsb'_eq_self]
  rw [show (encT h m f t o1 o2 o3 x).w.extractLsb' 18 6 = t.tw3 by
    refine (encW_body _ _ _ _ 18 6 (by decide)).trans ?_
    erw [ext_high _ _ _ _ _ _ (by decide), ext_high _ _ _ _ _ _ (by decide), ext_high _ _ _ _ _ _ (by decide), ext_low _ _ _ _ _ _ (by decide)]
    exact BitVec.extractLsb'_eq_self]
end

@[simp] theorem vx_46 (o : VOpt) (rm : BitVec 2) (seed : BitVec 6) (xi : BitVec 16) (xf : BitVec 8) (o4 : BitVec 6) : (vx o rm seed xi xf o4).extractLsb' 46 6 = 0#6 := by
  unfold vx
  erw [ext_high _ _ _ _ _ _ (by decide), ext_high _ _ _ _ _ _ (by decide), ext_high _ _ _ _ _ _ (by decide), ext_high _ _ _ _ _ _ (by decide), ext_high _ _ _ _ _ _ (by decide), ext_high _ _ _ _ _ _ (by decide), ext_high _ _ _ _ _ _ (by decide), ext_high _ _ _ _ _ _ (by decide), ext_high _ _ _ _ _ _ (by decide)]
  exact BitVec.extractLsb'_eq_self
@[simp] theorem vx_40 (o : VOpt) (rm : BitVec 2) (seed : BitVec 6) (xi : BitVec 16) (xf : BitVec 8) (o4 : BitVec 6) : (vx o rm seed xi xf o4).extractLsb' 40 6 = o4 := by
  unfold vx
  erw [ext_high _ _ _ _ _ _ (by decide), ext_high _ _ _ _ _ _ (by decide), ext_high _ _ _ _ _ _ (by decide), ext_high _ _ _ _ _ _ (by decide), ext_high _ _ _ _ _ _ (by decide), ext_high _ _ _ _ _ _ (by decide), ext_high _ _ _ _ _ _ (by decide), ext_high _ _ _ _ _ _ (by decide), ext_low _ _ _ _ _ _ (by decide)]
  exact BitVec.extractLsb'_eq_self
@[simp] theorem vx_32 (o : VOpt) (rm : BitVec 2) (seed : BitVec 6) (xi : BitVec 16) (xf : BitVec 8) (o4 : BitVec 6) : (vx o rm seed xi xf o4).extractLsb' 32 8 = xf := by
  unfold vx
  erw [ext_high _ _ _ _ _ _ (by decide), ext_high _ _ _ _ _ _ (by decide), ext_high _ _ _ _ _ _ (by decide), ext_high _ _ _ _ _ _ (by decide), ext_high _ _ _ _ _ _ (by decide), ext_high _ _ _ _ _ _ (by decide), ext_high _ _ _ _ _ _ (by decide), ext_low _ _ _ _ _ _ (by decide)]
  exact BitVec.extractLsb'_eq_self
@[simp] theorem vx_16 (o : VOpt) (rm : BitVec 2) (seed : BitVec 6) (xi : BitVec 16) (xf : BitVec 8) (o4 : BitVec 6) : (vx o rm seed xi xf o4).extractLsb' 16 16 = xi := by
  unfold vx
  erw [ext_high _ _ _ _ _ _ (by decide), ext_high _ _ _ _ _ _ (by decide), ext_high _ _ _ _ _ _ (by decide), ext_high _ _ _ _ _ _ (by decide), ext_high _ _ _ _ _ _ (by decide), ext_high _ _ _ _ _ _ (by decide), ext_low _ _ _ _ _ _ (by decide)]
  exact BitVec.extractLsb'_eq_self
@[simp] theorem vx_10 (o : VOpt) (rm : BitVec 2) (seed : BitVec 6) (xi : BitVec 16) (xf : BitVec 8) (o4 : BitVec 6) : (vx o rm seed xi xf o4).extractLsb' 10 6 = seed := by
  unfold vx
  erw [ext_high _ _ _ _ _ _ (by decide), ext_high _ _ _ _ _ _ (by decide), ext_high _ _ _ _ _ _ (by decide), ext_high _ _ _ _ _ _ (by decide), ext_high _ _ _ _ _ _ (by decide), ext_low _ _ _ _ _ _ (by decide)]
  exact BitVec.extractLsb'_eq_self
@[simp] theorem vx_8 (o : VOpt) (rm : BitVec 2) (seed : BitVec 6) (xi : BitVec 16) (xf : BitVec 8) (o4 : BitVec 6) : (vx o rm seed xi xf o4).extractLsb' 8 2 = rm := by
  unfold vx
  erw [ext_high _ _ _ _ _ _ (by decide), ext_high _ _ _ _ _ _ (by decide), ext_high _ _ _ _ _ _ (by decide), ext_high _ _ _ _ _ _ (by decide), ext_low _ _ _ _ _ _ (by decide)]
  exact BitVec.extractLsb'_eq_self
@[simp] theorem vx_7 (o : VOpt) (rm : BitVec 2) (seed : BitVec 6) (xi : BitVec 16) (xf : BitVec 8) (o4 : BitVec 6) : (vx o rm seed xi xf o4).getLsbD 7 = o.zm := by
  unfold vx
  erw [bit_high _ _ _ _ _ (by decide), bit_high _ _ _ _ _ (by decide), bit_high _ _ _ _ _ (by decide), bit_low _ _ _ _ _ (by decide)]
  simp
@[simp] theorem vx_4 (o : VOpt) (rm : BitVec 2) (seed : BitVec 6) (xi : BitVec 16) (xf : BitVec 8) (o4 : BitVec 6) : (vx o rm seed xi xf o4).extractLsb' 4 3 = o.mreg := by
  unfold vx
  erw [ext_high _ _ _ _ _ _ (by decide), ext_high _ _ _ _ _ _ (by decide), ext_low _ _ _ _ _ _ (by decide)]
  exact BitVec.extractLsb'_eq_self
@[simp] theorem vx_3 (o : VOpt) (rm : BitVec 2) (seed : BitVec 6) (xi : BitVec 16) (xf : BitVec 8) (o4 : BitVec 6) : (vx o rm seed xi xf o4).getLsbD 3 = o.men := by
  unfold vx
  erw [bit_high _ _ _ _ _ (by decide), bit_low _ _ _ _ _ (by decide)]
  simp
@[simp] theorem vx_0 (o : VOpt) (rm : BitVec 2) (seed : BitVec 6) (xi : BitVec 16) (xf : BitVec 8) (o4 : BitVec 6) : (vx o rm seed xi xf o4).extractLsb' 0 3 = o.ety.code := by
  unfold vx
  erw [ext_low _ _ _ _ _ _ (by decide)]
  exact BitVec.extractLsb'_eq_self
@[simp] theorem cpx_33 (rnd : Rnd) (dscale : BitVec 8) (gen : Bool) (xr : BitVec 6) (op : BitVec 3) (sz : BitVec 1) (lim : BitVec 6) : (cpx rnd dscale gen xr op sz lim).extractLsb' 33 19 = 0#19 := by
  unfold cpx
  erw [ext_high _ _ _ _ _ _ (by decide), ext_high _ _ _ _ _ _ (by decide), ext_high _ _ _ _ _ _ (by decide), ext_high _ _ _ _ _ _ (by decide), ext_high _ _ _ _ _ _ (by decide), ext_high _ _ _ _ _ _ (by decide), ext_high _ _ _ _ _ _ (by decide), ext_high _ _ _ _ _ _ (by decide)]
  exact BitVec.extractLsb'_eq_self
@[simp] theorem cpx_27 (rnd : Rnd) (dscale : BitVec 8) (gen : Bool) (xr : BitVec 6) (op : BitVec 3) (sz : BitVec 1) (lim : BitVec 6) : (cpx rnd dscale gen xr op sz lim).extractLsb' 27 6 = lim := by
  unfold cpx
  erw [ext_high _ _ _ _ _ _ (by decide), ext_high _ _ _ _ _ _ (by decide), ext_high _ _ _ _ _ _ (by decide), ext_high _ _ _ _ _ _ (by decide), ext_high _ _ _ _ _ _ (by decide), ext_high _ _ _ _ _ _ (by decide), ext_high _ _ _ _ _ _ (by decide), ext_low _ _ _ _ _ _ (by decide)]
  exact BitVec.extractLsb'_eq_self
@[simp] theorem cpx_26 (rnd : Rnd) (dscale : BitVec 8) (gen : Bool) (xr : BitVec 6) (op : BitVec 3) (sz : BitVec 1) (lim : BitVec 6) : (cpx rnd dscale gen xr op sz lim).extractLsb' 26 1 = sz := by
  unfold cpx
  erw [ext_high _ _ _ _ _ _ (by decide), ext_high _ _ _ _ _ _ (by decide), ext_high _ _ _ _ _ _ (by decide), ext_high _ _ _ _ _ _ (by decide), ext_high _ _ _ _ _ _ (by decide), ext_high _ _ _ _ _ _ (by decide), ext_low _ _ _ _ _ _ (by decide)]
  exact BitVec.extractLsb'_eq_self
@[simp] theorem cpx_23 (rnd : Rnd) (dscale : BitVec 8) (gen : Bool) (xr : BitVec 6) (op : BitVec 3) (sz : BitVec 1) (lim : BitVec 6) : (cpx rnd dscale gen xr op sz lim).extractLsb' 23 3 = op := by
  unfold cpx
  erw [ext_high _ _ _ _ _ _ (by decide), ext_high _ _ _ _ _ _ (by decide), ext_high _ _ _ _ _ _ (by decide), ext_high _ _ _ _ _ _ (by decide), ext_high _ _ _ _ _ _ (by decide), ext_low _ _ _ _ _ _ (by decide)]
  exact BitVec.extractLsb'_eq_self
@[simp] theorem cpx_17 (rnd : Rnd) (dscale : BitVec 8) (gen : Bool) (xr : BitVec 6) (op : BitVec 3) (sz : BitVec 1) (lim : BitVec 6) : (cpx rnd dscale gen xr op sz lim).extractLsb' 17 6 = xr := by
  unfold cpx
  erw [ext_high _ _ _ _ _ _ (by decide), ext_high _ _ _ _ _ _ (by decide), ext_high _ _ _ _ _ _ (by decide), ext_high _ _ _ _ _ _ (by decide), ext_low _ _ _ _ _ _ (by decide)]
  exact BitVec.extractLsb'_eq_self
@[simp] theorem cpx_16 (rnd : Rnd) (dscale : BitVec 8) (gen : Bool) (xr : BitVec 6) (op : BitVec 3) (sz : BitVec 1) (lim : BitVec 6) : (cpx rnd dscale gen xr op sz lim).getLsbD 16 = gen := by
  unfold cpx
  erw [bit_high _ _ _ _ _ (by decide), bit_high _ _ _ _ _ (by decide), bit_high _ _ _ _ _ (by decide), bit_low _ _ _ _ _ (by decide)]
  simp
@[simp] theorem cpx_8 (rnd : Rnd) (dscale : BitVec 8) (gen : Bool) (xr : BitVec 6) (op : BitVec 3) (sz : BitVec 1) (lim : BitVec 6) : (cpx rnd dscale gen xr op sz lim).extractLsb' 8 8 = dscale := by
  unfold cpx
  erw [ext_high _ _ _ _ _ _ (by decide), ext_high _ _ _ _ _ _ (by decide), ext_low _ _ _ _ _ _ (by decide)]
  exact BitVec.extractLsb'_eq_self
@[simp] theorem cpx_2 (rnd : Rnd) (dscale : BitVec 8) (gen : Bool) (xr : BitVec 6) (op : BitVec 3) (sz : BitVec 1) (lim : BitVec 6) : (cpx rnd dscale gen xr op sz lim).extractLsb' 2 6 = rnd.seed := by
  unfold cpx
  erw [ext_high _ _ _ _ _ _ (by decide), ext_low _ _ _ _ _ _ (by decide)]
  exact BitVec.extractLsb'_eq_self
@[simp] theorem cpx_0 (rnd : Rnd) (dscale : BitVec 8) (gen : Bool) (xr : BitVec 6) (op : BitVec 3) (sz : BitVec 1) (lim : BitVec 6) : (cpx rnd dscale gen xr op sz lim).extractLsb' 0 2 = rnd.rm.code := by
  unfold cpx
  erw [ext_low _ _ _ _ _ _ (by decide)]
  exact BitVec.extractLsb'_eq_self
@[simp] theorem NestOpt_bits_22 (n : NestOpt) : (n.bits).extractLsb' 22 30 = 0#30 := by
  unfold NestOpt.bits
  erw [ext_high _ _ _ _ _ _ (by decide), ext_high _ _ _ _ _ _ (by decide), ext_high _ _ _ _ _ _ (by decide), ext_high _ _ _ _ _ _ (by decide), ext_high _ _ _ _ _ _ (by decide), ext_high _ _ _ _ _ _ (by decide), ext_high _ _ _ _ _ _ (by decide)]
  exact BitVec.extractLsb'_eq_self
@[simp] theorem NestOpt_bits_21 (n : NestOpt) : (n.bits).getLsbD 21 = n.tagp := by
  unfold NestOpt.bits
  erw [bit_high _ _ _ _ _ (by decide), bit_high _ _ _ _ _ (by decide), bit_high _ _ _ _ _ (by decide), bit_high _ _ _ _ _ (by decide), bit_high _ _ _ _ _ (by decide), bit_high _ _ _ _ _ (by decide), bit_low _ _ _ _ _ (by decide)]
  simp
@[simp] theorem NestOpt_bits_20 (n : NestOpt) : (n.bits).getLsbD 20 = n.rmb := by
  unfold NestOpt.bits
  erw [bit_high _ _ _ _ _ (by decide), bit_high _ _ _ _ _ (by decide), bit_high _ _ _ _ _ (by decide), bit_high _ _ _ _ _ (by decide), bit_high _ _ _ _ _ (by decide), bit_low _ _ _ _ _ (by decide)]
  simp
@[simp] theorem NestOpt_bits_19 (n : NestOpt) : (n.bits).getLsbD 19 = n.rma := by
  unfold NestOpt.bits
  erw [bit_high _ _ _ _ _ (by decide), bit_high _ _ _ _ _ (by decide), bit_high _ _ _ _ _ (by decide), bit_high _ _ _ _ _ (by decide), bit_low _ _ _ _ _ (by decide)]
  simp
@[simp] theorem NestOpt_bits_10 (n : NestOpt) : (n.bits).extractLsb' 10 9 = n.pi := by
  unfold NestOpt.bits
  erw [ext_high _ _ _ _ _ _ (by decide), ext_high _ _ _ _ _ _ (by decide), ext_high _ _ _ _ _ _ (by decide), ext_low _ _ _ _ _ _ (by decide)]
  exact BitVec.extractLsb'_eq_self
@[simp] theorem NestOpt_bits_8 (n : NestOpt) : (n.bits).extractLsb' 8 2 = n.gg := by
  unfold NestOpt.bits
  erw [ext_high _ _ _ _ _ _ (by decide), ext_high _ _ _ _ _ _ (by decide), ext_low _ _ _ _ _ _ (by decide)]
  exact BitVec.extractLsb'_eq_self
@[simp] theorem NestOpt_bits_4 (n : NestOpt) : (n.bits).extractLsb' 4 4 = n.nb := by
  unfold NestOpt.bits
  erw [ext_high _ _ _ _ _ _ (by decide), ext_low _ _ _ _ _ _ (by decide)]
  exact BitVec.extractLsb'_eq_self
@[simp] theorem NestOpt_bits_0 (n : NestOpt) : (n.bits).extractLsb' 0 4 = n.na := by
  unfold NestOpt.bits
  erw [ext_low _ _ _ _ _ _ (by decide)]
  exact BitVec.extractLsb'_eq_self
@[simp] theorem BlkParm_bits_20 (p : BlkParm) : (p.bits).extractLsb' 20 32 = p.hsave := by
  unfold BlkParm.bits
  erw [ext_high _ _ _ _ _ _ (by decide), ext_high _ _ _ _ _ _ (by decide), ext_high _ _ _ _ _ _ (by decide), ext_high _ _ _ _ _ _ (by decide)]
  exact BitVec.extractLsb'_eq_self
@[simp] theorem BlkParm_bits_19 (p : BlkParm) : (p.bits).getLsbD 19 = p.rcp := by
  unfold BlkParm.bits
  erw [bit_high _ _ _ _ _ (by decide), bit_high _ _ _ _ _ (by decide), bit_high _ _ _ _ _ (by decide), bit_low _ _ _ _ _ (by decide)]
  simp
@[simp] theorem BlkParm_bits_18 (p : BlkParm) : (p.bits).getLsbD 18 = p.dem := by
  unfold BlkParm.bits
  erw [bit_high _ _ _ _ _ (by decide), bit_high _ _ _ _ _ (by decide), bit_low _ _ _ _ _ (by decide)]
  simp
@[simp] theorem BlkParm_bits_10 (p : BlkParm) : (p.bits).extractLsb' 10 8 = p.nseed := by
  unfold BlkParm.bits
  erw [ext_high _ _ _ _ _ _ (by decide), ext_low _ _ _ _ _ _ (by decide)]
  exact BitVec.extractLsb'_eq_self
@[simp] theorem BlkParm_bits_0 (p : BlkParm) : (p.bits).extractLsb' 0 10 = p.fsz := by
  unfold BlkParm.bits
  erw [ext_low _ _ _ _ _ _ (by decide)]
  exact BitVec.extractLsb'_eq_self
@[simp] theorem xLvl_38 (sb sa : BitVec 14) (extm1 : BitVec 24) : (((sb ++ sa ++ extm1) : BitVec 52)).extractLsb' 38 14 = sb := by
  erw [ext_high _ _ _ _ _ _ (by decide), ext_high _ _ _ _ _ _ (by decide)]
  exact BitVec.extractLsb'_eq_self
@[simp] theorem xLvl_24 (sb sa : BitVec 14) (extm1 : BitVec 24) : (((sb ++ sa ++ extm1) : BitVec 52)).extractLsb' 24 14 = sa := by
  erw [ext_high _ _ _ _ _ _ (by decide), ext_low _ _ _ _ _ _ (by decide)]
  exact BitVec.extractLsb'_eq_self
@[simp] theorem xLvl_0 (sb sa : BitVec 14) (extm1 : BitVec 24) : (((sb ++ sa ++ extm1) : BitVec 52)).extractLsb' 0 24 = extm1 := by
  erw [ext_low _ _ _ _ _ _ (by decide)]
  exact BitVec.extractLsb'_eq_self
@[simp] theorem xAcc_13 (corg : BitVec 6) (rorg : BitVec 7) : (((0#39 ++ corg ++ rorg) : BitVec 52)).extractLsb' 13 39 = 0#39 := by
  erw [ext_high _ _ _ _ _ _ (by decide), ext_high _ _ _ _ _ _ (by decide)]
  exact BitVec.extractLsb'_eq_self
@[simp] theorem xAcc_7 (corg : BitVec 6) (rorg : BitVec 7) : (((0#39 ++ corg ++ rorg) : BitVec 52)).extractLsb' 7 6 = corg := by
  erw [ext_high _ _ _ _ _ _ (by decide), ext_low _ _ _ _ _ _ (by decide)]
  exact BitVec.extractLsb'_eq_self
@[simp] theorem xAcc_0 (corg : BitVec 6) (rorg : BitVec 7) : (((0#39 ++ corg ++ rorg) : BitVec 52)).extractLsb' 0 7 = rorg := by
  erw [ext_low _ _ _ _ _ _ (by decide)]
  exact BitVec.extractLsb'_eq_self
@[simp] theorem xRd_21 (coff : BitVec 6) (roff : BitVec 7) (seed : BitVec 6) (rm : BitVec 2) : (((0#31 ++ coff ++ roff ++ seed ++ rm) : BitVec 52)).extractLsb' 21 31 = 0#31 := by
  erw [ext_high _ _ _ _ _ _ (by decide), ext_high _ _ _ _ _ _ (by decide), ext_high _ _ _ _ _ _ (by decide), ext_high _ _ _ _ _ _ (by decide)]
  exact BitVec.extractLsb'_eq_self
@[simp] theorem xRd_15 (coff : BitVec 6) (roff : BitVec 7) (seed : BitVec 6) (rm : BitVec 2) : (((0#31 ++ coff ++ roff ++ seed ++ rm) : BitVec 52)).extractLsb' 15 6 = coff := by
  erw [ext_high _ _ _ _ _ _ (by decide), ext_high _ _ _ _ _ _ (by decide), ext_high _ _ _ _ _ _ (by decide), ext_low _ _ _ _ _ _ (by decide)]
  exact BitVec.extractLsb'_eq_self
@[simp] theorem xRd_8 (coff : BitVec 6) (roff : BitVec 7) (seed : BitVec 6) (rm : BitVec 2) : (((0#31 ++ coff ++ roff ++ seed ++ rm) : BitVec 52)).extractLsb' 8 7 = roff := by
  erw [ext_high _ _ _ _ _ _ (by decide), ext_high _ _ _ _ _ _ (by decide), ext_low _ _ _ _ _ _ (by decide)]
  exact BitVec.extractLsb'_eq_self
@[simp] theorem xRd_2 (coff : BitVec 6) (roff : BitVec 7) (seed : BitVec 6) (rm : BitVec 2) : (((0#31 ++ coff ++ roff ++ seed ++ rm) : BitVec 52)).extractLsb' 2 6 = seed := by
  erw [ext_high _ _ _ _ _ _ (by decide), ext_low _ _ _ _ _ _ (by decide)]
  exact BitVec.extractLsb'_eq_self
@[simp] theorem xRd_0 (coff : BitVec 6) (roff : BitVec 7) (seed : BitVec 6) (rm : BitVec 2) : (((0#31 ++ coff ++ roff ++ seed ++ rm) : BitVec 52)).extractLsb' 0 2 = rm := by
  erw [ext_low _ _ _ _ _ _ (by decide)]
  exact BitVec.extractLsb'_eq_self
@[simp] theorem xWr_22 (coff : BitVec 6) (roff : BitVec 7) : (((0#30 ++ 0#1 ++ coff ++ roff ++ 0#8) : BitVec 52)).extractLsb' 22 30 = 0#30 := by
  erw [ext_high _ _ _ _ _ _ (by decide), ext_high _ _ _ _ _ _ (by decide), ext_high _ _ _ _ _ _ (by decide), ext_high _ _ _ _ _ _ (by decide)]
  exact BitVec.extractLsb'_eq_self
@[simp] theorem xWr_21 (coff : BitVec 6) (roff : BitVec 7) : (((0#30 ++ 0#1 ++ coff ++ roff ++ 0#8) : BitVec 52)).getLsbD 21 = false := by
  erw [bit_high _ _ _ _ _ (by decide), bit_high _ _ _ _ _ (by decide), bit_high _ _ _ _ _ (by decide), bit_low _ _ _ _ _ (by decide)]
  rfl
@[simp] theorem xWr_15 (coff : BitVec 6) (roff : BitVec 7) : (((0#30 ++ 0#1 ++ coff ++ roff ++ 0#8) : BitVec 52)).extractLsb' 15 6 = coff := by
  erw [ext_high _ _ _ _ _ _ (by decide), ext_high _ _ _ _ _ _ (by decide), ext_low _ _ _ _ _ _ (by decide)]
  exact BitVec.extractLsb'_eq_self
@[simp] theorem xWr_8 (coff : BitVec 6) (roff : BitVec 7) : (((0#30 ++ 0#1 ++ coff ++ roff ++ 0#8) : BitVec 52)).extractLsb' 8 7 = roff := by
  erw [ext_high _ _ _ _ _ _ (by decide), ext_low _ _ _ _ _ _ (by decide)]
  exact BitVec.extractLsb'_eq_self
@[simp] theorem xWr_0 (coff : BitVec 6) (roff : BitVec 7) : (((0#30 ++ 0#1 ++ coff ++ roff ++ 0#8) : BitVec 52)).extractLsb' 0 8 = 0#8 := by
  erw [ext_low _ _ _ _ _ _ (by decide)]
  exact BitVec.extractLsb'_eq_self
@[simp] theorem xWrAdd_22 (coff : BitVec 6) (roff : BitVec 7) : (((0#30 ++ 1#1 ++ coff ++ roff ++ 0#8) : BitVec 52)).extractLsb' 22 30 = 0#30 := by
  erw [ext_high _ _ _ _ _ _ (by decide), ext_high _ _ _ _ _ _ (by decide), ext_high _ _ _ _ _ _ (by decide), ext_high _ _ _ _ _ _ (by decide)]
  exact BitVec.extractLsb'_eq_self
@[simp] theorem xWrAdd_21 (coff : BitVec 6) (roff : BitVec 7) : (((0#30 ++ 1#1 ++ coff ++ roff ++ 0#8) : BitVec 52)).getLsbD 21 = true := by
  erw [bit_high _ _ _ _ _ (by decide), bit_high _ _ _ _ _ (by decide), bit_high _ _ _ _ _ (by decide), bit_low _ _ _ _ _ (by decide)]
  rfl
@[simp] theorem xWrAdd_15 (coff : BitVec 6) (roff : BitVec 7) : (((0#30 ++ 1#1 ++ coff ++ roff ++ 0#8) : BitVec 52)).extractLsb' 15 6 = coff := by
  erw [ext_high _ _ _ _ _ _ (by decide), ext_high _ _ _ _ _ _ (by decide), ext_low _ _ _ _ _ _ (by decide)]
  exact BitVec.extractLsb'_eq_self
@[simp] theorem xWrAdd_8 (coff : BitVec 6) (roff : BitVec 7) : (((0#30 ++ 1#1 ++ coff ++ roff ++ 0#8) : BitVec 52)).extractLsb' 8 7 = roff := by
  erw [ext_high _ _ _ _ _ _ (by decide), ext_low _ _ _ _ _ _ (by decide)]
  exact BitVec.extractLsb'_eq_self
@[simp] theorem xWrAdd_0 (coff : BitVec 6) (roff : BitVec 7) : (((0#30 ++ 1#1 ++ coff ++ roff ++ 0#8) : BitVec 52)).extractLsb' 0 8 = 0#8 := by
  erw [ext_low _ _ _ _ _ _ (by decide)]
  exact BitVec.extractLsb'_eq_self
@[simp] theorem xPl_8 (seed : BitVec 6) (rm : BitVec 2) : (((0#44 ++ seed ++ rm) : BitVec 52)).extractLsb' 8 44 = 0#44 := by
  erw [ext_high _ _ _ _ _ _ (by decide), ext_high _ _ _ _ _ _ (by decide)]
  exact BitVec.extractLsb'_eq_self
@[simp] theorem xPl_2 (seed : BitVec 6) (rm : BitVec 2) : (((0#44 ++ seed ++ rm) : BitVec 52)).extractLsb' 2 6 = seed := by
  erw [ext_high _ _ _ _ _ _ (by decide), ext_low _ _ _ _ _ _ (by decide)]
  exact BitVec.extractLsb'_eq_self
@[simp] theorem xPl_0 (seed : BitVec 6) (rm : BitVec 2) : (((0#44 ++ seed ++ rm) : BitVec 52)).extractLsb' 0 2 = rm := by
  erw [ext_low _ _ _ _ _ _ (by decide)]
  exact BitVec.extractLsb'_eq_self
@[simp] theorem mBfx_13 (lenm1 pos : BitVec 6) : (((0#1 ++ 0#1 ++ lenm1 ++ pos) : BitVec 14)).getLsbD 13 = false := by
  erw [bit_high _ _ _ _ _ (by decide), bit_high _ _ _ _ _ (by decide), bit_high _ _ _ _ _ (by decide)]
  rfl
@[simp] theorem mBfx_12 (lenm1 pos : BitVec 6) : (((0#1 ++ 0#1 ++ lenm1 ++ pos) : BitVec 14)).getLsbD 12 = false := by
  erw [bit_high _ _ _ _ _ (by decide), bit_high _ _ _ _ _ (by decide), bit_low _ _ _ _ _ (by decide)]
  rfl
@[simp] theorem mBfx_6 (lenm1 pos : BitVec 6) : (((0#1 ++ 0#1 ++ lenm1 ++ pos) : BitVec 14)).extractLsb' 6 6 = lenm1 := by
  erw [ext_high _ _ _ _ _ _ (by decide), ext_low _ _ _ _ _ _ (by decide)]
  exact BitVec.extractLsb'_eq_self
@[simp] theorem mBfx_0 (lenm1 pos : BitVec 6) : (((0#1 ++ 0#1 ++ lenm1 ++ pos) : BitVec 14)).extractLsb' 0 6 = pos := by
  erw [ext_low _ _ _ _ _ _ (by decide)]
  exact BitVec.extractLsb'_eq_self
@[simp] theorem mBfxS_13 (lenm1 pos : BitVec 6) : (((0#1 ++ 1#1 ++ lenm1 ++ pos) : BitVec 14)).getLsbD 13 = false := by
  erw [bit_high _ _ _ _ _ (by decide), bit_high _ _ _ _ _ (by decide), bit_high _ _ _ _ _ (by decide)]
  rfl
@[simp] theorem mBfxS_12 (lenm1 pos : BitVec 6) : (((0#1 ++ 1#1 ++ lenm1 ++ pos) : BitVec 14)).getLsbD 12 = true := by
  erw [bit_high _ _ _ _ _ (by decide), bit_high _ _ _ _ _ (by decide), bit_low _ _ _ _ _ (by decide)]
  rfl
@[simp] theorem mBfxS_6 (lenm1 pos : BitVec 6) : (((0#1 ++ 1#1 ++ lenm1 ++ pos) : BitVec 14)).extractLsb' 6 6 = lenm1 := by
  erw [ext_high _ _ _ _ _ _ (by decide), ext_low _ _ _ _ _ _ (by decide)]
  exact BitVec.extractLsb'_eq_self
@[simp] theorem mBfxS_0 (lenm1 pos : BitVec 6) : (((0#1 ++ 1#1 ++ lenm1 ++ pos) : BitVec 14)).extractLsb' 0 6 = pos := by
  erw [ext_low _ _ _ _ _ _ (by decide)]
  exact BitVec.extractLsb'_eq_self
@[simp] theorem mBfi_12 (lenm1 pos : BitVec 6) : (((0#2 ++ lenm1 ++ pos) : BitVec 14)).extractLsb' 12 2 = 0#2 := by
  erw [ext_high _ _ _ _ _ _ (by decide), ext_high _ _ _ _ _ _ (by decide)]
  exact BitVec.extractLsb'_eq_self
@[simp] theorem mBfi_6 (lenm1 pos : BitVec 6) : (((0#2 ++ lenm1 ++ pos) : BitVec 14)).extractLsb' 6 6 = lenm1 := by
  erw [ext_high _ _ _ _ _ _ (by decide), ext_low _ _ _ _ _ _ (by decide)]
  exact BitVec.extractLsb'_eq_self
@[simp] theorem mBfi_0 (lenm1 pos : BitVec 6) : (((0#2 ++ lenm1 ++ pos) : BitVec 14)).extractLsb' 0 6 = pos := by
  erw [ext_low _ _ _ _ _ _ (by decide)]
  exact BitVec.extractLsb'_eq_self
@[simp] theorem mFsh_7 (n : BitVec 6) : (((0#7 ++ 1#1 ++ n) : BitVec 14)).extractLsb' 7 7 = 0#7 := by
  erw [ext_high _ _ _ _ _ _ (by decide), ext_high _ _ _ _ _ _ (by decide)]
  exact BitVec.extractLsb'_eq_self
@[simp] theorem mFsh_6 (n : BitVec 6) : (((0#7 ++ 1#1 ++ n) : BitVec 14)).getLsbD 6 = true := by
  erw [bit_high _ _ _ _ _ (by decide), bit_low _ _ _ _ _ (by decide)]
  rfl
@[simp] theorem mFsh_0 (n : BitVec 6) : (((0#7 ++ 1#1 ++ n) : BitVec 14)).extractLsb' 0 6 = n := by
  erw [ext_low _ _ _ _ _ _ (by decide)]
  exact BitVec.extractLsb'_eq_self
@[simp] theorem mWait_23 (cq mq : BitVec 5) (vq sq lq : BitVec 6) : (((cq ++ mq ++ vq ++ sq ++ lq) : BitVec 28)).extractLsb' 23 5 = cq := by
  erw [ext_high _ _ _ _ _ _ (by decide), ext_high _ _ _ _ _ _ (by decide), ext_high _ _ _ _ _ _ (by decide), ext_high _ _ _ _ _ _ (by decide)]
  exact BitVec.extractLsb'_eq_self
@[simp] theorem mWait_18 (cq mq : BitVec 5) (vq sq lq : BitVec 6) : (((cq ++ mq ++ vq ++ sq ++ lq) : BitVec 28)).extractLsb' 18 5 = mq := by
  erw [ext_high _ _ _ _ _ _ (by decide), ext_high _ _ _ _ _ _ (by decide), ext_high _ _ _ _ _ _ (by decide), ext_low _ _ _ _ _ _ (by decide)]
  exact BitVec.extractLsb'_eq_self
@[simp] theorem mWait_12 (cq mq : BitVec 5) (vq sq lq : BitVec 6) : (((cq ++ mq ++ vq ++ sq ++ lq) : BitVec 28)).extractLsb' 12 6 = vq := by
  erw [ext_high _ _ _ _ _ _ (by decide), ext_high _ _ _ _ _ _ (by decide), ext_low _ _ _ _ _ _ (by decide)]
  exact BitVec.extractLsb'_eq_self
@[simp] theorem mWait_6 (cq mq : BitVec 5) (vq sq lq : BitVec 6) : (((cq ++ mq ++ vq ++ sq ++ lq) : BitVec 28)).extractLsb' 6 6 = sq := by
  erw [ext_high _ _ _ _ _ _ (by decide), ext_low _ _ _ _ _ _ (by decide)]
  exact BitVec.extractLsb'_eq_self
@[simp] theorem mWait_0 (cq mq : BitVec 5) (vq sq lq : BitVec 6) : (((cq ++ mq ++ vq ++ sq ++ lq) : BitVec 28)).extractLsb' 0 6 = lq := by
  erw [ext_low _ _ _ _ _ _ (by decide)]
  exact BitVec.extractLsb'_eq_self
@[simp] theorem cpx_26_26 (rnd : Rnd) (ds : BitVec 8) (gen : Bool) (xr : BitVec 6) (op : BitVec 3) : (cpx rnd ds gen xr op 0#1 0#6).extractLsb' 26 26 = 0 := by
  unfold cpx
  erw [ext_high _ _ _ _ _ _ (by decide), ext_high _ _ _ _ _ _ (by decide), ext_high _ _ _ _ _ _ (by decide), ext_high _ _ _ _ _ _ (by decide), ext_high _ _ _ _ _ _ (by decide), ext_high _ _ _ _ _ _ (by decide)]
  decide
@[simp] theorem cpx_23_29 (rnd : Rnd) (ds : BitVec 8) (gen : Bool) (xr : BitVec 6) : (cpx rnd ds gen xr 0#3 0#1 0#6).extractLsb' 23 29 = 0 := by
  unfold cpx
  erw [ext_high _ _ _ _ _ _ (by decide), ext_high _ _ _ _ _ _ (by decide), ext_high _ _ _ _ _ _ (by decide), ext_high _ _ _ _ _ _ (by decide), ext_high _ _ _ _ _ _ (by decide)]
  decide
@[simp] theorem cpx_27_25 (rnd : Rnd) (ds : BitVec 8) (gen : Bool) (xr : BitVec 6) (op : BitVec 3) (sz : BitVec 1) : (cpx rnd ds gen xr op sz 0#6).extractLsb' 27 25 = 0 := by
  unfold cpx
  erw [ext_high _ _ _ _ _ _ (by decide), ext_high _ _ _ _ _ _ (by decide), ext_high _ _ _ _ _ _ (by decide), ext_high _ _ _ _ _ _ (by decide), ext_high _ _ _ _ _ _ (by decide), ext_high _ _ _ _ _ _ (by decide), ext_high _ _ _ _ _ _ (by decide)]
  decide
theorem mBfi_13 (lenm1 pos : BitVec 6) : ((0#2 ++ lenm1 ++ pos : BitVec 14)).getLsbD 13 = false := by
  erw [bit_high _ _ _ _ _ (by decide), bit_high _ _ _ _ _ (by decide)]; rfl
theorem mBfi_12b (lenm1 pos : BitVec 6) : ((0#2 ++ lenm1 ++ pos : BitVec 14)).getLsbD 12 = false := by
  erw [bit_high _ _ _ _ _ (by decide), bit_high _ _ _ _ _ (by decide)]; rfl
@[simp] theorem cpx_0_8 (gen : Bool) (xr : BitVec 6) (op : BitVec 3) (sz : BitVec 1) (lim : BitVec 6) : (cpx Rnd.rne 0#8 gen xr op sz lim).extractLsb' 0 8 = 0 := by
  unfold cpx
  apply BitVec.eq_of_getLsbD_eq; intro i hi
  rw [BitVec.getLsbD_extractLsb', BitVec.getLsbD_append, BitVec.getLsbD_append]
  simp [Rnd.rne, Rm.code]; omega
@[simp] theorem cpx_0_16 (gen : Bool) (xr : BitVec 6) (op : BitVec 3) (sz : BitVec 1) (lim : BitVec 6) : (cpx Rnd.rne 0#8 gen xr op sz lim).extractLsb' 0 16 = 0 := by
  unfold cpx
  apply BitVec.eq_of_getLsbD_eq; intro i hi
  rw [BitVec.getLsbD_extractLsb', BitVec.getLsbD_append, BitVec.getLsbD_append, BitVec.getLsbD_append]
  simp [Rnd.rne, Rm.code]; omega
@[simp] theorem cpx_0_17 (xr : BitVec 6) (op : BitVec 3) (sz : BitVec 1) (lim : BitVec 6) : (cpx Rnd.rne 0#8 false xr op sz lim).extractLsb' 0 17 = 0 := by
  unfold cpx
  apply BitVec.eq_of_getLsbD_eq; intro i hi
  rw [BitVec.getLsbD_extractLsb', BitVec.getLsbD_append, BitVec.getLsbD_append, BitVec.getLsbD_append, BitVec.getLsbD_append]
  simp [Rnd.rne, Rm.code]; omega
@[simp] theorem cpx_16_7 (rnd : Rnd) (ds : BitVec 8) (op : BitVec 3) (sz : BitVec 1) (lim : BitVec 6) : (cpx rnd ds false 0#6 op sz lim).extractLsb' 16 7 = 0 := by
  unfold cpx
  erw [ext_high _ _ _ _ _ _ (by decide), ext_high _ _ _ _ _ _ (by decide), ext_high _ _ _ _ _ _ (by decide)]
  apply BitVec.eq_of_getLsbD_eq; intro i hi
  rw [BitVec.getLsbD_extractLsb', BitVec.getLsbD_append, BitVec.getLsbD_append]
  simp; omega
@[simp] theorem cpx_0_27 (lim : BitVec 6) : (cpx Rnd.rne 0#8 false 0#6 0#3 0#1 lim).extractLsb' 0 27 = 0 := by
  revert lim; decide

@[simp] theorem ofCode_ety (e : Ety) : Ety.ofCode e.code = e := by cases e <;> rfl
@[simp] theorem ofCode_rm (e : Rm) : Rm.ofCode e.code = e := by cases e <;> rfl
@[simp] theorem ofCode_vcond (e : VCond) : VCond.ofCode e.code = e := by cases e <;> rfl
@[simp] theorem ofCode_redop (e : RedOp) : RedOp.ofCode e.code = e := by cases e <;> rfl
@[simp] theorem ofBits_nest (n : NestOpt) : NestOpt.ofBits n.bits = n := by
  unfold NestOpt.ofBits; simp [-BitVec.getLsbD_eq_getElem]
@[simp] theorem ofBits_blk (n : BlkParm) : BlkParm.ofBits n.bits = n := by
  unfold BlkParm.ofBits; simp [-BitVec.getLsbD_eq_getElem]
@[simp] theorem ofNum_num (c : Ctl) : Ctl.ofNum c.num = some c := by cases c <;> decide
@[simp] theorem xo_vx (o : VOpt) (rm seed xi xf o4) : xo (vx o rm seed xi xf o4) = o := by
  unfold xo; simp [-BitVec.getLsbD_eq_getElem]
@[simp] theorem r6_w7 (r : BitVec 6) : r6 (w7 r) = r := by
  unfold r6 w7; apply BitVec.eq_of_getLsbD_eq; intro i hi; simp [hi]
@[simp] theorem r3_w7 (r : BitVec 3) : r3 (w7 r) = r := by
  unfold r3 w7; apply BitVec.eq_of_getLsbD_eq; intro i hi; simp [hi]
@[simp] theorem w7_bit0 (r : BitVec 6) : (w7 r).getLsbD 0 = r.getLsbD 0 := by unfold w7; simp
@[simp] theorem s7_w7 (r : BitVec 6) : s7 (w7 r) = false := by unfold s7 w7; simp
@[simp] theorem p7_w7 (r : BitVec 3) : p7 (w7 r) = false := by unfold p7 w7; simp; omega
@[simp] theorem r5_set (r : BitVec 5) : r5 (r.setWidth 6) = r := by
  unfold r5; apply BitVec.eq_of_getLsbD_eq; intro i hi; simp [hi]
@[simp] theorem q3_set (r : BitVec 3) : q3 (r.setWidth 6) = r := by
  unfold q3; apply BitVec.eq_of_getLsbD_eq; intro i hi; simp [hi]
@[simp] theorem v6_set (r : BitVec 5) : v6 (r.setWidth 6) = false := by unfold v6; simp
@[simp] theorem p6_set (r : BitVec 3) : p6 (r.setWidth 6) = false := by unfold p6; simp; omega
@[simp] theorem mod_disp (m : MemOp) (sc : BitVec 2) : (m.mod sc).extractLsb' 5 9 = m.disp := by
  unfold MemOp.mod
  erw [ext_high _ _ _ _ _ _ (by decide), ext_high _ _ _ _ _ _ (by decide)]
  exact BitVec.extractLsb'_eq_self
@[simp] theorem mod_sc (m : MemOp) (sc : BitVec 2) : (m.mod sc).extractLsb' 3 2 = sc := by
  unfold MemOp.mod
  erw [ext_high _ _ _ _ _ _ (by decide), ext_low _ _ _ _ _ _ (by decide)]
  exact BitVec.extractLsb'_eq_self
@[simp] theorem mod_ks (m : MemOp) (sc : BitVec 2) : (m.mod sc).extractLsb' 0 3 = m.ks := by
  unfold MemOp.mod
  erw [ext_low _ _ _ _ _ _ (by decide)]
  exact BitVec.extractLsb'_eq_self
@[simp] theorem lim_low (l : BitVec 6) : (l.setWidth 52).extractLsb' 0 6 = l := by
  apply BitVec.eq_of_getLsbD_eq; intro i hi; simp [hi]; omega
@[simp] theorem lim_high (l : BitVec 6) : (l.setWidth 52).extractLsb' 6 46 = 0 := by
  apply BitVec.eq_of_getLsbD_eq; intro i hi; simp
@[simp] theorem msk16_low (l : BitVec 16) : (l.setWidth 52).extractLsb' 0 16 = l := by
  apply BitVec.eq_of_getLsbD_eq; intro i hi; simp [hi]; omega
@[simp] theorem msk16_high (l : BitVec 16) : (l.setWidth 52).extractLsb' 16 36 = 0 := by
  apply BitVec.eq_of_getLsbD_eq; intro i hi; simp
@[simp] theorem msk4_low (l : BitVec 4) : (l.setWidth 52).extractLsb' 0 4 = l := by
  apply BitVec.eq_of_getLsbD_eq; intro i hi; simp [hi]; omega
@[simp] theorem msk4_high (l : BitVec 4) : (l.setWidth 52).extractLsb' 4 48 = 0 := by
  apply BitVec.eq_of_getLsbD_eq; intro i hi; simp
theorem zm_men (o : VOpt) (h : o.wf = true) : o.zm = true → o.men = true := by
  unfold VOpt.wf at h; cases hz : o.zm <;> cases hm : o.men <;> simp_all
theorem ety_code (e : Ety) : e.code.toNat = 0 ∨ e.code.toNat = 1 ∨ e.code.toNat = 2 ∨ e.code.toNat = 3 ∨ e.code.toNat = 4 := by
  cases e <;> decide
theorem rm_code (r : Rnd) : r.rm.code ≠ 3#2 := by cases r.rm <;> decide
theorem rm_toNat (r : Rnd) : r.rm.code.toNat ≠ 3 := by cases r.rm <;> decide
@[simp] theorem w64_28 (n : BitVec 6) : (n.setWidth 28).extractLsb' 6 22 = 0 := by
  apply BitVec.eq_of_getLsbD_eq; intro i hi; simp
@[simp] theorem w16_8 (n : BitVec 8) : (n.setWidth 16).extractLsb' 8 8 = 0 := by
  apply BitVec.eq_of_getLsbD_eq; intro i hi; simp
@[simp] theorem w16_11 (n : BitVec 11) : (n.setWidth 16).extractLsb' 11 5 = 0 := by
  apply BitVec.eq_of_getLsbD_eq; intro i hi; simp
@[simp] theorem w16_7 (n : BitVec 7) : (n.setWidth 16).extractLsb' 7 9 = 0 := by
  apply BitVec.eq_of_getLsbD_eq; intro i hi; simp
@[simp] theorem set8_4 (p : BitVec 3) : (p.setWidth 8 = 4#8) = (p = 4#3) := by
  revert p; decide
theorem rm_seed (r : Rnd) (h : r.wf = true) : r.rm.code ≠ 2#2 → r.seed = 0#6 := by
  unfold Rnd.wf at h; cases hr : r.rm <;> simp_all [Rm.code]
end Sys2Proof.Laws
end

