-- ==== Sys2Proof/Laws/Map.lean ====
section
/-! SUPPORT. The laws of sparse maps: a read after a write, and the canonical form, which every operation keeps. -/

namespace Sys2Proof.SMap

variable {α : Type}

-- ### Reads after writes

@[simp] theorem get_nil (d : α) (k : Nat) : get d [] k = d := rfl

theorem get_put_same (d : α) (m : SMap α) (k : Nat) (v : α) (h : ∀ e ∈ m, e.1 ≠ k) : get d (put m k v) k = v := by
  induction m with
  | nil => simp [put, get]
  | cons e r ih =>
    obtain ⟨j, w⟩ := e
    have hj : j ≠ k := h (j, w) (by simp)
    have hr : ∀ e ∈ r, e.1 ≠ k := fun e he => h e (by simp [he])
    unfold put
    split
    · simp [get]
    · simp [get, hj, ih hr]

theorem get_put_ne (d : α) (m : SMap α) (k n : Nat) (v : α) (h : n ≠ k) : get d (put m k v) n = get d m n := by
  induction m with
  | nil => simp [put, get, Ne.symm h]
  | cons e r ih =>
    obtain ⟨j, w⟩ := e
    unfold put
    split
    · simp [get, Ne.symm h]
    · simp [get, ih]

theorem get_filter (d : α) (m : SMap α) (p : Nat → Bool) (n : Nat) :
    get d (m.filter (fun e => p e.1)) n = if p n then get d m n else d := by
  induction m with
  | nil => simp [get]
  | cons e r ih =>
    obtain ⟨j, w⟩ := e
    by_cases hp : p j
    · simp only [List.filter_cons, hp, if_true, get]
      by_cases hj : j = n
      · subst hj; simp [hp]
      · simp [hj, ih]
    · simp only [List.filter_cons, hp, get]
      by_cases hj : j = n
      · subst hj; simp [hp, ih]
      · simp [hj, ih]

theorem get_del_same (d : α) (m : SMap α) (k : Nat) : get d (del m k) k = d := by
  unfold del; rw [get_filter d m (fun n => n != k)]; simp

theorem get_del_ne (d : α) (m : SMap α) (k n : Nat) (h : n ≠ k) : get d (del m k) n = get d m n := by
  unfold del; rw [get_filter d m (fun n => n != k)]; simp [h]

theorem not_mem_del (m : SMap α) (k : Nat) : ∀ e ∈ del m k, e.1 ≠ k := by
  intro e he; simpa using (List.mem_filter.1 he).2

variable [DecidableEq α]

/-- Reading back what was written. -/
@[simp] theorem get_set_same (d : α) (m : SMap α) (k : Nat) (v : α) : get d (set d m k v) k = v := by
  unfold set
  split
  · rename_i h; rw [get_del_same, h]
  · exact get_put_same d _ k v (not_mem_del m k)

/-- A write leaves every other key alone. -/
theorem get_set_ne (d : α) (m : SMap α) (k n : Nat) (v : α) (h : n ≠ k) : get d (set d m k v) n = get d m n := by
  unfold set
  split
  · exact get_del_ne d m k n h
  · rw [get_put_ne d _ k n v h, get_del_ne d m k n h]

theorem get_set (d : α) (m : SMap α) (k n : Nat) (v : α) : get d (set d m k v) n = if n = k then v else get d m n := by
  by_cases h : n = k
  · subst h; simp
  · simp [h, get_set_ne]

omit [DecidableEq α] in
theorem del_del (m : SMap α) (k : Nat) : del (del m k) k = del m k := by
  unfold del; rw [List.filter_filter]; simp

omit [DecidableEq α] in
theorem del_put (m : SMap α) (k : Nat) (v : α) : del (put m k v) k = del m k := by
  induction m with
  | nil => simp [put, del]
  | cons e r ih =>
    obtain ⟨j, w⟩ := e
    unfold put
    split
    · simp [del]
    · unfold del at ih ⊢
      simp only [List.filter_cons, ih]

theorem del_set (d : α) (m : SMap α) (k : Nat) (v : α) : del (set d m k v) k = del m k := by
  unfold set
  split
  · exact del_del m k
  · rw [del_put, del_del]

/-- Of two writes of one key the second stands. -/
@[simp] theorem set_set (d : α) (m : SMap α) (k : Nat) (v w : α) : set d (set d m k v) k w = set d m k w := by
  rw [set, del_set]; rfl

-- ### The canonical form

theorem wf_cons_iff (d : α) (j : Nat) (v : α) (r : SMap α) :
    wf d ((j, v) :: r) = true ↔ v ≠ d ∧ (∀ e ∈ r, j < e.1) ∧ wf d r = true := by
  induction r generalizing j v with
  | nil => simp [wf]
  | cons e r ih =>
    obtain ⟨k, w⟩ := e
    rw [wf]
    simp only [Bool.and_eq_true, decide_eq_true_eq, ne_eq, decide_not, Bool.not_eq_true', decide_eq_false_iff_not]
    constructor
    · rintro ⟨⟨h1, h2⟩, h3⟩
      refine ⟨h1, ?_, h3⟩
      intro e he
      rcases List.mem_cons.1 he with rfl | he
      · exact h2
      · exact lt_trans h2 (((ih k w).1 h3).2.1 e he)
    · rintro ⟨h1, h2, h3⟩
      exact ⟨⟨h1, h2 (k, w) (by simp)⟩, h3⟩

@[simp] theorem wf_nil (d : α) : wf d ([] : SMap α) = true := rfl

theorem wf_filter (d : α) (m : SMap α) (p : Nat × α → Bool) (h : wf d m = true) : wf d (m.filter p) = true := by
  induction m with
  | nil => rfl
  | cons e r ih =>
    obtain ⟨j, v⟩ := e
    obtain ⟨h1, h2, h3⟩ := (wf_cons_iff d j v r).1 h
    rw [List.filter_cons]
    split
    · exact (wf_cons_iff d j v _).2 ⟨h1, fun e he => h2 e (List.mem_filter.1 he).1, ih h3⟩
    · exact ih h3

theorem wf_del (d : α) (m : SMap α) (k : Nat) (h : wf d m = true) : wf d (del m k) = true := wf_filter d m _ h
theorem wf_clear (d : α) (m : SMap α) (lo n : Nat) (h : wf d m = true) : wf d (clear m lo n) = true := wf_filter d m _ h
theorem wf_slice (d : α) (m : SMap α) (lo n : Nat) (h : wf d m = true) : wf d (slice m lo n) = true := wf_filter d m _ h

omit [DecidableEq α] in
theorem mem_put (m : SMap α) (k : Nat) (v : α) (e : Nat × α) : e ∈ put m k v → e = (k, v) ∨ e ∈ m := by
  induction m with
  | nil => simp [put]
  | cons a r ih =>
    obtain ⟨j, w⟩ := a
    unfold put
    split
    · simp
    · intro h
      rcases List.mem_cons.1 h with h | h
      · exact .inr (by simp [h])
      · rcases ih h with h | h
        · exact .inl h
        · exact .inr (by simp [h])

theorem wf_put (d : α) (m : SMap α) (k : Nat) (v : α) (hv : v ≠ d) (hk : ∀ e ∈ m, e.1 ≠ k) (h : wf d m = true) : wf d (put m k v) = true := by
  induction m with
  | nil => simp [put, wf, hv]
  | cons e r ih =>
    obtain ⟨j, w⟩ := e
    obtain ⟨h1, h2, h3⟩ := (wf_cons_iff d j w r).1 h
    have hj : j ≠ k := hk (j, w) (by simp)
    unfold put
    split
    · rename_i hlt
      refine (wf_cons_iff d k v _).2 ⟨hv, ?_, h⟩
      intro e he
      rcases List.mem_cons.1 he with rfl | he
      · exact hlt
      · exact lt_trans hlt (h2 e he)
    · rename_i hge
      refine (wf_cons_iff d j w _).2 ⟨h1, ?_, ih (fun e he => hk e (by simp [he])) h3⟩
      intro e he
      rcases mem_put r k v e he with rfl | he
      · show j < k; omega
      · exact h2 e he

/-- A write keeps the canonical form. -/
theorem wf_set (d : α) (m : SMap α) (k : Nat) (v : α) (h : wf d m = true) : wf d (set d m k v) = true := by
  unfold set
  split
  · exact wf_del d m k h
  · rename_i hv
    exact wf_put d _ k v hv (not_mem_del m k) (wf_del d m k h)

theorem wf_map_filter (d : α) (m : SMap α) (f : α → α) (h : wf d m = true) : wf d (mapVals d f m) = true := by
  unfold mapVals
  induction m with
  | nil => rfl
  | cons e r ih =>
    obtain ⟨j, v⟩ := e
    obtain ⟨_, h2, h3⟩ := (wf_cons_iff d j v r).1 h
    rw [List.map_cons, List.filter_cons]
    split
    · rename_i hv
      refine (wf_cons_iff d j (f v) _).2 ⟨by simpa using hv, ?_, ih h3⟩
      intro e he
      obtain ⟨x, hx, rfl⟩ := List.mem_map.1 (List.mem_filter.1 he).1
      exact h2 x hx
    · exact ih h3

/-- Canonical maps that read alike are equal. -/
theorem ext_of_wf (d : α) (m n : SMap α) (hm : wf d m = true) (hn : wf d n = true) (h : ∀ k, get d m k = get d n k) : m = n := by
  induction m generalizing n with
  | nil =>
    cases n with
    | nil => rfl
    | cons e r =>
      obtain ⟨j, v⟩ := e
      have := h j
      simp [get] at this
      exact absurd this.symm ((wf_cons_iff d j v r).1 hn).1
  | cons e r ih =>
    obtain ⟨j, v⟩ := e
    obtain ⟨h1, h2, h3⟩ := (wf_cons_iff d j v r).1 hm
    have low : ∀ (r : SMap α) (k : Nat), (∀ e ∈ r, k < e.1) → get d r k = d := by
      intro r k hr
      induction r with
      | nil => rfl
      | cons e r ih =>
        obtain ⟨i, x⟩ := e
        have : i ≠ k := by have := hr (i, x) (by simp); simp at this; omega
        simp [get, this, ih (fun e he => hr e (by simp [he]))]
    cases n with
    | nil =>
      have := h j
      simp [get] at this
      exact absurd this h1
    | cons e' r' =>
      obtain ⟨i, w⟩ := e'
      obtain ⟨g1, g2, g3⟩ := (wf_cons_iff d i w r').1 hn
      have hij : i = j := by
        rcases lt_trichotomy i j with hlt | heq | hgt
        · have := h i
          have hz : get d ((j, v) :: r) i = d :=
            low _ i (fun e he => by rcases List.mem_cons.1 he with rfl | he; exact hlt; exact lt_trans hlt (h2 e he))
          rw [hz] at this; simp [get] at this; exact absurd this.symm g1
        · exact heq
        · have := h j
          have hz : get d ((i, w) :: r') j = d :=
            low _ j (fun e he => by rcases List.mem_cons.1 he with rfl | he; exact hgt; exact lt_trans hgt (g2 e he))
          rw [hz] at this; simp [get] at this; exact absurd this h1
      subst hij
      have hv : v = w := by have := h i; simpa [get] using this
      subst hv
      have : r = r' := by
        refine ih r' h3 g3 (fun k => ?_)
        by_cases hk : i = k
        · subst hk; rw [low r i h2, low r' i g2]
        · have := h k; simpa [get, hk] using this
      rw [this]

end Sys2Proof.SMap
end

