-- ==== Sys2Proof/Laws/Memory.lean ====
section
/-! SUPPORT. Memory: every operation that writes it keeps its canonical form, and changes no byte outside those it writes. -/

namespace Sys2Proof.Machine

theorem reset_memory_wf : Memory.wf State.reset.mem = true := rfl

theorem byte_setByte_same (s : State) (pa : Nat) (b : Byte) : (s.setByte pa b).byte pa = b := SMap.get_set_same ..
theorem byte_setByte_ne (s : State) (pa q : Nat) (b : Byte) (h : q ≠ pa) : (s.setByte pa b).byte q = s.byte q := SMap.get_set_ne _ _ _ _ _ h
theorem setByte_wf (s : State) (pa : Nat) (b : Byte) (h : Memory.wf s.mem = true) : Memory.wf (s.setByte pa b).mem = true := SMap.wf_set _ _ _ _ h

theorem putBytes_wf (m : SMap Byte) (pa : Nat) (x : BitVec 2048) (k : BitVec 256) (n : Nat) (h : Memory.wf m = true) :
    Memory.wf (putBytes m pa x k n) = true := by
  induction n with
  | zero => exact h
  | succ n ih =>
    simp only [putBytes]
    split
    · exact SMap.wf_set _ _ _ _ ih
    · exact ih

/-- A byte outside the run, or one whose mask bit is 0, keeps its value; one inside with its bit set takes the new one. -/
theorem get_putBytes_outside (m : SMap Byte) (pa : Nat) (x : BitVec 2048) (k : BitVec 256) (n q : Nat) (h : q < pa ∨ pa + n ≤ q) :
    SMap.get 0 (putBytes m pa x k n) q = SMap.get 0 m q := by
  induction n with
  | zero => rfl
  | succ n ih =>
    simp only [putBytes]
    split
    · rw [SMap.get_set_ne _ _ _ _ _ (by omega), ih (by omega)]
    · exact ih (by omega)
theorem get_putBytes (m : SMap Byte) (pa : Nat) (x : BitVec 2048) (k : BitVec 256) (n i : Nat) (h : i < n) :
    SMap.get 0 (putBytes m pa x k n) (pa + i) = if k.getLsbD i then x.extractLsb' (8 * i) 8 else SMap.get 0 m (pa + i) := by
  induction n with
  | zero => omega
  | succ n ih =>
    simp only [putBytes]
    by_cases e : i = n
    · subst e
      split
      · exact SMap.get_set_same ..
      · exact get_putBytes_outside _ _ _ _ _ _ (by omega)
    · split
      · rw [SMap.get_set_ne _ _ _ _ _ (by omega), ih (by omega)]
      · exact ih (by omega)

@[simp] theorem mem_setLineSt (s : State) (n : Nat) (x : LineSt) : (s.setLineSt n x).mem = s.mem := rfl

/-- A masked write of a line writes no byte outside the line, and leaves every core, partition and register of the module as it was. -/
theorem homeWrite_mem {s t : State} {line key : Nat} {compr : Bool} {x : BitVec 2048} {m : BitVec 256} (h : s.homeWrite line key compr x m = .ok t) :
    ∃ y k, t.mem = putBytes s.mem (256 * line) y k 256 := by
  unfold State.homeWrite at h
  dsimp only at h
  repeat' split at h
  all_goals first
    | (cases h; done)
    | (injection h with h; rw [← h, mem_setLineSt]; dsimp only; exact ⟨_, _, Eq.refl _⟩)
theorem homeWrite_wf {s t : State} {line key : Nat} {compr : Bool} {x : BitVec 2048} {m : BitVec 256} (h : s.homeWrite line key compr x m = .ok t)
    (hw : Memory.wf s.mem = true) : Memory.wf t.mem = true := by
  obtain ⟨y, k, e⟩ := homeWrite_mem h
  rw [e]; exact putBytes_wf _ _ _ _ _ hw
theorem homeWrite_outside {s t : State} {line key : Nat} {compr : Bool} {x : BitVec 2048} {m : BitVec 256} (h : s.homeWrite line key compr x m = .ok t)
    (q : Nat) (hq : q / 256 ≠ line) : t.byte q = s.byte q := by
  obtain ⟨y, k, e⟩ := homeWrite_mem h
  rw [State.byte, e]; exact get_putBytes_outside _ _ _ _ _ _ (by omega)

theorem homePut_wf {s t : State} {pa key : Nat} {compr : Bool} {bs : List Byte} (h : s.homePut pa key compr bs = .ok t) (hw : Memory.wf s.mem = true) :
    Memory.wf t.mem = true := homeWrite_wf h hw

/-- What the device itself writes keeps the form, whichever lines it reaches. -/
theorem physPut_wf (s : State) (pa : Nat) (bs : List Byte) (hw : Memory.wf s.mem = true) : Memory.wf (s.physPut pa bs).mem = true := by
  unfold State.physPut
  generalize bs.length / 256 + 2 = fuel
  induction fuel generalizing s pa bs with
  | zero => exact hw
  | succ n ih =>
    simp only [State.physPutRun]
    split
    · exact hw
    · split
      · refine ih _ _ _ ?_
        split at *
        · simp_all
        · exact homePut_wf ‹_› hw
      · exact ih _ _ _ hw

end Sys2Proof.Machine
end

