-- ==== Sys2Proof/Laws/PerInstr.lean ====
section
/-! SUPPORT. The encodings, one instruction at a time: the fields that the encoder writes are read back as the instruction, and break no
rule of R152 to R154. -/

namespace Sys2Proof.Laws.RoundTrip

open Sys2Proof Sys2Proof.Laws

set_option Elab.async false
set_option linter.unusedSimpArgs false
set_option linter.unreachableTactic false
set_option linter.unusedTactic false

/-- A well-formed instruction's unit lies in the row of the opcode map that reads it back, with no field illegal and no register number
beyond its file, in each mode in which its control register, if it names one, may be reached. -/
def Statement (i : Instr) : Prop :=
  i.isEvent = true ∨ (i.wf = true → ∀ priv : Bool, i.reaches priv = true →
    ∃ e p fmt, armOf priv (encode i) (encode i).maj.toNat = some (.mk e p fmt false false i) ∧ (p = i.privileged) ∧
      ((encode i).xp.isSome = true → e = true) ∧ (fmt = .i → (encode i).x.extractLsb' 36 16 = 0))

theorem ldB (h : Hdr) (d : SReg) (mem : MemOp) : Statement (.ldB h d mem) := by
  refine .inr (fun hw priv hr => ?_)
  simp only [Instr.wf, Instr.hdr?, Instr.operandsWf, Bool.and_eq_true] at hw
  have hv := hw
  try simp [VOpt.plain, -BitVec.getLsbD_eq_getElem] at hv
  simp [encode, armOf, arms14, Instr.privileged, hw, hv, mop, -BitVec.getLsbD_eq_getElem]
theorem ldH (h : Hdr) (d : SReg) (mem : MemOp) : Statement (.ldH h d mem) := by
  refine .inr (fun hw priv hr => ?_)
  simp only [Instr.wf, Instr.hdr?, Instr.operandsWf, Bool.and_eq_true] at hw
  have hv := hw
  try simp [VOpt.plain, -BitVec.getLsbD_eq_getElem] at hv
  simp [encode, armOf, arms14, Instr.privileged, hw, hv, mop, -BitVec.getLsbD_eq_getElem]
theorem ldW (h : Hdr) (d : SReg) (mem : MemOp) : Statement (.ldW h d mem) := by
  refine .inr (fun hw priv hr => ?_)
  simp only [Instr.wf, Instr.hdr?, Instr.operandsWf, Bool.and_eq_true] at hw
  have hv := hw
  try simp [VOpt.plain, -BitVec.getLsbD_eq_getElem] at hv
  simp [encode, armOf, arms14, Instr.privileged, hw, hv, mop, -BitVec.getLsbD_eq_getElem]
theorem ldD (h : Hdr) (d : SReg) (mem : MemOp) : Statement (.ldD h d mem) := by
  refine .inr (fun hw priv hr => ?_)
  simp only [Instr.wf, Instr.hdr?, Instr.operandsWf, Bool.and_eq_true] at hw
  have hv := hw
  try simp [VOpt.plain, -BitVec.getLsbD_eq_getElem] at hv
  simp [encode, armOf, arms14, Instr.privileged, hw, hv, mop, -BitVec.getLsbD_eq_getElem]
theorem ldQ (h : Hdr) (d : SReg) (mem : MemOp) : Statement (.ldQ h d mem) := by
  refine .inr (fun hw priv hr => ?_)
  simp only [Instr.wf, Instr.hdr?, Instr.operandsWf, Bool.and_eq_true] at hw
  have hv := hw
  try simp [VOpt.plain, -BitVec.getLsbD_eq_getElem] at hv
  simp [encode, armOf, arms14, Instr.privileged, hw, hv, mop, -BitVec.getLsbD_eq_getElem]
theorem ldsB (h : Hdr) (d : SReg) (mem : MemOp) : Statement (.ldsB h d mem) := by
  refine .inr (fun hw priv hr => ?_)
  simp only [Instr.wf, Instr.hdr?, Instr.operandsWf, Bool.and_eq_true] at hw
  have hv := hw
  try simp [VOpt.plain, -BitVec.getLsbD_eq_getElem] at hv
  simp [encode, armOf, arms14, Instr.privileged, hw, hv, mop, -BitVec.getLsbD_eq_getElem]
theorem ldsH (h : Hdr) (d : SReg) (mem : MemOp) : Statement (.ldsH h d mem) := by
  refine .inr (fun hw priv hr => ?_)
  simp only [Instr.wf, Instr.hdr?, Instr.operandsWf, Bool.and_eq_true] at hw
  have hv := hw
  try simp [VOpt.plain, -BitVec.getLsbD_eq_getElem] at hv
  simp [encode, armOf, arms14, Instr.privileged, hw, hv, mop, -BitVec.getLsbD_eq_getElem]
theorem ldsW (h : Hdr) (d : SReg) (mem : MemOp) : Statement (.ldsW h d mem) := by
  refine .inr (fun hw priv hr => ?_)
  simp only [Instr.wf, Instr.hdr?, Instr.operandsWf, Bool.and_eq_true] at hw
  have hv := hw
  try simp [VOpt.plain, -BitVec.getLsbD_eq_getElem] at hv
  simp [encode, armOf, arms14, Instr.privileged, hw, hv, mop, -BitVec.getLsbD_eq_getElem]
theorem stB (h : Hdr) (c : SReg) (mem : MemOp) : Statement (.stB h c mem) := by
  refine .inr (fun hw priv hr => ?_)
  simp only [Instr.wf, Instr.hdr?, Instr.operandsWf, Bool.and_eq_true] at hw
  have hv := hw
  try simp [VOpt.plain, -BitVec.getLsbD_eq_getElem] at hv
  simp [encode, armOf, arms14, Instr.privileged, hw, hv, mop, -BitVec.getLsbD_eq_getElem]
theorem stH (h : Hdr) (c : SReg) (mem : MemOp) : Statement (.stH h c mem) := by
  refine .inr (fun hw priv hr => ?_)
  simp only [Instr.wf, Instr.hdr?, Instr.operandsWf, Bool.and_eq_true] at hw
  have hv := hw
  try simp [VOpt.plain, -BitVec.getLsbD_eq_getElem] at hv
  simp [encode, armOf, arms14, Instr.privileged, hw, hv, mop, -BitVec.getLsbD_eq_getElem]
theorem stW (h : Hdr) (c : SReg) (mem : MemOp) : Statement (.stW h c mem) := by
  refine .inr (fun hw priv hr => ?_)
  simp only [Instr.wf, Instr.hdr?, Instr.operandsWf, Bool.and_eq_true] at hw
  have hv := hw
  try simp [VOpt.plain, -BitVec.getLsbD_eq_getElem] at hv
  simp [encode, armOf, arms14, Instr.privileged, hw, hv, mop, -BitVec.getLsbD_eq_getElem]
theorem stD (h : Hdr) (c : SReg) (mem : MemOp) : Statement (.stD h c mem) := by
  refine .inr (fun hw priv hr => ?_)
  simp only [Instr.wf, Instr.hdr?, Instr.operandsWf, Bool.and_eq_true] at hw
  have hv := hw
  try simp [VOpt.plain, -BitVec.getLsbD_eq_getElem] at hv
  simp [encode, armOf, arms14, Instr.privileged, hw, hv, mop, -BitVec.getLsbD_eq_getElem]
theorem stQ (h : Hdr) (c : SReg) (mem : MemOp) : Statement (.stQ h c mem) := by
  refine .inr (fun hw priv hr => ?_)
  simp only [Instr.wf, Instr.hdr?, Instr.operandsWf, Bool.and_eq_true] at hw
  have hv := hw
  try simp [VOpt.plain, -BitVec.getLsbD_eq_getElem] at hv
  simp [encode, armOf, arms14, Instr.privileged, hw, hv, mop, -BitVec.getLsbD_eq_getElem]
theorem ldAcqB (h : Hdr) (d : SReg) (mem : MemOp) (sc : BitVec 2) : Statement (.ldAcqB h d mem sc) := by
  refine .inr (fun hw priv hr => ?_)
  simp only [Instr.wf, Instr.hdr?, Instr.operandsWf, Bool.and_eq_true] at hw
  have hv := hw
  try simp [VOpt.plain, -BitVec.getLsbD_eq_getElem] at hv
  simp [encode, armOf, arms14, Instr.privileged, hw, hv, mop, -BitVec.getLsbD_eq_getElem]
theorem ldAcqH (h : Hdr) (d : SReg) (mem : MemOp) (sc : BitVec 2) : Statement (.ldAcqH h d mem sc) := by
  refine .inr (fun hw priv hr => ?_)
  simp only [Instr.wf, Instr.hdr?, Instr.operandsWf, Bool.and_eq_true] at hw
  have hv := hw
  try simp [VOpt.plain, -BitVec.getLsbD_eq_getElem] at hv
  simp [encode, armOf, arms14, Instr.privileged, hw, hv, mop, -BitVec.getLsbD_eq_getElem]
theorem ldAcqW (h : Hdr) (d : SReg) (mem : MemOp) (sc : BitVec 2) : Statement (.ldAcqW h d mem sc) := by
  refine .inr (fun hw priv hr => ?_)
  simp only [Instr.wf, Instr.hdr?, Instr.operandsWf, Bool.and_eq_true] at hw
  have hv := hw
  try simp [VOpt.plain, -BitVec.getLsbD_eq_getElem] at hv
  simp [encode, armOf, arms14, Instr.privileged, hw, hv, mop, -BitVec.getLsbD_eq_getElem]
theorem ldAcqD (h : Hdr) (d : SReg) (mem : MemOp) (sc : BitVec 2) : Statement (.ldAcqD h d mem sc) := by
  refine .inr (fun hw priv hr => ?_)
  simp only [Instr.wf, Instr.hdr?, Instr.operandsWf, Bool.and_eq_true] at hw
  have hv := hw
  try simp [VOpt.plain, -BitVec.getLsbD_eq_getElem] at hv
  simp [encode, armOf, arms14, Instr.privileged, hw, hv, mop, -BitVec.getLsbD_eq_getElem]
theorem ldAcqQ (h : Hdr) (d : SReg) (mem : MemOp) (sc : BitVec 2) : Statement (.ldAcqQ h d mem sc) := by
  refine .inr (fun hw priv hr => ?_)
  simp only [Instr.wf, Instr.hdr?, Instr.operandsWf, Bool.and_eq_true] at hw
  have hv := hw
  try simp [VOpt.plain, -BitVec.getLsbD_eq_getElem] at hv
  simp [encode, armOf, arms14, Instr.privileged, hw, hv, mop, -BitVec.getLsbD_eq_getElem]
theorem stRelB (h : Hdr) (c : SReg) (mem : MemOp) (sc : BitVec 2) : Statement (.stRelB h c mem sc) := by
  refine .inr (fun hw priv hr => ?_)
  simp only [Instr.wf, Instr.hdr?, Instr.operandsWf, Bool.and_eq_true] at hw
  have hv := hw
  try simp [VOpt.plain, -BitVec.getLsbD_eq_getElem] at hv
  simp [encode, armOf, arms14, Instr.privileged, hw, hv, mop, -BitVec.getLsbD_eq_getElem]
theorem stRelH (h : Hdr) (c : SReg) (mem : MemOp) (sc : BitVec 2) : Statement (.stRelH h c mem sc) := by
  refine .inr (fun hw priv hr => ?_)
  simp only [Instr.wf, Instr.hdr?, Instr.operandsWf, Bool.and_eq_true] at hw
  have hv := hw
  try simp [VOpt.plain, -BitVec.getLsbD_eq_getElem] at hv
  simp [encode, armOf, arms14, Instr.privileged, hw, hv, mop, -BitVec.getLsbD_eq_getElem]
theorem stRelW (h : Hdr) (c : SReg) (mem : MemOp) (sc : BitVec 2) : Statement (.stRelW h c mem sc) := by
  refine .inr (fun hw priv hr => ?_)
  simp only [Instr.wf, Instr.hdr?, Instr.operandsWf, Bool.and_eq_true] at hw
  have hv := hw
  try simp [VOpt.plain, -BitVec.getLsbD_eq_getElem] at hv
  simp [encode, armOf, arms14, Instr.privileged, hw, hv, mop, -BitVec.getLsbD_eq_getElem]
theorem stRelD (h : Hdr) (c : SReg) (mem : MemOp) (sc : BitVec 2) : Statement (.stRelD h c mem sc) := by
  refine .inr (fun hw priv hr => ?_)
  simp only [Instr.wf, Instr.hdr?, Instr.operandsWf, Bool.and_eq_true] at hw
  have hv := hw
  try simp [VOpt.plain, -BitVec.getLsbD_eq_getElem] at hv
  simp [encode, armOf, arms14, Instr.privileged, hw, hv, mop, -BitVec.getLsbD_eq_getElem]
theorem stRelQ (h : Hdr) (c : SReg) (mem : MemOp) (sc : BitVec 2) : Statement (.stRelQ h c mem sc) := by
  refine .inr (fun hw priv hr => ?_)
  simp only [Instr.wf, Instr.hdr?, Instr.operandsWf, Bool.and_eq_true] at hw
  have hv := hw
  try simp [VOpt.plain, -BitVec.getLsbD_eq_getElem] at hv
  simp [encode, armOf, arms14, Instr.privileged, hw, hv, mop, -BitVec.getLsbD_eq_getElem]
theorem pfL1 (h : Hdr) (mem : MemOp) : Statement (.pfL1 h mem) := by
  refine .inr (fun hw priv hr => ?_)
  simp only [Instr.wf, Instr.hdr?, Instr.operandsWf, Bool.and_eq_true] at hw
  have hv := hw
  try simp [VOpt.plain, -BitVec.getLsbD_eq_getElem] at hv
  simp [encode, armOf, arms14, Instr.privileged, hw, hv, mop, -BitVec.getLsbD_eq_getElem]
theorem pfMsc (h : Hdr) (mem : MemOp) : Statement (.pfMsc h mem) := by
  refine .inr (fun hw priv hr => ?_)
  simp only [Instr.wf, Instr.hdr?, Instr.operandsWf, Bool.and_eq_true] at hw
  have hv := hw
  try simp [VOpt.plain, -BitVec.getLsbD_eq_getElem] at hv
  simp [encode, armOf, arms14, Instr.privileged, hw, hv, mop, -BitVec.getLsbD_eq_getElem]
theorem amoAddW (h : Hdr) (d : SReg) (mem : MemOp) (c : SReg) (sc : BitVec 2) : Statement (.amoAddW h d mem c sc) := by
  refine .inr (fun hw priv hr => ?_)
  simp only [Instr.wf, Instr.hdr?, Instr.operandsWf, Bool.and_eq_true] at hw
  have hv := hw
  try simp [VOpt.plain, -BitVec.getLsbD_eq_getElem] at hv
  simp [encode, armOf, arms18, Instr.privileged, hw, hv, mop, -BitVec.getLsbD_eq_getElem]
theorem amoAddD (h : Hdr) (d : SReg) (mem : MemOp) (c : SReg) (sc : BitVec 2) : Statement (.amoAddD h d mem c sc) := by
  refine .inr (fun hw priv hr => ?_)
  simp only [Instr.wf, Instr.hdr?, Instr.operandsWf, Bool.and_eq_true] at hw
  have hv := hw
  try simp [VOpt.plain, -BitVec.getLsbD_eq_getElem] at hv
  simp [encode, armOf, arms18, Instr.privileged, hw, hv, mop, -BitVec.getLsbD_eq_getElem]
theorem amoAndW (h : Hdr) (d : SReg) (mem : MemOp) (c : SReg) (sc : BitVec 2) : Statement (.amoAndW h d mem c sc) := by
  refine .inr (fun hw priv hr => ?_)
  simp only [Instr.wf, Instr.hdr?, Instr.operandsWf, Bool.and_eq_true] at hw
  have hv := hw
  try simp [VOpt.plain, -BitVec.getLsbD_eq_getElem] at hv
  simp [encode, armOf, arms18, Instr.privileged, hw, hv, mop, -BitVec.getLsbD_eq_getElem]
theorem amoAndD (h : Hdr) (d : SReg) (mem : MemOp) (c : SReg) (sc : BitVec 2) : Statement (.amoAndD h d mem c sc) := by
  refine .inr (fun hw priv hr => ?_)
  simp only [Instr.wf, Instr.hdr?, Instr.operandsWf, Bool.and_eq_true] at hw
  have hv := hw
  try simp [VOpt.plain, -BitVec.getLsbD_eq_getElem] at hv
  simp [encode, armOf, arms18, Instr.privileged, hw, hv, mop, -BitVec.getLsbD_eq_getElem]
theorem amoOrW (h : Hdr) (d : SReg) (mem : MemOp) (c : SReg) (sc : BitVec 2) : Statement (.amoOrW h d mem c sc) := by
  refine .inr (fun hw priv hr => ?_)
  simp only [Instr.wf, Instr.hdr?, Instr.operandsWf, Bool.and_eq_true] at hw
  have hv := hw
  try simp [VOpt.plain, -BitVec.getLsbD_eq_getElem] at hv
  simp [encode, armOf, arms18, Instr.privileged, hw, hv, mop, -BitVec.getLsbD_eq_getElem]
theorem amoOrD (h : Hdr) (d : SReg) (mem : MemOp) (c : SReg) (sc : BitVec 2) : Statement (.amoOrD h d mem c sc) := by
  refine .inr (fun hw priv hr => ?_)
  simp only [Instr.wf, Instr.hdr?, Instr.operandsWf, Bool.and_eq_true] at hw
  have hv := hw
  try simp [VOpt.plain, -BitVec.getLsbD_eq_getElem] at hv
  simp [encode, armOf, arms18, Instr.privileged, hw, hv, mop, -BitVec.getLsbD_eq_getElem]
theorem amoXorW (h : Hdr) (d : SReg) (mem : MemOp) (c : SReg) (sc : BitVec 2) : Statement (.amoXorW h d mem c sc) := by
  refine .inr (fun hw priv hr => ?_)
  simp only [Instr.wf, Instr.hdr?, Instr.operandsWf, Bool.and_eq_true] at hw
  have hv := hw
  try simp [VOpt.plain, -BitVec.getLsbD_eq_getElem] at hv
  simp [encode, armOf, arms18, Instr.privileged, hw, hv, mop, -BitVec.getLsbD_eq_getElem]
theorem amoXorD (h : Hdr) (d : SReg) (mem : MemOp) (c : SReg) (sc : BitVec 2) : Statement (.amoXorD h d mem c sc) := by
  refine .inr (fun hw priv hr => ?_)
  simp only [Instr.wf, Instr.hdr?, Instr.operandsWf, Bool.and_eq_true] at hw
  have hv := hw
  try simp [VOpt.plain, -BitVec.getLsbD_eq_getElem] at hv
  simp [encode, armOf, arms18, Instr.privileged, hw, hv, mop, -BitVec.getLsbD_eq_getElem]
theorem amoMinW (h : Hdr) (d : SReg) (mem : MemOp) (c : SReg) (sc : BitVec 2) : Statement (.amoMinW h d mem c sc) := by
  refine .inr (fun hw priv hr => ?_)
  simp only [Instr.wf, Instr.hdr?, Instr.operandsWf, Bool.and_eq_true] at hw
  have hv := hw
  try simp [VOpt.plain, -BitVec.getLsbD_eq_getElem] at hv
  simp [encode, armOf, arms18, Instr.privileged, hw, hv, mop, -BitVec.getLsbD_eq_getElem]
theorem amoMinD (h : Hdr) (d : SReg) (mem : MemOp) (c : SReg) (sc : BitVec 2) : Statement (.amoMinD h d mem c sc) := by
  refine .inr (fun hw priv hr => ?_)
  simp only [Instr.wf, Instr.hdr?, Instr.operandsWf, Bool.and_eq_true] at hw
  have hv := hw
  try simp [VOpt.plain, -BitVec.getLsbD_eq_getElem] at hv
  simp [encode, armOf, arms18, Instr.privileged, hw, hv, mop, -BitVec.getLsbD_eq_getElem]
theorem amoMaxW (h : Hdr) (d : SReg) (mem : MemOp) (c : SReg) (sc : BitVec 2) : Statement (.amoMaxW h d mem c sc) := by
  refine .inr (fun hw priv hr => ?_)
  simp only [Instr.wf, Instr.hdr?, Instr.operandsWf, Bool.and_eq_true] at hw
  have hv := hw
  try simp [VOpt.plain, -BitVec.getLsbD_eq_getElem] at hv
  simp [encode, armOf, arms18, Instr.privileged, hw, hv, mop, -BitVec.getLsbD_eq_getElem]
theorem amoMaxD (h : Hdr) (d : SReg) (mem : MemOp) (c : SReg) (sc : BitVec 2) : Statement (.amoMaxD h d mem c sc) := by
  refine .inr (fun hw priv hr => ?_)
  simp only [Instr.wf, Instr.hdr?, Instr.operandsWf, Bool.and_eq_true] at hw
  have hv := hw
  try simp [VOpt.plain, -BitVec.getLsbD_eq_getElem] at hv
  simp [encode, armOf, arms18, Instr.privileged, hw, hv, mop, -BitVec.getLsbD_eq_getElem]
theorem amoMinuW (h : Hdr) (d : SReg) (mem : MemOp) (c : SReg) (sc : BitVec 2) : Statement (.amoMinuW h d mem c sc) := by
  refine .inr (fun hw priv hr => ?_)
  simp only [Instr.wf, Instr.hdr?, Instr.operandsWf, Bool.and_eq_true] at hw
  have hv := hw
  try simp [VOpt.plain, -BitVec.getLsbD_eq_getElem] at hv
  simp [encode, armOf, arms18, Instr.privileged, hw, hv, mop, -BitVec.getLsbD_eq_getElem]
theorem amoMinuD (h : Hdr) (d : SReg) (mem : MemOp) (c : SReg) (sc : BitVec 2) : Statement (.amoMinuD h d mem c sc) := by
  refine .inr (fun hw priv hr => ?_)
  simp only [Instr.wf, Instr.hdr?, Instr.operandsWf, Bool.and_eq_true] at hw
  have hv := hw
  try simp [VOpt.plain, -BitVec.getLsbD_eq_getElem] at hv
  simp [encode, armOf, arms18, Instr.privileged, hw, hv, mop, -BitVec.getLsbD_eq_getElem]
theorem amoMaxuW (h : Hdr) (d : SReg) (mem : MemOp) (c : SReg) (sc : BitVec 2) : Statement (.amoMaxuW h d mem c sc) := by
  refine .inr (fun hw priv hr => ?_)
  simp only [Instr.wf, Instr.hdr?, Instr.operandsWf, Bool.and_eq_true] at hw
  have hv := hw
  try simp [VOpt.plain, -BitVec.getLsbD_eq_getElem] at hv
  simp [encode, armOf, arms18, Instr.privileged, hw, hv, mop, -BitVec.getLsbD_eq_getElem]
theorem amoMaxuD (h : Hdr) (d : SReg) (mem : MemOp) (c : SReg) (sc : BitVec 2) : Statement (.amoMaxuD h d mem c sc) := by
  refine .inr (fun hw priv hr => ?_)
  simp only [Instr.wf, Instr.hdr?, Instr.operandsWf, Bool.and_eq_true] at hw
  have hv := hw
  try simp [VOpt.plain, -BitVec.getLsbD_eq_getElem] at hv
  simp [encode, armOf, arms18, Instr.privileged, hw, hv, mop, -BitVec.getLsbD_eq_getElem]
theorem amoSwapW (h : Hdr) (d : SReg) (mem : MemOp) (c : SReg) (sc : BitVec 2) : Statement (.amoSwapW h d mem c sc) := by
  refine .inr (fun hw priv hr => ?_)
  simp only [Instr.wf, Instr.hdr?, Instr.operandsWf, Bool.and_eq_true] at hw
  have hv := hw
  try simp [VOpt.plain, -BitVec.getLsbD_eq_getElem] at hv
  simp [encode, armOf, arms18, Instr.privileged, hw, hv, mop, -BitVec.getLsbD_eq_getElem]
theorem amoSwapD (h : Hdr) (d : SReg) (mem : MemOp) (c : SReg) (sc : BitVec 2) : Statement (.amoSwapD h d mem c sc) := by
  refine .inr (fun hw priv hr => ?_)
  simp only [Instr.wf, Instr.hdr?, Instr.operandsWf, Bool.and_eq_true] at hw
  have hv := hw
  try simp [VOpt.plain, -BitVec.getLsbD_eq_getElem] at hv
  simp [encode, armOf, arms18, Instr.privileged, hw, hv, mop, -BitVec.getLsbD_eq_getElem]
theorem amoCasW (h : Hdr) (d : SReg) (mem : MemOp) (c : SReg) (sc : BitVec 2) : Statement (.amoCasW h d mem c sc) := by
  refine .inr (fun hw priv hr => ?_)
  simp only [Instr.wf, Instr.hdr?, Instr.operandsWf, Bool.and_eq_true] at hw
  have hv := hw
  try simp [VOpt.plain, -BitVec.getLsbD_eq_getElem] at hv
  simp [encode, armOf, arms18, Instr.privileged, hw, hv, mop, -BitVec.getLsbD_eq_getElem]
theorem amoCasD (h : Hdr) (d : SReg) (mem : MemOp) (c : SReg) (sc : BitVec 2) : Statement (.amoCasD h d mem c sc) := by
  refine .inr (fun hw priv hr => ?_)
  simp only [Instr.wf, Instr.hdr?, Instr.operandsWf, Bool.and_eq_true] at hw
  have hv := hw
  try simp [VOpt.plain, -BitVec.getLsbD_eq_getElem] at hv
  simp [encode, armOf, arms18, Instr.privileged, hw, hv, mop, -BitVec.getLsbD_eq_getElem]
theorem amoCasQ (h : Hdr) (d : SReg) (mem : MemOp) (c : SReg) (sc : BitVec 2) : Statement (.amoCasQ h d mem c sc) := by
  refine .inr (fun hw priv hr => ?_)
  simp only [Instr.wf, Instr.hdr?, Instr.operandsWf, Bool.and_eq_true] at hw
  have hv := hw
  try simp [VOpt.plain, -BitVec.getLsbD_eq_getElem] at hv
  simp [encode, armOf, arms18, Instr.privileged, hw, hv, mop, -BitVec.getLsbD_eq_getElem]
theorem amoFaddW (h : Hdr) (d : SReg) (mem : MemOp) (c : SReg) (sc : BitVec 2) : Statement (.amoFaddW h d mem c sc) := by
  refine .inr (fun hw priv hr => ?_)
  simp only [Instr.wf, Instr.hdr?, Instr.operandsWf, Bool.and_eq_true] at hw
  have hv := hw
  try simp [VOpt.plain, -BitVec.getLsbD_eq_getElem] at hv
  simp [encode, armOf, arms18, Instr.privileged, hw, hv, mop, -BitVec.getLsbD_eq_getElem]
theorem tokWait (h : Hdr) (t : Toks) : Statement (.tokWait h t) := by
  refine .inr (fun hw priv hr => ?_)
  simp only [Instr.wf, Instr.hdr?, Instr.operandsWf, Bool.and_eq_true] at hw
  have hv := hw
  try simp [VOpt.plain, -BitVec.getLsbD_eq_getElem] at hv
  simp [encode, armOf, arms1C, Instr.privileged, hw, hv, encT_x, Raw.toksBad, Raw.toksNZ, -BitVec.getLsbD_eq_getElem]
theorem tokClr (h : Hdr) (a b c : SReg) : Statement (.tokClr h a b c) := by
  refine .inr (fun hw priv hr => ?_)
  simp only [Instr.wf, Instr.hdr?, Instr.operandsWf, Bool.and_eq_true] at hw
  have hv := hw
  try simp [VOpt.plain, -BitVec.getLsbD_eq_getElem] at hv
  simp [encode, armOf, arms1C, Instr.privileged, hw, hv, encT_x, Raw.toksBad, Raw.toksNZ, -BitVec.getLsbD_eq_getElem]
theorem mark (h : Hdr) (t : Toks) : Statement (.mark h t) := by
  refine .inr (fun hw priv hr => ?_)
  simp only [Instr.wf, Instr.hdr?, Instr.operandsWf, Bool.and_eq_true] at hw
  have hv := hw
  try simp [VOpt.plain, -BitVec.getLsbD_eq_getElem] at hv
  simp [encode, armOf, arms1C, Instr.privileged, hw, hv, encT_x, Raw.toksBad, Raw.toksNZ, -BitVec.getLsbD_eq_getElem]
theorem fence (h : Hdr) (t : Toks) (sc : BitVec 2) : Statement (.fence h t sc) := by
  refine .inr (fun hw priv hr => ?_)
  simp only [Instr.wf, Instr.hdr?, Instr.operandsWf, Bool.and_eq_true] at hw
  have hv := hw
  try simp [VOpt.plain, -BitVec.getLsbD_eq_getElem] at hv
  simp [encode, armOf, arms1C, Instr.privileged, hw, hv, encT_x, Raw.toksBad, Raw.toksNZ, -BitVec.getLsbD_eq_getElem]
  (repeat' apply And.intro) <;> first | assumption | omega | rfl | tauto | (simp_all; done) | (intro a b; simp [a, b] at hv; simp [hv]) | (intro a; simp [a] at hv; simp [hv]) | (intro a b; rcases hv with ⟨_, ⟨_, (h1 | h1) | h1⟩, _⟩ <;> simp_all)  | (intro a; rcases hv with ⟨_, ⟨_, h1 | h1⟩, _⟩ <;> simp_all)
theorem acq (h : Hdr) (t : Toks) (sc : BitVec 2) : Statement (.acq h t sc) := by
  refine .inr (fun hw priv hr => ?_)
  simp only [Instr.wf, Instr.hdr?, Instr.operandsWf, Bool.and_eq_true] at hw
  have hv := hw
  try simp [VOpt.plain, -BitVec.getLsbD_eq_getElem] at hv
  simp [encode, armOf, arms1C, Instr.privileged, hw, hv, encT_x, Raw.toksBad, Raw.toksNZ, -BitVec.getLsbD_eq_getElem]
  (repeat' apply And.intro) <;> first | assumption | omega | rfl | tauto | (simp_all; done) | (intro a b; simp [a, b] at hv; simp [hv]) | (intro a; simp [a] at hv; simp [hv]) | (intro a b; rcases hv with ⟨_, ⟨_, (h1 | h1) | h1⟩, _⟩ <;> simp_all)  | (intro a; rcases hv with ⟨_, ⟨_, h1 | h1⟩, _⟩ <;> simp_all)
theorem rel (h : Hdr) (t : Toks) (sc : BitVec 2) : Statement (.rel h t sc) := by
  refine .inr (fun hw priv hr => ?_)
  simp only [Instr.wf, Instr.hdr?, Instr.operandsWf, Bool.and_eq_true] at hw
  have hv := hw
  try simp [VOpt.plain, -BitVec.getLsbD_eq_getElem] at hv
  simp [encode, armOf, arms1C, Instr.privileged, hw, hv, encT_x, Raw.toksBad, Raw.toksNZ, -BitVec.getLsbD_eq_getElem]
  (repeat' apply And.intro) <;> first | assumption | omega | rfl | tauto | (simp_all; done) | (intro a b; simp [a, b] at hv; simp [hv]) | (intro a; simp [a] at hv; simp [hv]) | (intro a b; rcases hv with ⟨_, ⟨_, (h1 | h1) | h1⟩, _⟩ <;> simp_all)  | (intro a; rcases hv with ⟨_, ⟨_, h1 | h1⟩, _⟩ <;> simp_all)
theorem acqP (h : Hdr) (t : Toks) (a : SReg) : Statement (.acqP h t a) := by
  refine .inr (fun hw priv hr => ?_)
  simp only [Instr.wf, Instr.hdr?, Instr.operandsWf, Bool.and_eq_true] at hw
  have hv := hw
  try simp [VOpt.plain, -BitVec.getLsbD_eq_getElem] at hv
  simp [encode, armOf, arms1C, Instr.privileged, hw, hv, encT_x, Raw.toksBad, Raw.toksNZ, -BitVec.getLsbD_eq_getElem]
theorem gateInit (h : Hdr) (t : Toks) (g n : SReg) : Statement (.gateInit h t g n) := by
  refine .inr (fun hw priv hr => ?_)
  simp only [Instr.wf, Instr.hdr?, Instr.operandsWf, Bool.and_eq_true] at hw
  have hv := hw
  try simp [VOpt.plain, -BitVec.getLsbD_eq_getElem] at hv
  simp [encode, armOf, arms1C, Instr.privileged, hw, hv, encT_x, Raw.toksBad, Raw.toksNZ, -BitVec.getLsbD_eq_getElem]
theorem gateArr (h : Hdr) (t : Toks) (g n : SReg) : Statement (.gateArr h t g n) := by
  refine .inr (fun hw priv hr => ?_)
  simp only [Instr.wf, Instr.hdr?, Instr.operandsWf, Bool.and_eq_true] at hw
  have hv := hw
  try simp [VOpt.plain, -BitVec.getLsbD_eq_getElem] at hv
  simp [encode, armOf, arms1C, Instr.privileged, hw, hv, encT_x, Raw.toksBad, Raw.toksNZ, -BitVec.getLsbD_eq_getElem]
theorem gateWait (h : Hdr) (t : Toks) (g p : SReg) (lim : BitVec 6) : Statement (.gateWait h t g p lim) := by
  refine .inr (fun hw priv hr => ?_)
  simp only [Instr.wf, Instr.hdr?, Instr.operandsWf, Bool.and_eq_true] at hw
  have hv := hw
  try simp [VOpt.plain, -BitVec.getLsbD_eq_getElem] at hv
  simp [encode, armOf, arms1C, Instr.privileged, hw, hv, encT_x, Raw.toksBad, Raw.toksNZ, -BitVec.getLsbD_eq_getElem]
theorem rpush (h : Hdr) (t : Toks) (r v : SReg) (lim : BitVec 6) : Statement (.rpush h t r v lim) := by
  refine .inr (fun hw priv hr => ?_)
  simp only [Instr.wf, Instr.hdr?, Instr.operandsWf, Bool.and_eq_true] at hw
  have hv := hw
  try simp [VOpt.plain, -BitVec.getLsbD_eq_getElem] at hv
  simp [encode, armOf, arms1C, Instr.privileged, hw, hv, encT_x, Raw.toksBad, Raw.toksNZ, -BitVec.getLsbD_eq_getElem]
theorem rpop (h : Hdr) (t : Toks) (d r : SReg) (lim : BitVec 6) : Statement (.rpop h t d r lim) := by
  refine .inr (fun hw priv hr => ?_)
  simp only [Instr.wf, Instr.hdr?, Instr.operandsWf, Bool.and_eq_true] at hw
  have hv := hw
  try simp [VOpt.plain, -BitVec.getLsbD_eq_getElem] at hv
  simp [encode, armOf, arms1C, Instr.privileged, hw, hv, encT_x, Raw.toksBad, Raw.toksNZ, -BitVec.getLsbD_eq_getElem]
theorem vadd (h : Hdr) (t : Toks) (o : VOpt) (d a b : VReg) : Statement (.vadd h t o d a b) := by
  refine .inr (fun hw priv hr => ?_)
  simp only [Instr.wf, Instr.hdr?, Instr.operandsWf, Bool.and_eq_true] at hw
  have ho : o.wf = true := by simp [hw]
  have hz := zm_men o ho
  have he := ety_code o.ety
  have hv := hw
  try simp [VOpt.plain, -BitVec.getLsbD_eq_getElem] at hv
  simp [encode, armOf, arms20, Instr.privileged, hw, hv, encT_x, Raw.toksBad, Raw.toksNZ, vill, xseed, xi, xf, xo4, xrnd, -BitVec.getLsbD_eq_getElem]
  (repeat' apply And.intro) <;> first | assumption | omega | rfl | tauto | (simp_all; done) | (intro a b; simp [a, b] at hv; simp [hv]) | (intro a; simp [a] at hv; simp [hv]) | (intro a b; rcases hv with ⟨_, ⟨_, (h1 | h1) | h1⟩, _⟩ <;> simp_all)  | (intro a; rcases hv with ⟨_, ⟨_, h1 | h1⟩, _⟩ <;> simp_all)
theorem vsub (h : Hdr) (t : Toks) (o : VOpt) (d a b : VReg) : Statement (.vsub h t o d a b) := by
  refine .inr (fun hw priv hr => ?_)
  simp only [Instr.wf, Instr.hdr?, Instr.operandsWf, Bool.and_eq_true] at hw
  have ho : o.wf = true := by simp [hw]
  have hz := zm_men o ho
  have he := ety_code o.ety
  have hv := hw
  try simp [VOpt.plain, -BitVec.getLsbD_eq_getElem] at hv
  simp [encode, armOf, arms20, Instr.privileged, hw, hv, encT_x, Raw.toksBad, Raw.toksNZ, vill, xseed, xi, xf, xo4, xrnd, -BitVec.getLsbD_eq_getElem]
  (repeat' apply And.intro) <;> first | assumption | omega | rfl | tauto | (simp_all; done) | (intro a b; simp [a, b] at hv; simp [hv]) | (intro a; simp [a] at hv; simp [hv]) | (intro a b; rcases hv with ⟨_, ⟨_, (h1 | h1) | h1⟩, _⟩ <;> simp_all)  | (intro a; rcases hv with ⟨_, ⟨_, h1 | h1⟩, _⟩ <;> simp_all)
theorem vmul (h : Hdr) (t : Toks) (o : VOpt) (d a b : VReg) : Statement (.vmul h t o d a b) := by
  refine .inr (fun hw priv hr => ?_)
  simp only [Instr.wf, Instr.hdr?, Instr.operandsWf, Bool.and_eq_true] at hw
  have ho : o.wf = true := by simp [hw]
  have hz := zm_men o ho
  have he := ety_code o.ety
  have hv := hw
  try simp [VOpt.plain, -BitVec.getLsbD_eq_getElem] at hv
  simp [encode, armOf, arms20, Instr.privileged, hw, hv, encT_x, Raw.toksBad, Raw.toksNZ, vill, xseed, xi, xf, xo4, xrnd, -BitVec.getLsbD_eq_getElem]
  (repeat' apply And.intro) <;> first | assumption | omega | rfl | tauto | (simp_all; done) | (intro a b; simp [a, b] at hv; simp [hv]) | (intro a; simp [a] at hv; simp [hv]) | (intro a b; rcases hv with ⟨_, ⟨_, (h1 | h1) | h1⟩, _⟩ <;> simp_all)  | (intro a; rcases hv with ⟨_, ⟨_, h1 | h1⟩, _⟩ <;> simp_all)
theorem vmad (h : Hdr) (t : Toks) (o : VOpt) (d a b : VReg) : Statement (.vmad h t o d a b) := by
  refine .inr (fun hw priv hr => ?_)
  simp only [Instr.wf, Instr.hdr?, Instr.operandsWf, Bool.and_eq_true] at hw
  have ho : o.wf = true := by simp [hw]
  have hz := zm_men o ho
  have he := ety_code o.ety
  have hv := hw
  try simp [VOpt.plain, -BitVec.getLsbD_eq_getElem] at hv
  simp [encode, armOf, arms20, Instr.privileged, hw, hv, encT_x, Raw.toksBad, Raw.toksNZ, vill, xseed, xi, xf, xo4, xrnd, -BitVec.getLsbD_eq_getElem]
  (repeat' apply And.intro) <;> first | assumption | omega | rfl | tauto | (simp_all; done) | (intro a b; simp [a, b] at hv; simp [hv]) | (intro a; simp [a] at hv; simp [hv]) | (intro a b; rcases hv with ⟨_, ⟨_, (h1 | h1) | h1⟩, _⟩ <;> simp_all)  | (intro a; rcases hv with ⟨_, ⟨_, h1 | h1⟩, _⟩ <;> simp_all)
theorem vmin (h : Hdr) (t : Toks) (o : VOpt) (d a b : VReg) : Statement (.vmin h t o d a b) := by
  refine .inr (fun hw priv hr => ?_)
  simp only [Instr.wf, Instr.hdr?, Instr.operandsWf, Bool.and_eq_true] at hw
  have ho : o.wf = true := by simp [hw]
  have hz := zm_men o ho
  have he := ety_code o.ety
  have hv := hw
  try simp [VOpt.plain, -BitVec.getLsbD_eq_getElem] at hv
  simp [encode, armOf, arms20, Instr.privileged, hw, hv, encT_x, Raw.toksBad, Raw.toksNZ, vill, xseed, xi, xf, xo4, xrnd, -BitVec.getLsbD_eq_getElem]
  (repeat' apply And.intro) <;> first | assumption | omega | rfl | tauto | (simp_all; done) | (intro a b; simp [a, b] at hv; simp [hv]) | (intro a; simp [a] at hv; simp [hv]) | (intro a b; rcases hv with ⟨_, ⟨_, (h1 | h1) | h1⟩, _⟩ <;> simp_all)  | (intro a; rcases hv with ⟨_, ⟨_, h1 | h1⟩, _⟩ <;> simp_all)
theorem vmax (h : Hdr) (t : Toks) (o : VOpt) (d a b : VReg) : Statement (.vmax h t o d a b) := by
  refine .inr (fun hw priv hr => ?_)
  simp only [Instr.wf, Instr.hdr?, Instr.operandsWf, Bool.and_eq_true] at hw
  have ho : o.wf = true := by simp [hw]
  have hz := zm_men o ho
  have he := ety_code o.ety
  have hv := hw
  try simp [VOpt.plain, -BitVec.getLsbD_eq_getElem] at hv
  simp [encode, armOf, arms20, Instr.privileged, hw, hv, encT_x, Raw.toksBad, Raw.toksNZ, vill, xseed, xi, xf, xo4, xrnd, -BitVec.getLsbD_eq_getElem]
  (repeat' apply And.intro) <;> first | assumption | omega | rfl | tauto | (simp_all; done) | (intro a b; simp [a, b] at hv; simp [hv]) | (intro a; simp [a] at hv; simp [hv]) | (intro a b; rcases hv with ⟨_, ⟨_, (h1 | h1) | h1⟩, _⟩ <;> simp_all)  | (intro a; rcases hv with ⟨_, ⟨_, h1 | h1⟩, _⟩ <;> simp_all)
theorem vabs (h : Hdr) (t : Toks) (o : VOpt) (d a : VReg) : Statement (.vabs h t o d a) := by
  refine .inr (fun hw priv hr => ?_)
  simp only [Instr.wf, Instr.hdr?, Instr.operandsWf, Bool.and_eq_true] at hw
  have ho : o.wf = true := by simp [hw]
  have hz := zm_men o ho
  have he := ety_code o.ety
  have hv := hw
  try simp [VOpt.plain, -BitVec.getLsbD_eq_getElem] at hv
  simp [encode, armOf, arms20, Instr.privileged, hw, hv, encT_x, Raw.toksBad, Raw.toksNZ, vill, xseed, xi, xf, xo4, xrnd, -BitVec.getLsbD_eq_getElem]
  (repeat' apply And.intro) <;> first | assumption | omega | rfl | tauto | (simp_all; done) | (intro a b; simp [a, b] at hv; simp [hv]) | (intro a; simp [a] at hv; simp [hv]) | (intro a b; rcases hv with ⟨_, ⟨_, (h1 | h1) | h1⟩, _⟩ <;> simp_all)  | (intro a; rcases hv with ⟨_, ⟨_, h1 | h1⟩, _⟩ <;> simp_all)
theorem vneg (h : Hdr) (t : Toks) (o : VOpt) (d a : VReg) : Statement (.vneg h t o d a) := by
  refine .inr (fun hw priv hr => ?_)
  simp only [Instr.wf, Instr.hdr?, Instr.operandsWf, Bool.and_eq_true] at hw
  have ho : o.wf = true := by simp [hw]
  have hz := zm_men o ho
  have he := ety_code o.ety
  have hv := hw
  try simp [VOpt.plain, -BitVec.getLsbD_eq_getElem] at hv
  simp [encode, armOf, arms20, Instr.privileged, hw, hv, encT_x, Raw.toksBad, Raw.toksNZ, vill, xseed, xi, xf, xo4, xrnd, -BitVec.getLsbD_eq_getElem]
  (repeat' apply And.intro) <;> first | assumption | omega | rfl | tauto | (simp_all; done) | (intro a b; simp [a, b] at hv; simp [hv]) | (intro a; simp [a] at hv; simp [hv]) | (intro a b; rcases hv with ⟨_, ⟨_, (h1 | h1) | h1⟩, _⟩ <;> simp_all)  | (intro a; rcases hv with ⟨_, ⟨_, h1 | h1⟩, _⟩ <;> simp_all)
theorem vrelu (h : Hdr) (t : Toks) (o : VOpt) (d a : VReg) : Statement (.vrelu h t o d a) := by
  refine .inr (fun hw priv hr => ?_)
  simp only [Instr.wf, Instr.hdr?, Instr.operandsWf, Bool.and_eq_true] at hw
  have ho : o.wf = true := by simp [hw]
  have hz := zm_men o ho
  have he := ety_code o.ety
  have hv := hw
  try simp [VOpt.plain, -BitVec.getLsbD_eq_getElem] at hv
  simp [encode, armOf, arms20, Instr.privileged, hw, hv, encT_x, Raw.toksBad, Raw.toksNZ, vill, xseed, xi, xf, xo4, xrnd, -BitVec.getLsbD_eq_getElem]
  (repeat' apply And.intro) <;> first | assumption | omega | rfl | tauto | (simp_all; done) | (intro a b; simp [a, b] at hv; simp [hv]) | (intro a; simp [a] at hv; simp [hv]) | (intro a b; rcases hv with ⟨_, ⟨_, (h1 | h1) | h1⟩, _⟩ <;> simp_all)  | (intro a; rcases hv with ⟨_, ⟨_, h1 | h1⟩, _⟩ <;> simp_all)
theorem vexp2 (h : Hdr) (t : Toks) (o : VOpt) (d a : VReg) : Statement (.vexp2 h t o d a) := by
  refine .inr (fun hw priv hr => ?_)
  simp only [Instr.wf, Instr.hdr?, Instr.operandsWf, Bool.and_eq_true] at hw
  have ho : o.wf = true := by simp [hw]
  have hz := zm_men o ho
  have he := ety_code o.ety
  have hv := hw
  try simp [VOpt.plain, -BitVec.getLsbD_eq_getElem] at hv
  simp [encode, armOf, arms20, Instr.privileged, hw, hv, encT_x, Raw.toksBad, Raw.toksNZ, vill, xseed, xi, xf, xo4, xrnd, -BitVec.getLsbD_eq_getElem]
  (repeat' apply And.intro) <;> first | assumption | omega | rfl | tauto | (simp_all; done) | (intro a b; simp [a, b] at hv; simp [hv]) | (intro a; simp [a] at hv; simp [hv]) | (intro a b; rcases hv with ⟨_, ⟨_, (h1 | h1) | h1⟩, _⟩ <;> simp_all)  | (intro a; rcases hv with ⟨_, ⟨_, h1 | h1⟩, _⟩ <;> simp_all)
theorem vlog2 (h : Hdr) (t : Toks) (o : VOpt) (d a : VReg) : Statement (.vlog2 h t o d a) := by
  refine .inr (fun hw priv hr => ?_)
  simp only [Instr.wf, Instr.hdr?, Instr.operandsWf, Bool.and_eq_true] at hw
  have ho : o.wf = true := by simp [hw]
  have hz := zm_men o ho
  have he := ety_code o.ety
  have hv := hw
  try simp [VOpt.plain, -BitVec.getLsbD_eq_getElem] at hv
  simp [encode, armOf, arms20, Instr.privileged, hw, hv, encT_x, Raw.toksBad, Raw.toksNZ, vill, xseed, xi, xf, xo4, xrnd, -BitVec.getLsbD_eq_getElem]
  (repeat' apply And.intro) <;> first | assumption | omega | rfl | tauto | (simp_all; done) | (intro a b; simp [a, b] at hv; simp [hv]) | (intro a; simp [a] at hv; simp [hv]) | (intro a b; rcases hv with ⟨_, ⟨_, (h1 | h1) | h1⟩, _⟩ <;> simp_all)  | (intro a; rcases hv with ⟨_, ⟨_, h1 | h1⟩, _⟩ <;> simp_all)
theorem vrcp (h : Hdr) (t : Toks) (o : VOpt) (d a : VReg) : Statement (.vrcp h t o d a) := by
  refine .inr (fun hw priv hr => ?_)
  simp only [Instr.wf, Instr.hdr?, Instr.operandsWf, Bool.and_eq_true] at hw
  have ho : o.wf = true := by simp [hw]
  have hz := zm_men o ho
  have he := ety_code o.ety
  have hv := hw
  try simp [VOpt.plain, -BitVec.getLsbD_eq_getElem] at hv
  simp [encode, armOf, arms20, Instr.privileged, hw, hv, encT_x, Raw.toksBad, Raw.toksNZ, vill, xseed, xi, xf, xo4, xrnd, -BitVec.getLsbD_eq_getElem]
  (repeat' apply And.intro) <;> first | assumption | omega | rfl | tauto | (simp_all; done) | (intro a b; simp [a, b] at hv; simp [hv]) | (intro a; simp [a] at hv; simp [hv]) | (intro a b; rcases hv with ⟨_, ⟨_, (h1 | h1) | h1⟩, _⟩ <;> simp_all)  | (intro a; rcases hv with ⟨_, ⟨_, h1 | h1⟩, _⟩ <;> simp_all)
theorem vrsq (h : Hdr) (t : Toks) (o : VOpt) (d a : VReg) : Statement (.vrsq h t o d a) := by
  refine .inr (fun hw priv hr => ?_)
  simp only [Instr.wf, Instr.hdr?, Instr.operandsWf, Bool.and_eq_true] at hw
  have ho : o.wf = true := by simp [hw]
  have hz := zm_men o ho
  have he := ety_code o.ety
  have hv := hw
  try simp [VOpt.plain, -BitVec.getLsbD_eq_getElem] at hv
  simp [encode, armOf, arms20, Instr.privileged, hw, hv, encT_x, Raw.toksBad, Raw.toksNZ, vill, xseed, xi, xf, xo4, xrnd, -BitVec.getLsbD_eq_getElem]
  (repeat' apply And.intro) <;> first | assumption | omega | rfl | tauto | (simp_all; done) | (intro a b; simp [a, b] at hv; simp [hv]) | (intro a; simp [a] at hv; simp [hv]) | (intro a b; rcases hv with ⟨_, ⟨_, (h1 | h1) | h1⟩, _⟩ <;> simp_all)  | (intro a; rcases hv with ⟨_, ⟨_, h1 | h1⟩, _⟩ <;> simp_all)
theorem vtanh (h : Hdr) (t : Toks) (o : VOpt) (d a : VReg) : Statement (.vtanh h t o d a) := by
  refine .inr (fun hw priv hr => ?_)
  simp only [Instr.wf, Instr.hdr?, Instr.operandsWf, Bool.and_eq_true] at hw
  have ho : o.wf = true := by simp [hw]
  have hz := zm_men o ho
  have he := ety_code o.ety
  have hv := hw
  try simp [VOpt.plain, -BitVec.getLsbD_eq_getElem] at hv
  simp [encode, armOf, arms20, Instr.privileged, hw, hv, encT_x, Raw.toksBad, Raw.toksNZ, vill, xseed, xi, xf, xo4, xrnd, -BitVec.getLsbD_eq_getElem]
  (repeat' apply And.intro) <;> first | assumption | omega | rfl | tauto | (simp_all; done) | (intro a b; simp [a, b] at hv; simp [hv]) | (intro a; simp [a] at hv; simp [hv]) | (intro a b; rcases hv with ⟨_, ⟨_, (h1 | h1) | h1⟩, _⟩ <;> simp_all)  | (intro a; rcases hv with ⟨_, ⟨_, h1 | h1⟩, _⟩ <;> simp_all)
theorem vand (h : Hdr) (t : Toks) (o : VOpt) (d a b : VReg) : Statement (.vand h t o d a b) := by
  refine .inr (fun hw priv hr => ?_)
  simp only [Instr.wf, Instr.hdr?, Instr.operandsWf, Bool.and_eq_true] at hw
  have ho : o.wf = true := by simp [hw]
  have hz := zm_men o ho
  have he := ety_code o.ety
  have hv := hw
  try simp [VOpt.plain, -BitVec.getLsbD_eq_getElem] at hv
  simp [encode, armOf, arms21, Instr.privileged, hw, hv, encT_x, Raw.toksBad, Raw.toksNZ, vill, xseed, xi, xf, xo4, xrnd, -BitVec.getLsbD_eq_getElem]
  (repeat' apply And.intro) <;> first | assumption | omega | rfl | tauto | (simp_all; done) | (intro a b; simp [a, b] at hv; simp [hv]) | (intro a; simp [a] at hv; simp [hv]) | (intro a b; rcases hv with ⟨_, ⟨_, (h1 | h1) | h1⟩, _⟩ <;> simp_all)  | (intro a; rcases hv with ⟨_, ⟨_, h1 | h1⟩, _⟩ <;> simp_all)
theorem vor (h : Hdr) (t : Toks) (o : VOpt) (d a b : VReg) : Statement (.vor h t o d a b) := by
  refine .inr (fun hw priv hr => ?_)
  simp only [Instr.wf, Instr.hdr?, Instr.operandsWf, Bool.and_eq_true] at hw
  have ho : o.wf = true := by simp [hw]
  have hz := zm_men o ho
  have he := ety_code o.ety
  have hv := hw
  try simp [VOpt.plain, -BitVec.getLsbD_eq_getElem] at hv
  simp [encode, armOf, arms21, Instr.privileged, hw, hv, encT_x, Raw.toksBad, Raw.toksNZ, vill, xseed, xi, xf, xo4, xrnd, -BitVec.getLsbD_eq_getElem]
  (repeat' apply And.intro) <;> first | assumption | omega | rfl | tauto | (simp_all; done) | (intro a b; simp [a, b] at hv; simp [hv]) | (intro a; simp [a] at hv; simp [hv]) | (intro a b; rcases hv with ⟨_, ⟨_, (h1 | h1) | h1⟩, _⟩ <;> simp_all)  | (intro a; rcases hv with ⟨_, ⟨_, h1 | h1⟩, _⟩ <;> simp_all)
theorem vxor (h : Hdr) (t : Toks) (o : VOpt) (d a b : VReg) : Statement (.vxor h t o d a b) := by
  refine .inr (fun hw priv hr => ?_)
  simp only [Instr.wf, Instr.hdr?, Instr.operandsWf, Bool.and_eq_true] at hw
  have ho : o.wf = true := by simp [hw]
  have hz := zm_men o ho
  have he := ety_code o.ety
  have hv := hw
  try simp [VOpt.plain, -BitVec.getLsbD_eq_getElem] at hv
  simp [encode, armOf, arms21, Instr.privileged, hw, hv, encT_x, Raw.toksBad, Raw.toksNZ, vill, xseed, xi, xf, xo4, xrnd, -BitVec.getLsbD_eq_getElem]
  (repeat' apply And.intro) <;> first | assumption | omega | rfl | tauto | (simp_all; done) | (intro a b; simp [a, b] at hv; simp [hv]) | (intro a; simp [a] at hv; simp [hv]) | (intro a b; rcases hv with ⟨_, ⟨_, (h1 | h1) | h1⟩, _⟩ <;> simp_all)  | (intro a; rcases hv with ⟨_, ⟨_, h1 | h1⟩, _⟩ <;> simp_all)
theorem vnot (h : Hdr) (t : Toks) (o : VOpt) (d a : VReg) : Statement (.vnot h t o d a) := by
  refine .inr (fun hw priv hr => ?_)
  simp only [Instr.wf, Instr.hdr?, Instr.operandsWf, Bool.and_eq_true] at hw
  have ho : o.wf = true := by simp [hw]
  have hz := zm_men o ho
  have he := ety_code o.ety
  have hv := hw
  try simp [VOpt.plain, -BitVec.getLsbD_eq_getElem] at hv
  simp [encode, armOf, arms21, Instr.privileged, hw, hv, encT_x, Raw.toksBad, Raw.toksNZ, vill, xseed, xi, xf, xo4, xrnd, -BitVec.getLsbD_eq_getElem]
  (repeat' apply And.intro) <;> first | assumption | omega | rfl | tauto | (simp_all; done) | (intro a b; simp [a, b] at hv; simp [hv]) | (intro a; simp [a] at hv; simp [hv]) | (intro a b; rcases hv with ⟨_, ⟨_, (h1 | h1) | h1⟩, _⟩ <;> simp_all)  | (intro a; rcases hv with ⟨_, ⟨_, h1 | h1⟩, _⟩ <;> simp_all)
theorem vshl (h : Hdr) (t : Toks) (o : VOpt) (d a : VReg) (n : ShCnt) : Statement (.vshl h t o d a n) := by
  refine .inr (fun hw priv hr => ?_)
  simp only [Instr.wf, Instr.hdr?, Instr.operandsWf, Bool.and_eq_true] at hw
  have ho : o.wf = true := by simp [hw]
  have hz := zm_men o ho
  have he := ety_code o.ety
  cases n <;>
  (have hv := hw
   try simp [VOpt.plain, ShCnt.wf, ShCnt.xi, ShCnt.flag, ShCnt.o3, VCond.code, RedOp.code, -BitVec.getLsbD_eq_getElem] at hv
   simp [encode, armOf, arms21, Instr.privileged, hw, hv, encT_x, Raw.toksBad, Raw.toksNZ, vill, xseed, xi, xf, xo4, xrnd, ShCnt.o3, ShCnt.xi, ShCnt.flag, VCond.code, RedOp.code, -BitVec.getLsbD_eq_getElem]
   (repeat' apply And.intro) <;> first | assumption | omega | rfl | tauto | (simp_all; done) | (intro a b; simp [a, b] at hv; simp [hv]) | (intro a; simp [a] at hv; simp [hv]) | (intro a b; rcases hv with ⟨_, ⟨_, (h1 | h1) | h1⟩, _⟩ <;> simp_all)  | (intro a; rcases hv with ⟨_, ⟨_, h1 | h1⟩, _⟩ <;> simp_all))
theorem vshr (h : Hdr) (t : Toks) (o : VOpt) (d a : VReg) (n : ShCnt) : Statement (.vshr h t o d a n) := by
  refine .inr (fun hw priv hr => ?_)
  simp only [Instr.wf, Instr.hdr?, Instr.operandsWf, Bool.and_eq_true] at hw
  have ho : o.wf = true := by simp [hw]
  have hz := zm_men o ho
  have he := ety_code o.ety
  cases n <;>
  (have hv := hw
   try simp [VOpt.plain, ShCnt.wf, ShCnt.xi, ShCnt.flag, ShCnt.o3, VCond.code, RedOp.code, -BitVec.getLsbD_eq_getElem] at hv
   simp [encode, armOf, arms21, Instr.privileged, hw, hv, encT_x, Raw.toksBad, Raw.toksNZ, vill, xseed, xi, xf, xo4, xrnd, ShCnt.o3, ShCnt.xi, ShCnt.flag, VCond.code, RedOp.code, -BitVec.getLsbD_eq_getElem]
   (repeat' apply And.intro) <;> first | assumption | omega | rfl | tauto | (simp_all; done) | (intro a b; simp [a, b] at hv; simp [hv]) | (intro a; simp [a] at hv; simp [hv]) | (intro a b; rcases hv with ⟨_, ⟨_, (h1 | h1) | h1⟩, _⟩ <;> simp_all)  | (intro a; rcases hv with ⟨_, ⟨_, h1 | h1⟩, _⟩ <;> simp_all))
theorem vsra (h : Hdr) (t : Toks) (o : VOpt) (d a : VReg) (n : ShCnt) : Statement (.vsra h t o d a n) := by
  refine .inr (fun hw priv hr => ?_)
  simp only [Instr.wf, Instr.hdr?, Instr.operandsWf, Bool.and_eq_true] at hw
  have ho : o.wf = true := by simp [hw]
  have hz := zm_men o ho
  have he := ety_code o.ety
  cases n <;>
  (have hv := hw
   try simp [VOpt.plain, ShCnt.wf, ShCnt.xi, ShCnt.flag, ShCnt.o3, VCond.code, RedOp.code, -BitVec.getLsbD_eq_getElem] at hv
   simp [encode, armOf, arms21, Instr.privileged, hw, hv, encT_x, Raw.toksBad, Raw.toksNZ, vill, xseed, xi, xf, xo4, xrnd, ShCnt.o3, ShCnt.xi, ShCnt.flag, VCond.code, RedOp.code, -BitVec.getLsbD_eq_getElem]
   (repeat' apply And.intro) <;> first | assumption | omega | rfl | tauto | (simp_all; done) | (intro a b; simp [a, b] at hv; simp [hv]) | (intro a; simp [a] at hv; simp [hv]) | (intro a b; rcases hv with ⟨_, ⟨_, (h1 | h1) | h1⟩, _⟩ <;> simp_all)  | (intro a; rcases hv with ⟨_, ⟨_, h1 | h1⟩, _⟩ <;> simp_all))
theorem vcmp (h : Hdr) (t : Toks) (o : VOpt) (cc : VCond) (d : MReg) (a b : VReg) : Statement (.vcmp h t o cc d a b) := by
  refine .inr (fun hw priv hr => ?_)
  simp only [Instr.wf, Instr.hdr?, Instr.operandsWf, Bool.and_eq_true] at hw
  have ho : o.wf = true := by simp [hw]
  have hz := zm_men o ho
  have he := ety_code o.ety
  cases cc <;>
  (have hv := hw
   try simp [VOpt.plain, ShCnt.wf, ShCnt.xi, ShCnt.flag, ShCnt.o3, VCond.code, RedOp.code, -BitVec.getLsbD_eq_getElem] at hv
   simp [encode, armOf, arms22, Instr.privileged, hw, hv, encT_x, Raw.toksBad, Raw.toksNZ, vill, xseed, xi, xf, xo4, xrnd, ShCnt.o3, ShCnt.xi, ShCnt.flag, VCond.code, RedOp.code, -BitVec.getLsbD_eq_getElem]
   (repeat' apply And.intro) <;> first | assumption | omega | rfl | tauto | (simp_all; done) | (intro a b; simp [a, b] at hv; simp [hv]) | (intro a; simp [a] at hv; simp [hv]) | (intro a b; rcases hv with ⟨_, ⟨_, (h1 | h1) | h1⟩, _⟩ <;> simp_all)  | (intro a; rcases hv with ⟨_, ⟨_, h1 | h1⟩, _⟩ <;> simp_all))
theorem vsel (h : Hdr) (t : Toks) (o : VOpt) (d a b : VReg) (c : MReg) : Statement (.vsel h t o d a b c) := by
  refine .inr (fun hw priv hr => ?_)
  simp only [Instr.wf, Instr.hdr?, Instr.operandsWf, Bool.and_eq_true] at hw
  have ho : o.wf = true := by simp [hw]
  have hz := zm_men o ho
  have he := ety_code o.ety
  have hv := hw
  try simp [VOpt.plain, -BitVec.getLsbD_eq_getElem] at hv
  simp [encode, armOf, arms22, Instr.privileged, hw, hv, encT_x, Raw.toksBad, Raw.toksNZ, vill, xseed, xi, xf, xo4, xrnd, -BitVec.getLsbD_eq_getElem]
  (repeat' apply And.intro) <;> first | assumption | omega | rfl | tauto | (simp_all; done) | (intro a b; simp [a, b] at hv; simp [hv]) | (intro a; simp [a] at hv; simp [hv]) | (intro a b; rcases hv with ⟨_, ⟨_, (h1 | h1) | h1⟩, _⟩ <;> simp_all)  | (intro a; rcases hv with ⟨_, ⟨_, h1 | h1⟩, _⟩ <;> simp_all)
theorem mand (h : Hdr) (t : Toks) (d a b : MReg) : Statement (.mand h t d a b) := by
  refine .inr (fun hw priv hr => ?_)
  simp only [Instr.wf, Instr.hdr?, Instr.operandsWf, Bool.and_eq_true] at hw
  have hv := hw
  try simp [VOpt.plain, -BitVec.getLsbD_eq_getElem] at hv
  simp [encode, armOf, arms22, Instr.privileged, hw, hv, encT_x, Raw.toksBad, Raw.toksNZ, -BitVec.getLsbD_eq_getElem]
theorem mor (h : Hdr) (t : Toks) (d a b : MReg) : Statement (.mor h t d a b) := by
  refine .inr (fun hw priv hr => ?_)
  simp only [Instr.wf, Instr.hdr?, Instr.operandsWf, Bool.and_eq_true] at hw
  have hv := hw
  try simp [VOpt.plain, -BitVec.getLsbD_eq_getElem] at hv
  simp [encode, armOf, arms22, Instr.privileged, hw, hv, encT_x, Raw.toksBad, Raw.toksNZ, -BitVec.getLsbD_eq_getElem]
theorem mnot (h : Hdr) (t : Toks) (d a : MReg) : Statement (.mnot h t d a) := by
  refine .inr (fun hw priv hr => ?_)
  simp only [Instr.wf, Instr.hdr?, Instr.operandsWf, Bool.and_eq_true] at hw
  have hv := hw
  try simp [VOpt.plain, -BitVec.getLsbD_eq_getElem] at hv
  simp [encode, armOf, arms22, Instr.privileged, hw, hv, encT_x, Raw.toksBad, Raw.toksNZ, -BitVec.getLsbD_eq_getElem]
theorem mpopc (h : Hdr) (t : Toks) (o : VOpt) (d : VReg) (a : MReg) : Statement (.mpopc h t o d a) := by
  refine .inr (fun hw priv hr => ?_)
  simp only [Instr.wf, Instr.hdr?, Instr.operandsWf, Bool.and_eq_true] at hw
  have ho : o.wf = true := by simp [hw]
  have hz := zm_men o ho
  have he := ety_code o.ety
  have hv := hw
  try simp [VOpt.plain, -BitVec.getLsbD_eq_getElem] at hv
  simp [encode, armOf, arms22, Instr.privileged, hw, hv, encT_x, Raw.toksBad, Raw.toksNZ, vill, xseed, xi, xf, xo4, xrnd, -BitVec.getLsbD_eq_getElem]
  (repeat' apply And.intro) <;> first | assumption | omega | rfl | tauto | (simp_all; done) | (intro a b; simp [a, b] at hv; simp [hv]) | (intro a; simp [a] at hv; simp [hv]) | (intro a b; rcases hv with ⟨_, ⟨_, (h1 | h1) | h1⟩, _⟩ <;> simp_all)  | (intro a; rcases hv with ⟨_, ⟨_, h1 | h1⟩, _⟩ <;> simp_all)
theorem vadds (h : Hdr) (t : Toks) (o : VOpt) (d a b : VReg) : Statement (.vadds h t o d a b) := by
  refine .inr (fun hw priv hr => ?_)
  simp only [Instr.wf, Instr.hdr?, Instr.operandsWf, Bool.and_eq_true] at hw
  have ho : o.wf = true := by simp [hw]
  have hz := zm_men o ho
  have he := ety_code o.ety
  have hv := hw
  try simp [VOpt.plain, -BitVec.getLsbD_eq_getElem] at hv
  simp [encode, armOf, arms23, Instr.privileged, hw, hv, encT_x, Raw.toksBad, Raw.toksNZ, vill, xseed, xi, xf, xo4, xrnd, -BitVec.getLsbD_eq_getElem]
  (repeat' apply And.intro) <;> first | assumption | omega | rfl | tauto | (simp_all; done) | (intro a b; simp [a, b] at hv; simp [hv]) | (intro a; simp [a] at hv; simp [hv]) | (intro a b; rcases hv with ⟨_, ⟨_, (h1 | h1) | h1⟩, _⟩ <;> simp_all)  | (intro a; rcases hv with ⟨_, ⟨_, h1 | h1⟩, _⟩ <;> simp_all)
theorem vsubs (h : Hdr) (t : Toks) (o : VOpt) (d a b : VReg) : Statement (.vsubs h t o d a b) := by
  refine .inr (fun hw priv hr => ?_)
  simp only [Instr.wf, Instr.hdr?, Instr.operandsWf, Bool.and_eq_true] at hw
  have ho : o.wf = true := by simp [hw]
  have hz := zm_men o ho
  have he := ety_code o.ety
  have hv := hw
  try simp [VOpt.plain, -BitVec.getLsbD_eq_getElem] at hv
  simp [encode, armOf, arms23, Instr.privileged, hw, hv, encT_x, Raw.toksBad, Raw.toksNZ, vill, xseed, xi, xf, xo4, xrnd, -BitVec.getLsbD_eq_getElem]
  (repeat' apply And.intro) <;> first | assumption | omega | rfl | tauto | (simp_all; done) | (intro a b; simp [a, b] at hv; simp [hv]) | (intro a; simp [a] at hv; simp [hv]) | (intro a b; rcases hv with ⟨_, ⟨_, (h1 | h1) | h1⟩, _⟩ <;> simp_all)  | (intro a; rcases hv with ⟨_, ⟨_, h1 | h1⟩, _⟩ <;> simp_all)
theorem vmulh (h : Hdr) (t : Toks) (o : VOpt) (d a b : VReg) : Statement (.vmulh h t o d a b) := by
  refine .inr (fun hw priv hr => ?_)
  simp only [Instr.wf, Instr.hdr?, Instr.operandsWf, Bool.and_eq_true] at hw
  have ho : o.wf = true := by simp [hw]
  have hz := zm_men o ho
  have he := ety_code o.ety
  have hv := hw
  try simp [VOpt.plain, -BitVec.getLsbD_eq_getElem] at hv
  simp [encode, armOf, arms23, Instr.privileged, hw, hv, encT_x, Raw.toksBad, Raw.toksNZ, vill, xseed, xi, xf, xo4, xrnd, -BitVec.getLsbD_eq_getElem]
  (repeat' apply And.intro) <;> first | assumption | omega | rfl | tauto | (simp_all; done) | (intro a b; simp [a, b] at hv; simp [hv]) | (intro a; simp [a] at hv; simp [hv]) | (intro a b; rcases hv with ⟨_, ⟨_, (h1 | h1) | h1⟩, _⟩ <;> simp_all)  | (intro a; rcases hv with ⟨_, ⟨_, h1 | h1⟩, _⟩ <;> simp_all)
theorem vavg (h : Hdr) (t : Toks) (o : VOpt) (d a b : VReg) : Statement (.vavg h t o d a b) := by
  refine .inr (fun hw priv hr => ?_)
  simp only [Instr.wf, Instr.hdr?, Instr.operandsWf, Bool.and_eq_true] at hw
  have ho : o.wf = true := by simp [hw]
  have hz := zm_men o ho
  have he := ety_code o.ety
  have hv := hw
  try simp [VOpt.plain, -BitVec.getLsbD_eq_getElem] at hv
  simp [encode, armOf, arms23, Instr.privileged, hw, hv, encT_x, Raw.toksBad, Raw.toksNZ, vill, xseed, xi, xf, xo4, xrnd, -BitVec.getLsbD_eq_getElem]
  (repeat' apply And.intro) <;> first | assumption | omega | rfl | tauto | (simp_all; done) | (intro a b; simp [a, b] at hv; simp [hv]) | (intro a; simp [a] at hv; simp [hv]) | (intro a b; rcases hv with ⟨_, ⟨_, (h1 | h1) | h1⟩, _⟩ <;> simp_all)  | (intro a; rcases hv with ⟨_, ⟨_, h1 | h1⟩, _⟩ <;> simp_all)
theorem vsad (h : Hdr) (t : Toks) (o : VOpt) (d a b : VReg) : Statement (.vsad h t o d a b) := by
  refine .inr (fun hw priv hr => ?_)
  simp only [Instr.wf, Instr.hdr?, Instr.operandsWf, Bool.and_eq_true] at hw
  have ho : o.wf = true := by simp [hw]
  have hz := zm_men o ho
  have he := ety_code o.ety
  have hv := hw
  try simp [VOpt.plain, -BitVec.getLsbD_eq_getElem] at hv
  simp [encode, armOf, arms23, Instr.privileged, hw, hv, encT_x, Raw.toksBad, Raw.toksNZ, vill, xseed, xi, xf, xo4, xrnd, -BitVec.getLsbD_eq_getElem]
theorem vpack (h : Hdr) (t : Toks) (o : VOpt) (df : BitVec 8) (rnd : Rnd) (d a b : VReg) : Statement (.vpack h t o df rnd d a b) := by
  refine .inr (fun hw priv hr => ?_)
  simp only [Instr.wf, Instr.hdr?, Instr.operandsWf, Bool.and_eq_true] at hw
  have ho : o.wf = true := by simp [hw]
  have hz := zm_men o ho
  have he := ety_code o.ety
  have hr0 : rnd.wf = true := by simp [hw]
  have hr1 := rm_code rnd
  have hr3 := rm_toNat rnd
  have hr2 := rm_seed rnd hr0
  have hv := hw
  try simp [VOpt.plain, -BitVec.getLsbD_eq_getElem] at hv
  simp [encode, armOf, arms24, Instr.privileged, hw, hv, encT_x, Raw.toksBad, Raw.toksNZ, vill, xseed, xi, xf, xo4, xrnd, lrnd, hr1, hr3, -BitVec.getLsbD_eq_getElem]
  (repeat' apply And.intro) <;> first | assumption | omega | rfl | tauto | (simp_all; done) | (intro a b; simp [a, b] at hv; simp [hv]) | (intro a; simp [a] at hv; simp [hv]) | (intro a b; rcases hv with ⟨_, ⟨_, (h1 | h1) | h1⟩, _⟩ <;> simp_all)  | (intro a; rcases hv with ⟨_, ⟨_, h1 | h1⟩, _⟩ <;> simp_all)
theorem vunpk (h : Hdr) (t : Toks) (o : VOpt) (sf : BitVec 8) (half : Bool) (rnd : Rnd) (d a : VReg) : Statement (.vunpk h t o sf half rnd d a) := by
  refine .inr (fun hw priv hr => ?_)
  simp only [Instr.wf, Instr.hdr?, Instr.operandsWf, Bool.and_eq_true] at hw
  have ho : o.wf = true := by simp [hw]
  have hz := zm_men o ho
  have he := ety_code o.ety
  have hr0 : rnd.wf = true := by simp [hw]
  have hr1 := rm_code rnd
  have hr3 := rm_toNat rnd
  have hr2 := rm_seed rnd hr0
  cases half <;>
  (have hv := hw
   try simp [VOpt.plain, ShCnt.wf, ShCnt.xi, ShCnt.flag, ShCnt.o3, VCond.code, RedOp.code, -BitVec.getLsbD_eq_getElem] at hv
   simp [encode, armOf, arms24, Instr.privileged, hw, hv, encT_x, Raw.toksBad, Raw.toksNZ, vill, xseed, xi, xf, xo4, xrnd, lrnd, hr1, hr3, ShCnt.o3, ShCnt.xi, ShCnt.flag, VCond.code, RedOp.code, -BitVec.getLsbD_eq_getElem]
   (repeat' apply And.intro) <;> first | assumption | omega | rfl | tauto | (simp_all; done) | (intro a b; simp [a, b] at hv; simp [hv]) | (intro a; simp [a] at hv; simp [hv]) | (intro a b; rcases hv with ⟨_, ⟨_, (h1 | h1) | h1⟩, _⟩ <;> simp_all)  | (intro a; rcases hv with ⟨_, ⟨_, h1 | h1⟩, _⟩ <;> simp_all))
theorem pixUnpk (h : Hdr) (t : Toks) (o : VOpt) (pf : BitVec 8) (off : BitVec 11) (d a : VReg) : Statement (.pixUnpk h t o pf off d a) := by
  refine .inr (fun hw priv hr => ?_)
  simp only [Instr.wf, Instr.hdr?, Instr.operandsWf, Bool.and_eq_true] at hw
  have ho : o.wf = true := by simp [hw]
  have hz := zm_men o ho
  have he := ety_code o.ety
  have hv := hw
  try simp [VOpt.plain, -BitVec.getLsbD_eq_getElem] at hv
  simp [encode, armOf, arms24, Instr.privileged, hw, hv, encT_x, Raw.toksBad, Raw.toksNZ, vill, xseed, xi, xf, xo4, xrnd, -BitVec.getLsbD_eq_getElem]
theorem pixPack (h : Hdr) (t : Toks) (o : VOpt) (pf : BitVec 8) (d a : VReg) : Statement (.pixPack h t o pf d a) := by
  refine .inr (fun hw priv hr => ?_)
  simp only [Instr.wf, Instr.hdr?, Instr.operandsWf, Bool.and_eq_true] at hw
  have ho : o.wf = true := by simp [hw]
  have hz := zm_men o ho
  have he := ety_code o.ety
  have hv := hw
  try simp [VOpt.plain, -BitVec.getLsbD_eq_getElem] at hv
  simp [encode, armOf, arms24, Instr.privileged, hw, hv, encT_x, Raw.toksBad, Raw.toksNZ, vill, xseed, xi, xf, xo4, xrnd, -BitVec.getLsbD_eq_getElem]
theorem vbfx (h : Hdr) (t : Toks) (o : VOpt) (sx : Bool) (d a b : VReg) : Statement (.vbfx h t o sx d a b) := by
  refine .inr (fun hw priv hr => ?_)
  simp only [Instr.wf, Instr.hdr?, Instr.operandsWf, Bool.and_eq_true] at hw
  have ho : o.wf = true := by simp [hw]
  have hz := zm_men o ho
  have he := ety_code o.ety
  cases sx <;>
  (have hv := hw
   try simp [VOpt.plain, ShCnt.wf, ShCnt.xi, ShCnt.flag, ShCnt.o3, VCond.code, RedOp.code, -BitVec.getLsbD_eq_getElem] at hv
   simp [encode, armOf, arms25, Instr.privileged, hw, hv, encT_x, Raw.toksBad, Raw.toksNZ, vill, xseed, xi, xf, xo4, xrnd, ShCnt.o3, ShCnt.xi, ShCnt.flag, VCond.code, RedOp.code, -BitVec.getLsbD_eq_getElem]
   (repeat' apply And.intro) <;> first | assumption | omega | rfl | tauto | (simp_all; done) | (intro a b; simp [a, b] at hv; simp [hv]) | (intro a; simp [a] at hv; simp [hv]) | (intro a b; rcases hv with ⟨_, ⟨_, (h1 | h1) | h1⟩, _⟩ <;> simp_all)  | (intro a; rcases hv with ⟨_, ⟨_, h1 | h1⟩, _⟩ <;> simp_all))
theorem vbfi (h : Hdr) (t : Toks) (o : VOpt) (d a b : VReg) : Statement (.vbfi h t o d a b) := by
  refine .inr (fun hw priv hr => ?_)
  simp only [Instr.wf, Instr.hdr?, Instr.operandsWf, Bool.and_eq_true] at hw
  have ho : o.wf = true := by simp [hw]
  have hz := zm_men o ho
  have he := ety_code o.ety
  have hv := hw
  try simp [VOpt.plain, -BitVec.getLsbD_eq_getElem] at hv
  simp [encode, armOf, arms25, Instr.privileged, hw, hv, encT_x, Raw.toksBad, Raw.toksNZ, vill, xseed, xi, xf, xo4, xrnd, -BitVec.getLsbD_eq_getElem]
  (repeat' apply And.intro) <;> first | assumption | omega | rfl | tauto | (simp_all; done) | (intro a b; simp [a, b] at hv; simp [hv]) | (intro a; simp [a] at hv; simp [hv]) | (intro a b; rcases hv with ⟨_, ⟨_, (h1 | h1) | h1⟩, _⟩ <;> simp_all)  | (intro a; rcases hv with ⟨_, ⟨_, h1 | h1⟩, _⟩ <;> simp_all)
theorem vfshR (h : Hdr) (t : Toks) (o : VOpt) (d a b : VReg) (n : ShCnt) : Statement (.vfshR h t o d a b n) := by
  refine .inr (fun hw priv hr => ?_)
  simp only [Instr.wf, Instr.hdr?, Instr.operandsWf, Bool.and_eq_true] at hw
  have ho : o.wf = true := by simp [hw]
  have hz := zm_men o ho
  have he := ety_code o.ety
  cases n <;>
  (have hv := hw
   try simp [VOpt.plain, ShCnt.wf, ShCnt.xi, ShCnt.flag, ShCnt.o3, VCond.code, RedOp.code, -BitVec.getLsbD_eq_getElem] at hv
   simp [encode, armOf, arms25, Instr.privileged, hw, hv, encT_x, Raw.toksBad, Raw.toksNZ, vill, xseed, xi, xf, xo4, xrnd, ShCnt.o3, ShCnt.xi, ShCnt.flag, VCond.code, RedOp.code, -BitVec.getLsbD_eq_getElem]
   (repeat' apply And.intro) <;> first | assumption | omega | rfl | tauto | (simp_all; done) | (intro a b; simp [a, b] at hv; simp [hv]) | (intro a; simp [a] at hv; simp [hv]) | (intro a b; rcases hv with ⟨_, ⟨_, (h1 | h1) | h1⟩, _⟩ <;> simp_all)  | (intro a; rcases hv with ⟨_, ⟨_, h1 | h1⟩, _⟩ <;> simp_all))
theorem vfshL (h : Hdr) (t : Toks) (o : VOpt) (d a b : VReg) (n : ShCnt) : Statement (.vfshL h t o d a b n) := by
  refine .inr (fun hw priv hr => ?_)
  simp only [Instr.wf, Instr.hdr?, Instr.operandsWf, Bool.and_eq_true] at hw
  have ho : o.wf = true := by simp [hw]
  have hz := zm_men o ho
  have he := ety_code o.ety
  cases n <;>
  (have hv := hw
   try simp [VOpt.plain, ShCnt.wf, ShCnt.xi, ShCnt.flag, ShCnt.o3, VCond.code, RedOp.code, -BitVec.getLsbD_eq_getElem] at hv
   simp [encode, armOf, arms25, Instr.privileged, hw, hv, encT_x, Raw.toksBad, Raw.toksNZ, vill, xseed, xi, xf, xo4, xrnd, ShCnt.o3, ShCnt.xi, ShCnt.flag, VCond.code, RedOp.code, -BitVec.getLsbD_eq_getElem]
   (repeat' apply And.intro) <;> first | assumption | omega | rfl | tauto | (simp_all; done) | (intro a b; simp [a, b] at hv; simp [hv]) | (intro a; simp [a] at hv; simp [hv]) | (intro a b; rcases hv with ⟨_, ⟨_, (h1 | h1) | h1⟩, _⟩ <;> simp_all)  | (intro a; rcases hv with ⟨_, ⟨_, h1 | h1⟩, _⟩ <;> simp_all))
theorem vclz (h : Hdr) (t : Toks) (o : VOpt) (d a : VReg) : Statement (.vclz h t o d a) := by
  refine .inr (fun hw priv hr => ?_)
  simp only [Instr.wf, Instr.hdr?, Instr.operandsWf, Bool.and_eq_true] at hw
  have ho : o.wf = true := by simp [hw]
  have hz := zm_men o ho
  have he := ety_code o.ety
  have hv := hw
  try simp [VOpt.plain, -BitVec.getLsbD_eq_getElem] at hv
  simp [encode, armOf, arms25, Instr.privileged, hw, hv, encT_x, Raw.toksBad, Raw.toksNZ, vill, xseed, xi, xf, xo4, xrnd, -BitVec.getLsbD_eq_getElem]
  (repeat' apply And.intro) <;> first | assumption | omega | rfl | tauto | (simp_all; done) | (intro a b; simp [a, b] at hv; simp [hv]) | (intro a; simp [a] at hv; simp [hv]) | (intro a b; rcases hv with ⟨_, ⟨_, (h1 | h1) | h1⟩, _⟩ <;> simp_all)  | (intro a; rcases hv with ⟨_, ⟨_, h1 | h1⟩, _⟩ <;> simp_all)
theorem vpopc (h : Hdr) (t : Toks) (o : VOpt) (d a : VReg) : Statement (.vpopc h t o d a) := by
  refine .inr (fun hw priv hr => ?_)
  simp only [Instr.wf, Instr.hdr?, Instr.operandsWf, Bool.and_eq_true] at hw
  have ho : o.wf = true := by simp [hw]
  have hz := zm_men o ho
  have he := ety_code o.ety
  have hv := hw
  try simp [VOpt.plain, -BitVec.getLsbD_eq_getElem] at hv
  simp [encode, armOf, arms25, Instr.privileged, hw, hv, encT_x, Raw.toksBad, Raw.toksNZ, vill, xseed, xi, xf, xo4, xrnd, -BitVec.getLsbD_eq_getElem]
  (repeat' apply And.intro) <;> first | assumption | omega | rfl | tauto | (simp_all; done) | (intro a b; simp [a, b] at hv; simp [hv]) | (intro a; simp [a] at hv; simp [hv]) | (intro a b; rcases hv with ⟨_, ⟨_, (h1 | h1) | h1⟩, _⟩ <;> simp_all)  | (intro a; rcases hv with ⟨_, ⟨_, h1 | h1⟩, _⟩ <;> simp_all)
theorem vlut (h : Hdr) (t : Toks) (o : VOpt) (d a : VReg) (b : SReg) : Statement (.vlut h t o d a b) := by
  refine .inr (fun hw priv hr => ?_)
  simp only [Instr.wf, Instr.hdr?, Instr.operandsWf, Bool.and_eq_true] at hw
  have ho : o.wf = true := by simp [hw]
  have hz := zm_men o ho
  have he := ety_code o.ety
  have hv := hw
  try simp [VOpt.plain, -BitVec.getLsbD_eq_getElem] at hv
  simp [encode, armOf, arms26, Instr.privileged, hw, hv, encT_x, Raw.toksBad, Raw.toksNZ, vill, xseed, xi, xf, xo4, xrnd, -BitVec.getLsbD_eq_getElem]
  (repeat' apply And.intro) <;> first | assumption | omega | rfl | tauto | (simp_all; done) | (intro a b; simp [a, b] at hv; simp [hv]) | (intro a; simp [a] at hv; simp [hv]) | (intro a b; rcases hv with ⟨_, ⟨_, (h1 | h1) | h1⟩, _⟩ <;> simp_all)  | (intro a; rcases hv with ⟨_, ⟨_, h1 | h1⟩, _⟩ <;> simp_all)
theorem vcvt (h : Hdr) (t : Toks) (o : VOpt) (df sf : BitVec 8) (rnd : Rnd) (d a : VReg) : Statement (.vcvt h t o df sf rnd d a) := by
  refine .inr (fun hw priv hr => ?_)
  simp only [Instr.wf, Instr.hdr?, Instr.operandsWf, Bool.and_eq_true] at hw
  have ho : o.wf = true := by simp [hw]
  have hz := zm_men o ho
  have he := ety_code o.ety
  have hr0 : rnd.wf = true := by simp [hw]
  have hr1 := rm_code rnd
  have hr3 := rm_toNat rnd
  have hr2 := rm_seed rnd hr0
  have hv := hw
  try simp [VOpt.plain, -BitVec.getLsbD_eq_getElem] at hv
  simp [encode, armOf, arms27, Instr.privileged, hw, hv, encT_x, Raw.toksBad, Raw.toksNZ, vill, xseed, xi, xf, xo4, xrnd, lrnd, hr1, hr3, -BitVec.getLsbD_eq_getElem]
  (repeat' apply And.intro) <;> first | assumption | omega | rfl | tauto | (simp_all; done) | (intro a b; simp [a, b] at hv; simp [hv]) | (intro a; simp [a] at hv; simp [hv]) | (intro a b; rcases hv with ⟨_, ⟨_, (h1 | h1) | h1⟩, _⟩ <;> simp_all)  | (intro a; rcases hv with ⟨_, ⟨_, h1 | h1⟩, _⟩ <;> simp_all)
theorem vred (h : Hdr) (t : Toks) (o : VOpt) (op : RedOp) (d a : VReg) : Statement (.vred h t o op d a) := by
  refine .inr (fun hw priv hr => ?_)
  simp only [Instr.wf, Instr.hdr?, Instr.operandsWf, Bool.and_eq_true] at hw
  have ho : o.wf = true := by simp [hw]
  have hz := zm_men o ho
  have he := ety_code o.ety
  cases op <;>
  (have hv := hw
   try simp [VOpt.plain, ShCnt.wf, ShCnt.xi, ShCnt.flag, ShCnt.o3, VCond.code, RedOp.code, -BitVec.getLsbD_eq_getElem] at hv
   simp [encode, armOf, arms28, Instr.privileged, hw, hv, encT_x, Raw.toksBad, Raw.toksNZ, vill, xseed, xi, xf, xo4, xrnd, ShCnt.o3, ShCnt.xi, ShCnt.flag, VCond.code, RedOp.code, -BitVec.getLsbD_eq_getElem]
   (repeat' apply And.intro) <;> first | assumption | omega | rfl | tauto | (simp_all; done) | (intro a b; simp [a, b] at hv; simp [hv]) | (intro a; simp [a] at hv; simp [hv]) | (intro a b; rcases hv with ⟨_, ⟨_, (h1 | h1) | h1⟩, _⟩ <;> simp_all)  | (intro a; rcases hv with ⟨_, ⟨_, h1 | h1⟩, _⟩ <;> simp_all))
theorem vscan (h : Hdr) (t : Toks) (o : VOpt) (op : RedOp) (d a : VReg) : Statement (.vscan h t o op d a) := by
  refine .inr (fun hw priv hr => ?_)
  simp only [Instr.wf, Instr.hdr?, Instr.operandsWf, Bool.and_eq_true] at hw
  have ho : o.wf = true := by simp [hw]
  have hz := zm_men o ho
  have he := ety_code o.ety
  cases op <;>
  (have hv := hw
   try simp [VOpt.plain, ShCnt.wf, ShCnt.xi, ShCnt.flag, ShCnt.o3, VCond.code, RedOp.code, -BitVec.getLsbD_eq_getElem] at hv
   simp [encode, armOf, arms28, Instr.privileged, hw, hv, encT_x, Raw.toksBad, Raw.toksNZ, vill, xseed, xi, xf, xo4, xrnd, ShCnt.o3, ShCnt.xi, ShCnt.flag, VCond.code, RedOp.code, -BitVec.getLsbD_eq_getElem]
   (repeat' apply And.intro) <;> first | assumption | omega | rfl | tauto | (simp_all; done) | (intro a b; simp [a, b] at hv; simp [hv]) | (intro a; simp [a] at hv; simp [hv]) | (intro a b; rcases hv with ⟨_, ⟨_, (h1 | h1) | h1⟩, _⟩ <;> simp_all)  | (intro a; rcases hv with ⟨_, ⟨_, h1 | h1⟩, _⟩ <;> simp_all))
theorem vperm (h : Hdr) (t : Toks) (o : VOpt) (d a b : VReg) : Statement (.vperm h t o d a b) := by
  refine .inr (fun hw priv hr => ?_)
  simp only [Instr.wf, Instr.hdr?, Instr.operandsWf, Bool.and_eq_true] at hw
  have ho : o.wf = true := by simp [hw]
  have hz := zm_men o ho
  have he := ety_code o.ety
  have hv := hw
  try simp [VOpt.plain, -BitVec.getLsbD_eq_getElem] at hv
  simp [encode, armOf, arms29, Instr.privileged, hw, hv, encT_x, Raw.toksBad, Raw.toksNZ, vill, xseed, xi, xf, xo4, xrnd, -BitVec.getLsbD_eq_getElem]
  (repeat' apply And.intro) <;> first | assumption | omega | rfl | tauto | (simp_all; done) | (intro a b; simp [a, b] at hv; simp [hv]) | (intro a; simp [a] at hv; simp [hv]) | (intro a b; rcases hv with ⟨_, ⟨_, (h1 | h1) | h1⟩, _⟩ <;> simp_all)  | (intro a; rcases hv with ⟨_, ⟨_, h1 | h1⟩, _⟩ <;> simp_all)
theorem vshuf (h : Hdr) (t : Toks) (o : VOpt) (pat : BitVec 3) (k : BitVec 16) (d a b : VReg) : Statement (.vshuf h t o pat k d a b) := by
  refine .inr (fun hw priv hr => ?_)
  simp only [Instr.wf, Instr.hdr?, Instr.operandsWf, Bool.and_eq_true] at hw
  have ho : o.wf = true := by simp [hw]
  have hz := zm_men o ho
  have he := ety_code o.ety
  have hv := hw
  try simp [VOpt.plain, -BitVec.getLsbD_eq_getElem] at hv
  simp [encode, armOf, arms29, Instr.privileged, hw, hv, encT_x, Raw.toksBad, Raw.toksNZ, vill, xseed, xi, xf, xo4, xrnd, -BitVec.getLsbD_eq_getElem]
  (repeat' apply And.intro) <;> first | assumption | omega | rfl | tauto | (simp_all; done) | (intro a b; simp [a, b] at hv; simp [hv]) | (intro a; simp [a] at hv; simp [hv]) | (intro a b; rcases hv with ⟨_, ⟨_, (h1 | h1) | h1⟩, _⟩ <;> simp_all)  | (intro a; rcases hv with ⟨_, ⟨_, h1 | h1⟩, _⟩ <;> simp_all)
theorem vbcast (h : Hdr) (t : Toks) (o : VOpt) (d : VReg) (a : SReg) : Statement (.vbcast h t o d a) := by
  refine .inr (fun hw priv hr => ?_)
  simp only [Instr.wf, Instr.hdr?, Instr.operandsWf, Bool.and_eq_true] at hw
  have ho : o.wf = true := by simp [hw]
  have hz := zm_men o ho
  have he := ety_code o.ety
  have hv := hw
  try simp [VOpt.plain, -BitVec.getLsbD_eq_getElem] at hv
  simp [encode, armOf, arms29, Instr.privileged, hw, hv, encT_x, Raw.toksBad, Raw.toksNZ, vill, xseed, xi, xf, xo4, xrnd, -BitVec.getLsbD_eq_getElem]
  (repeat' apply And.intro) <;> first | assumption | omega | rfl | tauto | (simp_all; done) | (intro a b; simp [a, b] at hv; simp [hv]) | (intro a; simp [a] at hv; simp [hv]) | (intro a b; rcases hv with ⟨_, ⟨_, (h1 | h1) | h1⟩, _⟩ <;> simp_all)  | (intro a; rcases hv with ⟨_, ⟨_, h1 | h1⟩, _⟩ <;> simp_all)
theorem vbcastE (h : Hdr) (t : Toks) (o : VOpt) (d a : VReg) (k : BitVec 16) : Statement (.vbcastE h t o d a k) := by
  refine .inr (fun hw priv hr => ?_)
  simp only [Instr.wf, Instr.hdr?, Instr.operandsWf, Bool.and_eq_true] at hw
  have ho : o.wf = true := by simp [hw]
  have hz := zm_men o ho
  have he := ety_code o.ety
  have hv := hw
  try simp [VOpt.plain, -BitVec.getLsbD_eq_getElem] at hv
  simp [encode, armOf, arms29, Instr.privileged, hw, hv, encT_x, Raw.toksBad, Raw.toksNZ, vill, xseed, xi, xf, xo4, xrnd, -BitVec.getLsbD_eq_getElem]
  (repeat' apply And.intro) <;> first | assumption | omega | rfl | tauto | (simp_all; done) | (intro a b; simp [a, b] at hv; simp [hv]) | (intro a; simp [a] at hv; simp [hv]) | (intro a b; rcases hv with ⟨_, ⟨_, (h1 | h1) | h1⟩, _⟩ <;> simp_all)  | (intro a; rcases hv with ⟨_, ⟨_, h1 | h1⟩, _⟩ <;> simp_all)
theorem vidx (h : Hdr) (t : Toks) (o : VOpt) (d : VReg) (a : SReg) : Statement (.vidx h t o d a) := by
  refine .inr (fun hw priv hr => ?_)
  simp only [Instr.wf, Instr.hdr?, Instr.operandsWf, Bool.and_eq_true] at hw
  have ho : o.wf = true := by simp [hw]
  have hz := zm_men o ho
  have he := ety_code o.ety
  have hv := hw
  try simp [VOpt.plain, -BitVec.getLsbD_eq_getElem] at hv
  simp [encode, armOf, arms29, Instr.privileged, hw, hv, encT_x, Raw.toksBad, Raw.toksNZ, vill, xseed, xi, xf, xo4, xrnd, -BitVec.getLsbD_eq_getElem]
  (repeat' apply And.intro) <;> first | assumption | omega | rfl | tauto | (simp_all; done) | (intro a b; simp [a, b] at hv; simp [hv]) | (intro a; simp [a] at hv; simp [hv]) | (intro a b; rcases hv with ⟨_, ⟨_, (h1 | h1) | h1⟩, _⟩ <;> simp_all)  | (intro a; rcases hv with ⟨_, ⟨_, h1 | h1⟩, _⟩ <;> simp_all)
theorem vmov (h : Hdr) (t : Toks) (o : VOpt) (d a : VReg) : Statement (.vmov h t o d a) := by
  refine .inr (fun hw priv hr => ?_)
  simp only [Instr.wf, Instr.hdr?, Instr.operandsWf, Bool.and_eq_true] at hw
  have ho : o.wf = true := by simp [hw]
  have hz := zm_men o ho
  have he := ety_code o.ety
  have hv := hw
  try simp [VOpt.plain, -BitVec.getLsbD_eq_getElem] at hv
  simp [encode, armOf, arms29, Instr.privileged, hw, hv, encT_x, Raw.toksBad, Raw.toksNZ, vill, xseed, xi, xf, xo4, xrnd, -BitVec.getLsbD_eq_getElem]
  (repeat' apply And.intro) <;> first | assumption | omega | rfl | tauto | (simp_all; done) | (intro a b; simp [a, b] at hv; simp [hv]) | (intro a; simp [a] at hv; simp [hv]) | (intro a b; rcases hv with ⟨_, ⟨_, (h1 | h1) | h1⟩, _⟩ <;> simp_all)  | (intro a; rcases hv with ⟨_, ⟨_, h1 | h1⟩, _⟩ <;> simp_all)
theorem trd (h : Hdr) (t : Toks) (o : VOpt) (d : VReg) (a : AReg) (b : SReg) (k : BitVec 7) : Statement (.trd h t o d a b k) := by
  refine .inr (fun hw priv hr => ?_)
  simp only [Instr.wf, Instr.hdr?, Instr.operandsWf, Bool.and_eq_true] at hw
  have ho : o.wf = true := by simp [hw]
  have hz := zm_men o ho
  have he := ety_code o.ety
  have hv := hw
  try simp [VOpt.plain, -BitVec.getLsbD_eq_getElem] at hv
  simp [encode, armOf, arms2A, Instr.privileged, hw, hv, encT_x, Raw.toksBad, Raw.toksNZ, vill, xseed, xi, xf, xo4, xrnd, -BitVec.getLsbD_eq_getElem]
  (repeat' apply And.intro) <;> first | assumption | omega | rfl | tauto | (simp_all; done) | (intro a b; simp [a, b] at hv; simp [hv]) | (intro a; simp [a] at hv; simp [hv]) | (intro a b; rcases hv with ⟨_, ⟨_, (h1 | h1) | h1⟩, _⟩ <;> simp_all)  | (intro a; rcases hv with ⟨_, ⟨_, h1 | h1⟩, _⟩ <;> simp_all)
theorem twr (h : Hdr) (t : Toks) (o : VOpt) (d : AReg) (a : VReg) (b : SReg) (k : BitVec 7) : Statement (.twr h t o d a b k) := by
  refine .inr (fun hw priv hr => ?_)
  simp only [Instr.wf, Instr.hdr?, Instr.operandsWf, Bool.and_eq_true] at hw
  have ho : o.wf = true := by simp [hw]
  have hz := zm_men o ho
  have he := ety_code o.ety
  have hv := hw
  try simp [VOpt.plain, -BitVec.getLsbD_eq_getElem] at hv
  simp [encode, armOf, arms2A, Instr.privileged, hw, hv, encT_x, Raw.toksBad, Raw.toksNZ, vill, xseed, xi, xf, xo4, xrnd, -BitVec.getLsbD_eq_getElem]
  (repeat' apply And.intro) <;> first | assumption | omega | rfl | tauto | (simp_all; done) | (intro a b; simp [a, b] at hv; simp [hv]) | (intro a; simp [a] at hv; simp [hv]) | (intro a b; rcases hv with ⟨_, ⟨_, (h1 | h1) | h1⟩, _⟩ <;> simp_all)  | (intro a; rcases hv with ⟨_, ⟨_, h1 | h1⟩, _⟩ <;> simp_all)
theorem vld (h : Hdr) (t : Toks) (o : VOpt) (d : VReg) (a b : SReg) (disp : BitVec 16) : Statement (.vld h t o d a b disp) := by
  refine .inr (fun hw priv hr => ?_)
  simp only [Instr.wf, Instr.hdr?, Instr.operandsWf, Bool.and_eq_true] at hw
  have ho : o.wf = true := by simp [hw]
  have hz := zm_men o ho
  have he := ety_code o.ety
  have hv := hw
  try simp [VOpt.plain, -BitVec.getLsbD_eq_getElem] at hv
  simp [encode, armOf, arms2C, Instr.privileged, hw, hv, encT_x, Raw.toksBad, Raw.toksNZ, vill, xseed, xi, xf, xo4, xrnd, -BitVec.getLsbD_eq_getElem]
  (repeat' apply And.intro) <;> first | assumption | omega | rfl | tauto | (simp_all; done) | (intro a b; simp [a, b] at hv; simp [hv]) | (intro a; simp [a] at hv; simp [hv]) | (intro a b; rcases hv with ⟨_, ⟨_, (h1 | h1) | h1⟩, _⟩ <;> simp_all)  | (intro a; rcases hv with ⟨_, ⟨_, h1 | h1⟩, _⟩ <;> simp_all)
theorem vlds (h : Hdr) (t : Toks) (o : VOpt) (d : VReg) (a b : SReg) (disp : BitVec 16) : Statement (.vlds h t o d a b disp) := by
  refine .inr (fun hw priv hr => ?_)
  simp only [Instr.wf, Instr.hdr?, Instr.operandsWf, Bool.and_eq_true] at hw
  have ho : o.wf = true := by simp [hw]
  have hz := zm_men o ho
  have he := ety_code o.ety
  have hv := hw
  try simp [VOpt.plain, -BitVec.getLsbD_eq_getElem] at hv
  simp [encode, armOf, arms2C, Instr.privileged, hw, hv, encT_x, Raw.toksBad, Raw.toksNZ, vill, xseed, xi, xf, xo4, xrnd, -BitVec.getLsbD_eq_getElem]
  (repeat' apply And.intro) <;> first | assumption | omega | rfl | tauto | (simp_all; done) | (intro a b; simp [a, b] at hv; simp [hv]) | (intro a; simp [a] at hv; simp [hv]) | (intro a b; rcases hv with ⟨_, ⟨_, (h1 | h1) | h1⟩, _⟩ <;> simp_all)  | (intro a; rcases hv with ⟨_, ⟨_, h1 | h1⟩, _⟩ <;> simp_all)
theorem vgath (h : Hdr) (t : Toks) (o : VOpt) (d : VReg) (a : SReg) (b : VReg) (disp : BitVec 16) : Statement (.vgath h t o d a b disp) := by
  refine .inr (fun hw priv hr => ?_)
  simp only [Instr.wf, Instr.hdr?, Instr.operandsWf, Bool.and_eq_true] at hw
  have ho : o.wf = true := by simp [hw]
  have hz := zm_men o ho
  have he := ety_code o.ety
  have hv := hw
  try simp [VOpt.plain, -BitVec.getLsbD_eq_getElem] at hv
  simp [encode, armOf, arms2C, Instr.privileged, hw, hv, encT_x, Raw.toksBad, Raw.toksNZ, vill, xseed, xi, xf, xo4, xrnd, -BitVec.getLsbD_eq_getElem]
  (repeat' apply And.intro) <;> first | assumption | omega | rfl | tauto | (simp_all; done) | (intro a b; simp [a, b] at hv; simp [hv]) | (intro a; simp [a] at hv; simp [hv]) | (intro a b; rcases hv with ⟨_, ⟨_, (h1 | h1) | h1⟩, _⟩ <;> simp_all)  | (intro a; rcases hv with ⟨_, ⟨_, h1 | h1⟩, _⟩ <;> simp_all)
theorem vst (h : Hdr) (t : Toks) (o : VOpt) (d : VReg) (a b : SReg) (disp : BitVec 16) : Statement (.vst h t o d a b disp) := by
  refine .inr (fun hw priv hr => ?_)
  simp only [Instr.wf, Instr.hdr?, Instr.operandsWf, Bool.and_eq_true] at hw
  have ho : o.wf = true := by simp [hw]
  have hz := zm_men o ho
  have he := ety_code o.ety
  have hv := hw
  try simp [VOpt.plain, -BitVec.getLsbD_eq_getElem] at hv
  simp [encode, armOf, arms2C, Instr.privileged, hw, hv, encT_x, Raw.toksBad, Raw.toksNZ, vill, xseed, xi, xf, xo4, xrnd, -BitVec.getLsbD_eq_getElem]
  (repeat' apply And.intro) <;> first | assumption | omega | rfl | tauto | (simp_all; done) | (intro a b; simp [a, b] at hv; simp [hv]) | (intro a; simp [a] at hv; simp [hv]) | (intro a b; rcases hv with ⟨_, ⟨_, (h1 | h1) | h1⟩, _⟩ <;> simp_all)  | (intro a; rcases hv with ⟨_, ⟨_, h1 | h1⟩, _⟩ <;> simp_all)
theorem vsts (h : Hdr) (t : Toks) (o : VOpt) (d : VReg) (a b : SReg) (disp : BitVec 16) : Statement (.vsts h t o d a b disp) := by
  refine .inr (fun hw priv hr => ?_)
  simp only [Instr.wf, Instr.hdr?, Instr.operandsWf, Bool.and_eq_true] at hw
  have ho : o.wf = true := by simp [hw]
  have hz := zm_men o ho
  have he := ety_code o.ety
  have hv := hw
  try simp [VOpt.plain, -BitVec.getLsbD_eq_getElem] at hv
  simp [encode, armOf, arms2C, Instr.privileged, hw, hv, encT_x, Raw.toksBad, Raw.toksNZ, vill, xseed, xi, xf, xo4, xrnd, -BitVec.getLsbD_eq_getElem]
  (repeat' apply And.intro) <;> first | assumption | omega | rfl | tauto | (simp_all; done) | (intro a b; simp [a, b] at hv; simp [hv]) | (intro a; simp [a] at hv; simp [hv]) | (intro a b; rcases hv with ⟨_, ⟨_, (h1 | h1) | h1⟩, _⟩ <;> simp_all)  | (intro a; rcases hv with ⟨_, ⟨_, h1 | h1⟩, _⟩ <;> simp_all)
theorem vscat (h : Hdr) (t : Toks) (o : VOpt) (d : VReg) (a : SReg) (b : VReg) (disp : BitVec 16) : Statement (.vscat h t o d a b disp) := by
  refine .inr (fun hw priv hr => ?_)
  simp only [Instr.wf, Instr.hdr?, Instr.operandsWf, Bool.and_eq_true] at hw
  have ho : o.wf = true := by simp [hw]
  have hz := zm_men o ho
  have he := ety_code o.ety
  have hv := hw
  try simp [VOpt.plain, -BitVec.getLsbD_eq_getElem] at hv
  simp [encode, armOf, arms2C, Instr.privileged, hw, hv, encT_x, Raw.toksBad, Raw.toksNZ, vill, xseed, xi, xf, xo4, xrnd, -BitVec.getLsbD_eq_getElem]
  (repeat' apply And.intro) <;> first | assumption | omega | rfl | tauto | (simp_all; done) | (intro a b; simp [a, b] at hv; simp [hv]) | (intro a; simp [a] at hv; simp [hv]) | (intro a b; rcases hv with ⟨_, ⟨_, (h1 | h1) | h1⟩, _⟩ <;> simp_all)  | (intro a; rcases hv with ⟨_, ⟨_, h1 | h1⟩, _⟩ <;> simp_all)
theorem vstSrPtr (h : Hdr) (t : Toks) (o : VOpt) (df : BitVec 8) (seed : SReg) (c : VReg) (a b : SReg) (disp : BitVec 16) : Statement (.vstSrPtr h t o df seed c a b disp) := by
  refine .inr (fun hw priv hr => ?_)
  simp only [Instr.wf, Instr.hdr?, Instr.operandsWf, Bool.and_eq_true] at hw
  have ho : o.wf = true := by simp [hw]
  have hz := zm_men o ho
  have he := ety_code o.ety
  have hd := hw.2.1.1.1.2
  simp at hd
  rcases hd with rfl | rfl <;>
  (have hv := hw
   try simp [VOpt.plain, ShCnt.wf, ShCnt.xi, ShCnt.flag, ShCnt.o3, VCond.code, RedOp.code, -BitVec.getLsbD_eq_getElem] at hv
   simp [encode, armOf, arms2C, Instr.privileged, hw, hv, encT_x, Raw.toksBad, Raw.toksNZ, vill, xseed, xi, xf, xo4, xrnd, ShCnt.o3, ShCnt.xi, ShCnt.flag, VCond.code, RedOp.code, -BitVec.getLsbD_eq_getElem]
   (repeat' apply And.intro) <;> first | assumption | omega | rfl | tauto | (simp_all; done) | (intro a b; simp [a, b] at hv; simp [hv]) | (intro a; simp [a] at hv; simp [hv]) | (intro a b; rcases hv with ⟨_, ⟨_, (h1 | h1) | h1⟩, _⟩ <;> simp_all)  | (intro a; rcases hv with ⟨_, ⟨_, h1 | h1⟩, _⟩ <;> simp_all))
theorem vstSrHdl (h : Hdr) (t : Toks) (o : VOpt) (seed : SReg) (c : VReg) (a : HReg) (b : SReg) : Statement (.vstSrHdl h t o seed c a b) := by
  refine .inr (fun hw priv hr => ?_)
  simp only [Instr.wf, Instr.hdr?, Instr.operandsWf, Bool.and_eq_true] at hw
  have ho : o.wf = true := by simp [hw]
  have hz := zm_men o ho
  have he := ety_code o.ety
  have hv := hw
  try simp [VOpt.plain, -BitVec.getLsbD_eq_getElem] at hv
  simp [encode, armOf, arms2C, Instr.privileged, hw, hv, encT_x, Raw.toksBad, Raw.toksNZ, vill, xseed, xi, xf, xo4, xrnd, -BitVec.getLsbD_eq_getElem]
  (repeat' apply And.intro) <;> first | assumption | omega | rfl | tauto | (simp_all; done) | (intro a b; simp [a, b] at hv; simp [hv]) | (intro a; simp [a] at hv; simp [hv]) | (intro a b; rcases hv with ⟨_, ⟨_, (h1 | h1) | h1⟩, _⟩ <;> simp_all)  | (intro a; rcases hv with ⟨_, ⟨_, h1 | h1⟩, _⟩ <;> simp_all)
theorem vstAcc (h : Hdr) (t : Toks) (o : VOpt) (df : BitVec 8) (c : VReg) (a b : SReg) (disp : BitVec 16) : Statement (.vstAcc h t o df c a b disp) := by
  refine .inr (fun hw priv hr => ?_)
  simp only [Instr.wf, Instr.hdr?, Instr.operandsWf, Bool.and_eq_true] at hw
  have ho : o.wf = true := by simp [hw]
  have hz := zm_men o ho
  have he := ety_code o.ety
  have hv := hw
  try simp [VOpt.plain, -BitVec.getLsbD_eq_getElem] at hv
  simp [encode, armOf, arms2C, Instr.privileged, hw, hv, encT_x, Raw.toksBad, Raw.toksNZ, vill, xseed, xi, xf, xo4, xrnd, -BitVec.getLsbD_eq_getElem]
  (repeat' apply And.intro) <;> first | assumption | omega | rfl | tauto | (simp_all; done) | (intro a b; simp [a, b] at hv; simp [hv]) | (intro a; simp [a] at hv; simp [hv]) | (intro a b; rcases hv with ⟨_, ⟨_, (h1 | h1) | h1⟩, _⟩ <;> simp_all)  | (intro a; rcases hv with ⟨_, ⟨_, h1 | h1⟩, _⟩ <;> simp_all)
theorem nestClr (h : Hdr) (t : Toks) (sl : LReg) : Statement (.nestClr h t sl) := by
  refine .inr (fun hw priv hr => ?_)
  simp only [Instr.wf, Instr.hdr?, Instr.operandsWf, Bool.and_eq_true] at hw
  have hv := hw
  try simp [VOpt.plain, -BitVec.getLsbD_eq_getElem] at hv
  simp [encode, armOf, arms30, Instr.privileged, hw, hv, encT_x, Raw.toksBad, Raw.toksNZ, -BitVec.getLsbD_eq_getElem]
theorem nestLvl (h : Hdr) (t : Toks) (sl : LReg) (lvl : BitVec 3) (extm1 : BitVec 24) (sa sb : BitVec 14) : Statement (.nestLvl h t sl lvl extm1 sa sb) := by
  refine .inr (fun hw priv hr => ?_)
  simp only [Instr.wf, Instr.hdr?, Instr.operandsWf, Bool.and_eq_true] at hw
  have hv := hw
  try simp [VOpt.plain, -BitVec.getLsbD_eq_getElem] at hv
  simp [encode, armOf, arms30, Instr.privileged, hw, hv, encT_x, Raw.toksBad, Raw.toksNZ, -BitVec.getLsbD_eq_getElem]
  (repeat' apply And.intro) <;> first | assumption | omega | rfl | tauto | (simp_all; done) | (intro a b; simp [a, b] at hv; simp [hv]) | (intro a; simp [a] at hv; simp [hv]) | (intro a b; rcases hv with ⟨_, ⟨_, (h1 | h1) | h1⟩, _⟩ <;> simp_all)  | (intro a; rcases hv with ⟨_, ⟨_, h1 | h1⟩, _⟩ <;> simp_all)
theorem nestOpt (h : Hdr) (t : Toks) (sl : LReg) (seed : SReg) (n : NestOpt) : Statement (.nestOpt h t sl seed n) := by
  refine .inr (fun hw priv hr => ?_)
  simp only [Instr.wf, Instr.hdr?, Instr.operandsWf, Bool.and_eq_true] at hw
  have hv := hw
  try simp [VOpt.plain, -BitVec.getLsbD_eq_getElem] at hv
  simp [encode, armOf, arms30, Instr.privileged, hw, hv, encT_x, Raw.toksBad, Raw.toksNZ, -BitVec.getLsbD_eq_getElem]
  (repeat' apply And.intro) <;> first | assumption | omega | rfl | tauto | (simp_all; done) | (intro a b; simp [a, b] at hv; simp [hv]) | (intro a; simp [a] at hv; simp [hv]) | (intro a b; rcases hv with ⟨_, ⟨_, (h1 | h1) | h1⟩, _⟩ <;> simp_all)  | (intro a; rcases hv with ⟨_, ⟨_, h1 | h1⟩, _⟩ <;> simp_all)
theorem nestAcc (h : Hdr) (t : Toks) (sl : LReg) (d : AReg) (rorg : BitVec 7) (corg : BitVec 6) : Statement (.nestAcc h t sl d rorg corg) := by
  refine .inr (fun hw priv hr => ?_)
  simp only [Instr.wf, Instr.hdr?, Instr.operandsWf, Bool.and_eq_true] at hw
  have hv := hw
  try simp [VOpt.plain, -BitVec.getLsbD_eq_getElem] at hv
  simp [encode, armOf, arms30, Instr.privileged, hw, hv, encT_x, Raw.toksBad, Raw.toksNZ, -BitVec.getLsbD_eq_getElem]
theorem mmRun (h : Hdr) (t : Toks) (sl : LReg) (a b : HReg) : Statement (.mmRun h t sl a b) := by
  refine .inr (fun hw priv hr => ?_)
  simp only [Instr.wf, Instr.hdr?, Instr.operandsWf, Bool.and_eq_true] at hw
  have hv := hw
  try simp [VOpt.plain, -BitVec.getLsbD_eq_getElem] at hv
  simp [encode, armOf, arms30, Instr.privileged, hw, hv, encT_x, Raw.toksBad, Raw.toksNZ, -BitVec.getLsbD_eq_getElem]
theorem mmBatch (h : Hdr) (t : Toks) (sl : LReg) (a b : HReg) : Statement (.mmBatch h t sl a b) := by
  refine .inr (fun hw priv hr => ?_)
  simp only [Instr.wf, Instr.hdr?, Instr.operandsWf, Bool.and_eq_true] at hw
  have hv := hw
  try simp [VOpt.plain, -BitVec.getLsbD_eq_getElem] at hv
  simp [encode, armOf, arms30, Instr.privileged, hw, hv, encT_x, Raw.toksBad, Raw.toksNZ, -BitVec.getLsbD_eq_getElem]
theorem accInit (h : Hdr) (t : Toks) (d : AReg) (b : SReg) : Statement (.accInit h t d b) := by
  refine .inr (fun hw priv hr => ?_)
  simp only [Instr.wf, Instr.hdr?, Instr.operandsWf, Bool.and_eq_true] at hw
  have hv := hw
  try simp [VOpt.plain, -BitVec.getLsbD_eq_getElem] at hv
  simp [encode, armOf, arms30, Instr.privileged, hw, hv, encT_x, Raw.toksBad, Raw.toksNZ, -BitVec.getLsbD_eq_getElem]
theorem accFlush (h : Hdr) (t : Toks) (d : AReg) : Statement (.accFlush h t d) := by
  refine .inr (fun hw priv hr => ?_)
  simp only [Instr.wf, Instr.hdr?, Instr.operandsWf, Bool.and_eq_true] at hw
  have hv := hw
  try simp [VOpt.plain, -BitVec.getLsbD_eq_getElem] at hv
  simp [encode, armOf, arms30, Instr.privileged, hw, hv, encT_x, Raw.toksBad, Raw.toksNZ, -BitVec.getLsbD_eq_getElem]
theorem accRd (h : Hdr) (t : Toks) (d : HReg) (a : AReg) (rnd : Rnd) (roff : BitVec 7) (coff : BitVec 6) : Statement (.accRd h t d a rnd roff coff) := by
  refine .inr (fun hw priv hr => ?_)
  simp only [Instr.wf, Instr.hdr?, Instr.operandsWf, Bool.and_eq_true] at hw
  have hr0 : rnd.wf = true := by simp [hw]
  have hr1 := rm_code rnd
  have hr3 := rm_toNat rnd
  have hr2 := rm_seed rnd hr0
  have hv := hw
  try simp [VOpt.plain, -BitVec.getLsbD_eq_getElem] at hv
  simp [encode, armOf, arms30, Instr.privileged, hw, hv, encT_x, Raw.toksBad, Raw.toksNZ, lrnd, hr1, hr3, -BitVec.getLsbD_eq_getElem]
  (repeat' apply And.intro) <;> first | assumption | omega | rfl | tauto | (simp_all; done) | (intro a b; simp [a, b] at hv; simp [hv]) | (intro a; simp [a] at hv; simp [hv]) | (intro a b; rcases hv with ⟨_, ⟨_, (h1 | h1) | h1⟩, _⟩ <;> simp_all)  | (intro a; rcases hv with ⟨_, ⟨_, h1 | h1⟩, _⟩ <;> simp_all)
theorem accWr (h : Hdr) (t : Toks) (d : AReg) (a : HReg) (roff : BitVec 7) (coff : BitVec 6) : Statement (.accWr h t d a roff coff) := by
  refine .inr (fun hw priv hr => ?_)
  simp only [Instr.wf, Instr.hdr?, Instr.operandsWf, Bool.and_eq_true] at hw
  simp only [encode]
  generalize hx : (0#30 ++ 0#1 ++ coff ++ roff ++ 0#8 : BitVec 52) = x at hw ⊢
  have f0 := xWr_0 coff roff
  have f8 := xWr_8 coff roff
  have f15 := xWr_15 coff roff
  have f22 := xWr_22 coff roff
  have f21 := xWr_21 coff roff
  rw [hx] at f0 f8 f15 f21 f22
  have hv := hw
  try simp [VOpt.plain, -BitVec.getLsbD_eq_getElem] at hv
  simp [encode, armOf, arms30, Instr.privileged, hw, hv, encT_x, Raw.toksBad, Raw.toksNZ, f0, f8, f15, f21, f22, -BitVec.getLsbD_eq_getElem]
theorem accWrAdd (h : Hdr) (t : Toks) (d : AReg) (a : HReg) (roff : BitVec 7) (coff : BitVec 6) : Statement (.accWrAdd h t d a roff coff) := by
  refine .inr (fun hw priv hr => ?_)
  simp only [Instr.wf, Instr.hdr?, Instr.operandsWf, Bool.and_eq_true] at hw
  simp only [encode]
  generalize hx : (0#30 ++ 1#1 ++ coff ++ roff ++ 0#8 : BitVec 52) = x at hw ⊢
  have f0 := xWrAdd_0 coff roff
  have f8 := xWrAdd_8 coff roff
  have f15 := xWrAdd_15 coff roff
  have f22 := xWrAdd_22 coff roff
  have f21 := xWrAdd_21 coff roff
  rw [hx] at f0 f8 f15 f21 f22
  have hv := hw
  try simp [VOpt.plain, -BitVec.getLsbD_eq_getElem] at hv
  simp [encode, armOf, arms30, Instr.privileged, hw, hv, encT_x, Raw.toksBad, Raw.toksNZ, f0, f8, f15, f21, f22, -BitVec.getLsbD_eq_getElem]
theorem planePack (h : Hdr) (t : Toks) (d a : HReg) (rnd : Rnd) : Statement (.planePack h t d a rnd) := by
  refine .inr (fun hw priv hr => ?_)
  simp only [Instr.wf, Instr.hdr?, Instr.operandsWf, Bool.and_eq_true] at hw
  have hr0 : rnd.wf = true := by simp [hw]
  have hr1 := rm_code rnd
  have hr3 := rm_toNat rnd
  have hr2 := rm_seed rnd hr0
  have hv := hw
  try simp [VOpt.plain, -BitVec.getLsbD_eq_getElem] at hv
  simp [encode, armOf, arms30, Instr.privileged, hw, hv, encT_x, Raw.toksBad, Raw.toksNZ, lrnd, hr1, hr3, -BitVec.getLsbD_eq_getElem]
  (repeat' apply And.intro) <;> first | assumption | omega | rfl | tauto | (simp_all; done) | (intro a b; simp [a, b] at hv; simp [hv]) | (intro a; simp [a] at hv; simp [hv]) | (intro a b; rcases hv with ⟨_, ⟨_, (h1 | h1) | h1⟩, _⟩ <;> simp_all)  | (intro a; rcases hv with ⟨_, ⟨_, h1 | h1⟩, _⟩ <;> simp_all)
theorem planeUnpk (h : Hdr) (t : Toks) (d a : HReg) (rnd : Rnd) : Statement (.planeUnpk h t d a rnd) := by
  refine .inr (fun hw priv hr => ?_)
  simp only [Instr.wf, Instr.hdr?, Instr.operandsWf, Bool.and_eq_true] at hw
  have hr0 : rnd.wf = true := by simp [hw]
  have hr1 := rm_code rnd
  have hr3 := rm_toNat rnd
  have hr2 := rm_seed rnd hr0
  have hv := hw
  try simp [VOpt.plain, -BitVec.getLsbD_eq_getElem] at hv
  simp [encode, armOf, arms30, Instr.privileged, hw, hv, encT_x, Raw.toksBad, Raw.toksNZ, lrnd, hr1, hr3, -BitVec.getLsbD_eq_getElem]
  (repeat' apply And.intro) <;> first | assumption | omega | rfl | tauto | (simp_all; done) | (intro a b; simp [a, b] at hv; simp [hv]) | (intro a; simp [a] at hv; simp [hv]) | (intro a b; rcases hv with ⟨_, ⟨_, (h1 | h1) | h1⟩, _⟩ <;> simp_all)  | (intro a; rcases hv with ⟨_, ⟨_, h1 | h1⟩, _⟩ <;> simp_all)
theorem hdlSet (h : Hdr) (t : Toks) (d : HReg) (a : SReg) : Statement (.hdlSet h t d a) := by
  refine .inr (fun hw priv hr => ?_)
  simp only [Instr.wf, Instr.hdr?, Instr.operandsWf, Bool.and_eq_true] at hw
  have hv := hw
  try simp [VOpt.plain, -BitVec.getLsbD_eq_getElem] at hv
  simp [encode, armOf, arms34, Instr.privileged, hw, hv, encT_x, Raw.toksBad, Raw.toksNZ, -BitVec.getLsbD_eq_getElem]
theorem hdlInv (h : Hdr) (t : Toks) (d : HReg) : Statement (.hdlInv h t d) := by
  refine .inr (fun hw priv hr => ?_)
  simp only [Instr.wf, Instr.hdr?, Instr.operandsWf, Bool.and_eq_true] at hw
  have hv := hw
  try simp [VOpt.plain, -BitVec.getLsbD_eq_getElem] at hv
  simp [encode, armOf, arms34, Instr.privileged, hw, hv, encT_x, Raw.toksBad, Raw.toksNZ, -BitVec.getLsbD_eq_getElem]
theorem cp (h : Hdr) (t : Toks) (d a : HReg) (rnd : Rnd) (dscale : BitVec 8) (gen : Bool) (xr : SReg) : Statement (.cp h t d a rnd dscale gen xr) := by
  refine .inr (fun hw priv hr => ?_)
  simp only [Instr.wf, Instr.hdr?, Instr.operandsWf, Bool.and_eq_true] at hw
  have hr0 : rnd.wf = true := by simp [hw]
  have hr1 := rm_code rnd
  have hr3 := rm_toNat rnd
  have hr2 := rm_seed rnd hr0
  have hv := hw
  try simp [VOpt.plain, -BitVec.getLsbD_eq_getElem] at hv
  simp [encode, armOf, arms34, Instr.privileged, hw, hv, encT_x, Raw.toksBad, Raw.toksNZ, lrnd, hr1, hr3, -BitVec.getLsbD_eq_getElem]
  (repeat' apply And.intro) <;> first | assumption | omega | rfl | tauto | (simp_all; done) | (intro a b; simp [a, b] at hv; simp [hv]) | (intro a; simp [a] at hv; simp [hv]) | (intro a b; rcases hv with ⟨_, ⟨_, (h1 | h1) | h1⟩, _⟩ <;> simp_all)  | (intro a; rcases hv with ⟨_, ⟨_, h1 | h1⟩, _⟩ <;> simp_all)
theorem cpAcc (h : Hdr) (t : Toks) (d a : HReg) (gen : Bool) (xr : SReg) : Statement (.cpAcc h t d a gen xr) := by
  refine .inr (fun hw priv hr => ?_)
  simp only [Instr.wf, Instr.hdr?, Instr.operandsWf, Bool.and_eq_true] at hw
  have hv := hw
  try simp [VOpt.plain, -BitVec.getLsbD_eq_getElem] at hv
  simp [encode, armOf, arms34, Instr.privileged, hw, hv, encT_x, Raw.toksBad, Raw.toksNZ, -BitVec.getLsbD_eq_getElem]
  (repeat' apply And.intro) <;> first | assumption | omega | rfl | tauto | (simp_all; done) | (intro a b; simp [a, b] at hv; simp [hv]) | (intro a; simp [a] at hv; simp [hv]) | (intro a b; rcases hv with ⟨_, ⟨_, (h1 | h1) | h1⟩, _⟩ <;> simp_all)  | (intro a; rcases hv with ⟨_, ⟨_, h1 | h1⟩, _⟩ <;> simp_all)
theorem cpDec (h : Hdr) (t : Toks) (d a : HReg) (gen : Bool) (xr : SReg) : Statement (.cpDec h t d a gen xr) := by
  refine .inr (fun hw priv hr => ?_)
  simp only [Instr.wf, Instr.hdr?, Instr.operandsWf, Bool.and_eq_true] at hw
  have hv := hw
  try simp [VOpt.plain, -BitVec.getLsbD_eq_getElem] at hv
  simp [encode, armOf, arms34, Instr.privileged, hw, hv, encT_x, Raw.toksBad, Raw.toksNZ, -BitVec.getLsbD_eq_getElem]
  (repeat' apply And.intro) <;> first | assumption | omega | rfl | tauto | (simp_all; done) | (intro a b; simp [a, b] at hv; simp [hv]) | (intro a; simp [a] at hv; simp [hv]) | (intro a b; rcases hv with ⟨_, ⟨_, (h1 | h1) | h1⟩, _⟩ <;> simp_all)  | (intro a; rcases hv with ⟨_, ⟨_, h1 | h1⟩, _⟩ <;> simp_all)
theorem cpCmp (h : Hdr) (t : Toks) (d a : HReg) (rnd : Rnd) (op : BitVec 3) (gen : Bool) (xr : SReg) : Statement (.cpCmp h t d a rnd op gen xr) := by
  refine .inr (fun hw priv hr => ?_)
  simp only [Instr.wf, Instr.hdr?, Instr.operandsWf, Bool.and_eq_true] at hw
  have hr0 : rnd.wf = true := by simp [hw]
  have hr1 := rm_code rnd
  have hr3 := rm_toNat rnd
  have hr2 := rm_seed rnd hr0
  have hv := hw
  try simp [VOpt.plain, -BitVec.getLsbD_eq_getElem] at hv
  simp [encode, armOf, arms34, Instr.privileged, hw, hv, encT_x, Raw.toksBad, Raw.toksNZ, lrnd, hr1, hr3, -BitVec.getLsbD_eq_getElem]
  (repeat' apply And.intro) <;> first | assumption | omega | rfl | tauto | (simp_all; done) | (intro a b; simp [a, b] at hv; simp [hv]) | (intro a; simp [a] at hv; simp [hv]) | (intro a b; rcases hv with ⟨_, ⟨_, (h1 | h1) | h1⟩, _⟩ <;> simp_all)  | (intro a; rcases hv with ⟨_, ⟨_, h1 | h1⟩, _⟩ <;> simp_all)
theorem cpPf (h : Hdr) (t : Toks) (a : HReg) : Statement (.cpPf h t a) := by
  refine .inr (fun hw priv hr => ?_)
  simp only [Instr.wf, Instr.hdr?, Instr.operandsWf, Bool.and_eq_true] at hw
  have hv := hw
  try simp [VOpt.plain, -BitVec.getLsbD_eq_getElem] at hv
  simp [encode, armOf, arms34, Instr.privileged, hw, hv, encT_x, Raw.toksBad, Raw.toksNZ, -BitVec.getLsbD_eq_getElem]
theorem glean (h : Hdr) (t : Toks) (d a : HReg) (rnd : Rnd) (op : BitVec 3) : Statement (.glean h t d a rnd op) := by
  refine .inr (fun hw priv hr => ?_)
  simp only [Instr.wf, Instr.hdr?, Instr.operandsWf, Bool.and_eq_true] at hw
  have hr0 : rnd.wf = true := by simp [hw]
  have hr1 := rm_code rnd
  have hr3 := rm_toNat rnd
  have hr2 := rm_seed rnd hr0
  have hv := hw
  try simp [VOpt.plain, -BitVec.getLsbD_eq_getElem] at hv
  simp [encode, armOf, arms34, Instr.privileged, hw, hv, encT_x, Raw.toksBad, Raw.toksNZ, lrnd, hr1, hr3, -BitVec.getLsbD_eq_getElem]
  (repeat' apply And.intro) <;> first | assumption | omega | rfl | tauto | (simp_all; done) | (intro a b; simp [a, b] at hv; simp [hv]) | (intro a; simp [a] at hv; simp [hv]) | (intro a b; rcases hv with ⟨_, ⟨_, (h1 | h1) | h1⟩, _⟩ <;> simp_all)  | (intro a; rcases hv with ⟨_, ⟨_, h1 | h1⟩, _⟩ <;> simp_all)
theorem blkBegin (h : Hdr) (a b : SReg) (p : BlkParm) : Statement (.blkBegin h a b p) := by
  refine .inr (fun hw priv hr => ?_)
  simp only [Instr.wf, Instr.hdr?, Instr.operandsWf, Bool.and_eq_true] at hw
  have hv := hw
  try simp [VOpt.plain, -BitVec.getLsbD_eq_getElem] at hv
  simp [encode, armOf, arms38, Instr.privileged, hw, hv, encT_x, Raw.toksBad, Raw.toksNZ, -BitVec.getLsbD_eq_getElem]
theorem blkEnd (h : Hdr) : Statement (.blkEnd h) := by
  refine .inr (fun hw priv hr => ?_)
  simp only [Instr.wf, Instr.hdr?, Instr.operandsWf, Bool.and_eq_true] at hw
  have hv := hw
  try simp [VOpt.plain, -BitVec.getLsbD_eq_getElem] at hv
  simp [encode, armOf, arms38, Instr.privileged, hw, hv, encT_x, Raw.toksBad, Raw.toksNZ, -BitVec.getLsbD_eq_getElem]
theorem revb (h : Hdr) : Statement (.revb h) := by
  refine .inr (fun hw priv hr => ?_)
  simp only [Instr.wf, Instr.hdr?, Instr.operandsWf, Bool.and_eq_true] at hw
  have hv := hw
  try simp [VOpt.plain, -BitVec.getLsbD_eq_getElem] at hv
  simp [encode, armOf, arms38, Instr.privileged, hw, hv, encT_x, Raw.toksBad, Raw.toksNZ, -BitVec.getLsbD_eq_getElem]
theorem gradZeroV (h : Hdr) (t : Toks) (msk : BitVec 16) : Statement (.gradZeroV h t msk) := by
  refine .inr (fun hw priv hr => ?_)
  simp only [Instr.wf, Instr.hdr?, Instr.operandsWf, Bool.and_eq_true] at hw
  have hv := hw
  try simp [VOpt.plain, -BitVec.getLsbD_eq_getElem] at hv
  simp [encode, armOf, arms38, Instr.privileged, hw, hv, encT_x, Raw.toksBad, Raw.toksNZ, -BitVec.getLsbD_eq_getElem]
theorem gradZeroAcc (h : Hdr) (t : Toks) (msk : BitVec 4) : Statement (.gradZeroAcc h t msk) := by
  refine .inr (fun hw priv hr => ?_)
  simp only [Instr.wf, Instr.hdr?, Instr.operandsWf, Bool.and_eq_true] at hw
  have hv := hw
  try simp [VOpt.plain, -BitVec.getLsbD_eq_getElem] at hv
  simp [encode, armOf, arms38, Instr.privileged, hw, hv, encT_x, Raw.toksBad, Raw.toksNZ, -BitVec.getLsbD_eq_getElem]
theorem gradZeroH (h : Hdr) (t : Toks) (d : HReg) : Statement (.gradZeroH h t d) := by
  refine .inr (fun hw priv hr => ?_)
  simp only [Instr.wf, Instr.hdr?, Instr.operandsWf, Bool.and_eq_true] at hw
  have hv := hw
  try simp [VOpt.plain, -BitVec.getLsbD_eq_getElem] at hv
  simp [encode, armOf, arms38, Instr.privileged, hw, hv, encT_x, Raw.toksBad, Raw.toksNZ, -BitVec.getLsbD_eq_getElem]
theorem rsBind (h : Hdr) (t : Toks) (a : SReg) : Statement (.rsBind h t a) := by
  refine .inr (fun hw priv hr => ?_)
  simp only [Instr.wf, Instr.hdr?, Instr.operandsWf, Bool.and_eq_true] at hw
  have hv := hw
  try simp [VOpt.plain, -BitVec.getLsbD_eq_getElem] at hv
  simp [encode, armOf, arms39, Instr.privileged, hw, hv, encT_x, Raw.toksBad, Raw.toksNZ, -BitVec.getLsbD_eq_getElem]
theorem rsPush (h : Hdr) (t : Toks) (a : HReg) : Statement (.rsPush h t a) := by
  refine .inr (fun hw priv hr => ?_)
  simp only [Instr.wf, Instr.hdr?, Instr.operandsWf, Bool.and_eq_true] at hw
  have hv := hw
  try simp [VOpt.plain, -BitVec.getLsbD_eq_getElem] at hv
  simp [encode, armOf, arms39, Instr.privileged, hw, hv, encT_x, Raw.toksBad, Raw.toksNZ, -BitVec.getLsbD_eq_getElem]
theorem rsPop (h : Hdr) (t : Toks) (d : HReg) : Statement (.rsPop h t d) := by
  refine .inr (fun hw priv hr => ?_)
  simp only [Instr.wf, Instr.hdr?, Instr.operandsWf, Bool.and_eq_true] at hw
  have hv := hw
  try simp [VOpt.plain, -BitVec.getLsbD_eq_getElem] at hv
  simp [encode, armOf, arms39, Instr.privileged, hw, hv, encT_x, Raw.toksBad, Raw.toksNZ, -BitVec.getLsbD_eq_getElem]
theorem rsMark (h : Hdr) (d : SReg) : Statement (.rsMark h d) := by
  refine .inr (fun hw priv hr => ?_)
  simp only [Instr.wf, Instr.hdr?, Instr.operandsWf, Bool.and_eq_true] at hw
  have hv := hw
  try simp [VOpt.plain, -BitVec.getLsbD_eq_getElem] at hv
  simp [encode, armOf, arms39, Instr.privileged, hw, hv, encT_x, Raw.toksBad, Raw.toksNZ, -BitVec.getLsbD_eq_getElem]
theorem rsDrop (h : Hdr) (a : SReg) : Statement (.rsDrop h a) := by
  refine .inr (fun hw priv hr => ?_)
  simp only [Instr.wf, Instr.hdr?, Instr.operandsWf, Bool.and_eq_true] at hw
  have hv := hw
  try simp [VOpt.plain, -BitVec.getLsbD_eq_getElem] at hv
  simp [encode, armOf, arms39, Instr.privileged, hw, hv, encT_x, Raw.toksBad, Raw.toksNZ, -BitVec.getLsbD_eq_getElem]
theorem rsSpill (h : Hdr) (t : Toks) : Statement (.rsSpill h t) := by
  refine .inr (fun hw priv hr => ?_)
  simp only [Instr.wf, Instr.hdr?, Instr.operandsWf, Bool.and_eq_true] at hw
  have hv := hw
  try simp [VOpt.plain, -BitVec.getLsbD_eq_getElem] at hv
  simp [encode, armOf, arms39, Instr.privileged, hw, hv, encT_x, Raw.toksBad, Raw.toksNZ, -BitVec.getLsbD_eq_getElem]
theorem launch (h : Hdr) (t : Toks) (a : SReg) : Statement (.launch h t a) := by
  refine .inr (fun hw priv hr => ?_)
  simp only [Instr.wf, Instr.hdr?, Instr.operandsWf, Bool.and_eq_true] at hw
  have hv := hw
  try simp [VOpt.plain, -BitVec.getLsbD_eq_getElem] at hv
  simp [encode, armOf, arms3A, Instr.privileged, hw, hv, encT_x, Raw.toksBad, Raw.toksNZ, -BitVec.getLsbD_eq_getElem]
theorem ptDone (h : Hdr) (t : Toks) : Statement (.ptDone h t) := by
  refine .inr (fun hw priv hr => ?_)
  simp only [Instr.wf, Instr.hdr?, Instr.operandsWf, Bool.and_eq_true] at hw
  have hv := hw
  try simp [VOpt.plain, -BitVec.getLsbD_eq_getElem] at hv
  simp [encode, armOf, arms3A, Instr.privileged, hw, hv, encT_x, Raw.toksBad, Raw.toksNZ, -BitVec.getLsbD_eq_getElem]
theorem ptSelf (h : Hdr) (t : Toks) (d : SReg) : Statement (.ptSelf h t d) := by
  refine .inr (fun hw priv hr => ?_)
  simp only [Instr.wf, Instr.hdr?, Instr.operandsWf, Bool.and_eq_true] at hw
  have hv := hw
  try simp [VOpt.plain, -BitVec.getLsbD_eq_getElem] at hv
  simp [encode, armOf, arms3A, Instr.privileged, hw, hv, encT_x, Raw.toksBad, Raw.toksNZ, -BitVec.getLsbD_eq_getElem]
theorem tlRead (h : Hdr) (t : Toks) (a b : SReg) : Statement (.tlRead h t a b) := by
  refine .inr (fun hw priv hr => ?_)
  simp only [Instr.wf, Instr.hdr?, Instr.operandsWf, Bool.and_eq_true] at hw
  have hv := hw
  try simp [VOpt.plain, -BitVec.getLsbD_eq_getElem] at hv
  simp [encode, armOf, arms3A, Instr.privileged, hw, hv, encT_x, Raw.toksBad, Raw.toksNZ, -BitVec.getLsbD_eq_getElem]
theorem chSend (h : Hdr) (t : Toks) (ch : CReg) (a : HReg) : Statement (.chSend h t ch a) := by
  refine .inr (fun hw priv hr => ?_)
  simp only [Instr.wf, Instr.hdr?, Instr.operandsWf, Bool.and_eq_true] at hw
  have hv := hw
  try simp [VOpt.plain, -BitVec.getLsbD_eq_getElem] at hv
  simp [encode, armOf, arms3B, Instr.privileged, hw, hv, encT_x, Raw.toksBad, Raw.toksNZ, -BitVec.getLsbD_eq_getElem]
theorem chRecv (h : Hdr) (t : Toks) (d : HReg) (ch : CReg) (lim : BitVec 6) : Statement (.chRecv h t d ch lim) := by
  refine .inr (fun hw priv hr => ?_)
  simp only [Instr.wf, Instr.hdr?, Instr.operandsWf, Bool.and_eq_true] at hw
  have hv := hw
  try simp [VOpt.plain, -BitVec.getLsbD_eq_getElem] at hv
  simp [encode, armOf, arms3B, Instr.privileged, hw, hv, encT_x, Raw.toksBad, Raw.toksNZ, -BitVec.getLsbD_eq_getElem]
theorem chPut (h : Hdr) (t : Toks) (ch : CReg) (a : HReg) (r : SReg) (gen : Bool) (xr : SReg) : Statement (.chPut h t ch a r gen xr) := by
  refine .inr (fun hw priv hr => ?_)
  simp only [Instr.wf, Instr.hdr?, Instr.operandsWf, Bool.and_eq_true] at hw
  have hv := hw
  try simp [VOpt.plain, -BitVec.getLsbD_eq_getElem] at hv
  simp [encode, armOf, arms3B, Instr.privileged, hw, hv, encT_x, Raw.toksBad, Raw.toksNZ, -BitVec.getLsbD_eq_getElem]
  (repeat' apply And.intro) <;> first | assumption | omega | rfl | tauto | (simp_all; done) | (intro a b; simp [a, b] at hv; simp [hv]) | (intro a; simp [a] at hv; simp [hv]) | (intro a b; rcases hv with ⟨_, ⟨_, (h1 | h1) | h1⟩, _⟩ <;> simp_all)  | (intro a; rcases hv with ⟨_, ⟨_, h1 | h1⟩, _⟩ <;> simp_all)
theorem chMcast (h : Hdr) (t : Toks) (ch : CReg) (a : HReg) (r : SReg) (gen : Bool) (xr : SReg) : Statement (.chMcast h t ch a r gen xr) := by
  refine .inr (fun hw priv hr => ?_)
  simp only [Instr.wf, Instr.hdr?, Instr.operandsWf, Bool.and_eq_true] at hw
  have hv := hw
  try simp [VOpt.plain, -BitVec.getLsbD_eq_getElem] at hv
  simp [encode, armOf, arms3B, Instr.privileged, hw, hv, encT_x, Raw.toksBad, Raw.toksNZ, -BitVec.getLsbD_eq_getElem]
  (repeat' apply And.intro) <;> first | assumption | omega | rfl | tauto | (simp_all; done) | (intro a b; simp [a, b] at hv; simp [hv]) | (intro a; simp [a] at hv; simp [hv]) | (intro a b; rcases hv with ⟨_, ⟨_, (h1 | h1) | h1⟩, _⟩ <;> simp_all)  | (intro a; rcases hv with ⟨_, ⟨_, h1 | h1⟩, _⟩ <;> simp_all)
theorem chGet (h : Hdr) (t : Toks) (d : HReg) (ch : CReg) (r : SReg) (gen : Bool) (xr : SReg) : Statement (.chGet h t d ch r gen xr) := by
  refine .inr (fun hw priv hr => ?_)
  simp only [Instr.wf, Instr.hdr?, Instr.operandsWf, Bool.and_eq_true] at hw
  have hv := hw
  try simp [VOpt.plain, -BitVec.getLsbD_eq_getElem] at hv
  simp [encode, armOf, arms3B, Instr.privileged, hw, hv, encT_x, Raw.toksBad, Raw.toksNZ, -BitVec.getLsbD_eq_getElem]
  (repeat' apply And.intro) <;> first | assumption | omega | rfl | tauto | (simp_all; done) | (intro a b; simp [a, b] at hv; simp [hv]) | (intro a; simp [a] at hv; simp [hv]) | (intro a b; rcases hv with ⟨_, ⟨_, (h1 | h1) | h1⟩, _⟩ <;> simp_all)  | (intro a; rcases hv with ⟨_, ⟨_, h1 | h1⟩, _⟩ <;> simp_all)
theorem sioRead (h : Hdr) (t : Toks) (d : HReg) (ch : CReg) (r : SReg) (gen : Bool) (xr : SReg) : Statement (.sioRead h t d ch r gen xr) := by
  refine .inr (fun hw priv hr => ?_)
  simp only [Instr.wf, Instr.hdr?, Instr.operandsWf, Bool.and_eq_true] at hw
  have hv := hw
  try simp [VOpt.plain, -BitVec.getLsbD_eq_getElem] at hv
  simp [encode, armOf, arms3B, Instr.privileged, hw, hv, encT_x, Raw.toksBad, Raw.toksNZ, -BitVec.getLsbD_eq_getElem]
  (repeat' apply And.intro) <;> first | assumption | omega | rfl | tauto | (simp_all; done) | (intro a b; simp [a, b] at hv; simp [hv]) | (intro a; simp [a] at hv; simp [hv]) | (intro a b; rcases hv with ⟨_, ⟨_, (h1 | h1) | h1⟩, _⟩ <;> simp_all)  | (intro a; rcases hv with ⟨_, ⟨_, h1 | h1⟩, _⟩ <;> simp_all)
theorem chAmo (h : Hdr) (t : Toks) (d : SReg) (ch : CReg) (p v : SReg) (op : BitVec 3) (sz : BitVec 1) : Statement (.chAmo h t d ch p v op sz) := by
  refine .inr (fun hw priv hr => ?_)
  simp only [Instr.wf, Instr.hdr?, Instr.operandsWf, Bool.and_eq_true] at hw
  have hv := hw
  try simp [VOpt.plain, -BitVec.getLsbD_eq_getElem] at hv
  simp [encode, armOf, arms3B, Instr.privileged, hw, hv, encT_x, Raw.toksBad, Raw.toksNZ, -BitVec.getLsbD_eq_getElem]
theorem chQry (h : Hdr) (t : Toks) (d : SReg) (ch : CReg) : Statement (.chQry h t d ch) := by
  refine .inr (fun hw priv hr => ?_)
  simp only [Instr.wf, Instr.hdr?, Instr.operandsWf, Bool.and_eq_true] at hw
  have hv := hw
  try simp [VOpt.plain, -BitVec.getLsbD_eq_getElem] at hv
  simp [encode, armOf, arms3B, Instr.privileged, hw, hv, encT_x, Raw.toksBad, Raw.toksNZ, -BitVec.getLsbD_eq_getElem]
theorem trap (h : Hdr) (code : BitVec 28) : Statement (.trap h code) := by
  refine .inr (fun hw priv hr => ?_)
  simp only [Instr.wf, Instr.hdr?, Instr.operandsWf, Bool.and_eq_true] at hw
  have hv := hw
  try simp [VOpt.plain, -BitVec.getLsbD_eq_getElem] at hv
  simp [encode, armOf, arms3C, Instr.privileged, hw, hv, encI_imm, -BitVec.getLsbD_eq_getElem]
theorem tret (h : Hdr) (a : SReg) : Statement (.tret h a) := by
  refine .inr (fun hw priv hr => ?_)
  simp only [Instr.wf, Instr.hdr?, Instr.operandsWf, Bool.and_eq_true] at hw
  have hv := hw
  try simp [VOpt.plain, -BitVec.getLsbD_eq_getElem] at hv
  simp [encode, armOf, arms3C, Instr.privileged, hw, hv, -BitVec.getLsbD_eq_getElem]
theorem ctlRd (h : Hdr) (d : SReg) (ctl : Ctl) : Statement (.ctlRd h d ctl) := by
  refine .inr (fun hw priv hr => ?_)
  simp only [Instr.wf, Instr.hdr?, Instr.operandsWf, Bool.and_eq_true] at hw
  have hr3 := hr
  simp only [Instr.reaches] at hr3
  have hv := hw
  try simp [VOpt.plain, -BitVec.getLsbD_eq_getElem] at hv
  simp [encode, armOf, arms3C, Instr.privileged, hw, hv, encI_imm, ctlD, ctlBad, ctlNoRead, ctlNoWrite, hr3, -BitVec.getLsbD_eq_getElem]
theorem ctlWr (h : Hdr) (ctl : Ctl) (a : SReg) : Statement (.ctlWr h ctl a) := by
  refine .inr (fun hw priv hr => ?_)
  simp only [Instr.wf, Instr.hdr?, Instr.operandsWf, Bool.and_eq_true] at hw
  have hr3 := hr
  simp only [Instr.reaches] at hr3
  have hv := hw
  try simp [VOpt.plain, -BitVec.getLsbD_eq_getElem] at hv
  simp [encode, armOf, arms3C, Instr.privileged, hw, hv, encI_imm, ctlD, ctlBad, ctlNoRead, ctlNoWrite, hr3, -BitVec.getLsbD_eq_getElem]
theorem ctlWrImm (h : Hdr) (ctl : Ctl) (imm : Word) : Statement (.ctlWrImm h ctl imm) := by
  refine .inr (fun hw priv hr => ?_)
  simp only [Instr.wf, Instr.hdr?, Instr.operandsWf, Bool.and_eq_true] at hw
  have hr3 := hr
  simp only [Instr.reaches] at hr3
  have hv := hw
  try simp [VOpt.plain, -BitVec.getLsbD_eq_getElem] at hv
  simp [encode, armOf, arms3C, Instr.privileged, hw, hv, encI_imm, ctlD, ctlBad, ctlNoRead, ctlNoWrite, hr3, -BitVec.getLsbD_eq_getElem]
theorem cutSave (h : Hdr) (t : Toks) (a b : SReg) : Statement (.cutSave h t a b) := by
  refine .inr (fun hw priv hr => ?_)
  simp only [Instr.wf, Instr.hdr?, Instr.operandsWf, Bool.and_eq_true] at hw
  have hv := hw
  try simp [VOpt.plain, -BitVec.getLsbD_eq_getElem] at hv
  simp [encode, armOf, arms3C, Instr.privileged, hw, hv, encT_x, Raw.toksBad, Raw.toksNZ, -BitVec.getLsbD_eq_getElem]
theorem cutLoad (h : Hdr) (t : Toks) (a b : SReg) : Statement (.cutLoad h t a b) := by
  refine .inr (fun hw priv hr => ?_)
  simp only [Instr.wf, Instr.hdr?, Instr.operandsWf, Bool.and_eq_true] at hw
  have hv := hw
  try simp [VOpt.plain, -BitVec.getLsbD_eq_getElem] at hv
  simp [encode, armOf, arms3C, Instr.privileged, hw, hv, encT_x, Raw.toksBad, Raw.toksNZ, -BitVec.getLsbD_eq_getElem]
theorem park (h : Hdr) (t : Toks) (a : SReg) : Statement (.park h t a) := by
  refine .inr (fun hw priv hr => ?_)
  simp only [Instr.wf, Instr.hdr?, Instr.operandsWf, Bool.and_eq_true] at hw
  have hv := hw
  try simp [VOpt.plain, -BitVec.getLsbD_eq_getElem] at hv
  simp [encode, armOf, arms3C, Instr.privileged, hw, hv, encT_x, Raw.toksBad, Raw.toksNZ, -BitVec.getLsbD_eq_getElem]
theorem wake (h : Hdr) (t : Toks) (a : SReg) : Statement (.wake h t a) := by
  refine .inr (fun hw priv hr => ?_)
  simp only [Instr.wf, Instr.hdr?, Instr.operandsWf, Bool.and_eq_true] at hw
  have hv := hw
  try simp [VOpt.plain, -BitVec.getLsbD_eq_getElem] at hv
  simp [encode, armOf, arms3C, Instr.privileged, hw, hv, encT_x, Raw.toksBad, Raw.toksNZ, -BitVec.getLsbD_eq_getElem]
theorem idle (h : Hdr) : Statement (.idle h) := by
  refine .inr (fun hw priv hr => ?_)
  simp only [Instr.wf, Instr.hdr?, Instr.operandsWf, Bool.and_eq_true] at hw
  have hv := hw
  try simp [VOpt.plain, -BitVec.getLsbD_eq_getElem] at hv
  simp [encode, armOf, arms3C, Instr.privileged, hw, hv, -BitVec.getLsbD_eq_getElem]
theorem probe (h : Hdr) (t : Toks) (d a : SReg) (pw : Bool) : Statement (.probe h t d a pw) := by
  refine .inr (fun hw priv hr => ?_)
  simp only [Instr.wf, Instr.hdr?, Instr.operandsWf, Bool.and_eq_true] at hw
  cases pw <;>
  (have hv := hw
   try simp [VOpt.plain, ShCnt.wf, ShCnt.xi, ShCnt.flag, ShCnt.o3, VCond.code, RedOp.code, -BitVec.getLsbD_eq_getElem] at hv
   simp [encode, armOf, arms3D, Instr.privileged, hw, hv, encT_x, Raw.toksBad, Raw.toksNZ, ShCnt.o3, ShCnt.xi, ShCnt.flag, VCond.code, RedOp.code, -BitVec.getLsbD_eq_getElem])
theorem probeRes (h : Hdr) (t : Toks) (d a : SReg) (pw : Bool) : Statement (.probeRes h t d a pw) := by
  refine .inr (fun hw priv hr => ?_)
  simp only [Instr.wf, Instr.hdr?, Instr.operandsWf, Bool.and_eq_true] at hw
  cases pw <;>
  (have hv := hw
   try simp [VOpt.plain, ShCnt.wf, ShCnt.xi, ShCnt.flag, ShCnt.o3, VCond.code, RedOp.code, -BitVec.getLsbD_eq_getElem] at hv
   simp [encode, armOf, arms3D, Instr.privileged, hw, hv, encT_x, Raw.toksBad, Raw.toksNZ, ShCnt.o3, ShCnt.xi, ShCnt.flag, VCond.code, RedOp.code, -BitVec.getLsbD_eq_getElem])
theorem mmuInv (h : Hdr) (t : Toks) (i b l : SReg) (allas allva : Bool) : Statement (.mmuInv h t i b l allas allva) := by
  refine .inr (fun hw priv hr => ?_)
  simp only [Instr.wf, Instr.hdr?, Instr.operandsWf, Bool.and_eq_true] at hw
  cases allas <;> cases allva <;>
  (have hv := hw
   try simp [VOpt.plain, ShCnt.wf, ShCnt.xi, ShCnt.flag, ShCnt.o3, VCond.code, RedOp.code, -BitVec.getLsbD_eq_getElem] at hv
   simp [encode, armOf, arms3D, Instr.privileged, hw, hv, encT_x, Raw.toksBad, Raw.toksNZ, ShCnt.o3, ShCnt.xi, ShCnt.flag, VCond.code, RedOp.code, -BitVec.getLsbD_eq_getElem])
theorem mmuSync (h : Hdr) (t : Toks) : Statement (.mmuSync h t) := by
  refine .inr (fun hw priv hr => ?_)
  simp only [Instr.wf, Instr.hdr?, Instr.operandsWf, Bool.and_eq_true] at hw
  have hv := hw
  try simp [VOpt.plain, -BitVec.getLsbD_eq_getElem] at hv
  simp [encode, armOf, arms3D, Instr.privileged, hw, hv, encT_x, Raw.toksBad, Raw.toksNZ, -BitVec.getLsbD_eq_getElem]
theorem mmuWalk (h : Hdr) (t : Toks) (d i v : SReg) : Statement (.mmuWalk h t d i v) := by
  refine .inr (fun hw priv hr => ?_)
  simp only [Instr.wf, Instr.hdr?, Instr.operandsWf, Bool.and_eq_true] at hw
  have hv := hw
  try simp [VOpt.plain, -BitVec.getLsbD_eq_getElem] at hv
  simp [encode, armOf, arms3D, Instr.privileged, hw, hv, encT_x, Raw.toksBad, Raw.toksNZ, -BitVec.getLsbD_eq_getElem]
theorem keyLoad (h : Hdr) (t : Toks) (k a : SReg) : Statement (.keyLoad h t k a) := by
  refine .inr (fun hw priv hr => ?_)
  simp only [Instr.wf, Instr.hdr?, Instr.operandsWf, Bool.and_eq_true] at hw
  have hv := hw
  try simp [VOpt.plain, -BitVec.getLsbD_eq_getElem] at hv
  simp [encode, armOf, arms3D, Instr.privileged, hw, hv, encT_x, Raw.toksBad, Raw.toksNZ, -BitVec.getLsbD_eq_getElem]
theorem keyKill (h : Hdr) (t : Toks) (k : SReg) : Statement (.keyKill h t k) := by
  refine .inr (fun hw priv hr => ?_)
  simp only [Instr.wf, Instr.hdr?, Instr.operandsWf, Bool.and_eq_true] at hw
  have hv := hw
  try simp [VOpt.plain, -BitVec.getLsbD_eq_getElem] at hv
  simp [encode, armOf, arms3D, Instr.privileged, hw, hv, encT_x, Raw.toksBad, Raw.toksNZ, -BitVec.getLsbD_eq_getElem]
theorem add (h : Hdr) (d a b : SReg) : Statement (.add h d a b) := by
  refine .inr (fun hw priv hr => ?_)
  simp only [Instr.wf, Instr.hdr?, Instr.operandsWf, Bool.and_eq_true] at hw
  have hv := hw
  try simp [VOpt.plain, -BitVec.getLsbD_eq_getElem] at hv
  simp [encode, armOf, arms00, Instr.privileged, hw, hv, -BitVec.getLsbD_eq_getElem]
theorem sub (h : Hdr) (d a b : SReg) : Statement (.sub h d a b) := by
  refine .inr (fun hw priv hr => ?_)
  simp only [Instr.wf, Instr.hdr?, Instr.operandsWf, Bool.and_eq_true] at hw
  have hv := hw
  try simp [VOpt.plain, -BitVec.getLsbD_eq_getElem] at hv
  simp [encode, armOf, arms00, Instr.privileged, hw, hv, -BitVec.getLsbD_eq_getElem]
theorem mul (h : Hdr) (d a b : SReg) : Statement (.mul h d a b) := by
  refine .inr (fun hw priv hr => ?_)
  simp only [Instr.wf, Instr.hdr?, Instr.operandsWf, Bool.and_eq_true] at hw
  have hv := hw
  try simp [VOpt.plain, -BitVec.getLsbD_eq_getElem] at hv
  simp [encode, armOf, arms00, Instr.privileged, hw, hv, -BitVec.getLsbD_eq_getElem]
theorem mulh (h : Hdr) (d a b : SReg) : Statement (.mulh h d a b) := by
  refine .inr (fun hw priv hr => ?_)
  simp only [Instr.wf, Instr.hdr?, Instr.operandsWf, Bool.and_eq_true] at hw
  have hv := hw
  try simp [VOpt.plain, -BitVec.getLsbD_eq_getElem] at hv
  simp [encode, armOf, arms00, Instr.privileged, hw, hv, -BitVec.getLsbD_eq_getElem]
theorem mulhu (h : Hdr) (d a b : SReg) : Statement (.mulhu h d a b) := by
  refine .inr (fun hw priv hr => ?_)
  simp only [Instr.wf, Instr.hdr?, Instr.operandsWf, Bool.and_eq_true] at hw
  have hv := hw
  try simp [VOpt.plain, -BitVec.getLsbD_eq_getElem] at hv
  simp [encode, armOf, arms00, Instr.privileged, hw, hv, -BitVec.getLsbD_eq_getElem]
theorem div (h : Hdr) (d a b : SReg) : Statement (.div h d a b) := by
  refine .inr (fun hw priv hr => ?_)
  simp only [Instr.wf, Instr.hdr?, Instr.operandsWf, Bool.and_eq_true] at hw
  have hv := hw
  try simp [VOpt.plain, -BitVec.getLsbD_eq_getElem] at hv
  simp [encode, armOf, arms00, Instr.privileged, hw, hv, -BitVec.getLsbD_eq_getElem]
theorem divu (h : Hdr) (d a b : SReg) : Statement (.divu h d a b) := by
  refine .inr (fun hw priv hr => ?_)
  simp only [Instr.wf, Instr.hdr?, Instr.operandsWf, Bool.and_eq_true] at hw
  have hv := hw
  try simp [VOpt.plain, -BitVec.getLsbD_eq_getElem] at hv
  simp [encode, armOf, arms00, Instr.privileged, hw, hv, -BitVec.getLsbD_eq_getElem]
theorem rem (h : Hdr) (d a b : SReg) : Statement (.rem h d a b) := by
  refine .inr (fun hw priv hr => ?_)
  simp only [Instr.wf, Instr.hdr?, Instr.operandsWf, Bool.and_eq_true] at hw
  have hv := hw
  try simp [VOpt.plain, -BitVec.getLsbD_eq_getElem] at hv
  simp [encode, armOf, arms00, Instr.privileged, hw, hv, -BitVec.getLsbD_eq_getElem]
theorem remu (h : Hdr) (d a b : SReg) : Statement (.remu h d a b) := by
  refine .inr (fun hw priv hr => ?_)
  simp only [Instr.wf, Instr.hdr?, Instr.operandsWf, Bool.and_eq_true] at hw
  have hv := hw
  try simp [VOpt.plain, -BitVec.getLsbD_eq_getElem] at hv
  simp [encode, armOf, arms00, Instr.privileged, hw, hv, -BitVec.getLsbD_eq_getElem]
theorem and (h : Hdr) (d a b : SReg) : Statement (.and h d a b) := by
  refine .inr (fun hw priv hr => ?_)
  simp only [Instr.wf, Instr.hdr?, Instr.operandsWf, Bool.and_eq_true] at hw
  have hv := hw
  try simp [VOpt.plain, -BitVec.getLsbD_eq_getElem] at hv
  simp [encode, armOf, arms00, Instr.privileged, hw, hv, -BitVec.getLsbD_eq_getElem]
theorem or (h : Hdr) (d a b : SReg) : Statement (.or h d a b) := by
  refine .inr (fun hw priv hr => ?_)
  simp only [Instr.wf, Instr.hdr?, Instr.operandsWf, Bool.and_eq_true] at hw
  have hv := hw
  try simp [VOpt.plain, -BitVec.getLsbD_eq_getElem] at hv
  simp [encode, armOf, arms00, Instr.privileged, hw, hv, -BitVec.getLsbD_eq_getElem]
theorem xor (h : Hdr) (d a b : SReg) : Statement (.xor h d a b) := by
  refine .inr (fun hw priv hr => ?_)
  simp only [Instr.wf, Instr.hdr?, Instr.operandsWf, Bool.and_eq_true] at hw
  have hv := hw
  try simp [VOpt.plain, -BitVec.getLsbD_eq_getElem] at hv
  simp [encode, armOf, arms00, Instr.privileged, hw, hv, -BitVec.getLsbD_eq_getElem]
theorem andn (h : Hdr) (d a b : SReg) : Statement (.andn h d a b) := by
  refine .inr (fun hw priv hr => ?_)
  simp only [Instr.wf, Instr.hdr?, Instr.operandsWf, Bool.and_eq_true] at hw
  have hv := hw
  try simp [VOpt.plain, -BitVec.getLsbD_eq_getElem] at hv
  simp [encode, armOf, arms00, Instr.privileged, hw, hv, -BitVec.getLsbD_eq_getElem]
theorem orn (h : Hdr) (d a b : SReg) : Statement (.orn h d a b) := by
  refine .inr (fun hw priv hr => ?_)
  simp only [Instr.wf, Instr.hdr?, Instr.operandsWf, Bool.and_eq_true] at hw
  have hv := hw
  try simp [VOpt.plain, -BitVec.getLsbD_eq_getElem] at hv
  simp [encode, armOf, arms00, Instr.privileged, hw, hv, -BitVec.getLsbD_eq_getElem]
theorem shl (h : Hdr) (d a b : SReg) : Statement (.shl h d a b) := by
  refine .inr (fun hw priv hr => ?_)
  simp only [Instr.wf, Instr.hdr?, Instr.operandsWf, Bool.and_eq_true] at hw
  have hv := hw
  try simp [VOpt.plain, -BitVec.getLsbD_eq_getElem] at hv
  simp [encode, armOf, arms00, Instr.privileged, hw, hv, -BitVec.getLsbD_eq_getElem]
theorem shr (h : Hdr) (d a b : SReg) : Statement (.shr h d a b) := by
  refine .inr (fun hw priv hr => ?_)
  simp only [Instr.wf, Instr.hdr?, Instr.operandsWf, Bool.and_eq_true] at hw
  have hv := hw
  try simp [VOpt.plain, -BitVec.getLsbD_eq_getElem] at hv
  simp [encode, armOf, arms00, Instr.privileged, hw, hv, -BitVec.getLsbD_eq_getElem]
theorem sra (h : Hdr) (d a b : SReg) : Statement (.sra h d a b) := by
  refine .inr (fun hw priv hr => ?_)
  simp only [Instr.wf, Instr.hdr?, Instr.operandsWf, Bool.and_eq_true] at hw
  have hv := hw
  try simp [VOpt.plain, -BitVec.getLsbD_eq_getElem] at hv
  simp [encode, armOf, arms00, Instr.privileged, hw, hv, -BitVec.getLsbD_eq_getElem]
theorem rol (h : Hdr) (d a b : SReg) : Statement (.rol h d a b) := by
  refine .inr (fun hw priv hr => ?_)
  simp only [Instr.wf, Instr.hdr?, Instr.operandsWf, Bool.and_eq_true] at hw
  have hv := hw
  try simp [VOpt.plain, -BitVec.getLsbD_eq_getElem] at hv
  simp [encode, armOf, arms00, Instr.privileged, hw, hv, -BitVec.getLsbD_eq_getElem]
theorem ror (h : Hdr) (d a b : SReg) : Statement (.ror h d a b) := by
  refine .inr (fun hw priv hr => ?_)
  simp only [Instr.wf, Instr.hdr?, Instr.operandsWf, Bool.and_eq_true] at hw
  have hv := hw
  try simp [VOpt.plain, -BitVec.getLsbD_eq_getElem] at hv
  simp [encode, armOf, arms00, Instr.privileged, hw, hv, -BitVec.getLsbD_eq_getElem]
theorem min (h : Hdr) (d a b : SReg) : Statement (.min h d a b) := by
  refine .inr (fun hw priv hr => ?_)
  simp only [Instr.wf, Instr.hdr?, Instr.operandsWf, Bool.and_eq_true] at hw
  have hv := hw
  try simp [VOpt.plain, -BitVec.getLsbD_eq_getElem] at hv
  simp [encode, armOf, arms00, Instr.privileged, hw, hv, -BitVec.getLsbD_eq_getElem]
theorem max (h : Hdr) (d a b : SReg) : Statement (.max h d a b) := by
  refine .inr (fun hw priv hr => ?_)
  simp only [Instr.wf, Instr.hdr?, Instr.operandsWf, Bool.and_eq_true] at hw
  have hv := hw
  try simp [VOpt.plain, -BitVec.getLsbD_eq_getElem] at hv
  simp [encode, armOf, arms00, Instr.privileged, hw, hv, -BitVec.getLsbD_eq_getElem]
theorem minu (h : Hdr) (d a b : SReg) : Statement (.minu h d a b) := by
  refine .inr (fun hw priv hr => ?_)
  simp only [Instr.wf, Instr.hdr?, Instr.operandsWf, Bool.and_eq_true] at hw
  have hv := hw
  try simp [VOpt.plain, -BitVec.getLsbD_eq_getElem] at hv
  simp [encode, armOf, arms00, Instr.privileged, hw, hv, -BitVec.getLsbD_eq_getElem]
theorem maxu (h : Hdr) (d a b : SReg) : Statement (.maxu h d a b) := by
  refine .inr (fun hw priv hr => ?_)
  simp only [Instr.wf, Instr.hdr?, Instr.operandsWf, Bool.and_eq_true] at hw
  have hv := hw
  try simp [VOpt.plain, -BitVec.getLsbD_eq_getElem] at hv
  simp [encode, armOf, arms00, Instr.privileged, hw, hv, -BitVec.getLsbD_eq_getElem]
theorem clz (h : Hdr) (d a : SReg) : Statement (.clz h d a) := by
  refine .inr (fun hw priv hr => ?_)
  simp only [Instr.wf, Instr.hdr?, Instr.operandsWf, Bool.and_eq_true] at hw
  have hv := hw
  try simp [VOpt.plain, -BitVec.getLsbD_eq_getElem] at hv
  simp [encode, armOf, arms00, Instr.privileged, hw, hv, -BitVec.getLsbD_eq_getElem]
theorem ctz (h : Hdr) (d a : SReg) : Statement (.ctz h d a) := by
  refine .inr (fun hw priv hr => ?_)
  simp only [Instr.wf, Instr.hdr?, Instr.operandsWf, Bool.and_eq_true] at hw
  have hv := hw
  try simp [VOpt.plain, -BitVec.getLsbD_eq_getElem] at hv
  simp [encode, armOf, arms00, Instr.privileged, hw, hv, -BitVec.getLsbD_eq_getElem]
theorem popc (h : Hdr) (d a : SReg) : Statement (.popc h d a) := by
  refine .inr (fun hw priv hr => ?_)
  simp only [Instr.wf, Instr.hdr?, Instr.operandsWf, Bool.and_eq_true] at hw
  have hv := hw
  try simp [VOpt.plain, -BitVec.getLsbD_eq_getElem] at hv
  simp [encode, armOf, arms00, Instr.privileged, hw, hv, -BitVec.getLsbD_eq_getElem]
theorem brev (h : Hdr) (d a : SReg) : Statement (.brev h d a) := by
  refine .inr (fun hw priv hr => ?_)
  simp only [Instr.wf, Instr.hdr?, Instr.operandsWf, Bool.and_eq_true] at hw
  have hv := hw
  try simp [VOpt.plain, -BitVec.getLsbD_eq_getElem] at hv
  simp [encode, armOf, arms00, Instr.privileged, hw, hv, -BitVec.getLsbD_eq_getElem]
theorem bswap (h : Hdr) (d a : SReg) : Statement (.bswap h d a) := by
  refine .inr (fun hw priv hr => ?_)
  simp only [Instr.wf, Instr.hdr?, Instr.operandsWf, Bool.and_eq_true] at hw
  have hv := hw
  try simp [VOpt.plain, -BitVec.getLsbD_eq_getElem] at hv
  simp [encode, armOf, arms00, Instr.privileged, hw, hv, -BitVec.getLsbD_eq_getElem]
theorem bfx (h : Hdr) (d a : SReg) (pos lenm1 : BitVec 6) : Statement (.bfx h d a pos lenm1) := by
  refine .inr (fun hw priv hr => ?_)
  simp only [Instr.wf, Instr.hdr?, Instr.operandsWf, Bool.and_eq_true] at hw
  simp only [encode]
  generalize hx : (0#1 ++ 0#1 ++ lenm1 ++ pos : BitVec 14) = x
  have f0 := mBfx_0 lenm1 pos
  have f6 := mBfx_6 lenm1 pos
  have f12 := mBfx_12 lenm1 pos
  have f13 := mBfx_13 lenm1 pos
  rw [hx] at f0 f6 f12 f13
  have hv := hw
  try simp [VOpt.plain, -BitVec.getLsbD_eq_getElem] at hv
  simp [encode, armOf, arms00, Instr.privileged, hw, hv, f0, f6, f12, f13, -BitVec.getLsbD_eq_getElem]
theorem bfxS (h : Hdr) (d a : SReg) (pos lenm1 : BitVec 6) : Statement (.bfxS h d a pos lenm1) := by
  refine .inr (fun hw priv hr => ?_)
  simp only [Instr.wf, Instr.hdr?, Instr.operandsWf, Bool.and_eq_true] at hw
  simp only [encode]
  generalize hx : (0#1 ++ 1#1 ++ lenm1 ++ pos : BitVec 14) = x
  have f0 := mBfxS_0 lenm1 pos
  have f6 := mBfxS_6 lenm1 pos
  have f12 := mBfxS_12 lenm1 pos
  have f13 := mBfxS_13 lenm1 pos
  rw [hx] at f0 f6 f12 f13
  have hv := hw
  try simp [VOpt.plain, -BitVec.getLsbD_eq_getElem] at hv
  simp [encode, armOf, arms00, Instr.privileged, hw, hv, f0, f6, f12, f13, -BitVec.getLsbD_eq_getElem]
theorem bfi (h : Hdr) (d a b : SReg) (pos lenm1 : BitVec 6) : Statement (.bfi h d a b pos lenm1) := by
  refine .inr (fun hw priv hr => ?_)
  simp only [Instr.wf, Instr.hdr?, Instr.operandsWf, Bool.and_eq_true] at hw
  simp only [encode]
  generalize hx : (0#2 ++ lenm1 ++ pos : BitVec 14) = x
  have f0 := mBfi_0 lenm1 pos
  have f6 := mBfi_6 lenm1 pos
  have f12b := mBfi_12b lenm1 pos
  have f13 := mBfi_13 lenm1 pos
  rw [hx] at f0 f6 f12b f13
  have hv := hw
  try simp [VOpt.plain, -BitVec.getLsbD_eq_getElem] at hv
  simp [encode, armOf, arms00, Instr.privileged, hw, hv, f0, f6, f12b, f13, -BitVec.getLsbD_eq_getElem]
theorem fshl (h : Hdr) (d a b c : SReg) : Statement (.fshl h d a b c) := by
  refine .inr (fun hw priv hr => ?_)
  simp only [Instr.wf, Instr.hdr?, Instr.operandsWf, Bool.and_eq_true] at hw
  have hv := hw
  try simp [VOpt.plain, -BitVec.getLsbD_eq_getElem] at hv
  simp [encode, armOf, arms00, Instr.privileged, hw, hv, -BitVec.getLsbD_eq_getElem]
theorem fshlImm (h : Hdr) (d a b : SReg) (n : BitVec 6) : Statement (.fshlImm h d a b n) := by
  refine .inr (fun hw priv hr => ?_)
  simp only [Instr.wf, Instr.hdr?, Instr.operandsWf, Bool.and_eq_true] at hw
  simp only [encode]
  generalize hx : (0#7 ++ 1#1 ++ n : BitVec 14) = x
  have f0 := mFsh_0 n
  have f6 := mFsh_6 n
  have f7 := mFsh_7 n
  rw [hx] at f0 f6 f7
  have hv := hw
  try simp [VOpt.plain, -BitVec.getLsbD_eq_getElem] at hv
  simp [encode, armOf, arms00, Instr.privileged, hw, hv, f0, f6, f7, -BitVec.getLsbD_eq_getElem]
theorem fshr (h : Hdr) (d a b c : SReg) : Statement (.fshr h d a b c) := by
  refine .inr (fun hw priv hr => ?_)
  simp only [Instr.wf, Instr.hdr?, Instr.operandsWf, Bool.and_eq_true] at hw
  have hv := hw
  try simp [VOpt.plain, -BitVec.getLsbD_eq_getElem] at hv
  simp [encode, armOf, arms00, Instr.privileged, hw, hv, -BitVec.getLsbD_eq_getElem]
theorem fshrImm (h : Hdr) (d a b : SReg) (n : BitVec 6) : Statement (.fshrImm h d a b n) := by
  refine .inr (fun hw priv hr => ?_)
  simp only [Instr.wf, Instr.hdr?, Instr.operandsWf, Bool.and_eq_true] at hw
  simp only [encode]
  generalize hx : (0#7 ++ 1#1 ++ n : BitVec 14) = x
  have f0 := mFsh_0 n
  have f6 := mFsh_6 n
  have f7 := mFsh_7 n
  rw [hx] at f0 f6 f7
  have hv := hw
  try simp [VOpt.plain, -BitVec.getLsbD_eq_getElem] at hv
  simp [encode, armOf, arms00, Instr.privileged, hw, hv, f0, f6, f7, -BitVec.getLsbD_eq_getElem]
theorem sel (h : Hdr) (d a b : SReg) (c : PReg) : Statement (.sel h d a b c) := by
  refine .inr (fun hw priv hr => ?_)
  simp only [Instr.wf, Instr.hdr?, Instr.operandsWf, Bool.and_eq_true] at hw
  have hv := hw
  try simp [VOpt.plain, -BitVec.getLsbD_eq_getElem] at hv
  simp [encode, armOf, arms00, Instr.privileged, hw, hv, -BitVec.getLsbD_eq_getElem]
theorem mov (h : Hdr) (d a : SReg) : Statement (.mov h d a) := by
  refine .inr (fun hw priv hr => ?_)
  simp only [Instr.wf, Instr.hdr?, Instr.operandsWf, Bool.and_eq_true] at hw
  have hv := hw
  try simp [VOpt.plain, -BitVec.getLsbD_eq_getElem] at hv
  simp [encode, armOf, arms00, Instr.privileged, hw, hv, -BitVec.getLsbD_eq_getElem]
theorem lea (h : Hdr) (d : SReg) (mem : MemOp) : Statement (.lea h d mem) := by
  refine .inr (fun hw priv hr => ?_)
  simp only [Instr.wf, Instr.hdr?, Instr.operandsWf, Bool.and_eq_true] at hw
  have hv := hw
  try simp [VOpt.plain, -BitVec.getLsbD_eq_getElem] at hv
  simp [encode, armOf, arms00, Instr.privileged, hw, hv, mop, -BitVec.getLsbD_eq_getElem]
theorem padd (h : Hdr) (d a b : SReg) (imm : BitVec 14) : Statement (.padd h d a b imm) := by
  refine .inr (fun hw priv hr => ?_)
  simp only [Instr.wf, Instr.hdr?, Instr.operandsWf, Bool.and_eq_true] at hw
  have hv := hw
  try simp [VOpt.plain, -BitVec.getLsbD_eq_getElem] at hv
  simp [encode, armOf, arms00, Instr.privileged, hw, hv, -BitVec.getLsbD_eq_getElem]
theorem pidx (h : Hdr) (d a : SReg) : Statement (.pidx h d a) := by
  refine .inr (fun hw priv hr => ?_)
  simp only [Instr.wf, Instr.hdr?, Instr.operandsWf, Bool.and_eq_true] at hw
  have hv := hw
  try simp [VOpt.plain, -BitVec.getLsbD_eq_getElem] at hv
  simp [encode, armOf, arms00, Instr.privileged, hw, hv, -BitVec.getLsbD_eq_getElem]
theorem pidxSet (h : Hdr) (d a b : SReg) : Statement (.pidxSet h d a b) := by
  refine .inr (fun hw priv hr => ?_)
  simp only [Instr.wf, Instr.hdr?, Instr.operandsWf, Bool.and_eq_true] at hw
  have hv := hw
  try simp [VOpt.plain, -BitVec.getLsbD_eq_getElem] at hv
  simp [encode, armOf, arms00, Instr.privileged, hw, hv, -BitVec.getLsbD_eq_getElem]
theorem cmpEq (h : Hdr) (d : PReg) (a b : SReg) : Statement (.cmpEq h d a b) := by
  refine .inr (fun hw priv hr => ?_)
  simp only [Instr.wf, Instr.hdr?, Instr.operandsWf, Bool.and_eq_true] at hw
  have hv := hw
  try simp [VOpt.plain, -BitVec.getLsbD_eq_getElem] at hv
  simp [encode, armOf, arms01, Instr.privileged, hw, hv, -BitVec.getLsbD_eq_getElem]
theorem cmpNe (h : Hdr) (d : PReg) (a b : SReg) : Statement (.cmpNe h d a b) := by
  refine .inr (fun hw priv hr => ?_)
  simp only [Instr.wf, Instr.hdr?, Instr.operandsWf, Bool.and_eq_true] at hw
  have hv := hw
  try simp [VOpt.plain, -BitVec.getLsbD_eq_getElem] at hv
  simp [encode, armOf, arms01, Instr.privileged, hw, hv, -BitVec.getLsbD_eq_getElem]
theorem cmpLt (h : Hdr) (d : PReg) (a b : SReg) : Statement (.cmpLt h d a b) := by
  refine .inr (fun hw priv hr => ?_)
  simp only [Instr.wf, Instr.hdr?, Instr.operandsWf, Bool.and_eq_true] at hw
  have hv := hw
  try simp [VOpt.plain, -BitVec.getLsbD_eq_getElem] at hv
  simp [encode, armOf, arms01, Instr.privileged, hw, hv, -BitVec.getLsbD_eq_getElem]
theorem cmpLe (h : Hdr) (d : PReg) (a b : SReg) : Statement (.cmpLe h d a b) := by
  refine .inr (fun hw priv hr => ?_)
  simp only [Instr.wf, Instr.hdr?, Instr.operandsWf, Bool.and_eq_true] at hw
  have hv := hw
  try simp [VOpt.plain, -BitVec.getLsbD_eq_getElem] at hv
  simp [encode, armOf, arms01, Instr.privileged, hw, hv, -BitVec.getLsbD_eq_getElem]
theorem cmpLtu (h : Hdr) (d : PReg) (a b : SReg) : Statement (.cmpLtu h d a b) := by
  refine .inr (fun hw priv hr => ?_)
  simp only [Instr.wf, Instr.hdr?, Instr.operandsWf, Bool.and_eq_true] at hw
  have hv := hw
  try simp [VOpt.plain, -BitVec.getLsbD_eq_getElem] at hv
  simp [encode, armOf, arms01, Instr.privileged, hw, hv, -BitVec.getLsbD_eq_getElem]
theorem cmpLeu (h : Hdr) (d : PReg) (a b : SReg) : Statement (.cmpLeu h d a b) := by
  refine .inr (fun hw priv hr => ?_)
  simp only [Instr.wf, Instr.hdr?, Instr.operandsWf, Bool.and_eq_true] at hw
  have hv := hw
  try simp [VOpt.plain, -BitVec.getLsbD_eq_getElem] at hv
  simp [encode, armOf, arms01, Instr.privileged, hw, hv, -BitVec.getLsbD_eq_getElem]
theorem pand (h : Hdr) (d a b : PReg) : Statement (.pand h d a b) := by
  refine .inr (fun hw priv hr => ?_)
  simp only [Instr.wf, Instr.hdr?, Instr.operandsWf, Bool.and_eq_true] at hw
  have hv := hw
  try simp [VOpt.plain, -BitVec.getLsbD_eq_getElem] at hv
  simp [encode, armOf, arms01, Instr.privileged, hw, hv, -BitVec.getLsbD_eq_getElem]
theorem por (h : Hdr) (d a b : PReg) : Statement (.por h d a b) := by
  refine .inr (fun hw priv hr => ?_)
  simp only [Instr.wf, Instr.hdr?, Instr.operandsWf, Bool.and_eq_true] at hw
  have hv := hw
  try simp [VOpt.plain, -BitVec.getLsbD_eq_getElem] at hv
  simp [encode, armOf, arms01, Instr.privileged, hw, hv, -BitVec.getLsbD_eq_getElem]
theorem pnot (h : Hdr) (d a : PReg) : Statement (.pnot h d a) := by
  refine .inr (fun hw priv hr => ?_)
  simp only [Instr.wf, Instr.hdr?, Instr.operandsWf, Bool.and_eq_true] at hw
  have hv := hw
  try simp [VOpt.plain, -BitVec.getLsbD_eq_getElem] at hv
  simp [encode, armOf, arms01, Instr.privileged, hw, hv, -BitVec.getLsbD_eq_getElem]
theorem ldi (h : Hdr) (d : SReg) (imm : Word) : Statement (.ldi h d imm) := by
  refine .inr (fun hw priv hr => ?_)
  simp only [Instr.wf, Instr.hdr?, Instr.operandsWf, Bool.and_eq_true] at hw
  have hv := hw
  try simp [VOpt.plain, -BitVec.getLsbD_eq_getElem] at hv
  simp [encode, armOf, arms08, Instr.privileged, hw, hv, encI_imm, -BitVec.getLsbD_eq_getElem]
theorem addi (h : Hdr) (d a : SReg) (imm : Word) : Statement (.addi h d a imm) := by
  refine .inr (fun hw priv hr => ?_)
  simp only [Instr.wf, Instr.hdr?, Instr.operandsWf, Bool.and_eq_true] at hw
  have hv := hw
  try simp [VOpt.plain, -BitVec.getLsbD_eq_getElem] at hv
  simp [encode, armOf, arms08, Instr.privileged, hw, hv, encI_imm, -BitVec.getLsbD_eq_getElem]
theorem andi (h : Hdr) (d a : SReg) (imm : Word) : Statement (.andi h d a imm) := by
  refine .inr (fun hw priv hr => ?_)
  simp only [Instr.wf, Instr.hdr?, Instr.operandsWf, Bool.and_eq_true] at hw
  have hv := hw
  try simp [VOpt.plain, -BitVec.getLsbD_eq_getElem] at hv
  simp [encode, armOf, arms08, Instr.privileged, hw, hv, encI_imm, -BitVec.getLsbD_eq_getElem]
theorem ori (h : Hdr) (d a : SReg) (imm : Word) : Statement (.ori h d a imm) := by
  refine .inr (fun hw priv hr => ?_)
  simp only [Instr.wf, Instr.hdr?, Instr.operandsWf, Bool.and_eq_true] at hw
  have hv := hw
  try simp [VOpt.plain, -BitVec.getLsbD_eq_getElem] at hv
  simp [encode, armOf, arms08, Instr.privileged, hw, hv, encI_imm, -BitVec.getLsbD_eq_getElem]
theorem xori (h : Hdr) (d a : SReg) (imm : Word) : Statement (.xori h d a imm) := by
  refine .inr (fun hw priv hr => ?_)
  simp only [Instr.wf, Instr.hdr?, Instr.operandsWf, Bool.and_eq_true] at hw
  have hv := hw
  try simp [VOpt.plain, -BitVec.getLsbD_eq_getElem] at hv
  simp [encode, armOf, arms08, Instr.privileged, hw, hv, encI_imm, -BitVec.getLsbD_eq_getElem]
theorem shli (h : Hdr) (d a : SReg) (n : BitVec 6) : Statement (.shli h d a n) := by
  refine .inr (fun hw priv hr => ?_)
  simp only [Instr.wf, Instr.hdr?, Instr.operandsWf, Bool.and_eq_true] at hw
  have hv := hw
  try simp [VOpt.plain, -BitVec.getLsbD_eq_getElem] at hv
  simp [encode, armOf, arms08, Instr.privileged, hw, hv, encI_imm, -BitVec.getLsbD_eq_getElem]
theorem shri (h : Hdr) (d a : SReg) (n : BitVec 6) : Statement (.shri h d a n) := by
  refine .inr (fun hw priv hr => ?_)
  simp only [Instr.wf, Instr.hdr?, Instr.operandsWf, Bool.and_eq_true] at hw
  have hv := hw
  try simp [VOpt.plain, -BitVec.getLsbD_eq_getElem] at hv
  simp [encode, armOf, arms08, Instr.privileged, hw, hv, encI_imm, -BitVec.getLsbD_eq_getElem]
theorem srai (h : Hdr) (d a : SReg) (n : BitVec 6) : Statement (.srai h d a n) := by
  refine .inr (fun hw priv hr => ?_)
  simp only [Instr.wf, Instr.hdr?, Instr.operandsWf, Bool.and_eq_true] at hw
  have hv := hw
  try simp [VOpt.plain, -BitVec.getLsbD_eq_getElem] at hv
  simp [encode, armOf, arms08, Instr.privileged, hw, hv, encI_imm, -BitVec.getLsbD_eq_getElem]
theorem cmpiEq (h : Hdr) (d : PReg) (a : SReg) (imm : Word) : Statement (.cmpiEq h d a imm) := by
  refine .inr (fun hw priv hr => ?_)
  simp only [Instr.wf, Instr.hdr?, Instr.operandsWf, Bool.and_eq_true] at hw
  have hv := hw
  try simp [VOpt.plain, -BitVec.getLsbD_eq_getElem] at hv
  simp [encode, armOf, arms08, Instr.privileged, hw, hv, encI_imm, -BitVec.getLsbD_eq_getElem]
theorem cmpiNe (h : Hdr) (d : PReg) (a : SReg) (imm : Word) : Statement (.cmpiNe h d a imm) := by
  refine .inr (fun hw priv hr => ?_)
  simp only [Instr.wf, Instr.hdr?, Instr.operandsWf, Bool.and_eq_true] at hw
  have hv := hw
  try simp [VOpt.plain, -BitVec.getLsbD_eq_getElem] at hv
  simp [encode, armOf, arms08, Instr.privileged, hw, hv, encI_imm, -BitVec.getLsbD_eq_getElem]
theorem cmpiLt (h : Hdr) (d : PReg) (a : SReg) (imm : Word) : Statement (.cmpiLt h d a imm) := by
  refine .inr (fun hw priv hr => ?_)
  simp only [Instr.wf, Instr.hdr?, Instr.operandsWf, Bool.and_eq_true] at hw
  have hv := hw
  try simp [VOpt.plain, -BitVec.getLsbD_eq_getElem] at hv
  simp [encode, armOf, arms08, Instr.privileged, hw, hv, encI_imm, -BitVec.getLsbD_eq_getElem]
theorem cmpiLe (h : Hdr) (d : PReg) (a : SReg) (imm : Word) : Statement (.cmpiLe h d a imm) := by
  refine .inr (fun hw priv hr => ?_)
  simp only [Instr.wf, Instr.hdr?, Instr.operandsWf, Bool.and_eq_true] at hw
  have hv := hw
  try simp [VOpt.plain, -BitVec.getLsbD_eq_getElem] at hv
  simp [encode, armOf, arms08, Instr.privileged, hw, hv, encI_imm, -BitVec.getLsbD_eq_getElem]
theorem cmpiLtu (h : Hdr) (d : PReg) (a : SReg) (imm : Word) : Statement (.cmpiLtu h d a imm) := by
  refine .inr (fun hw priv hr => ?_)
  simp only [Instr.wf, Instr.hdr?, Instr.operandsWf, Bool.and_eq_true] at hw
  have hv := hw
  try simp [VOpt.plain, -BitVec.getLsbD_eq_getElem] at hv
  simp [encode, armOf, arms08, Instr.privileged, hw, hv, encI_imm, -BitVec.getLsbD_eq_getElem]
theorem cmpiLeu (h : Hdr) (d : PReg) (a : SReg) (imm : Word) : Statement (.cmpiLeu h d a imm) := by
  refine .inr (fun hw priv hr => ?_)
  simp only [Instr.wf, Instr.hdr?, Instr.operandsWf, Bool.and_eq_true] at hw
  have hv := hw
  try simp [VOpt.plain, -BitVec.getLsbD_eq_getElem] at hv
  simp [encode, armOf, arms08, Instr.privileged, hw, hv, encI_imm, -BitVec.getLsbD_eq_getElem]
theorem br (h : Hdr) (imm : BitVec 35) : Statement (.br h imm) := by
  refine .inr (fun hw priv hr => ?_)
  simp only [Instr.wf, Instr.hdr?, Instr.operandsWf, Bool.and_eq_true] at hw
  have hv := hw
  try simp [VOpt.plain, -BitVec.getLsbD_eq_getElem] at hv
  simp [encode, armOf, arms10, Instr.privileged, hw, hv, -BitVec.getLsbD_eq_getElem]
theorem jmp (h : Hdr) (imm : BitVec 35) : Statement (.jmp h imm) := by
  refine .inr (fun hw priv hr => ?_)
  simp only [Instr.wf, Instr.hdr?, Instr.operandsWf, Bool.and_eq_true] at hw
  have hv := hw
  try simp [VOpt.plain, -BitVec.getLsbD_eq_getElem] at hv
  simp [encode, armOf, arms10, Instr.privileged, hw, hv, -BitVec.getLsbD_eq_getElem]
theorem call (h : Hdr) (a : SReg) (imm : BitVec 35) : Statement (.call h a imm) := by
  refine .inr (fun hw priv hr => ?_)
  simp only [Instr.wf, Instr.hdr?, Instr.operandsWf, Bool.and_eq_true] at hw
  have hv := hw
  try simp [VOpt.plain, -BitVec.getLsbD_eq_getElem] at hv
  simp [encode, armOf, arms10, Instr.privileged, hw, hv, -BitVec.getLsbD_eq_getElem]
theorem loop (h : Hdr) (a : SReg) (imm : BitVec 35) : Statement (.loop h a imm) := by
  refine .inr (fun hw priv hr => ?_)
  simp only [Instr.wf, Instr.hdr?, Instr.operandsWf, Bool.and_eq_true] at hw
  have hv := hw
  try simp [VOpt.plain, -BitVec.getLsbD_eq_getElem] at hv
  simp [encode, armOf, arms10, Instr.privileged, hw, hv, -BitVec.getLsbD_eq_getElem]
theorem jr (h : Hdr) (a : SReg) : Statement (.jr h a) := by
  refine .inr (fun hw priv hr => ?_)
  simp only [Instr.wf, Instr.hdr?, Instr.operandsWf, Bool.and_eq_true] at hw
  have hv := hw
  try simp [VOpt.plain, -BitVec.getLsbD_eq_getElem] at hv
  simp [encode, armOf, arms10, Instr.privileged, hw, hv, -BitVec.getLsbD_eq_getElem]
theorem ret (h : Hdr) (a : SReg) : Statement (.ret h a) := by
  refine .inr (fun hw priv hr => ?_)
  simp only [Instr.wf, Instr.hdr?, Instr.operandsWf, Bool.and_eq_true] at hw
  have hv := hw
  try simp [VOpt.plain, -BitVec.getLsbD_eq_getElem] at hv
  simp [encode, armOf, arms10, Instr.privileged, hw, hv, -BitVec.getLsbD_eq_getElem]
theorem yield (h : Hdr) : Statement (.yield h) := by
  refine .inr (fun hw priv hr => ?_)
  simp only [Instr.wf, Instr.hdr?, Instr.operandsWf, Bool.and_eq_true] at hw
  have hv := hw
  try simp [VOpt.plain, -BitVec.getLsbD_eq_getElem] at hv
  simp [encode, armOf, arms10, Instr.privileged, hw, hv, -BitVec.getLsbD_eq_getElem]
theorem halt (h : Hdr) : Statement (.halt h) := by
  refine .inr (fun hw priv hr => ?_)
  simp only [Instr.wf, Instr.hdr?, Instr.operandsWf, Bool.and_eq_true] at hw
  have hv := hw
  try simp [VOpt.plain, -BitVec.getLsbD_eq_getElem] at hv
  simp [encode, armOf, arms10, Instr.privileged, hw, hv, -BitVec.getLsbD_eq_getElem]
theorem bkpt (h : Hdr) (code : BitVec 14) : Statement (.bkpt h code) := by
  refine .inr (fun hw priv hr => ?_)
  simp only [Instr.wf, Instr.hdr?, Instr.operandsWf, Bool.and_eq_true] at hw
  have hv := hw
  try simp [VOpt.plain, -BitVec.getLsbD_eq_getElem] at hv
  simp [encode, armOf, arms10, Instr.privileged, hw, hv, -BitVec.getLsbD_eq_getElem]
theorem waitn (h : Hdr) (lq sq vq : BitVec 6) (mq cq : BitVec 5) : Statement (.waitn h lq sq vq mq cq) := by
  refine .inr (fun hw priv hr => ?_)
  simp only [Instr.wf, Instr.hdr?, Instr.operandsWf, Bool.and_eq_true] at hw
  have hv := hw
  try simp [VOpt.plain, -BitVec.getLsbD_eq_getElem] at hv
  simp [encode, armOf, arms10, Instr.privileged, hw, hv, encI_imm, -BitVec.getLsbD_eq_getElem]
theorem entryStart (c : Nat) (q : QId) : Statement (.entryStart c q) := .inl rfl
theorem entryComplete (c : Nat) (q : QId) (k : Nat) (r : Reply) : Statement (.entryComplete c q k r) := .inl rfl
theorem l1WriteBack (c line : Nat) : Statement (.l1WriteBack c line) := .inl rfl
theorem l1Drop (c line : Nat) : Statement (.l1Drop c line) := .inl rfl
theorem promotionRequest (src c : Nat) : Statement (.promotionRequest src c) := .inl rfl
theorem promotionEnd (c : Nat) : Statement (.promotionEnd c) := .inl rfl
theorem gateArrival (asid c g n : Nat) : Statement (.gateArrival asid c g n) := .inl rfl
theorem ringSlotRead (asid : Nat) : Statement (.ringSlotRead asid) := .inl rfl
theorem deferredAccept (p : Nat) : Statement (.deferredAccept p) := .inl rfl
theorem pointFire (p : Nat) : Statement (.pointFire p) := .inl rfl
theorem outOfTurnService (p lid : Nat) : Statement (.outOfTurnService p lid) := .inl rfl
theorem pointStart (c : Nat) : Statement (.pointStart c) := .inl rfl
theorem ptDoneRetire (c : Nat) : Statement (.ptDoneRetire c) := .inl rfl
theorem trapTaken (c : Nat) : Statement (.trapTaken c) := .inl rfl
theorem cutComplete (c : Nat) : Statement (.cutComplete c) := .inl rfl
theorem waitTimeout (c : Nat) (q : QId) (k : Nat) : Statement (.waitTimeout c q k) := .inl rfl
theorem drainTimeout (p lid : Nat) : Statement (.drainTimeout p lid) := .inl rfl
theorem revbWalk (c : Nat) : Statement (.revbWalk c) := .inl rfl
theorem spillEngineMove (c : Nat) : Statement (.spillEngineMove c) := .inl rfl
theorem fltack (p seq : Nat) : Statement (.fltack p seq) := .inl rfl
theorem pagePullRequest (p ctx va : Nat) : Statement (.pagePullRequest p ctx va) := .inl rfl
theorem pullDataArrival (asid va : Nat) (page : PageData) : Statement (.pullDataArrival asid va page) := .inl rfl
theorem forwardedAtomic (p : Nat) (a : FwdAtomic) : Statement (.forwardedAtomic p a) := .inl rfl
theorem redirect (c k dev part : Nat) : Statement (.redirect c k dev part) := .inl rfl
theorem remoteAdmit (op : RemoteOp) : Statement (.remoteAdmit op) := .inl rfl
theorem mcastAggAck (c k : Nat) (members naks : List Nat) (code : Nat) : Statement (.mcastAggAck c k members naks code) := .inl rfl
theorem linkFlitRefused (port : Nat) : Statement (.linkFlitRefused port) := .inl rfl
theorem linkRetrain (port : Nat) (ok : Bool) : Statement (.linkRetrain port ok) := .inl rfl
theorem windowRevoke (p w : Nat) : Statement (.windowRevoke p w) := .inl rfl
theorem windowRetire (p w : Nat) : Statement (.windowRetire p w) := .inl rfl
theorem windowCmdEnd (p : Nat) : Statement (.windowCmdEnd p) := .inl rfl
theorem pcmdSuspend (p lid : Nat) : Statement (.pcmdSuspend p lid) := .inl rfl
theorem suspendDrainEnd (p lid : Nat) : Statement (.suspendDrainEnd p lid) := .inl rfl
theorem pcmdResume (p lid : Nat) : Statement (.pcmdResume p lid) := .inl rfl
theorem pcmdDhalt (p lid : Nat) : Statement (.pcmdDhalt p lid) := .inl rfl
theorem pcmdDrun (p lid : Nat) : Statement (.pcmdDrun p lid) := .inl rfl
theorem pcmdKill (p lid : Nat) : Statement (.pcmdKill p lid) := .inl rfl
theorem roleCommand (p c : Nat) (roles : BitVec 5) (halt : Bool) : Statement (.roleCommand p c roles halt) := .inl rfl
theorem migArm (p : Nat) : Statement (.migArm p) := .inl rfl
theorem migFreeze (p : Nat) : Statement (.migFreeze p) := .inl rfl
theorem freezeComplete (p : Nat) : Statement (.freezeComplete p) := .inl rfl
theorem migSend (p : Nat) : Statement (.migSend p) := .inl rfl
theorem migResume (p : Nat) : Statement (.migResume p) := .inl rfl
theorem migDrain (p : Nat) : Statement (.migDrain p) := .inl rfl
theorem drainComplete (p : Nat) : Statement (.drainComplete p) := .inl rfl
theorem migRelease (p : Nat) : Statement (.migRelease p) := .inl rfl
theorem migAbort (p : Nat) : Statement (.migAbort p) := .inl rfl
theorem doorbellTail (vf asid : Nat) (tail : BitVec 32) : Statement (.doorbellTail vf asid tail) := .inl rfl
theorem rovfClear (vf asid : Nat) : Statement (.rovfClear vf asid) := .inl rfl
theorem nvmeCompletion (c k : Nat) (sc : BitVec 8) (sct : BitVec 3) (data : List Byte) : Statement (.nvmeCompletion c k sc sct data) := .inl rfl
theorem sioCommandTimeout (c k : Nat) : Statement (.sioCommandTimeout c k) := .inl rfl
theorem selfRefreshEnter (stack : Nat) : Statement (.selfRefreshEnter stack) := .inl rfl
theorem selfRefreshExit (stack : Nat) : Statement (.selfRefreshExit stack) := .inl rfl
theorem powerStepDown : Statement (.powerStepDown ) := .inl rfl
theorem powerStepUp : Statement (.powerStepUp ) := .inl rfl
theorem parkRegate (c : Nat) : Statement (.parkRegate c) := .inl rfl
theorem coldStart : Statement (.coldStart ) := .inl rfl
theorem bootStage (r : StageResult) : Statement (.bootStage r) := .inl rfl
theorem startStall : Statement (.startStall ) := .inl rfl
theorem phyReadTest (ch : Nat) : Statement (.phyReadTest ch) := .inl rfl
theorem phyWriteReadTest (ch : Nat) : Statement (.phyWriteReadTest ch) := .inl rfl
theorem phyTestComplete (ch : Nat) (terr : BitVec 34) (tcnt : BitVec 40) : Statement (.phyTestComplete ch terr tcnt) := .inl rfl
theorem phyRdall (ch : Nat) (v : BitVec 7) : Statement (.phyRdall ch v) := .inl rfl
theorem phyWrall (ch : Nat) (v : BitVec 7) : Statement (.phyWrall ch v) := .inl rfl
theorem mdptrWrite (c : Nat) (v : Word) : Statement (.mdptrWrite c v) := .inl rfl
theorem mdvalWrite (c : Nat) (v : Word) : Statement (.mdvalWrite c v) := .inl rfl
theorem pfdropRead (p : Nat) : Statement (.pfdropRead p) := .inl rfl
theorem rdcntRead (p : Nat) : Statement (.rdcntRead p) := .inl rfl
theorem qerrRead (q : Nat) : Statement (.qerrRead q) := .inl rfl
theorem registerWrite (c off : Nat) (v : Word) : Statement (.registerWrite c off v) := .inl rfl
theorem provision (a : ProvArgs) : Statement (.provision a) := .inl rfl
theorem release (p : Nat) : Statement (.release p) := .inl rfl
theorem preset (p : Nat) : Statement (.preset p) := .inl rfl
theorem wreset : Statement (.wreset ) := .inl rfl
theorem telem : Statement (.telem ) := .inl rfl
theorem clrcnt : Statement (.clrcnt ) := .inl rfl
theorem fullreq : Statement (.fullreq ) := .inl rfl
theorem tagfr (n : Nat) : Statement (.tagfr n) := .inl rfl
theorem retire (stack : Nat) : Statement (.retire stack) := .inl rfl
theorem hamletFence (hm : Nat) : Statement (.hamletFence hm) := .inl rfl
theorem unfence (hm : Nat) : Statement (.unfence hm) := .inl rfl
theorem plimit (w : Nat) : Statement (.plimit w) := .inl rfl
theorem attest (nonce : BitVec 256) (p : Nat) : Statement (.attest nonce p) := .inl rfl
theorem trnWrite (ch : Nat) (v : Bool) : Statement (.trnWrite ch v) := .inl rfl
theorem clockStepChange (mhz : Nat) : Statement (.clockStepChange mhz) := .inl rfl
theorem powerLoss : Statement (.powerLoss ) := .inl rfl
theorem routeReturns (port : Nat) : Statement (.routeReturns port) := .inl rfl
theorem imageSent (p : Nat) : Statement (.imageSent p) := .inl rfl
theorem hostMailboxWrite : Statement (.hostMailboxWrite ) := .inl rfl

end Sys2Proof.Laws.RoundTrip
end

