-- ==== Sys2Proof/Laws/State.lean ====
section
/-! SUPPORT. One lemma for each field of the state under each of the named updates, and the laws of reading a core back. -/

namespace Sys2Proof.Machine

-- ### Cores of the module

@[simp] theorem State.core_setCore (s : State) (c : Nat) (k : CoreSt) : (s.setCore c k).core c = k := SMap.get_set_same ..
theorem State.core_setCore_ne (s : State) (c d : Nat) (k : CoreSt) (h : d ≠ c) : (s.setCore c k).core d = s.core d := SMap.get_set_ne _ _ _ _ _ h
@[simp] theorem State.setCore_setCore (s : State) (c : Nat) (k l : CoreSt) : (s.setCore c k).setCore c l = s.setCore c l := by
  simp [State.setCore]
@[simp] theorem State.core_modCore (s : State) (c : Nat) (f : CoreSt → CoreSt) : (s.modCore c f).core c = f (s.core c) := by simp [State.modCore]
theorem State.core_modCore_ne (s : State) (c d : Nat) (f : CoreSt → CoreSt) (h : d ≠ c) : (s.modCore c f).core d = s.core d :=
  State.core_setCore_ne _ _ _ _ h
@[simp] theorem State.modCore_setCore (s : State) (c : Nat) (k : CoreSt) (f : CoreSt → CoreSt) : (s.setCore c k).modCore c f = s.setCore c (f k) := by
  simp [State.modCore]
@[simp] theorem State.modCore_modCore (s : State) (c : Nat) (f g : CoreSt → CoreSt) : (s.modCore c f).modCore c g = s.modCore c (fun k => g (f k)) := by
  simp [State.modCore]
@[simp] theorem State.part_setPart (s : State) (p : Nat) (k : Part) : (s.setPart p k).part p = k := SMap.get_set_same ..
theorem State.part_setPart_ne (s : State) (p q : Nat) (k : Part) (h : q ≠ p) : (s.setPart p k).part q = s.part q := SMap.get_set_ne _ _ _ _ _ h

@[simp] theorem State.active_setCore (s : State) (c : Nat) (k : CoreSt) : (s.setCore c k).active = s.active := rfl
@[simp] theorem State.author_setCore (s : State) (c : Nat) (k : CoreSt) : (s.setCore c k).author = s.author := rfl
@[simp] theorem State.writes_setCore (s : State) (c : Nat) (k : CoreSt) : (s.setCore c k).writes = s.writes := rfl
@[simp] theorem State.agenda_setCore (s : State) (c : Nat) (k : CoreSt) : (s.setCore c k).agenda = s.agenda := rfl
@[simp] theorem State.eager_setCore (s : State) (c : Nat) (k : CoreSt) : (s.setCore c k).eager = s.eager := rfl
@[simp] theorem State.tick_setCore (s : State) (c : Nat) (k : CoreSt) : (s.setCore c k).tick = s.tick := rfl
@[simp] theorem State.cycle_setCore (s : State) (c : Nat) (k : CoreSt) : (s.setCore c k).cycle = s.cycle := rfl
@[simp] theorem State.mem_setCore (s : State) (c : Nat) (k : CoreSt) : (s.setCore c k).mem = s.mem := rfl
@[simp] theorem State.lines_setCore (s : State) (c : Nat) (k : CoreSt) : (s.setCore c k).lines = s.lines := rfl
@[simp] theorem State.tags_setCore (s : State) (c : Nat) (k : CoreSt) : (s.setCore c k).tags = s.tags := rfl
@[simp] theorem State.hmem_setCore (s : State) (c : Nat) (k : CoreSt) : (s.setCore c k).hmem = s.hmem := rfl
@[simp] theorem State.commons_setCore (s : State) (c : Nat) (k : CoreSt) : (s.setCore c k).commons = s.commons := rfl
@[simp] theorem State.keys_setCore (s : State) (c : Nat) (k : CoreSt) : (s.setCore c k).keys = s.keys := rfl
@[simp] theorem State.gates_setCore (s : State) (c : Nat) (k : CoreSt) : (s.setCore c k).gates = s.gates := rfl
@[simp] theorem State.gateAsid_setCore (s : State) (c : Nat) (k : CoreSt) : (s.setCore c k).gateAsid = s.gateAsid := rfl
@[simp] theorem State.parts_setCore (s : State) (c : Nat) (k : CoreSt) : (s.setCore c k).parts = s.parts := rfl
@[simp] theorem State.tlb2_setCore (s : State) (c : Nat) (k : CoreSt) : (s.setCore c k).tlb2 = s.tlb2 := rfl
@[simp] theorem State.tlb3_setCore (s : State) (c : Nat) (k : CoreSt) : (s.setCore c k).tlb3 = s.tlb3 := rfl
@[simp] theorem State.wheld_setCore (s : State) (c : Nat) (k : CoreSt) : (s.setCore c k).wheld = s.wheld := rfl
@[simp] theorem State.rota_setCore (s : State) (c : Nat) (k : CoreSt) : (s.setCore c k).rota = s.rota := rfl
@[simp] theorem State.frames_setCore (s : State) (c : Nat) (k : CoreSt) : (s.setCore c k).frames = s.frames := rfl
@[simp] theorem State.devid_setCore (s : State) (c : Nat) (k : CoreSt) : (s.setCore c k).devid = s.devid := rfl
@[simp] theorem State.mden_setCore (s : State) (c : Nat) (k : CoreSt) : (s.setCore c k).mden = s.mden := rfl
@[simp] theorem State.tagfr_setCore (s : State) (c : Nat) (k : CoreSt) : (s.setCore c k).tagfr = s.tagfr := rfl
@[simp] theorem State.pulls_setCore (s : State) (c : Nat) (k : CoreSt) : (s.setCore c k).pulls = s.pulls := rfl
@[simp] theorem State.pullGone_setCore (s : State) (c : Nat) (k : CoreSt) : (s.setCore c k).pullGone = s.pullGone := rfl
@[simp] theorem State.msix_setCore (s : State) (c : Nat) (k : CoreSt) : (s.setCore c k).msix = s.msix := rfl
@[simp] theorem State.atomLog_setCore (s : State) (c : Nat) (k : CoreSt) : (s.setCore c k).atomLog = s.atomLog := rfl
@[simp] theorem State.reports_setCore (s : State) (c : Nat) (k : CoreSt) : (s.setCore c k).reports = s.reports := rfl
@[simp] theorem State.tier_setCore (s : State) (c : Nat) (k : CoreSt) : (s.setCore c k).tier = s.tier := rfl
@[simp] theorem State.dbg_setCore (s : State) (c : Nat) (k : CoreSt) : (s.setCore c k).dbg = s.dbg := rfl
@[simp] theorem State.lbad_setCore (s : State) (c : Nat) (k : CoreSt) : (s.setCore c k).lbad = s.lbad := rfl
@[simp] theorem State.forms_setCore (s : State) (c : Nat) (k : CoreSt) : (s.setCore c k).forms = s.forms := rfl
@[simp] theorem State.hbm_setCore (s : State) (c : Nat) (k : CoreSt) : (s.setCore c k).hbm = s.hbm := rfl
@[simp] theorem State.stor_setCore (s : State) (c : Nat) (k : CoreSt) : (s.setCore c k).stor = s.stor := rfl
@[simp] theorem State.fab_setCore (s : State) (c : Nat) (k : CoreSt) : (s.setCore c k).fab = s.fab := rfl
@[simp] theorem State.mgmt_setCore (s : State) (c : Nat) (k : CoreSt) : (s.setCore c k).mgmt = s.mgmt := rfl

@[simp] theorem State.active_modCore (s : State) (c : Nat) (f : CoreSt → CoreSt) : (s.modCore c f).active = s.active := rfl
@[simp] theorem State.author_modCore (s : State) (c : Nat) (f : CoreSt → CoreSt) : (s.modCore c f).author = s.author := rfl
@[simp] theorem State.writes_modCore (s : State) (c : Nat) (f : CoreSt → CoreSt) : (s.modCore c f).writes = s.writes := rfl
@[simp] theorem State.agenda_modCore (s : State) (c : Nat) (f : CoreSt → CoreSt) : (s.modCore c f).agenda = s.agenda := rfl
@[simp] theorem State.eager_modCore (s : State) (c : Nat) (f : CoreSt → CoreSt) : (s.modCore c f).eager = s.eager := rfl
@[simp] theorem State.tick_modCore (s : State) (c : Nat) (f : CoreSt → CoreSt) : (s.modCore c f).tick = s.tick := rfl
@[simp] theorem State.cycle_modCore (s : State) (c : Nat) (f : CoreSt → CoreSt) : (s.modCore c f).cycle = s.cycle := rfl
@[simp] theorem State.mem_modCore (s : State) (c : Nat) (f : CoreSt → CoreSt) : (s.modCore c f).mem = s.mem := rfl
@[simp] theorem State.lines_modCore (s : State) (c : Nat) (f : CoreSt → CoreSt) : (s.modCore c f).lines = s.lines := rfl
@[simp] theorem State.tags_modCore (s : State) (c : Nat) (f : CoreSt → CoreSt) : (s.modCore c f).tags = s.tags := rfl
@[simp] theorem State.hmem_modCore (s : State) (c : Nat) (f : CoreSt → CoreSt) : (s.modCore c f).hmem = s.hmem := rfl
@[simp] theorem State.commons_modCore (s : State) (c : Nat) (f : CoreSt → CoreSt) : (s.modCore c f).commons = s.commons := rfl
@[simp] theorem State.keys_modCore (s : State) (c : Nat) (f : CoreSt → CoreSt) : (s.modCore c f).keys = s.keys := rfl
@[simp] theorem State.gates_modCore (s : State) (c : Nat) (f : CoreSt → CoreSt) : (s.modCore c f).gates = s.gates := rfl
@[simp] theorem State.gateAsid_modCore (s : State) (c : Nat) (f : CoreSt → CoreSt) : (s.modCore c f).gateAsid = s.gateAsid := rfl
@[simp] theorem State.parts_modCore (s : State) (c : Nat) (f : CoreSt → CoreSt) : (s.modCore c f).parts = s.parts := rfl
@[simp] theorem State.tlb2_modCore (s : State) (c : Nat) (f : CoreSt → CoreSt) : (s.modCore c f).tlb2 = s.tlb2 := rfl
@[simp] theorem State.tlb3_modCore (s : State) (c : Nat) (f : CoreSt → CoreSt) : (s.modCore c f).tlb3 = s.tlb3 := rfl
@[simp] theorem State.wheld_modCore (s : State) (c : Nat) (f : CoreSt → CoreSt) : (s.modCore c f).wheld = s.wheld := rfl
@[simp] theorem State.rota_modCore (s : State) (c : Nat) (f : CoreSt → CoreSt) : (s.modCore c f).rota = s.rota := rfl
@[simp] theorem State.frames_modCore (s : State) (c : Nat) (f : CoreSt → CoreSt) : (s.modCore c f).frames = s.frames := rfl
@[simp] theorem State.devid_modCore (s : State) (c : Nat) (f : CoreSt → CoreSt) : (s.modCore c f).devid = s.devid := rfl
@[simp] theorem State.mden_modCore (s : State) (c : Nat) (f : CoreSt → CoreSt) : (s.modCore c f).mden = s.mden := rfl
@[simp] theorem State.tagfr_modCore (s : State) (c : Nat) (f : CoreSt → CoreSt) : (s.modCore c f).tagfr = s.tagfr := rfl
@[simp] theorem State.pulls_modCore (s : State) (c : Nat) (f : CoreSt → CoreSt) : (s.modCore c f).pulls = s.pulls := rfl
@[simp] theorem State.pullGone_modCore (s : State) (c : Nat) (f : CoreSt → CoreSt) : (s.modCore c f).pullGone = s.pullGone := rfl
@[simp] theorem State.msix_modCore (s : State) (c : Nat) (f : CoreSt → CoreSt) : (s.modCore c f).msix = s.msix := rfl
@[simp] theorem State.atomLog_modCore (s : State) (c : Nat) (f : CoreSt → CoreSt) : (s.modCore c f).atomLog = s.atomLog := rfl
@[simp] theorem State.reports_modCore (s : State) (c : Nat) (f : CoreSt → CoreSt) : (s.modCore c f).reports = s.reports := rfl
@[simp] theorem State.tier_modCore (s : State) (c : Nat) (f : CoreSt → CoreSt) : (s.modCore c f).tier = s.tier := rfl
@[simp] theorem State.dbg_modCore (s : State) (c : Nat) (f : CoreSt → CoreSt) : (s.modCore c f).dbg = s.dbg := rfl
@[simp] theorem State.lbad_modCore (s : State) (c : Nat) (f : CoreSt → CoreSt) : (s.modCore c f).lbad = s.lbad := rfl
@[simp] theorem State.forms_modCore (s : State) (c : Nat) (f : CoreSt → CoreSt) : (s.modCore c f).forms = s.forms := rfl
@[simp] theorem State.hbm_modCore (s : State) (c : Nat) (f : CoreSt → CoreSt) : (s.modCore c f).hbm = s.hbm := rfl
@[simp] theorem State.stor_modCore (s : State) (c : Nat) (f : CoreSt → CoreSt) : (s.modCore c f).stor = s.stor := rfl
@[simp] theorem State.fab_modCore (s : State) (c : Nat) (f : CoreSt → CoreSt) : (s.modCore c f).fab = s.fab := rfl
@[simp] theorem State.mgmt_modCore (s : State) (c : Nat) (f : CoreSt → CoreSt) : (s.modCore c f).mgmt = s.mgmt := rfl

@[simp] theorem State.cores_setPart (s : State) (p : Nat) (k : Part) : (s.setPart p k).cores = s.cores := rfl
@[simp] theorem State.active_setPart (s : State) (p : Nat) (k : Part) : (s.setPart p k).active = s.active := rfl
@[simp] theorem State.author_setPart (s : State) (p : Nat) (k : Part) : (s.setPart p k).author = s.author := rfl
@[simp] theorem State.writes_setPart (s : State) (p : Nat) (k : Part) : (s.setPart p k).writes = s.writes := rfl
@[simp] theorem State.agenda_setPart (s : State) (p : Nat) (k : Part) : (s.setPart p k).agenda = s.agenda := rfl
@[simp] theorem State.eager_setPart (s : State) (p : Nat) (k : Part) : (s.setPart p k).eager = s.eager := rfl
@[simp] theorem State.tick_setPart (s : State) (p : Nat) (k : Part) : (s.setPart p k).tick = s.tick := rfl
@[simp] theorem State.cycle_setPart (s : State) (p : Nat) (k : Part) : (s.setPart p k).cycle = s.cycle := rfl
@[simp] theorem State.mem_setPart (s : State) (p : Nat) (k : Part) : (s.setPart p k).mem = s.mem := rfl
@[simp] theorem State.lines_setPart (s : State) (p : Nat) (k : Part) : (s.setPart p k).lines = s.lines := rfl
@[simp] theorem State.tags_setPart (s : State) (p : Nat) (k : Part) : (s.setPart p k).tags = s.tags := rfl
@[simp] theorem State.hmem_setPart (s : State) (p : Nat) (k : Part) : (s.setPart p k).hmem = s.hmem := rfl
@[simp] theorem State.commons_setPart (s : State) (p : Nat) (k : Part) : (s.setPart p k).commons = s.commons := rfl
@[simp] theorem State.keys_setPart (s : State) (p : Nat) (k : Part) : (s.setPart p k).keys = s.keys := rfl
@[simp] theorem State.gates_setPart (s : State) (p : Nat) (k : Part) : (s.setPart p k).gates = s.gates := rfl
@[simp] theorem State.gateAsid_setPart (s : State) (p : Nat) (k : Part) : (s.setPart p k).gateAsid = s.gateAsid := rfl
@[simp] theorem State.tlb2_setPart (s : State) (p : Nat) (k : Part) : (s.setPart p k).tlb2 = s.tlb2 := rfl
@[simp] theorem State.tlb3_setPart (s : State) (p : Nat) (k : Part) : (s.setPart p k).tlb3 = s.tlb3 := rfl
@[simp] theorem State.wheld_setPart (s : State) (p : Nat) (k : Part) : (s.setPart p k).wheld = s.wheld := rfl
@[simp] theorem State.rota_setPart (s : State) (p : Nat) (k : Part) : (s.setPart p k).rota = s.rota := rfl
@[simp] theorem State.frames_setPart (s : State) (p : Nat) (k : Part) : (s.setPart p k).frames = s.frames := rfl
@[simp] theorem State.devid_setPart (s : State) (p : Nat) (k : Part) : (s.setPart p k).devid = s.devid := rfl
@[simp] theorem State.mden_setPart (s : State) (p : Nat) (k : Part) : (s.setPart p k).mden = s.mden := rfl
@[simp] theorem State.tagfr_setPart (s : State) (p : Nat) (k : Part) : (s.setPart p k).tagfr = s.tagfr := rfl
@[simp] theorem State.pulls_setPart (s : State) (p : Nat) (k : Part) : (s.setPart p k).pulls = s.pulls := rfl
@[simp] theorem State.pullGone_setPart (s : State) (p : Nat) (k : Part) : (s.setPart p k).pullGone = s.pullGone := rfl
@[simp] theorem State.msix_setPart (s : State) (p : Nat) (k : Part) : (s.setPart p k).msix = s.msix := rfl
@[simp] theorem State.atomLog_setPart (s : State) (p : Nat) (k : Part) : (s.setPart p k).atomLog = s.atomLog := rfl
@[simp] theorem State.reports_setPart (s : State) (p : Nat) (k : Part) : (s.setPart p k).reports = s.reports := rfl
@[simp] theorem State.tier_setPart (s : State) (p : Nat) (k : Part) : (s.setPart p k).tier = s.tier := rfl
@[simp] theorem State.dbg_setPart (s : State) (p : Nat) (k : Part) : (s.setPart p k).dbg = s.dbg := rfl
@[simp] theorem State.lbad_setPart (s : State) (p : Nat) (k : Part) : (s.setPart p k).lbad = s.lbad := rfl
@[simp] theorem State.forms_setPart (s : State) (p : Nat) (k : Part) : (s.setPart p k).forms = s.forms := rfl
@[simp] theorem State.hbm_setPart (s : State) (p : Nat) (k : Part) : (s.setPart p k).hbm = s.hbm := rfl
@[simp] theorem State.stor_setPart (s : State) (p : Nat) (k : Part) : (s.setPart p k).stor = s.stor := rfl
@[simp] theorem State.fab_setPart (s : State) (p : Nat) (k : Part) : (s.setPart p k).fab = s.fab := rfl
@[simp] theorem State.mgmt_setPart (s : State) (p : Nat) (k : Part) : (s.setPart p k).mgmt = s.mgmt := rfl
@[simp] theorem State.part_setCore (s : State) (c p : Nat) (k : CoreSt) : (s.setCore c k).part p = s.part p := rfl
@[simp] theorem State.core_setPart (s : State) (c p : Nat) (k : Part) : (s.setPart p k).core c = s.core c := rfl
@[simp] theorem State.part_modCore (s : State) (c p : Nat) (f : CoreSt → CoreSt) : (s.modCore c f).part p = s.part p := rfl

-- ### Fields of a core

@[simp] theorem CoreSt.setPc_pend (k : CoreSt) (pc : Word) : (k.setPc pc).pend = k.pend := rfl
@[simp] theorem CoreSt.setPc_hpend (k : CoreSt) (pc : Word) : (k.setPc pc).hpend = k.hpend := rfl
@[simp] theorem CoreSt.setPc_ctl (k : CoreSt) (pc : Word) : (k.setPc pc).ctl = k.ctl := rfl
@[simp] theorem CoreSt.setPc_eng (k : CoreSt) (pc : Word) : (k.setPc pc).eng = k.eng := rfl
@[simp] theorem CoreSt.setPc_loc (k : CoreSt) (pc : Word) : (k.setPc pc).loc = k.loc := rfl
@[simp] theorem CoreSt.setPc_ctx (k : CoreSt) (pc : Word) : (k.setPc pc).ctx = k.ctx := rfl
@[simp] theorem CoreSt.setPc_slot (k : CoreSt) (pc : Word) : (k.setPc pc).slot = k.slot := rfl
@[simp] theorem CoreSt.setPc_res (k : CoreSt) (pc : Word) : (k.setPc pc).res = k.res := rfl
@[simp] theorem CoreSt.setPc_q (k : CoreSt) (pc : Word) : (k.setPc pc).q = k.q := rfl
@[simp] theorem CoreSt.setBlk_pend (k : CoreSt) (b : Blk) : (k.setBlk b).pend = k.pend := rfl
@[simp] theorem CoreSt.setBlk_hpend (k : CoreSt) (b : Blk) : (k.setBlk b).hpend = k.hpend := rfl
@[simp] theorem CoreSt.setBlk_ctl (k : CoreSt) (b : Blk) : (k.setBlk b).ctl = k.ctl := rfl
@[simp] theorem CoreSt.setBlk_eng (k : CoreSt) (b : Blk) : (k.setBlk b).eng = k.eng := rfl
@[simp] theorem CoreSt.setBlk_loc (k : CoreSt) (b : Blk) : (k.setBlk b).loc = k.loc := rfl
@[simp] theorem CoreSt.setBlk_ctx (k : CoreSt) (b : Blk) : (k.setBlk b).ctx = k.ctx := rfl
@[simp] theorem CoreSt.setBlk_slot (k : CoreSt) (b : Blk) : (k.setBlk b).slot = k.slot := rfl
@[simp] theorem CoreSt.setBlk_res (k : CoreSt) (b : Blk) : (k.setBlk b).res = k.res := rfl
@[simp] theorem CoreSt.setBlk_q (k : CoreSt) (b : Blk) : (k.setBlk b).q = k.q := rfl
@[simp] theorem CoreSt.wr_pend (k : CoreSt) (r : SReg) (v : Word) : (k.wr r v).pend = k.pend := rfl
@[simp] theorem CoreSt.wr_hpend (k : CoreSt) (r : SReg) (v : Word) : (k.wr r v).hpend = k.hpend := rfl
@[simp] theorem CoreSt.wr_ctl (k : CoreSt) (r : SReg) (v : Word) : (k.wr r v).ctl = k.ctl := rfl
@[simp] theorem CoreSt.wr_eng (k : CoreSt) (r : SReg) (v : Word) : (k.wr r v).eng = k.eng := rfl
@[simp] theorem CoreSt.wr_loc (k : CoreSt) (r : SReg) (v : Word) : (k.wr r v).loc = k.loc := rfl
@[simp] theorem CoreSt.wr_ctx (k : CoreSt) (r : SReg) (v : Word) : (k.wr r v).ctx = k.ctx := rfl
@[simp] theorem CoreSt.wr_slot (k : CoreSt) (r : SReg) (v : Word) : (k.wr r v).slot = k.slot := rfl
@[simp] theorem CoreSt.wr_res (k : CoreSt) (r : SReg) (v : Word) : (k.wr r v).res = k.res := rfl
@[simp] theorem CoreSt.wr_q (k : CoreSt) (r : SReg) (v : Word) : (k.wr r v).q = k.q := rfl
@[simp] theorem CoreSt.wrP_pend (k : CoreSt) (r : PReg) (b : Bool) : (k.wrP r b).pend = k.pend := rfl
@[simp] theorem CoreSt.wrP_hpend (k : CoreSt) (r : PReg) (b : Bool) : (k.wrP r b).hpend = k.hpend := rfl
@[simp] theorem CoreSt.wrP_ctl (k : CoreSt) (r : PReg) (b : Bool) : (k.wrP r b).ctl = k.ctl := rfl
@[simp] theorem CoreSt.wrP_eng (k : CoreSt) (r : PReg) (b : Bool) : (k.wrP r b).eng = k.eng := rfl
@[simp] theorem CoreSt.wrP_loc (k : CoreSt) (r : PReg) (b : Bool) : (k.wrP r b).loc = k.loc := rfl
@[simp] theorem CoreSt.wrP_ctx (k : CoreSt) (r : PReg) (b : Bool) : (k.wrP r b).ctx = k.ctx := rfl
@[simp] theorem CoreSt.wrP_slot (k : CoreSt) (r : PReg) (b : Bool) : (k.wrP r b).slot = k.slot := rfl
@[simp] theorem CoreSt.wrP_res (k : CoreSt) (r : PReg) (b : Bool) : (k.wrP r b).res = k.res := rfl
@[simp] theorem CoreSt.wrP_q (k : CoreSt) (r : PReg) (b : Bool) : (k.wrP r b).q = k.q := rfl
@[simp] theorem CoreSt.next_pend (k : CoreSt) (h : Hdr) : (k.next h).pend = k.pend := CoreSt.setPc_pend k _
@[simp] theorem CoreSt.next_hpend (k : CoreSt) (h : Hdr) : (k.next h).hpend = k.hpend := CoreSt.setPc_hpend k _
@[simp] theorem CoreSt.next_ctl (k : CoreSt) (h : Hdr) : (k.next h).ctl = k.ctl := CoreSt.setPc_ctl k _
@[simp] theorem CoreSt.next_eng (k : CoreSt) (h : Hdr) : (k.next h).eng = k.eng := CoreSt.setPc_eng k _
@[simp] theorem CoreSt.next_loc (k : CoreSt) (h : Hdr) : (k.next h).loc = k.loc := CoreSt.setPc_loc k _
@[simp] theorem CoreSt.next_ctx (k : CoreSt) (h : Hdr) : (k.next h).ctx = k.ctx := CoreSt.setPc_ctx k _
@[simp] theorem CoreSt.next_slot (k : CoreSt) (h : Hdr) : (k.next h).slot = k.slot := CoreSt.setPc_slot k _
@[simp] theorem CoreSt.next_res (k : CoreSt) (h : Hdr) : (k.next h).res = k.res := CoreSt.setPc_res k _
@[simp] theorem CoreSt.next_q (k : CoreSt) (h : Hdr) : (k.next h).q = k.q := CoreSt.setPc_q k _
@[simp] theorem CoreSt.wrV_f (k : CoreSt) (r : VReg) (x : BitVec 2048) : (k.wrV r x).f = k.f := rfl
@[simp] theorem CoreSt.wrV_pend (k : CoreSt) (r : VReg) (x : BitVec 2048) : (k.wrV r x).pend = k.pend := rfl
@[simp] theorem CoreSt.wrV_hpend (k : CoreSt) (r : VReg) (x : BitVec 2048) : (k.wrV r x).hpend = k.hpend := rfl
@[simp] theorem CoreSt.wrV_ctl (k : CoreSt) (r : VReg) (x : BitVec 2048) : (k.wrV r x).ctl = k.ctl := rfl
@[simp] theorem CoreSt.wrV_loc (k : CoreSt) (r : VReg) (x : BitVec 2048) : (k.wrV r x).loc = k.loc := rfl
@[simp] theorem CoreSt.wrV_ctx (k : CoreSt) (r : VReg) (x : BitVec 2048) : (k.wrV r x).ctx = k.ctx := rfl
@[simp] theorem CoreSt.wrV_slot (k : CoreSt) (r : VReg) (x : BitVec 2048) : (k.wrV r x).slot = k.slot := rfl
@[simp] theorem CoreSt.wrV_res (k : CoreSt) (r : VReg) (x : BitVec 2048) : (k.wrV r x).res = k.res := rfl
@[simp] theorem CoreSt.wrV_q (k : CoreSt) (r : VReg) (x : BitVec 2048) : (k.wrV r x).q = k.q := rfl
@[simp] theorem CoreSt.wrM_f (k : CoreSt) (r : MReg) (x : BitVec 128) : (k.wrM r x).f = k.f := rfl
@[simp] theorem CoreSt.wrM_pend (k : CoreSt) (r : MReg) (x : BitVec 128) : (k.wrM r x).pend = k.pend := rfl
@[simp] theorem CoreSt.wrM_hpend (k : CoreSt) (r : MReg) (x : BitVec 128) : (k.wrM r x).hpend = k.hpend := rfl
@[simp] theorem CoreSt.wrM_ctl (k : CoreSt) (r : MReg) (x : BitVec 128) : (k.wrM r x).ctl = k.ctl := rfl
@[simp] theorem CoreSt.wrM_loc (k : CoreSt) (r : MReg) (x : BitVec 128) : (k.wrM r x).loc = k.loc := rfl
@[simp] theorem CoreSt.wrM_ctx (k : CoreSt) (r : MReg) (x : BitVec 128) : (k.wrM r x).ctx = k.ctx := rfl
@[simp] theorem CoreSt.wrM_slot (k : CoreSt) (r : MReg) (x : BitVec 128) : (k.wrM r x).slot = k.slot := rfl
@[simp] theorem CoreSt.wrM_res (k : CoreSt) (r : MReg) (x : BitVec 128) : (k.wrM r x).res = k.res := rfl
@[simp] theorem CoreSt.wrM_q (k : CoreSt) (r : MReg) (x : BitVec 128) : (k.wrM r x).q = k.q := rfl
@[simp] theorem CoreSt.wrAcc_f (k : CoreSt) (t r c : Nat) (x : AccEl) : (k.wrAcc t r c x).f = k.f := rfl
@[simp] theorem CoreSt.wrAcc_pend (k : CoreSt) (t r c : Nat) (x : AccEl) : (k.wrAcc t r c x).pend = k.pend := rfl
@[simp] theorem CoreSt.wrAcc_hpend (k : CoreSt) (t r c : Nat) (x : AccEl) : (k.wrAcc t r c x).hpend = k.hpend := rfl
@[simp] theorem CoreSt.wrAcc_ctl (k : CoreSt) (t r c : Nat) (x : AccEl) : (k.wrAcc t r c x).ctl = k.ctl := rfl
@[simp] theorem CoreSt.wrAcc_loc (k : CoreSt) (t r c : Nat) (x : AccEl) : (k.wrAcc t r c x).loc = k.loc := rfl
@[simp] theorem CoreSt.wrAcc_ctx (k : CoreSt) (t r c : Nat) (x : AccEl) : (k.wrAcc t r c x).ctx = k.ctx := rfl
@[simp] theorem CoreSt.wrAcc_slot (k : CoreSt) (t r c : Nat) (x : AccEl) : (k.wrAcc t r c x).slot = k.slot := rfl
@[simp] theorem CoreSt.wrAcc_res (k : CoreSt) (t r c : Nat) (x : AccEl) : (k.wrAcc t r c x).res = k.res := rfl
@[simp] theorem CoreSt.wrAcc_q (k : CoreSt) (t r c : Nat) (x : AccEl) : (k.wrAcc t r c x).q = k.q := rfl
@[simp] theorem CoreSt.wrSlot_f (k : CoreSt) (n : LReg) (x : Nest) : (k.wrSlot n x).f = k.f := rfl
@[simp] theorem CoreSt.wrSlot_pend (k : CoreSt) (n : LReg) (x : Nest) : (k.wrSlot n x).pend = k.pend := rfl
@[simp] theorem CoreSt.wrSlot_hpend (k : CoreSt) (n : LReg) (x : Nest) : (k.wrSlot n x).hpend = k.hpend := rfl
@[simp] theorem CoreSt.wrSlot_ctl (k : CoreSt) (n : LReg) (x : Nest) : (k.wrSlot n x).ctl = k.ctl := rfl
@[simp] theorem CoreSt.wrSlot_loc (k : CoreSt) (n : LReg) (x : Nest) : (k.wrSlot n x).loc = k.loc := rfl
@[simp] theorem CoreSt.wrSlot_ctx (k : CoreSt) (n : LReg) (x : Nest) : (k.wrSlot n x).ctx = k.ctx := rfl
@[simp] theorem CoreSt.wrSlot_slot (k : CoreSt) (n : LReg) (x : Nest) : (k.wrSlot n x).slot = k.slot := rfl
@[simp] theorem CoreSt.wrSlot_res (k : CoreSt) (n : LReg) (x : Nest) : (k.wrSlot n x).res = k.res := rfl
@[simp] theorem CoreSt.wrSlot_q (k : CoreSt) (n : LReg) (x : Nest) : (k.wrSlot n x).q = k.q := rfl
@[simp] theorem CoreSt.wrH_f (k : CoreSt) (n : HReg) (x : Handle) : (k.wrH n x).f = k.f := rfl
@[simp] theorem CoreSt.wrH_pend (k : CoreSt) (n : HReg) (x : Handle) : (k.wrH n x).pend = k.pend := rfl
@[simp] theorem CoreSt.wrH_hpend (k : CoreSt) (n : HReg) (x : Handle) : (k.wrH n x).hpend = k.hpend := rfl
@[simp] theorem CoreSt.wrH_ctl (k : CoreSt) (n : HReg) (x : Handle) : (k.wrH n x).ctl = k.ctl := rfl
@[simp] theorem CoreSt.wrH_loc (k : CoreSt) (n : HReg) (x : Handle) : (k.wrH n x).loc = k.loc := rfl
@[simp] theorem CoreSt.wrH_ctx (k : CoreSt) (n : HReg) (x : Handle) : (k.wrH n x).ctx = k.ctx := rfl
@[simp] theorem CoreSt.wrH_slot (k : CoreSt) (n : HReg) (x : Handle) : (k.wrH n x).slot = k.slot := rfl
@[simp] theorem CoreSt.wrH_res (k : CoreSt) (n : HReg) (x : Handle) : (k.wrH n x).res = k.res := rfl
@[simp] theorem CoreSt.wrH_q (k : CoreSt) (n : HReg) (x : Handle) : (k.wrH n x).q = k.q := rfl
@[simp] theorem CoreSt.clrPend_f (k : CoreSt) (r : SReg) : (k.clrPend r).f = k.f := rfl
@[simp] theorem CoreSt.clrPend_hpend (k : CoreSt) (r : SReg) : (k.clrPend r).hpend = k.hpend := rfl
@[simp] theorem CoreSt.clrPend_ctl (k : CoreSt) (r : SReg) : (k.clrPend r).ctl = k.ctl := rfl
@[simp] theorem CoreSt.clrPend_eng (k : CoreSt) (r : SReg) : (k.clrPend r).eng = k.eng := rfl
@[simp] theorem CoreSt.clrPend_loc (k : CoreSt) (r : SReg) : (k.clrPend r).loc = k.loc := rfl
@[simp] theorem CoreSt.clrPend_ctx (k : CoreSt) (r : SReg) : (k.clrPend r).ctx = k.ctx := rfl
@[simp] theorem CoreSt.clrPend_slot (k : CoreSt) (r : SReg) : (k.clrPend r).slot = k.slot := rfl
@[simp] theorem CoreSt.clrPend_res (k : CoreSt) (r : SReg) : (k.clrPend r).res = k.res := rfl
@[simp] theorem CoreSt.clrPend_q (k : CoreSt) (r : SReg) : (k.clrPend r).q = k.q := rfl
@[simp] theorem CoreSt.setHpend_f (k : CoreSt) (r : HReg) : (k.setHpend r).f = k.f := rfl
@[simp] theorem CoreSt.setHpend_pend (k : CoreSt) (r : HReg) : (k.setHpend r).pend = k.pend := rfl
@[simp] theorem CoreSt.setHpend_ctl (k : CoreSt) (r : HReg) : (k.setHpend r).ctl = k.ctl := rfl
@[simp] theorem CoreSt.setHpend_eng (k : CoreSt) (r : HReg) : (k.setHpend r).eng = k.eng := rfl
@[simp] theorem CoreSt.setHpend_loc (k : CoreSt) (r : HReg) : (k.setHpend r).loc = k.loc := rfl
@[simp] theorem CoreSt.setHpend_ctx (k : CoreSt) (r : HReg) : (k.setHpend r).ctx = k.ctx := rfl
@[simp] theorem CoreSt.setHpend_slot (k : CoreSt) (r : HReg) : (k.setHpend r).slot = k.slot := rfl
@[simp] theorem CoreSt.setHpend_res (k : CoreSt) (r : HReg) : (k.setHpend r).res = k.res := rfl
@[simp] theorem CoreSt.setHpend_q (k : CoreSt) (r : HReg) : (k.setHpend r).q = k.q := rfl
@[simp] theorem CoreSt.clrHpend_f (k : CoreSt) (r : HReg) : (k.clrHpend r).f = k.f := rfl
@[simp] theorem CoreSt.clrHpend_pend (k : CoreSt) (r : HReg) : (k.clrHpend r).pend = k.pend := rfl
@[simp] theorem CoreSt.clrHpend_ctl (k : CoreSt) (r : HReg) : (k.clrHpend r).ctl = k.ctl := rfl
@[simp] theorem CoreSt.clrHpend_eng (k : CoreSt) (r : HReg) : (k.clrHpend r).eng = k.eng := rfl
@[simp] theorem CoreSt.clrHpend_loc (k : CoreSt) (r : HReg) : (k.clrHpend r).loc = k.loc := rfl
@[simp] theorem CoreSt.clrHpend_ctx (k : CoreSt) (r : HReg) : (k.clrHpend r).ctx = k.ctx := rfl
@[simp] theorem CoreSt.clrHpend_slot (k : CoreSt) (r : HReg) : (k.clrHpend r).slot = k.slot := rfl
@[simp] theorem CoreSt.clrHpend_res (k : CoreSt) (r : HReg) : (k.clrHpend r).res = k.res := rfl
@[simp] theorem CoreSt.clrHpend_q (k : CoreSt) (r : HReg) : (k.clrHpend r).q = k.q := rfl
@[simp] theorem CoreSt.setEntry_f (k : CoreSt) (n : Nat) (e : Entry) : (k.setEntry n e).f = k.f := rfl
@[simp] theorem CoreSt.setEntry_pend (k : CoreSt) (n : Nat) (e : Entry) : (k.setEntry n e).pend = k.pend := rfl
@[simp] theorem CoreSt.setEntry_hpend (k : CoreSt) (n : Nat) (e : Entry) : (k.setEntry n e).hpend = k.hpend := rfl
@[simp] theorem CoreSt.setEntry_ctl (k : CoreSt) (n : Nat) (e : Entry) : (k.setEntry n e).ctl = k.ctl := rfl
@[simp] theorem CoreSt.setEntry_eng (k : CoreSt) (n : Nat) (e : Entry) : (k.setEntry n e).eng = k.eng := rfl
@[simp] theorem CoreSt.setEntry_loc (k : CoreSt) (n : Nat) (e : Entry) : (k.setEntry n e).loc = k.loc := rfl
@[simp] theorem CoreSt.setEntry_ctx (k : CoreSt) (n : Nat) (e : Entry) : (k.setEntry n e).ctx = k.ctx := rfl
@[simp] theorem CoreSt.setEntry_slot (k : CoreSt) (n : Nat) (e : Entry) : (k.setEntry n e).slot = k.slot := rfl
@[simp] theorem CoreSt.setEntry_res (k : CoreSt) (n : Nat) (e : Entry) : (k.setEntry n e).res = k.res := rfl
@[simp] theorem CoreSt.setPend_f (k : CoreSt) (r : SReg) : (k.setPend r).f = k.f := by unfold CoreSt.setPend; split <;> rfl
@[simp] theorem CoreSt.setPend_hpend (k : CoreSt) (r : SReg) : (k.setPend r).hpend = k.hpend := by unfold CoreSt.setPend; split <;> rfl
@[simp] theorem CoreSt.setPend_ctl (k : CoreSt) (r : SReg) : (k.setPend r).ctl = k.ctl := by unfold CoreSt.setPend; split <;> rfl
@[simp] theorem CoreSt.setPend_eng (k : CoreSt) (r : SReg) : (k.setPend r).eng = k.eng := by unfold CoreSt.setPend; split <;> rfl
@[simp] theorem CoreSt.setPend_loc (k : CoreSt) (r : SReg) : (k.setPend r).loc = k.loc := by unfold CoreSt.setPend; split <;> rfl
@[simp] theorem CoreSt.setPend_ctx (k : CoreSt) (r : SReg) : (k.setPend r).ctx = k.ctx := by unfold CoreSt.setPend; split <;> rfl
@[simp] theorem CoreSt.setPend_slot (k : CoreSt) (r : SReg) : (k.setPend r).slot = k.slot := by unfold CoreSt.setPend; split <;> rfl
@[simp] theorem CoreSt.setPend_res (k : CoreSt) (r : SReg) : (k.setPend r).res = k.res := by unfold CoreSt.setPend; split <;> rfl
@[simp] theorem CoreSt.setPend_q (k : CoreSt) (r : SReg) : (k.setPend r).q = k.q := by unfold CoreSt.setPend; split <;> rfl

@[simp] theorem CoreSt.pc_setPc (k : CoreSt) (pc : Word) : (k.setPc pc).f.pc = pc := rfl
@[simp] theorem CoreSt.pc_next (k : CoreSt) (h : Hdr) : (k.next h).f.pc = advance k.f.pc (Hdr.len h) := CoreSt.pc_setPc k _
@[simp] theorem CoreSt.s_setPc (k : CoreSt) (pc : Word) : (k.setPc pc).f.s = k.f.s := rfl
@[simp] theorem CoreSt.p_setPc (k : CoreSt) (pc : Word) : (k.setPc pc).f.p = k.f.p := rfl
@[simp] theorem CoreSt.blk_setPc (k : CoreSt) (pc : Word) : (k.setPc pc).f.blk = k.f.blk := rfl
@[simp] theorem CoreSt.blk_next (k : CoreSt) (h : Hdr) : (k.next h).f.blk = k.f.blk := CoreSt.blk_setPc k _

-- ### Registers: reads after writes

/-- s0 reads zero whatever is written. -/
@[simp] theorem CoreSt.rd_zero (k : CoreSt) : k.rd 0 = 0 := rfl
@[simp] theorem CoreSt.wr_zero (k : CoreSt) (v : Word) : k.wr 0 v = k := rfl
@[simp] theorem CoreSt.rd_setPc (k : CoreSt) (pc : Word) (r : SReg) : (k.setPc pc).rd r = k.rd r := rfl
@[simp] theorem CoreSt.rd_next (k : CoreSt) (h : Hdr) (r : SReg) : (k.next h).rd r = k.rd r := CoreSt.rd_setPc k _ r

theorem CoreSt.rd_wr_same (k : CoreSt) (r : SReg) (v : Word) (h : r ≠ 0) : (k.wr r v).rd r = v := by
  unfold CoreSt.rd CoreSt.wr ScalarFile.rd ScalarFile.wr
  rw [if_neg h, if_neg h]
  exact SMap.get_set_same ..

theorem CoreSt.rd_wr_ne (k : CoreSt) (r q : SReg) (v : Word) (h : q ≠ r) : (k.wr r v).rd q = k.rd q := by
  unfold CoreSt.rd CoreSt.wr ScalarFile.rd ScalarFile.wr
  by_cases hq : q = 0
  · rw [if_pos hq, if_pos hq]
  · rw [if_neg hq, if_neg hq]
    by_cases hr : r = 0
    · rw [if_pos hr]
    · rw [if_neg hr]
      exact SMap.get_set_ne _ _ _ _ _ (fun e => h (BitVec.eq_of_toNat_eq e))

theorem CoreSt.pc_wr (k : CoreSt) (r : SReg) (v : Word) : (k.wr r v).f.pc = k.f.pc := by
  unfold CoreSt.wr ScalarFile.wr; split <;> rfl

/-- p0 reads true whatever is written. -/
@[simp] theorem ScalarFile.rdP_zero (f : ScalarFile) : f.rdP 0 = true := rfl
@[simp] theorem CoreSt.wrP_zero (k : CoreSt) (b : Bool) : k.wrP 0 b = k := rfl

@[simp] theorem CoreSt.rdV_wrV (k : CoreSt) (r : VReg) (x : BitVec 2048) : (k.wrV r x).rdV r = x := by simp [CoreSt.rdV, CoreSt.wrV]
theorem CoreSt.rdV_wrV_ne (k : CoreSt) (r q : VReg) (x : BitVec 2048) (h : q ≠ r) : (k.wrV r x).rdV q = k.rdV q := by
  have : q.toNat ≠ r.toNat := fun e => h (BitVec.eq_of_toNat_eq e)
  simp [CoreSt.rdV, CoreSt.wrV, SMap.get_set_ne _ _ _ _ _ this]
@[simp] theorem CoreSt.rdM_wrM (k : CoreSt) (r : MReg) (x : BitVec 128) : (k.wrM r x).rdM r = x := by simp [CoreSt.rdM, CoreSt.wrM]
@[simp] theorem CoreSt.rdSlot_wrSlot (k : CoreSt) (n : LReg) (x : Nest) : (k.wrSlot n x).rdSlot n = x := by simp [CoreSt.rdSlot, CoreSt.wrSlot]
@[simp] theorem CoreSt.rdH_wrH (k : CoreSt) (n : HReg) (x : Handle) : (k.wrH n x).rdH n = x := by simp [CoreSt.rdH, CoreSt.wrH]
@[simp] theorem CoreSt.rdAcc_wrAcc (k : CoreSt) (t r c : Nat) (x : AccEl) : (k.wrAcc t r c x).rdAcc t r c = x := by simp [CoreSt.rdAcc, CoreSt.wrAcc]

end Sys2Proof.Machine
end

