-- ==== Sys2Proof/Laws/Queue.lean ====
section
/-! SUPPORT. What issuing a word to a core at rest does: the entry it puts into the queues, and, with `eager`, the core after its completion. -/

namespace Sys2Proof.Machine

theorem mem_upTo {i n : Nat} : i ∈ upTo n ↔ i < n := List.mem_range

theorem isPend_of_pend (k : CoreSt) (h : k.pend = 0) (r : SReg) : k.isPend r = false := by
  simp [CoreSt.isPend, h]

theorem anyPend_of_pend (k : CoreSt) (h : k.pend = 0) (rs : List SReg) : k.anyPend rs = false := by
  simp [CoreSt.anyPend, isPend_of_pend k h]

theorem blocked_of_quiet (s : State) (r : Req) (hq : s.Quiet r.h) : r.blocked s.me = false := by
  have h1 := isPend_of_pend _ hq.noPend
  have h2 := anyPend_of_pend _ hq.noPend
  simp [Req.blocked, h1, h2, hq.noHpend, hq.noPromo]

theorem takeItem_outside (k : CoreSt) (n : Nat) (x : Option Word) (h : k.inBlock = false) : k.takeItem n x = .ok (k, 0, x) := by
  simp [CoreSt.takeItem, h]

theorem admits_empty (k : CoreSt) (q : QId) (h : k.q.es = []) (hs : 0 < k.slip q) : k.admits q = true := by
  cases q <;> simp [CoreSt.admits, CoreSt.unstartedIn, CoreSt.inFlight, h, hs, QId.size]

theorem redoStep_none (k : CoreSt) (h : k.res.redo = []) : k.redoStep = none := by
  simp [CoreSt.redoStep, h]

/-- An operation that goes on after one that has answered. -/
theorem bind_ok {α β : Type} {m : M α} {f : α → M β} {s s' : State} {a : α} (h : m s = (.ok a, s')) : (m >>= f) s = f a s' := by
  show (ExceptT.bind m f) s = _
  unfold ExceptT.bind ExceptT.mk
  show (ExceptT.bindCont f (m s).1) (m s).2 = _
  rw [h]; rfl

/-- What issuing puts into the queues of a core at rest. -/
theorem issue_enters (perf : Perf) (r : Req) (s : State) (hq : s.Quiet r.h) (hpl : r.place = none) (hpre : r.pre s.active (r.srcs.map s.me.rd) (r.hnds.map s.me.rdH) s = (.ok (), s)) :
    issue perf r s = .next (
      let s2 := s.setCore s.active (s.me.enqueue r.h (r.entryAt s))
      if s.eager then runQueues perf s.active s2 else s2) := by
  have hb := blocked_of_quiet s r hq
  have hin : s.me.inBlock = false := by simp [CoreSt.inBlock, hq.noBlock]
  have ht := takeItem_outside s.me (r.item (r.hnds.map s.me.rdH)) (r.seed.map s.me.rd) hin
  have ha : (r.qs.any (fun q => !s.me.admits q)) = false := by
    simp only [List.any_eq_false]; intro q _; simp [admits_empty s.me q hq.noEntry (hq.slips q)]
  have h1 := hq.taken
  have h2 := hq.noBlock
  have h3 : s.me.suppresses r.qs = false := by simp [CoreSt.suppresses, hq.noSup]
  have h4 := redoStep_none _ hq.noRedo
  have hstep : takeStep s.active r (r.srcs.map s.me.rd) (r.hnds.map s.me.rdH) s = (.ok (s.me, 0, r.seed.map s.me.rd, s.me.res.stack), s) := by
    unfold State.me at *
    unfold takeStep
    rw [bind_ok (show getCore s.active s = (.ok (s.core s.active), s) from rfl)]
    simp only [h4]
    rw [bind_ok hpre, bind_ok (show getCore s.active s = (.ok (s.core s.active), s) from rfl)]
    simp only [ht, hpl, hin, Req.steps, Option.isSome_none, Bool.false_and, Bool.or_self, Bool.false_eq_true, if_false]
    rfl
  unfold State.me at *
  unfold issue
  simp only [h2, hin, hb, h1, hstep, ha, h3, Bool.and_false, Bool.false_eq_true, if_false, if_true, Bool.not_true, Bool.false_and, Bool.or_self]
  all_goals rfl

theorem foldl_apply_q (wrs : List Wr) (k : CoreSt) : (wrs.foldl Wr.apply k).q = k.q := by
  induction wrs generalizing k with
  | nil => rfl
  | cons w r ih => rw [List.foldl_cons, ih]; cases w <;> rfl

theorem sweep_one_done (perf : Perf) (c n : Nat) (s : State) (e : Entry) (he : (s.core c).q.es = [e]) (hd : e.phase = .done)
    (ht : (s.core c).q.trap = none) : sweep perf c (n + 2) s = s.modCore c (fun k => k.complete 0 e) := by
  have h1 : ∀ k : CoreSt, k.q.es = [e] → (k.complete 0 e).q.es = [] := by
    intro k hk
    have : ∀ (l : List SReg) (k : CoreSt), (l.foldl CoreSt.clrPend k).q = k.q := by
      intro l; induction l with
      | nil => intro k; rfl
      | cons a l ih => intro k; rw [List.foldl_cons, ih]; rfl
    have h2 : ∀ (l : List HReg) (k : CoreSt), (l.foldl CoreSt.clrHpend k).q = k.q := by
      intro l; induction l with
      | nil => intro k; rfl
      | cons a l ih => intro k; rw [List.foldl_cons, ih]; rfl
    simp only [CoreSt.complete, h2, this, foldl_apply_q, hk, List.take_zero, Nat.zero_add, List.drop_succ_cons, List.drop_nil, List.map_nil, List.append_nil]
  have h3 : ∀ k : CoreSt, (k.complete 0 e).q.trap = k.q.trap := by
    intro k
    have : ∀ (l : List SReg) (k : CoreSt), (l.foldl CoreSt.clrPend k).q = k.q := by
      intro l; induction l with
      | nil => intro k; rfl
      | cons a l ih => intro k; rw [List.foldl_cons, ih]; rfl
    have h2 : ∀ (l : List HReg) (k : CoreSt), (l.foldl CoreSt.clrHpend k).q = k.q := by
      intro l; induction l with
      | nil => intro k; rfl
      | cons a l ih => intro k; rw [List.foldl_cons, ih]; rfl
    simp only [CoreSt.complete, h2, this, foldl_apply_q]
  unfold sweep
  simp only [he, findEntry, hd, beq_self_eq_true, if_true, List.length_nil]
  unfold sweep
  have h4 := h1 _ he
  simp only [State.core_modCore, h4, findEntry, h3, ht, Option.isSome_none, Bool.false_eq_true, if_false]

-- ### The copy engines' rotation

theorem mem_copyCores (c : Nat) : c ∈ copyCores (hamletOf c) := by
  unfold copyCores hamletOf isBailiff
  simp only [List.mem_append, List.mem_map, mem_upTo]
  by_cases hb : 256 ≤ c
  · right; simp [hb]
  · left; simp [hb]; exact ⟨c % 16, by omega, by omega⟩

/-- Of a hamlet whose cores but one have nothing in their queues, that one is served next, if it has a ready entry. -/
theorem nextCopy_alone (s : State) (c : Nat) (e : Entry) (he : (s.core c).q.es = [e]) (ht : (s.core c).q.trap = none)
    (hoth : ∀ d ∈ copyCores (hamletOf c), d ≠ c → (s.core d).q.es = []) (hu : e.unstarted = true) (hr : s.ready? c e [] = true)
    (hq : e.inQ .cq = true) (hn : e.null = false) :
    (match s.nextCopy (hamletOf c) with | some x => x.1 == c | none => false) = true := by
  have hbusy : s.busyCopies (hamletOf c) = 0 := by
    unfold State.busyCopies
    have : ∀ d ∈ copyCores (hamletOf c), ((s.core d).q.es.filter (fun e => e.inQ .cq && !e.unstarted && !e.null)).length = 0 := by
      intro d hd
      by_cases h : d = c
      · subst h; simp [he, hu]
      · simp [hoth d hd h]
    rw [List.map_congr_left this]
    generalize copyCores (hamletOf c) = l
    clear * -
    induction l with
    | nil => rfl
    | cons a l ih => simpa using ih
  have hnone : ∀ d ∈ copyCores (hamletOf c), d ≠ c → s.readyCopy d = none := by
    intro d hd h
    unfold State.readyCopy
    simp [hoth d hd h, findEntry]
  have hsome : (s.readyCopy c).isSome = true := by
    unfold State.readyCopy
    simp [ht, he, findEntry, hq, hn, hr]
  have hmem := mem_copyCores c
  obtain ⟨j, hj, hjc⟩ := List.getElem_of_mem hmem
  unfold State.nextCopy
  rw [if_neg (by omega)]
  have hget : ∀ i ∈ s.rotation (hamletOf c), (copyCores (hamletOf c)).getD i 0 ∈ copyCores (hamletOf c) := by
    intro i hi
    simp only [State.rotation, List.mem_map, mem_upTo] at hi
    obtain ⟨x, hx, rfl⟩ := hi
    have : (SMap.get 0 s.rota (hamletOf c) + x) % (copyCores (hamletOf c)).length < (copyCores (hamletOf c)).length := Nat.mod_lt _ (by omega)
    rw [List.getD_eq_getElem _ _ this]; exact List.getElem_mem this
  have hin : j ∈ s.rotation (hamletOf c) := by
    simp only [State.rotation, List.mem_map, mem_upTo]
    generalize SMap.get 0 s.rota (hamletOf c) = r0
    clear hjc
    generalize (copyCores (hamletOf c)).length = n at hj ⊢
    refine ⟨(j + n - r0 % n) % n, Nat.mod_lt _ (by omega), ?_⟩
    have h1 : r0 % n < n := Nat.mod_lt _ (by omega)
    conv => lhs; rw [Nat.add_mod, Nat.mod_mod, ← Nat.add_mod, Nat.add_mod]
    by_cases h2 : r0 % n ≤ j
    · rw [show j + n - r0 % n = (j - r0 % n) + n by omega, Nat.add_mod_right, Nat.mod_eq_of_lt (show j - r0 % n < n by omega), show r0 % n + (j - r0 % n) = j by omega, Nat.mod_eq_of_lt hj]
    · rw [Nat.mod_eq_of_lt (show j + n - r0 % n < n by omega), show r0 % n + (j + n - r0 % n) = j + n by omega, Nat.add_mod_right, Nat.mod_eq_of_lt hj]
  cases hf : (s.rotation (hamletOf c)).findSome? (fun i =>
      let c' := (copyCores (hamletOf c)).getD i 0
      (s.readyCopy c').map (fun x => (c', i, x.1, x.2))) with
  | none =>
    rw [List.findSome?_eq_none_iff] at hf
    have := hf j hin
    simp only [List.getD_eq_getElem _ _ hj, hjc, Option.map_eq_none_iff] at this
    rw [this] at hsome; simp at hsome
  | some x =>
    obtain ⟨i, hi, h⟩ := List.exists_of_findSome?_eq_some hf
    by_cases h2 : (copyCores (hamletOf c)).getD i 0 = c
    · simp only [Option.map_eq_some_iff] at h
      obtain ⟨y, _, rfl⟩ := h
      simp only [beq_iff_eq]; exact h2
    · simp only [hnone _ (hget i hi) h2, Option.map_none] at h; cases h

/-- Nothing is served in a hamlet whose queues are empty. -/
theorem serveCopies_idle (perf : Perf) (hm n : Nat) (s : State) (h : ∀ d ∈ copyCores hm, (s.core d).q.es = []) : serveCopies perf hm n s = s := by
  cases n with
  | zero => rfl
  | succ n =>
    have hnext : s.nextCopy hm = none := by
      unfold State.nextCopy
      split
      · rfl
      · rw [List.findSome?_eq_none_iff]
        intro i hi
        have hm' : (copyCores hm).getD i 0 ∈ copyCores hm := by
          simp only [State.rotation, List.mem_map, mem_upTo] at hi
          obtain ⟨x, hx, rfl⟩ := hi
          have : (SMap.get 0 s.rota hm + x) % (copyCores hm).length < (copyCores hm).length := Nat.mod_lt _ (by omega)
          rw [List.getD_eq_getElem _ _ this]; exact List.getElem_mem this
        have hr : s.readyCopy ((copyCores hm).getD i 0) = none := by simp only [State.readyCopy, h _ hm', findEntry, ite_self]
        simp only [hr, Option.map_none]
    unfold serveCopies
    rw [hnext]

theorem sweep_idle (perf : Perf) (c n : Nat) (s : State) (h : (s.core c).q.es = []) : sweep perf c n s = s := by
  cases n with
  | zero => rfl
  | succ n => unfold sweep; simp [h, findEntry]

theorem foldl_clrPend_q (l : List SReg) (k : CoreSt) : (l.foldl CoreSt.clrPend k).q = k.q := by
  induction l generalizing k with
  | nil => rfl
  | cons a l ih => rw [List.foldl_cons, ih]; rfl
theorem foldl_clrHpend_q (l : List HReg) (k : CoreSt) : (l.foldl CoreSt.clrHpend k).q = k.q := by
  induction l generalizing k with
  | nil => rfl
  | cons a l ih => rw [List.foldl_cons, ih]; rfl
theorem complete_trap (k : CoreSt) (n : Nat) (e : Entry) : (k.complete n e).q.trap = k.q.trap := by
  simp only [CoreSt.complete, foldl_clrHpend_q, foldl_clrPend_q, foldl_apply_q]
theorem complete_es (k : CoreSt) (e : Entry) (h : k.q.es = [e]) (e' : Entry) : (k.complete 0 e').q.es = [] := by
  simp only [CoreSt.complete, foldl_clrHpend_q, foldl_clrPend_q, foldl_apply_q, h, List.take_zero, Nat.zero_add, List.drop_succ_cons, List.drop_nil, List.map_nil, List.append_nil]

/-- A lone entry that can start starts, and completes when its work is done at once. -/
theorem runQueues_done (perf : Perf) (c : Nat) (s s' : State) (e : Entry) (wrs : List Wr) (w : Word)
    (he : (s.core c).q.es = [e]) (hq : e.phase = .queued) (hw : e.waits = []) (hn : e.null = false) (hm : e.muted = false) (ht : (s.core c).q.trap = none)
    (hr : (s.core c).slot.roles = 0) (hoth : ∀ d ∈ copyCores (hamletOf c), d ≠ c → (s.core d).q.es = [])
    (hp : perf c (e.starting c s) (s.working c e) = (.ok (.done wrs w), s'))
    (he' : (s'.core c).q.es = [e]) (ht' : (s'.core c).q.trap = none) (hoth' : ∀ d ∈ copyCores (hamletOf c), d ≠ c → (s'.core d).q.es = []) :
    runQueues perf c s = { s' with author := none }.modCore c (fun k =>
      (k.setEntry 0 { e.starting c s with phase := .done, wrs := wrs, word := w }).complete 0 { e.starting c s with phase := .done, wrs := wrs, word := w }) := by
  have hready : s.ready? c e [] = true := by
    simp [State.ready?, Entry.unstarted, hq, hw, clearAhead, hr]
  have hs : s.startable c e [] = true := by
    unfold State.startable
    rw [hready, Bool.true_and]
    cases hcq : e.inQ .cq with
    | false => rfl
    | true =>
      have := nextCopy_alone s c e he ht hoth (by simp [Entry.unstarted, hq]) hready hcq hn
      rw [Bool.or_eq_true]; exact .inr this
  have hre : retry perf c 1 0 s = s := by
    simp [retry, he, CoreSt.tries, hq]
  unfold runQueues
  simp only [he, List.length_singleton, hre]
  have hsw : sweep perf c (2 * 1 + 1) s = sweep perf c 2 (startEntry perf c 0 e s) := by
    rw [show 2 * 1 + 1 = 2 + 1 from rfl]
    conv => lhs; unfold sweep
    simp only [he, findEntry, hq, hs, ht, List.length_nil, if_true, Option.isSome_none, Bool.false_eq_true, if_false]
    rfl
  rw [hsw]
  have hmute : (e.starting c s).muted = false ∧ (e.starting c s).null = false := by
    unfold Entry.starting; split <;> exact ⟨hm, hn⟩
  have hst : startEntry perf c 0 e s = { s' with author := none }.modCore c (fun k => k.setEntry 0 { e.starting c s with phase := .done, wrs := wrs, word := w }) := by
    simp only [startEntry, workOn, hmute.1, hmute.2, hp, Bool.false_eq_true, if_false]
    rfl
  rw [hst, sweep_one_done perf c 0 _ { e.starting c s with phase := .done, wrs := wrs, word := w }]
  · simp only [State.modCore_modCore]
    have hall : ∀ d ∈ copyCores (hamletOf c), (({ s' with author := none }.modCore c (fun k =>
        (k.setEntry 0 { e.starting c s with phase := .done, wrs := wrs, word := w }).complete 0 { e.starting c s with phase := .done, wrs := wrs, word := w })).core d).q.es = [] := by
      intro d hd
      by_cases h : d = c
      · subst h; rw [State.core_modCore]
        exact complete_es _ { e.starting d s with phase := .done, wrs := wrs, word := w } (by show (List.set (s'.core d).q.es _ _) = _; rw [he']; rfl) _
      · rw [State.core_modCore_ne _ _ _ _ h]; exact hoth' d hd h
    rw [serveCopies_idle _ _ _ _ hall, sweep_idle _ _ _ _ (hall c (mem_copyCores c))]
    unfold tryCut
    simp only [State.core_modCore, complete_trap]
    have : (({ s' with author := none } : State).core c) = s'.core c := rfl
    simp [CoreSt.setEntry, this, ht']
  · rw [State.core_modCore]; show (List.set (s'.core c).q.es _ _) = _; rw [he']; rfl
  · rfl
  · rw [State.core_modCore]; exact ht'

/-- A core with other pending registers and another queue. -/
def CoreSt.withQueue (k : CoreSt) (p hp : BitVec 64) (q : Queues) : CoreSt := { k with pend := p, hpend := hp, q := q }

def Wr.clear (p : BitVec 64) : Wr → BitVec 64
  | .s r _ => p &&& ~~~(1#64 <<< r.toNat)
  | _ => p

theorem apply_withQueue (k : CoreSt) (p hp : BitVec 64) (q : Queues) (w : Wr) :
    Wr.apply (k.withQueue p hp q) w = (Wr.apply k w).withQueue (Wr.clear p w) hp q := by
  cases w <;> rfl

theorem foldl_withQueue (wrs : List Wr) (k : CoreSt) (p hp : BitVec 64) (q : Queues) :
    wrs.foldl Wr.apply (k.withQueue p hp q) = (wrs.foldl Wr.apply k).withQueue (wrs.foldl Wr.clear p) hp q := by
  induction wrs generalizing k p with
  | nil => rfl
  | cons w r ih => rw [List.foldl_cons, apply_withQueue, ih]; rfl

/-- Bit n of a pending mask set, and cleared. -/
def bitOn {n : Nat} (p : BitVec 64) (r : BitVec n) : BitVec 64 := p ||| (1#64 <<< r.toNat)
def bitOff {n : Nat} (p : BitVec 64) (r : BitVec n) : BitVec 64 := p &&& ~~~(1#64 <<< r.toNat)
/-- s0 is never pending. -/
def pendOn (p : BitVec 64) (r : SReg) : BitVec 64 := if r = 0 then p else bitOn p r

theorem foldl_setPend (rs : List SReg) (k : CoreSt) (p hp : BitVec 64) (q : Queues) :
    rs.foldl CoreSt.setPend (k.withQueue p hp q) = k.withQueue (rs.foldl pendOn p) hp q := by
  induction rs generalizing p with
  | nil => rfl
  | cons r rs ih =>
    have : (k.withQueue p hp q).setPend r = k.withQueue (pendOn p r) hp q := by
      unfold CoreSt.setPend pendOn; split <;> rfl
    rw [List.foldl_cons, this, ih]; rfl

theorem foldl_clrPend (rs : List SReg) (k : CoreSt) (p hp : BitVec 64) (q : Queues) :
    rs.foldl CoreSt.clrPend (k.withQueue p hp q) = k.withQueue (rs.foldl bitOff p) hp q := by
  induction rs generalizing p with
  | nil => rfl
  | cons r rs ih => rw [List.foldl_cons]; exact ih _

theorem foldl_setHpend (rs : List HReg) (k : CoreSt) (p hp : BitVec 64) (q : Queues) :
    rs.foldl CoreSt.setHpend (k.withQueue p hp q) = k.withQueue p (rs.foldl bitOn hp) q := by
  induction rs generalizing hp with
  | nil => rfl
  | cons r rs ih => rw [List.foldl_cons]; exact ih _

theorem foldl_clrHpend (rs : List HReg) (k : CoreSt) (p hp : BitVec 64) (q : Queues) :
    rs.foldl CoreSt.clrHpend (k.withQueue p hp q) = k.withQueue p (rs.foldl bitOff hp) q := by
  induction rs generalizing hp with
  | nil => rfl
  | cons r rs ih => rw [List.foldl_cons]; exact ih _

theorem getLsbD_one_shift (n i : Nat) (hi : i < 64) : (1#64 <<< n).getLsbD i = (n == i) := by
  rw [BitVec.getLsbD_shiftLeft]
  by_cases h : i < n
  · have : n ≠ i := by omega
    simp [h, this]
  · by_cases h2 : n = i
    · simp [h2, hi]
    · have : i - n ≠ 0 := by omega
      simp [h, h2, hi, this]

theorem getLsbD_bitOff {n : Nat} (p : BitVec 64) (r : BitVec n) (i : Nat) : (bitOff p r).getLsbD i = (p.getLsbD i && !(r.toNat == i)) := by
  by_cases hi : i < 64
  · unfold bitOff
    rw [BitVec.getLsbD_and, BitVec.getLsbD_not, getLsbD_one_shift _ _ hi]; simp [hi]
  · simp [BitVec.getLsbD_of_ge _ _ (Nat.le_of_not_lt hi)]

theorem getLsbD_foldl_bitOff {n : Nat} (rs : List (BitVec n)) (p : BitVec 64) (i : Nat) :
    (rs.foldl bitOff p).getLsbD i = (p.getLsbD i && !rs.any (fun r => r.toNat == i)) := by
  induction rs generalizing p with
  | nil => simp
  | cons r rs ih => rw [List.foldl_cons, ih, getLsbD_bitOff]; simp [Bool.and_assoc]

theorem getLsbD_foldl_bitOn {n : Nat} (rs : List (BitVec n)) (p : BitVec 64) (i : Nat) (h : (rs.foldl bitOn p).getLsbD i = true) :
    p.getLsbD i = true ∨ rs.any (fun r => r.toNat == i) = true := by
  induction rs generalizing p with
  | nil => exact .inl h
  | cons r rs ih =>
    rcases ih _ h with h1 | h1
    · unfold bitOn at h1
      have hi : i < 64 := BitVec.lt_of_getLsbD h1
      rw [BitVec.getLsbD_or, getLsbD_one_shift _ _ hi] at h1
      cases hp : p.getLsbD i
      · right; simp [hp] at h1; simp [h1]
      · exact .inl rfl
    · exact .inr (by simp only [List.any_cons, h1, Bool.or_true])

theorem getLsbD_foldl_pendOn (rs : List SReg) (p : BitVec 64) (i : Nat) (h : (rs.foldl pendOn p).getLsbD i = true) :
    p.getLsbD i = true ∨ rs.any (fun r => r != 0 && r.toNat == i) = true := by
  induction rs generalizing p with
  | nil => exact .inl h
  | cons r rs ih =>
    rcases ih _ h with h1 | h1
    · unfold pendOn at h1
      by_cases hr : r = 0
      · rw [if_pos hr] at h1; exact .inl h1
      · rw [if_neg hr] at h1
        rcases getLsbD_foldl_bitOn [r] p i h1 with h2 | h2
        · exact .inl h2
        · right
          simp only [List.any_cons, List.any_nil, Bool.or_false] at h2
          have hr' : (r != 0) = true := bne_iff_ne.2 hr
          rw [List.any_cons, hr', h2]; rfl
    · exact .inr (by simp only [List.any_cons, h1, Bool.or_true])

theorem clear_false (wrs : List Wr) (p : BitVec 64) (i : Nat) (h : p.getLsbD i = false) : (wrs.foldl Wr.clear p).getLsbD i = false := by
  induction wrs generalizing p with
  | nil => exact h
  | cons w r ih =>
    rw [List.foldl_cons]; apply ih
    cases w with
    | s r x => show (bitOff p r).getLsbD i = false; rw [getLsbD_bitOff, h]; rfl
    | _ => exact h

theorem withQueue_self (k : CoreSt) : k.withQueue k.pend k.hpend k.q = k := rfl

theorem wr_withQueue (k : CoreSt) (p hp : BitVec 64) (q : Queues) (r : SReg) (v : Word) : (k.withQueue p hp q).wr r v = (k.wr r v).withQueue p hp q := rfl


theorem foldl_apply_pend (wrs : List Wr) (k : CoreSt) (hp : k.pend = 0) : (wrs.foldl Wr.apply k).pend = 0 := by
  have : ∀ (wrs : List Wr) (k : CoreSt), (wrs.foldl Wr.apply k).pend = wrs.foldl Wr.clear k.pend := by
    intro wrs; induction wrs with
    | nil => intro k; rfl
    | cons w r ih => intro k; rw [List.foldl_cons, ih]; cases w <;> rfl
  rw [this, hp]
  apply BitVec.eq_of_getLsbD_eq; intro i hi; rw [clear_false _ _ _ (by simp)]; simp

theorem foldl_apply_hpend (wrs : List Wr) (k : CoreSt) : (wrs.foldl Wr.apply k).hpend = k.hpend := by
  induction wrs generalizing k with
  | nil => rfl
  | cons w r ih => rw [List.foldl_cons, ih]; cases w <;> rfl

theorem withQueue_withQueue (k : CoreSt) (p hp p' hp' : BitVec 64) (q q' : Queues) : (k.withQueue p hp q).withQueue p' hp' q' = k.withQueue p' hp' q' := rfl

theorem enqueue_on (K : CoreSt) (Q : Queues) (e : Entry) (hes : Q.es = []) (hsup : Q.sup = none) (f1 : K.pend = 0#64) (f2 : K.hpend = 0#64) (f3 : K.q = Q) :
    (let k1 := e.hdst.foldl CoreSt.setHpend ((e.td :: e.dst).foldl CoreSt.setPend K)
     let n := k1.q.issued.bumps e.qs
     { k1 with q := { k1.q with es := k1.q.es ++ [e], issued := n, sup := supAfter k1.q.sup n } }) =
    K.withQueue ((e.td :: e.dst).foldl pendOn 0#64) (e.hdst.foldl bitOn 0#64) { Q with es := [e], issued := Q.issued.bumps e.qs } := by
  have hk : K = K.withQueue 0#64 0#64 Q := by
    have := withQueue_self K
    rw [f1, f2, f3] at this
    exact this.symm
  rw [hk, foldl_setPend, foldl_setHpend]
  dsimp only [CoreSt.withQueue]
  rw [hes, List.nil_append, hsup]
  cases Q; cases hsup; rfl

theorem enqueue_eq (k : CoreSt) (h : Hdr) (e : Entry) (hes : k.q.es = []) (hsup : k.q.sup = none) (hp : k.pend = 0) (hh : k.hpend = 0) :
    k.enqueue h e = (k.next h).withQueue ((e.td :: e.dst).foldl pendOn 0#64) (e.hdst.foldl bitOn 0#64)
      { k.q with es := [e], issued := k.q.issued.bumps e.qs } :=
  enqueue_on (k.next h) k.q e hes hsup ((CoreSt.next_pend k h).trans hp) ((CoreSt.next_hpend k h).trans hh) (CoreSt.next_q k h)

theorem complete_alone (K : CoreSt) (P H : BitVec 64) (Q : Queues) (e : Entry) (hQ : Q.es = [e]) :
    (K.withQueue P H Q).complete 0 e = ((e.wrs.foldl Wr.apply K).wr e.td e.word).withQueue
      (e.dst.foldl bitOff ((e.wrs ++ (if e.td = 0 then [] else [Wr.s e.td e.word])).foldl Wr.clear P)) (e.hdst.foldl bitOff H) { Q with es := [] } := by
  have h1 : ((e.wrs ++ (if e.td = 0 then [] else [Wr.s e.td e.word])).foldl Wr.apply K).withQueue 0 0 Q = ((e.wrs.foldl Wr.apply K).wr e.td e.word).withQueue 0 0 Q := by
    rw [List.foldl_append]
    generalize e.wrs.foldl Wr.apply K = L
    split
    · rename_i h; rw [h]; rfl
    · rfl
  have h2 : ∀ (A B : CoreSt) (p q : BitVec 64) (x : Queues), A.withQueue 0 0 Q = B.withQueue 0 0 Q → A.withQueue p q x = B.withQueue p q x := by
    intro A B p q x h
    have := congrArg (fun z => z.withQueue p q x) h
    simpa only [withQueue_withQueue] using this
  unfold CoreSt.complete
  dsimp only
  rw [foldl_withQueue, foldl_clrPend, foldl_clrHpend]
  rw [h2 _ _ _ _ _ h1]
  generalize (e.wrs.foldl Wr.apply K).wr e.td e.word = L
  simp only [CoreSt.withQueue, hQ, List.take_zero, Nat.zero_add, List.drop_succ_cons, List.drop_nil, List.map_nil, List.append_nil]

theorem masks_clear (wrs : List Wr) (td : SReg) (w : Word) (dst : List SReg) :
    dst.foldl bitOff ((wrs ++ (if td = 0 then [] else [Wr.s td w])).foldl Wr.clear ((td :: dst).foldl pendOn 0#64)) = 0#64 := by
  apply BitVec.eq_of_getLsbD_eq; intro i hi
  rw [getLsbD_foldl_bitOff]
  cases hb : ((td :: dst).foldl pendOn 0#64).getLsbD i
  · rw [clear_false _ _ _ hb]; simp
  · rcases getLsbD_foldl_pendOn _ _ _ hb with h | h
    · simp at h
    · simp only [List.any_cons, Bool.or_eq_true, Bool.and_eq_true] at h
      rcases h with ⟨h0, h⟩ | h
      · rw [if_neg (bne_iff_ne.1 h0), List.foldl_append]
        show ((bitOff _ td).getLsbD i && _) = _
        rw [getLsbD_bitOff, h]; simp
      · have : dst.any (fun r => r.toNat == i) = true := by
          simp only [List.any_eq_true, Bool.and_eq_true] at h ⊢
          obtain ⟨x, hx, _, h⟩ := h; exact ⟨x, hx, h⟩
        rw [this]; simp

theorem hmasks_clear (hdst : List HReg) : hdst.foldl bitOff (hdst.foldl bitOn 0#64) = 0#64 := by
  apply BitVec.eq_of_getLsbD_eq; intro i hi
  rw [getLsbD_foldl_bitOff]
  cases hb : (hdst.foldl bitOn 0#64).getLsbD i
  · simp
  · rcases getLsbD_foldl_bitOn _ _ _ hb with h | h
    · simp at h
    · rw [h]; simp

/-- An entry that enters the queues of a core at rest and completes. -/
theorem complete_entered (k : CoreSt) (h : Hdr) (e e' : Entry) (hes : k.q.es = []) (hsup : k.q.sup = none) (hp : k.pend = 0) (hh : k.hpend = 0)
    (h1 : e'.td = e.td) (h2 : e'.dst = e.dst) (h3 : e'.hdst = e.hdst) :
    ((k.enqueue h e).setEntry 0 e').complete 0 e' = k.finished h e.qs e'.wrs e.td e'.word := by
  have hset : ∀ (K : CoreSt) (P H : BitVec 64) (Q : Queues), Q.es = [e] → (K.withQueue P H Q).setEntry 0 e' = K.withQueue P H { Q with es := [e'] } := by
    intro K P H Q hQ
    simp only [CoreSt.setEntry, CoreSt.withQueue, hQ, List.set_cons_zero]
  rw [enqueue_eq k h e hes hsup hp hh, hset _ _ _ _ rfl, complete_alone _ _ _ _ _ rfl, h1, h2, h3, masks_clear, hmasks_clear]
  unfold CoreSt.finished
  have g1 : (e'.wrs.foldl Wr.apply (k.next h)).pend = 0 := foldl_apply_pend _ _ (by rw [CoreSt.next_pend, hp])
  have g2 : (e'.wrs.foldl Wr.apply (k.next h)).hpend = 0 := by rw [foldl_apply_hpend, CoreSt.next_hpend, hh]
  have g3 : (e'.wrs.foldl Wr.apply (k.next h)).q = k.q := by rw [foldl_apply_q, CoreSt.next_q]
  generalize (e'.wrs.foldl Wr.apply (k.next h)) = L at *
  simp only [CoreSt.withQueue, CoreSt.wr_q, g3, hes]
  have g4 : (L.wr e.td e'.word).pend = 0 := g1
  have g5 : (L.wr e.td e'.word).hpend = 0 := g2
  rw [show (L.wr e.td e'.word).pend = 0#64 from g4, show (L.wr e.td e'.word).hpend = 0#64 from g5]

/-- What an entry that starts reads of the core leaves its registers and its place in the queues alone. -/
theorem starting_fields (e : Entry) (c : Nat) (s : State) : (e.starting c s).td = e.td ∧ (e.starting c s).dst = e.dst ∧ (e.starting c s).hdst = e.hdst := by
  unfold Entry.starting; split <;> exact ⟨rfl, rfl, rfl⟩

theorem foldl_setPend_q (l : List SReg) (k : CoreSt) : (l.foldl CoreSt.setPend k).q = k.q ∧ (l.foldl CoreSt.setPend k).slot = k.slot := by
  induction l generalizing k with
  | nil => exact ⟨rfl, rfl⟩
  | cons x l ih => rw [List.foldl_cons, (ih _).1, (ih _).2, CoreSt.setPend_q, CoreSt.setPend_slot]; exact ⟨rfl, rfl⟩
theorem foldl_setHpend_q (l : List HReg) (k : CoreSt) : (l.foldl CoreSt.setHpend k).q = k.q ∧ (l.foldl CoreSt.setHpend k).slot = k.slot := by
  induction l generalizing k with
  | nil => exact ⟨rfl, rfl⟩
  | cons x l ih => rw [List.foldl_cons, (ih _).1, (ih _).2]; exact ⟨rfl, rfl⟩
/-- What entering its queues changes of a core. -/
theorem enqueue_q (k : CoreSt) (h : Hdr) (e : Entry) :
    (k.enqueue h e).q.es = k.q.es ++ [e] ∧ (k.enqueue h e).q.trap = k.q.trap ∧ (k.enqueue h e).slot = k.slot := by
  refine ⟨?_, ?_, ?_⟩ <;>
    simp only [CoreSt.enqueue, (foldl_setHpend_q _ _).1, (foldl_setHpend_q _ _).2, (foldl_setPend_q _ _).1, (foldl_setPend_q _ _).2, CoreSt.next_q, CoreSt.next_slot]

/-- A word issued to a core at rest, with `eager`: its entry starts, does its work, completes. `G` is the core as the work leaves it. -/
theorem issue_done (perf : Perf) (r : Req) (s s' : State) (G : CoreSt) (wrs : List Wr) (w : Word) (hq : s.Quiet r.h) (hpl : r.place = none) (he : s.eager = true)
    (hpre : r.pre s.active (r.srcs.map s.me.rd) (r.hnds.map s.me.rdH) s = (.ok (), s))
    (hperf : perf s.active ((r.entryAt s).starting s.active (s.entered r)) ((s.entered r).working s.active (r.entryAt s)) = (.ok (.done wrs w), s'))
    (hc : s'.core s.active = G.enqueue r.h (r.entryAt s)) (h1 : G.q.es = []) (h2 : G.pend = 0) (h3 : G.hpend = 0) (h4 : G.q.trap = none) (h6 : G.q.sup = none)
    (h5 : ∀ d ∈ copyCores (hamletOf s.active), d ≠ s.active → (s'.core d).q.es = []) :
    issue perf r s = .next ({ s' with author := none }.setCore s.active (G.finished r.h r.qs wrs r.t.td w)) := by
  have hes : ∀ k : CoreSt, k.q.es = [] → (k.enqueue r.h (r.entryAt s)).q.es = [r.entryAt s] := by
    intro k hk; rw [(enqueue_q _ _ _).1, hk]; rfl
  rw [issue_enters perf r s hq hpl hpre]
  simp only [he, if_true]
  have hnul : (r.entryAt s).waits = [] := by
    show toksPending r.t s.me = []
    simp only [toksPending, List.filter_eq_nil_iff]
    intro x _; rw [isPend_of_pend _ hq.noPend]; simp
  rw [show s.setCore s.active (s.me.enqueue r.h (r.entryAt s)) = s.entered r from rfl]
  have hcore : (s.entered r).core s.active = s.me.enqueue r.h (r.entryAt s) := by rw [State.entered, State.core_setCore]
  rw [runQueues_done perf s.active (s.entered r) s' (r.entryAt s) wrs w (by rw [hcore]; exact hes _ hq.noEntry) rfl hnul rfl rfl
    (by rw [hcore, (enqueue_q _ _ _).2.1]; exact hq.noTrap) (by rw [hcore, (enqueue_q _ _ _).2.2]; exact hq.roles)
    (by intro d hd h; rw [State.entered, State.core_setCore_ne _ _ _ _ h]; exact hq.copies d hd h) hperf
    (by rw [hc]; exact hes _ h1) (by rw [hc, (enqueue_q _ _ _).2.1]; exact h4) h5]
  congr 1
  unfold State.modCore
  rw [show ({ s' with author := none } : State).core s.active = s'.core s.active from rfl, hc]
  congr 1
  exact complete_entered G r.h (r.entryAt s) _ h1 h6 h2 h3 (starting_fields _ _ _).1 (starting_fields _ _ _).2.1 (starting_fields _ _ _).2.2

end Sys2Proof.Machine
end

