-- ==== Sys2Proof/Laws/Scalar.lean ====
section
/-! SUPPORT. Issuing a word that needs no queue: what a scalar unit can do, and what a trap at issue can do. -/

namespace Sys2Proof.Machine

/-- R155: with its predicate off, a unit only moves the PC on. -/
theorem scalarUnit_off (h : Hdr) (rs : List SReg) (f : Nat → CoreSt → Except (Cause × Nat × Word) CoreSt) (s : State) (ht : s.me.taken h = false) :
    scalarUnit h rs f s = .next (s.setCore s.active (s.me.next h)) := by
  unfold State.me at ht ⊢
  simp [scalarUnit, ht]

/-- R21: a pending operand makes the reeve wait. -/
theorem scalarUnit_pending (h : Hdr) (rs : List SReg) (f : Nat → CoreSt → Except (Cause × Nat × Word) CoreSt) (s : State) (ht : s.me.taken h = true)
    (hp : s.me.anyPend rs = true) : scalarUnit h rs f s = .next s := by
  unfold State.me at ht hp
  simp [scalarUnit, ht, hp]

/-- R20: otherwise it has its effect, or its trap at issue. -/
theorem scalarUnit_ready (h : Hdr) (rs : List SReg) (f : Nat → CoreSt → Except (Cause × Nat × Word) CoreSt) (s : State) (hr : s.Ready h rs) :
    scalarUnit h rs f s = match f s.active s.me with
      | .ok k' => .next (s.setCore s.active k')
      | .error (cause, code, fptr) => .next (trapAtIssue s.active cause code fptr s) := by
  have h1 := hr.taken; have h2 := hr.free
  unfold State.me at *
  unfold scalarUnit
  dsimp only
  rw [h1, h2, if_neg (by decide), if_neg (by decide)]
  all_goals (rcases f s.active (s.core s.active) with ⟨_, _, _⟩ | _ <;> rfl)

theorem scalarOp_ready (h : Hdr) (d : SReg) (rs : List SReg) (f : CoreSt → Word) (s : State) (hr : s.Ready h (d :: rs)) :
    scalarOp h d rs f s = .next (s.setCore s.active ((s.me.next h).wr d (f s.me))) := by
  simp [scalarOp, scalarUnit_ready _ _ _ _ hr]
theorem scalar2_ready (h : Hdr) (d a b : SReg) (f : Word → Word → Word) (s : State) (hr : s.Ready h [d, a, b]) :
    scalar2 h d a b f s = .next (s.setCore s.active ((s.me.next h).wr d (f (s.me.rd a) (s.me.rd b)))) := scalarOp_ready _ _ _ _ _ hr
theorem scalar1_ready (h : Hdr) (d a : SReg) (f : Word → Word) (s : State) (hr : s.Ready h [d, a]) :
    scalar1 h d a f s = .next (s.setCore s.active ((s.me.next h).wr d (f (s.me.rd a)))) := scalarOp_ready _ _ _ _ _ hr

/-- A scalar unit never stops. -/
theorem scalarUnit_next (h : Hdr) (rs : List SReg) (f : Nat → CoreSt → Except (Cause × Nat × Word) CoreSt) (s : State) : ∃ t, scalarUnit h rs f s = .next t := by
  unfold scalarUnit
  dsimp only
  split
  · exact ⟨_, rfl⟩
  · split
    · exact ⟨_, rfl⟩
    · split <;> exact ⟨_, rfl⟩

/-- R361: a trap at issue waits for the entries before it to start, and for a trap already chosen. -/
theorem trapAtIssue_held (c : Nat) (cause : Cause) (code : Nat) (fptr : Word) (s : State) (h : (s.core c).q.trap.isSome = true ∨ (s.core c).allStarted = false) :
    trapAtIssue c cause code fptr s = s := by
  unfold trapAtIssue
  rcases h with h | h <;> simp [h]
/-- Otherwise it is chosen, with the PC of the unit. -/
theorem trapAtIssue_chosen (c : Nat) (cause : Cause) (code : Nat) (fptr : Word) (s : State) (h : (s.core c).q.trap = none) (ha : (s.core c).allStarted = true)
    (he : s.eager = false) :
    trapAtIssue c cause code fptr s = s.setCore c ((s.core c).choose ⟨cause, code, fptr, (s.core c).f.pc, 0, 0, true⟩) := by
  have e : (s.modCore c (fun k => k.choose ⟨cause, code, fptr, k.f.pc, 0, 0, true⟩)).eager = false := he
  unfold trapAtIssue
  dsimp only
  rw [if_neg (by simp [h, ha]), e, if_neg (by decide)]; rfl

end Sys2Proof.Machine
end

