-- ==== Sys2Proof/Tests/Slice0.lean ====
section
/-! SUPPORT. Tests of the model: ill-formed terms that `wf` refuses, words of the spec's encodings that decode to their instructions, small
steps with the spec's results, and for every statement with hypotheses a state and operands that meet them. -/

namespace Sys2Proof.Tests

set_option Elab.async false

open Sys2Proof.Machine

-- ### Helpers

/-- A header with no predicate, and one of a governed word. -/
def h0 : Hdr := ⟨0, 0, 0, false, false⟩
def hx : Hdr := ⟨0, 0, 0, false, true⟩
/-- No tokens; one written token. -/
def t0 : Toks := ⟨0, 0, 0, 0⟩
def t9 : Toks := ⟨9, 0, 0, 0⟩
/-- All elements, of a type. -/
def ve (t : Ety) : VOpt := ⟨t, false, 0, false⟩

-- ### Ill-formed terms: one for each check of `WellFormed.lean`

theorem wf_refuses_version_3 : (Instr.add ⟨3, 0, 0, false, false⟩ 1 2 3).wf = false := by decide
theorem wf_refuses_not_p0 : (Instr.add ⟨0, 0, 0, true, false⟩ 1 2 3).wf = false := by decide
theorem wf_refuses_ext : (Instr.add hx 1 2 3).wf = false := by decide
theorem wf_refuses_token_waited_for : (Instr.mark h0 ⟨4, 4, 0, 0⟩).wf = false := by decide
theorem wf_refuses_token_twice : (Instr.mark h0 ⟨0, 4, 4, 0⟩).wf = false := by decide
theorem wf_refuses_last_token_twice : (Instr.mark h0 ⟨0, 0, 5, 5⟩).wf = false := by decide
theorem wf_refuses_field_outside : (Instr.bfx h0 1 2 60 4).wf = false := by decide
theorem wf_refuses_scale_5 : (Instr.lea h0 1 ⟨2, 3, 5, 0⟩).wf = false := by decide
theorem wf_refuses_odd_pair : (Instr.ldQ h0 7 ⟨2, 3, 0, 0⟩).wf = false := by decide
theorem wf_refuses_odd_source : (Instr.stQ h0 7 ⟨2, 3, 0, 0⟩).wf = false := by decide
theorem wf_refuses_odd_swap : (Instr.amoCasQ h0 6 ⟨2, 3, 0, 0⟩ 9 0).wf = false := by decide
theorem wf_refuses_long_immediate : (Instr.addi h0 1 2 0x8000000).wf = false := by decide
theorem wf_refuses_limit : (Instr.gateWait hx t0 1 2 41).wf = false := by decide
theorem wf_refuses_option_without_ext : (Instr.gateWait h0 t0 1 2 10).wf = false := by decide
theorem wf_refuses_zeroing_without_mask : (Instr.vadd hx t0 ⟨.fp32, false, 0, true⟩ 1 2 3).wf = false := by decide
theorem wf_refuses_abs_of_unsigned : (Instr.vabs hx t0 (ve .n32) 1 2).wf = false := by decide
theorem wf_refuses_exp2_of_integers : (Instr.vexp2 hx t0 (ve .i32) 1 2).wf = false := by decide
theorem wf_refuses_saturating_32 : (Instr.vadds hx t0 (ve .i32) 1 2 3).wf = false := by decide
theorem wf_refuses_wide_shift : (Instr.vshl hx t0 (ve .i16) 1 2 (.imm 16)).wf = false := by decide
theorem wf_refuses_masked_count : (Instr.mpopc hx t0 ⟨.i32, true, 1, false⟩ 1 2).wf = false := by decide
theorem wf_refuses_pack_format : (Instr.vpack hx t0 (ve .fp32) 0x7F ⟨.rne, 0⟩ 1 2 3).wf = false := by decide
theorem wf_refuses_pack_of_16 : (Instr.vpack hx t0 (ve .i16) 2 ⟨.rne, 0⟩ 1 2 3).wf = false := by decide
theorem wf_refuses_seed_without_sr : (Instr.planePack hx t0 1 2 ⟨.rne, 5⟩).wf = false := by decide
theorem wf_refuses_pixel_format : (Instr.pixUnpk hx t0 (ve .n16) 1 0 1 2).wf = false := by decide
theorem wf_refuses_pixels_outside : (Instr.pixUnpk hx t0 (ve .n16) 0x0A 769 1 2).wf = false := by decide
theorem wf_refuses_pixel_type : (Instr.pixPack hx t0 (ve .i16) 0x0A 1 2).wf = false := by decide
theorem wf_refuses_conversion : (Instr.vcvt hx t0 (ve .fp32) 2 1 ⟨.rne, 0⟩ 1 2).wf = false := by decide
theorem wf_refuses_zeroing_reduction : (Instr.vred hx t0 ⟨.i32, true, 1, true⟩ .add 1 2).wf = false := by decide
theorem wf_refuses_pattern_5 : (Instr.vshuf hx t0 (ve .i32) 5 0 1 2 3).wf = false := by decide
theorem wf_refuses_far_slide : (Instr.vshuf hx t0 (ve .i32) 4 65 1 2 3).wf = false := by decide
theorem wf_refuses_slide_of_zip : (Instr.vshuf hx t0 (ve .i32) 0 1 1 2 3).wf = false := by decide
theorem wf_refuses_far_element : (Instr.vbcastE hx t0 (ve .i32) 1 2 64).wf = false := by decide
theorem wf_refuses_sr_store_format : (Instr.vstSrPtr hx t0 (ve .fp32) 1 0 1 2 3 0).wf = false := by decide
theorem wf_refuses_acc_store_format : (Instr.vstAcc hx t0 (ve .fp32) 3 1 2 3 0).wf = false := by decide
theorem wf_refuses_level_6 : (Instr.nestLvl hx t0 1 6 0 0 0).wf = false := by decide
theorem wf_refuses_plane_257 : (Instr.nestOpt hx t0 1 0 ⟨0, 0, 0, 257, false, false, false⟩).wf = false := by decide
theorem wf_refuses_seed_without_rounding : (Instr.nestOpt hx t0 1 3 ⟨0, 0, 0, 0, false, false, false⟩).wf = false := by decide
theorem wf_refuses_gate_without_flag : (Instr.cp hx t0 1 2 ⟨.rne, 0⟩ 0 false 5).wf = false := by decide
theorem wf_refuses_compressing_op_4 : (Instr.cpCmp hx t0 1 2 ⟨.rne, 0⟩ 4 false 0).wf = false := by decide
theorem wf_refuses_glean_op_5 : (Instr.glean hx t0 1 2 ⟨.rne, 0⟩ 5).wf = false := by decide
theorem wf_refuses_empty_frame : (Instr.blkBegin hx 1 2 ⟨0, 0, false, false, 0⟩).wf = false := by decide
theorem wf_refuses_low_gradient : (Instr.gradZeroH h0 t0 31).wf = false := by decide
theorem wf_refuses_token_of_done : (Instr.ptDone h0 t9).wf = false := by decide
theorem wf_refuses_token_of_query : (Instr.chQry h0 t9 1 2).wf = false := by decide
theorem wf_refuses_write_of_cycle : (Instr.ctlWr h0 .cycle 1).wf = false := by decide
theorem wf_refuses_asid_of_all : (Instr.mmuInv hx t0 3 0 0 true false).wf = false := by decide
theorem wf_refuses_range_of_all : (Instr.mmuInv hx t0 0 4 0 false true).wf = false := by decide

-- ### Words of the spec's encodings, which its chapters give field by field

/-- What a privileged croft reads in a unit. -/
noncomputable def reads (x : Option (BitVec 52)) (w : Word) : Except DecErr Instr := decodeRaw true false ⟨x, w⟩

theorem decodes_add : reads none 0x0000002050C00000 = .ok (.add h0 4 5 6) := by decide +kernel
theorem decodes_bfx_s : reads none 0x00007028600012C8 = .ok (.bfxS h0 5 6 8 11) := by decide +kernel
theorem decodes_addi : reads none 0x088704387FFFFFF0 = .ok (.addi ⟨0, 2, 3, true, false⟩ 7 7 0xFFFFFFFFFFFFFFF0) := by decide +kernel
theorem decodes_ldi : reads (some 0x002A00000) 0x0080004800001000 = .ok (.ldi hx 9 0x002A000000001000) := by decide +kernel
theorem decodes_waitn : reads none 0x010024000FFFF000 = .ok (.waitn h0 0 0 63 31 31) := by decide +kernel
theorem decodes_loop : reads none 0x0100143FFFFFFFFD = .ok (.loop h0 7 0x7FFFFFFFD) := by decide +kernel
theorem decodes_load : reads none 0x0140085040A00202 = .ok (.ldW h0 10 ⟨4, 5, 2, 16⟩) := by decide +kernel
theorem decodes_swap : reads none 0x01804C4060024010 = .ok (.amoCasD h0 8 ⟨6, 0, 0, 0⟩ 9 2) := by decide +kernel
theorem decodes_or : reads none 0x0180144060000010 = .ok (.amoOrD h0 8 ⟨6, 0, 0, 0⟩ 0 2) := by decide +kernel
theorem decodes_gate_wait : reads none 0x01C0296000005000 = .ok (.gateWait h0 ⟨22, 0, 0, 0⟩ 5 0 0) := by decide +kernel
theorem decodes_acq_p : reads none 0x01C0180000008080 = .ok (.acqP h0 t0 8) := by decide +kernel
theorem decodes_vadd : reads none 0x0200014000001083 = .ok (.vadd h0 ⟨20, 0, 0, 0⟩ (ve .fp32) 1 2 3) := by decide +kernel
theorem decodes_vadd_masked : reads (some 0xA8) 0x0200014000001083 = .ok (.vadd hx ⟨20, 0, 0, 0⟩ ⟨.fp32, true, 2, true⟩ 1 2 3) := by decide +kernel
theorem decodes_vadds : reads (some 0x3) 0x0230015500005187 = .ok (.vadds hx ⟨21, 20, 0, 0⟩ (ve .i16) 5 6 7) := by decide +kernel
theorem decodes_vfsh : reads (some 0x10000000019) 0x02500805560081C6 = .ok (.vfshR hx ⟨0, 21, 22, 0⟩ ⟨.i32, true, 1, false⟩ 8 7 6 (.reg 1)) := by
  decide +kernel
theorem decodes_vrelu : reads none 0x0200217580002040 = .ok (.vrelu h0 ⟨23, 22, 0, 0⟩ (ve .fp32) 2 1) := by decide +kernel
theorem decodes_vld : reads (some 0x400000) 0x02C0014000003100 = .ok (.vld hx ⟨20, 0, 0, 0⟩ (ve .fp32) 3 4 0 64) := by decide +kernel
theorem decodes_vst_sr : reads (some 0x200002800) 0x02C01805C0002240 = .ok (.vstSrPtr hx ⟨0, 23, 0, 0⟩ (ve .fp32) 2 10 2 9 0 0) := by decide +kernel
theorem decodes_mm_run : reads none 0x0300116515002105 = .ok (.mmRun h0 ⟨22, 20, 21, 0⟩ 2 4 5) := by decide +kernel
theorem decodes_nest_opt : reads (some 0x200420) 0x0300080000000000 = .ok (.nestOpt hx t0 0 0 ⟨0, 2, 0, 1, false, false, true⟩) := by decide +kernel
theorem decodes_cp_dec : reads (some 0xB0000) 0x0340115500002040 = .ok (.cpDec hx ⟨21, 20, 0, 0⟩ 2 1 true 5) := by decide +kernel
theorem decodes_blk_begin : reads (some 0x200004) 0x0380000000010440 = .ok (.blkBegin hx 16 17 ⟨4, 0, false, false, 2⟩) := by decide +kernel
theorem decodes_blk_begin_seed : reads (some 0x403) 0x0380000000010440 = .ok (.blkBegin hx 16 17 ⟨3, 1, false, false, 0⟩) := by decide +kernel
theorem decodes_blk_end : reads none 0x0380040000000000 = .ok (.blkEnd h0) := by decide +kernel
theorem decodes_revb : reads none 0x0380080000000000 = .ok (.revb h0) := by decide +kernel
theorem decodes_trap : reads none 0x03C0000000000005 = .ok (.trap h0 5) := by decide +kernel
theorem decodes_tret : reads none 0x03C0040000000000 = .ok (.tret h0 0) := by decide +kernel
theorem decodes_ctl_rd : reads none 0x03C0082850000000 = .ok (.ctlRd h0 5 .devid) := by decide +kernel

/-- The bytes of `ADDI` at the lowest address first (R150), with what follows them; a word cut short. -/
theorem decodes_bytes : decode true false [0xF0, 0xFF, 0xFF, 0x7F, 0x38, 0x04, 0x87, 0x08, 0xAA] =
    .ok (.addi ⟨0, 2, 3, true, false⟩ 7 7 0xFFFFFFFFFFFFFFF0, [0xAA]) := by decide +kernel
theorem decodes_no_part : (match decode true false [0xF0, 0xFF, 0xFF, 0x7F] with | .ok _ => true | .error _ => false) = false := by decide +kernel
/-- R153, R164: a reserved function code, version 3, an `EXT` before a word that takes none, a register above 63, a privileged word in user mode. -/
theorem decodes_no_reserved_function : reads none 0x0000FC2050C00000 = .error .illop := by decide +kernel
theorem decodes_no_version_3 : reads none 0xC000002050C00000 = .error .illop := by decide +kernel
theorem decodes_no_prefixed_add : reads (some 0) 0x0000002050C00000 = .error .illop := by decide +kernel
theorem decodes_no_register_64 : reads none 0x0000020050C00000 = .error .badreg := by decide +kernel
theorem decodes_tret_in_user_mode_not : decodeRaw false false ⟨none, 0x03C0040000000000⟩ = .error .illop := by decide +kernel

-- ### States

/-- Croft 0 runs at `b0:0` with nothing in its queues and 4 KiB of its store, every channel is in service, buffer 0 of its context is the first
64 KiB of memory (as the model places one instruction); the scalars named hold what is named, and `f` changes the croft. -/
def base (rs : List (SReg × Word)) (f : CoreSt → CoreSt := id) : State :=
  { State.reset with eager := true, hbm := { State.reset.hbm with trn := 0 } }.modCore 0 (fun k =>
    let k1 := k.atFirst false [] []
    f (rs.foldl (fun (k : CoreSt) (x : SReg × Word) => k.wr x.1 x.2) { k1 with slot := { k1.slot with csneed := 4 } }))

/-- The outcome of an instruction as a state; the state before it where it stops. -/
def run (i : Instr) (s : State) : State :=
  match exec i s with
  | .next t => t
  | _ => s

/-- An operation answers, rather than stops or waits. -/
def isOk {α : Type} (x : Except Stop α × State) : Bool :=
  match x.1 with
  | .ok _ => true
  | .error _ => false

/-- What it answers, `d` where it does not: with `got_eq`, `isOk x` says that `x` is an answer and names it. -/
def got {α : Type} (d : α) (x : Except Stop α × State) : α :=
  match x.1 with
  | .ok a => a
  | .error _ => d
theorem got_eq {α : Type} (d : α) {x : Except Stop α × State} (h : isOk x = true) : x = (.ok (got d x), x.2) := by
  obtain ⟨r, s⟩ := x
  cases r with
  | ok a => rfl
  | error e => simp [isOk] at h

/-- `Ready` and `Quiet` as tests: `readyB` and `quietB` imply them (`ready_of`, `quiet_of`). -/
def readyB (s : State) (h : Hdr) (rs : List SReg) : Bool := s.me.taken h && !s.me.anyPend rs
theorem ready_of {s : State} {h : Hdr} {rs : List SReg} (x : readyB s h rs = true) : s.Ready h rs := by
  simp only [readyB, Bool.and_eq_true, Bool.not_eq_true'] at x; exact ⟨x.1, x.2⟩

def quietB (s : State) (h : Hdr) : Bool :=
  s.me.taken h && decide (s.me.q.es = []) && s.me.q.trap.isNone && s.me.q.sup.isNone && decide (s.me.res.redo = []) && s.me.pend == 0 && s.me.hpend == 0 && s.me.loc.promo.isNone &&
  !s.me.blockOpen && s.me.slot.roles == 0 && [QId.lq, .sq, .vq, .mq, .cq].all (fun q => decide (0 < s.me.slip q)) && s.author.isNone &&
  (copyCores (hamletOf s.active)).all (fun d => d == s.active || decide ((s.core d).q.es = []))
theorem quiet_of {s : State} {h : Hdr} (x : quietB s h = true) : s.Quiet h := by
  simp only [quietB, Bool.and_eq_true, Bool.not_eq_true', List.all_cons, List.all_nil, decide_eq_true_eq, Option.isNone_iff_eq_none, beq_iff_eq] at x
  obtain ⟨⟨⟨⟨⟨⟨⟨⟨⟨⟨⟨⟨a, b⟩, c⟩, d⟩, z⟩, e⟩, f⟩, g⟩, i⟩, j⟩, k⟩, l⟩, m⟩ := x
  refine ⟨a, b, c, d, z, e, f, g, i, j, by intro q; cases q <;> simp_all, l, fun y h n => ?_⟩
  have := List.all_eq_true.mp m y h
  simpa [n] using this

/-- A pointer into the croft store, and one into buffer 0. -/
def cr (off : Nat) : Word := BitVec.ofNat 64 (0xFFF0 * 2 ^ 48 + off)
/-- The croft store with bytes from an offset on. -/
def holds (off : Nat) (bs : List Byte) (k : CoreSt) : CoreSt :=
  { k with loc := { k.loc with store := bs.zipIdx.foldl (fun m x => SMap.set 0 m (off + x.2) x.1) k.loc.store } }

theorem quiet_base : (base []).Quiet h0 := quiet_of (by decide +kernel)

-- ### Statements with hypotheses: states and operands that meet them

/-- Scalar words: the registers are free and the predicate holds, at the edges of the statements' ranges. -/
theorem witness_TwoSourceResults : (base [(1, 5), (2, 7)]).Ready h0 [3, 1, 2] ∧ ∃ op ∈ Spec.twoSource, op.1 h0 3 1 2 = .sub h0 3 1 2 :=
  ⟨ready_of (by decide +kernel), _, List.mem_cons_of_mem _ (List.mem_cons_self ..), rfl⟩
theorem witness_DivisionNeverTraps : (base [(1, 0x8000000000000000), (2, 0)]).Ready h0 [3, 1, 2] ∧ ∃ op ∈ Spec.divisions, op.1 h0 3 1 2 = .div h0 3 1 2 :=
  ⟨ready_of (by decide +kernel), _, List.mem_cons_self .., rfl⟩
theorem witness_OneSourceResults : (base [(1, 0)]).Ready h0 [3, 1] ∧ ∃ op ∈ Spec.oneSource, op.1 h0 3 1 = .clz h0 3 1 :=
  ⟨ready_of (by decide +kernel), _, List.mem_cons_self .., rfl⟩
theorem witness_FieldAndPointerResults : (base [(1, 5), (2, 7)]).Ready h0 [3, 1, 2] ∧ (60#6).toNat + (3#6).toNat + 1 ≤ 64 :=
  ⟨ready_of (by decide +kernel), by decide⟩
theorem witness_FunnelShiftResults : (base [(1, 5), (2, 7), (4, 64)]).Ready h0 [3, 1, 2, 4] := ready_of (by decide +kernel)
theorem witness_SelectAndImmediateResults : (base [(1, 5)]).Ready h0 [3, 1, 0] ∧ (∃ op ∈ Spec.immediates, op.1 h0 3 1 0 = .addi h0 3 1 0) ∧
    ∃ op ∈ Spec.shifts, op.1 h0 3 1 63 = .shli h0 3 1 63 :=
  ⟨ready_of (by decide +kernel), ⟨_, List.mem_cons_self .., rfl⟩, _, List.mem_cons_self .., rfl⟩
theorem witness_PredicateResults : (base [(1, 5), (2, 5)]).Ready h0 [1, 2] ∧ (base []).Ready h0 [] ∧ ∃ op ∈ Spec.comparisons, op.1 h0 1 1 2 = .cmpEq h0 1 1 2 :=
  ⟨ready_of (by decide +kernel), ready_of (by decide +kernel), _, List.mem_cons_self .., rfl⟩
/-- The sum is the last offset, and one past it. -/
theorem witness_PointerAddResult : (base [(1, 0x1FFFFFFFFFFFF), (2, 0)]).Ready h0 [3, 1, 2] ∧
    (let s := base [(1, 0x1FFFFFFFFFFFF), (2, 0)]; ((s.me.rd 1).extractLsb' 0 48).toNat + (s.me.rd 2).toInt + (0#14).toInt = 2 ^ 48 - 1) :=
  ⟨ready_of (by decide +kernel), by decide +kernel⟩

/-- An `ADD` and a prefixed `LDI` that the next step fetches. -/
noncomputable def placed (x : Option (BitVec 52)) (w : Word) : State :=
  match x with
  | none => State.reset.withFetchWord 64 w.toNat
  | some x => State.reset.withFetchWord 128 (0x03F0000000000000 + x.toNat + 2 ^ 64 * w.toNat)
theorem witness_StepRunsDecoded_word : let s := placed none 0x0000002050C00000; let s1 := prepare s.active s; s.agenda = [] ∧ s.active < 264 ∧
    s1.active = s.active ∧ s1.mayIssue s1.active = true ∧ s1.me.walking = false ∧ s1.me.slot.ending = false ∧ isOk (fetchWord s1.active s1.me.f.pc s1) = true ∧
    decodeRaw false false ⟨none, 0x0000002050C00000⟩ = .ok (.add h0 4 5 6) := by decide +kernel
theorem witness_StepRunsDecoded_pair : let s := placed (some 0x002A00000) 0x0080004800001000; let s1 := prepare s.active s; s.agenda = [] ∧
    s1.mayIssue s1.active = true ∧ isOk (fetchWord s1.active s1.me.f.pc s1) = true ∧
    isOk (fetchWord s1.active (advance s1.me.f.pc 8) (fetchWord s1.active s1.me.f.pc s1).2) = true := by decide +kernel

/-- Nine entries in MQ: a unit with the yield bit waits; with eight it does not. -/
def fullMq (n : Nat) (k : CoreSt) : CoreSt :=
  { k with q := { k.q with es := List.replicate n (({ op := .mark h0 t0, h := h0, t := t0, qs := [.mq] } : Req).entryAt (base [])) } }
theorem witness_StepRunsDecoded_yield : let i := Instr.add ⟨0, 8, 0, false, false⟩ 1 2 3; i.hdr? = some ⟨0, 8, 0, false, false⟩ ∧
    (base [] (fullMq 9)).me.yields i = true ∧ (base [] (fullMq 8)).me.yields i = false ∧ (base [] (fullMq 9)).me.yields (.add h0 1 2 3) = false := by decide +kernel

theorem witness_DecodeOfEncode : let i := Instr.tret h0 0; i.isEvent = false ∧ i.wf = true ∧ i.privileged = true ∧ i.reaches true = true := by decide
theorem witness_UserModeDecode : decodeRaw true false ⟨none, 0x03C0040000000000⟩ = .ok (.tret h0 0) ∧ decodeRaw false false ⟨none, 0x0000002050C00000⟩ = .ok (.add h0 4 5 6) ∧
    (let i := Instr.tret h0 0; i.isEvent = false ∧ i.wf = true ∧ i.privileged = true) ∧
    (let i := Instr.ctlRd h0 3 .tvec; i.wf = true ∧ i.privileged = false ∧ i.reaches false = false) := by decide +kernel

/-- That an outcome is a next state. -/
def goes (x : Out) : Bool :=
  match x with
  | .next _ => true
  | _ => false
theorem goes_next {x : Out} (h : goes x = true) : ∃ t, x = .next t := by
  cases x with
  | next t => exact ⟨t, rfl⟩
  | fault e => simp [goes] at h
  | refused e => simp [goes] at h

theorem witness_StepKeepsSound : let s := placed none 0x0000002050C00000; Memory.wf s.mem = true ∧ s.coresExist = true ∧ ∃ t, step s = .next t :=
  ⟨by decide +kernel, by decide +kernel, goes_next (by decide +kernel)⟩
theorem witness_StepsNeverStop : (base []).coresExist = true ∧ (let s := { base [] with active := 264 }; s.agenda = [] ∧ 264 ≤ s.active) := by decide +kernel

/-- Predicate 1 is false; register 5 is pending. -/
def p1 : Hdr := ⟨0, 0, 1, false, false⟩
theorem witness_ScalarIssueConditions : Spec.scalarWord (.add p1 1 2 3) = some p1 ∧ Spec.transferWord (.br p1 2) = some p1 ∧
    Spec.memoryWord (.ldB p1 1 ⟨2, 3, 0, 0⟩) = some p1 ∧ (base []).me.taken p1 = false ∧ (base []).me.blockOpen = false ∧
    (let s := base [] (fun k => k.setPend 5); s.me.taken h0 = true ∧ s.me.anyPend (Spec.scalarRegs (.add h0 1 2 5)) = true) := by decide +kernel
theorem witness_ScalarFrame : Spec.scalarWord (.add h0 1 2 3) = some h0 ∧ (base []).me.q.trap.isSome = false ∧ ∃ t, exec (.add h0 1 2 3) (base []) = .next t :=
  ⟨rfl, by decide +kernel, goes_next (by decide +kernel)⟩

/-- The PC at both ends of the offsets that a transfer reaches. -/
def pcAt (o : Nat) (k : CoreSt) : CoreSt := k.setPc (BitVec.ofNat 64 o)
theorem witness_TransferResults : let s := base [(5, 8)] (pcAt 8); let z := base [(5, 1)] (pcAt (2 ^ 48 - 16)); s.me.blockOpen = false ∧ s.Ready h0 [] ∧
    Spec.relOff s.me.f.pc (BitVec.ofInt 35 (-1)) = 0 ∧ Spec.relOff z.me.f.pc 1 = 2 ^ 48 - 8 ∧ s.Ready h0 [5] ∧ z.Ready h0 [5] ∧ Spec.ofs (s.me.rd 5) % 8 = 0 ∧
    z.me.rd 5 = 1 ∧ s.me.rd 5 ≠ 1 :=
  ⟨by decide +kernel, ready_of (by decide +kernel), by decide +kernel, by decide +kernel, ready_of (by decide +kernel), ready_of (by decide +kernel),
   by decide +kernel, by decide +kernel, by decide +kernel⟩
/-- A block is open. -/
def opened (k : CoreSt) : CoreSt := { k with f := { k.f with blk := ⟨true, 0, 0, 0, 0⟩ } }
theorem witness_TransferTraps : let s := base [(5, 3)] (pcAt 8); let z := base [(5, 3)] (pcAt (2 ^ 48 - 8)); let o := base [] (pcAt 4); (base [] opened).me.blockOpen = true ∧
    Spec.transferWord (.br h0 1) = some h0 ∧ Spec.relWord (.br h0 1) = some 1 ∧ s.me.blockOpen = false ∧ s.Ready h0 (Spec.transferRegs (.loop h0 5 1)) ∧
    Spec.branches s.me (.loop h0 5 1) = true ∧ Spec.relOff s.me.f.pc (BitVec.ofInt 35 (-2)) = -8 ∧ Spec.relOff z.me.f.pc 1 = 2 ^ 48 ∧
    Spec.relOff o.me.f.pc 0 % 8 ≠ 0 ∧ s.Ready h0 [5] ∧ Spec.ofs (s.me.rd 5) % 8 ≠ 0 :=
  ⟨by decide +kernel, rfl, rfl, by decide +kernel, ready_of (by decide +kernel), by decide +kernel, by decide +kernel, by decide +kernel, by decide +kernel,
   ready_of (by decide +kernel), by decide +kernel⟩

/-- An entry that has not started, one of LQ. -/
def waitingEntry : Entry :=
  ({ op := .mark h0 t0, h := h0, t := t0, qs := [.lq] } : Req).entryAt (base [])
def queued1 (k : CoreSt) : CoreSt := { k with q := { k.q with es := [waitingEntry] } }
def priv (k : CoreSt) : CoreSt := { k with ctl := { k.ctl with priv := true } }
theorem witness_ReeveHolds : let s := base []; let z := base [] queued1; s.me.taken h0 = true ∧ s.me.allStarted = true ∧ z.me.allStarted = false ∧
    s.me.inFlight .lq ≤ (0#6).toNat ∧ ¬z.me.inFlight .lq ≤ (0#6).toNat ∧
    (base [] (fun k => { k with ctl := { k.ctl with dbgctl := 2 } })).me.ctl.dbgctl.getLsbD 1 = true ∧
    (base [] priv).privileged 0 = true ∧ (base [] priv).me.ctl.bevt = 0 ∧
    (base [] (fun k => { k with ctl := { k.ctl with priv := true, bevt := 4 } })).me.ctl.bevt ≠ 0 := by decide +kernel

/-- A trap has been chosen. -/
def aTrap : TrapRec := ⟨.trapi, 5, 0, 0, 0, 0, true⟩
def chosen (t : TrapRec) (k : CoreSt) : CoreSt := { k with q := { k.q with trap := some t } }
theorem witness_TrapWordsTrap : let s := { base [] with eager := false }; Spec.trapWord s.me (.trap h0 5) = some (h0, .trapi, 5) ∧ s.me.taken h0 = true ∧
    s.eager = false ∧ s.me.q.trap = none ∧ s.me.allStarted = true ∧ (base [] (chosen aTrap)).me.q.trap.isSome = true ∧
    (base [] queued1).me.allStarted = false := by decide +kernel

/-- Handlers are set up: `TVEC` and `TCUT` in buffer 0. -/
def handlers (k : CoreSt) : CoreSt := { k with ctl := { k.ctl with tvec := 0x400, tcut := 0x100 } }
theorem witness_TrapEntry : let s := base [] (fun k => chosen aTrap (handlers k)); let x := trapArea s.active (s.setCore s.active s.me.cut.core);
    s.me.q.trap = some aTrap ∧ s.me.q.es = [] ∧ aTrap.cause.fatal = false ∧ aTrap.cause ≠ .preempt ∧ aTrap.cause ≠ .timeout ∧ s.me.ctl.inHandler = false ∧
    isOk x = true ∧ isOk (writeStop s.active (got .croft x) s.me.ctl.tcut (stopRecord s.me aTrap s.me.cut (s.privileged s.active) false) x.2) = true := by
  decide +kernel
theorem witness_StopRecordFields : let k := (base []).me; aTrap.fq < 8 ∧ aTrap.fseq < 2 ^ 32 ∧ aTrap.code < 2 ^ 32 ∧ k.ctx.asid < 2 ^ 16 ∧ k.slot.running = none ∧
    k.cut.ret.lq < 2 ^ 32 ∧ k.cut.ret.sq < 2 ^ 32 ∧ k.cut.ret.vq < 2 ^ 32 ∧ k.cut.ret.mq < 2 ^ 32 ∧ k.cut.ret.cq < 2 ^ 32 ∧ k.cut.cqdone < 2 ^ 32 ∧
    k.cut.cqheld < 2 ^ 32 ∧ k.cut.held < 16 ∧ k.oldestUnstarted = none ∧ k.q.es = [] ∧ k.q.sup = none ∧
    (let k := (base []).me.enqueue h0 waitingEntry; k.oldestUnstarted = some waitingEntry ∧ k.q.es = [waitingEntry] ∧ waitingEntry.qs ≠ [] ∧
      waitingEntry.inQ .lq = true ∧ k.q.sup = none ∧ countBefore (waitingEntry.seq.at .lq) (k.q.issued.at .lq) = true) := by decide +kernel
/-- The bailiff of field 0, with a trap of cause ECC chosen; and one in a handler. -/
def bailiff (f : CoreSt → CoreSt) : State := { State.reset with active := 256, eager := true }.modCore 256 f
theorem witness_BailiffTrapStops : let s := bailiff (chosen ⟨.ecc, 0, 0, 0, 0, 0, true⟩); let z := bailiff (fun k => chosen aTrap { k with ctl := { k.ctl with inHandler := true } });
    256 ≤ s.active ∧ s.me.q.trap.isSome = true ∧ s.me.q.es = [] ∧ Cause.ecc.fatal = true ∧ z.me.q.trap = some aTrap ∧ z.me.ctl.inHandler = true := by decide +kernel
def atPoint (k : CoreSt) : CoreSt := { k with slot := { k.slot with running := some ⟨7, 1, 2, 3⟩ } }
theorem witness_BailiffTrapStops_croft : let s := base [] (fun k => atPoint (chosen ⟨.ecc, 0, 0, 0, 0, 0, true⟩ k)); s.active < 256 ∧
    s.me.q.trap = some ⟨.ecc, 0, 0, 0, 0, 0, true⟩ ∧ s.me.q.es = [] ∧ Cause.ecc.fatal = true ∧ s.paWaits (descPark s.me.ctx.desc + 0x50000 + 256 * s.active) = false ∧
    (s.part s.me.ctx.part).launches = [] ∧ s.me.res.stack = none ∧ s.me.loc.l1 = [] ∧ s.me.slot.active = true ∧ s.me.slot.running.isSome = true := by decide +kernel

theorem witness_UserModeIllop : (base []).privileged 0 = false ∧ (Instr.idle h0).privileged = true ∧ (Instr.idle h0).isEvent = false ∧
    Ctl.tvec.readable false = false ∧ Ctl.tvec.writable false = false := by decide +kernel
/-- Privileged code of a core whose partition has the ASIDs 0 to 3, the keys 0x40 to 0x4F and every hamlet; dirty lines under two keys. -/
def system (rs : List (SReg × Word)) : State :=
  let s := base rs priv
  { s with lines := [(3, { LineSt.zero with dirty := 0x46 }), (9, { LineSt.zero with dirty := 0x47 })] }.modPart s.me.ctx.part (fun p =>
    { p with hset := 0xFFFF, tb := { p.tb with asidbase := 0, ctxcnt := 4, keybase := 0x40, keycnt := 16 } })
/-- The first byte of the croft's store and its last 64 bytes; HAMLET, of which the context has no byte; a reserved index. -/
theorem witness_UserModeIllop_probe : let s := system [(1, cr 0), (2, cr 4032), (3, 0xFFF1000000000000), (4, 0xFFEF000000000000), (5, 0x45)]; quietB s h0 = true ∧
    s.eager = true ∧ s.privileged s.active = true ∧ s.me.loc.l1 = [] ∧ Spec.idx (s.me.rd 1) = Spec.winIdx .croft ∧ Spec.inWindow s .croft 0 1 ∧
    Spec.idx (s.me.rd 3) = Spec.winIdx .hamlet ∧ ¬Spec.inWindow s .hamlet 0 1 ∧ 0xFF00 ≤ (Spec.idx (s.me.rd 4)).toNat ∧ (Spec.idx (s.me.rd 4)).toNat < 0xFFF0 ∧
    Spec.inWindow s .croft 4032 64 ∧ s.lbad = [] ∧ ((s.me.rd 5).extractLsb' 0 12).toNat = 0x45 ∧ keyOk (s.part s.me.ctx.part) 0x45 = true ∧
    SMap.get 0 s.keys 0x45 = 0 ∧ SMap.wf .zero s.lines = true ∧ (s.part s.me.ctx.part).jn.jlog < 6 := by unfold Spec.inWindow; decide +kernel
theorem witness_UserModeIllop_key : let s := { system [(5, 0x45)] with keys := [(0x45, 7)] }; SMap.get 0 s.keys 0x45 ≠ 0 ∧ SMap.wf .zero s.lines = true ∧
    s.lines.length < 2 ^ 40 ∧ t9.td ≠ 0 ∧ quietB s h0 = true ∧ s.lines.countP (fun y => y.2.dirty == 0x45 + 1) = 1 := by decide +kernel
theorem witness_UserModeIllop_croft : let s := system [(1, 7)]; quietB s h0 = true ∧ ((s.me.rd 1).extractLsb' 0 8).toNat = 7 ∧ 7 ≠ s.active ∧
    ((s.me.rd 1).extractLsb' 8 9).toNat = s.devid ∧ (s.part s.me.ctx.part).hset.getLsbD (7 / 16) = true ∧ (s.core 7).slot.reqs = [] ∧ (s.core 7).loc.l1 = [] ∧
    (s.core 7).slot.running = none ∧ (s.core 7).slot.staged = none := by decide +kernel
theorem witness_UserModeIllop_mmu : let s := system [(1, 3), (2, 0), (3, 0x10000)]; let p := s.me.ctx.part; quietB s h0 = true ∧ s.cores.all (fun y => decide (y.2.loc.l1 = [])) = true ∧
    SMap.wf [] s.tlb2 = true ∧ SMap.wf [] s.tlb3 = true ∧ (s.part p).tb.asidbase ≤ 3 ∧ 3 < (s.part p).tb.asidbase + (s.part p).tb.ctxcnt ∧
    (coverOf (s.part p) 3 0 0x10000 false false).pages = 1 ∧ s.paWaits (s.descAddr p 3) = false ∧ (∃ d, s.descRead p 3 = .ok d) ∧
    (match s.descRead p 3 with
     | .ok d => (match (s.walkBy s.homeEntry (s.part p) (descRoot d) 0).1 with | .unmapped _ level => decide (level < 256) | _ => false)
     | .error _ => false) = true :=
  ⟨by decide +kernel, by decide +kernel, by decide +kernel, by decide +kernel, by decide +kernel, by decide +kernel, by decide +kernel, by decide +kernel, ⟨_, rfl⟩, by decide +kernel⟩
/-- An area at the start of a buffer of 4 MiB, whose page of 512 MiB the core holds. -/
theorem witness_UserModeIllop_cut : let s0 := system []; let s := s0.modCore 0 (fun k => { k with ctx := { k.ctx with
        bufs := [(0, some (BitVec.ofNat 256 (atBit 0x400000 64 + atBit 0xF 128 + atBit k.ctx.asid 144)))], tlb := [(tlbKey 2 k.ctx.asid 0, some ⟨firstLeaf, 2, false, true⟩)] } })
    let e := { ({ op := .cutSave h0 t9 1 2, h := h0, t := t9, qs := [.lq, .sq], barrier := true } : Req).entryAt s with xs := [7, 0] }
    let x := target 0 (e.x 0) s; let y := request 7 (.of 0 e false) s; let z := areaReady 0 e .wr y.2
    isOk x = true ∧ got 0 x = 7 ∧ x.2 = s ∧ isOk y = true ∧ got false y = true ∧ isOk z = true ∧ (z.2.core 7).slot.active = false ∧
    isOk (answerRequest 7 (.of 0 e false) z.2) = true := by decide +kernel
theorem witness_ControlReads : let s := base [] (fun k => atPoint (priv k)); s.Ready h0 [3] ∧ Ctl.bevt.readable (s.privileged s.active) = true ∧
    s.me.slot.running = some ⟨7, 1, 2, 3⟩ ∧ s.me.f.blk.dir < 4 ∧ s.me.res.stack = none :=
  ⟨ready_of (by decide +kernel), by decide +kernel, by decide +kernel, by decide +kernel, by decide +kernel⟩
theorem witness_ControlWrites : let s := base [(4, 0)] priv; s.Ready h0 [4] ∧ s.Ready h0 [] ∧ s.me.allStarted = true ∧ s.privileged s.active = true ∧
    (∀ r ∈ [Ctl.qslip, .tvec, .tcause, .tcut, .tscratch, .dbgctl], r.writable (s.privileged s.active) = true) ∧ Ctl.qslip.writable ((base []).privileged 0) = true ∧
    (base [(4, 0)] queued1).me.allStarted = false ∧ (base [(4, 0)] queued1).Ready h0 [4] :=
  ⟨ready_of (by decide +kernel), ready_of (by decide +kernel), by decide +kernel, by decide +kernel, by decide +kernel, by decide +kernel, by decide +kernel,
   ready_of (by decide +kernel)⟩
theorem witness_TrapReturn : let s := base [] (fun k => handlers (priv k));
    let x := checkSpan s.active .copy .rd s.me.ctl.tcut (Spec.ofs s.me.ctl.tcut) (Spec.ofs s.me.ctl.tcut + 255) s;
    let y := flushSpan s.active (got .croft x) false (Spec.ofs s.me.ctl.tcut) (Spec.ofs s.me.ctl.tcut + 255) x.2;
    s.privileged s.active = true ∧ readyB s h0 [0] = true ∧ (base [] queued1).me.q.es ≠ [] ∧ s.me.q.es = [] ∧ Spec.ofs s.me.ctl.tcut % 256 = 0 ∧
    isOk x = true ∧ isOk y = true ∧ isOk (homeRead s.active (got .croft x) .rd s.me.ctl.tcut (Spec.ofs s.me.ctl.tcut) 256 y.2) = true := by decide +kernel
/-- A resumption that suppresses the next entry of LQ. -/
theorem witness_TrapReturn_suppressed : let x : Suppress := ⟨⟨1, 0, 0, 0, 0⟩, 0, 0, 0⟩; let s := base [] (fun k => { k with q := { k.q with sup := some x, heldEs := [waitingEntry] } });
    let i := Instr.ldB h0 3 ⟨1, 2, 0, 0⟩; (Spec.queued s i).isSome = true ∧ Spec.movesStack i = false ∧ s.me.inBlock = false ∧ (Spec.memoryWord i).isSome = true ∧
    s.me.taken h0 = true ∧ s.me.hpend = 0 ∧ s.me.res.redo = [] ∧ s.me.q.sup = some x ∧ x.covers s.me.q.issued [.lq] = true ∧ s.me.q.heldEs ≠ [] := by decide +kernel

/-- Scalar memory: the last place of the croft's part, and the first. -/
def mo : MemOp := ⟨1, 2, 0, 0⟩
def mem (off : Nat) : State := base [(1, cr off), (3, 0x1122334455667788)]
/-- HAMLET and COMMONS of a context that has the first 64 KiB of each. -/
def granted (rs : List (SReg × Word)) : State :=
  base rs (fun k => { k with ctx := { k.ctx with desc := BitVec.ofNat 1024 (atBit 1 128 + atBit 1 144 + atBit 65536 224 + atBit 65536 288) } })
theorem witness_ScalarLoads : quietB (mem 4088) h0 = true ∧ (mem 4088).eager = true ∧ (mem 4088).lbad = [] ∧ Spec.inStore (mem 4088) mo .croft 8 4088 ∧
    Spec.inStore (mem 0) mo .croft 8 0 ∧ Spec.inStore (mem 4080) mo .croft 16 4080 ∧ (let s := base [(1, 0xFF00000000000000)]; 0xFF00 ≤ (Spec.idx (s.me.rd mo.a)).toNat) ∧
    ∃ op ∈ Spec.loads, op.2.1 = 1 := by
  unfold Spec.inStore Spec.inWindow; exact ⟨by decide +kernel, by decide +kernel, by decide +kernel, by decide +kernel, by decide +kernel, by decide +kernel,
    by decide +kernel, _, List.mem_cons_self .., rfl⟩
/-- The last doubleword of each. -/
theorem witness_ScalarLoads_windows : let s := granted [(1, 0xFFF1000000000000 + 65528)]; let z := granted [(1, 0xFFF2000000000000 + 65528)]; quietB s h0 = true ∧
    quietB z h0 = true ∧ Spec.inStore s mo .hamlet 8 65528 ∧ Spec.inStore z mo .commons 8 65528 := by
  unfold Spec.inStore Spec.inWindow; exact ⟨by decide +kernel, by decide +kernel, by decide +kernel, by decide +kernel⟩
/-- An access to the last doubleword of line 1 of buffer 0, whose page the core has reached; the L1 holds the line when `hit`. -/
def page0 : Place := ⟨504, 0, false, false, 0, 0⟩
def viaBuffer (hit : Bool) : State :=
  let s := base [(1, 504), (3, 0x1122334455667788)] (fun k => if hit then k.l1Set 1 (some ⟨0, 0, none, 0, false, [0], 0, []⟩) else k)
  { s with frames := SMap.set .zero s.frames 0 ((s.frame 0).reached page0.page page0.cls) }
theorem inBuffer_of (hit : Bool) (a : Acc) (n : Nat) (x : n ∈ [8] ∧ a ∈ [Acc.rd, .wr, .at]) : Spec.inBuffer (viaBuffer hit) mo a n 504 (firstBuffer (viaBuffer hit).me.ctx.asid) page0 := by
  obtain ⟨hn, ha⟩ := x
  simp only [List.mem_cons, List.not_mem_nil, or_false] at hn ha
  subst hn
  unfold Spec.inBuffer
  rcases ha with rfl | rfl | rfl <;> cases hit <;>
  exact ⟨by decide +kernel, by decide +kernel, by decide +kernel, by decide +kernel, by decide +kernel, by decide +kernel, by decide +kernel, by decide +kernel,
    ⟨⟨firstLeaf, 3, false, true⟩, by decide +kernel, by decide +kernel, by decide +kernel⟩, by decide +kernel, by decide +kernel⟩
theorem witness_ScalarLoads_buffer : let s := viaBuffer false; quietB s h0 = true ∧ s.eager = true ∧ s.me.l1Get (page0.pa / 256) = none ∧ s.me.loc.l1.length < 512 ∧
    s.clsWaits page0.cls page0.pa = false ∧ (∃ x, s.homeLine (page0.pa / 256) page0.key page0.compr = .ok x) ∧ quietB (viaBuffer true) h0 = true ∧
    ((viaBuffer true).me.l1Get (page0.pa / 256)).isSome = true :=
  ⟨by decide +kernel, by decide +kernel, by decide +kernel, by decide +kernel, by decide +kernel, ⟨_, rfl⟩, by decide +kernel, by decide +kernel⟩
theorem witness_ScalarStores : quietB (mem 4094) h0 = true ∧ Spec.inStore (mem 4094) mo .croft 2 4094 ∧ Spec.inStore (mem 4080) mo .croft 16 4080 ∧ ∃ op ∈ Spec.stores, op.2 = 2 := by
  unfold Spec.inStore Spec.inWindow; exact ⟨by decide +kernel, by decide +kernel, by decide +kernel, _, List.mem_cons_of_mem _ (List.mem_cons_self ..), rfl⟩
theorem witness_AcquireLoadReleaseStore : quietB (mem 4092) h0 = true ∧ Spec.inStore (mem 4092) mo .croft 4 4092 ∧ Spec.inStore (mem 0) mo .croft 16 0 ∧ (mem 0).me.loc.l1 = [] ∧
    (mem 0).me.loc.plog.length < 32 ∧ (∃ op ∈ Spec.acquiring, op.2 = 1) ∧ ∃ op ∈ Spec.releasing, op.2 = 1 := by
  unfold Spec.inStore Spec.inWindow; exact ⟨by decide +kernel, by decide +kernel, by decide +kernel, by decide +kernel, by decide +kernel,
    ⟨_, List.mem_cons_self .., rfl⟩, _, List.mem_cons_self .., rfl⟩
theorem witness_Atomics : quietB (mem 4088) h0 = true ∧ Spec.inStore (mem 4092) mo .croft 4 4092 ∧ Spec.inStore (mem 4088) mo .croft 8 4088 ∧ Spec.inStore (mem 4080) mo .croft 16 4080 ∧
    (∃ op ∈ Spec.atomics, op.2.1 = 4) ∧ ∃ op ∈ Spec.swapsIfEqual, op.2 = 4 := by
  unfold Spec.inStore Spec.inWindow; exact ⟨by decide +kernel, by decide +kernel, by decide +kernel, by decide +kernel, ⟨_, List.mem_cons_self .., rfl⟩, _, List.mem_cons_self .., rfl⟩
theorem witness_Atomics_buffer : let s := viaBuffer false; quietB s h0 = true ∧ (2#2) ≠ 0 ∧ s.me.l1Get (page0.pa / 256) = none ∧ s.clsWaits page0.cls page0.pa = false ∧
    s.mixed s.active page0.pa 8 = false ∧ (∃ bs, s.homeBytes page0.pa 8 page0.key page0.compr = .ok bs) ∧
    (∃ s', s.homePut page0.pa page0.key page0.compr (natBytes 8 7) = .ok s') ∧ (∃ op ∈ Spec.atomics, op.2.1 = 8) ∧
    ∀ e lv ad, s.leafAt s.active (bufBase (firstBuffer s.me.ctx.asid) + 504) .at = .leaf e lv ad → ptePull e = false := by
  refine ⟨by decide +kernel, by decide, by decide +kernel, by decide +kernel, by decide +kernel, ⟨_, rfl⟩, ⟨_, rfl⟩, ⟨_, List.mem_cons_of_mem _ (List.mem_cons_self ..), rfl⟩, ?_⟩
  intro e lv ad h
  have : (viaBuffer false).leafAt (viaBuffer false).active (bufBase (firstBuffer (viaBuffer false).me.ctx.asid) + 504) .at = .leaf 413 3 0 := by decide +kernel
  rw [this] at h
  cases h
  decide +kernel
/-- A bound stack with no frame. -/
def stack0 : Stack := ⟨5, 0, 0, 0x10000, 0, 0, 0, 2 ^ 48 - 1, 0, [], 0, 0, .none, 0, 0, 2 ^ 48 - 1, 0⟩
def bind (st : Stack) (k : CoreSt) : CoreSt := { k with res := { k.res with stack := some st } }
theorem witness_AccessTraps : let s := base [] (bind stack0); Spec.idx (cr 4088) = 0xFFF0 ∧ (s.core 0).res.stack.isSome = true ∧
    1024 * (s.core 0).slot.csneed < 4089 + 8 ∧ 4088 + 8 ≤ 1024 * (s.core 0).slot.csneed ∧ 4081 + 8 ≤ 1024 * (s.core 0).slot.csneed ∧ 4081 % 8 ≠ 0 ∧
    (s.core 0).slot.csneed ≤ 1472 ∧ (Spec.ofs (cr 4081) : Int) + (0 : Word).toInt * 2 ^ mo.ks.toNat + mo.disp.toInt = 4081 := by decide +kernel
/-- One byte beyond the first 64 KiB; a reserved index; PORT in user mode. -/
theorem witness_AccessTraps_windows : let s := granted []; (Spec.ofs (65529 : Word) : Int) + (0 : Word).toInt * 2 ^ mo.ks.toNat + mo.disp.toInt = 65529 ∧
    (descHg (s.core 0).ctx.desc).1 + (descHg (s.core 0).ctx.desc).2 < 65529 + 8 ∧ (descCg (s.core 0).ctx.desc).1 + (descCg (s.core 0).ctx.desc).2 < 65529 + 8 ∧
    0xFF00 ≤ (Spec.idx 0xFFF3000000000000).toNat ∧ s.privileged 0 = false ∧ Spec.idx 0xFFF8000000000000 = 0xFFF8 := by decide +kernel

theorem witness_WordsEnterQueues : let s := { base [(5, 1)] priv with eager := false }; let i := Instr.wake h0 t9 5; (Spec.queued s i).isSome = true ∧
    Spec.movesStack i = false ∧ quietB s h0 = true ∧ s.eager = false ∧ i.privileged = true ∧ s.privileged s.active = true ∧
    Spec.issueCheck i s.active [s.me.rd 5] [] s = (.ok (), s) :=
  ⟨by decide +kernel, rfl, by decide +kernel, rfl, rfl, by decide +kernel, rfl⟩
/-- A word with a check at issue: a copy between two tensors of the croft store. -/
def rec0 (off : Nat) : BitVec 512 := BitVec.ofNat 512 (0xFFF0 * 2 ^ 48 + off + 0x02 * 2 ^ 64 + 2 ^ 80 + 8 * 2 ^ 96 + 2 ^ 288)
def twoTensors (k : CoreSt) : CoreSt :=
  { k with eng := { k.eng with h := [(1, ⟨true, false, rec0 0, cr 0⟩), (2, ⟨true, false, rec0 1024, cr 64⟩)] } }
theorem witness_WordsEnterQueues_copy : let s := { base [] twoTensors with eager := false }; let i := Instr.cp h0 t9 1 2 ⟨.rne, 0⟩ 0 false 0;
    (Spec.queued s i).isSome = true ∧ quietB s h0 = true ∧ isOk (Spec.issueCheck i s.active [] [s.me.rdH 1, s.me.rdH 2] s) = true ∧ (Spec.issueCheck i s.active [] [s.me.rdH 1, s.me.rdH 2] s).2 = s := by decide +kernel
theorem witness_QueuedWorkCompletes : let s := base []; let i := Instr.mark h0 t9; let e := ({ op := i, h := h0, t := t9, qs := [.lq, .sq] } : Req).entryAt s;
    let s0 := s.setCore s.active (s.me.enqueue h0 e); let x := perform s.active (e.starting s.active s0) (s0.working s.active e);
    (Spec.queued s i).isSome = true ∧ Spec.movesStack i = false ∧ quietB s h0 = true ∧ s.eager = true ∧
    isOk x = true ∧ got .pend x = .done [] 0x800000 ∧ x.2.core s.active = s.me.enqueue h0 e ∧ s.me.q.es = [] ∧ s.me.pend = 0 ∧ s.me.hpend = 0 ∧
    s.me.q.trap = none ∧ s.me.q.sup = none ∧ (copyCores (hamletOf s.active)).all (fun d => d == s.active || decide ((x.2.core d).q.es = [])) = true := by decide +kernel
theorem witness_PredicatedOffSkips : let i := Instr.mark p1 t9; (Spec.queued (base []) i).isSome = true ∧ Spec.memoryWord i = none ∧
    quietB (base []) { p1 with pn := true } = true ∧ quietB { base [] with eager := false } { p1 with pn := true } = true ∧ i.privileged = false := by decide +kernel
theorem witness_PredicatedOffSkips_reeve : Spec.unqueued ((base []).privileged 0) (.yield p1) = some p1 ∧ (base []).active < 256 ∧ (base []).me.blockOpen = false ∧
    (base []).me.taken p1 = false ∧ t9.td ≠ 0 ∧ (base []).me.isPend t9.td = false ∧ t0.td = 0 ∧ Spec.unqueued ((base [] priv).privileged 0) (.tret p1 0) = some p1 := by decide +kernel

theorem witness_ElementOperations : quietB (base []) h0 = true ∧ (base []).eager = true ∧ (Instr.vadd h0 t9 (ve .fp32) 3 1 2).wf = true ∧
    (Instr.vabs hx t9 (ve .i16) 3 1).wf = true ∧ (Instr.vshl hx t9 (ve .i16) 3 1 (.imm 15)).wf = true ∧ (Instr.vmad hx t9 (ve .n32) 3 1 2).wf = true ∧
    (Instr.vbfx hx t9 (ve .i32) true 3 1 2).wf = true ∧ (∀ i < 2048 / 32, (let B := Spec.elem ((base []).me.rdV 2) 32; B i % 32 + (B i / 256 % 32 + 1) ≤ 32)) ∧
    (Instr.vfshL hx t9 (ve .n16) 3 1 2 (.imm 15)).wf = true ∧ quietB (base []) hx = true ∧ (Instr.vcvt hx t9 (ve .fp32) 2 3 ⟨.rne, 0⟩ 3 1).wf = true := by decide +kernel
theorem witness_MaskWords : quietB (base []) h0 = true ∧ (base []).eager = true := by decide +kernel
/-- A table at the last two bytes of the croft's part, and one at the first of the lane stores; every index is 0. -/
theorem witness_MovementWords_lookup : let s := base [(4, cr 4094), (5, 0xFFF3000000000000)]; s.lbad = [] ∧
    (∀ (l : Loc) (a : SReg), (l = .croft ∧ a = 4) ∨ (l = .lane ∧ a = 5) →
      Spec.lanesIn s (ve .n16) a l 128 2 (fun i => (Spec.ofs (s.me.rd a) : Int) + Spec.elem (s.me.rdV 1) 16 i * (16 / 8 : Nat)) (fun _ => Spec.ofs (s.me.rd a))) := by
  refine ⟨by decide +kernel, ?_⟩
  rintro l a (⟨rfl, rfl⟩ | ⟨rfl, rfl⟩) <;> unfold Spec.lanesIn Spec.inWindow <;> decide +kernel
theorem witness_MovementWords : quietB (base []) h0 = true ∧ (4#3).toNat ≤ 4 ∧ (64#16).toNat ≤ 2048 / Spec.width .i32 ∧ (0#16).toNat ≤ 2048 / Spec.width .i32 := by
  decide +kernel
theorem witness_PixelWords : quietB (base []) hx = true ∧ (Instr.vsad hx t9 (ve .i16) 3 1 2).wf = true ∧ (Instr.pixUnpk hx t9 (ve .n16) 0x0A 768 3 1).wf = true ∧
    (Instr.pixPack hx t9 (ve .n16) 0x0C 3 1).wf = true ∧ (Instr.vpack hx t9 (ve .fp32) 3 ⟨.rne, 0⟩ 3 1 2).wf = true ∧
    (Instr.vunpk hx t9 (ve .fp32) 2 true ⟨.rne, 0⟩ 3 1).wf = true := by decide +kernel
/-- 256 bytes at the end of the croft's part, and the first four of each lane store; elements that do not overlap. -/
theorem witness_VectorMemory : let s := mem 3840; quietB s h0 = true ∧ s.eager = true ∧ s.lbad = [] ∧
    Spec.lanesIn s (ve .fp32) 1 .croft 64 4 (Spec.elemOff s .fp32 1 2 0 .line) (fun i => 3840 + 4 * i) ∧
    Spec.lanesIn s (ve .fp32) 1 .croft 64 2 (fun i => (Spec.ofs (s.me.rd 1) : Int) + (s.me.rd 2).toInt + (0#16).toInt + 2 * i) (fun i => 3840 + 2 * i) ∧
    (Instr.vstSrPtr hx t9 (ve .fp32) 3 7 1 1 2 0).wf = true ∧
    ∀ i < 64, ∀ j < i, 3840 + 4 * i + 4 ≤ 3840 + 4 * j ∨ 3840 + 4 * j + 4 ≤ 3840 + 4 * i := by
  unfold Spec.lanesIn Spec.inWindow
  refine ⟨by decide +kernel, by decide +kernel, by decide +kernel, by decide +kernel, by decide +kernel, by decide +kernel, ?_⟩
  intro i _ j _; omega
theorem witness_VectorMemory_lane : let s := base [(1, 0xFFF3000000000000)]; quietB s h0 = true ∧
    Spec.lanesIn s (ve .fp32) 1 .lane 64 4 (Spec.elemOff s .fp32 1 2 0 .stride) (fun _ => 0) ∧
    ∀ i < 64, ∀ j < i, Spec.place s .lane (8 * 4 * i / 32) 0 + 4 ≤ Spec.place s .lane (8 * 4 * j / 32) 0 ∨
      Spec.place s .lane (8 * 4 * j / 32) 0 + 4 ≤ Spec.place s .lane (8 * 4 * i / 32) 0 := by
  unfold Spec.lanesIn Spec.inWindow
  refine ⟨by decide +kernel, by decide +kernel, ?_⟩
  intro i _ j _; simp only [Spec.place]; omega
/-- A record in a local window, from its format, extents and strides. -/
def shape (off fmt rank : Nat) (es ss : List Nat) (w : Nat := 0xFFF0) : BitVec 512 :=
  BitVec.ofNat 512 (atBit w 48 + off + atBit fmt 64 + atBit rank 80 + (es.zipIdx.map (fun p => atBit p.1 (96 + 32 * p.2))).foldl (· + ·) 0 +
    (ss.zipIdx.map (fun p => atBit p.1 (288 + 32 * p.2))).foldl (· + ·) 0)
def handles (rs : List (HReg × BitVec 512)) (k : CoreSt) : CoreSt := rs.foldl (fun k x => k.wrH x.1 ⟨true, false, x.2, 0⟩) k
/-- 64 elements of 2 bytes of which the last lies at the end of the croft's part, from the element before last on. -/
theorem witness_VectorMemory_handle : let r := shape 3968 2 1 [64] [1]; let s := base [(2, 63)] (handles [(3, r)]); quietB s h0 = true ∧ Spec.holds s.me 3 r ∧
    shFmt r = 2 ∧ (s.me.rd 2).toNat = 63 ∧ Spec.idx (shPtr r) = Spec.winIdx .croft ∧ shCount r = 64 ∧ Spec.tensorOff r 63 = 4094 ∧ Spec.inWindow s .croft 4094 2 ∧
    0 ≤ (Spec.ofs (shPtr r) : Int) + Spec.walkPos r [0, 1, 2, 3, 4, 5] 63 * 2 := by unfold Spec.holds Spec.inWindow; decide +kernel
theorem witness_NestWords : quietB (base []) h0 = true ∧ (base []).eager = true := by decide +kernel
/-- What a tensor needs, from its span. -/
theorem tensorIn_of {s : State} {r : BitVec 512} {l : Loc} (lo hi : Nat) (h : l ≠ .lane ∧ Spec.idx (shPtr r) = Spec.winIdx l ∧ 0 < shCount r ∧ shSpan r = ((lo : Int), (hi : Int)) ∧
    0 < fmtWidth (shFmt r) ∧ fmtWidth (shFmt r) % 8 = 0 ∧ shBitoff r = 0) (w : Spec.inWindow s l lo (hi + 1 - lo)) : Spec.tensorIn s r l :=
  ⟨⟨h.1, h.2.1, h.2.2.1, lo, hi, h.2.2.2.1, w⟩, h.2.2.2.2⟩
/-- A slot of six iterations; operands of 90 × 3 and 40 × 2 elements of one byte, the last at the end of the croft's part, and their gradients. -/
def sixTimes : Nest := ⟨[3, 2, 1, 1, 1, 1], [1, 3, 0, 0, 0, 0], [1, 0, 0, 0, 0, 0], 2, 125, 62, 8, 4, 0, 4, true, false, false, 12345⟩
def opA : BitVec 512 := shape 3000 6 2 [90, 3] [1, 90]
def opB : BitVec 512 := shape 4016 6 2 [40, 2] [1, 40]
def loomed : State := base [(1, 127)] (fun k => (handles [(1, opA), (2, opB)] k).wrSlot 2 sixTimes)
theorem operand_ok (s : State) (x : loomed.me.slot.csneed = s.me.slot.csneed ∧ loomed.active = s.active) :
    Spec.operandOk s sixTimes .croft opA sixTimes.sa ∧ Spec.operandOk s sixTimes .croft opB sixTimes.sb := by
  have h : s.me.slot.csneed = 4 ∧ s.active = 0 := ⟨x.1 ▸ (by decide +kernel), x.2 ▸ rfl⟩
  refine ⟨⟨by decide +kernel, by decide +kernel, tensorIn_of 3000 3269 (by decide +kernel) ?_, by decide +kernel, by decide +kernel⟩,
    ⟨by decide +kernel, by decide +kernel, tensorIn_of 4016 4095 (by decide +kernel) ?_, by decide +kernel, by decide +kernel⟩⟩ <;>
  simp [Spec.inWindow, h.1, h.2]
theorem witness_TileWords : quietB loomed h0 = true ∧ loomed.eager = true ∧ loomed.lbad = [] ∧ (loomed.me.rd 1).toNat + (0#7).toNat < 128 ∧ Spec.holds loomed.me 1 opA ∧
    Spec.holds loomed.me 2 opB ∧ loomed.me.rdSlot 2 = sixTimes ∧ Spec.Nest.whole sixTimes ∧ Spec.iterations sixTimes ≤ 2 ^ 24 ∧
    sixTimes.na ≤ (loomed.capsOf 0).1 ∧ sixTimes.nb ≤ (loomed.capsOf 0).2 ∧ shRank opA = 2 ∧ shRank opB = 2 ∧ sixTimes.rorg + shE opA 1 ≤ 128 ∧
    sixTimes.corg + shE opB 1 ≤ 64 ∧ Spec.operandOk loomed sixTimes .croft opA sixTimes.sa ∧ Spec.operandOk loomed sixTimes .croft opB sixTimes.sb := by
  unfold Spec.holds Spec.Nest.whole
  exact ⟨by decide +kernel, by decide +kernel, by decide +kernel, by decide +kernel, by decide +kernel, by decide +kernel, by decide +kernel, by decide +kernel,
    by decide +kernel, by decide +kernel, by decide +kernel, by decide +kernel, by decide +kernel, by decide +kernel, by decide +kernel, operand_ok _ ⟨rfl, rfl⟩⟩
/-- Batches of 8 rows and of 4 columns, 16 of them; an operand without elements. -/
theorem witness_TileWords_batch : let a := shape 0 6 3 [16, 8, 16] [1, 16, 128]; let b := shape 2048 6 3 [16, 4, 16] [1, 16, 64]; let z := shape 0 6 2 [0, 3] [1, 1];
    shRank a = 3 ∧ shRank b = 3 ∧ shE a 1 ≤ 8 ∧ shE b 1 ≤ 4 ∧ shE a 2 = shE b 2 ∧ shE a 2 ≤ 16 ∧ Spec.iterations ⟨[1, 1, 1, 1, 1, 1], [], [], 0, 0, 0, 16, 16, 0, 0, false, false, false, 0⟩ = 1 ∧
    shCount z = 0 ∧ shFmt z = 6 ∧ shRank z = 2 := by decide +kernel
/-- The product of two operands whose groups are read. -/
theorem witness_TileWords_read : let x := sixTimes; let e := { ({ op := .mmRun h0 t9 2 1 2, h := h0, t := t9, qs := [.mq] } : Req).entryAt loomed with
      hs := [loomed.me.rdH 1, loomed.me.rdH 2], start := some ⟨[], [], false, 16, 16⟩ }
    let o := openProduct 0 x opA opB loomed; let t := got (⟨0, .croft⟩, ⟨0, .croft⟩) o; let q := sidePairs 0 (sidesOf x e.caps t.1 t.2).1 (sidesOf x e.caps t.1 t.2).2 0 x.iters o.2
    isOk (productForm false x e.hs loomed) = true ∧ (productForm false x e.hs loomed).2 = loomed ∧ 0 < shCount opA ∧ 0 < shCount opB ∧ shE opA 2 = 1 ∧ isOk o = true ∧
    isOk q = true ∧ x.na ≤ e.caps.1 ∧ x.nb ≤ e.caps.2 ∧ e.aux = 0 := by decide +kernel
/-- A tensor of 3 × 2 elements; one of none. -/
def small : BitVec 512 := shape 64 2 2 [3, 2] [2, 12]
theorem small_writable : Spec.writable small := ⟨by decide +kernel, by decide +kernel⟩
theorem small_in : Spec.tensorIn (base []) small .croft := tensorIn_of 64 97 (by decide +kernel) (by unfold Spec.inWindow; decide +kernel)
theorem witness_TileWords_region : shFmt small = 2 ∧ shRank small = 2 ∧ 126 + shE small 1 ≤ 128 ∧ 61 + shE small 0 ≤ 64 ∧ Spec.tensorIn (base []) small .croft ∧ Spec.writable small ∧
    (let z := shape 64 2 2 [0, 2] [2, 12]; shCount z = 0 ∧ shFmt z = 2) := ⟨by decide +kernel, by decide +kernel, by decide +kernel, by decide +kernel, small_in, small_writable, by decide +kernel⟩
/-- Two groups of 16 elements in 4 planes, and the elements that they hold. -/
theorem witness_TileWords_planes : let d := shape 64 0x43 1 [2] [1]; let r := shape 2048 1 1 [20] [1]; let s := base []; Spec.spanIn s d .croft ∧ Spec.spanIn s r .croft ∧
    shBitoff d = 0 ∧ shBitoff r = 0 ∧ Spec.apart d r .croft .croft ∧ shRank d = shRank r ∧ (∀ k, 1 ≤ k → k < 6 → shE d k = shE r k) ∧ shInjective d = true ∧
    shInjective r = true ∧ isPlane (shFmt d) = true ∧ shFmt r = 1 ∧ shE d 0 = (shE r 0 + planeG (shFmt d) - 1) / planeG (shFmt d) ∧
    (∀ n < shCount d, ∀ m < n, Spec.walkPos d [0, 1, 2, 3, 4, 5] m ≠ Spec.walkPos d [0, 1, 2, 3, 4, 5] n) ∧
    (shE d 0 - 1) * planeG (shFmt d) < shE r 0 ∧ shE r 0 ≤ shE d 0 * planeG (shFmt d) ∧ Spec.writable r ∧
    (let G : Group := ⟨0, List.replicate 16 0⟩; ∀ n < shCount d, Spec.groupIn s .croft d (Spec.walkPos d [0, 1, 2, 3, 4, 5] n) G) := by
  refine ⟨⟨by decide +kernel, by decide +kernel, by decide +kernel, 64, 639, by decide +kernel, by unfold Spec.inWindow; decide +kernel⟩,
    ⟨by decide +kernel, by decide +kernel, by decide +kernel, 2048, 2127, by decide +kernel, by unfold Spec.inWindow; decide +kernel⟩, by decide +kernel, by decide +kernel,
    by unfold Spec.apart; decide +kernel, by decide +kernel, ?_, by decide +kernel, by decide +kernel, by decide +kernel, by decide +kernel, by decide +kernel, by decide +kernel,
    by decide +kernel, by decide +kernel, ⟨by decide +kernel, by decide +kernel⟩, by unfold Spec.groupIn; decide +kernel⟩
  intro k _ h; interval_cases k <;> decide +kernel
theorem witness_GradZero : quietB (base []) h0 = true ∧ (base []).eager = true ∧ Spec.holds (base [] (handles [(3, small)])).me 3 small ∧
    Spec.tensorIn (base []) small .croft ∧ Spec.writable small := by
  refine ⟨by decide +kernel, by decide +kernel, by unfold Spec.holds; decide +kernel, small_in, small_writable⟩
/-- The item of a load, its gradient at the first 256 bytes of the croft's store, and that of a product, after 64 bytes of the stack. -/
def itemStack (n x : Nat) : Stack := { stack0 with bytes := putStackBytes [] 64 (natBytes n x), depth := 2048 }
def reversed (i : Instr) (hs : List Handle := []) (aux : Nat := 65) : Entry := { ({ op := i, h := h0, t := t9, qs := [.vq] } : Req).entryAt (base []) with aux := aux, xs := [0], hs := hs, adj := true }
theorem witness_GradZero_vector : let st := itemStack 8 (cr 0).toNat; let s := base [] (bind st); let e := reversed (.vld h0 t9 (ve .fp32) 3 4 5 0); s.me.res.stack = some st ∧
    s.lbad = [] ∧ e.seen s.me = s.me ∧ (∃ op ∈ Spec.adjoints2, op.1 h0 t9 (ve .fp32) 3 4 5 = (reversed (.vadd h0 t9 (ve .fp32) 3 4 5)).op) ∧
    (∃ op ∈ Spec.adjoints1, op.1 h0 t9 (ve .fp32) 3 4 = (reversed (.vrelu h0 t9 (ve .fp32) 3 4)).op) ∧
    (let q := Spec.gradientOf (e.x 0) (BitVec.ofNat 64 (Spec.itemNat st e 0 8)); Spec.idx q = Spec.winIdx .croft ∧
      ∀ i < 64, (Spec.ofs q + 4 * i) % 4 = 0 ∧ Spec.inWindow s .croft (Spec.ofs q + 4 * i) 4) :=
  ⟨by decide +kernel, by decide +kernel, by decide +kernel, ⟨_, List.mem_cons_self .., rfl⟩, ⟨_, List.mem_cons_self .., rfl⟩, by unfold Spec.inWindow; decide +kernel⟩
def other : BitVec 512 := shape 1024 1 2 [3, 2] [1, 3]
/-- A record whose elements follow each other may be written. -/
theorem writable_of {r : BitVec 512} (o w : Nat) (hw : 0 < w) (hi : shInjective r = true) (h : ∀ n < shCount r, Spec.tensorOff r n = o + w * n) : Spec.writable r := by
  refine ⟨hi, fun n hn m hm => ?_⟩
  rw [h n hn, h m (by omega)]
  intro e
  have := Nat.eq_of_mul_eq_mul_left hw (Nat.add_left_cancel e)
  omega
def asHandle (r : BitVec 512) : Handle := ⟨true, false, r, 0⟩
theorem other_in : Spec.tensorIn (base []) other .croft := tensorIn_of 1024 1047 (by decide +kernel) (by unfold Spec.inWindow; decide +kernel)
theorem other_writable : Spec.writable other := ⟨by decide +kernel, by decide +kernel⟩
theorem witness_GradZero_copy : let e := reversed (.cp h0 t9 1 2 ⟨.rne, 0⟩ 0 false 0) [asHandle small, asHandle other, asHandle small, asHandle other] 0; e.aux = 0 ∧ shFmt small ∈ [1, 2, 3] ∧
    shFmt other ∈ [1, 2] ∧ shCount small = shCount other ∧ Spec.tensorIn (base []) small .croft ∧ Spec.tensorIn (base []) other .croft ∧ Spec.writable small ∧ Spec.writable other ∧
    Spec.apart small other .croft .croft :=
  ⟨rfl, by decide +kernel, by decide +kernel, by decide +kernel, small_in, other_in, small_writable, other_writable, by unfold Spec.apart; decide +kernel⟩
/-- A product of two iterations over 20 × 2 and 20 × 1 elements. -/
def twice : Nest := ⟨[2, 1, 1, 1, 1, 1], [1, 0, 0, 0, 0, 0], [1, 0, 0, 0, 0, 0], 2, 5, 7, 8, 4, 0, 4, false, false, false, 0⟩
theorem witness_GradZero_product : let st := itemStack 64 twice.bits; let s := base [] (bind st); let a := shape 0 6 2 [20, 2] [1, 20]; let b := shape 64 6 2 [20, 1] [1, 20];
    let ga := shape 256 1 2 [20, 2] [1, 20]; let gb := shape 512 2 2 [20, 1] [1, 20]; let e := reversed (.mmRun h0 t9 3 1 2) [asHandle a, asHandle b, asHandle ga, asHandle gb];
    s.me.res.stack = some st ∧ e.aux ≠ 0 ∧ Nest.ofBits (Spec.itemNat st e 0 64) = twice ∧ savesH 0 1 = false ∧ savesH 0 2 = false ∧ Spec.iterations twice ≤ 2 ^ 24 ∧
    (∀ p ∈ [(a, ga), (b, gb)], 1 ≤ shRank p.1 ∧ shRank p.1 ≤ 2 ∧ shRank p.2 = shRank p.1 ∧ (shFmt p.2 = 1 ∨ shFmt p.2 = 2) ∧ ∀ k < 6, shE p.2 k = shE p.1 k) ∧
    Spec.writable ga ∧ Spec.writable gb ∧ Spec.operandOk s twice .croft a twice.sa ∧ Spec.operandOk s twice .croft b twice.sb ∧ twice.rorg + shE a 1 ≤ 128 ∧ twice.corg + shE b 1 ≤ 64 ∧
    Spec.tensorIn s ga .croft ∧ Spec.tensorIn s gb .croft ∧ Spec.apart ga gb .croft .croft := by
  refine ⟨by decide +kernel, by decide +kernel, by decide +kernel, by decide +kernel, by decide +kernel, by decide +kernel, (by intro p hp; rcases List.mem_pair.mp hp with h | h <;> rw [h] <;> decide +kernel),
    writable_of 256 4 (by decide) (by decide +kernel) (by decide +kernel), writable_of 512 2 (by decide) (by decide +kernel) (by decide +kernel), ⟨by decide +kernel, by decide +kernel, tensorIn_of 0 39 (by decide +kernel) ?_, by decide +kernel, by decide +kernel⟩,
    ⟨by decide +kernel, by decide +kernel, tensorIn_of 64 83 (by decide +kernel) ?_, by decide +kernel, by decide +kernel⟩, by decide +kernel, by decide +kernel,
    tensorIn_of 256 415 (by decide +kernel) ?_, tensorIn_of 512 551 (by decide +kernel) ?_, by unfold Spec.apart; decide +kernel⟩ <;>
  unfold Spec.inWindow <;> decide +kernel
theorem witness_HandleWords : let s := base [(1, cr 4032)] (fun k => { k with eng := { k.eng with h := [(2, ⟨true, false, rec0 0, cr 0⟩)] } }); quietB s h0 = true ∧
    s.lbad = [] ∧ s.me.slot.csneed ≤ 1472 ∧ Spec.idx (s.me.rd 1) = 0xFFF0 ∧ Spec.ofs (s.me.rd 1) % 64 = 0 ∧ Spec.ofs (s.me.rd 1) + 64 ≤ 1024 * s.me.slot.csneed ∧
    Spec.idx (s.me.rdH 2).addr = 0xFFF0 ∧ Spec.ofs (s.me.rdH 2).addr = 0 := by decide +kernel
theorem witness_TokenWords : readyB (base []) h0 [1, 2, 3] = true ∧ t0.td = 0 ∧ t9.td ≠ 0 ∧ quietB (base []) h0 = true ∧
    (base [] (fun k => k.setPend 5)).me.anyPend [5, 0, 0] = true ∧ (base []).me.anyPend [5, 0, 0] = false := by decide +kernel
theorem witness_OrderingWords : quietB (base []) h0 = true ∧ (base []).me.loc.l1 = [] ∧ (base []).me.loc.plog.length < 32 := by decide +kernel
/-- Copies: two tensors of the croft's store; a line of a compressible buffer, from and to the store; elements of a buffer. -/
theorem witness_HandleWords_copy : let s := base [] (handles [(1, small), (2, other)]); quietB s h0 = true ∧ s.eager = true ∧ s.lbad = [] ∧ Spec.holds s.me 1 small ∧
    Spec.holds s.me 2 other ∧ Spec.tensorIn (base []) other .croft ∧ Spec.tensorIn (base []) small .croft ∧ Spec.byteFmt other ∧ Spec.byteFmt small ∧ Spec.writable small ∧
    shInjective other = true ∧ Spec.apart small other .croft .croft ∧ shCount small = shCount other ∧ shFmt small = 2 ∧ 0xFEFF < (Spec.idx (shPtr other)).toNat :=
  ⟨by decide +kernel, by decide +kernel, by decide +kernel, by unfold Spec.holds; decide +kernel, by unfold Spec.holds; decide +kernel, other_in, small_in,
   by unfold Spec.byteFmt; decide +kernel, by unfold Spec.byteFmt; decide +kernel, small_writable, by decide +kernel, by unfold Spec.apart; decide +kernel, by decide +kernel,
   by decide +kernel, by decide +kernel⟩
def fixedRate : State := base [] (fun k => { k with ctx := { k.ctx with bufs := k.ctx.bufs.map (fun x => (x.1, x.2.map (fun b => b ||| (1#256 <<< 136)))) } })
def inStore0 : BitVec 512 := shape 0 5 1 [128] [1]
def inBuffer0 : BitVec 512 := shape 1024 5 1 [128] [1] 0
def copies (i : Instr) (d r : BitVec 512) : Entry := { ({ op := i, h := h0, t := t9, qs := [.cq] } : Req).entryAt (base []) with hs := [asHandle d, asHandle r] }
theorem lines_in (s : State) (x : s.me.slot.csneed = 4 ∧ s.active = 0) : Spec.tensorIn s inStore0 .croft :=
  tensorIn_of 0 255 (by decide +kernel) (by simp [Spec.inWindow, x.1, x.2])
theorem lines_writable : Spec.writable inStore0 := writable_of 0 2 (by decide) (by decide +kernel) (by decide +kernel)
theorem witness_HandleWords_expand : let e := copies (.cpDec h0 t9 1 2 false 0) inStore0 inBuffer0; let x := openPair 0 e fixedRate; let src := (got (⟨0, .croft⟩, ⟨0, .croft⟩) x).1;
    let y := storedLine 0 src.loc (ptrAt (shPtr src.r) (Spec.ofs (shPtr src.r))) (Spec.ofs (shPtr src.r)) x.2
    isOk x = true ∧ (got (⟨0, .croft⟩, ⟨0, .croft⟩) x).2.loc = .croft ∧ isOk y = true ∧ (got (9, 0) y).1 < 5 ∧ y.2.active = 0 ∧ y.2.lbad = [] ∧ y.2.me.slot.csneed = 4 ∧
    shCount inBuffer0 = 128 ∧ shCount inStore0 = 128 ∧ fmtWidth (shFmt inStore0) = 16 ∧ Spec.tensorIn y.2 inStore0 .croft ∧ Spec.writable inStore0 :=
  ⟨by decide +kernel, by decide +kernel, by decide +kernel, by decide +kernel, by decide +kernel, by decide +kernel, by decide +kernel, by decide +kernel, by decide +kernel,
   by decide +kernel, lines_in _ ⟨by decide +kernel, by decide +kernel⟩, lines_writable⟩
theorem witness_HandleWords_glean : let e := copies (.glean h0 t9 1 2 ⟨.rne, 0⟩ 4) inStore0 (shape 1024 5 1 [8] [1] 0); let x := openPair 0 e fixedRate;
    let src := (got (⟨0, .croft⟩, ⟨0, .croft⟩) x).1; let y := readUntil (gleanVal 0 src) (numbered src.r) x.2
    isOk x = true ∧ isOk y = true ∧ (got ([], some .wait) y).2 = none ∧ (got ([], some .wait) y).1.length = 8 ∧ Spec.byteFmt inStore0 ∧ (4#3).toNat < 5 ∧ y.2.active = 0 ∧ y.2.lbad = [] ∧
    Spec.tensorIn y.2 inStore0 .croft :=
  ⟨by decide +kernel, by decide +kernel, by decide +kernel, by decide +kernel, by unfold Spec.byteFmt; decide +kernel, by decide, by decide +kernel, by decide +kernel,
   lines_in _ ⟨by decide +kernel, by decide +kernel⟩⟩
theorem witness_HandleWords_compress : let e := copies (.cpCmp h0 t9 1 2 ⟨.rne, 0⟩ 0 false 0) inBuffer0 inStore0; let x := openPair 0 e fixedRate; let p := got (⟨0, .croft⟩, ⟨0, .croft⟩) x;
    let y := readUntil (cmpElem 0 p.1 5 (e.mode ⟨.rne, 0⟩)) (numbered p.1.r) x.2; let b := match p.2.loc with | .glob b => b | _ => 0;
    let z := translate 0 b (bufBase b + Spec.ofs (shPtr p.2.r)) .wr (ptrAt (shPtr p.2.r) (Spec.ofs (shPtr p.2.r))) y.2; let pl := got ⟨0, 0, false, false, 0, 0⟩ z; let w := awaitAt 0 pl z.2
    isOk x = true ∧ p.2.loc = .glob b ∧ isOk y = true ∧ (got ([], some .wait) y).2 = none ∧ (got ([], some .wait) y).1 = List.replicate 128 0 ∧ isOk z = true ∧ isOk w = true ∧
    (match w.2.putBlock (pl.pa / 256) pl.key 1 0 (blockOf 0).1 with | .ok _ => true | .error _ => false) = true := by decide +kernel
/-- Gate 3 of croft 0: its count is 2, phase 7. -/
def gated : State := let s := base [(1, 3), (2, 2), (3, 1), (4, 6)]; { s.setGate 0 3 ⟨9, 2, 7, false, true⟩ with gateAsid := [(0, s.me.ctx.asid + 1)] }
theorem witness_GateWords : gated.active < 256 ∧ quietB gated h0 = true ∧ gated.eager = true ∧ ((gated.me.rd 1).extractLsb' 6 8).toNat = gated.active ∧
    SMap.get 0 gated.gateAsid gated.active = gated.me.ctx.asid + 1 ∧ (gated.gate 0 3).valid = true ∧ gated.me.slot.gated = false ∧ 0 < (gated.gate 0 3).cnt ∧
    0 < (gated.gate 0 3).init ∧ (gated.gate 0 3).cnt ≤ ((gated.me.rd 2).extractLsb' 0 40).toNat ∧ ((gated.me.rd 3).extractLsb' 0 40).toNat < (gated.gate 0 3).cnt ∧
    (gated.gate 0 3).phase = (((gated.me.rd 4).extractLsb' 0 32).toNat + 1) % 2 ^ 32 := by decide +kernel

def frameParm : BlkParm := ⟨1, 0, false, false, 0⟩
theorem witness_BlockBegins : let s := base [(1, 5)] (bind stack0); readyB s h0 [1, 2] = true ∧ s.me.blockOpen = false ∧ s.me.q.es = [] ∧
    s.me.res.stack = some stack0 ∧ ((s.me.rd 1).extractLsb' 0 16).toNat = stack0.id ∧ stack0.depth - stack0.cold + 64 * frameParm.fsz.toNat ≤ 65536 ∧
    stack0.depth - stack0.cold + 64 * (1023#10).toNat ≤ 65536 ∧ 1 ≤ frameParm.fsz.toNat ∧ stack0.topf < 2 ^ 48 := by decide +kernel
/-- A frame of 64 bytes whose block is the `BLK.BEGIN`, `MARK`, `BLK.END` that stand at `b0:0`. -/
def code : SMap Byte := ((wordBytes [0x03F000000000000A, 0x0380000000010000, 0x0000000000000000, 0x0380040000000000]).zipIdx).map (fun x => (x.2, x.1)) |>.filter (fun x => x.2 ≠ 0)
def stack1 : Stack := { stack0.setHdr 0 (mkHdr 0 24 0 1 0 false false false false 0 0 64 (2 ^ 48 - 1)) with depth := 64, topf := 0, nfr := 1 }
def walker : State := base [] (fun k => bind stack1 { k with ctx := { k.ctx with imem := code } })
theorem witness_BlockEnds : let s := base [] (fun k => opened (bind stack0 k)); s.me.taken h0 = true ∧ s.me.blockOpen = true ∧ s.me.f.blk.dir = 0 ∧
    s.me.res.stack = some stack0 ∧ s.me.f.blk.cur < 2 ^ 32 ∧ (base []).me.blockOpen = false := by decide +kernel
/-- That block at its `BLK.END`, replayed: it has written no item, as its frame has none, or one too many. -/
def replaying (cur : Nat) : State :=
  base [] (fun k => bind stack1 { k with ctx := { k.ctx with imem := code }, f := { k.f with pc := 24, blk := ⟨true, 2, 0, cur, 0⟩ } })
theorem witness_BlockEnds_replay : let s := replaying 0; let x := prevUnit s.active s.me.f.pc s; s.me.taken h0 = true ∧ s.me.blockOpen = true ∧
    s.me.f.blk.dir = 2 ∧ s.me.res.stack = some stack1 ∧ s.me.q.es = [] ∧ s.me.f.blk.cur = frPbytes (stack1.hdr stack1.topf) ∧ isOk x = true ∧ got 0 x = 16 ∧
    (x.2.core s.active).f = s.me.f ∧ (run (.blkEnd h0) s).me.f.pc = 16 ∧ (replaying 1).me.f.blk.cur ≠ frPbytes (stack1.hdr stack1.topf) := by decide +kernel
theorem witness_ReverseWalkBegins : walker.me.taken h0 = true ∧ walker.me.blockOpen = false ∧ walker.me.q.es = [] ∧ (base []).me.res.stack = none ∧
    (base [] (bind stack0)).me.res.stack = some stack0 ∧ stack0.nfr = 0 ∧ walker.me.res.stack = some stack1 ∧ 0 < stack1.nfr ∧ frUf (stack1.hdr 0) = false ∧
    frDmtd (stack1.hdr 0) = false := by decide +kernel
theorem witness_ReverseWalkBegins_code : let x := unitIs 0 (frBpc (stack1.hdr 0)) Raw.isBlkBegin walker; let y := unitIs 0 (frEpc (stack1.hdr 0)) Raw.isBlkEnd x.2;
    let z := prevUnit 0 (frEpc (stack1.hdr 0)) y.2; isOk x = true ∧ got false x = true ∧ isOk y = true ∧ got false y = true ∧ isOk z = true ∧ got 0 z = 16 ∧
    stack1.cold ≤ stack1.topf := by decide +kernel
theorem witness_StackMarksAndPoints : let s := { base [(1, 0)] (bind stack1) with eager := false }; readyB s h0 [1] = true ∧ s.me.q.es = [] ∧ s.me.res.stack = some stack1 ∧
    s.me.blockOpen = false ∧ Spec.ofs (s.me.rd 1) ∈ stack1.allFrames ∧ Spec.ofs (64 : Word) = stack1.depth ∧ s.active < 256 ∧ s.me.taken h0 = true ∧ s.eager = false ∧
    readyB s h0 [3, 0, 0, 0] = true ∧ s.devid < 512 ∧ s.me.slot.running = none ∧ (s.me.rdCh 1).getLsbD 0 = false := by decide +kernel
theorem witness_StackMarksAndPoints_push : let s := { base [] (fun k => bind stack0 (twoTensors k)) with eager := false }; let x := rsPushPre s.active [] [s.me.rdH 1] s;
    quietB s h0 = true ∧ isOk x = true ∧ x.2.core s.active = { s.me with res := (x.2.core s.active).res } ∧
    (let y := { x.2 with eager := false }; let z := rsPopPre y.active [] [y.me.rdH 1] y; isOk z = true ∧ z.2.core y.active = { y.me with res := (z.2.core y.active).res }) := by
  decide +kernel

/-- A clean line and a dirty one in the croft's L1. -/
def cached (dirty : BitVec 256) (k : CoreSt) : CoreSt := { k with loc := { k.loc with l1 := [(9, some ⟨0xAB, dirty, some 3, 0, false, [], 0, []⟩)] } }
theorem witness_OrderingWords_dirty : let s := base [] (cached 1); quietB s h0 = true ∧ s.eager = true ∧ (2#2) ≠ 0 ∧
    s.me.loc.l1 = [(9, some ⟨0xAB, 1, some 3, 0, false, [], 0, []⟩)] ∧ (1#256) ≠ 0 ∧ s.clsWaits 0 (256 * 9) = false ∧ ∃ s', s.homeWrite 9 0 false 0xAB 1 = .ok s' :=
  ⟨by decide +kernel, by decide +kernel, by decide, by decide +kernel, by decide +kernel, by decide +kernel, _, rfl⟩
/-- A gate of croft 5, and one that is parked, its context's park area at the address 0. -/
theorem witness_GateWords_arrivals : let s := base [(1, 3 + 64 * 5), (2, 1)]; let x := { s.setGate 5 3 ⟨1, 2, 7, false, true⟩ with gateAsid := [(5, s.me.ctx.asid + 1)] };
    let z := { s.setGate 5 3 ⟨1, 0, 7, false, false⟩ with gateAsid := [(5, s.me.ctx.asid + 1)] };
    let parked := descPark (s.descOf s.me.ctx.part s.me.ctx.asid) + 0x10000 + 1024 * 5 + 16 * 3; let u := s.physPut parked (natBytes 16 (⟨1, 2, 7, false, true⟩ : Gate).bits)
    quietB s h0 = true ∧ ((s.me.rd 1).extractLsb' 6 8).toNat = 5 ∧ ((s.me.rd 1).extractLsb' 0 6).toNat = 3 ∧ quietB x h0 = true ∧ SMap.get 0 x.gateAsid 5 = x.me.ctx.asid + 1 ∧
    (x.gate 5 3).valid = true ∧ (x.core 5).slot.gated = false ∧ (z.gate 5 3).valid = false ∧ SMap.get 0 s.gateAsid 5 ≠ s.me.ctx.asid + 1 ∧ s.paWaits parked = false ∧
    (match s.phys parked 16 with | .ok bs => !(Gate.ofBits (leNat bs)).valid | .error _ => false) = true ∧ u.paWaits parked = false ∧ quietB u h0 = true ∧
    (match u.phys parked 16 with | .ok bs => (Gate.ofBits (leNat bs)).valid | .error _ => false) = true :=
  ⟨by decide +kernel, by decide +kernel, by decide +kernel, by decide +kernel, by decide +kernel, by decide +kernel, by decide +kernel, by decide +kernel, by decide +kernel,
   by decide +kernel, by decide +kernel, by decide +kernel, by decide +kernel, by decide +kernel⟩
/-- Gate 3 of croft 0 at phase 7 is past the phases 6 and 7 - 2^31; gate 4 has no parties. -/
theorem witness_GateWords_waits : let s := (base [(4, 6), (5, BitVec.ofNat 64 (7 + 2 ^ 31))]).setGate 0 3 ⟨1, 2, 7, false, true⟩; quietB s h0 = true ∧
    ((s.gate 0 3).phase + 2 ^ 32 - ((s.me.rd 4).extractLsb' 0 32).toNat) % 2 ^ 32 = 1 ∧ ((s.gate 0 3).phase + 2 ^ 32 - ((s.me.rd 5).extractLsb' 0 32).toNat) % 2 ^ 32 = 2 ^ 31 ∧
    (s.gate 0 4).init = 0 := by decide +kernel
/-- Rings of two slots, full and empty, whose header has its tail at 2^32 - 1. -/
def ringAtTail (at_ tl : Nat) (ptr : Word) : State :=
  let put := fun (m : SMap Byte) (x : Nat × Nat × Nat) => (natBytes x.2.1 x.2.2).zipIdx.foldl (fun m y => SMap.set 0 m (at_ + x.1 + y.2) y.1) m
  let m := [(0, 8, (ptr + 64).toNat), (8, 1, 1), (16, 4, 2 ^ 32 - 1), (20, 4, tl)].foldl put []
  let s := granted [(1, ptr)]
  { s with hmem := m, commons := m }
theorem witness_GateWords_ring : let p : Word := 0xFFF1000000000000 + 65408; let q : Word := 0xFFF2000000000000; let s := ringAtTail 65408 1 p; let z := ringAtTail 65408 0 p; let c := ringAtTail 0 (2 ^ 32 - 1) q;
    quietB s h0 = true ∧ s.eager = true ∧ s.lbad = [] ∧ s.cores.all (fun x => x.1 == s.active || decide (x.2.q.es = [])) = true ∧ Spec.ringIs s p .hamlet 65408 65472 1 ∧
    Spec.ringIs z p .hamlet 65408 65472 1 ∧ Spec.ringIs c q .commons 0 64 1 ∧ (1 + 2 ^ 32 - Spec.winNat s .hamlet 65424 4) % 2 ^ 32 = 2 ∧
    (Spec.winNat z .hamlet 65428 4 + 2 ^ 32 - Spec.winNat z .hamlet 65424 4) % 2 ^ 32 = 1 ∧ Spec.winNat c .commons 20 4 = Spec.winNat c .commons 16 4 ∧
    Spec.winNat s .hamlet 65428 4 ≠ Spec.winNat s .hamlet 65424 4 := by
  unfold Spec.ringIs Spec.inWindow
  refine ⟨by decide +kernel, by decide +kernel, by decide +kernel, by decide +kernel, ?_, ?_, ?_, by decide +kernel, by decide +kernel, by decide +kernel, by decide +kernel⟩ <;>
  decide +kernel
theorem witness_BlockBegins_rest : let s := base [(1, 5)] (bind stack0); s.me.res.redo = [] ∧ s.me.reading = false ∧ (base [] (fun k => opened (bind stack0 k))).me.res.redo = [] := by decide +kernel
theorem witness_ReverseWalkBegins_sound : let x := unitIs 0 (frBpc (stack1.hdr 0)) Raw.isBlkBegin walker; stack1.lost = 0 ∧
    (unitIs 0 (frEpc (stack1.hdr 0)) Raw.isBlkEnd x.2).2.lbad = [] := by decide +kernel
theorem witness_StackMarksAndPoints_rest : let s := base [(1, 0x1FFFF)] (bind stack1); let z := base [(1, 0x1FFFF)]; s.me.res.redo = [] ∧ s.me.q.heldEs = [] ∧ stack1.lost = 0 ∧
    quietB s h0 = true ∧ z.me.res.stack = none ∧ (z.me.rd 1).extractLsb' 0 16 = 0xFFFF ∧ quietB z h0 = true ∧ z.eager = true ∧ (z.me.rdCh 1).getLsbD 0 = false := by decide +kernel
/-- The channel register holds a local endpoint whose window is the first of its partition. -/
def endpoint (kind perms dev win allow qp : Nat) : BitVec 512 := BitVec.ofNat 512 (1 + 2 * perms + 512 * kind + dev * 2 ^ 16 + win * 2 ^ 32 + allow * 2 ^ 64 + qp * 2 ^ 128)
def channel (x r : BitVec 512) : State := (base [(4, 0x1234), (5, 0x777), (6, 9)] (fun k => handles [(1, r)] { k with eng := { k.eng with ch := SMap.set 0 k.eng.ch 3 x } })).modPart 0 (fun p =>
  { p with fb := { p.fb with inbase := 0x80000, incnt := 1, grpbase := 0, grpcnt := 1 } })
theorem witness_StackMarksAndPoints_query : let s := channel (endpoint 0 2 0 0 0 0) small; let at_ := s.winAddr s.me.ctx.part (((s.me.rdCh 3).extractLsb' 32 16).toNat % 4096); readyB s h0 [9, 0, 0, 0] = true ∧
    (s.me.rdCh 3).getLsbD 0 = true ∧ (s.me.rdCh 3).getLsbD 2 = true ∧ s.paWaits at_ = false ∧ s.windowErr s.me.ctx.part (((s.me.rdCh 3).extractLsb' 32 16).toNat % 4096) = none := by decide +kernel
/-- The last 65,600 bytes of the croft's part, with no launch of that number, and with one. -/
theorem witness_StackMarksAndPoints_line : let s := base [(4, cr 960), (5, 0x900000001)] (fun k => { k with slot := { k.slot with csneed := 65 } }); let z := s.modPart s.me.ctx.part (fun q => { q with launches := [⟨1, 0, 0, 0, .empty, .running, 2, 0, [], [], false, false, 0, none, none⟩] });
    quietB s h0 = true ∧ Spec.idx (s.me.rd 4) = Spec.winIdx .croft ∧ Spec.inWindow s .croft 960 65600 ∧ s.lbad = [] ∧ (s.part s.me.ctx.part).launches = [] ∧ quietB z h0 = true ∧
    ((z.part z.me.ctx.part).launches.all (fun x => x.lid == ((z.me.rd 5).extractLsb' 0 32).toNat && decide (0 < x.saved.length ∧ x.saved.length ≤ 65600))) = true ∧
    (z.part z.me.ctx.part).launches.length = 1 := by unfold Spec.inWindow; decide +kernel
/-- A stack with room for the tensor, at whose top it was saved. -/
def rsEntry (i : Instr) (r : BitVec 512) : Entry := { ({ op := i, h := h0, t := t9, qs := [.cq] } : Req).entryAt (base []) with hs := [asHandle r], aux := 65 }
theorem witness_StackMarksAndPoints_bytes : let s := base [] (bind stack1); let e := rsEntry (.rsPush h0 t9 1) small; Spec.tensorIn (base []) small .croft ∧ s.me.res.stack = some stack1 ∧
    s.lbad = [] ∧ (e.hd 0).shape = small ∧ e.aux ≠ 0 ∧ s.me.q.es = [] ∧ shBytes small ≤ 65408 ∧ shInjective small = true ∧ Spec.byteFmt small ∧ Spec.writable small :=
  ⟨small_in, by decide +kernel, by decide +kernel, by decide +kernel, by decide +kernel, by decide +kernel, by decide +kernel, by decide +kernel, by unfold Spec.byteFmt; decide +kernel, small_writable⟩
theorem witness_StackMarksAndPoints_spill : let s := base [] (bind stack1); let e := { rsEntry (.rsSpill h0 t9) small with stk := some stack1 };
    let lim := min (min stack1.depth stack1.depth) (fillLow ((s.core 0).q.es ++ (s.core 0).q.heldEs)); (s.core 0).res.stack = some stack1 ∧ ((s.core 0).before e).any Entry.fills = false ∧
    isOk (applyMoved 0 true stack1 (stack1.spillAll (s.core 0).openedBlk (s.tierRoom (s.core 0).ctx.part stack1) (stack1.nfr + 1) lim) s) = true := by decide +kernel
/-- A launch record of zeros in the croft's store, which is rejected. -/
theorem witness_StackMarksAndPoints_launch : let s := base []; let e := { ({ op := .launch h0 t9 1, h := h0, t := t9, qs := [.lq, .sq] } : Req).entryAt s with xs := [cr 0] };
    let x := checkSpan 0 .copy .rd (e.x 0) (Spec.ofs (e.x 0)) (Spec.ofs (e.x 0) + 255) s; let y := releaseBy 0 2 e x.2; let z := homeRead 0 (got .croft x) .rd (e.x 0) (Spec.ofs (e.x 0)) 256 y.2;
    let j := judge (z.2.core 0).ctx.part (z.2.core 0).ctx.asid (BitVec.ofNat 2048 (leNat (got [] z))) z.2; Spec.ofs (e.x 0) % 256 = 0 ∧ isOk x = true ∧ isOk y = true ∧ isOk z = true ∧ isOk j = true ∧
    got 0 j ≠ 0 ∧ got 0 j < 256 ∧ isOk (reject (z.2.core 0).ctx.part ⟨BitVec.ofNat 2048 (leNat (got [] z)), (z.2.core 0).ctx.asid, descVf (z.2.core 0).ctx.desc, some (0, e.td), (z.2.core 0).slot.running⟩ (got 0 j) j.2) = true := by
  decide +kernel
/-- Channels that send, put, get and add, a channel to group 0, and one to a queue pair; a tensor of 512 bytes. -/
theorem witness_StackMarksAndPoints_channels : let s := channel (endpoint 0 0x1F 45 0x3123 16 0) small; let m := { channel (endpoint 1 0x20 0 0 16 0) small with fab := { State.reset.fab with groups := [(0, 0x3450000770001)] } };
    quietB s h0 = true ∧ s.eager = true ∧ s.lbad = [] ∧ s.fab.redir = [] ∧ s.me.q.heldEs = [] ∧ Spec.holds s.me 1 small ∧ Spec.byteFmt small ∧ shBitoff small = 0 ∧ shBytes small ≤ 16 ∧
    (s.me.rdCh 3).getLsbD 0 = true ∧ (s.me.rdCh 3).getLsbD 1 = true ∧ (s.me.rdCh 3).getLsbD 2 = true ∧ (s.me.rdCh 3).getLsbD 3 = true ∧ (s.me.rdCh 3).getLsbD 4 = true ∧ (s.me.rdCh 3).getLsbD 5 = true ∧
    ((s.me.rdCh 3).extractLsb' 64 40).toNat = 16 ∧ shInjective small = true ∧ quietB m h0 = true ∧ (m.me.rdCh 3).getLsbD 6 = true ∧ (m.groupWord m.me.ctx.part ((m.me.rdCh 3).extractLsb' 32 16).toNat).getLsbD 0 = true := by
  unfold Spec.holds Spec.byteFmt; decide +kernel
def sector : BitVec 512 := shape 1024 4 1 [128] [1]
theorem sector_in (s : State) (x : s.me.slot.csneed = 4 ∧ s.active = 0) : Spec.tensorIn s sector .croft := tensorIn_of 1024 1535 (by decide +kernel) (by simp [Spec.inWindow, x.1, x.2])
theorem witness_StackMarksAndPoints_storage : let s := (channel (endpoint 2 0x40 0 9 0 7) sector).setQpair 9 { QPair.zero with ownv := true, en := true, qlog := 4, sqb := 0x8000, sqdb := 0x123 };
    let q := s.qpair 9; let x := s.me.rdCh 3; let none_ := channel (endpoint 2 0x40 0 9 0 7) sector
    quietB s h0 = true ∧ Spec.tensorIn s sector .croft ∧ Spec.writable sector ∧ x.getLsbD 0 = true ∧ x.getLsbD 7 = true ∧ (x.extractLsb' 32 16).toNat = 9 ∧ shBytes sector % 512 = 0 ∧ q.blk = false ∧ q.ownv = true ∧ q.en = true ∧
    q.own = s.me.ctx.part ∧ (SMap.get .zero s.stor.rings 9).cmds.length < 2 ^ q.qlog - 1 ∧ s.paWaits (q.sqb + 64 * (SMap.get .zero s.stor.rings 9).tail) = false ∧ (none_.qpair 9).ownv = false :=
  ⟨by decide +kernel, sector_in _ ⟨by decide +kernel, by decide +kernel⟩, writable_of 1024 4 (by decide) (by decide +kernel) (by decide +kernel), by decide +kernel, by decide +kernel, by decide +kernel,
   by decide +kernel, by decide +kernel, by decide +kernel, by decide +kernel, by decide +kernel, by decide +kernel, by decide +kernel, by decide +kernel⟩
def nothing : BitVec 512 := shape 1024 2 2 [5, 0] [1, 6]
theorem witness_StackMarksAndPoints_empty : let s := channel (endpoint 0 0x1F 45 0x3123 16 0) nothing; shCount nothing = 0 ∧ Spec.holds s.me 1 nothing ∧ Spec.byteFmt nothing ∧ quietB s h0 = true := by
  unfold Spec.holds Spec.byteFmt; decide +kernel

-- Events: a partition 0 with hamlet 0 and stack 0, its context 0 with a usable descriptor at address 2^16, and launches as named.

/-- A descriptor that is valid and names nothing else (R339). -/
def someDesc : Nat := 2 ^ 128 + 2 ^ 144
def part0 (f : Part → Part := id) : Part :=
  f { Part.free with prov := true, hset := 1, sset := 1, nvf := 1, tb := { Part.free.tb with ctxbase := 0x10000, ctxcnt := 1, keybase := 1, keycnt := 4 } }
def mod (f : Part → Part := id) : State := ({ State.reset with hbm := { State.reset.hbm with trn := 0 } }.setPart 0 (part0 f)).modCore 0 (fun k => { k with ctx := { k.ctx with part := 0 } })
/-- A one-dimensional record of four points in class 1, weight 2, on hamlet 0, with its completion word in buffer 0. -/
def aRec : BitVec 2048 := BitVec.ofNat 2048 (0x40 + 8 * 2 ^ 320 + 3 * 2 ^ 384 + 1 * 2 ^ 480 + 1 * 2 ^ 485 + 2 * 2 ^ 487 + 1 * 2 ^ 800)
def aLaunch (st : LState) : Launch := ⟨1, 0, aRec, 0, .empty, st, 2, 0, [], [], false, false, 0, none, none⟩
def withLaunch (st : LState) (q : Part) : Part := { q with launches := [aLaunch st] }
def args : ProvArgs := ⟨2, 2, 2, 0, 0, 1, 1, 4, 0, 0, 0, 0x20000, 8, 16, 0, 3⟩

theorem witness_ManagementCommands : State.reset.inUse = [] ∧ State.reset.mgmt.pending = none ∧ (mgmtRun .clrcnt).isSome = true ∧
    (mgmtBegin .clrcnt mod).mgmt.pending.isSome = true ∧ (mgmtRun (.add h0 1 2 3)).isNone = true ∧ mod.mgmt.pending = none ∧ (2 ^ 18 ≤ 2 ^ 18) ∧ (1500 ≤ 3400) ∧
    (let s := mod; s.ready = true ∧ s.mgmt.boot.minmode = false ∧ s.inUse.all (fun e => !e.2.sset.getLsbD 31) = true ∧ (s.part 0).prov = true ∧
      provBad s { args with p := 16 } = true ∧ provBad s { args with hset := 1 } = false ∧ provDenied s { args with hset := 1 } = true ∧
      provBad s args = false ∧ provDenied s args = false ∧ provAssigned s args = true ∧ (s.part 0).launches = [] ∧ s.fab.admitted = [] ∧ s.fab.inbox = [] ∧
      (s.part 0).mg.busy = false ∧ (s.part 0).mg.st ≠ .sent ∧ (s.part 0).mg.st ≠ .loaded) := by decide +kernel
def booting (n : Nat) (min : Bool := false) : State :=
  { State.reset with mgmt := { State.reset.mgmt with boot := { State.reset.mgmt.boot with running := true, stage := n, minmode := min } } }
theorem witness_StartAndPower : (booting 8).mgmt.boot.running = true ∧ (booting 8).mgmt.boot.stage < 9 ∧ (booting 0).mgmt.boot.stage < 9 ∧
    (let ok : StageResult := ⟨true, 0, 0, 0, [], (0, 1), true, 0⟩; let bad : StageResult := ⟨false, 9, 0xF, 0, [], (2, 2), true, 0⟩;
      [1, 3, 4, 6, 7, 8, 9].all (fun k => stageMeets k ok && (stageFails (booting k).mgmt.boot k ok).isNone) = true ∧
      [1, 2, 3, 4, 5, 7].all (fun k => stageMeets k bad && (stageFails (booting k).mgmt.boot k bad).isSome) = true ∧ stageMeets 8 bad = false ∧
      stageMeets 9 bad = false ∧ stageMeets 8 { bad with modes := (2, 0) } = true ∧ (stageFails (booting 7).mgmt.boot 8 { bad with modes := (2, 0) }).isSome = true) ∧
    (booting 8).mgmt.boot.stage ≠ 0 ∧
    State.reset.mgmt.pstep < 3 ∧ (let s := { State.reset with mgmt := { State.reset.mgmt with pstep := 3 } }; 0 < s.mgmt.pstep) ∧
    1100 ∈ [1700, 1400, 1100] ∧ State.reset.mgmt.boot.minmode = false := by decide +kernel
theorem witness_HbmEvents : State.reset.hbm.sref.getLsbD 31 = false ∧ (let s := { State.reset with hbm := { State.reset.hbm with sref := 1 } }; s.hbm.sref.getLsbD 0 = true ∧
      s.hbm.frozen = [] ∧ s.fab.admitted = [] ∧ s.fab.inbox = [] ∧ (upTo 16).all (fun p => (s.part p).flts.all FltRec.posted && (s.part p).jn.owed.isEmpty && !(s.part p).fb.wdue && (s.part p).fields.all (fun f => (s.core (256 + f)).slot.active)) = true) ∧ State.reset.trn 2047 = true ∧ (State.reset.phy 2047).test = 0 ∧
    ((State.reset.setPhy 0 { State.reset.phy 0 with test := 1 }).phy 0).test ≠ 0 ∧ ((State.reset.setPhy 0 { State.reset.phy 0 with test := 1 }).phy 0).repair = 0 ∧ ((State.reset.setPhy 0 { State.reset.phy 0 with test := 1 }).phy 0).terr = 0 ∧ ((State.reset.setPhy 0 { State.reset.phy 0 with test := 1 }).phy 0).tcnt = 0 ∧
    State.reset.mgmt.provisioned = false ∧ ({ State.reset with mgmt := { State.reset.mgmt with provisioned := true } }).mgmt.provisioned = true ∧
    State.reset.mgmt.retired.getLsbD (2047 / 64) = false := by decide +kernel
/-- A doorbell block of 2 slots whose next tail is at the limit, and past it; metadata of buffer 0, untagged, and tagged. -/
def belled : State := (mod (fun q => { q with bells := [(0, ⟨0x20000, 1, 0, 0, false⟩)] })).physPut 0x10000 (natBytes 128 someDesc)
def meta_ (tagged : Nat) : State := { base [] (fun k => { k with ctx := { k.ctx with bufs := [(0, some (BitVec.ofNat 256 (0x10000 * 2 ^ 64 + (0xF + tagged) * 2 ^ 128)))] } }) with tagfr := 1 }
theorem witness_RegisterEvents : belled.bellOf 0 0 = some (0, 0) ∧ (belled.bell 0 0).enabled = true ∧
    ((2#32).toNat + 2 ^ 32 - (belled.bell 0 0).head) % 2 ^ 32 ≤ 2 ^ (belled.bell 0 0).rlog ∧
    (belled.bell 0 0).head = (0#32).toNat ∧ (2#32).toNat ≠ (belled.bell 0 0).head ∧ (setBell 0 0 ⟨0x20000, 0, 0, 0, false⟩ belled).bellOf 0 0 = some (0, 0) ∧
    ((setBell 0 0 ⟨0x20000, 0, 0, 0, false⟩ belled).bell 0 0).enabled = false ∧ (State.reset.core 0).ctl.mdptr = none ∧
    2 ^ (belled.bell 0 0).rlog < ((3#32).toNat + 2 ^ 32 - (belled.bell 0 0).head) % 2 ^ 32 ∧ isOk (mdPlace 0 64 (meta_ 0)) = true ∧
    (let p := got ⟨0, 0, false, false, 0, 0⟩ (mdPlace 0 64 (meta_ 0)); p.tagged = false ∧ p.compr = false) ∧
    (got ⟨0, 0, false, false, 0, 0⟩ (mdPlace 0 64 (meta_ 0x80))).tagged = true ∧ (let p := got ⟨0, 0, false, false, 0, 0⟩ (mdPlace 0 64 (meta_ 0x100)); p.tagged = false ∧ p.compr = true) := by decide +kernel

def queuesOf (es : List Entry) (k : CoreSt) : CoreSt := { k with q := { k.q with es := es } }
def slow (f : CoreSt → CoreSt) : State := { base [] f with eager := false }
def entryOf (i : Instr) (qs : List QId) (p : Phase) : Entry := { ({ op := i, h := h0, t := t9, qs := qs } : Req).entryAt (base []) with phase := p }

theorem witness_QueueEvents : let e := entryOf (.mark h0 t9) [.lq, .sq] .queued; let s := slow (queuesOf [e]); let d := slow (queuesOf [{ e with phase := .done, word := 0x800000 }]);
    let snd := entryOf (.chSend h0 t9 1 2) [.cq] .pend; let w := { entryOf (.gateWait h0 t9 1 2 1) [.sq] .waiting with waited := 1 };
    let late := { slow (queuesOf [w]) with cycle := 4 };
    s.eager = false ∧ (s.core 0).q.es = [e] ∧ (s.core 0).q.trap = none ∧ e.inQ .lq = true ∧ s.startable 0 e [] = true ∧ e.null = false ∧
    isOk (perform 0 (e.starting 0 s) (s.working 0 e)) = true ∧
    got .pend (perform 0 (e.starting 0 s) (s.working 0 e)) = .done [] 0x800000 ∧ (slow (queuesOf [{ e with null := true }])).startable 0 { e with null := true } [] = true ∧
    (d.core 0).q.es = [{ e with phase := .done, word := 0x800000 }] ∧ e.td ≠ 0 ∧ snd.inQ .cq = true ∧ snd.phase = .pend ∧ snd.op = .chSend h0 t9 1 2 ∧
    w.lim = some 1 ∧ w.phase = .waiting ∧ w.held = false ∧ late.ctxFrozen (late.core 0).ctx.asid = false ∧ late.overdue 0 w 1 = true := by decide +kernel
theorem witness_QueueEvents_l1 : ((slow (cached 0)).core 0).l1Get 9 = some ⟨0xAB, 0, some 3, 0, false, [], 0, []⟩ ∧
    ((slow (cached 1)).core 0).l1Get 9 = some ⟨0xAB, 1, some 3, 0, false, [], 0, []⟩ ∧ (slow (cached 1)).clsWaits 0 (256 * 9) = false ∧
    (match (slow (cached 1)).homeWrite 9 0 false 0xAB 1 with | .ok _ => true | .error _ => false) = true := by decide +kernel
def asking (aux : Nat) : Entry := { entryOf (.acqP h0 t9 5) [.lq, .sq] .pend with aux := aux, xs := [0] }
theorem witness_QueueEvents_promotion : let s := slow (fun k => atPoint (queuesOf [asking 0] k)); let z := slow (queuesOf [asking 0]);
    let p := slow (fun k => { k with loc := { k.loc with promo := some ([9], [3]) } });
    (s.core 0).entryPos (Entry.asks 0 false) = some 0 ∧ (s.core 0).q.es[0]? = some (asking 0) ∧ s.answers 0 (s.core 0).ctx.part (s.core 0).ctx.asid = true ∧
    z.answers 0 (z.core 0).ctx.part (z.core 0).ctx.asid = false ∧ (s.core 0).beingCut = false ∧ (z.core 0).beingCut = false ∧
    (slow (fun k => chosen drainTrap (queuesOf [asking 0] k))).me.beingCut = true ∧ (p.core 0).l1Get 9 = none ∧ (p.core 0).loc.promo = some ([9], [3]) ∧ (p.core 0).entryPos (Entry.asks 0 true) = none := by
  decide +kernel
theorem reset_asks (d : Nat) : (State.reset.core d).entryPos (Entry.asks 0 true) = none := by
  have h : State.reset.cores = [] := by rfl
  rw [State.core, h, show SMap.get CoreSt.cold [] d = CoreSt.cold from rfl]; decide +kernel
/-- No other core is listed, so none asks. -/
theorem witness_QueueEvents_nobody (d : Nat) : ((slow id).core d).entryPos (Entry.asks 0 true) = none := by
  by_cases h : d = 0
  · subst h; decide +kernel
  · have e : (slow id).core d = State.reset.core d := by simp only [slow, State.core, base, State.modCore, State.setCore, SMap.get_set_ne _ _ _ _ _ h]
    rw [e]; exact reset_asks d
def gate0 (x : Gate) : State := let s := mod; { s.setGate 0 63 x with gateAsid := [(0, 1)], eager := false }
theorem witness_QueueEvents_gate : let s := gate0 ⟨9, 2, 7, false, true⟩; s.partOfAsid 0 = some 0 ∧ SMap.get 0 s.gateAsid 0 = 0 + 1 ∧ (s.gate 0 63).valid = true ∧
    (s.gate 0 63).cnt = 2 ∧ 0 < (s.gate 0 63).init ∧ 2 ^ 40 - 1 < 2 ^ 40 := by decide +kernel
def walking (k : CoreSt) : CoreSt := { k with f := { k.f with blk := ⟨false, 1, 0, 0, 0⟩ }, res := { k.res with walk := some ⟨0, 0, 0, 0, 0, 0⟩ } }
theorem witness_QueueEvents_stack : (slow walking).me.walking = true ∧ (let s := slow (bind stack1); s.me.res.stack = some stack1 ∧ stack1.cold < stack1.depth ∧ s.me.filling = false ∧
    (let lim := min stack1.depth (fillLow (s.me.q.es ++ s.me.q.heldEs)); let m := Stack.moveOut s.me.openedBlk (s.tierRoom 0 stack1) (stack1.nfr + 1) lim stack1; stack1.coldNext ≤ lim ∧
      stack1.lowerFits (s.tierRoom 0 stack1) stack1.coldNext = true ∧ m.ok = true ∧ m.st = { stack1 with cold := 64 } ∧ m.shifts = [] ∧ s.me.reading = false ∧ isOk (applyMoved 0 true stack1 m s) = true)) ∧ (slow id).me.q.trap = none := by decide +kernel
/-- A launch whose point runs on croft 0 and is to be cut; the context's cut pool has one area. -/
def cutting : State := let s := (mod (withLaunch .draining)).modCore 0 (fun k => atPoint (chosen drainTrap k))
  { (s.physPut 0x10000 (natBytes 128 (someDesc + 0x40000 * 2 ^ 320))).physPut 0x40000 (wordBytes [0x100000, 1]) with eager := false }.modCore 0
    (fun k => { k with slot := { k.slot with running := some ⟨1, 0, 0, 0⟩, active := true } })
theorem witness_QueueEvents_cut : (cutting.core 0).q.trap = some drainTrap ∧ (cutting.core 0).cutReady = true ∧ (cutting.core 0).slot.running = some ⟨1, 0, 0, 0⟩ ∧
    cutting.launch? 0 1 = some (aLaunch .draining) ∧ cutting.freeArea 0 0 = some 0 ∧
    cutting.runWaits (cutting.poolArea 0 0 0) areaSize = none ∧ cutting.l1Waits 0 = false ∧ cutting.lbad = [] := by decide +kernel

/-- The descriptor is usable, and the partition is as its launches and rings are set. -/
def home (f : Part → Part) : State := (mod f).physPut 0x10000 (natBytes 128 someDesc)
def rings (b : Bell) (q : Part) : Part := { q with bells := [(0, b)], rung := [(0, 1)] }
def ringed (f : Part → Part := id) : State := (home (fun q => f (rings ⟨0x20000, 1, 1, 0, false⟩ q))).physPut 0x20000 (natBytes 256 aRec.toNat)
theorem witness_HaywardEvents_ring : let s := ringed; let z := ringed (fun q => { q with launches := List.replicate 64 (aLaunch .running) });
    s.partOfAsid 0 = some 0 ∧ s.ctxIndex 0 0 = 0 ∧ (s.part 0).headDeferred 0 = false ∧ (s.bell 0 0).head ≠ (s.bell 0 0).tail ∧ (s.bell 0 0).enabled = true ∧
    (s.part 0).mg.st = .run ∧ s.paWaits 0x20000 = false ∧ s.storagePath 0x20000 = false ∧ s.accepts 0 = true ∧ z.accepts 0 = false := by decide +kernel
theorem witness_HaywardEvents_record : (match ringed.phys 0x20000 256 with | .ok bs => decide (BitVec.ofNat 2048 (leNat bs) = aRec) | .error _ => false) = true := by
  decide +kernel
/-- Its completion word's place is out of bounds: BADCW; a record of zeros fails the first of the conditions. -/
theorem witness_HaywardEvents_judged : rejectCode ringed 0 aRec = 0 ∧ (let x := judge 0 0 aRec ringed; isOk x = true ∧ got 0 x = 8 ∧ x.2.parts = ringed.parts ∧
    isOk (reject 0 ⟨aRec, 0, 0, none, none⟩ 8 x.2) = true) ∧ rejectCode ringed 0 0 = 1 := by decide +kernel
theorem witness_HaywardEvents_turn : ringed.nextRing 0 = some 0 ∧ isOk (takeSlot 0 0 ringed) = true ∧
    (let s := ringed (fun q => { q with rung := [] }); isOk (takeSlot 0 0 s) = true ∧ s.nextRing 0 ≠ some 0) := by decide +kernel
def deferred1 : Deferred := ⟨aRec, 0, 0, none, none⟩
theorem witness_HaywardEvents_points : let s := mod (fun q => { withLaunch .running q with deferred := [deferred1] });
    let old := { s with cycle := 0x1000000 }; (s.part 0).deferred = deferred1 :: [] ∧ (s.part 0).launches.length < 64 ∧ deferred1.core = none ∧
    (s.part 0).launches = [aLaunch .running] ∧ s.firstFireable 0 (aLaunch .running) = some ⟨1, 0, 0, 0⟩ ∧ s.placeFor 0 (aLaunch .running) = some (0, false) ∧
    rcPrio aRec = 1 ∧ 0 < (aLaunch .running).credit ∧ 2 ^ 24 ≤ (aLaunch .running).since old := by decide +kernel
def runningPoint (active : Bool) (k : CoreSt) : CoreSt := { k with slot := { k.slot with running := some ⟨1, 0, 0, 0⟩, active := active } }
theorem witness_HaywardEvents_start : let s := { (home (withLaunch .running)).modCore 0 (runningPoint false) with gateAsid := [(0, 1)] };
    (s.core 0).ctx.part = 0 ∧ (s.core 0).slot.running = some ⟨1, 0, 0, 0⟩ ∧ (s.core 0).slot.active = false ∧ s.launch? 0 1 = some (aLaunch .running) ∧
    (aLaunch .running).st = .running ∧ s.paWaits (s.descAddr 0 0) = false ∧
    (match s.descRead 0 0 with | .ok d => decide (d = BitVec.ofNat 1024 someDesc) | .error _ => false) = true ∧ descUsable (s.part 0) (BitVec.ofNat 1024 someDesc) = true ∧ s.runsContext 0 0 0 = true ∧ rcHtab aRec = 0 ∧ rcCtab aRec = 0 := by
  decide +kernel
theorem witness_HaywardEvents_retire : let s := (home (withLaunch .running)).modCore 0 (fun k => let k1 := runningPoint true k; { k1 with slot := { k1.slot with ending := true } });
    let x := (do let _ ← Sys2Proof.Machine.quiet (unbindStack 0 false); releaseD 0 : M Unit) s;
    (s.core 0).drained = true ∧ isOk x = true ∧ (x.2.part 0).launches = [aLaunch .running] ∧ (aLaunch .running).lid = 1 ∧
    ((aLaunch .running).tl.complete 4 1 0 0).floor ≠ rowCount aRec ∧ ((({ (aLaunch .running).tl with f := [(0, 3)] } : TreeLine)).complete 4 1 3 0).floor = rowCount aRec ∧
    rcEx aRec = 4 ∧ (aLaunch .running).ended = none ∧ (let s2 := x.2.modCore 0 CoreSt.emptied; (s.part 0).crofts.all (fun d => !runsLaunch s2 0 1 d) = true ∧
      (let s3 := beginEnd 0 1 0 0 s2; let y := writeCw 0 0 (rcCwaddr aRec) 0x1800000 s3; isOk y = true ∧ y.2.parts = s3.parts)) := by decide +kernel
def busyPre (lid op : Nat) (q : Part) : Part := { q with pb := { q.pb with slid := lid, sop := op, busy := true } }
theorem witness_HaywardEvents_commands : let d := home (fun q => busyPre 1 1 (withLaunch .draining q)); let r := home (withLaunch .running); let u := home (withLaunch .suspended);
    let z := (home (withLaunch .draining)).modCore 0 (fun k => queuesOf [{ waitingEntry with phase := .pend }] (runningPoint true k));
    d.launch? 0 1 = some (aLaunch .draining) ∧ d.runners 0 1 = [] ∧ d.inCmd 0 1 1 = true ∧ d.runWaits (d.slotBase 0 (aLaunch .draining)) 0x20000 = none ∧ (aLaunch .suspended).restore = none ∧ z.runners 0 1 = [0] ∧ rcRestart aRec = false ∧ (z.core 0).q.trap = none ∧
    (z.core 0).cutReady = false ∧ z.ctxFrozen 0 = false ∧ (r.part 0).pb.busy = false ∧ (r.part 0).mg.st ≠ .freezing ∧ (r.part 0).crofts.all (fun c => !runsLaunch r 0 1 c) = true ∧
    r.launch? 0 9 = none ∧ natBits (u.physNat (u.slotBase 0 (aLaunch .suspended) + 0x118) 8) 0 9 = 0 ∧ u.runWaits (u.slotBase 0 (aLaunch .suspended)) 0x20000 = none ∧ u.poolBad 0 0 = false ∧ (r.part 0).hset.getLsbD (15 / 16) = true ∧
    (base [] (fun k => { k with slot := { k.slot with parked := true } })).me.slot.parked = true := by decide +kernel
/-- A saved treeline of no rows restores. -/
theorem witness_HaywardEvents_resume : (restoreTreeline (aLaunch .suspended) (aLaunch .suspended).saved).isSome = true := by decide +kernel

def portAt (x : FPort) : State := State.reset.setPort 23 x
def aGet : RemoteOp := ⟨3, 0, 0, .get, 0, 0, none, 0, 0, 0, 0, [], 1, 0⟩
/-- A window 0 for every device, with reads, of context 0. -/
def windowed (st : Nat) (mg : MBlock) : State :=
  (home (fun q => { q with fb := { FBlock.zero with inbase := 0x30000, incnt := 1 }, mg := mg })).physPut 0x30000 (natBytes 32 (st + 2 ^ 8 + 2 ^ 4 + 2 ^ 3))
theorem witness_FabricAndStorageEvents_links : (portAt ⟨0, 15, 0, []⟩).port 23 = ⟨0, 15, 0, []⟩ ∧ (portAt ⟨0, 16, 0, []⟩).port 23 = ⟨0, 16, 0, []⟩ ∧
    (portAt ⟨1, 0, 0, []⟩).port 23 = ⟨1, 0, 0, []⟩ ∧ (portAt ⟨2, 0, 0, []⟩).port 23 = ⟨2, 0, 0, []⟩ ∧ (portAt ⟨2, 0, 0, []⟩).mgmt.boot.minmode = false ∧ (booting 8 true).mgmt.boot.minmode = true := by decide +kernel
theorem witness_FabricAndStorageEvents_admission : let s := windowed 1 .zero; s.fab.admitted = [] ∧ s.fab.inbox.any (fun x => sameSlot x aGet) = false ∧ sameSlot { aGet with kind := .send } { aGet with kind := .send } = true ∧ (s.part 0).fb.wbusy = false ∧ 0 < (s.part 0).fb.incnt ∧
    s.admission { aGet with part := 1 } = .nak 2 ∧ (windowed 2 .zero).admission aGet = .nak 1 ∧
    (windowed 1 { MBlock.zero with st := .sent, peer := 4, part := 2 }).admission aGet = .moved 4 2 ∧ (windowed 1 { MBlock.zero with st := .frozen }).admission aGet = .wait ∧
    (State.reset.part 0).prov = false := by decide +kernel
theorem witness_FabricAndStorageEvents_served : let s := windowed 1 .zero; let w := s.window 0 0; s.admission aGet = .ok w ∧ winCtx w = 0 ∧ 0 < (s.part 0).tb.ctxcnt ∧
    s.paWaits (s.descAddr 0 0) = false ∧ s.descOf 0 0 = BitVec.ofNat 1024 someDesc ∧ descUsable (s.part 0) (s.descOf 0 0) = true ∧
    isOk (inContext 0 0 (fun c => judgeRuns c (remoteAcc aGet) (remoteRuns aGet w (winTail w + s.admittedSends 0 0))) s) = true ∧
    isOk (inContext 0 0 (fun c => judgeRuns c (remoteAcc aGet) (remoteRuns { aGet with len := 8 } w 0)) s) = false ∧
    isOk (inContext 0 0 (farAtomic aGet) s) = true ∧ got (some (0, 0)) (inContext 0 0 (farAtomic aGet) s) = none ∧ isOk (inContext 0 0 (performRemote aGet w) s) = true ∧ aGet.kind ≠ .send ∧ aGet.gate = none := by decide +kernel

/-- Context 0 with one page: the root at 2^20, one entry a level, and the leaf given for page 0 in frame 0x13; buffer 0 is that page. -/
def paged (leaf : Nat) (f : Part → Part := id) : State :=
  ((((mod f).physPut 0x10000 (natBytes 128 (0x100000 + 0x140000 * 2 ^ 64 + someDesc))).physPut 0x100000 (natBytes 8 (1 + 0x11 * 2 ^ 21))).physPut 0x110000
    (natBytes 8 (1 + 0x12 * 2 ^ 21))).physPut 0x120000 (natBytes 8 leaf) |>.physPut 0x140000 (natBytes 32 (0x10000 * 2 ^ 64 + 0xF * 2 ^ 128))
def leafRW : Nat := 1 + 4 + 8 + 16 + 0x13 * 2 ^ 21
theorem witness_HaywardEvents_wellFormed : let x := judge 0 0 aRec (paged leafRW); isOk x = true ∧ got 9 x = 0 ∧ x.2.parts = (paged leafRW).parts := by decide +kernel
/-- An endpoint's window, a queue of four slots of 256 bytes in that page, with one message of 5 bytes; and an empty one. -/
def received (tail : Nat) : State :=
  (((paged leafRW (fun q => { q with fb := { FBlock.zero with inbase := 0x30000, incnt := 1 } })).physPut 0x30000 (natBytes 32 (5 + 2 * 2 ^ 128 + tail * 2 ^ 192))).physPut
    0x130400 (natBytes 4 5)).modCore 0 (fun k => { k with slot := { k.slot with csneed := 4 }, eng := { k.eng with ch := SMap.set 0 k.eng.ch 3 (endpoint 0 2 0 0 16 0) } })
theorem witness_StackMarksAndPoints_receive : let e := rsEntry (.chRecv h0 t9 1 3 0) small; let o := openWindow 0 0 0 (received 1); let x := got 0 o; let d := openDest 0 e o.2;
    let ln := inContextM 0 0 (fun h => globalRead h (winQptr x) (Spec.ofs (winQptr x) + (2 ^ winQlog x * winQsz x)) 4) d.2; let m := inContextM 0 0 (fun h => globalRead h (winQptr x) (Spec.ofs (winQptr x)) 5) ln.2;
    isOk o = true ∧ winPending x = 1 ∧ winHead x = 0 ∧ winCtx x = 0 ∧ isOk d = true ∧ isOk ln = true ∧ leNat (got [] ln) = 5 ∧ 5 ≤ shBytes small ∧ isOk m = true ∧
    isOk (writeTensor 0 (got ⟨0, .croft⟩ d) (got [] m) m.2) = true ∧ ((received 1).core 0).ctx.part = 0 ∧ ((received 1).part 0).tb.asidbase = 0 ∧
    winPending (got 0 (openWindow 0 0 0 (received 0))) = 0 := by decide +kernel
def sent : MBlock := { MBlock.zero with st := .sent }
def fwd0 : FwdAtomic := ⟨0, 8, 0, 8, 5, 0, 3, false⟩
theorem witness_FabricAndStorageEvents_page : let s := paged leafRW (fun q => { q with mg := sent }); (s.part 0).mg.st = .sent ∧
    (s.part 0).mg.served.contains (fwd0.ctx, fwd0.va / 65536) = false ∧ (mod.part 0).mg.st ≠ .sent ∧
    s.walk (s.part 0) (descRoot (s.descOf 0 0)) 8 = .leaf leafRW 3 0x120000 ∧ ptePull leafRW = false ∧ s.paWaits (leafPa leafRW 3 8) = false ∧ fwd0.op = 0 ∧ fwd0.size = 8 ∧
    (match s.homeBytes (leafPa leafRW 3 8) 8 (pteKey leafRW) false with | .ok bs => bs == natBytes 8 0 | .error _ => false) = true ∧
    (match s.homePut (leafPa leafRW 3 8) (pteKey leafRW) false (natBytes 8 5) with | .ok _ => true | .error _ => false) = true := by decide +kernel
def pulling : State := { paged (leafRW + 2) with pulls := [⟨0, 0, leafRW + 2, 0x120000⟩] }
theorem witness_FabricAndStorageEvents_pull : pulling.pulling 0 7 = false ∧ pulling.pulls.find? (fun y => y.asid == 0 && y.page == 8 / 65536) = some ⟨0, 0, leafRW + 2, 0x120000⟩ ∧
    pulling.fab.admitted = [] ∧ pulling.fab.inbox = [] ∧ pulling.fab.out = [] ∧ pulling.fab.resend = [] ∧ pulling.paWaits (65536 * ptePfn (leafRW + 2)) = false ∧ pulling.paWaits 0x120000 = false ∧ pulling.keyMat (pteKey (leafRW + 2)) = some 0 ∧ ptePull (leafRW + 2) = true := by decide +kernel
def aFlt : FltRec := ⟨6, 0, 0, 0, 0, false, 0, 0, 3, true⟩
theorem witness_FabricAndStorageEvents_fault : let s := mod (fun q => { q with flts := [aFlt] }); (s.part 0).flts = [aFlt] ∧ aFlt.posted = true ∧ aFlt.seq = 6 ∧
    (s.core 0).entryPos aFlt.owns = none := by decide +kernel
def inCq (i : Instr) : Entry := { entryOf i [.cq] .pend with hs := [⟨true, false, rec0 0x100, cr 0⟩] }
theorem witness_FabricAndStorageEvents_entries : let m := inCq (.chMcast h0 t9 1 2 3 false 0); let r := inCq (.sioRead h0 t9 1 2 3 false 0); let g := inCq (.chSend h0 t9 1 2);
    let s := slow (queuesOf [r]); let x := landBytes 0 r [7] s; let y := landBytes 0 r [] s;
    m.inQ .cq = true ∧ m.phase = .pend ∧ m.td ≠ 0 ∧ r.inQ .cq = true ∧ r.phase = .pend ∧ r.td ≠ 0 ∧ isOk x = true ∧ isOk y = true ∧ (s.core 0).q.es = [r] ∧ s.eager = false ∧
    (x.2.core 0).q.es = [r] ∧ (y.2.core 0).q.es = [r] ∧ s.paWaits (s.qpair (chWin ((s.core 0).rdCh 1))).cqb = false ∧ s.sioOverdue 0 0 = false ∧ shBytes (r.hd 0).shape < 2 ^ 40 ∧
    g.inQ .cq = true ∧ g.phase = .pend ∧ g.op.chan = some 1 ∧ g.aux < 3 ∧ 511 < 512 ∧ 15 < 16 := by decide +kernel
theorem witness_FabricAndStorageEvents_windows : let s := windowed 1 { MBlock.zero with st := .run }; let b := { s.modPart 0 (fun q => { q with fb := { q.fb with wbusy := true } }) with eager := false };
    (b.part 0).fb.wbusy = true ∧ b.fab.admitted.all (fun x => x.op.part != 0 || x.op.win != 0) = true ∧ (s.part 0).fb.wbusy = false ∧ 0 < (s.part 0).fb.incnt ∧ ({ s with eager := false }).eager = false := by decide +kernel

/-- A partition in a state of migration, with context 0 (its root all zero, so with no leaf) and no launches. -/
def moved (st : MigSt) (busy : Bool := false) (cmd : Nat := 0) : State := home (fun q => { q with mg := { MBlock.zero with st := st, busy := busy, cmd := cmd, img := 0x200000 } })
def image (ws : List Nat) : State := (moved .loaded).physPut 0x200000 (natBytes 128 (ws.zipIdx.foldl (fun n x => n + x.1 * 2 ^ (64 * x.2)) 0))
theorem witness_MigrationEvents_commands : [MigSt.run, .frozen, .live, .loaded, .sent, .freezing].all (fun st => let s := moved st; let q := s.part 0;
      q.mg.busy == false && q.mg.st == st && q.launches.isEmpty && s.fab.admitted.isEmpty && s.fab.inbox.isEmpty &&
      q.crofts.all (fun c => (s.core c).slot.running.isNone && (s.core c).slot.staged.isNone)) = true := by decide +kernel
theorem witness_MigrationEvents_launches : let s := home (withLaunch .running); let z := home (fun q => { withLaunch .suspended q with mg := { MBlock.zero with st := .freezing, busy := true, cmd := 2 } });
    (s.part 0).launches ≠ [] ∧ (z.part 0).mg.st = .freezing ∧ (z.part 0).mg.busy = true ∧ (z.part 0).mg.cmd = 2 ∧ (z.part 0).launches.all (fun l => l.st == .suspended) = true ∧ z.fab.admitted = [] ∧
    (z.part 0).crofts.all (fun c => (z.core c).slot.running.isNone && (z.core c).slot.staged.isNone) = true := by decide +kernel
/-- An image of no sections, and one whose section 7 names a context that is not there. -/
theorem witness_MigrationEvents_images : let a := image []; let b := image [0, 0, 0, 0, 1, 0, 0, 0, 7 + 2 ^ 8];
    alike (a.part 0) (a.readSections (a.physNat 0x200020 8) 0x200040).1 = true ∧ (a.readSections (a.physNat 0x200020 8) 0x200040).1.all (fun x => x.type != 2 && x.type != 8) = true ∧
    alike (b.part 0) (b.readSections (b.physNat 0x200020 8) 0x200040).1 = false ∧ (a.part 0).mg.img = 0x200000 ∧ (a.part 0).mg.st = .loaded := by decide +kernel
theorem witness_MigrationEvents_ends : (let s := moved .frozen true 3; (s.part 0).mg.busy = true ∧ (s.part 0).mg.cmd = 3) ∧ ((moved .armed).part 0).mg.st = .armed ∧
    (let s := moved .live true 5; (s.part 0).mg.busy = true ∧ (s.part 0).mg.cmd = 5) := by decide +kernel
theorem witness_MigrationEvents_drained : (home (fun q => { q with tb := { q.tb with ctxcnt := 0 }, mg := { MBlock.zero with st := .live } })).pullLeaves 0 = [] := by
  decide +kernel
theorem mem_tableEntries {s : State} {base n i e : Nat} {ok : Nat → Bool} (h : i < n) (he : s.physNat (base + 8 * i) 8 = e) (ho : ok e = true) : (i, e) ∈ tableEntries s base n ok := by
  rw [tableEntries, List.mem_filterMap]; exact ⟨i, by simpa [upTo] using h, by simp [he, ho]⟩
/-- The page of `paged` as a PULL leaf. -/
theorem witness_MigrationEvents_pulls : (paged (leafRW + 2) (fun q => { q with mg := { MBlock.zero with st := .live } })).pullLeaves 0 ≠ [] := by
  refine List.ne_nil_of_mem (a := (0, 0)) ?_
  rw [State.pullLeaves, List.mem_flatMap]
  refine ⟨(0, BitVec.ofNat 1024 (0x100000 + 0x140000 * 2 ^ 64 + someDesc)), by decide +kernel, ?_⟩
  rw [List.mem_map]
  refine ⟨(0, leafRW + 2, 3), ?_, rfl⟩
  rw [List.mem_filter]
  refine ⟨?_, by decide +kernel⟩
  rw [State.leaves, List.mem_flatMap]
  refine ⟨(0, 1 + 0x11 * 2 ^ 21), mem_tableEntries (by decide) (by decide +kernel) (by decide +kernel), ?_⟩
  rw [List.mem_flatMap]
  refine ⟨(0, 1 + 0x12 * 2 ^ 21), mem_tableEntries (by decide) (by decide +kernel) (by decide +kernel), ?_⟩
  rw [if_neg (by decide)]
  rw [List.mem_map]
  exact ⟨(0, leafRW + 2), mem_tableEntries (by decide) (by decide +kernel) (by decide +kernel), by decide +kernel⟩
/-- The rests of clauses that R123, R387, R398, R400 and R431 add: what has left the module, croft 0 cut while its own request waits, and while another entry of it works. -/
theorem witness_QueueEvents_rest : let snd := entryOf (.chSend h0 t9 1 2) [.cq] .pend; let s := slow (queuesOf [snd]); let own := slow (fun k => chosen drainTrap (queuesOf [asking 0] k));
    let two := slow (fun k => chosen drainTrap (queuesOf [asking 0, { snd with phase := .pend }] k)); s.hasLeft 0 snd = true ∧ own.me.drainable = true ∧ own.me.loc.l1 = [] ∧
    two.me.beingCut = true ∧ two.me.drainable = false ∧ two.me.entryPos (Entry.asks 0 false) = some 0 := by decide +kernel
theorem witness_FabricAndStorageEvents_rest : let s := windowed 1 .zero; let b := s.modPart 0 (fun q => { q with fb := { q.fb with wbusy := true } }); let r := inCq (.sioRead h0 t9 1 2 3 false 0);
    let q := slow (queuesOf [r]); let g := inCq (.chSend h0 t9 1 2); (b.part 0).fb.wdue = false ∧ s.paWaits (s.winAddr 0 0) = false ∧
    (match s.phys (s.winAddr 0 0) 1 with | .ok bs => bs.length == 1 | .error _ => false) = true ∧ q.hasLeft 0 r = true ∧ (slow (queuesOf [g])).hasLeft 0 g = true ∧ { g with via := some (3, aGet) }.via.isSome = true ∧
    ((moved .released).part 0).mg.st = .released := by decide +kernel
theorem witness_MigrationEvents_rest : [MigSt.run, .frozen, .live, .loaded, .freezing, .armed].all (fun st => let s := moved st; !s.migWaits 0 && (s.part 0).crofts.all (fun c => !s.parkWaits c) &&
      (s.runWaits (s.part 0).mg.img (s.part 0).mg.len).isNone) = true := by decide +kernel

-- ### Steps: one instruction each, with the results that the spec's tables and worked examples give

/-- Register 5 after a word, with register 6 holding `x` and register 7 holding `y` (the table after R175). -/
def s5 (i : Instr) (x y : Word) : Word := (run i (base [(6, x), (7, y)])).me.rd 5
theorem step_bfx : s5 (.bfx h0 5 6 8 11) 0xABCD00 0 = 0xBCD := by decide +kernel
theorem step_bfx_s : s5 (.bfxS h0 5 6 8 11) 0xABCD00 0 = 0xFFFFFFFFFFFFFBCD := by decide +kernel
theorem step_bfi : s5 (.bfi h0 5 6 7 60 3) 0 7 = 0x7000000000000000 := by decide +kernel
theorem step_fshl : s5 (.fshlImm h0 5 6 7 1) 1 0x8000000000000000 = 3 := by decide +kernel
theorem step_fshr : s5 (.fshrImm h0 5 6 7 4) 1 0 = 0x1000000000000000 := by decide +kernel
theorem step_div : s5 (.div h0 5 6 7) 7 0 = 0xFFFFFFFFFFFFFFFF := by decide +kernel
theorem step_rem : s5 (.rem h0 5 6 7) (-7) 2 = -1 := by decide +kernel
/-- R155: a word whose predicate is false changes no register and moves on. -/
theorem step_predicated_off : let s := base [(6, 1), (7, 2)]; let t := run (.add p1 5 6 7) s; t.me.rd 5 = 0 ∧ t.me.f.pc = s.me.f.pc + 8 := by decide +kernel

/-- Chapter 9, "brightening four P10 samples". -/
def pixels (v : List (VReg × BitVec 2048)) : State := base [] (fun k => (v.foldl (fun (k : CoreSt) x => k.wrV x.1 x.2) k).wrM 1 0xF)
theorem step_pix_unpk : (run (.pixUnpk h0 t0 (ve .n16) 0x0A 0 2 1) (pixels [(1, 0x55600007FF)])).me.rdV 2 = 0x01550200000103FF := by decide +kernel
theorem step_vadds : (run (.vadds h0 t0 ⟨.n16, true, 1, false⟩ 2 2 3) (pixels [(2, 0x01550200000103FF), (3, BitVec.ofNat 2048 ((2 ^ 2048 - 1) / 0xFFFF * 0x10))])).me.rdV 2 =
    0x016502100011040F := by decide +kernel
theorem step_pix_pack : (run (.pixPack h0 t0 (ve .n16) 0x0A 4 2) (pixels [(2, 0x016502100011040F)])).me.rdV 4 = 0x59610047FF := by decide +kernel

/-- Chapter 4, "one group product": A's values and B's as BF16 in the croft store, four planes and two, promoted after one group. -/
def groups : State :=
  let bf (xs : List Nat) : List Byte := (xs.map (natBytes 2)).flatten
  let k (off : Nat) : Handle := ⟨true, false, BitVec.ofNat 512 (0xFFF0 * 2 ^ 48 + off + 2 * 2 ^ 64 + 2 ^ 80 + 16 * 2 ^ 96 + 2 ^ 288), cr 0x800⟩
  base [] (fun c => { holds 0 (bf [0x4040, 0xBFA0, 0x3EC0, 0xBD00, 0x3F40]) (holds 256 (bf [0x3F80, 0x3F80, 0x3F80, 0x3F80, 0x3F80]) c) with
    eng := { c.eng with h := [(2, k 0), (3, k 256)], slots := [(0, { Nest.clear with na := 4, nb := 2, pi := 1, acc := 1, rorg := 5, corg := 2 })] } })
theorem step_mm_run : (run (.trd h0 t0 (ve .fp32) 6 1 0 5) (run (.mmRun h0 t0 0 2 3) groups)).me.rdV 6 = 0x40600000 <<< 64 := by decide +kernel

/-- Chapter 17, "a walk through a run group": the entries it reads. -/
def walkState : State :=
  ((mod.physPut 0x100018 (natBytes 8 0x02200001)).physPut 0x110028 (natBytes 8 0x02400001)).physPut 0x120208 (natBytes 8 0x00000B0000200E2D)
def walkPart : Part := part0 (fun q => { q with sset := 0x21, tb := { q.tb with keybase := 7 } })
theorem step_walk : walkState.walk walkPart 0x100000 0x00000C00A0411234 = .leaf 0x00000B0000200E2D 3 0x120208 := by decide +kernel
theorem step_leaf : leafPa 0x00000B0000200E2D 3 0x00000C00A0411234 = 0x5800011234 := by decide +kernel

/-- Chapter 2, "a ragged wavefront": the first words of the saved image, once the points of its table are done. -/
def ragged : Launch :=
  let pts : List (Nat × Nat) := (upTo 8).map (fun x => (x, 0)) ++ [(0, 1), (1, 1), (2, 1), (3, 1), (5, 1), (0, 2), (3, 2)]
  { aLaunch .suspended with
    lid := 531, rec_ := BitVec.ofNat 2048 (7 * 2 ^ 384 + 4 * 2 ^ 416 + 2 * 2 ^ 480),
    tl := pts.foldl (fun (t : TreeLine) p => t.complete 8 5 p.1 p.2) .empty }
theorem step_treeline_saved : ragged.saved.take 40 = wordBytes [0x0000000200000213, 0x0000000400000007, 0x0000000100000000, 0x0003000000000000, 0x0000000002000000] := by decide +kernel

/-- R432, the pattern of seed 0x5A1F3 on lane 0: the first eight UI are 0, 0, 0, 0, 1, 0, 1, 1. -/
theorem step_prbs : (prbsBurst (prbsStart 0x5A1F3 0)).1 = 0xD0 := by decide +kernel

end Sys2Proof.Tests
end

/-! PROOFS. What the events of registers, doorbells and the mailbox do (R10, R326, R337, R397, R413, R414, R418, R426): the rules of doorbells, notices to
bailiffs, metadata and queue pairs, and from them `Obligations.RegisterEvents`. -/

namespace Sys2Proof.Machine

-- ### Partitions, queue pairs, fields of words

theorem State.part_modPart (s : State) (p : Nat) (f : Part → Part) : (s.modPart p f).part p = f (s.part p) := State.part_setPart ..
theorem State.mem_modPart (s : State) (p : Nat) (f : Part → Part) : (s.modPart p f).mem = s.mem := State.mem_setPart ..

/-- A number that no queue pair has reads as the zero pair, whatever is written to it. -/
theorem State.qpair_setQpair (s : State) (q : Nat) (x : QPair) : (s.setQpair q x).qpair q = if q < 64 then x else .zero := by
  unfold State.qpair State.setQpair
  split
  · exact SMap.get_set_same ..
  · rfl

theorem clearQerr_qpair (s : State) (q : Nat) : (clearQerr q s).qpair q = { s.qpair q with err := 0 } := by
  rw [clearQerr, State.qpair_setQpair]
  split
  · rfl
  · rename_i h
    rw [State.qpair, if_neg h]
    rfl

theorem fld_eq_extractLsb' {w : Nat} (x : BitVec w) (lo n : Nat) : fld x lo n = (x.extractLsb' lo n).toNat := by
  rw [BitVec.extractLsb'_toNat]
  rfl

-- ### Operations run by an event

theorem eventM_ok {m : M Unit} {s s' : State} (h : m s = (.ok (), s')) : eventM m s = s' := by
  unfold eventM
  rw [h]

theorem quiet_ok {α : Type} {m : M α} {s s' : State} {a : α} (h : m s = (.ok a, s')) : quiet m s = (.ok (some a), s') := by
  unfold quiet
  rw [h]

-- ### Metadata (R426)

theorem writeMdptr_ok {c : Nat} {v : Word} {pl : Place} {s s1 : State} (h : mdPlace c v s = (.ok pl, s1)) :
    writeMdptr c v s = (.ok (), s1.modCore c (fun k => { k with ctl := { k.ctl with mdptr := some v } })) := by
  unfold writeMdptr
  rw [bind_ok h]
  rfl

theorem mdvalPlace_unset {c : Nat} {s : State} (h : (s.core c).ctl.mdptr = none) : mdvalPlace c s = (.ok none, s) := by
  unfold mdvalPlace
  rw [bind_ok (show getCore c s = (.ok (s.core c), s) from rfl), h]
  rfl

theorem mdvalPlace_set {c : Nat} {ptr : Word} {pl : Place} {s s1 : State} (hp : (s.core c).ctl.mdptr = some ptr) (h : mdPlace c ptr s = (.ok pl, s1)) :
    mdvalPlace c s = (.ok (some pl), s1) := by
  unfold mdvalPlace
  rw [bind_ok (show getCore c s = (.ok (s.core c), s) from rfl), hp]
  exact quiet_ok h

/-- Log entry 97: a write of `MDVAL` that no pointer leads anywhere is lost. -/
theorem writeMdval_nowhere {c : Nat} {v : Word} {s s1 : State} (h : mdvalPlace c s = (.ok none, s1)) : writeMdval c v s = (.ok (), s1) := by
  unfold writeMdval
  rw [bind_ok h]
  rfl

/-- R426: what a write through `MDPTR` changes at the place that it leads to: the sector's tag, or the line's code. -/
def State.putMeta (s : State) (pl : Place) (v : Word) : State :=
  if pl.tagged then s.putTag (pl.pa / 64) (fld v 0 16)
  else if pl.compr then s.setLineSt (pl.pa / 256) { s.lineSt (pl.pa / 256) with code := fld v 0 4 }
  else s

theorem writeMdval_placed {c : Nat} {v : Word} {pl : Place} {s s1 : State} (h : mdvalPlace c s = (.ok (some pl), s1)) :
    writeMdval c v s = (.ok (), s1.putMeta pl v) := by
  unfold writeMdval
  rw [bind_ok h]
  rfl

theorem putMeta_tagged (s : State) {pl : Place} (v : Word) (ht : pl.tagged = true) : s.putMeta pl v = s.putTag (pl.pa / 64) (fld v 0 16) := if_pos ht
theorem putMeta_compressible (s : State) {pl : Place} (v : Word) (ht : pl.tagged = false) (hc : pl.compr = true) :
    s.putMeta pl v = s.setLineSt (pl.pa / 256) { s.lineSt (pl.pa / 256) with code := fld v 0 4 } := by
  simp [State.putMeta, ht, hc]
/-- Log entry 36: a buffer neither tagged nor compressible has no metadata to write. -/
theorem putMeta_plain (s : State) {pl : Place} (v : Word) (ht : pl.tagged = false) (hc : pl.compr = false) : s.putMeta pl v = s := by
  simp [State.putMeta, ht, hc]

theorem tags_putTag_same (s : State) (n tag : Nat) : SMap.get 0 (s.putTag n tag).tags n = tag := SMap.get_set_same ..
theorem tags_putTag_ne (s : State) {n a : Nat} (tag : Nat) (h : a ≠ n) : SMap.get 0 (s.putTag n tag).tags a = SMap.get 0 s.tags a :=
  SMap.get_set_ne _ _ _ _ _ h
theorem lineSt_setLineSt (s : State) (n : Nat) (x : LineSt) : (s.setLineSt n x).lineSt n = x := SMap.get_set_same ..

/-- R426: an `MDVAL` write through a pointer that leads to `pl`, by the kind of metadata that the buffer has. -/
theorem mdvalWrite_through {c : Nat} {v ptr : Word} {pl : Place} {s s1 : State} (hp : (s.core c).ctl.mdptr = some ptr)
    (h : mdPlace c ptr s = (.ok pl, s1)) : ∃ u, exec (.mdvalWrite c v) s = .next u ∧ u.cores = s1.cores ∧ u.mem = s1.mem ∧
      (pl.tagged = true → SMap.get 0 u.tags (pl.pa / 64) = (v.extractLsb' 0 16).toNat ∧ ∀ a, a ≠ pl.pa / 64 → SMap.get 0 u.tags a = SMap.get 0 s1.tags a) ∧
      (pl.tagged = false → pl.compr = true → (u.lineSt (pl.pa / 256)).code = (v.extractLsb' 0 4).toNat ∧ u.tags = s1.tags) ∧
      (pl.tagged = false → pl.compr = false → u = s1) := by
  have hu : exec (.mdvalWrite c v) s = .next (s1.putMeta pl v) := congrArg Host.Outcome.next (eventM_ok (writeMdval_placed (mdvalPlace_set hp h)))
  refine ⟨_, hu, ?_⟩
  cases ht : pl.tagged with
  | true =>
    rw [putMeta_tagged s1 v ht, fld_eq_extractLsb']
    exact ⟨rfl, rfl, fun _ => ⟨tags_putTag_same .., fun a ha => tags_putTag_ne _ _ ha⟩, by simp, by simp⟩
  | false =>
    cases hc : pl.compr with
    | true =>
      rw [putMeta_compressible s1 v ht hc, fld_eq_extractLsb']
      exact ⟨rfl, rfl, by simp, fun _ _ => ⟨by rw [lineSt_setLineSt], rfl⟩, by simp⟩
    | false =>
      rw [putMeta_plain s1 v ht hc]
      exact ⟨rfl, rfl, by simp, by simp, fun _ _ => rfl⟩

-- ### Doorbells (R413, R414)

theorem bell_setBell (s : State) (p i : Nat) (b : Bell) : (setBell p i b s).bell p i = b := by
  rw [State.bell, setBell, State.part_modPart]
  exact SMap.get_set_same ..
theorem rung_setBell (s : State) (p i : Nat) (b : Bell) : ((setBell p i b s).part p).rung = (s.part p).rung := by
  rw [setBell, State.part_modPart]
theorem mem_setBell (s : State) (p i : Nat) (b : Bell) : (setBell p i b s).mem = s.mem := State.mem_modPart ..

/-- The list of rung doorbells stands apart from the doorbell blocks. -/
theorem bell_modPart_rung (s : State) (p i : Nat) (f : List (Nat × Nat) → List (Nat × Nat)) :
    (s.modPart p (fun q => { q with rung := f q.rung })).bell p i = s.bell p i := by
  rw [State.bell, State.part_modPart, State.bell]

/-- R414: the rung doorbells once tail `t` is written to ring `i`: rung again after those before it, or not at all where the head stands. -/
def rungAfter (head i t : Nat) (rung : List (Nat × Nat)) : List (Nat × Nat) :=
  if t = head then rung.filter (fun x => x.1 != i) else rung ++ [(i, t)]

theorem rungAfter_ahead {head t : Nat} (i : Nat) (rung : List (Nat × Nat)) (h : t ≠ head) : rungAfter head i t rung = rung ++ [(i, t)] := if_neg h
theorem mem_rungAfter_head {head i : Nat} {rung : List (Nat × Nat)} {x : Nat × Nat} : x ∈ rungAfter head i head rung ↔ x.1 ≠ i ∧ x ∈ rung := by
  rw [rungAfter, if_pos rfl, List.mem_filter, bne_iff_ne, and_comm]

section
variable {s : State} {vf asid p i : Nat} (tail : BitVec 32) (hb : s.bellOf vf asid = some (p, i))
include hb

/-- A doorbell write to a ring that is off, or past its end, only marks the block. -/
theorem ringBell_refused (h : (s.bell p i).enabled = false ∨ 2 ^ (s.bell p i).rlog < (tail.toNat + 2 ^ 32 - (s.bell p i).head) % 2 ^ 32) :
    ringBell vf asid tail.toNat s = setBell p i { s.bell p i with rovf := true } s := by
  unfold ringBell
  rw [hb]
  dsimp only
  rw [Nat.mod_eq_of_lt tail.isLt, if_pos (by simpa using h)]

variable (he : (s.bell p i).enabled = true) (hr : (tail.toNat + 2 ^ 32 - (s.bell p i).head) % 2 ^ 32 ≤ 2 ^ (s.bell p i).rlog)
include he hr

theorem ringBell_accepted : ringBell vf asid tail.toNat s = (setBell p i { s.bell p i with tail := tail.toNat } s).modPart p (fun q => { q with
    rung := rungAfter (s.bell p i).head i tail.toNat q.rung }) := by
  unfold ringBell rungAfter
  rw [hb]
  dsimp only
  rw [Nat.mod_eq_of_lt tail.isLt, if_neg (by simpa [he] using hr)]
  split <;> rfl

/-- R414: an accepted write sets the tail; one ahead of the head is rung after those before it, one that meets it takes the ring out. -/
theorem doorbellTail_accepted : ∃ u, exec (.doorbellTail vf asid tail) s = .next u ∧
    u.bell p i = { s.bell p i with tail := tail.toNat } ∧ (tail.toNat ≠ (s.bell p i).head → (u.part p).rung = (s.part p).rung ++ [(i, tail.toNat)]) ∧
    (tail.toNat = (s.bell p i).head → ∀ x ∈ (u.part p).rung, x.1 ≠ i ∧ x ∈ (s.part p).rung) ∧ u.mem = s.mem := by
  refine ⟨_, congrArg Host.Outcome.next (ringBell_accepted tail hb he hr), ?_, ?_, ?_, ?_⟩
  · exact (bell_modPart_rung _ p i (rungAfter _ i _)).trans (bell_setBell ..)
  · intro h
    rw [State.part_modPart, rungAfter_ahead i _ h, rung_setBell]
  · intro h x hx
    rw [State.part_modPart, h, rung_setBell] at hx
    exact mem_rungAfter_head.1 hx
  · rw [State.mem_modPart, mem_setBell]

end

section
variable {s : State} {vf asid p i : Nat} (hb : s.bellOf vf asid = some (p, i))
include hb

theorem doorbellTail_refused (tail : BitVec 32)
    (h : (s.bell p i).enabled = false ∨ 2 ^ (s.bell p i).rlog < (tail.toNat + 2 ^ 32 - (s.bell p i).head) % 2 ^ 32) :
    ∃ u, exec (.doorbellTail vf asid tail) s = .next u ∧ u.bell p i = { s.bell p i with rovf := true } ∧ (u.part p).rung = (s.part p).rung :=
  ⟨_, congrArg Host.Outcome.next (ringBell_refused tail hb h), bell_setBell .., rung_setBell ..⟩

theorem clearRovf_of_bellOf : clearRovf vf asid s = setBell p i { s.bell p i with rovf := false } s := by
  unfold clearRovf
  rw [hb]

theorem rovfClear_bell : ∃ u, exec (.rovfClear vf asid) s = .next u ∧ u.bell p i = { s.bell p i with rovf := false } ∧
    (u.part p).rung = (s.part p).rung :=
  ⟨_, congrArg Host.Outcome.next (clearRovf_of_bellOf hb), bell_setBell .., rung_setBell ..⟩

end

-- ### Notices to bailiffs (R326)

theorem bevt_setBevt (f : Nat) (b : BitVec 4) (s : State) : ((setBevt f b s).core (256 + f)).ctl.bevt = (s.core (256 + f)).ctl.bevt ||| b := by
  rw [setBevt, State.core_modCore]
theorem core_setBevt_ne {f d : Nat} (b : BitVec 4) (s : State) (h : d ≠ 256 + f) : (setBevt f b s).core d = s.core d := State.core_modCore_ne _ _ _ _ h
theorem mem_setBevt (f : Nat) (b : BitVec 4) (s : State) : (setBevt f b s).mem = s.mem := State.mem_modCore ..

/-- Bits set on the bailiffs of some fields leave every other core alone. -/
theorem core_foldl_setBevt (b : BitVec 4) (d : Nat) (fs : List Nat) (s : State) (h : ∀ f ∈ fs, d ≠ 256 + f) :
    (fs.foldl (fun a f => setBevt f b a) s).core d = s.core d := by
  induction fs generalizing s with
  | nil => rfl
  | cons g fs ih =>
    obtain ⟨hg, hfs⟩ := List.forall_mem_cons.1 h
    rw [List.foldl_cons, ih _ hfs, core_setBevt_ne b s hg]

/-- A field named more than once is marked as if it were named once. -/
theorem bevt_foldl_setBevt (b : BitVec 4) (f : Nat) (fs : List Nat) (s : State) : ((fs.foldl (fun a f => setBevt f b a) s).core (256 + f)).ctl.bevt =
    if f ∈ fs then (s.core (256 + f)).ctl.bevt ||| b else (s.core (256 + f)).ctl.bevt := by
  induction fs generalizing s with
  | nil => rfl
  | cons g fs ih =>
    rw [List.foldl_cons, ih]
    by_cases h : f = g
    · subst h
      rw [bevt_setBevt, BitVec.or_assoc, BitVec.or_self, ite_self, if_pos List.mem_cons_self]
    · have hne : (256 : Nat) + f ≠ 256 + g := by omega
      simp only [core_setBevt_ne b s hne, List.mem_cons, h, false_or]

theorem mem_foldl_setBevt (b : BitVec 4) (fs : List Nat) (s : State) : (fs.foldl (fun a f => setBevt f b a) s).mem = s.mem := by
  induction fs generalizing s with
  | nil => rfl
  | cons g fs ih => rw [List.foldl_cons, ih, mem_setBevt]

theorem hostMailboxWrite_marks_bailiffs (s : State) : ∃ u, exec .hostMailboxWrite s = .next u ∧
    (∀ f < 8, (u.core (256 + f)).ctl.bevt = (s.core (256 + f)).ctl.bevt ||| 2) ∧ (∀ c < 256, u.core c = s.core c) ∧ u.mem = s.mem := by
  refine ⟨mailbox s, rfl, fun f hf => ?_, fun c hc => ?_, mem_foldl_setBevt ..⟩
  · rw [mailbox, bevt_foldl_setBevt, if_pos (mem_upTo.2 hf)]
  · exact core_foldl_setBevt _ _ _ _ (fun f _ => by omega)

-- ### The obligation

/-- Settles O56, clause by clause from the rules above. -/
theorem registerEvents : Obligations.RegisterEvents := by
  unfold Obligations.RegisterEvents
  intro s
  refine ⟨fun _ => rfl, fun _ => rfl, ?qerr, ?mdptr, ?noMdptr, ?mdval, ?port, ?bell, ?bellOff, ?rovf, hostMailboxWrite_marks_bailiffs s⟩
  case qerr =>
    intro q
    refine ⟨clearQerr q s, rfl, ?_, ?_, rfl⟩ <;> rw [clearQerr_qpair]
  case mdptr =>
    intro c v pl s1 h
    exact congrArg Host.Outcome.next (eventM_ok (writeMdptr_ok h))
  case noMdptr =>
    intro c v h
    exact congrArg Host.Outcome.next (eventM_ok (writeMdval_nowhere (mdvalPlace_unset h)))
  case mdval =>
    intro c v ptr pl s1 hp h
    exact mdvalWrite_through hp h
  case port =>
    intro c off v s1 h
    exact congrArg Host.Outcome.next (eventM_ok h)
  case bell =>
    intro vf asid p i tail hb he
    exact ⟨doorbellTail_accepted tail hb he, fun h => doorbellTail_refused hb tail (.inr h)⟩
  case bellOff =>
    intro vf asid p i tail hb he
    exact doorbellTail_refused hb tail (.inl he)
  case rovf =>
    intro vf asid p i hb
    exact rovfClear_bell hb

end Sys2Proof.Machine

/-! PROOFS. What leaves the partitions' registers and launches as they are: writes and reads at home, the accesses of a core (R59, R105, R342), the unbinding
of a residual stack (R287, R290). -/

namespace Sys2Proof.Machine

-- ### What keeps the cores and the partitions

/-- The same cores and the same partitions. -/
structure State.SameUnits (s t : State) : Prop where
  cores : t.cores = s.cores
  parts : t.parts = s.parts

theorem State.SameUnits.refl (s : State) : s.SameUnits s := ⟨rfl, rfl⟩
theorem State.SameUnits.trans {s t u : State} (h : s.SameUnits t) (g : t.SameUnits u) : s.SameUnits u :=
  ⟨g.cores.trans h.cores, g.parts.trans h.parts⟩
theorem State.SameUnits.part {s t : State} (h : s.SameUnits t) (p : Nat) : t.part p = s.part p := by rw [State.part, h.parts]; rfl

theorem sameUnits_foldl {α : Type} {f : State → α → State} (hf : ∀ (s : State) x, s.SameUnits (f s x)) (l : List α) (s : State) : s.SameUnits (l.foldl f s) := by
  induction l generalizing s with
  | nil => exact .refl s
  | cons x l ih => exact (hf s x).trans (ih _)

theorem sameUnits_count (s : State) (n u : Nat) : s.SameUnits (s.count n u) := ⟨rfl, rfl⟩

theorem sameUnits_countEcc (s : State) (pa : Nat) : s.SameUnits (s.countEcc pa) := by
  unfold State.countEcc
  split
  · exact .refl s
  · exact (sameUnits_count ..).trans (sameUnits_count ..)

theorem sameUnits_freeze (s : State) (a pa : Nat) : s.SameUnits (s.freeze a pa) := by
  unfold State.freeze
  dsimp only
  split
  · exact ⟨rfl, rfl⟩
  · exact .refl s

theorem sameUnits_sliceRoom (s : State) (line : Nat) : s.SameUnits (s.sliceRoom line) := by
  unfold State.sliceRoom
  split
  · exact .refl s
  · split
    · exact .refl s
    · split
      · exact .refl s
      · exact ⟨rfl, rfl⟩

theorem sameUnits_outdate (s : State) (line : Nat) (m : BitVec 256) : s.SameUnits (s.outdate line m) := by
  unfold State.outdate
  dsimp only
  split
  · exact .refl s
  · exact ⟨rfl, rfl⟩

theorem sameUnits_mem (s : State) (m : List Host.Cell) : s.SameUnits { s with mem := m } := ⟨rfl, rfl⟩
theorem sameUnits_setLineSt (s : State) (n : Nat) (x : LineSt) : s.SameUnits (s.setLineSt n x) := ⟨rfl, rfl⟩

theorem sameUnits_homeWrite {s t : State} {line key : Nat} {compr : Bool} {x : BitVec 2048} {m : BitVec 256}
    (h : s.homeWrite line key compr x m = .ok t) : s.SameUnits t := by
  have h0 : s.SameUnits ((s.sliceRoom line).outdate line m) := (sameUnits_sliceRoom ..).trans (sameUnits_outdate ..)
  unfold State.homeWrite at h
  dsimp only at h
  repeat' split at h
  all_goals first
    | (cases h; done)
    | (injection h with h; rw [← h]; exact h0.trans ((sameUnits_mem ..).trans (sameUnits_setLineSt ..)))

theorem sameUnits_homePut {s t : State} {pa key : Nat} {compr : Bool} {bs : List Byte} (h : s.homePut pa key compr bs = .ok t) : s.SameUnits t :=
  sameUnits_homeWrite h

theorem sameUnits_physPutRun (fuel : Nat) (s : State) (pa : Nat) (bs : List Byte) : s.SameUnits (s.physPutRun fuel pa bs) := by
  induction fuel generalizing s pa bs with
  | zero => exact .refl s
  | succ n ih =>
    rw [State.physPutRun]
    split
    · exact .refl s
    · dsimp only
      split
      · rename_i t ht
        split at ht
        · cases ht
        · exact (sameUnits_homePut ht).trans (ih ..)
      · exact ih ..

theorem sameUnits_physPut (s : State) (pa : Nat) (bs : List Byte) : s.SameUnits (s.physPut pa bs) := sameUnits_physPutRun ..

theorem sameUnits_retag (s : State) (line key : Nat) : s.SameUnits (s.retag line key) := by
  unfold State.retag
  dsimp only
  split
  · exact .refl s
  · exact ⟨rfl, rfl⟩

theorem sameUnits_touched (s : State) (pa n key : Nat) : s.SameUnits (s.touched pa n key) := by
  unfold State.touched
  split
  · exact .refl s
  · exact sameUnits_foldl (fun _ _ => sameUnits_retag ..) _ s

theorem sameUnits_setAcDt (write : Bool) (as : List Nat) (s : State) : s.SameUnits (s.setAcDt write as) := by
  induction as generalizing s with
  | nil => exact .refl s
  | cons a as ih => exact (sameUnits_physPut ..).trans (ih _)

theorem sameUnits_walkRead (s : State) (r : WalkRes × List (Nat × Nat)) : s.SameUnits (s.walkRead r) :=
  sameUnits_foldl (fun _ _ => sameUnits_retag ..) _ s

theorem sameUnits_keepPath (s : State) (asid va : Nat) (path : List (Nat × Nat)) : s.SameUnits (s.keepPath asid va path) := by
  unfold State.keepPath
  exact ⟨rfl, rfl⟩

theorem sameUnits_startPull (s : State) (x : Pull) : s.SameUnits (s.startPull x) := by
  unfold State.startPull
  split
  · exact .refl s
  · exact ⟨rfl, rfl⟩

theorem sameUnits_noteWrite (s : State) (a : Author) (loc : RaceAt) (at_ : Nat) (bs bits : List Byte) : s.SameUnits (s.noteWrite a loc at_ bs bits) := by
  unfold State.noteWrite
  split
  · exact ⟨rfl, rfl⟩
  · exact .refl s

theorem sameUnits_noted (s : State) (pa key : Nat) (compr : Bool) (bs bits : List Byte) : s.SameUnits (s.noted pa key compr bs bits) := by
  unfold State.noted
  split
  · exact .refl s
  · exact sameUnits_noteWrite ..

theorem sameUnits_checkWords (space : Nat) (ws : List Nat) (s : State) : s.SameUnits (s.checkWords space ws).2 := by
  induction ws generalizing s with
  | nil => exact .refl s
  | cons w ws ih =>
    rw [State.checkWords]
    split
    · exact ih s
    · split
      · exact State.SameUnits.trans (t := State.count { s with lbad := s.lbad.filter (fun x => x != (space, w)) } 4 space) ⟨rfl, rfl⟩ (ih _)
      · exact .refl s

theorem sameUnits_wordsWritten (s : State) (c : Nat) (l : Loc) (off n : Nat) : s.SameUnits (s.wordsWritten c l off n) := by
  unfold State.wordsWritten
  split
  · exact .refl s
  · exact ⟨rfl, rfl⟩

theorem sameUnits_keepBeyond (asid id : Nat) (bs : List Byte) (d : Nat) (s : State) : s.SameUnits (s.keepBeyond asid id d bs) := by
  induction bs generalizing d s with
  | nil => exact .refl s
  | cons b bs ih => exact State.SameUnits.trans (t := { s with tier := SMap.set 0 s.tier (tierKey asid id d) (b.toNat + 1) }) ⟨rfl, rfl⟩ (ih ..)

theorem sameUnits_dropBeyond (s : State) (asid id d n : Nat) : s.SameUnits (s.dropBeyond asid id d n) := ⟨rfl, rfl⟩

theorem sameUnits_countDemotions (asid n : Nat) (s : State) : s.SameUnits (s.countDemotions asid n) := by
  induction n generalizing s with
  | zero => exact .refl s
  | succ n ih => exact (sameUnits_count ..).trans (ih _)

-- ### Changes of a core

theorem parts_holdXlat (s : State) (c asid va : Nat) (t : TlbEnt) : (s.holdXlat c asid va t).parts = s.parts := by
  unfold State.holdXlat
  dsimp only
  split <;> split <;> rfl

theorem parts_setLocalBytes (c : Nat) (l : Loc) (bs : List Byte) (off : Nat) (s : State) : (s.setLocalBytes c l off bs).parts = s.parts := by
  induction bs generalizing off s with
  | nil => rfl
  | cons b bs ih =>
    rw [State.setLocalBytes, ih]
    cases l <;> rfl

theorem parts_localWrite (s : State) (c : Nat) (l : Loc) (off : Nat) (bs bits : List Byte) : (s.localWrite c l off bs bits).parts = s.parts := by
  unfold State.localWrite
  rw [(sameUnits_noteWrite ..).parts, (sameUnits_wordsWritten ..).parts, parts_setLocalBytes]

-- ### Operations that keep the partitions

/-- Begun with partitions `P`, an operation leaves them so, however it ends. -/
structure LeavesParts {α : Type} (P : SMap Part) (m : M α) : Prop where
  run : ∀ s, s.parts = P → (m s).2.parts = P

section
variable {P : SMap Part} {α β : Type}

/-- What stands after a stop is not reached. -/
theorem LeavesParts.stop_bind (x : Stop) (f : α → M β) : LeavesParts P (throw x >>= f) := ⟨fun _ h => h⟩

theorem LeavesParts.pure (a : α) : LeavesParts P (pure a : M α) := ⟨fun _ h => h⟩
theorem LeavesParts.throw (x : Stop) : LeavesParts P (throw x : M α) := ⟨fun _ h => h⟩
theorem LeavesParts.trap (c : Cause) (ptr : Word) : LeavesParts P (trap c ptr : M α) := .throw _
theorem LeavesParts.set {t : State} (h : t.parts = P) : LeavesParts P (set t : M PUnit) := ⟨fun _ _ => h⟩
theorem LeavesParts.modify {f : State → State} (h : ∀ s, (f s).parts = s.parts) : LeavesParts P (modify f : M PUnit) := ⟨fun s hs => (h s).trans hs⟩
theorem LeavesParts.modCore (c : Nat) (f : CoreSt → CoreSt) : LeavesParts P (modCore c f) := .modify fun _ => rfl

theorem LeavesParts.bind {m : M α} {f : α → M β} (hm : LeavesParts P m) (hf : ∀ a, LeavesParts P (f a)) : LeavesParts P (m >>= f) := by
  refine ⟨fun s hs => ?_⟩
  have h := hm.run s hs
  show ((ExceptT.bindCont f (m s).1) (m s).2).2.parts = P
  generalize m s = r at h
  obtain ⟨r, t⟩ := r
  cases r with
  | ok a => exact (hf a).run t h
  | error x => exact h

/-- What follows a look at the state may use that its partitions are `P`. -/
theorem LeavesParts.get {f : State → M β} (h : ∀ s, s.parts = P → LeavesParts P (f s)) : LeavesParts P (get >>= f) := ⟨fun s hs => (h s hs).run s hs⟩
theorem LeavesParts.getCore {c : Nat} {f : CoreSt → M β} (h : ∀ k, LeavesParts P (f k)) : LeavesParts P (getCore c >>= f) := ⟨fun s hs => (h (s.core c)).run s hs⟩

theorem LeavesParts.quiet {m : M α} (h : LeavesParts P m) : LeavesParts P (quiet m) := by
  refine ⟨fun s hs => ?_⟩
  have h := h.run s hs
  unfold Machine.quiet
  split <;> (rename_i e; rw [e] at h; exact h)

theorem LeavesParts.spillTry {m : M α} (h : LeavesParts P m) : LeavesParts P (spillTry m) := by
  refine ⟨fun s hs => ?_⟩
  have h := h.run s hs
  unfold Machine.spillTry
  split <;> (rename_i e; rw [e] at h; exact h)

end

-- ### Accesses that keep the partitions

section
variable {P : SMap Part}

theorem leavesParts_await (c pa : Nat) : LeavesParts P (await c pa) := by
  unfold await
  refine .get fun s hs => ?_
  split
  · exact .bind (.set ((sameUnits_freeze ..).parts.trans hs)) fun _ => .throw _
  · exact .pure _

theorem leavesParts_awaitCls (c cls pa : Nat) : LeavesParts P (awaitCls c cls pa) := by
  unfold awaitCls
  refine .get fun s hs => ?_
  split
  · exact .bind (.set ((sameUnits_freeze ..).parts.trans hs)) fun _ => .throw _
  · exact .pure _

/-- An error at home is raised, and one that is uncorrectable counted. -/
theorem leavesParts_countedTrap {α : Type} (pa : Nat) (ptr : Word) :
    LeavesParts P (do modify (fun s => s.countEcc pa); trap .ecc ptr : M α) :=
  .bind (.modify fun _ => (sameUnits_countEcc ..).parts) fun _ => .trap ..

theorem leavesParts_walkErr {α : Type} (e : LineErr) (pa : Nat) (ptr : Word) : LeavesParts P (walkErr e pa ptr : M α) := by
  cases e with
  | keygone => exact .trap ..
  | rights => exact .trap ..
  | ecc => exact leavesParts_countedTrap ..

theorem leavesParts_lineErr {α : Type} (e : LineErr) (pa : Nat) (ptr : Word) (off : Nat) : LeavesParts P (lineErr e pa ptr off : M α) := by
  cases e with
  | keygone => exact .trap ..
  | rights => exact .trap ..
  | ecc => exact leavesParts_countedTrap ..

theorem leavesParts_bufEntry (c idx : Nat) : LeavesParts P (bufEntry c idx) := by
  unfold bufEntry
  refine .get fun s hs => ?_
  dsimp only
  split
  · exact .pure _
  · refine .bind (leavesParts_await ..) fun _ => ?_
    split
    · exact leavesParts_walkErr ..
    · exact .bind (.modify fun _ => (sameUnits_touched ..).parts) fun _ => .bind (.modCore ..) fun _ => .pure _

theorem leavesParts_xlat (c va : Nat) (a : Acc) (ptr : Word) : LeavesParts P (xlat c va a ptr) := by
  unfold xlat
  refine .get fun s hs => ?_
  dsimp only
  split
  · split
    · exact .bind (.set ((parts_holdXlat ..).trans hs)) fun _ => .pure _
    · exact .pure _
  · split
    · exact .bind (leavesParts_await ..) fun _ => .throw _
    · exact leavesParts_walkErr ..
    · exact .trap ..
    · split
      · exact .trap ..
      · split
        · exact .trap ..
        · split
          · exact .bind (.set (((sameUnits_walkRead ..).trans (sameUnits_startPull ..)).parts.trans hs)) fun _ => .throw _
          · refine .bind (.set ?_) fun _ => .pure _
            exact (parts_holdXlat ..).trans ((((sameUnits_walkRead ..).trans (sameUnits_keepPath ..)).trans (sameUnits_setAcDt ..)).parts.trans hs)

theorem leavesParts_translate (c : Nat) (b : BitVec 256) (va : Nat) (a : Acc) (ptr : Word) : LeavesParts P (translate c b va a ptr) := by
  unfold translate
  refine .bind (leavesParts_xlat ..) fun t => .get fun s hs => ?_
  dsimp only
  split
  · exact .trap ..
  · split
    · exact .bind (.set hs) fun _ => .pure _
    · exact .pure _

theorem leavesParts_checkSpan (c : Nat) (u : User) (a : Acc) (ptr : Word) (lo hi : Int) : LeavesParts P (checkSpan c u a ptr lo hi) := by
  unfold checkSpan
  refine .get fun s _ => ?_
  dsimp only
  split
  · split
    · exact .trap ..
    · refine .bind (leavesParts_bufEntry ..) fun b => ?_
      repeat' split
      all_goals first | exact .trap .. | exact .pure _
  · repeat' split
    all_goals first | exact .trap .. | exact .pure _

theorem leavesParts_homeStore (c : Nat) (l : Loc) (a : Acc) (ptr : Word) (off : Nat) (bs : List Byte) : LeavesParts P (homeStore c l a ptr off bs) := by
  unfold homeStore homeStoreBits
  have near (l : Loc) : LeavesParts P (modify (fun s => s.localWrite c l off bs (wholeBits bs)) : M PUnit) := .modify fun _ => parts_localWrite ..
  cases l
  case glob b =>
    refine .bind (leavesParts_translate ..) fun pl => .bind (leavesParts_awaitCls ..) fun _ => .get fun s hs => ?_
    split
    · rename_i t ht
      exact .set (((sameUnits_homePut ht).trans (sameUnits_noted ..)).parts.trans hs)
    · exact leavesParts_lineErr ..
  case port => exact .pure _
  all_goals exact near _

theorem leavesParts_localCheck (c : Nat) (l : Loc) (ptr : Word) (off n : Nat) : LeavesParts P (localCheck c l ptr off n) := by
  unfold localCheck
  refine .get fun s hs => .bind (.set ((sameUnits_checkWords ..).parts.trans hs)) fun _ => ?_
  split
  · exact .bind (.modify fun _ => (sameUnits_count ..).parts) fun _ => .trap ..
  · exact .pure _

theorem leavesParts_writeBack (c line : Nat) : LeavesParts P (writeBack c line) := by
  unfold writeBack
  refine .get fun s hs => ?_
  split
  · exact .pure _
  · split
    · exact .modCore ..
    · refine .bind (leavesParts_awaitCls ..) fun _ => ?_
      split
      · rename_i t ht
        exact .set (((sameUnits_homeWrite ht).trans (sameUnits_foldl (fun _ _ => sameUnits_noteWrite ..) _ _)).parts.trans hs)
      · exact .modCore ..

theorem leavesParts_writeBackAll (c : Nat) (ls : List Nat) : LeavesParts P (writeBackAll c ls) := by
  induction ls with
  | nil => exact .pure _
  | cons l ls ih => exact .bind (leavesParts_writeBack ..) fun _ => ih

theorem leavesParts_releaseD (c : Nat) : LeavesParts P (releaseD c) := by
  unfold releaseD
  exact .getCore fun k => .bind (leavesParts_writeBackAll ..) fun _ => .bind (.modCore ..) fun _ => .modify fun _ => rfl

-- ### The unbinding of a stack keeps the partitions

theorem leavesParts_putHbm (c : Nat) (st : Stack) (n d : Nat) (bs : List Byte) : LeavesParts P (putHbm c st n d bs) := by
  induction n generalizing d bs with
  | zero => exact .pure _
  | succ n ih => exact .bind (leavesParts_checkSpan ..) fun _ => .bind (leavesParts_homeStore ..) fun _ => ih ..

theorem leavesParts_putFrame (c : Nat) (strict : Bool) (st : Stack) (d : Nat) (sp : Spot) : LeavesParts P (putFrame c strict st d sp) := by
  unfold putFrame
  refine .get fun s _ => ?_
  have beyond : LeavesParts P (modify (fun t => t.keepBeyond (s.core c).ctx.asid st.id d (st.frameBytes d)) : M PUnit) :=
    .modify fun _ => (sameUnits_keepBeyond ..).parts
  refine .bind (.modify fun _ => rfl) fun _ => ?_
  cases sp with
  | hbm =>
    refine .bind (.spillTry (leavesParts_putHbm ..)) fun r => ?_
    cases r with
    | some _ => exact .pure _
    | none => exact beyond
  | tier off =>
    dsimp only
    split
    · split
      · exact .trap ..
      · exact beyond
    · have put : LeavesParts P (modify (fun t => t.physPut ((s.part (s.core c).ctx.part).tbase + st.xoff + off) (tierFrame (st.frameBytes d))) : M PUnit) :=
        .modify fun _ => (sameUnits_physPut ..).parts
      split
      · exact .bind (leavesParts_await ..) fun _ => put
      · exact put
  | beyond => exact beyond

theorem leavesParts_putFrames (c : Nat) (strict : Bool) (st : Stack) (xs : List (Nat × Spot)) : LeavesParts P (putFrames c strict st xs) := by
  induction xs with
  | nil => exact .pure _
  | cons x xs ih => exact .bind (leavesParts_putFrame ..) fun _ => ih

theorem leavesParts_hotChecks (c : Nat) (strict : Bool) (xs : List (Nat × Nat)) : LeavesParts P (hotChecks c strict xs) := by
  have check (d n : Nat) : LeavesParts P (hotCheck c d n) := .bind (leavesParts_localCheck ..) fun _ => leavesParts_localCheck ..
  induction xs with
  | nil => exact .pure _
  | cons x xs ih =>
    unfold hotChecks
    split
    · exact .bind (check ..) fun _ => ih
    · exact .bind (.quiet (check ..)) fun _ => ih

theorem leavesParts_applyMoved (c : Nat) (strict : Bool) (old : Stack) (m : Moved) : LeavesParts P (applyMoved c strict old m) := by
  have lower : LeavesParts P (writeLower c strict old m.st) := by
    unfold writeLower
    exact .get fun s _ => .bind (leavesParts_hotChecks ..) fun _ => leavesParts_putFrames ..
  unfold applyMoved
  exact .bind lower fun _ => .getCore fun k => .bind (.modify fun _ => (sameUnits_countDemotions ..).parts) fun _ => .modCore ..

theorem leavesParts_keepKnown (c : Nat) (st : Stack) : LeavesParts P (keepKnown c st) := by
  unfold keepKnown
  refine .getCore fun k => .bind (.modify fun _ => ?_) fun _ => ?_
  · exact (sameUnits_foldl (fun _ _ => (sameUnits_dropBeyond ..).trans (sameUnits_keepBeyond ..)) _ _).parts
  · dsimp only
    split <;> split
    · exact .modify fun _ => rfl
    · exact .pure _
    · exact .modify fun _ => rfl
    · exact .pure _

theorem leavesParts_vouchedWrite (c : Nat) (ptr : Word) (bs : List Byte) : LeavesParts P (vouchedWrite c ptr bs) := by
  unfold vouchedWrite
  refine .bind (leavesParts_bufEntry ..) fun b => .get fun s hs => ?_
  dsimp only
  split
  · exact .bind (leavesParts_await ..) fun _ => .throw _
  · split
    · split
      · exact .pure _
      · exact .bind (.set ((sameUnits_startPull ..).parts.trans hs)) fun _ => .throw _
    · refine .bind (leavesParts_awaitCls ..) fun _ => ?_
      split
      · rename_i t ht
        exact .set ((sameUnits_homePut ht).parts.trans hs)
      · exact .pure _
  · exact .pure _

theorem leavesParts_unbindStack (c : Nat) (strict : Bool) : LeavesParts P (unbindStack c strict) := by
  unfold unbindStack
  refine .getCore fun k => ?_
  split
  · exact .pure _
  · have rest (st : Stack) : LeavesParts P (do
        let _ ← quiet (vouchedWrite c st.entry (natBytes 64 (stackEntry st false)))
        modCore c (fun k => { k with res := { k.res with stack := none },
                                     loc := { k.loc with hot := [], binds := k.loc.binds + 1, hotSrc := st.bytes } })) :=
      .bind (.quiet (leavesParts_vouchedWrite ..)) fun _ => .modCore ..
    split
    · exact .stop_bind ..
    · refine .get fun s _ => .bind (leavesParts_applyMoved ..) fun _ => ?_
      split
      · exact .bind (leavesParts_keepKnown ..) fun _ => rest _
      · exact rest _

end

end Sys2Proof.Machine

/-! PROOFS. The hayward's records and points: launches of a partition, the end of a command, acceptance and ring slots (R34, R35, R414), firing and placement
(R40, R43, R44). -/

namespace Sys2Proof.Machine

-- ### The launches of a partition

theorem launch?_congr {s t : State} {p : Nat} (lid : Nat) (h : (t.part p).launches = (s.part p).launches) : t.launch? p lid = s.launch? p lid := by
  rw [State.launch?, h, State.launch?]

theorem lid_of_launch? {s : State} {p lid : Nat} {l : Launch} (h : s.launch? p lid = some l) : l.lid = lid := by
  simpa using List.find?_some h

theorem launch?_singleton {s : State} {p : Nat} {l : Launch} (h : (s.part p).launches = [l]) : s.launch? p l.lid = some l := by
  simp [State.launch?, h]

theorem part_modLaunch (p lid : Nat) (f : Launch → Launch) (s : State) : (modLaunch p lid f s).part p =
    { s.part p with launches := (s.part p).launches.map (fun l => if l.lid = lid then f l else l) } := State.part_modPart ..

/-- The launch that is changed is found under its id again. -/
theorem launch?_modLaunch {s : State} {p lid : Nat} {l : Launch} {f : Launch → Launch} (hf : ∀ l, (f l).lid = l.lid) (h : s.launch? p lid = some l) :
    (modLaunch p lid f s).launch? p lid = some (f l) := by
  have hid : ((fun l : Launch => l.lid == lid) ∘ fun l => if l.lid = lid then f l else l) = fun l => l.lid == lid := by
    funext l
    dsimp only [Function.comp]
    split <;> simp [hf]
  rw [State.launch?, part_modLaunch]
  dsimp only
  rw [List.find?_map, hid, show (s.part p).launches.find? (fun l => l.lid == lid) = some l from h, Option.map_some, if_pos (lid_of_launch? h)]

-- ### The journal, the bailiffs' notices, the end of a command (R326, R371, R440)

theorem parts_foldl_setBevt (b : BitVec 4) (fs : List Nat) (s : State) : (fs.foldl (fun a f => setBevt f b a) s).parts = s.parts := by
  induction fs generalizing s with
  | nil => rfl
  | cons f fs ih => rw [List.foldl_cons, ih, setBevt, State.parts_modCore]

theorem part_notifyHay (p q : Nat) (s : State) : (notifyHay p s).part q = s.part q := by
  rw [State.part, notifyHay, parts_foldl_setBevt]
  rfl
/-- A notice reaches bailiffs only. -/
theorem core_notifyHay (p : Nat) (s : State) {c : Nat} (h : c < 256) : (notifyHay p s).core c = s.core c :=
  core_foldl_setBevt _ _ _ _ fun _ _ => by omega

/-- R441: an entry of the journal changes nothing of its partition but the journal, and no core. -/
theorem journal_keeps (p kind stat det ctx place lid aux : Nat) (s : State) :
    (journal p kind stat det ctx place lid aux s).cores = s.cores ∧
    ∃ j, (journal p kind stat det ctx place lid aux s).part p = { s.part p with jn := j } := by
  unfold journal
  dsimp only
  split
  · exact ⟨rfl, _, State.part_modPart ..⟩
  · split
    · exact ⟨rfl, _, by rw [State.part_modPart, State.part_modPart]⟩
    · have h := sameUnits_physPut
      exact ⟨(h ..).cores, _, by rw [(h ..).part, State.part_modPart]⟩

theorem endCmd_idle {p : Nat} {s : State} (res : Nat) (h : (s.part p).pb.busy = false) : endCmd p res s = s := by
  simp [endCmd, h]

/-- R371: the command's end is its result and its place, an entry of the journal and a notice. -/
theorem endCmd_busy {p : Nat} {s : State} (res : Nat) (h : (s.part p).pb.busy = true) :
    (∃ j, (endCmd p res s).part p = { s.part p with jn := j, pb := { (s.part p).pb with
      busy := false, res := res, place := (s.part p).pb.cplace, cctx := 0, cplace := 0 } }) ∧
    ∀ c < 256, (endCmd p res s).core c = s.core c := by
  unfold endCmd
  dsimp only
  rw [if_neg (by simp [h])]
  obtain ⟨hc, j, hj⟩ := journal_keeps p 3 res 0 ((s.part p).pb.cctx - 1) (s.part p).pb.cplace (s.part p).pb.slid 0 s
  refine ⟨⟨j, ?_⟩, fun c hlt => ?_⟩
  · rw [part_notifyHay, State.part_modPart, hj]
  · rw [core_notifyHay _ _ hlt]
    show SMap.get _ (journal ..).cores c = _
    rw [hc]
    rfl

theorem launches_endCmd (p res : Nat) (s : State) : ((endCmd p res s).part p).launches = (s.part p).launches := by
  cases h : (s.part p).pb.busy with
  | false => rw [endCmd_idle res h]
  | true =>
    obtain ⟨⟨j, hj⟩, -⟩ := endCmd_busy res h
    rw [hj]

-- ### Acceptance (R35)

/-- R35: the launch that an accepted record becomes. -/
def State.launchOf (s : State) (p : Nat) (d : Deferred) : Launch :=
  { lid := (s.part p).nextLid, asid := d.asid, rec_ := d.rec_, place := freePlace (s.part p).launches, tl := .empty, st := .running, credit := rcWeight d.rec_,
    age := s.cycle.toNat, cutPts := [], timedOut := [], dhalt := false, cap := false, vf := d.vf, ended := none, restore := none }

theorem part_accept (p : Nat) (d : Deferred) (aux : Nat) (s : State) : ∃ j, (accept p d aux s).2.part p =
    { s.part p with launches := (s.part p).launches ++ [s.launchOf p d], nextLid := ((s.part p).nextLid + 1) % 2 ^ 32, jn := j } := by
  unfold accept
  dsimp only
  obtain ⟨-, j, hj⟩ := journal_keeps p 1 0 0 ((s.modPart p fun q => { q with
    launches := q.launches ++ [s.launchOf p d], nextLid := (q.nextLid + 1) % 2 ^ 32 }).ctxIndex p d.asid) (freePlace (s.part p).launches)
    (s.part p).nextLid aux (s.modPart p fun q => { q with launches := q.launches ++ [s.launchOf p d], nextLid := (q.nextLid + 1) % 2 ^ 32 })
  exact ⟨j, hj.trans (by rw [State.part_modPart])⟩

theorem bell_passSlot (p i : Nat) (s : State) : (passSlot p i s).bell p i = { s.bell p i with head := ((s.bell p i).head + 1) % 2 ^ 32 } := by
  rw [State.bell, passSlot, State.part_modPart]
  exact SMap.get_set_same ..

/-- R414: `HEAD` and the rung doorbells are all that a passed slot changes. -/
theorem part_passSlot (p i : Nat) (s : State) : ∃ bells rung, (passSlot p i s).part p = { s.part p with bells := bells, rung := rung } :=
  ⟨_, _, State.part_modPart ..⟩

/-- R35, R414: a ring's record is accepted and its slot passed. -/
theorem passSlot_accept (p i : Nat) (d : Deferred) (aux : Nat) (s : State) :
    let u := passSlot p i (accept p d aux s).2
    (u.part p).launches = (s.part p).launches ++ [s.launchOf p d] ∧ (u.part p).nextLid = ((s.part p).nextLid + 1) % 2 ^ 32 ∧
    (u.part p).deferred = (s.part p).deferred ∧ u.bell p i = { s.bell p i with head := ((s.bell p i).head + 1) % 2 ^ 32 } := by
  obtain ⟨j, hj⟩ := part_accept p d aux s
  obtain ⟨bells, rung, hu⟩ := part_passSlot p i (accept p d aux s).2
  have hb : (accept p d aux s).2.bell p i = s.bell p i := by rw [State.bell, hj, State.bell]
  dsimp only
  rw [hu, hj, bell_passSlot, hb]
  exact ⟨rfl, rfl, rfl, rfl⟩

/-- R35: the oldest deferred record of a ring is accepted when a place is free. -/
theorem deferredAccept_ring {s : State} {p : Nat} {d : Deferred} {rest : List Deferred} (hd : (s.part p).deferred = d :: rest)
    (hl : (s.part p).launches.length < 64) (hm : (s.part p).mg.st = .run) (hc : d.core = none) : ∃ u l, exec (.deferredAccept p) s = .next u ∧
      (u.part p).launches = (s.part p).launches ++ [l] ∧ l.rec_ = d.rec_ ∧ l.lid = (s.part p).nextLid ∧ l.st = .running ∧ (u.part p).deferred = rest ∧
      (u.bell p (s.ctxIndex p d.asid)).head = ((s.bell p (s.ctxIndex p d.asid)).head + 1) % 2 ^ 32 := by
  have hu : acceptDeferred p s = passSlot p (s.ctxIndex p d.asid)
      (accept p d (s.bell p (s.ctxIndex p d.asid)).head (s.modPart p fun q => { q with deferred := rest })).2 := by
    unfold acceptDeferred
    simp only [hd, hl, hm, hc]
    rfl
  obtain ⟨h1, -, h3, h4⟩ := passSlot_accept p (s.ctxIndex p d.asid) d (s.bell p (s.ctxIndex p d.asid)).head (s.modPart p fun q => { q with deferred := rest })
  have hq := State.part_modPart s p (fun q => { q with deferred := rest })
  refine ⟨_, (s.modPart p fun q => { q with deferred := rest }).launchOf p d, congrArg Host.Outcome.next hu, ?_, rfl, ?_, rfl, ?_, ?_⟩
  · rw [h1, hq]
  · rw [State.launchOf, hq]
  · rw [h3, hq]
  · rw [h4, State.bell, hq, State.bell]

-- ### Ring slots (R34, R35, R414)

theorem asidbase_add_ctxIndex {s : State} {asid p : Nat} (h : s.partOfAsid asid = some p) : (s.part p).tb.asidbase + s.ctxIndex p asid = asid := by
  have h := List.find?_some h
  simp only [Bool.and_eq_true, decide_eq_true_eq] at h
  exact Nat.add_sub_cancel' h.1.2

theorem ringSlotRead_turn {s u : State} {asid p : Nat} (hp : s.partOfAsid asid = some p) (ht : s.nextRing p = some (s.ctxIndex p asid))
    (h : takeSlot p (s.ctxIndex p asid) s = (.ok (), u)) : exec (.ringSlotRead asid) s = .next u := by
  refine congrArg Host.Outcome.next ?_
  unfold readSlot
  simp [hp, h, ht]

/-- Log entry 101: a ring whose turn it is not stays. -/
theorem ringSlotRead_notTurn {s u : State} {asid p : Nat} (hp : s.partOfAsid asid = some p) (ht : s.nextRing p ≠ some (s.ctxIndex p asid))
    (h : takeSlot p (s.ctxIndex p asid) s = (.ok (), u)) : exec (.ringSlotRead asid) s = .next s := by
  refine congrArg Host.Outcome.next ?_
  unfold readSlot
  simp [hp, h, ht]

/-- R414: the record in a ring's next slot, as it is deferred or refused. -/
def State.slotRecord (s : State) (p asid : Nat) (bs : List Byte) : Deferred :=
  { rec_ := BitVec.ofNat 2048 (leNat bs), asid := asid, vf := descVf (s.descOf p asid), core := none, pt := none }

section
variable {s s1 : State} {p i asid code : Nat} {bs : List Byte} (ha : (s.part p).tb.asidbase + i = asid)
  (he : (s.bell p i).enabled = true) (hd : (s.part p).headDeferred i = false) (hm : (s.part p).mg.st = .run ∨ (s.part p).mg.st = .live)
  (hw : s.paWaits ((s.bell p i).base + 256 * ((s.bell p i).head % 2 ^ (s.bell p i).rlog)) = false)
  (hb : s.phys ((s.bell p i).base + 256 * ((s.bell p i).head % 2 ^ (s.bell p i).rlog)) 256 = .ok bs)
  (hj : judge p asid (BitVec.ofNat 2048 (leNat bs))
    (s.touched ((s.bell p i).base + 256 * ((s.bell p i).head % 2 ^ (s.bell p i).rlog)) 256 0) = (.ok code, s1))
include ha he hd hm hw hb hj

/-- R34, R35: what becomes of a slot once its record is judged. -/
theorem takeSlot_judged : takeSlot p i s = (if code ≠ 0 then do
      reject p (s.slotRecord p asid bs) code
      modify (passSlot p i)
    else if s.accepts p then modify (fun t => passSlot p i (accept p (s.slotRecord p asid bs) (s.bell p i).head t).2)
    else modPart p (fun q => { q with deferred := q.deferred ++ [s.slotRecord p asid bs] }) : M Unit) s1 := by
  subst ha
  have hst : ((s.part p).mg.st == .run || (s.part p).mg.st == .live) = true := by simpa using hm
  unfold takeSlot
  rw [bind_ok (show (get : M State) s = (.ok s, s) from rfl)]
  dsimp only
  rw [if_neg (by simp [he, hd, hst, hw]), hb]
  exact (bind_ok (show (modify fun t : State => t.touched _ 256 0 : M PUnit) s = (.ok ⟨⟩, s.touched _ 256 0) from rfl)).trans (bind_ok hj)

theorem takeSlot_rejected {s2 : State} (hc : code ≠ 0) (hr : reject p (s.slotRecord p asid bs) code s1 = (.ok (), s2)) :
    takeSlot p i s = (.ok (), passSlot p i s2) := by
  rw [takeSlot_judged ha he hd hm hw hb hj, if_pos hc, bind_ok hr]
  rfl

theorem takeSlot_accepted (hc : code = 0) (hacc : s.accepts p = true) :
    takeSlot p i s = (.ok (), passSlot p i (accept p (s.slotRecord p asid bs) (s.bell p i).head s1).2) := by
  rw [takeSlot_judged ha he hd hm hw hb hj, if_neg (by simp [hc]), if_pos hacc]
  rfl

theorem takeSlot_deferred (hc : code = 0) (hacc : s.accepts p = false) :
    takeSlot p i s = (.ok (), s1.modPart p (fun q => { q with deferred := q.deferred ++ [s.slotRecord p asid bs] })) := by
  rw [takeSlot_judged ha he hd hm hw hb hj, if_neg (by simp [hc]), if_neg (by simp [hacc])]
  rfl

end

/-- R35: whether a record is accepted now is a matter of its partition. -/
theorem accepts_of_parts {s t : State} (h : t.parts = s.parts) (p : Nat) : t.accepts p = s.accepts p := by
  rw [State.accepts, State.part, h, State.accepts, State.part]

theorem part_of_parts {s t : State} (h : t.parts = s.parts) (p : Nat) : t.part p = s.part p := by rw [State.part, h, State.part]

section
variable {s s1 : State} {p i asid code : Nat} {bs : List Byte} (hp : s.partOfAsid asid = some p) (hi : i = s.ctxIndex p asid)
  (hturn : s.nextRing p = some i) (he : (s.bell p i).enabled = true) (hd : (s.part p).headDeferred i = false)
  (hm : (s.part p).mg.st = .run ∨ (s.part p).mg.st = .live)
  (hw : s.paWaits ((s.bell p i).base + 256 * ((s.bell p i).head % 2 ^ (s.bell p i).rlog)) = false)
  (hb : s.phys ((s.bell p i).base + 256 * ((s.bell p i).head % 2 ^ (s.bell p i).rlog)) 256 = .ok bs)
  (hj : judge p asid (BitVec.ofNat 2048 (leNat bs))
    (s.touched ((s.bell p i).base + 256 * ((s.bell p i).head % 2 ^ (s.bell p i).rlog)) 256 0) = (.ok code, s1)) (hparts : s1.parts = s.parts)
include hp hi hturn he hd hm hw hb hj hparts

/-- R34, R35, R414: the slot whose turn it is, by the judgement of its record. -/
theorem ringSlotRead_judged :
    (code = 0 → s1.accepts p = true → ∃ u l, exec (.ringSlotRead asid) s = .next u ∧ (u.part p).launches = (s.part p).launches ++ [l] ∧
      l.lid = (s.part p).nextLid ∧ l.rec_ = BitVec.ofNat 2048 (leNat bs) ∧ l.asid = asid ∧ l.st = .running ∧ l.tl = .empty ∧
      (u.part p).nextLid = ((s.part p).nextLid + 1) % 2 ^ 32 ∧
      (u.bell p i).head = ((s.bell p i).head + 1) % 2 ^ 32 ∧ (u.bell p i).tail = (s.bell p i).tail) ∧
    (code = 0 → s1.accepts p = false → ∃ u d, exec (.ringSlotRead asid) s = .next u ∧ (u.part p).deferred = (s.part p).deferred ++ [d] ∧
      d.rec_ = BitVec.ofNat 2048 (leNat bs) ∧ d.core = none ∧ (u.part p).launches = (s.part p).launches ∧ u.bell p i = s.bell p i ∧ u.mem = s1.mem) ∧
    (code ≠ 0 → ∀ s2, reject p (s.slotRecord p asid bs) code s1 = (.ok (), s2) → exec (.ringSlotRead asid) s = .next (passSlot p i s2)) := by
  subst hi
  have ha := asidbase_add_ctxIndex hp
  have hq : s1.part p = s.part p := part_of_parts hparts p
  have hbell : s1.bell p (s.ctxIndex p asid) = s.bell p (s.ctxIndex p asid) := by rw [State.bell, hq, State.bell]
  refine ⟨fun hc hacc => ?_, fun hc hacc => ?_, fun hc s2 hr => ?_⟩
  · rw [accepts_of_parts hparts] at hacc
    obtain ⟨hl, hn, -, hbu⟩ := passSlot_accept p (s.ctxIndex p asid) (s.slotRecord p asid bs) (s.bell p (s.ctxIndex p asid)).head s1
    refine ⟨_, s1.launchOf p (s.slotRecord p asid bs), ringSlotRead_turn hp hturn (takeSlot_accepted ha he hd hm hw hb hj hc hacc),
      by rw [hl, hq], congrArg Part.nextLid hq, rfl, rfl, rfl, rfl, by rw [hn, hq], ?_, ?_⟩ <;> rw [hbu, hbell]
  · rw [accepts_of_parts hparts] at hacc
    have hu := State.part_modPart s1 p (fun q => { q with deferred := q.deferred ++ [s.slotRecord p asid bs] })
    refine ⟨_, s.slotRecord p asid bs, ringSlotRead_turn hp hturn (takeSlot_deferred ha he hd hm hw hb hj hc hacc), ?_, rfl, rfl, ?_, ?_, rfl⟩
    · rw [hu, hq]
    · rw [hu, hq]
    · rw [State.bell, hu, hq, State.bell]
  · exact ringSlotRead_turn hp hturn (takeSlot_rejected ha he hd hm hw hb hj hc hr)

end

-- ### Points fire (R40, R43, R44)

/-- R40: the point that fires is not done, and its predecessors are. -/
theorem firstFireable_ready {s : State} {p : Nat} {l : Launch} {pt : Point} (h : s.firstFireable p l = some pt) :
    l.doneAt pt.x pt.y pt.z = false ∧ predsDone (s.part p).launches l pt.x pt.y pt.z = true := by
  unfold State.firstFireable at h
  split at h
  · cases h
  · obtain ⟨row, -, h⟩ := List.exists_of_findSome?_eq_some h
    obtain ⟨i, hi, rfl⟩ := Option.map_eq_some_iff.1 h
    have hf := List.find?_some hi
    simp only [fireable, Bool.and_eq_true, Bool.not_eq_true'] at hf
    obtain ⟨⟨⟨⟨⟨⟨⟨hdone, -⟩, -⟩, -⟩, -⟩, -⟩, -⟩, hpreds⟩ := hf
    refine ⟨?_, hpreds⟩
    rw [Launch.doneAt, rowOf, Nat.mod_add_div]
    exact hdone

theorem placeFor_permits {s : State} {p : Nat} {l : Launch} {c : Nat} {staged : Bool} (h : s.placeFor p l = some (c, staged)) : s.permits p l c = true := by
  unfold State.placeFor at h
  dsimp only at h
  split at h
  · rename_i hf
    cases h
    exact (List.mem_filter.1 (List.mem_of_find?_eq_some hf)).2
  · obtain ⟨d, hd, e⟩ := Option.map_eq_some_iff.1 h
    cases e
    exact (List.mem_filter.1 (List.mem_of_find?_eq_some hd)).2

section
variable {s : State} {p : Nat} {l : Launch} {pt : Point} {c : Nat} {staged : Bool} (hl : (s.part p).launches = [l])
  (hf : s.firstFireable p l = some pt) (hp : s.placeFor p l = some (c, staged))
include hl hf hp

theorem dispatchPoint_only (credit : Nat) : dispatchPoint p l.lid credit s = (putPoint c staged pt s).modPart p (fun q => { q with
    launches := q.launches.map (fun x => if x.lid = l.lid then { x with credit := credit, age := s.cycle.toNat } else x) }) := by
  unfold dispatchPoint
  rw [show (s.part p).launches.find? (fun x => x.lid == l.lid) = some l from launch?_singleton hl]
  dsimp only
  rw [hf, hp]

/-- R44: the point stands in the slot it was placed in, and its launch has its new credit and age. -/
theorem dispatchPoint_places (credit : Nat) : let u := dispatchPoint p l.lid credit s
    (u.part p).launches = [{ l with credit := credit, age := s.cycle.toNat }] ∧
    (if staged then (u.core c).slot.staged = some pt else (u.core c).slot.running = some pt ∧ (u.core c).slot.active = false) ∧ u.mem = s.mem := by
  dsimp only
  rw [dispatchPoint_only hl hf hp]
  refine ⟨?_, ?_, rfl⟩
  · rw [State.part_modPart, putPoint, State.part_modCore, hl]
    simp
  · rw [State.modPart, State.core_setPart, putPoint, State.core_modCore]
    cases staged
    · exact ⟨rfl, rfl⟩
    · rfl

/-- R43: the only launch, with credit left, is the hayward's choice. -/
theorem firePoint_only (hcls : rcPrio l.rec_ < 4) (hcr : 0 < l.credit) : firePoint p s = dispatchPoint p l.lid (l.credit - 1) s := by
  have hfire : s.canFire p l = true := by simp [State.canFire, hf, hp]
  unfold firePoint
  simp [hl, hfire, Nat.min_eq_right hcls.le, hcr]

theorem pointFire_only (hcls : rcPrio l.rec_ < 4) (hcr : 0 < l.credit) : ∃ u, exec (.pointFire p) s = .next u ∧
      (u.part p).launches = [{ l with credit := l.credit - 1, age := s.cycle.toNat }] ∧
      (if staged then (u.core c).slot.staged = some pt else (u.core c).slot.running = some pt ∧ (u.core c).slot.active = false) ∧
      l.doneAt pt.x pt.y pt.z = false ∧ predsDone [l] l pt.x pt.y pt.z = true ∧ s.permits p l c = true ∧ u.mem = s.mem := by
  obtain ⟨hlaunch, hslot, hmem⟩ := dispatchPoint_places hl hf hp (l.credit - 1)
  obtain ⟨hdone, hpreds⟩ := firstFireable_ready hf
  rw [hl] at hpreds
  exact ⟨_, congrArg Host.Outcome.next (firePoint_only hl hf hp hcls hcr), hlaunch, hslot, hdone, hpreds, placeFor_permits hp, hmem⟩

/-- R43: a launch served out of turn keeps its credit. -/
theorem outOfTurnService_only (hcls : rcPrio l.rec_ ≠ 0) (hage : 2 ^ 24 ≤ l.since s) : ∃ u, exec (.outOfTurnService p l.lid) s = .next u ∧
      (u.part p).launches = [{ l with age := s.cycle.toNat }] ∧
      (if staged then (u.core c).slot.staged = some pt else (u.core c).slot.running = some pt) := by
  have hserve : serveOutOfTurn p l.lid s = dispatchPoint p l.lid l.credit s := by
    unfold serveOutOfTurn
    rw [show (s.part p).launches.find? (fun x => x.lid == l.lid) = some l from launch?_singleton hl]
    exact if_pos ⟨hcls, hage⟩
  obtain ⟨hlaunch, hslot, -⟩ := dispatchPoint_places hl hf hp l.credit
  refine ⟨_, congrArg Host.Outcome.next hserve, hlaunch, ?_⟩
  cases staged
  · exact hslot.1
  · exact hslot

end

end Sys2Proof.Machine

/-! PROOFS. A point's start (R46 to R48) and its retirement (R41, R42, R266), with the end of its launch (R49, R50). -/

namespace Sys2Proof.Machine

-- ### A point starts (R46, R47)

/-- Entry `k` of a map filled from 0 upwards. -/
theorem get_foldl_set {α : Type} [DecidableEq α] (d : α) (f : Nat → α) (n k : Nat) :
    SMap.get d ((upTo n).foldl (fun m i => SMap.set d m i (f i)) []) k = if k < n then f k else d := by
  unfold upTo
  induction n with
  | zero => simp
  | succ n ih =>
    rw [List.range_succ, List.foldl_append, List.foldl_cons, List.foldl_nil, SMap.get_set, ih]
    grind

/-- R251: without a table, record `i` of it would lie at offset 64 i, and is no handle's. -/
theorem bindRecord_noTable (x : HReg) : bindRecord (tableRec [] x.toNat) (advance 0 (64 * x.toNat)) = ⟨false, false, 0, BitVec.ofNat 64 (64 * x.toNat)⟩ := by
  have hrec : tableRec [] x.toNat = 0 := by simp [tableRec, leNat]
  have haddr : advance 0 (64 * x.toNat) = BitVec.ofNat 64 (64 * x.toNat) := by
    have hlt : 64 * x.toNat < 2 ^ 48 := by omega
    show BitVec.ofNat 64 (0 * 2 ^ 48 + (0 + 64 * x.toNat) % 2 ^ 48) = _
    rw [Nat.zero_mul, Nat.zero_add, Nat.zero_add, Nat.mod_eq_of_lt hlt]
  rw [hrec, haddr, bindRecord, if_pos (by rw [shFmt, fld, natBits, BitVec.ofNat_eq_ofNat, BitVec.toNat_zero, Nat.zero_shiftRight, Nat.zero_mod])]

theorem get_tableHandles_none (x : HReg) : SMap.get .unbound (tableHandles 0 []) x.toNat = ⟨false, false, 0, BitVec.ofNat 64 (64 * x.toNat)⟩ := by
  unfold tableHandles
  rw [get_foldl_set .unbound (fun i => bindRecord (tableRec [] i) (advance 0 (64 * i))), if_pos x.isLt, bindRecord_noTable]

/-- R46: s1 to s4 of a point are its coordinates and the launch's arguments; every other register is 0. -/
theorem rd_startFile (r : BitVec 2048) (pt : Point) (x : SReg) : (startFile r pt).rd x = if x = 4 then rcArgs r else if x = 3 then BitVec.ofNat 64 pt.z
    else if x = 2 then BitVec.ofNat 64 pt.y else if x = 1 then BitVec.ofNat 64 pt.x else 0 := by
  have hs : (startFile r pt).s = SMap.set 0 (SMap.set 0 (SMap.set 0 (SMap.set 0 [] 1 (BitVec.ofNat 64 pt.x)) 2 (BitVec.ofNat 64 pt.y)) 3
    (BitVec.ofNat 64 pt.z)) 4 (rcArgs r) := rfl
  rw [ScalarFile.rd, hs]
  simp only [SMap.get_set, SMap.get_nil, ← BitVec.toNat_inj]
  grind

section
variable (k : CoreSt) (r : BitVec 2048) (pt : Point) (dbg : Word) (hs : SMap Handle) (chs : SMap (BitVec 512)) (mem : SMap Byte) (lines : SMap LineSt)

/-- R46: the registers that a point starts with. -/
theorem startPoint_registers : let u := k.startPoint r pt dbg hs chs mem lines
    u.f.pc = rcEntry r ∧ u.rd 1 = BitVec.ofNat 64 pt.x ∧ u.rd 2 = BitVec.ofNat 64 pt.y ∧ u.rd 3 = BitVec.ofNat 64 pt.z ∧ u.rd 4 = rcArgs r ∧
    (∀ x : SReg, 5 ≤ x.toNat → u.rd x = 0) ∧ ∀ x : HReg, u.rdH x = SMap.get .unbound hs x.toNat := by
  intro u
  rw [show u.rd = (startFile r pt).rd from rfl]
  refine ⟨rfl, rd_startFile r pt 1, rd_startFile r pt 2, rd_startFile r pt 3, rd_startFile r pt 4, fun x hx => ?_, fun _ => rfl⟩
  have hne (n : SReg) (hn : n.toNat < 5) : x ≠ n := by rintro rfl; omega
  rw [rd_startFile, if_neg (hne 4 (by decide)), if_neg (hne 3 (by decide)), if_neg (hne 2 (by decide)), if_neg (hne 1 (by decide))]

end

/-- R358: what a read at home does to its lines is all that it does. -/
theorem touched_lines (s : State) (pa n key : Nat) : ∃ ls, s.touched pa n key = { s with lines := ls } := by
  have hretag (t : State) (line : Nat) : ∃ ls, t.retag line key = { t with lines := ls } := by
    unfold State.retag
    dsimp only
    split
    · exact ⟨t.lines, rfl⟩
    · exact ⟨_, rfl⟩
  have hfold (is : List Nat) (t : State) : ∃ ls, is.foldl (fun a i => a.retag (pa / 256 + i) key) t = { t with lines := ls } := by
    induction is generalizing t with
    | nil => exact ⟨t.lines, rfl⟩
    | cons i is ih =>
      obtain ⟨ls, h⟩ := hretag t (pa / 256 + i)
      obtain ⟨ls', h'⟩ := ih (t.retag (pa / 256 + i) key)
      exact ⟨ls', by rw [List.foldl_cons, h', h]⟩
  unfold State.touched
  split
  · exact ⟨s.lines, rfl⟩
  · exact hfold ..

/-- R46: a placed point of a running launch starts on a croft that runs its context already. -/
theorem startPoint_starts {s : State} {p c : Nat} {pt : Point} {l : Launch} {d : BitVec 1024} (hpart : (s.core c).ctx.part = p)
    (hrun : (s.core c).slot.running = some pt) (hact : (s.core c).slot.active = false) (hl : s.launch? p pt.lid = some l) (hst : l.st = .running)
    (hw : s.paWaits (s.descAddr p l.asid) = false) (hd : s.descRead p l.asid = .ok d) (hu : descUsable (s.part p) d = true)
    (hctx : s.runsContext c p l.asid = true) (hh : rcHtab l.rec_ = 0) (hc : rcCtab l.rec_ = 0) :
    ∃ (t : State) (dbg : CoreSt → Word), t.mem = s.mem ∧
      startPoint c s = t.modCore c (fun k => k.startPoint l.rec_ pt (dbg k) (tableHandles 0 []) (tableSlots 0 []) t.mem t.lines) := by
  subst hpart
  obtain ⟨ls, hls⟩ := touched_lines s (s.descAddr (s.core c).ctx.part l.asid) 128 0
  have hctx' : ({ s with lines := ls } : State).runsContext c (s.core c).ctx.part l.asid = true := hctx
  let t := ({ s with lines := ls } : State).modCore c (fun k => { k with loc := k.loc.keep s.tick c })
  refine ⟨(acquireD c t).2, fun k => (acquireD c t).2.dbgctl l.asid k.ctx.desc, rfl, ?_⟩
  unfold startPoint
  simp only [hrun, hact, Bool.false_eq_true, if_false]
  rw [show (s.part (s.core c).ctx.part).launches.find? (fun x => x.lid == pt.lid) = some l from hl]
  simp only [hst, hw, hd, hu, hctx, hctx', hh, hc, hls]
  rfl

theorem pointStart_starts {s : State} {p c : Nat} {pt : Point} {l : Launch} {d : BitVec 1024} (hpart : (s.core c).ctx.part = p)
    (hrun : (s.core c).slot.running = some pt) (hact : (s.core c).slot.active = false) (hl : s.launch? p pt.lid = some l) (hst : l.st = .running)
    (hw : s.paWaits (s.descAddr p l.asid) = false) (hd : s.descRead p l.asid = .ok d) (hu : descUsable (s.part p) d = true)
    (hctx : s.runsContext c p l.asid = true) (hh : rcHtab l.rec_ = 0) (hc : rcCtab l.rec_ = 0) :
    ∃ u, exec (.pointStart c) s = .next u ∧ (u.core c).f.pc = rcEntry l.rec_ ∧ (u.core c).rd 1 = BitVec.ofNat 64 pt.x ∧
      (u.core c).rd 2 = BitVec.ofNat 64 pt.y ∧ (u.core c).rd 3 = BitVec.ofNat 64 pt.z ∧ (u.core c).rd 4 = rcArgs l.rec_ ∧
      (∀ r : SReg, 5 ≤ r.toNat → (u.core c).rd r = 0) ∧
      (∀ x : HReg, (u.core c).rdH x = { bound := false, bad := false, shape := 0, addr := BitVec.ofNat 64 (64 * x.toNat) }) ∧
      (u.core c).q.es = [] ∧ (u.core c).pend = 0 ∧ (u.core c).slot.active = true ∧ (u.core c).ctl.priv = false ∧ (u.core c).res.stack = none ∧
      u.mem = s.mem := by
  obtain ⟨t, dbg, hmem, ht⟩ := startPoint_starts hpart hrun hact hl hst hw hd hu hctx hh hc
  refine ⟨_, congrArg Host.Outcome.next ht, ?_⟩
  rw [State.core_modCore]
  obtain ⟨hpc, h1, h2, h3, h4, hs, hhs⟩ := startPoint_registers (t.core c) l.rec_ pt (dbg (t.core c)) (tableHandles 0 []) (tableSlots 0 []) t.mem t.lines
  exact ⟨hpc, h1, h2, h3, h4, hs, fun x => (hhs x).trans (get_tableHandles_none x), rfl, rfl, rfl, rfl, rfl, hmem⟩

-- ### Folds over the crofts of a partition

/-- A change that is made once is made once, however often its core is named; the other cores stay. -/
theorem core_foldl_modCore {f : CoreSt → CoreSt} (hf : ∀ k, f (f k) = f k) (cs : List Nat) (s : State) (d : Nat) :
    (cs.foldl (fun a c => a.modCore c f) s).core d = if d ∈ cs then f (s.core d) else s.core d := by
  induction cs generalizing s with
  | nil => rfl
  | cons c cs ih =>
    rw [List.foldl_cons, ih]
    by_cases h : d = c
    · subst h
      rw [State.core_modCore, hf, ite_self, if_pos List.mem_cons_self]
    · rw [State.core_modCore_ne _ _ _ _ h]
      simp only [List.mem_cons, h, false_or]

theorem parts_foldl_modCore (f : CoreSt → CoreSt) (cs : List Nat) (s : State) : (cs.foldl (fun a c => a.modCore c f) s).parts = s.parts := by
  induction cs generalizing s with
  | nil => rfl
  | cons c cs ih => rw [List.foldl_cons, ih, State.parts_modCore]

theorem foldl_idle {α : Type} {f : State → α → State} {l : List α} {s : State} (h : ∀ x ∈ l, f s x = s) : l.foldl f s = s := by
  induction l with
  | nil => rfl
  | cons x l ih =>
    obtain ⟨hx, hl⟩ := List.forall_mem_cons.1 h
    rw [List.foldl_cons, hx, ih hl]

theorem lt_of_mem_crofts {q : Part} {c : Nat} (h : c ∈ q.crofts) : c < 256 := mem_upTo.1 (List.mem_filter.1 h).1

-- ### Withdrawal (R44)

/-- R44: a core without the staged point of a launch. -/
def CoreSt.unstaged (p lid : Nat) (k : CoreSt) : CoreSt :=
  match k.slot.staged with
  | some q => if k.ctx.part == p && q.lid == lid then { k with slot := { k.slot with staged := none } } else k
  | none => k

theorem withdraw_eq (p lid : Nat) (s : State) : withdraw p lid s = (s.part p).crofts.foldl (fun a c => a.modCore c (CoreSt.unstaged p lid)) s := rfl

theorem CoreSt.unstaged_keeps (p lid : Nat) (k : CoreSt) : (k.unstaged p lid).slot.running = k.slot.running ∧
    (k.unstaged p lid).slot.active = k.slot.active ∧ (k.unstaged p lid).ctx = k.ctx := by
  unfold CoreSt.unstaged
  split
  · split <;> exact ⟨rfl, rfl, rfl⟩
  · exact ⟨rfl, rfl, rfl⟩

theorem CoreSt.unstaged_unstaged (p lid : Nat) (k : CoreSt) : (k.unstaged p lid).unstaged p lid = k.unstaged p lid := by
  unfold CoreSt.unstaged
  grind

theorem parts_withdraw (p lid : Nat) (s : State) : (withdraw p lid s).parts = s.parts := parts_foldl_modCore ..

theorem core_withdraw (p lid : Nat) (s : State) (c : Nat) : ((withdraw p lid s).core c).slot.running = (s.core c).slot.running ∧
    ((withdraw p lid s).core c).slot.active = (s.core c).slot.active ∧ ((withdraw p lid s).core c).ctx = (s.core c).ctx := by
  rw [withdraw_eq, core_foldl_modCore (CoreSt.unstaged_unstaged p lid)]
  split
  · exact CoreSt.unstaged_keeps ..
  · exact ⟨rfl, rfl, rfl⟩

/-- A croft runs a launch's point by its slot and its context alone. -/
theorem runsLaunch_congr {s t : State} {c : Nat} (p lid : Nat) (hr : (t.core c).slot.running = (s.core c).slot.running)
    (hx : (t.core c).ctx = (s.core c).ctx) : runsLaunch t p lid c = runsLaunch s p lid c := by
  unfold runsLaunch
  dsimp only
  rw [hr, hx]

theorem runsLaunch_withdraw (s : State) (p q lid c : Nat) : runsLaunch (withdraw p lid s) q lid c = runsLaunch s q lid c := by
  obtain ⟨hr, -, hx⟩ := core_withdraw p lid s c
  exact runsLaunch_congr q lid hr hx

section
variable {s : State} {p lid : Nat} (h : ∀ c ∈ (s.part p).crofts, runsLaunch s p lid c = false)
include h

/-- With no point of it running, a launch only has its staged points withdrawn. -/
theorem killPoints_none : killPoints p lid s = withdraw p lid s :=
  foldl_idle fun c hc => by rw [runsLaunch_withdraw, h c hc]; rfl

theorem withdrawAll_none : withdrawAll p lid s = withdraw p lid s :=
  foldl_idle fun c hc => by rw [runsLaunch_withdraw, h c hc]; rfl

theorem runners_none : s.runners p lid = [] :=
  List.filter_eq_nil_iff.2 fun c hc => by simp [h c hc]

end

-- ### Launches end (R49, R50)

theorem part_raiseMsix (vf vec p : Nat) (s : State) : (raiseMsix vf vec s).part p = s.part p := by
  unfold raiseMsix
  split <;> rfl

theorem part_drainsOn (p lid q : Nat) (s : State) : (drainsOn p lid s).part q = s.part q := by
  unfold drainsOn
  split
  · split <;> rfl
  · rfl

theorem core_drainsOn (p lid c : Nat) (s : State) : (drainsOn p lid s).core c = s.core c := by
  unfold drainsOn
  split
  · split <;> rfl
  · rfl

theorem launches_endsCommand (p lid : Nat) (s : State) : ((endsCommand p lid false s).part p).launches = (s.part p).launches := by
  unfold endsCommand
  split
  · exact launches_endCmd ..
  · rfl

/-- R244: the completion word of a launch that ends without an error. -/
theorem cword_ended (lid : Nat) : cword 0 0 lid = BitVec.ofNat 64 (0x800000 + lid * 2 ^ 24) := by
  have h : 0 + atBit (0 % 256) 8 + atBit 1 23 + atBit (lid % 2 ^ 40) 24 = 0x800000 + lid % 2 ^ 40 * 2 ^ 24 := by
    simp only [atBit, Nat.shiftLeft_eq]
  apply BitVec.eq_of_toNat_eq
  rw [cword, h, BitVec.toNat_ofNat, BitVec.toNat_ofNat]
  omega

theorem cword_ended_cap (lid : Nat) (cap : Bool) : cword 0 0 lid + (if cap then 0x10000 else 0) =
    BitVec.ofNat 64 (0x800000 + lid * 2 ^ 24 + if cap then 0x10000 else 0) := by
  rw [cword_ended, BitVec.ofNat_add (0x800000 + lid * 2 ^ 24)]
  cases cap <;> rfl

/-- R50: once its word is written, the launch is no longer active. -/
theorem endOne_only {p status detail : Nat} {l : Launch} {s s4 : State} (hl : (s.part p).launches = [l])
    (hw : writeCw p l.asid (rcCwaddr l.rec_) (cword status detail l.lid + (if l.cap then 0x10000 else 0)) s = (.ok (), s4)) (hp : s4.parts = s.parts) :
    ∃ s5, endOne p l status detail s = (.ok (), s5) ∧ (s5.part p).launches = [] := by
  unfold endOne
  rw [bind_ok hw]
  refine ⟨_, rfl, ?_⟩
  rw [State.part_modPart]
  obtain ⟨-, j, hj⟩ := journal_keeps p 2 status detail ((if rcIrq l.rec_ = true then raiseMsix l.vf (rcMsix l.rec_) s4 else s4).ctxIndex p l.asid) l.place l.lid 0
    (if rcIrq l.rec_ = true then raiseMsix l.vf (rcMsix l.rec_) s4 else s4)
  have hirq : (if rcIrq l.rec_ = true then raiseMsix l.vf (rcMsix l.rec_) s4 else s4).part p = s.part p := by
    split
    · rw [part_raiseMsix, part_of_parts hp]
    · exact part_of_parts hp p
  rw [hj, hirq]
  simp [hl]

theorem beginEnd_eq {p lid status detail : Nat} {l : Launch} {s : State} (hl : s.launch? p lid = some l) (he : l.ended = none) :
    beginEnd p lid status detail s = killPoints p lid (modLaunch p lid (fun l => { l with st := .ending, ended := some (status, detail) }) s) := by
  unfold beginEnd
  rw [hl]
  simp [he]

/-- R50: the only launch, with no point running, ends in OK once its word is written. -/
theorem finishLaunch_only {p : Nat} {l : Launch} {s s4 : State} (hl : (s.part p).launches = [l]) (he : l.ended = none)
    (hr : ∀ c ∈ (s.part p).crofts, runsLaunch s p l.lid c = false)
    (hw : writeCw p l.asid (rcCwaddr l.rec_) (BitVec.ofNat 64 (0x800000 + l.lid * 2 ^ 24 + if l.cap then 0x10000 else 0)) (beginEnd p l.lid 0 0 s) = (.ok (), s4))
    (hp : s4.parts = (beginEnd p l.lid 0 0 s).parts) : ((finishLaunch p l.lid 0 0 s).part p).launches = [] := by
  let e := modLaunch p l.lid (fun l => { l with st := .ending, ended := some (0, 0) }) s
  have hbegin : beginEnd p l.lid 0 0 s = withdraw p l.lid e := (beginEnd_eq (launch?_singleton hl) he).trans
    (killPoints_none fun c hc => hr c (by rw [part_modLaunch] at hc; exact hc))
  have hpart : (withdraw p l.lid e).part p = { s.part p with launches := [{ l with st := .ending, ended := some (0, 0) }] } := by
    rw [part_of_parts (parts_withdraw ..), part_modLaunch, hl]
    simp
  have hlaunches : ((withdraw p l.lid e).part p).launches = [{ l with st := .ending, ended := some (0, 0) }] := by rw [hpart]
  have hnone : (withdraw p l.lid e).runners p l.lid = [] := runners_none fun c hc => by
    rw [runsLaunch_withdraw]
    rw [hpart] at hc
    exact hr c hc
  rw [hbegin] at hw hp
  rw [← cword_ended_cap] at hw
  obtain ⟨s5, hend, hgone⟩ := endOne_only hlaunches hw hp
  rw [finishLaunch, hbegin, endLaunch, launch?_singleton hlaunches]
  simp only [hnone, hend]
  exact (launches_endsCommand ..).trans hgone

-- ### `PT.DONE` retires (R41, R42, R266)

theorem modLaunch_only {s : State} {p : Nat} {l : Launch} (hl : (s.part p).launches = [l]) (f : Launch → Launch) :
    modLaunch p l.lid f s = s.setPart p { s.part p with launches := [f l] } := by
  unfold modLaunch State.modPart
  simp [hl]

/-- R41: a launch once one of its points has completed. -/
def Launch.completed (l : Launch) (pt : Point) : Launch :=
  { l with tl := l.tl.complete (rcEx l.rec_) (rowCount l.rec_) pt.x (rowOf l.rec_ pt.y pt.z), timedOut := l.timedOut.filter (fun x => x != pt) }

/-- R41: the completion is applied; the launch ends once its floor reaches its rows. -/
theorem completePoint_of {s : State} {p : Nat} {pt : Point} {l : Launch}
    (h : (modLaunch p pt.lid (fun l => l.completed pt) s).launch? p pt.lid = some l) :
    let s1 := modLaunch p pt.lid (fun l => l.completed pt) s
    completePoint p pt s = drainsOn p l.lid (if l.tl.floor = rowCount l.rec_ then finishLaunch p l.lid 0 0 s1
      else if s1.allTimedOut p l.lid then notifyHay p s1 else s1) := by
  unfold completePoint
  change (match (modLaunch p pt.lid (fun l => l.completed pt) s).launch? p pt.lid with | some _ => _ | none => _) = _
  rw [h]
  rfl

theorem completePoint_only {s : State} {p : Nat} {l : Launch} {pt : Point} (hl : (s.part p).launches = [l]) (hid : l.lid = pt.lid) :
    let s1 := s.setPart p { s.part p with launches := [l.completed pt] }
    completePoint p pt s = drainsOn p l.lid (if (l.completed pt).tl.floor = rowCount l.rec_ then finishLaunch p l.lid 0 0 s1
      else if s1.allTimedOut p l.lid then notifyHay p s1 else s1) := by
  have hfound := launch?_modLaunch (f := fun l => l.completed pt) (fun _ => rfl) (launch?_singleton hl)
  have hs1 := modLaunch_only hl (fun l => l.completed pt)
  rw [hid] at hfound hs1
  dsimp only
  rw [completePoint_of hfound, hs1]
  rfl

/-- R266: what a point does before it retires leaves the partitions as they are. -/
theorem parts_of_release {c : Nat} {s s1 : State} (h : (do let _ ← quiet (unbindStack c false); releaseD c : M Unit) s = (.ok (), s1)) : s1.parts = s.parts := by
  have hrun := (LeavesParts.bind (.quiet (leavesParts_unbindStack c false)) fun _ => leavesParts_releaseD c).run s rfl
  rwa [h] at hrun

section
variable {s s1 : State} {p c : Nat} {pt : Point} {l : Launch} (hc : c < 256) (hpart : (s.core c).ctx.part = p) (hrun : (s.core c).slot.running = some pt)
  (hdr : (s.core c).drained = true) (hrel : (do let _ ← quiet (unbindStack c false); releaseD c : M Unit) s = (.ok (), s1))
  (hl : (s1.part p).launches = [l]) (hid : l.lid = pt.lid)
include hpart hrun hdr hrel

theorem retirePoint_drained : retirePoint c s = completePoint p pt (s1.modCore c CoreSt.emptied) := by
  subst hpart
  unfold retirePoint
  simp only [hdr, hrun, hrel]
  rfl

include hl hid

/-- R42, R49: the last point of a launch ends it. -/
theorem retirePoint_last {s4 : State} (he : l.ended = none) (hfloor : (l.completed pt).tl.floor = rowCount l.rec_)
    (hr : ∀ d ∈ (s.part p).crofts, runsLaunch (s1.modCore c CoreSt.emptied) p l.lid d = false)
    (hw : writeCw p l.asid (rcCwaddr l.rec_) (BitVec.ofNat 64 (0x800000 + l.lid * 2 ^ 24 + if l.cap then 0x10000 else 0))
      (beginEnd p l.lid 0 0 (modLaunch p l.lid (fun x => { x with tl := (l.completed pt).tl, timedOut := x.timedOut.filter (fun y => y != pt) })
        (s1.modCore c CoreSt.emptied))) = (.ok (), s4))
    (hp : s4.parts = (beginEnd p l.lid 0 0 (modLaunch p l.lid (fun x => { x with tl := (l.completed pt).tl, timedOut := x.timedOut.filter (fun y => y != pt) })
        (s1.modCore c CoreSt.emptied))).parts) : ((retirePoint c s).part p).launches = [] := by
  have hq : s1.part p = s.part p := part_of_parts (parts_of_release hrel) p
  have hl2 : ((s1.modCore c CoreSt.emptied).part p).launches = [l] := hl
  rw [modLaunch_only hl2] at hw hp
  rw [retirePoint_drained hpart hrun hdr hrel, completePoint_only hl2 hid, if_pos hfloor, part_drainsOn]
  refine finishLaunch_only (l := l.completed pt) (by rw [State.part_setPart]) he (fun d hd => ?_) hw hp
  rw [State.part_setPart] at hd
  refine hr d ?_
  rw [← hq]
  exact hd

include hc

/-- R41, R46: otherwise the croft is free of the point, and its launch goes on with the treeline advanced. -/
theorem retirePoint_notLast (hst : l.st = .running) (hfloor : (l.completed pt).tl.floor ≠ rowCount l.rec_) :
    ((retirePoint c s).core c) = (s1.core c).emptied ∧
    ∃ l', ((retirePoint c s).part p).launches = [l'] ∧ l'.tl = (l.completed pt).tl ∧ l'.st = .running ∧ l'.rec_ = l.rec_ := by
  have hl2 : ((s1.modCore c CoreSt.emptied).part p).launches = [l] := hl
  rw [retirePoint_drained hpart hrun hdr hrel, completePoint_only hl2 hid, if_neg hfloor, core_drainsOn, part_drainsOn]
  refine ⟨?_, l.completed pt, ?_, rfl, hst, rfl⟩
  · split
    · rw [core_notifyHay _ _ hc, State.core_setPart, State.core_modCore]
    · rw [State.core_setPart, State.core_modCore]
  · split
    · rw [part_notifyHay, State.part_setPart]
    · rw [State.part_setPart]

end

end Sys2Proof.Machine

/-! PROOFS. Pre-emption and role commands (R371 to R375, R380), and from all of these rules `Obligations.HaywardEvents`. -/

namespace Sys2Proof.Machine

-- ### What stands at home does not depend on cores and partitions

/-- `t` is `s` but for its cores and its partitions. -/
def State.SameHome (s t : State) : Prop := t = { s with cores := t.cores, parts := t.parts }

theorem State.SameHome.trans {s t u : State} (h : s.SameHome t) (g : t.SameHome u) : s.SameHome u := by
  unfold State.SameHome at *
  rw [g, h]

theorem sameHome_modLaunch (p lid : Nat) (f : Launch → Launch) (s : State) : s.SameHome (modLaunch p lid f s) := rfl

theorem sameHome_foldl_modCore (f : CoreSt → CoreSt) (cs : List Nat) (s : State) : s.SameHome (cs.foldl (fun a c => a.modCore c f) s) := by
  induction cs generalizing s with
  | nil => rfl
  | cons c cs ih => exact State.SameHome.trans (t := s.modCore c f) rfl (ih _)

theorem physRun_units (s : State) (cs : SMap CoreSt) (ps : SMap Part) (fuel pa n : Nat) :
    ({ s with cores := cs, parts := ps } : State).physRun fuel pa n = s.physRun fuel pa n := by
  induction fuel generalizing pa n with
  | zero => rfl
  | succ fuel ih =>
    rw [State.physRun, State.physRun]
    simp only [ih]
    rfl

section
variable {s t : State} (h : s.SameHome t)
include h

theorem phys_of_sameHome (pa n : Nat) : t.phys pa n = s.phys pa n := by
  rw [h]
  exact physRun_units ..

theorem physNat_of_sameHome (pa n : Nat) : t.physNat pa n = s.physNat pa n := by
  rw [State.physNat, phys_of_sameHome h, State.physNat]

theorem runWaits_of_sameHome (pa n : Nat) : t.runWaits pa n = s.runWaits pa n := by
  rw [h]
  rfl

variable {p : Nat} (htb : (t.part p).tb = (s.part p).tb)
include htb

theorem descOf_of_sameHome (asid : Nat) : t.descOf p asid = s.descOf p asid := by
  have hread : t.descRead p asid = s.descRead p asid := by
    rw [State.descRead, State.descAddr, htb, phys_of_sameHome h, State.descRead, State.descAddr]
  rw [State.descOf, hread, State.descOf]

theorem slotBase_of_sameHome (l : Launch) : t.slotBase p l = s.slotBase p l := by
  rw [State.slotBase, descOf_of_sameHome h htb, State.slotBase]

theorem poolBad_of_sameHome (asid : Nat) : t.poolBad p asid = s.poolBad p asid := by
  rw [State.poolBad, descOf_of_sameHome h htb, phys_of_sameHome h, State.poolBad]

end

-- ### A command begins (R371)

/-- R371: a partition in which a pre-emption command is in progress, with the context and the place that it named. -/
def Part.commanded (q : Part) (lid op cctx cplace : Nat) : Part :=
  { q with pb := { q.pb with slid := lid, sop := op, busy := true, cctx := cctx, cplace := cplace } }

def State.commanded (s : State) (p lid op cctx cplace : Nat) : State := s.setPart p ((s.part p).commanded lid op cctx cplace)

section
variable (s : State) (p lid op cctx cplace : Nat)
@[simp] theorem State.part_commanded : (s.commanded p lid op cctx cplace).part p = (s.part p).commanded lid op cctx cplace := State.part_setPart ..
@[simp] theorem State.launch?_commanded (n : Nat) : (s.commanded p lid op cctx cplace).launch? p n = s.launch? p n :=
  launch?_congr n (by rw [State.part_commanded]; rfl)
@[simp] theorem State.inCmd_commanded : (s.commanded p lid op cctx cplace).inCmd p lid op = true := by
  simp [State.inCmd, Part.commanded]
theorem State.sameHome_commanded : s.SameHome (s.commanded p lid op cctx cplace) := rfl
@[simp] theorem State.runners_commanded (n : Nat) : (s.commanded p lid op cctx cplace).runners p n = s.runners p n := by
  rw [State.runners, State.part_commanded]
  rfl
end

section
variable {s : State} {p lid op : Nat} (hb : (s.part p).pb.busy = false) (h0 : op ≠ 0) (h5 : op ≤ 5)
include hb h0 h5

theorem preCommand_launch {l : Launch} (hl : s.launch? p lid = some l) :
    preCommand p lid op s = stepPre p (s.commanded p lid op (s.ctxIndex p l.asid + 1) l.place) := by
  have hs : startCmd p lid op s = (true, s.commanded p lid op (s.ctxIndex p l.asid + 1) l.place) := by
    unfold startCmd
    simp only [hb, h0, hl, Nat.not_lt.2 h5]
    rfl
  unfold preCommand
  rw [hs]
  rfl

theorem preCommand_none (hl : s.launch? p lid = none) : preCommand p lid op s = stepPre p (s.commanded p lid op 0 (s.part p).pb.place) := by
  have hs : startCmd p lid op s = (true, s.commanded p lid op 0 (s.part p).pb.place) := by
    unfold startCmd
    simp only [hb, h0, hl, Nat.not_lt.2 h5]
    rfl
  unfold preCommand
  rw [hs]
  rfl

end

-- ### What a command in progress does (R372 to R375)

section
variable {s : State} {p lid cctx cplace : Nat}

theorem stepPre_none {op : Nat} (hl : s.launch? p lid = none) :
    stepPre p (s.commanded p lid op cctx cplace) = endCmd p 1 (s.commanded p lid op cctx cplace) := by
  unfold stepPre
  simp [Part.commanded, hl]

variable {l : Launch} (hl : s.launch? p lid = some l)
include hl

theorem stepPre_suspend (hm : (s.part p).mg.st ≠ .freezing) (hst : l.st = .running) :
    stepPre p (s.commanded p lid 1 cctx cplace) = drainEnd p lid (startDrain p lid (s.commanded p lid 1 cctx cplace)) := by
  unfold stepPre
  simp [Part.commanded, hl, hst, hm, lid_of_launch? hl]

theorem stepPre_resume {s1 : State} {res : Nat} (hst : l.st ≠ .ending) (hr : resumeLaunch p lid (s.commanded p lid 2 cctx cplace) = (.ends res, s1)) :
    stepPre p (s.commanded p lid 2 cctx cplace) = endCmd p res s1 := by
  unfold stepPre
  simp [Part.commanded, hl, hst, lid_of_launch? hl, hr]

theorem stepPre_halt (hst : l.st = .running) :
    stepPre p (s.commanded p lid 3 cctx cplace) = endCmd p 0 (haltReeves p lid true (modLaunch p lid (fun l => { l with st := .halted })
      (withdrawAll p lid (s.commanded p lid 3 cctx cplace)))) := by
  unfold stepPre
  simp [Part.commanded, hl, hst, lid_of_launch? hl]

theorem stepPre_run (hst : l.st = .halted) :
    stepPre p (s.commanded p lid 4 cctx cplace) = endCmd p 0 (haltReeves p lid false (modLaunch p lid (fun l => { l with st := .running })
      (s.commanded p lid 4 cctx cplace))) := by
  unfold stepPre
  simp [Part.commanded, hl, hst, lid_of_launch? hl]

theorem stepPre_kill (hst : l.st ≠ .ending) :
    stepPre p (s.commanded p lid 5 cctx cplace) = finishLaunch p lid 3 Cause.preempt.code (s.commanded p lid 5 cctx cplace) := by
  unfold stepPre
  simp [Part.commanded, hl, hst, lid_of_launch? hl]

end

-- ### Suspension (R45, R372, R373)

theorem busy_of_inCmd {s : State} {p lid op : Nat} (h : s.inCmd p lid op = true) : (s.part p).pb.busy = true := by
  simp only [State.inCmd, Bool.and_eq_true] at h
  exact h.1.1

theorem inCmd_congr {s t : State} {p : Nat} (lid op : Nat) (h : (t.part p).pb = (s.part p).pb) : t.inCmd p lid op = s.inCmd p lid op := by
  rw [State.inCmd, h, State.inCmd]

/-- R371: at a command's end the launches are as they were, and its result stands. -/
theorem endCmd_launch {s : State} {p lid : Nat} {l : Launch} (res : Nat) (hb : (s.part p).pb.busy = true) (hl : s.launch? p lid = some l) :
    (endCmd p res s).launch? p lid = some l ∧ ((endCmd p res s).part p).pb.busy = false ∧ ((endCmd p res s).part p).pb.res = res := by
  obtain ⟨⟨j, hj⟩, -⟩ := endCmd_busy res hb
  refine ⟨(launch?_congr lid (launches_endCmd ..)).trans hl, ?_, ?_⟩ <;> rw [hj]

/-- R372: a launch with no point left is suspended, and its SUSPEND is over. -/
theorem drainEnd_suspends {s : State} {p lid : Nat} {l : Launch} (hl : s.launch? p lid = some l) (hst : l.st = .draining) (hr : s.runners p lid = [])
    (hw : s.runWaits (s.slotBase p l) 0x20000 = none) (hc : s.inCmd p lid 1 = true) :
    (∃ l', (drainEnd p lid s).launch? p lid = some l' ∧ l'.st = .suspended) ∧ ((drainEnd p lid s).part p).pb.busy = false ∧
      ((drainEnd p lid s).part p).pb.res = 0 := by
  let t := s.physPut (s.slotBase p l) (l.slotBytes s)
  have hend : drainEnd p lid s = endCmd p 0 (modLaunch p lid (fun l => { l with st := .suspended }) t) := by
    unfold drainEnd
    rw [hl]
    simp [hst, hr, hw, hc, t]
  have ht : t.part p = s.part p := (sameUnits_physPut ..).part p
  have hlt : t.launch? p lid = some l := (launch?_congr lid (by rw [ht])).trans hl
  have hb : ((modLaunch p lid (fun l => { l with st := .suspended }) t).part p).pb.busy = true := by
    rw [part_modLaunch, ht]
    exact busy_of_inCmd hc
  obtain ⟨hl', hbusy, hres⟩ := endCmd_launch 0 hb (launch?_modLaunch (fun _ => rfl) hlt)
  rw [hend]
  exact ⟨⟨_, hl', rfl⟩, hbusy, hres⟩

theorem drainEnd_runs {s : State} {p lid : Nat} {l : Launch} (hl : s.launch? p lid = some l) (hr : s.runners p lid ≠ []) : drainEnd p lid s = s := by
  unfold drainEnd
  rw [hl]
  simp [hr]

/-- R372: a launch none of whose points runs drains at once. -/
theorem pcmdSuspend_atRest {s : State} {p lid : Nat} {l : Launch} (hl : s.launch? p lid = some l) (hb : (s.part p).pb.busy = false)
    (hm : (s.part p).mg.st ≠ .freezing) (hst : l.st = .running) (hr : ∀ c ∈ (s.part p).crofts, runsLaunch s p lid c = false)
    (hw : s.runWaits (s.slotBase p l) 0x20000 = none) : ∃ u l', exec (.pcmdSuspend p lid) s = .next u ∧ u.launch? p lid = some l' ∧
      l'.st = .suspended ∧ (u.part p).pb.busy = false ∧ (u.part p).pb.res = 0 := by
  let a := s.commanded p lid 1 (s.ctxIndex p l.asid + 1) l.place
  have ha : ∀ c ∈ (a.part p).crofts, runsLaunch a p lid c = false := fun c hc => hr c (by rwa [State.part_commanded] at hc)
  let t := modLaunch p lid (fun l => { l with st := .draining }) (withdraw p lid a)
  have hstart : startDrain p lid a = t := by rw [startDrain, withdrawAll_none ha]
  have hwpart : (withdraw p lid a).part p = a.part p := part_of_parts (parts_withdraw ..) p
  have hpart : t.part p = { (s.part p).commanded lid 1 (s.ctxIndex p l.asid + 1) l.place with
      launches := (s.part p).launches.map (fun l => if l.lid = lid then { l with st := .draining } else l) } := by
    rw [part_modLaunch, hwpart, State.part_commanded]
    rfl
  have hlt : t.launch? p lid = some { l with st := .draining } :=
    launch?_modLaunch (fun _ => rfl) ((launch?_congr lid (by rw [hwpart])).trans ((s.launch?_commanded ..).trans hl))
  have hrun : t.runners p lid = [] := runners_none fun c hc => by
    rw [hpart] at hc
    exact (runsLaunch_withdraw a p p lid c).trans (hr c hc)
  have hhome : s.SameHome t := (s.sameHome_commanded ..).trans ((sameHome_foldl_modCore ..).trans (sameHome_modLaunch ..))
  have hwt : t.runWaits (t.slotBase p { l with st := .draining }) 0x20000 = none := by
    rw [slotBase_of_sameHome hhome (by rw [hpart]; rfl), runWaits_of_sameHome hhome]
    exact hw
  have hc : t.inCmd p lid 1 = true := (inCmd_congr lid 1 (by rw [hpart, State.part_commanded])).trans (s.inCmd_commanded p lid 1 _ _)
  obtain ⟨⟨l', hl', hst'⟩, hbusy, hres⟩ := drainEnd_suspends hlt rfl hrun hwt hc
  refine ⟨drainEnd p lid t, l', congrArg Host.Outcome.next ?_, hl', hst', hbusy, hres⟩
  rw [preCommand_launch hb (by decide) (by decide) hl, stepPre_suspend hl hm hst, hstart]

/-- R371: a command on a launch that is not active ends with NOLID. -/
theorem pcmdSuspend_none {s : State} {p lid : Nat} (hl : s.launch? p lid = none) (hb : (s.part p).pb.busy = false) :
    ∃ u, exec (.pcmdSuspend p lid) s = .next u ∧ (u.part p).pb.busy = false ∧ (u.part p).pb.res = 1 ∧ (u.part p).launches = (s.part p).launches := by
  have hu : preCommand p lid 1 s = endCmd p 1 (s.commanded p lid 1 0 (s.part p).pb.place) := by
    rw [preCommand_none hb (by decide) (by decide) hl, stepPre_none hl]
  refine ⟨_, congrArg Host.Outcome.next hu, ?_, ?_, ?_⟩
  · obtain ⟨⟨j, hj⟩, -⟩ := endCmd_busy 1 (busy_of_inCmd (s.inCmd_commanded p lid 1 0 (s.part p).pb.place))
    rw [hj]
  · obtain ⟨⟨j, hj⟩, -⟩ := endCmd_busy 1 (busy_of_inCmd (s.inCmd_commanded p lid 1 0 (s.part p).pb.place))
    rw [hj]
  · rw [launches_endCmd, State.part_commanded]
    rfl

/-- R362: nothing is cut while something that had started goes on. -/
theorem tryHardCut_notReady {s : State} {c : Nat} (h : (s.core c).cutReady = false) : tryHardCut c s = s := by
  unfold tryHardCut
  simp [h]

/-- R373: at the drain timeout a point with something started is marked for its cut. -/
theorem drainTimeout_marks {s : State} {p lid c : Nat} {l : Launch} (hl : s.launch? p lid = some l) (hst : l.st = .draining)
    (hfr : s.ctxFrozen l.asid = false) (hr : s.runners p lid = [c]) (hre : rcRestart l.rec_ = false) (hcut : (s.core c).cutReady = false) :
    ∃ u l', exec (.drainTimeout p lid) s = .next u ∧ (u.core c).q.trap = some drainTrap ∧ u.launch? p lid = some l' ∧ l'.st = .draining ∧
      u.mem = s.mem := by
  let t := s.modCore c (fun k => { k with q := { k.q with trap := some drainTrap } })
  have hcore : t.core c = { s.core c with q := { (s.core c).q with trap := some drainTrap } } := State.core_modCore ..
  have htry : tryHardCut c t = t := tryHardCut_notReady (by rw [hcore]; exact hcut)
  have hmem : c ∈ t.runners p lid := by
    have hc : c ∈ s.runners p lid := by rw [hr]; exact List.mem_singleton.2 rfl
    obtain ⟨hin, hruns⟩ := List.mem_filter.1 hc
    refine List.mem_filter.2 ⟨hin, ?_⟩
    rw [runsLaunch_congr (s := s) p lid (by rw [hcore]) (by rw [hcore]), hcore]
    exact hruns
  have hexp : drainExpire p lid s = t := by
    unfold drainExpire
    rw [hl]
    simp only [hst, hr, hre, List.foldl_cons, List.foldl_nil]
    exact (congrArg (drainEnd p lid) htry).trans (drainEnd_runs (show t.launch? p lid = some l from hl) (List.ne_nil_of_mem hmem))
  refine ⟨t, l, congrArg Host.Outcome.next ?_, by rw [hcore], hl, hst, rfl⟩
  rw [hl]
  simp only [hfr]
  exact hexp

-- ### RESUME (R374)

section
variable {s : State} {p : Nat} {l : Launch} {bs : List Byte} {tl : TreeLine} (hbad : s.poolBad p l.asid = false)
  (hbs : s.phys (s.slotBase p l) 0x11040 = .ok bs) (htl : restoreTreeline l ((bs.drop 0x1000).take 65600) = some tl)
  (hn : natBits (s.physNat (s.slotBase p l + 0x118) 8) 0 9 = 0)
include hbad hbs htl hn

/-- R374, R377: a slot that lists no area gives the launch its treeline, credit and age. -/
theorem readSlotOf_noArea : ∃ credit age, readSlotOf p l s =
    some (modLaunch p l.lid (fun l => { l with tl := tl, credit := credit, age := age, restore := some [] }) s) := by
  -- unfolded at the constant alone: compared with its body as an application, the kernel would run the read of the slot
  conv in readSlotOf p l s => fun; fun; fun; delta readSlotOf
  extract_lets +onlyGivenNames base
  rw [show s.phys base 0x11040 = .ok bs from hbs]
  simp only [hbad, htl, Bool.false_eq_true, if_false]
  rw [show natBits (s.physNat (base + 0x118) 8) 0 9 = 0 from hn]
  exact ⟨_, _, rfl⟩

/-- R374: with no cut point to restore, the launch goes on as it was. -/
theorem resumeLaunch_noArea (hl : s.launch? p l.lid = some l) (hst : l.st = .suspended) (hres : l.restore = none)
    (hw : s.runWaits (s.slotBase p l) 0x20000 = none) : ∃ s1 l', resumeLaunch p l.lid s = (.ends 0, s1) ∧ s1.launch? p l.lid = some l' ∧ l'.tl = tl ∧
      l'.st = (if l.dhalt then .halted else .running) ∧ l'.dhalt = false ∧ (s1.part p).pb = (s.part p).pb := by
  obtain ⟨credit, age, hread⟩ := readSlotOf_noArea hbad hbs htl hn
  have hl1 := launch?_modLaunch (f := fun l => { l with tl := tl, credit := credit, age := age, restore := some [] }) (fun _ => rfl) hl
  have hl2 := launch?_modLaunch (f := fun l => { l with restore := none, st := if l.dhalt then .halted else .running, dhalt := false }) (fun _ => rfl) hl1
  refine ⟨_, _, ?_, hl2, rfl, rfl, rfl, ?_⟩
  · unfold resumeLaunch
    simp [hl, hst, hres, hw, hread, hl1, restoreAll]
  · rw [part_modLaunch, part_modLaunch]

end

theorem pcmdResume_noArea {s : State} {p lid : Nat} {l : Launch} {bs : List Byte} {tl : TreeLine} (hl : s.launch? p lid = some l)
    (hb : (s.part p).pb.busy = false) (hst : l.st = .suspended) (hres : l.restore = none) (hw : s.runWaits (s.slotBase p l) 0x20000 = none)
    (hbad : s.poolBad p l.asid = false) (hbs : s.phys (s.slotBase p l) 0x11040 = .ok bs)
    (htl : restoreTreeline l ((bs.drop 0x1000).take 65600) = some tl) (hn : natBits (s.physNat (s.slotBase p l + 0x118) 8) 0 9 = 0) :
    ∃ u l', exec (.pcmdResume p lid) s = .next u ∧ u.launch? p lid = some l' ∧ l'.tl = tl ∧
      l'.st = (if l.dhalt then .halted else .running) ∧ l'.dhalt = false ∧ (u.part p).pb.busy = false ∧ (u.part p).pb.res = 0 := by
  obtain rfl := lid_of_launch? hl
  let a := s.commanded p l.lid 2 (s.ctxIndex p l.asid + 1) l.place
  have hhome : s.SameHome a := s.sameHome_commanded ..
  have htb : (a.part p).tb = (s.part p).tb := by rw [State.part_commanded]; rfl
  have hbase : a.slotBase p l = s.slotBase p l := slotBase_of_sameHome hhome htb l
  obtain ⟨s1, l', hr, hl', htl', hst', hdh, hpb⟩ := resumeLaunch_noArea (s := a) (p := p) (l := l) (bs := bs) (tl := tl)
    ((poolBad_of_sameHome hhome htb _).trans hbad) (by rw [hbase, phys_of_sameHome hhome]; exact hbs) htl
    (by rw [hbase, physNat_of_sameHome hhome]; exact hn) ((s.launch?_commanded ..).trans hl) hst hres
    (by rw [hbase, runWaits_of_sameHome hhome]; exact hw)
  have hu : preCommand p l.lid 2 s = endCmd p 0 s1 := by
    rw [preCommand_launch hb (by decide) (by decide) hl, stepPre_resume hl (by simp [hst]) hr]
  obtain ⟨hle, hbusy, hz⟩ := endCmd_launch 0 (by rw [hpb]; exact busy_of_inCmd (s.inCmd_commanded ..)) hl'
  exact ⟨_, l', congrArg Host.Outcome.next hu, hle, htl', hst', hdh, hbusy, hz⟩

-- ### Halting a launch and letting it go on (R375)

theorem killPoint_inactive {s : State} {c : Nat} (h : (s.core c).slot.active = false) : killPoint c s =
    s.modCore c (fun k => { k with slot := { k.slot with running := k.slot.staged, staged := none } }) := by
  unfold killPoint
  rw [h]
  rfl

/-- R44: what the withdrawal of points does to croft after croft: nothing, or a change of a croft whose point is not active. -/
theorem core_withdrawAll {s : State} {p lid c : Nat} (h : (s.core c).slot.active = true) :
    ((withdrawAll p lid s).core c) = (withdraw p lid s).core c := by
  have hw : ((withdraw p lid s).core c).slot.active = true := (core_withdraw p lid s c).2.1.trans h
  have hfold (cs : List Nat) (a : State) (ha : (a.core c).slot.active = true) :
      (cs.foldl (fun a d => if runsLaunch a p lid d && !(a.core d).slot.active then killPoint d a else a) a).core c = a.core c := by
    induction cs generalizing a with
    | nil => rfl
    | cons d cs ih =>
      have hstep : (if runsLaunch a p lid d && !(a.core d).slot.active then killPoint d a else a).core c = a.core c := by
        split
        · rename_i hd
          simp only [Bool.and_eq_true, Bool.not_eq_true'] at hd
          have hne : c ≠ d := by rintro rfl; rw [hd.2] at ha; cases ha
          rw [killPoint_inactive hd.2]
          exact State.core_modCore_ne _ _ _ _ hne
        · rfl
      rw [List.foldl_cons, ih _ (by rw [hstep]; exact ha), hstep]
  exact hfold _ _ hw

theorem parts_withdrawAll (p lid : Nat) (s : State) : (withdrawAll p lid s).parts = s.parts := by
  have hfold (cs : List Nat) (a : State) :
      (cs.foldl (fun a d => if runsLaunch a p lid d && !(a.core d).slot.active then killPoint d a else a) a).parts = a.parts := by
    induction cs generalizing a with
    | nil => rfl
    | cons d cs ih =>
      rw [List.foldl_cons, ih]
      split
      · rename_i hd
        simp only [Bool.and_eq_true, Bool.not_eq_true'] at hd
        rw [killPoint_inactive hd.2, State.parts_modCore]
      · rfl
  exact (hfold _ _).trans (parts_withdraw ..)

/-- Crofts on which active points of the launch run stay such through the withdrawal of the others. -/
theorem mem_runners_withdrawAll {s : State} {p lid c : Nat} (h : c ∈ s.runners p lid) : c ∈ (withdrawAll p lid s).runners p lid := by
  obtain ⟨hin, hruns⟩ := List.mem_filter.1 h
  simp only [Bool.and_eq_true] at hruns
  have hcore := core_withdrawAll (p := p) (lid := lid) hruns.2
  obtain ⟨hrun, hact, hctx⟩ := core_withdraw p lid s c
  refine List.mem_filter.2 ⟨by rwa [part_of_parts (parts_withdrawAll ..)], ?_⟩
  rw [hcore, hact, runsLaunch_congr (s := s) p lid (by rw [hcore, hrun]) (by rw [hcore, hctx]), hruns.1, hruns.2]
  rfl

theorem parts_haltReeves (p lid : Nat) (b : Bool) (s : State) : (haltReeves p lid b s).parts = s.parts := parts_foldl_modCore ..

theorem halted_haltReeves {s : State} {p lid c : Nat} (b : Bool) (h : c ∈ s.runners p lid) : ((haltReeves p lid b s).core c).ctl.halted = b := by
  rw [haltReeves, core_foldl_modCore (f := fun k => { k with ctl := { k.ctl with halted := b } }) (fun _ => rfl), if_pos h]

/-- R375: a command that stops or releases a launch's reeves, once its points have been withdrawn: `w` is the module then, `f` the launch's new state. -/
theorem endCmd_haltReeves {s w : State} {p lid : Nat} {l : Launch} {f : Launch → Launch} (b : Bool) (hf : ∀ l, (f l).lid = l.lid)
    (hbusy : (w.part p).pb.busy = true) (hl : w.launch? p lid = some l) (hr : ∀ c ∈ s.runners p lid, c ∈ w.runners p lid) :
    let u := endCmd p 0 (haltReeves p lid b (modLaunch p lid f w))
    u.launch? p lid = some (f l) ∧ (∀ c ∈ s.runners p lid, (u.core c).ctl.halted = b) ∧ (u.part p).pb.busy = false ∧ (u.part p).pb.res = 0 := by
  have hpart : (haltReeves p lid b (modLaunch p lid f w)).part p = (modLaunch p lid f w).part p := part_of_parts (parts_haltReeves ..) p
  have hb' : ((haltReeves p lid b (modLaunch p lid f w)).part p).pb.busy = true := by rw [hpart, part_modLaunch]; exact hbusy
  have hl' : (haltReeves p lid b (modLaunch p lid f w)).launch? p lid = some (f l) :=
    (launch?_congr lid (by rw [hpart])).trans (launch?_modLaunch hf hl)
  obtain ⟨hlu, hbu, hru⟩ := endCmd_launch 0 hb' hl'
  refine ⟨hlu, fun c hc => ?_, hbu, hru⟩
  rw [(endCmd_busy 0 hb').2 c (lt_of_mem_crofts (List.mem_filter.1 hc).1)]
  refine halted_haltReeves b ?_
  have hrun : (modLaunch p lid f w).runners p lid = w.runners p lid := by
    rw [State.runners, part_modLaunch]
    rfl
  rw [hrun]
  exact hr c hc

section
variable {s : State} {p lid : Nat} {l : Launch} (hl : s.launch? p lid = some l) (hb : (s.part p).pb.busy = false)
include hl hb

theorem pcmdDhalt_halts (hst : l.st = .running) : ∃ u l', exec (.pcmdDhalt p lid) s = .next u ∧ u.launch? p lid = some l' ∧ l'.st = .halted ∧
    (∀ c ∈ s.runners p lid, (u.core c).ctl.halted = true) ∧ (u.part p).pb.busy = false ∧ (u.part p).pb.res = 0 := by
  let a := s.commanded p lid 3 (s.ctxIndex p l.asid + 1) l.place
  have hw : (withdrawAll p lid a).part p = a.part p := part_of_parts (parts_withdrawAll ..) p
  obtain ⟨hlu, hh, hbu, hru⟩ := endCmd_haltReeves (s := s) (w := withdrawAll p lid a) (f := fun l => { l with st := .halted }) true (fun _ => rfl)
    (by rw [hw]; exact busy_of_inCmd (s.inCmd_commanded ..)) ((launch?_congr lid (by rw [hw])).trans ((s.launch?_commanded ..).trans hl))
    (fun c hc => mem_runners_withdrawAll (by rwa [State.runners_commanded]))
  refine ⟨_, _, congrArg Host.Outcome.next ?_, hlu, rfl, hh, hbu, hru⟩
  rw [preCommand_launch hb (by decide) (by decide) hl, stepPre_halt hl hst]

theorem pcmdDrun_runs (hst : l.st = .halted) : ∃ u l', exec (.pcmdDrun p lid) s = .next u ∧ u.launch? p lid = some l' ∧ l'.st = .running ∧
    (∀ c ∈ s.runners p lid, (u.core c).ctl.halted = false) ∧ (u.part p).pb.busy = false ∧ (u.part p).pb.res = 0 := by
  obtain ⟨hlu, hh, hbu, hru⟩ := endCmd_haltReeves (s := s) (w := s.commanded p lid 4 (s.ctxIndex p l.asid + 1) l.place)
    (f := fun l => { l with st := .running }) false (fun _ => rfl) (busy_of_inCmd (s.inCmd_commanded ..)) ((s.launch?_commanded ..).trans hl)
    (fun c hc => by rwa [State.runners_commanded])
  refine ⟨_, _, congrArg Host.Outcome.next ?_, hlu, rfl, hh, hbu, hru⟩
  rw [preCommand_launch hb (by decide) (by decide) hl, stepPre_run hl hst]

/-- R375: a killed launch ends with FAULT and the cause of a pre-emption. -/
theorem pcmdKill_finishes (hst : l.st ≠ .ending) : exec (.pcmdKill p lid) s = .next (finishLaunch p lid 3 (Spec.causeCode .preempt)
    (s.commanded p lid 5 (s.ctxIndex p l.asid + 1) l.place)) := by
  refine congrArg Host.Outcome.next ?_
  rw [preCommand_launch hb (by decide) (by decide) hl, stepPre_kill hl hst]
  rfl

end

-- ### Role commands and parked crofts (R376, R380)

theorem roleCommand_croft {s : State} {p c : Nat} (roles : BitVec 5) (b : Bool) (hc : c < 256) (hh : (s.part p).hset.getLsbD (c / 16) = true)
    (he : s.eager = false) : ∃ u, exec (.roleCommand p c roles b) s = .next u ∧ (u.part p).pb.dcroft = c ∧
      (u.core c).slot.roles = (if b then (s.core c).slot.roles ||| roles else (s.core c).slot.roles &&& ~~~roles) ∧ u.mem = s.mem := by
  have hnb : isBailiff c = false := by simp [isBailiff, hc]
  let a := s.modPart p (fun q => { q with pb := { q.pb with dcroft := c } })
  have hrole : roleCmd p c roles b s = a.modCore c (fun k =>
      if b then { k with slot := { k.slot with roles := k.slot.roles ||| roles } } else { k with slot := { k.slot with roles := k.slot.roles &&& ~~~roles } }) := by
    unfold roleCmd
    simp [hamletOf, hnb, hh, a]
  have hset : settle c (roleCmd p c roles b s) = roleCmd p c roles b s := by
    rw [hrole, settle, if_neg]
    simp [a, State.modPart, he]
  refine ⟨_, congrArg Host.Outcome.next (hset.trans hrole), ?_, ?_, rfl⟩
  · rw [State.part_modCore, State.part_modPart]
  · rw [State.core_modCore]
    cases b <;> rfl

theorem parkRegate_parked {s : State} {c : Nat} (h : (s.core c).slot.parked = true) :
    exec (.parkRegate c) s = .next (s.setCore c { s.core c with slot := { (s.core c).slot with gated := true } }) := by
  refine congrArg Host.Outcome.next ?_
  rw [regate, State.modCore, if_pos h]

-- ### The obligation

/-- Settles O58, clause by clause from the rules above. -/
theorem haywardEvents : Obligations.HaywardEvents := by
  unfold Obligations.HaywardEvents
  intro s p
  refine ⟨?notTurn, ?turn, ?deferred, ?fire, ?outOfTurn, ?start, ?retire, ?commands, ?noLaunch, ?role, ?park⟩
  case notTurn =>
    rintro asid i s1 hp rfl h ht
    exact ringSlotRead_notTurn hp ht h
  case turn =>
    intro asid i code bs s1 hp hi hturn b pa x he hd hm hw hb hj hparts
    exact ringSlotRead_judged hp hi hturn he hd hm hw hb hj hparts
  case deferred =>
    intro d rest hd hl hm hc
    exact deferredAccept_ring hd hl hm hc
  case fire =>
    intro l pt c staged hl hf hp hcls hcr
    exact pointFire_only hl hf hp hcls hcr
  case outOfTurn =>
    intro l pt c staged hl hf hp hcls hage
    exact outOfTurnService_only hl hf hp hcls hage
  case start =>
    intro c pt l hpart hrun hact hl hst hw d hd hu hctx hh hc
    exact pointStart_starts hpart hrun hact hl hst hw hd hu hctx hh hc
  case retire =>
    intro c pt l s1 hc hpart hrun hdr hrel hl hid hst he tl s2 s3
    refine ⟨retirePoint c s, rfl, fun hfloor hr s4 hw hp => ?_, fun hfloor => ?_⟩
    · exact retirePoint_last hpart hrun hdr hrel hl hid he hfloor hr hw hp
    · exact retirePoint_notLast hc hpart hrun hdr hrel hl hid hst hfloor
  case commands =>
    intro lid l hl
    refine ⟨fun hst hr hw hc => ?_, fun c hst hfr hr hre _ hcut => drainTimeout_marks hl hst hfr hr hre hcut, fun hb hm => ?_⟩
    · obtain ⟨⟨l', hl', hst'⟩, hbusy, hres⟩ := drainEnd_suspends hl hst hr hw hc
      exact ⟨drainEnd p lid s, l', rfl, hl', hst', hbusy, hres⟩
    · exact ⟨fun hst hr hw => pcmdSuspend_atRest hl hb hm hst hr hw,
        fun hst hres hw hbad bs tl hbs htl hn => pcmdResume_noArea hl hb hst hres hw hbad hbs htl hn,
        fun hst => pcmdDhalt_halts hl hb hst, fun hst => pcmdDrun_runs hl hb hst, fun hst => pcmdKill_finishes hl hb hst⟩
  case noLaunch =>
    intro lid hl hb
    exact pcmdSuspend_none hl hb
  case role =>
    intro c roles b hc hh he
    exact roleCommand_croft roles b hc hh he
  case park =>
    intro c h
    exact parkRegate_parked h

end Sys2Proof.Machine

/-! PROOFS. The accesses of a core to its windows (R57 to R65, R187): when the check of an address stops, what a window's bytes read as, and what a write
of them changes; and from these rules `Obligations.AccessTraps`. -/

namespace Sys2Proof.Machine

-- ### Operations on the module, step by step

section
variable {α β : Type}

theorem run_pure (a : α) (s : State) : (pure a : M α) s = (.ok a, s) := rfl
theorem run_trap (c : Cause) (p : Word) (s : State) : (trap c p : M α) s = (.error (.trap c p), s) := rfl
theorem run_get_bind (f : State → M β) (s : State) : (get >>= f) s = f s s := rfl
theorem run_getCore_bind (c : Nat) (f : CoreSt → M β) (s : State) : (getCore c >>= f) s = f (s.core c) s := rfl
theorem run_ite (p : Prop) [Decidable p] (m n : M α) (s : State) : (if p then m else n) s = if p then m s else n s := ite_apply p m n s

/-- An operation ends with the trap of its first part. -/
theorem bind_trap {m : M α} {f : α → M β} {s s' : State} {x : Stop} (h : m s = (.error x, s')) : (m >>= f) s = (.error x, s') := by
  change (ExceptT.bindCont f (m s).1) (m s).2 = _
  rw [h]
  rfl

end

-- ### Pointers (R56)

theorem ptrIndex_eq (p : Word) : ptrIndex p = (Spec.idx p).toNat := by
  simp only [ptrIndex, Spec.idx, BitVec.toNat_ushiftRight, BitVec.extractLsb'_toNat]
  rw [Nat.mod_eq_of_lt]
  have := p.isLt
  rw [Nat.shiftRight_eq_div_pow]
  omega

theorem ptrOffset_eq (p : Word) : ptrOffset p = Spec.ofs p := by
  have h : (0xFFFFFFFFFFFF : Word).toNat = 2 ^ 48 - 1 := by decide
  simp only [ptrOffset, Spec.ofs, BitVec.toNat_and, BitVec.extractLsb'_toNat, Nat.shiftRight_zero]
  rw [h, Nat.and_two_pow_sub_one_eq_mod]

theorem toNat_mkPtr {i : Nat} (o : Nat) (h : i < 2 ^ 16) : (mkPtr i o).toNat = i * 2 ^ 48 + o % 2 ^ 48 := by
  rw [mkPtr, BitVec.toNat_ofNat, Nat.mod_eq_of_lt]
  have := Nat.mod_lt o (show 0 < 2 ^ 48 by decide)
  omega

theorem ptrIndex_lt (p : Word) : ptrIndex p < 2 ^ 16 := by rw [ptrIndex_eq]; exact BitVec.isLt _

theorem idx_ptrAt (p : Word) (o : Nat) : Spec.idx (ptrAt p o) = Spec.idx p := by
  apply BitVec.eq_of_toNat_eq
  rw [← ptrIndex_eq, ← ptrIndex_eq, ptrIndex, BitVec.toNat_ushiftRight, ptrAt, toNat_mkPtr _ (ptrIndex_lt p), Nat.shiftRight_eq_div_pow]
  have := Nat.mod_lt o (show 0 < 2 ^ 48 by decide)
  omega

theorem ptrAt_eq (p : Word) (o : Nat) : ptrAt p o = Spec.at_ p o := by
  apply BitVec.eq_of_toNat_eq
  have h : (BitVec.ofInt 48 (o : Int)).toNat = o % 2 ^ 48 := by
    rw [BitVec.ofInt_natCast, BitVec.toNat_ofNat]
  rw [ptrAt, toNat_mkPtr _ (ptrIndex_lt p), Spec.at_, BitVec.toNat_append, ← Nat.shiftLeft_add_eq_or_of_lt (BitVec.isLt _), h, Nat.shiftLeft_eq, ptrIndex_eq]

/-- R187: the offset that a memory operand forms. -/
theorem memOp_off (m : MemOp) (x y : Word) : m.off x y = (Spec.ofs x : Int) + y.toInt * 2 ^ m.ks.toNat + m.disp.toInt := by
  rw [MemOp.off, MemOp.factor, ptrOffset_eq]
  push_cast
  rfl

-- ### The check of a span in a window (R62 to R65)

section
variable {c : Nat} {u : User} {a : Acc} {ptr : Word} {lo hi : Int} {s : State}

theorem checkSpan_croft (h : Spec.idx ptr = 0xFFF0) : checkSpan c u a ptr lo hi s =
    if 0 ≤ lo && hi < 2 ^ 21 && storeOk (s.core c) (isBailiff c) lo.toNat hi.toNat then (.ok .croft, s) else (.error (.trap .bounds ptr), s) := by
  have hp : ptrIndex ptr = 0xFFF0 := by rw [ptrIndex_eq, h]; rfl
  simp only [checkSpan, run_get_bind, hp, Nat.reduceLeDiff, Nat.reduceEqDiff, if_true, if_false, run_ite, run_pure, run_trap]

theorem checkSpan_hamlet (h : Spec.idx ptr = 0xFFF1) : checkSpan c u a ptr lo hi s =
    if ((descHg (s.core c).ctx.desc).1 : Int) ≤ lo && hi < (descHg (s.core c).ctx.desc).1 + (descHg (s.core c).ctx.desc).2 && hi < 2 ^ 23
      then (.ok .hamlet, s) else (.error (.trap .bounds ptr), s) := by
  have hp : ptrIndex ptr = 0xFFF1 := by rw [ptrIndex_eq, h]; rfl
  simp only [checkSpan, run_get_bind, hp, Nat.reduceLeDiff, Nat.reduceEqDiff, if_true, if_false, run_ite, run_pure, run_trap]

theorem checkSpan_commons (h : Spec.idx ptr = 0xFFF2) : checkSpan c u a ptr lo hi s =
    if ((descCg (s.core c).ctx.desc).1 : Int) ≤ lo && hi < (descCg (s.core c).ctx.desc).1 + (descCg (s.core c).ctx.desc).2 && hi < 2 ^ 28
      then (.ok .commons, s) else (.error (.trap .bounds ptr), s) := by
  have hp : ptrIndex ptr = 0xFFF2 := by rw [ptrIndex_eq, h]; rfl
  simp only [checkSpan, run_get_bind, hp, Nat.reduceLeDiff, Nat.reduceEqDiff, if_true, if_false, run_ite, run_pure, run_trap]

theorem checkSpan_lane (h : Spec.idx ptr = 0xFFF3) : checkSpan c u a ptr lo hi s =
    if u == .vec && a != .at then (if 0 ≤ lo && hi < 2048 then (.ok .lane, s) else (.error (.trap .bounds ptr), s))
    else (.error (.trap .rights ptr), s) := by
  have hp : ptrIndex ptr = 0xFFF3 := by rw [ptrIndex_eq, h]; rfl
  simp only [checkSpan, run_get_bind, hp, Nat.reduceLeDiff, Nat.reduceEqDiff, if_true, if_false, run_ite, run_pure, run_trap]

theorem checkSpan_port (h : Spec.idx ptr = 0xFFF8) : checkSpan c u a ptr lo hi s =
    if u == .scalar && s.privileged c then (.ok .port, s) else (.error (.trap .rights ptr), s) := by
  have hp : ptrIndex ptr = 0xFFF8 := by rw [ptrIndex_eq, h]; rfl
  simp only [checkSpan, run_get_bind, hp, Nat.reduceLeDiff, Nat.reduceEqDiff, if_true, if_false, run_ite, run_pure, run_trap]

/-- R61: the indices that name nothing. -/
theorem checkSpan_reserved (h : 0xFF00 ≤ (Spec.idx ptr).toNat) (h0 : Spec.idx ptr ≠ 0xFFF0) (h1 : Spec.idx ptr ≠ 0xFFF1) (h2 : Spec.idx ptr ≠ 0xFFF2)
    (h3 : Spec.idx ptr ≠ 0xFFF3) (h8 : Spec.idx ptr ≠ 0xFFF8) : checkSpan c u a ptr lo hi s = (.error (.trap .rights ptr), s) := by
  have ne : ∀ n < 2 ^ 16, Spec.idx ptr ≠ BitVec.ofNat 16 n → ¬(Spec.idx ptr).toNat = n := by
    rintro n hn hne rfl
    exact hne (BitVec.eq_of_toNat_eq (by rw [BitVec.toNat_ofNat, Nat.mod_eq_of_lt hn]))
  rw [checkSpan, run_get_bind]
  simp only [ptrIndex_eq]
  rw [if_neg (by omega), if_neg (ne _ (by decide) h0), if_neg (ne _ (by decide) h1), if_neg (ne _ (by decide) h2), if_neg (ne _ (by decide) h3),
    if_neg (ne _ (by decide) h8), run_trap]

end

-- ### The address of a scalar access (R187)

section
variable {c n off : Nat} {a : Acc} {m : MemOp} {x y : Word} {s s' : State} (h : m.off x y = off) (h48 : off < 2 ^ 48)
include h h48

theorem scalarAddr_formed : scalarAddr c a m x y n s = (do
    let l ← checkSpan c .scalar a (ptrAt x off) off (off + n - 1 : Nat)
    if l = .port ∧ a = .at then trap .rights (ptrAt x off)
    else if n > 1 ∧ off % n ≠ 0 then trap .align (ptrAt x off)
    else pure ⟨l, ptrAt x off, off⟩ : M Addr) s := by
  have hr : (decide ((off : Int) < 0) || decide ((2 : Int) ^ 48 ≤ (off : Int))) = false := by
    simp only [Bool.or_eq_false_iff, decide_eq_false_iff_not]
    omega
  rw [scalarAddr]
  simp only [h, hr, Bool.false_eq_true, if_false, Int.toNat_natCast]

theorem scalarAddr_stops {t : Cause} (hs : checkSpan c .scalar a (ptrAt x off) off (off + n - 1 : Nat) s = (.error (.trap t (ptrAt x off)), s')) :
    scalarAddr c a m x y n s = (.error (.trap t (Spec.at_ x off)), s') := by
  rw [scalarAddr_formed h h48, bind_trap hs, ptrAt_eq]

theorem scalarAddr_misaligned {l : Loc} (hs : checkSpan c .scalar a (ptrAt x off) off (off + n - 1 : Nat) s = (.ok l, s')) (hl : l ≠ .port)
    (hn : 1 < n) (ha : off % n ≠ 0) : scalarAddr c a m x y n s = (.error (.trap .align (Spec.at_ x off)), s') := by
  rw [scalarAddr_formed h h48, bind_ok hs, if_neg (fun e => hl e.1), if_pos ⟨hn, ha⟩, ptrAt_eq]
  rfl

theorem scalarAddr_ok {l : Loc} (hs : checkSpan c .scalar a (ptrAt x off) off (off + n - 1 : Nat) s = (.ok l, s')) (hl : l ≠ .port)
    (ha : off % n = 0) : scalarAddr c a m x y n s = (.ok ⟨l, ptrAt x off, off⟩, s') := by
  rw [scalarAddr_formed h h48, bind_ok hs, if_neg (fun e => hl e.1), if_neg (fun e => e.2 ha)]
  rfl

end

-- ### The obligation

/-- R63: while a stack is bound, bytes of the croft store are reached up to the core's bound. -/
theorem storeOk_bound {k : CoreSt} (b : Bool) {lo hi : Nat} (h : k.res.stack.isSome = true) :
    storeOk k b lo hi = decide (hi < if b then 0x170000 else 1024 * k.slot.csneed) := by
  have hn : k.res.stack.isNone = false := by rw [← Option.not_isSome, h]; rfl
  simp [storeOk, hn]

theorem isBailiff_eq (c : Nat) : isBailiff c = decide (256 ≤ c) := rfl

/-- Settles O33: each window's check decides by the last byte of the access. -/
theorem accessTraps : Obligations.AccessTraps := by
  unfold Obligations.AccessTraps
  refine ⟨?croft, ?windows⟩
  case croft =>
    intro c m x y n off a s hn hidx hst hoff h48
    have hn1 : 1 ≤ n := by fin_cases hn <;> decide
    have hm : m.off x y = off := (memOp_off m x y).trans hoff
    have hspan := checkSpan_croft (c := c) (u := .scalar) (a := a) (lo := off) (hi := (off + n - 1 : Nat)) (s := s) ((idx_ptrAt x off).trans hidx)
    simp only [storeOk_bound _ hst, isBailiff_eq, decide_eq_true_eq, Int.toNat_natCast] at hspan
    refine ⟨fun hout => ?_, fun hin hcs hal => ?_⟩
    · rw [if_neg (by simp only [Bool.and_eq_true, decide_eq_true_eq, not_and]; omega)] at hspan
      exact scalarAddr_stops hm h48 hspan
    · have hk : (if 256 ≤ c then 0x170000 else 1024 * (s.core c).slot.csneed) ≤ 0x170000 := by split <;> omega
      rw [if_pos (by simp only [Bool.and_eq_true, decide_eq_true_eq]; omega)] at hspan
      have h1 : 1 < n := by
        rcases Nat.lt_or_eq_of_le hn1 with h | h
        · exact h
        · rw [← h, Nat.mod_one] at hal
          exact absurd rfl hal
      exact scalarAddr_misaligned hm h48 hspan (by decide) h1 hal
  case windows =>
    intro c m x y n off a s hn hoff h48
    dsimp only
    have hn1 : 1 ≤ n := by fin_cases hn <;> decide
    have hm : m.off x y = off := (memOp_off m x y).trans hoff
    have hp : Spec.idx (ptrAt x off) = Spec.idx x := idx_ptrAt x off
    refine ⟨fun hi hout => ?_, fun hi hout => ?_, fun hge h0 h1 h2 h8 => ?_, fun hi hu => ?_⟩
    · refine scalarAddr_stops hm h48 ((checkSpan_hamlet (hp.trans hi)).trans (if_neg ?_))
      simp only [Bool.and_eq_true, decide_eq_true_eq, not_and]
      omega
    · refine scalarAddr_stops hm h48 ((checkSpan_commons (hp.trans hi)).trans (if_neg ?_))
      simp only [Bool.and_eq_true, decide_eq_true_eq, not_and]
      omega
    · refine scalarAddr_stops hm h48 ?_
      by_cases h3 : Spec.idx x = 0xFFF3
      · exact (checkSpan_lane (hp.trans h3)).trans (if_neg (by simp))
      · rw [← hp] at hge h0 h1 h2 h3 h8
        exact checkSpan_reserved hge h0 h1 h2 h3 h8
    · exact scalarAddr_stops hm h48 ((checkSpan_port (hp.trans hi)).trans (if_neg (by simp [hu])))

end Sys2Proof.Machine

/-! PROOFS. The bytes of a core's local memories (R25, R26, R62 to R65): what a window reads as, and what a write of it changes. -/

namespace Sys2Proof.Machine

-- ### Numbers and their bytes (R8)

theorem length_natBytes (n v : Nat) : (natBytes n v).length = n := by
  induction n generalizing v with
  | zero => rfl
  | succ n ih => rw [natBytes, List.length_cons, ih]

theorem leNat_natBytes (n v : Nat) : leNat (natBytes n v) = v % 256 ^ n := by
  induction n generalizing v with
  | zero => rw [natBytes, leNat, pow_zero, Nat.mod_one]
  | succ n ih =>
    have h : v % 256 ^ (n + 1) = v % 256 + 256 * (v / 256 % 256 ^ n) := by rw [pow_succ', Nat.mod_mul]
    rw [natBytes, leNat, ih, BitVec.toNat_ofNat, h]

theorem pow_two_bits (n : Nat) : 2 ^ (8 * n) = 256 ^ n := by rw [pow_mul]; rfl

theorem natBytes_mod (n v : Nat) : natBytes n v = natBytes n (v % 256 ^ n) := by
  induction n generalizing v with
  | zero => rfl
  | succ n ih =>
    have h1 : v % 256 ^ (n + 1) = v % 256 + 256 * (v / 256 % 256 ^ n) := by rw [pow_succ', Nat.mod_mul]
    rw [natBytes, natBytes, ih, h1]
    congr 1
    · apply BitVec.eq_of_toNat_eq
      rw [BitVec.toNat_ofNat, BitVec.toNat_ofNat]
      omega
    · congr 1
      omega

theorem leNat_append (a b : List Byte) : leNat (a ++ b) = leNat a + 256 ^ a.length * leNat b := by
  induction a with
  | nil => simp [leNat]
  | cons x a ih =>
    rw [List.cons_append, leNat, ih, leNat, List.length_cons, pow_succ']
    ring

theorem leAt_lt (f : Nat → Byte) (p n : Nat) : Spec.leAt f p n < 256 ^ n := by
  induction n with
  | zero => simp [Spec.leAt]
  | succ n ih =>
    have hb : (f (p + n)).toNat < 256 := BitVec.isLt _
    rw [Spec.leAt, pow_succ]
    nlinarith

theorem leAt_congr {f g : Nat → Byte} {p q n : Nat} (h : ∀ i < n, f (p + i) = g (q + i)) : Spec.leAt f p n = Spec.leAt g q n := by
  induction n with
  | zero => rfl
  | succ n ih => rw [Spec.leAt, Spec.leAt, ih (fun i hi => h i (by omega)), h n (by omega)]

/-- The bytes read in order are the number that stands there. -/
theorem leNat_map_upTo (f : Nat → Byte) (p n : Nat) : leNat ((upTo n).map (fun i => f (p + i))) = Spec.leAt f p n := by
  induction n with
  | zero => rfl
  | succ n ih =>
    have hs : upTo (n + 1) = upTo n ++ [n] := List.range_succ
    have hn : (upTo n).length = n := List.length_range
    rw [hs, List.map_append, leNat_append, ih, Spec.leAt, List.length_map, hn]
    simp [leNat, Nat.mul_comm]

theorem leAt_natBytes {f : Nat → Byte} {p n x : Nat} (h : ∀ i < n, f (p + i) = (natBytes n x).getD i 0) : Spec.leAt f p n = x % 256 ^ n := by
  have hb : (upTo n).map (fun i => (natBytes n x).getD (0 + i) 0) = natBytes n x := by
    refine List.ext_getElem (by rw [List.length_map, upTo, List.length_range, length_natBytes]) fun i _ hi => ?_
    have hu : ∀ h, (upTo n)[i]'h = i := fun _ => List.getElem_range _
    rw [List.getElem_map, hu, Nat.zero_add, List.getD_eq_getElem _ _ hi]
  rw [leAt_congr (g := fun i => (natBytes n x).getD i 0) (q := 0) (fun i hi => by rw [Nat.zero_add]; exact h i hi), ← leNat_map_upTo, hb, leNat_natBytes]

/-- A longer run is a shorter one and what follows it. -/
theorem leAt_add (f : Nat → Byte) (p m n : Nat) : Spec.leAt f p (m + n) = Spec.leAt f p m + 256 ^ m * Spec.leAt f (p + m) n := by
  induction n with
  | zero => simp [Spec.leAt]
  | succ n ih =>
    rw [← Nat.add_assoc, Spec.leAt, ih, Spec.leAt, pow_add, Nat.add_assoc p]
    ring

/-- The bytes that stand somewhere are those of the number that stands there. -/
theorem getD_natBytes_leAt (f : Nat → Byte) (p n j : Nat) (hj : j < n) : (natBytes n (Spec.leAt f p n)).getD j 0 = f (p + j) := by
  induction n generalizing p j with
  | zero => omega
  | succ n ih =>
    have h1 : Spec.leAt f p 1 = (f p).toNat := by simp [Spec.leAt]
    have hp : (f p).toNat < 256 := BitVec.isLt _
    have hv : Spec.leAt f p (n + 1) = (f p).toNat + 256 * Spec.leAt f (p + 1) n := by rw [Nat.add_comm n 1, leAt_add, h1, pow_one]
    rw [natBytes, hv]
    cases j with
    | zero =>
      rw [List.getD_cons_zero]
      apply BitVec.eq_of_toNat_eq
      rw [BitVec.toNat_ofNat]
      change _ = (f p).toNat
      omega
    | succ j =>
      rw [List.getD_cons_succ, show ((f p).toNat + 256 * Spec.leAt f (p + 1) n) / 256 = Spec.leAt f (p + 1) n by omega, ih _ j (by omega)]
      congr 1
      omega

theorem winNat_lt (s : State) (l : Loc) (off n : Nat) : Spec.winNat s l off n < 256 ^ n := leAt_lt ..

-- ### Reads of a window

/-- The windows that scalar words reach: CROFT, HAMLET and COMMONS. -/
def Loc.near (l : Loc) : Prop := l = .croft ∨ l = .hamlet ∨ l = .commons

theorem near_of_inWindow {s : State} {l : Loc} {off n : Nat} (hl : l ≠ .lane) (h : Spec.inWindow s l off n) : l.near := by
  cases l with
  | croft => exact .inl rfl
  | hamlet => exact .inr (.inl rfl)
  | commons => exact .inr (.inr rfl)
  | lane => exact absurd rfl hl
  | glob b => exact absurd h id
  | port => exact absurd h id

theorem place_add (s : State) (l : Loc) (lane off i : Nat) : Spec.place s l lane (off + i) = Spec.place s l lane off + i := by
  cases l <;> simp only [Spec.place, Nat.add_assoc]

theorem hamletOf_eq (c : Nat) : hamletOf c = if 256 ≤ c then 2 * (c - 256) else c / 16 := by simp [hamletOf, isBailiff]

theorem localByte_eq {s : State} {l : Loc} (hl : l.near) (lane off : Nat) :
    s.localByte s.active l off = Spec.spaceByte s l (Spec.place s l lane off) := by
  rcases hl with rfl | rfl | rfl
  · rfl
  · rw [State.localByte, Spec.spaceByte, Spec.place, hamletOf_eq]
  · rfl

/-- The bytes that a read of a window gives, as a number. -/
theorem leNat_localBytes {s : State} {l : Loc} (hl : l.near) (lane off n : Nat) :
    leNat ((upTo n).map (fun i => s.localByte s.active l (off + i))) = Spec.leAt (Spec.spaceByte s l) (Spec.place s l lane off) n := by
  rw [leNat_map_upTo (fun a => s.localByte s.active l a)]
  refine leAt_congr fun i _ => ?_
  rw [localByte_eq hl lane, place_add]

/-- R68: no word fails its check. -/
theorem checkWords_good {s : State} (h : s.lbad = []) (space : Nat) (ws : List Nat) : s.checkWords space ws = (none, s) := by
  induction ws with
  | nil => rfl
  | cons w ws ih => rw [State.checkWords, h, List.contains_nil, Bool.not_false, if_pos rfl, ih]

theorem localCheck_good {s : State} (h : s.lbad = []) (c : Nat) (l : Loc) (ptr : Word) (off n : Nat) : localCheck c l ptr off n s = (.ok (), s) := by
  rw [localCheck, run_get_bind, checkWords_good h]
  rfl

theorem readAt_near {s : State} {l : Loc} (hl : l.near) (h : s.lbad = []) (ptr : Word) (off n : Nat) :
    readAt s.active l ptr off n s = (.ok ((upTo n).map (fun i => s.localByte s.active l (off + i))), s) := by
  rcases hl with rfl | rfl | rfl <;> exact bind_ok (localCheck_good h ..)

/-- R62 to R65: a span in the part of a window that the core may reach passes its check. -/
theorem checkSpan_window {s : State} {l : Loc} {u : User} {a : Acc} {ptr : Word} {lo n : Nat} {hi : Int} (hidx : Spec.idx ptr = Spec.winIdx l)
    (hw : Spec.inWindow s l lo n) (hn : 0 < n) (hhi : hi < lo + n) (hu : l = .lane → u = .vec ∧ a ≠ .at) : checkSpan s.active u a ptr lo hi s = (.ok l, s) := by
  cases l with
  | croft =>
    obtain ⟨hk, hc⟩ := hw
    have hk' : (if 256 ≤ s.active then 0x170000 else 1024 * s.me.slot.csneed) ≤ 0x170000 := by split <;> omega
    rw [checkSpan_croft hidx, if_pos]
    simp only [Bool.and_eq_true, decide_eq_true_eq, storeOk, isBailiff_eq, Bool.or_eq_true, Int.toNat_natCast]
    refine ⟨⟨by omega, by omega⟩, .inl ?_⟩
    change hi.toNat < (if 256 ≤ s.active then 0x170000 else 1024 * s.me.slot.csneed)
    omega
  | hamlet =>
    obtain ⟨h1, h2, h3⟩ := hw
    rw [checkSpan_hamlet hidx, if_pos]
    simp only [Bool.and_eq_true, decide_eq_true_eq]
    unfold State.me at h1 h2
    omega
  | commons =>
    obtain ⟨h1, h2, h3⟩ := hw
    rw [checkSpan_commons hidx, if_pos]
    simp only [Bool.and_eq_true, decide_eq_true_eq]
    unfold State.me at h1 h2
    omega
  | lane =>
    obtain ⟨hv, ha⟩ := hu rfl
    change lo + n ≤ 2048 at hw
    rw [checkSpan_lane hidx, if_pos (by simp [hv, ha]), if_pos]
    simp only [Bool.and_eq_true, decide_eq_true_eq]
    omega
  | glob b => exact absurd hw id
  | port => exact absurd hw id

theorem lt_of_inWindow {s : State} {l : Loc} {off n : Nat} (h : Spec.inWindow s l off n) : off + n < 2 ^ 48 := by
  cases l with
  | croft =>
    obtain ⟨hk, hc⟩ := h
    have : (if 256 ≤ s.active then 0x170000 else 1024 * s.me.slot.csneed) ≤ 0x170000 := by split <;> omega
    omega
  | hamlet => exact lt_of_le_of_lt h.2.2 (by decide)
  | commons => exact lt_of_le_of_lt h.2.2 (by decide)
  | lane => exact lt_of_le_of_lt (show off + n ≤ 2048 from h) (by decide)
  | glob b => exact absurd h id
  | port => exact absurd h id

-- ### Changes of the local memories alone

/-- A state with the local memories of another, but for those of its cores. -/
def State.withMemories (s t : State) : State := { s with writes := t.writes, lbad := t.lbad, hmem := t.hmem, commons := t.commons }

theorem State.withMemories_setCore (s t : State) (c : Nat) (k : CoreSt) : (s.withMemories t).setCore c k = (s.setCore c k).withMemories t := rfl
theorem State.withMemories_withMemories (s t u : State) : (s.withMemories t).withMemories u = s.withMemories u := rfl

/-- From one state to another at most bytes of the local memories that the active core reaches have changed, and the record of racing writes; a
word that failed its check may no longer do so. -/
structure State.Edits (s t : State) : Prop where
  core : Spec.sameButStore s.me t.me
  rest : ∀ k, t.setCore s.active k = (s.withMemories t).setCore s.active k
  bad : ∀ y ∈ t.lbad, y ∈ s.lbad

theorem State.Edits.active {s t : State} (h : s.Edits t) : t.active = s.active := by
  have e := congrArg State.active (h.rest s.me)
  exact e
theorem State.Edits.author {s t : State} (h : s.Edits t) : t.author = s.author := by
  have e := congrArg State.author (h.rest s.me)
  exact e

theorem State.Edits.me_eq {s t : State} (h : s.Edits t) : t.me = { s.me with loc := t.me.loc } := by
  obtain ⟨hc, -, -⟩ := h
  rw [Spec.sameButStore] at hc
  rw [hc]

theorem State.Edits.refl (s : State) : s.Edits s := ⟨rfl, fun _ => rfl, fun _ h => h⟩

theorem sameButStore_trans {k g h : CoreSt} (h1 : Spec.sameButStore k g) (h2 : Spec.sameButStore g h) : Spec.sameButStore k h := by
  unfold Spec.sameButStore at *
  rw [h2, h1]

theorem State.Edits.trans {s t u : State} (h : s.Edits t) (g : t.Edits u) : s.Edits u := by
  refine ⟨sameButStore_trans h.core g.core, fun k => ?_, fun y hy => h.bad y (g.bad y hy)⟩
  have hg := g.rest k
  rw [h.active] at hg
  rw [hg, State.withMemories_setCore, h.rest k, State.withMemories_setCore, State.withMemories_withMemories, State.withMemories_setCore]

theorem edits_modCore {s : State} {f : CoreSt → CoreSt} (h : Spec.sameButStore s.me (f s.me)) : s.Edits (s.modCore s.active f) := by
  refine ⟨?_, fun _ => State.setCore_setCore .., fun _ h => h⟩
  change Spec.sameButStore s.me ((s.modCore s.active f).core s.active)
  rw [State.core_modCore]
  exact h

/-- What an edit leaves of a window's reach. -/
theorem State.Edits.inWindow {s t : State} (h : s.Edits t) {l : Loc} {off n : Nat} (hw : Spec.inWindow s l off n) : Spec.inWindow t l off n := by
  have hs : t.me.slot = s.me.slot := by rw [h.me_eq]
  have hx : t.me.ctx = s.me.ctx := by rw [h.me_eq]
  cases l <;> simp only [Spec.inWindow, h.active, hs, hx] at hw ⊢ <;> exact hw

theorem State.Edits.place {s t : State} (h : s.Edits t) (l : Loc) (lane off : Nat) : Spec.place t l lane off = Spec.place s l lane off := by
  cases l <;> simp only [Spec.place, h.active]

theorem State.Edits.lbad {s t : State} (h : s.Edits t) (hb : s.lbad = []) : t.lbad = [] :=
  List.eq_nil_iff_forall_not_mem.2 fun y hy => by have := h.bad y hy; rw [hb] at this; exact List.not_mem_nil this

-- ### A run of bytes written

/-- A run of bytes has been written from a place of one memory on, and nothing else. -/
structure State.WroteRun (s t : State) (l : Loc) (p : Nat) (bs : List Byte) : Prop where
  edits : s.Edits t
  byte : ∀ l' a, Spec.spaceByte t l' a = if l' = l ∧ p ≤ a ∧ a < p + bs.length then bs.getD (a - p) 0 else Spec.spaceByte s l' a

theorem CoreSt.storeByte_congr {k g : CoreSt} (h : g.loc = k.loc) (c off : Nat) : g.storeByte c off = k.storeByte c off := by
  unfold CoreSt.storeByte
  rw [h]

theorem CoreSt.storeByte_setStoreByte (k : CoreSt) (c off a : Nat) (b : Byte) :
    (k.setStoreByte off b).storeByte c a = if a = off then b else k.storeByte c a := by
  unfold CoreSt.storeByte CoreSt.setStoreByte
  by_cases ha : a = off
  · subst ha
    by_cases hh : isHot a = true <;> simp [hh]
  · by_cases hh : isHot off = true <;> by_cases hg : isHot a = true <;> simp [hh, hg, ha, SMap.get_set_ne]

theorem sameButStore_setStoreByte (k : CoreSt) (off : Nat) (b : Byte) : Spec.sameButStore k (k.setStoreByte off b) := by
  unfold Spec.sameButStore CoreSt.setStoreByte
  split <;> rfl

/-- Bytes of local memories read alike in states whose memories are the same. -/
theorem spaceByte_congr {s t : State} (ha : t.active = s.active) (hm : t.me.loc = s.me.loc) (hh : t.hmem = s.hmem) (hc : t.commons = s.commons) (l : Loc)
    (a : Nat) : Spec.spaceByte t l a = Spec.spaceByte s l a := by
  cases l with
  | croft =>
    change (t.core t.active).storeByte t.active a = (s.core s.active).storeByte s.active a
    rw [ha]
    exact CoreSt.storeByte_congr (by rw [← ha]; exact hm.trans (by rw [State.me, ha])) ..
  | hamlet => rw [Spec.spaceByte, Spec.spaceByte, hh]
  | commons => rw [Spec.spaceByte, Spec.spaceByte, hc]
  | lane => rw [Spec.spaceByte, Spec.spaceByte, hm]
  | glob b => rfl
  | port => rfl

theorem State.WroteRun.one {s t : State} {l : Loc} {p : Nat} {b : Byte} (h : s.Edits t)
    (hb : ∀ l' a, Spec.spaceByte t l' a = if l' = l ∧ a = p then b else Spec.spaceByte s l' a) : s.WroteRun t l p [b] := by
  refine ⟨h, fun l' a => ?_⟩
  rw [hb, List.length_singleton]
  by_cases ha : a = p
  · subst ha
    simp
  · rw [if_neg (fun e => ha e.2), if_neg (by omega)]

theorem setLocalByte_run {s : State} {l : Loc} (hl : l.near) (lane off : Nat) (b : Byte) :
    s.WroteRun (s.setLocalByte s.active l off b) l (Spec.place s l lane off) [b] := by
  rcases hl with rfl | rfl | rfl
  · have he : s.Edits (s.modCore s.active fun k => k.setStoreByte off b) := edits_modCore (sameButStore_setStoreByte ..)
    refine .one he fun l' a => ?_
    cases l' with
    | croft =>
      change ((s.modCore s.active fun k => k.setStoreByte off b).core s.active).storeByte s.active a = _
      rw [State.core_modCore, CoreSt.storeByte_setStoreByte]
      simp [Spec.place, Spec.spaceByte, Spec.storeByte, State.localByte]
    | lane =>
      have hlane : ((s.modCore s.active fun k => k.setStoreByte off b).core s.active).loc.lane = s.me.loc.lane := by
        rw [State.core_modCore, CoreSt.setStoreByte]
        split <;> rfl
      rw [if_neg (fun e => Loc.noConfusion e.1)]
      exact congrArg (fun m => SMap.get 0 m a) hlane
    | _ =>
      rw [if_neg (fun e => Loc.noConfusion e.1)]
      rfl
  · refine .one ⟨rfl, fun _ => rfl, fun _ h => h⟩ fun l' a => ?_
    cases l' with
    | hamlet =>
      change SMap.get 0 (SMap.set 0 s.hmem _ b) a = _
      rw [SMap.get_set, hamletOf_eq]
      simp [Spec.place, Spec.spaceByte]
    | _ =>
      rw [if_neg (fun e => Loc.noConfusion e.1)]
      rfl
  · refine .one ⟨rfl, fun _ => rfl, fun _ h => h⟩ fun l' a => ?_
    cases l' with
    | commons =>
      change SMap.get 0 (SMap.set 0 s.commons _ b) a = _
      rw [SMap.get_set]
      simp [Spec.place, Spec.spaceByte]
    | _ =>
      rw [if_neg (fun e => Loc.noConfusion e.1)]
      rfl

theorem State.WroteRun.nil {s : State} (l : Loc) (p : Nat) : s.WroteRun s l p [] :=
  ⟨.refl s, fun l' a => by rw [if_neg (fun e => absurd e.2 (by simp))]⟩

theorem State.WroteRun.cons {s t u : State} {l : Loc} {p : Nat} {b : Byte} {bs : List Byte} (h : s.WroteRun t l p [b]) (g : t.WroteRun u l (p + 1) bs) :
    s.WroteRun u l p (b :: bs) := by
  refine ⟨h.edits.trans g.edits, fun l' a => ?_⟩
  rw [g.byte, h.byte]
  simp only [List.length_cons, List.length_nil]
  by_cases hl : l' = l
  · simp only [hl, true_and]
    by_cases h0 : a = p
    · subst h0
      rw [if_neg (by omega), if_pos (by omega), if_pos (by omega), Nat.sub_self]
      rfl
    · by_cases h1 : p < a ∧ a < p + 1 + bs.length
      · rw [if_pos (by omega), if_pos (by omega), show a - p = (a - (p + 1)) + 1 by omega, List.getD_cons_succ]
      · rw [if_neg (by omega), if_neg (by omega), if_neg (by omega)]
  · rw [if_neg (fun e => hl e.1), if_neg (fun e => hl e.1), if_neg (fun e => hl e.1)]

theorem setLocalBytes_run {s : State} {l : Loc} (hl : l.near) (lane off : Nat) (bs : List Byte) :
    s.WroteRun (s.setLocalBytes s.active l off bs) l (Spec.place s l lane off) bs := by
  induction bs generalizing s off with
  | nil => exact .nil ..
  | cons b bs ih =>
    have h := setLocalByte_run (s := s) hl lane off b
    have g := ih (s := s.setLocalByte s.active l off b) (off + 1)
    rw [h.edits.active, h.edits.place, place_add] at g
    exact h.cons g

/-- What is noted of a write, and of words well again, changes no byte. -/
theorem State.WroteRun.noted {s t : State} {l : Loc} {p : Nat} {bs : List Byte} (h : s.WroteRun t l p bs) (ws : List RaceW) (bad : List (Nat × Nat))
    (hbad : ∀ y ∈ bad, y ∈ t.lbad) : s.WroteRun { t with writes := ws, lbad := bad } l p bs := by
  have ht : t.Edits { t with writes := ws, lbad := bad } := ⟨rfl, fun _ => rfl, hbad⟩
  exact ⟨h.edits.trans ht, fun l' a => (spaceByte_congr rfl rfl rfl rfl l' a).trans (h.byte l' a)⟩

/-- R26: a write through a window writes its bytes. -/
theorem localPut_run {s : State} {l : Loc} (hl : l.near) (lane off : Nat) (bs : List Byte) :
    s.WroteRun (s.localPut s.active l off bs) l (Spec.place s l lane off) bs := by
  have h := setLocalBytes_run (s := s) hl lane off bs
  have hw : ∃ bad, (∀ y ∈ bad, y ∈ (s.setLocalBytes s.active l off bs).lbad) ∧
      (s.setLocalBytes s.active l off bs).wordsWritten s.active l off bs.length = { s.setLocalBytes s.active l off bs with lbad := bad } := by
    unfold State.wordsWritten
    split
    · exact ⟨_, fun _ h => h, rfl⟩
    · exact ⟨_, fun _ h => (List.mem_filter.1 h).1, rfl⟩
  obtain ⟨bad, hbad, hw⟩ := hw
  have hn : ∀ (t : State) (a : Author) (at_ : Nat) (bits : List Byte) (x : RaceAt), ∃ ws, t.noteWrite a x at_ bs bits = { t with writes := ws } := by
    intro t a at_ bits x
    unfold State.noteWrite
    split
    · exact ⟨_, rfl⟩
    · exact ⟨_, rfl⟩
  obtain ⟨ws, hn⟩ := hn { s.setLocalBytes s.active l off bs with lbad := bad } (s.author.getD hayAgent) off (wholeBits bs) (.near (localSpace s.active l))
  rw [State.localPut, State.localWrite, hw, hn]
  exact h.noted ws bad hbad

theorem writeAt_near {s : State} {l : Loc} (hl : l.near) (ptr : Word) (off : Nat) (bs : List Byte) :
    writeAt s.active l ptr off bs s = (.ok (), s.localPut s.active l off bs) := by
  rcases hl with rfl | rfl | rfl <;> rfl

-- ### Elements written one after the other

/-- Elements of `n` bytes have been written at their places of one memory; no other byte of a local memory has changed. -/
structure State.WroteElems (s t : State) (l : Loc) (n : Nat) (at_ x : Nat → Nat) (is : List Nat) : Prop where
  edits : s.Edits t
  new : ∀ i ∈ is, Spec.leAt (Spec.spaceByte t l) (at_ i) n = x i % 256 ^ n
  old : ∀ l' a, (l' = l → ∀ i ∈ is, a < at_ i ∨ at_ i + n ≤ a) → Spec.spaceByte t l' a = Spec.spaceByte s l' a

section
variable {s t u : State} {l : Loc} {n : Nat} {at_ x : Nat → Nat} {i : Nat} {is : List Nat}

theorem State.WroteElems.nil : s.WroteElems s l n at_ x [] := ⟨.refl s, fun _ h => absurd h List.not_mem_nil, fun _ _ _ => rfl⟩

theorem State.WroteElems.cons (h : s.WroteRun t l (at_ i) (natBytes n (x i))) (hd : ∀ j ∈ is, at_ i + n ≤ at_ j ∨ at_ j + n ≤ at_ i)
    (g : t.WroteElems u l n at_ x is) : s.WroteElems u l n at_ x (i :: is) := by
  have hb := h.byte
  rw [length_natBytes] at hb
  refine ⟨h.edits.trans g.edits, fun j hj => ?_, fun l' a ha => ?_⟩
  · rcases List.mem_cons.1 hj with rfl | hj
    · refine leAt_natBytes fun b hlt => ?_
      rw [g.old l _ (fun _ j hj => by have := hd j hj; omega), hb, if_pos ⟨rfl, by omega, by omega⟩, Nat.add_sub_cancel_left]
    · exact g.new j hj
  · rw [g.old l' a (fun e j hj => ha e j (List.mem_cons_of_mem _ hj)), hb, if_neg]
    rintro ⟨hl, h1, h2⟩
    have := ha hl i (List.mem_cons_self ..)
    omega

end

end Sys2Proof.Machine

/-! PROOFS. A word that issues to a core at rest and completes in its step (R18 to R21, log entry 2): the module as its work finds it, and what is left
of the step when the work has changed no more than the core's local memories. -/

namespace Sys2Proof.Machine

-- ### The module as the work of a word finds it

/-- The entry of a word as its work finds it. -/
def Req.started (r : Req) (s : State) : Entry := (r.entryAt s).starting s.active (s.entered r)
/-- The module as the work of a word finds it. -/
def State.atWork (s : State) (r : Req) : State := (s.entered r).working s.active (r.entryAt s)

section
variable (r : Req) (s : State)

@[simp] theorem Req.started_xs : (r.started s).xs = r.srcs.map s.me.rd ++ (r.seed.map s.me.rd).toList := rfl

end

/-- A core with other local memories. -/
def CoreSt.putLoc (k : CoreSt) (l : Local) : CoreSt := { k with loc := l }

theorem CoreSt.putLoc_self (k : CoreSt) : k.putLoc k.loc = k := rfl
@[simp] theorem CoreSt.loc_putLoc (k : CoreSt) (l : Local) : (k.putLoc l).loc = l := rfl

theorem foldl_putLoc {α : Type} {f : CoreSt → α → CoreSt} (hf : ∀ k l x, f (CoreSt.putLoc k l) x = (f k x).putLoc l) (xs : List α) (k : CoreSt) (l : Local) :
    xs.foldl f (k.putLoc l) = (xs.foldl f k).putLoc l := by
  induction xs generalizing k with
  | nil => rfl
  | cons x xs ih => rw [List.foldl_cons, hf, ih, List.foldl_cons]

theorem CoreSt.enqueue_putLoc (k : CoreSt) (l : Local) (h : Hdr) (e : Entry) : (k.putLoc l).enqueue h e = (k.enqueue h e).putLoc l := by
  have hp : ∀ (k : CoreSt) l r, (k.putLoc l).setPend r = (k.setPend r).putLoc l := fun k l r => by unfold CoreSt.setPend; split <;> rfl
  unfold CoreSt.enqueue
  rw [show (k.putLoc l).next h = (k.next h).putLoc l from rfl, foldl_putLoc hp, foldl_putLoc (fun _ _ _ => rfl)]
  rfl

/-- What of a core the words that issue leave alone, until they complete. -/
structure CoreSt.Same (k g : CoreSt) : Prop where
  loc : g.loc = k.loc
  ctx : g.ctx = k.ctx
  slot : g.slot = k.slot
  eng : g.eng = k.eng
  ctl : g.ctl = k.ctl
  rd : ∀ r, g.rd r = k.rd r

theorem CoreSt.same_withQueue (k : CoreSt) (p hp : BitVec 64) (q : Queues) : k.Same (k.withQueue p hp q) := ⟨rfl, rfl, rfl, rfl, rfl, fun _ => rfl⟩
theorem CoreSt.same_next (k : CoreSt) (h : Hdr) : k.Same (k.next h) :=
  ⟨k.next_loc h, k.next_ctx h, k.next_slot h, k.next_eng h, k.next_ctl h, k.rd_next h⟩
theorem CoreSt.Same.trans {k g h : CoreSt} (a : k.Same g) (b : g.Same h) : k.Same h :=
  ⟨b.loc.trans a.loc, b.ctx.trans a.ctx, b.slot.trans a.slot, b.eng.trans a.eng, b.ctl.trans a.ctl, fun r => (b.rd r).trans (a.rd r)⟩

theorem State.Quiet.enqueue_same {s : State} {h : Hdr} (hq : s.Quiet h) (e : Entry) : s.me.Same (s.me.enqueue h e) := by
  rw [enqueue_eq s.me h e hq.noEntry hq.noSup hq.noPend hq.noHpend]
  exact (s.me.same_next h).trans (CoreSt.same_withQueue ..)

/-- A word that enters no queue of the copy engines is at work in the module that it has entered, as the author of what it does. -/
theorem State.atWork_eq {s : State} {r : Req} (h : r.qs.contains .cq = false) :
    ∃ a : Author, a.qs = r.qs ∧ s.atWork r = { s.setCore s.active (s.me.enqueue r.h (r.entryAt s)) with author := some a } := by
  have hin : (r.entryAt s).inQ .cq = false := h
  refine ⟨⟨s.active, r.qs, s.me.q.issued, (((r.entryAt s).starting s.active (s.entered r)).start.map Started.mxc).getD false⟩, rfl, ?_⟩
  have hturn : (s.entered r).turn s.active (r.entryAt s) = s.entered r := by
    rw [State.turn, hin]
    rfl
  have hu : (r.entryAt s).unstarted = true := rfl
  simp only [State.atWork, State.working, hu, if_true, hturn]
  rfl

section
variable {s : State} {r : Req} (hcq : r.qs.contains .cq = false)
include hcq

theorem State.active_atWork : (s.atWork r).active = s.active := by
  obtain ⟨a, -, h⟩ := s.atWork_eq hcq
  rw [h]
  rfl

theorem State.core_atWork : (s.atWork r).core s.active = s.me.enqueue r.h (r.entryAt s) := by
  obtain ⟨a, -, h⟩ := s.atWork_eq hcq
  rw [h]
  exact State.core_setCore ..

theorem State.me_atWork : (s.atWork r).me = s.me.enqueue r.h (r.entryAt s) := by
  rw [State.me, State.active_atWork hcq, State.core_atWork hcq]

theorem State.lbad_atWork : (s.atWork r).lbad = s.lbad := by
  obtain ⟨a, -, h⟩ := s.atWork_eq hcq
  rw [h]
  rfl

/-- R347: the forager and the reeve are served by the core's L1 TLB. -/
theorem State.ownTlb_atWork (hmq : r.qs.contains .mq = false) : (s.atWork r).ownTlb = true := by
  obtain ⟨a, ha, h⟩ := s.atWork_eq hcq
  rw [h]
  change (!a.qs.contains .mq && !a.qs.contains .cq) = true
  rw [ha, hmq, hcq]
  rfl

theorem State.spaceByte_atWork (hq : s.Quiet r.h) (l : Loc) (a : Nat) : Spec.spaceByte (s.atWork r) l a = Spec.spaceByte s l a := by
  have hme : (s.atWork r).me.loc = s.me.loc := by rw [State.me_atWork hcq, (hq.enqueue_same _).loc]
  obtain ⟨x, -, h⟩ := s.atWork_eq hcq
  exact spaceByte_congr (State.active_atWork hcq) hme (by rw [h]; rfl) (by rw [h]; rfl) l a

theorem State.place_atWork (l : Loc) (lane off : Nat) : Spec.place (s.atWork r) l lane off = Spec.place s l lane off := by
  cases l <;> simp only [Spec.place, State.active_atWork hcq]

theorem State.inWindow_atWork (hq : s.Quiet r.h) {l : Loc} {off n : Nat} (h : Spec.inWindow s l off n) : Spec.inWindow (s.atWork r) l off n := by
  have hs : (s.atWork r).me.slot = s.me.slot := by rw [State.me_atWork hcq, (hq.enqueue_same _).slot]
  have hx : (s.atWork r).me.ctx = s.me.ctx := by rw [State.me_atWork hcq, (hq.enqueue_same _).ctx]
  cases l <;> simp only [Spec.inWindow, State.active_atWork hcq, hs, hx] at h ⊢ <;> exact h

end

-- ### The step of a word whose work is done at once

theorem foldl_apply_loc (wrs : List Wr) (k : CoreSt) : (wrs.foldl Wr.apply k).loc = k.loc := by
  induction wrs generalizing k with
  | nil => rfl
  | cons w r ih => rw [List.foldl_cons, ih]; cases w <;> rfl

theorem CoreSt.loc_finished (k : CoreSt) (h : Hdr) (qs : List QId) (wrs : List Wr) (td : SReg) (w : Word) : (k.finished h qs wrs td w).loc = k.loc :=
  (CoreSt.wr_loc _ td w).trans ((foldl_apply_loc wrs (k.next h)).trans (k.next_loc h))

section
variable {perf : Perf} {r : Req} {s t : State} {wrs : List Wr} {w : Word} (hq : s.Quiet r.h) (he : s.eager = true) (hpl : r.place = none)
  (hpre : r.pre s.active (r.srcs.map s.me.rd) (r.hnds.map s.me.rdH) s = (.ok (), s))
  (hperf : perf s.active (r.started s) (s.atWork r) = (.ok (.done wrs w), t))
include hq he hpl hpre hperf

/-- The work has left the core with the local memories `l`, and made `u` of the rest of the module. -/
theorem issue_finishes (u : State) {l : Local} (hcore : t.core s.active = (s.me.enqueue r.h (r.entryAt s)).putLoc l)
    (hrest : ∀ k, ({ t with author := none } : State).setCore s.active k = u.setCore s.active k) (hoth : ∀ d, d ≠ s.active → u.core d = s.core d) :
    issue perf r s = .next (u.setCore s.active ((s.me.putLoc l).finished r.h r.qs wrs r.t.td w)) := by
  have hother : ∀ d, d ≠ s.active → t.core d = s.core d := by
    intro d hd
    have h : (({ t with author := none } : State).setCore s.active s.me).core d = (u.setCore s.active s.me).core d := by rw [hrest]
    rw [State.core_setCore_ne _ _ _ _ hd, State.core_setCore_ne _ _ _ _ hd, hoth d hd] at h
    exact h
  rw [issue_done perf r s t (s.me.putLoc l) wrs w hq hpl he hpre hperf (by rw [hcore, CoreSt.enqueue_putLoc]) hq.noEntry hq.noPend hq.noHpend hq.noTrap hq.noSup
    (fun d hd hne => by rw [hother d hne]; exact hq.copies d hd hne), hrest]

variable (hcq : r.qs.contains .cq = false)
include hcq

/-- The work has changed nothing. -/
theorem issue_reads (ht : t = s.atWork r) : issue perf r s = .next (s.setCore s.active (s.me.finished r.h r.qs wrs r.t.td w)) := by
  subst ht
  refine issue_finishes hq he hpl hpre hperf s (l := s.me.loc) ?_ (fun k => ?_) (fun _ _ => rfl)
  · rw [State.core_atWork hcq, ← CoreSt.enqueue_putLoc, CoreSt.putLoc_self]
  · obtain ⟨a, -, h⟩ := s.atWork_eq hcq
    rw [h]
    change ({ (s.setCore s.active _).setCore s.active k with author := none } : State) = _
    rw [State.setCore_setCore, ← hq.noAuthor]
    rfl

/-- The work has written local memories. -/
theorem issue_writes (ht : (s.atWork r).Edits t) : ∃ u, issue perf r s = .next u ∧ Spec.wroteLocal s u s.me (fun g => g.finished r.h r.qs wrs r.t.td w) ∧
    ∀ l a, Spec.spaceByte u l a = Spec.spaceByte t l a := by
  have hact := State.active_atWork (s := s) hcq
  have hme := State.me_atWork (s := s) hcq
  have hloc : (s.me.enqueue r.h (r.entryAt s)).loc = s.me.loc := (hq.enqueue_same _).loc
  have hta : t.active = s.active := ht.active.trans hact
  have hcore : t.core s.active = (s.me.enqueue r.h (r.entryAt s)).putLoc t.me.loc := by
    have h := ht.me_eq
    have htm : t.me = t.core s.active := by rw [State.me, hta]
    rw [hme] at h
    rw [← htm]
    exact h
  have hstore : Spec.sameButStore s.me (s.me.putLoc t.me.loc) := by
    have h := congrArg CoreSt.loc ht.core
    rw [hme] at h
    dsimp only at h
    rw [hloc] at h
    unfold Spec.sameButStore
    exact congrArg s.me.putLoc h
  have hrest : ∀ k, ({ t with author := none } : State).setCore s.active k = (s.withMemories t).setCore s.active k := by
    intro k
    obtain ⟨a, -, h⟩ := s.atWork_eq hcq
    have h1 := ht.rest k
    rw [hact] at h1
    change ({ t.setCore s.active k with author := none } : State) = _
    rw [h1, State.withMemories_setCore, h]
    change ({ (({ (s.setCore s.active _).setCore s.active k with author := some a } : State).withMemories t) with author := none } : State) = _
    rw [State.setCore_setCore, State.withMemories_setCore, ← hq.noAuthor]
    rfl
  have hi := issue_finishes hq he hpl hpre hperf (s.withMemories t) hcore hrest (fun _ _ => rfl)
  refine ⟨_, hi, ⟨⟨_, hstore, rfl⟩, fun y hy => ?_⟩, fun l a => ?_⟩
  · rw [← State.lbad_atWork hcq]
    exact ht.bad y hy
  · refine spaceByte_congr (t := (s.withMemories t).setCore s.active _) hta.symm ?_ rfl rfl l a
    change (((s.withMemories t).setCore s.active _).core s.active).loc = _
    rw [State.core_setCore, CoreSt.loc_finished, CoreSt.loc_putLoc]

end

-- ### The words of scalar memory (R186 to R194)

theorem perform_mem {c : Nat} {e : Entry} {s : State} (ha : e.adj = false) (hu : e.op.unit6 = .mem) : perform c e s = performMem e.op c e s := by
  rw [perform, run_getCore_bind]
  simp only [ha, hu, Bool.false_eq_true, if_false]

theorem issueR_taken {perf : Perf} {r : Req} {s : State} (h : s.me.taken r.h = true) : issueR perf r s = issue perf r s := by
  unfold State.me at h
  rw [issueR, if_pos h]

theorem viaPort_window {m : MemOp} {s : State} (h : Spec.idx (s.me.rd m.a) ≠ 0xFFF8) : viaPort m s = false := by
  have hp : ptrIndex ((s.core s.active).rd m.a) ≠ 0xFFF8 := by
    rw [ptrIndex_eq]
    exact fun e => h (BitVec.eq_of_toNat_eq e)
  rw [viaPort, beq_eq_false_iff_ne.2 hp, Bool.false_and]

end Sys2Proof.Machine

/-! PROOFS. Scalar loads, stores, atomics and prefetches at a core at rest: the entries that they leave, and what the entries of accesses through the
CROFT, HAMLET and COMMONS windows do (R186 to R194). -/

namespace Sys2Proof.Machine

-- ### The words and what their entries run

/-- What a load, a store and an atomic ask of the queues when they are no access through PORT. -/
def loadReq (i : Instr) (h : Hdr) (n : Nat) (d : SReg) (m : MemOp) : Req :=
  { op := i, h := h, t := .zero, qs := [.lq], srcs := [m.a, m.b], dst := regsOf n d, near := nearBase }
def storeReq (i : Instr) (h : Hdr) (n : Nat) (x : SReg) (m : MemOp) : Req :=
  { op := i, h := h, t := .zero, qs := [.sq], srcs := [m.a, m.b] ++ regsOf n x, near := nearBase, effect := true }
def amoReq (i : Instr) (h : Hdr) (n : Nat) (cas : Bool) (d : SReg) (m : MemOp) (x : SReg) : Req :=
  { op := i, h := h, t := .zero, qs := [.sq],
    srcs := [m.a, m.b, x, if n = 16 then pairHigh x else 0] ++ (if cas then [d, if n = 16 then pairHigh d else 0] else []), dst := regsOf n d,
    near := nearBase, effect := true }

/-- `i` is a load of `n` bytes: how it issues and what its entry runs. -/
structure IsLoad (i : Instr) (h : Hdr) (n : Nat) (sx : Bool) (d : SReg) (m : MemOp) : Prop where
  runs : ∀ s, exec i s = issueLd perform i h n d m s
  work : ∀ c (e : Entry) s, e.adj = false → e.op = i → perform c e s = runLd n sx d m c e s

structure IsStore (i : Instr) (h : Hdr) (n : Nat) (x : SReg) (m : MemOp) : Prop where
  runs : ∀ s, exec i s = issueSt perform i h n x m s
  work : ∀ c (e : Entry) s, e.adj = false → e.op = i → perform c e s = runSt n m c e s

structure IsAmo (i : Instr) (op : AmoOp) (h : Hdr) (n : Nat) (d : SReg) (m : MemOp) (x : SReg) (sc : BitVec 2) : Prop where
  runs : ∀ s, exec i s = issueAmo perform i h n (op == .cas) d m x s
  work : ∀ c (e : Entry) s, e.adj = false → e.op = i → perform c e s = runAmo op n d m sc c e s

theorem perform_word {i : Instr} {p : Perf} (hu : i.unit6 = .mem) (hp : performMem i = p) (c : Nat) (e : Entry) (s : State) (ha : e.adj = false)
    (he : e.op = i) : perform c e s = p c e s := by
  subst hp he
  exact perform_mem ha hu

theorem toInt_ofNat (w v : Nat) (hw : w ≠ 0) : (BitVec.ofNat w v).toInt = sextNat v w := by
  obtain ⟨w, rfl⟩ := Nat.exists_eq_succ_of_ne_zero hw
  have hp : 2 ^ (w + 1) = 2 * 2 ^ w := pow_succ' 2 w
  rw [BitVec.toInt_eq_toNat_cond, BitVec.toNat_ofNat, sextNat, Nat.succ_eq_add_one, Nat.add_sub_cancel]
  simp only [ne_eq, Nat.succ_ne_zero, not_false_eq_true, true_and]
  split <;> split <;> omega

/-- R193: the smaller and the greater of two numbers read with their signs. -/
theorem min_new {n : Nat} (hn : 8 * n ≠ 0) (old z : Nat) : some (if sextNat old (8 * n) ≤ sextNat (z % 2 ^ (8 * n)) (8 * n) then old else z % 2 ^ (8 * n)) =
    some (if (BitVec.ofNat (8 * n) (z % 256 ^ n)).toInt < (BitVec.ofNat (8 * n) old).toInt then z % 256 ^ n else old) := by
  rw [toInt_ofNat _ _ hn, toInt_ofNat _ _ hn, pow_two_bits]
  by_cases h : sextNat old (8 * n) ≤ sextNat (z % 256 ^ n) (8 * n)
  · rw [if_pos h, if_neg (not_lt.2 h)]
  · rw [if_neg h, if_pos (not_le.1 h)]

theorem max_new {n : Nat} (hn : 8 * n ≠ 0) (old z : Nat) (ho : old < 256 ^ n) :
    some (if sextNat old (8 * n) ≤ sextNat (z % 2 ^ (8 * n)) (8 * n) then z % 2 ^ (8 * n) else old) =
    some (if (BitVec.ofNat (8 * n) old).toInt < (BitVec.ofNat (8 * n) (z % 256 ^ n)).toInt then z % 256 ^ n else old) := by
  rw [toInt_ofNat _ _ hn, toInt_ofNat _ _ hn, pow_two_bits]
  rcases lt_trichotomy (sextNat old (8 * n)) (sextNat (z % 256 ^ n) (8 * n)) with h | h | h
  · rw [if_pos h.le, if_pos h]
  · have he : old = z % 256 ^ n := by
      have hb : BitVec.ofNat (8 * n) old = BitVec.ofNat (8 * n) (z % 256 ^ n) := by
        rw [← BitVec.toInt_inj, toInt_ofNat _ _ hn, toInt_ofNat _ _ hn, h]
      have ht := congrArg BitVec.toNat hb
      rw [BitVec.toNat_ofNat, BitVec.toNat_ofNat, pow_two_bits, Nat.mod_eq_of_lt ho, Nat.mod_mod] at ht
      exact ht
    rw [if_pos h.le, if_neg (by rw [h]; exact lt_irrefl _), ← he]
  · rw [if_neg (not_le.2 h), if_neg (not_lt.2 h.le)]

section
variable (h : Hdr) (d x : SReg) (m : MemOp) (sc : BitVec 2)

theorem isLoad_of_mem : ∀ op ∈ Spec.loads, op.2.1 ∈ [1, 2, 4, 8] ∧ IsLoad (op.1 h d m) h op.2.1 op.2.2 d m := by
  simp only [Spec.loads, List.forall_mem_cons, List.not_mem_nil, false_implies, implies_true, and_true]
  refine ⟨?_, ?_, ?_, ?_, ?_, ?_, ?_⟩ <;> exact ⟨by decide, fun _ => rfl, perform_word rfl rfl⟩

theorem isStore_of_mem : ∀ op ∈ Spec.stores, op.2 ∈ [1, 2, 4, 8] ∧ IsStore (op.1 h x m) h op.2 x m := by
  simp only [Spec.stores, List.forall_mem_cons, List.not_mem_nil, false_implies, implies_true, and_true]
  refine ⟨?_, ?_, ?_, ?_⟩ <;> exact ⟨by decide, fun _ => rfl, perform_word rfl rfl⟩

theorem isAmo_of_mem : ∀ op ∈ Spec.atomics, op.2.1 ∈ [4, 8] ∧ ∃ o : AmoOp, (o == .cas) = false ∧ IsAmo (op.1 h d m x sc) o h op.2.1 d m x sc ∧
    ∀ old z y, old < 256 ^ op.2.1 → o.new op.2.1 old z y = some (op.2.2 old (z % 256 ^ op.2.1)) := by
  simp only [Spec.atomics, List.forall_mem_cons, List.not_mem_nil, false_implies, implies_true, and_true]
  refine ⟨?_, ?_, ?_, ?_, ?_, ?_, ?_, ?_, ?_, ?_, ?_, ?_, ?_, ?_, ?_, ?_, ?_, ?_⟩
  iterate 2 exact ⟨by decide, .add, rfl, ⟨fun _ => rfl, perform_word rfl rfl⟩, fun _ _ _ _ => rfl⟩
  iterate 2 exact ⟨by decide, .and, rfl, ⟨fun _ => rfl, perform_word rfl rfl⟩, fun _ _ _ _ => rfl⟩
  iterate 2 exact ⟨by decide, .or, rfl, ⟨fun _ => rfl, perform_word rfl rfl⟩, fun _ _ _ _ => rfl⟩
  iterate 2 exact ⟨by decide, .xor, rfl, ⟨fun _ => rfl, perform_word rfl rfl⟩, fun _ _ _ _ => rfl⟩
  iterate 2 exact ⟨by decide, .min, rfl, ⟨fun _ => rfl, perform_word rfl rfl⟩, fun old z _ _ => min_new (by decide) old z⟩
  iterate 2 exact ⟨by decide, .max, rfl, ⟨fun _ => rfl, perform_word rfl rfl⟩, fun old z _ ho => max_new (by decide) old z ho⟩
  iterate 2 exact ⟨by decide, .minu, rfl, ⟨fun _ => rfl, perform_word rfl rfl⟩, fun _ _ _ _ => rfl⟩
  iterate 2 exact ⟨by decide, .maxu, rfl, ⟨fun _ => rfl, perform_word rfl rfl⟩, fun _ _ _ _ => rfl⟩
  iterate 2 exact ⟨by decide, .swap, rfl, ⟨fun _ => rfl, perform_word rfl rfl⟩, fun _ _ _ _ => rfl⟩

end

-- ### Addresses in the windows

section
variable {s : State} {l : Loc} {n off : Nat} {a : Acc} {m : MemOp} {x y : Word}

theorem scalarAddr_window (hl : l ≠ .lane) (hidx : Spec.idx x = Spec.winIdx l) (hoff : m.off x y = off) (hal : off % n = 0) (hn : 0 < n)
    (hw : Spec.inWindow s l off n) : scalarAddr s.active a m x y n s = (.ok ⟨l, ptrAt x off, off⟩, s) := by
  have hport : l ≠ .port := by rintro rfl; exact hw
  have hs := checkSpan_window (u := .scalar) (a := a) (hi := (off + n - 1 : Nat)) ((idx_ptrAt x off).trans hidx) hw hn (by omega) (fun e => absurd e hl)
  have := lt_of_inWindow hw
  exact scalarAddr_ok hoff (by omega) hs hport hal

theorem loadAt_near (hl : l.near) (hb : s.lbad = []) (p : Word) : loadAt s.active ⟨l, p, off⟩ n s = (.ok (Spec.winNat s l off n), s) := by
  have hr := readAt_near hl hb p off n
  rcases hl with rfl | rfl | rfl <;> (rw [Spec.winNat, ← leNat_localBytes (by simp [Loc.near])]; exact bind_ok hr)

theorem storeAt_near (hl : l.near) (p : Word) (v : Nat) : storeAt s.active ⟨l, p, off⟩ n v s = (.ok (), s.localPut s.active l off (natBytes n v)) := by
  have hw := writeAt_near (s := s) hl p off (natBytes n v)
  rcases hl with rfl | rfl | rfl <;> exact hw

end

-- ### The words through the windows

/-- A scalar access through a window names no PORT register. -/
theorem viaPort_near {s : State} {l : Loc} {m : MemOp} (hidx : Spec.idx (s.me.rd m.a) = Spec.winIdx l) : viaPort m s = false :=
  viaPort_window (by rw [hidx]; cases l <;> simp [Spec.winIdx])

section
variable {i : Instr} {h : Hdr} {n off : Nat} {sx cas : Bool} {d x : SReg} {m : MemOp} {sc : BitVec 2} {s t : State} {l : Loc} {o : AmoOp}

theorem IsLoad.issues (hi : IsLoad i h n sx d m) (hq : s.Quiet h) (hp : viaPort m s = false) : exec i s = issue perform (loadReq i h n d m) s := by
  rw [hi.runs, issueLd]
  simp only [hp, Bool.false_eq_true, if_false]
  exact issueR_taken hq.taken

theorem IsStore.issues (hi : IsStore i h n x m) (hq : s.Quiet h) (hp : viaPort m s = false) : exec i s = issue perform (storeReq i h n x m) s := by
  rw [hi.runs, issueSt]
  simp only [hp, Bool.false_eq_true, if_false]
  exact issueR_taken hq.taken

theorem IsAmo.issues (hi : IsAmo i o h n d m x sc) (hq : s.Quiet h) : exec i s = issue perform (amoReq i h n (o == .cas) d m x) s := by
  rw [hi.runs, issueAmo]
  exact issueR_taken hq.taken

/-- What the work of a word at a window finds: its address, in the module at work. -/
theorem scalarAddr_atWork {r : Req} {a : Acc} (hq : s.Quiet r.h) (hcq : r.qs.contains .cq = false) (hn : 0 < n) (hin : Spec.inStore s m l n off) :
    scalarAddr s.active a m (s.me.rd m.a) (s.me.rd m.b) n (s.atWork r) = (.ok ⟨l, ptrAt (s.me.rd m.a) off, off⟩, s.atWork r) := by
  obtain ⟨hl, hidx, hoff, hal, hw⟩ := hin
  have hf := scalarAddr_window (a := a) hl hidx ((memOp_off m _ _).trans hoff) hal hn (State.inWindow_atWork hcq hq hw)
  rwa [State.active_atWork hcq] at hf

theorem winNat_atWork {r : Req} (hq : s.Quiet r.h) (hcq : r.qs.contains .cq = false) : Spec.winNat (s.atWork r) l off n = Spec.winNat s l off n := by
  rw [Spec.winNat, Spec.winNat, State.place_atWork hcq]
  exact leAt_congr fun b _ => State.spaceByte_atWork hcq hq l _

theorem IsLoad.window (hi : IsLoad i h n sx d m) (hq : s.Quiet h) (he : s.eager = true) (hb : s.lbad = []) (hn : 0 < n) (hin : Spec.inStore s m l n off) :
    exec i s = .next (s.setCore s.active (s.me.finished h [.lq] (loadWrs n sx d (Spec.winNat s l off n)) 0 0)) := by
  obtain ⟨hl, hidx, hoff, hal, hw⟩ := id hin
  let r := loadReq i h n d m
  have hcq : r.qs.contains .cq = false := rfl
  rw [hi.issues hq (viaPort_near hidx)]
  refine issue_reads (r := r) hq he rfl rfl ?_ hcq rfl
  have hv := loadAt_near (s := s.atWork r) (n := n) (off := off) (near_of_inWindow hl hw) ((State.lbad_atWork hcq).trans hb) (ptrAt (s.me.rd m.a) off)
  rw [State.active_atWork hcq, winNat_atWork hq hcq] at hv
  rw [hi.work _ _ _ rfl rfl, runLd]
  exact (bind_ok (scalarAddr_atWork hq hcq hn hin)).trans (bind_ok hv)

/-- One run of bytes is one element. -/
theorem State.WroteRun.stored {u : State} {p x : Nat} (h : s.WroteRun t l p (natBytes n x)) (hu : ∀ l a, Spec.spaceByte u l a = Spec.spaceByte t l a)
    (hp : p = Spec.place u l 0 off) : Spec.winNat u l off n = x % 256 ^ n ∧
    ∀ l' a, (l' = l → a < p ∨ p + n ≤ a) → Spec.spaceByte u l' a = Spec.spaceByte s l' a := by
  have hb := h.byte
  rw [length_natBytes] at hb
  refine ⟨leAt_natBytes fun b hlt => ?_, fun l' a ha => ?_⟩
  · rw [hu, hb, ← hp, if_pos ⟨rfl, by omega, by omega⟩, Nat.add_sub_cancel_left]
  · rw [hu, hb, if_neg]
    rintro ⟨hl, h1, h2⟩
    have := ha hl
    omega

/-- A word whose work is one write through a window. -/
theorem issue_stores {perf : Perf} {r : Req} {wrs : List Wr} {w : Word} {v : Nat} (hq : s.Quiet r.h) (he : s.eager = true) (hpl : r.place = none)
    (hpre : r.pre s.active (r.srcs.map s.me.rd) (r.hnds.map s.me.rdH) s = (.ok (), s)) (hcq : r.qs.contains .cq = false)
    (hperf : perf s.active (r.started s) (s.atWork r) = (.ok (.done wrs w), t))
    (ht : (s.atWork r).WroteRun t l (Spec.place s l 0 off) (natBytes n v)) :
    ∃ u, issue perf r s = .next u ∧ Spec.stored s u l off n v s.me (fun g => g.finished r.h r.qs wrs r.t.td w) := by
  obtain ⟨u, hu, hw, hsp⟩ := issue_writes hq he hpl hpre hperf hcq ht.edits
  have hact : u.active = s.active := by
    obtain ⟨⟨_, _, h⟩, -⟩ := hw
    rw [h]
    rfl
  have hplace : Spec.place u l 0 off = Spec.place s l 0 off := by cases l <;> simp only [Spec.place, hact]
  obtain ⟨h1, h2⟩ := ht.stored (off := off) hsp hplace.symm
  exact ⟨u, hu, hw, h1, fun l' a ha => (h2 l' a ha).trans (State.spaceByte_atWork hcq hq l' a)⟩

theorem IsStore.window (hi : IsStore i h n x m) (hq : s.Quiet h) (he : s.eager = true) (hn : 0 < n) (hin : Spec.inStore s m l n off) :
    ∃ t, exec i s = .next t ∧
      Spec.stored s t l off n ((storeReq i h n x m).started s).storeData s.me (fun g => g.finished h [.sq] [] 0 0) := by
  obtain ⟨hl, hidx, hoff, hal, hw⟩ := id hin
  have hnear := near_of_inWindow hl hw
  let r := storeReq i h n x m
  have hcq : r.qs.contains .cq = false := rfl
  have hst := storeAt_near (s := s.atWork r) (n := n) (off := off) hnear (ptrAt (s.me.rd m.a) off) (r.started s).storeData
  have hrun := localPut_run (s := s.atWork r) hnear 0 off (natBytes n (r.started s).storeData)
  rw [State.place_atWork hcq] at hrun
  rw [State.active_atWork hcq] at hst hrun
  rw [hi.issues hq (viaPort_near hidx)]
  refine issue_stores (r := r) (wrs := []) (w := 0) hq he rfl rfl hcq ?_ hrun
  rw [hi.work _ _ _ rfl rfl, runSt]
  exact (bind_ok (scalarAddr_atWork hq hcq hn hin)).trans (bind_ok hst)

theorem State.WroteRun.same (s : State) (l : Loc) (p n : Nat) : s.WroteRun s l p (natBytes n (Spec.leAt (Spec.spaceByte s l) p n)) := by
  refine ⟨.refl s, fun l' a => ?_⟩
  rw [length_natBytes]
  split
  · rename_i h
    obtain ⟨rfl, h1, h2⟩ := h
    rw [getD_natBytes_leAt _ _ _ _ (by omega), Nat.add_sub_cancel' h1]
  · rfl

/-- R126: an atomic at a window reads and writes there. -/
theorem atomicAt_near (hl : l.near) (hb : s.lbad = []) (a : Acc) (p : Word) (k : Nat) (f : Nat → Option Nat) :
    ∃ t, atomicAt s.active l a p off n k f s = (.ok (Spec.winNat s l off n), t) ∧
      s.WroteRun t l (Spec.place s l 0 off) (natBytes n ((f (Spec.winNat s l off n)).getD (Spec.winNat s l off n))) := by
  have hrun := fun v => localPut_run (s := s) hl 0 off (natBytes n v)
  have hread : atomicAt s.active l a p off n k f s = match f (Spec.winNat s l off n) with
      | some x => (.ok (Spec.winNat s l off n), s.localPut s.active l off (natBytes n x))
      | none => (.ok (Spec.winNat s l off n), s) := by
    rw [Spec.winNat, ← leNat_localBytes hl]
    rcases hl with rfl | rfl | rfl <;>
      (refine (bind_ok (localCheck_good hb ..)).trans ((run_get_bind ..).trans ?_)
       generalize leNat _ = old
       cases f old <;> rfl)
  rw [hread]
  cases f (Spec.winNat s l off n) with
  | none => exact ⟨s, rfl, .same s l _ n⟩
  | some v => exact ⟨_, rfl, hrun v⟩

theorem pullPage_near (hl : l.near) (c : Nat) (a : Acc) : pullPage c l off a s = (.ok none, s) := by
  rcases hl with rfl | rfl | rfl <;> rfl

/-- The registers that a word of `n` bytes writes with the value `v`. -/
def wholeWrs (n : Nat) (d : SReg) (v : Nat) : List Wr :=
  if n = 16 then [.s d (BitVec.ofNat 64 v), .s (d + 1) (BitVec.ofNat 64 (v / 2 ^ 64))] else [.s d (BitVec.ofNat 64 v)]

/-- The operand of an atomic, and what a compare-and-swap expects. -/
def Entry.operand (e : Entry) : Nat := (e.x 2).toNat + atBit (e.x 3).toNat 64
def Entry.expected (e : Entry) : Nat := (e.x 4).toNat + atBit (e.x 5).toNat 64

theorem runAmo_here {c : Nat} {e : Entry} {a : Addr} {old : Nat} (hs : scalarAddr c .at m (e.x 0) (e.x 1) n s = (.ok a, s))
    (hp : pullPage c a.loc a.off .at s = (.ok none, s))
    (hold : atomicAt c a.loc .at a.ptr a.off n sc.toNat (fun old => o.new n old e.operand e.expected) s = (.ok old, t)) :
    runAmo o n d m sc c e s = (.ok (.done (wholeWrs n d old) 0), t) := by
  rw [runAmo, bind_ok hs]
  refine (bind_ok hp).trans ?_
  rw [ite_self]
  exact bind_ok hold

theorem IsAmo.window (hi : IsAmo i o h n d m x sc) (hq : s.Quiet h) (he : s.eager = true) (hb : s.lbad = []) (hn : 0 < n) (hin : Spec.inStore s m l n off) :
    let e := (amoReq i h n (o == .cas) d m x).started s
    let old := Spec.winNat s l off n
    ∃ t, exec i s = .next t ∧ Spec.stored s t l off n ((o.new n old e.operand e.expected).getD old) s.me
      (fun g => g.finished h [.sq] (wholeWrs n d old) 0 0) := by
  obtain ⟨hl, hidx, hoff, hal, hw⟩ := id hin
  have hnear := near_of_inWindow hl hw
  let r := amoReq i h n (o == .cas) d m x
  have hcq : r.qs.contains .cq = false := rfl
  intro e old
  obtain ⟨t, hat, hrun⟩ := atomicAt_near (s := s.atWork r) (n := n) (off := off) hnear ((State.lbad_atWork hcq).trans hb) .at (ptrAt (s.me.rd m.a) off) sc.toNat
    (fun old => o.new n old e.operand e.expected)
  rw [State.place_atWork hcq, winNat_atWork hq hcq] at hrun
  rw [State.active_atWork hcq, winNat_atWork hq hcq] at hat
  rw [hi.issues hq]
  refine issue_stores (r := r) (w := 0) hq he rfl rfl hcq ?_ hrun
  rw [hi.work _ _ _ rfl rfl]
  exact runAmo_here (scalarAddr_atWork hq hcq hn hin) (pullPage_near hnear _ _) hat

end

-- ### Registers and operands

/-- R188: the value of a load of fewer than 16 bytes. -/
theorem loadWrs_narrow {n v : Nat} (hn : n ∈ [1, 2, 4, 8]) (sx : Bool) (d : SReg) (hv : v < 256 ^ n) : loadWrs n sx d v =
    [.s d (let x := BitVec.ofNat (8 * n) v; if sx then x.signExtend 64 else x.zeroExtend 64)] := by
  have h16 : n ≠ 16 := by fin_cases hn <;> decide
  have h0 : 8 * n ≠ 0 := by fin_cases hn <;> decide
  have hz : BitVec.ofNat 64 v = (BitVec.ofNat (8 * n) v).zeroExtend 64 := by
    apply BitVec.eq_of_toNat_eq
    rw [BitVec.toNat_setWidth, BitVec.toNat_ofNat, BitVec.toNat_ofNat, pow_two_bits, Nat.mod_eq_of_lt hv]
  rw [loadWrs, if_neg h16, ← toInt_ofNat _ _ h0, ← BitVec.signExtend, hz]

theorem pow_256_8 : 256 ^ 8 = 2 ^ 64 := by decide

/-- R189: the pair that a load of 16 bytes fills. -/
theorem loadWrs_pair (d : SReg) (s : State) (l : Loc) (off : Nat) : loadWrs 16 false d (Spec.winNat s l off 16) =
    [.s d (BitVec.ofNat 64 (Spec.winNat s l off 8)), .s (d + 1) (BitVec.ofNat 64 (Spec.winNat s l (off + 8) 8))] := by
  have hlow : Spec.winNat s l off 8 < 2 ^ 64 := leAt_lt ..
  have hv : Spec.winNat s l off 16 = Spec.winNat s l off 8 + 2 ^ 64 * Spec.winNat s l (off + 8) 8 := by
    simp only [Spec.winNat, place_add, leAt_add _ _ 8 8, pow_256_8]
  have h1 : BitVec.ofNat 64 (Spec.winNat s l off 16) = BitVec.ofNat 64 (Spec.winNat s l off 8) := by
    apply BitVec.eq_of_toNat_eq
    rw [BitVec.toNat_ofNat, BitVec.toNat_ofNat, hv, Nat.add_mul_mod_self_left]
  have h2 : Spec.winNat s l off 16 / 2 ^ 64 = Spec.winNat s l (off + 8) 8 := by omega
  rw [loadWrs, if_pos rfl, h1, h2, pairHigh]

section
variable (i : Instr) (h : Hdr) {n : Nat} (cas : Bool) (d x : SReg) (m : MemOp) (s : State)

theorem atBit_pair (v : Nat) : atBit v 64 = 2 ^ 64 * v := by rw [atBit, Nat.shiftLeft_eq, Nat.mul_comm]

theorem storeData_narrow (hn : n ≠ 16) : ((storeReq i h n x m).started s).storeData = (s.me.rd x).toNat := by
  simp [Entry.storeData, Entry.x, storeReq, regsOf, hn, atBit]

theorem storeData_pair : ((storeReq i h 16 x m).started s).storeData = (s.me.rd x).toNat + 2 ^ 64 * (s.me.rd (x + 1)).toNat := by
  simp [Entry.storeData, Entry.x, storeReq, regsOf, atBit_pair, pairHigh]

theorem operand_narrow (hn : n ≠ 16) : ((amoReq i h n cas d m x).started s).operand = (s.me.rd x).toNat := by
  have h0 : s.me.rd 0#6 = 0 := rfl
  simp [Entry.operand, Entry.x, amoReq, hn, atBit, h0]

theorem operand_pair : ((amoReq i h 16 cas d m x).started s).operand = (s.me.rd x).toNat + 2 ^ 64 * (s.me.rd (x + 1)).toNat := by
  simp [Entry.operand, Entry.x, amoReq, atBit_pair, pairHigh]

theorem expected_narrow (hn : n ≠ 16) : ((amoReq i h n true d m x).started s).expected = (s.me.rd d).toNat := by
  have h0 : s.me.rd 0#6 = 0 := rfl
  simp [Entry.expected, Entry.x, amoReq, hn, atBit, h0]

theorem expected_pair : ((amoReq i h 16 true d m x).started s).expected = (s.me.rd d).toNat + 2 ^ 64 * (s.me.rd (d + 1)).toNat := by
  simp [Entry.expected, Entry.x, amoReq, atBit_pair, pairHigh]

end

-- ### Prefetches (R192)

/-- No check of a local or reserved index waits or gives a buffer. -/
theorem checkSpan_far {c : Nat} {u : User} {a : Acc} {ptr : Word} {lo hi : Int} {s : State} (h : 0xFF00 ≤ (Spec.idx ptr).toNat) :
    (∃ l, checkSpan c u a ptr lo hi s = (.ok l, s) ∧ ∀ b, l ≠ .glob b) ∨ ∃ t p, checkSpan c u a ptr lo hi s = (.error (.trap t p), s) := by
  have decided : ∀ (p : Prop) [Decidable p] (l : Loc) (t : Cause), (∀ b, l ≠ .glob b) →
      (∃ l', (if p then ((.ok l, s) : Except Stop Loc × State) else (.error (.trap t ptr), s)) = (.ok l', s) ∧ ∀ b, l' ≠ .glob b) ∨
      ∃ t' q, (if p then ((.ok l, s) : Except Stop Loc × State) else (.error (.trap t ptr), s)) = (.error (.trap t' q), s) := by
    intro p _ l t hl
    split
    · exact .inl ⟨l, rfl, hl⟩
    · exact .inr ⟨t, ptr, rfl⟩
  by_cases h0 : Spec.idx ptr = 0xFFF0
  · rw [checkSpan_croft h0]
    exact decided _ _ _ (fun _ => Loc.noConfusion)
  by_cases h1 : Spec.idx ptr = 0xFFF1
  · rw [checkSpan_hamlet h1]
    exact decided _ _ _ (fun _ => Loc.noConfusion)
  by_cases h2 : Spec.idx ptr = 0xFFF2
  · rw [checkSpan_commons h2]
    exact decided _ _ _ (fun _ => Loc.noConfusion)
  by_cases h3 : Spec.idx ptr = 0xFFF3
  · rw [checkSpan_lane h3]
    by_cases hv : (u == .vec && a != .at) = true
    · rw [if_pos hv]
      exact decided _ _ _ (fun _ => Loc.noConfusion)
    · rw [if_neg hv]
      exact .inr ⟨_, _, rfl⟩
  by_cases h8 : Spec.idx ptr = 0xFFF8
  · rw [checkSpan_port h8]
    exact decided _ _ _ (fun _ => Loc.noConfusion)
  exact .inr ⟨_, _, checkSpan_reserved h h0 h1 h2 h3 h8⟩

theorem bufAhead_far {c : Nat} {u : User} {ptr : Word} {s : State} (h : 0xFF00 ≤ (Spec.idx ptr).toNat) : bufAhead c u ptr s = (.ok none, s) := by
  rw [bufAhead]
  rcases checkSpan_far h with ⟨l, hc, hl⟩ | ⟨t, p, hc⟩
  · rw [hc]
    cases l with
    | glob b => exact absurd rfl (hl b)
    | _ => rfl
  · rw [hc]

theorem runPf_far {c : Nat} {l1 : Bool} {m : MemOp} {e : Entry} {s : State} (h : 0xFF00 ≤ (Spec.idx (e.x 0)).toNat) :
    runPf l1 m c e s = (.ok (.done [] 0), s) := by
  have hb := bufAhead_far (c := c) (u := .scalar) (s := s) (ptr := ptrAt (e.x 0) (m.off (e.x 0) (e.x 1)).toNat) (by rw [idx_ptrAt]; exact h)
  rw [runPf]
  dsimp only
  split
  · exact (bind_ok hb).trans rfl
  · rfl

/-- R192: what a prefetch asks of the queues. -/
def pfReq (i : Instr) (h : Hdr) (m : MemOp) : Req := { op := i, h := h, t := .zero, qs := [.lq], srcs := [m.a, m.b] }

theorem prefetch_far {i : Instr} {h : Hdr} {m : MemOp} {l1 : Bool} {s : State} (hx : exec i s = issuePf perform i h m s)
    (hw : ∀ c (e : Entry) s, e.adj = false → e.op = i → perform c e s = runPf l1 m c e s) (hq : s.Quiet h) (he : s.eager = true)
    (hidx : 0xFF00 ≤ (Spec.idx (s.me.rd m.a)).toNat) : exec i s = .next (s.setCore s.active (s.me.finished h [.lq] [] 0 0)) := by
  rw [hx, issuePf, issueR_taken hq.taken]
  refine issue_reads (r := pfReq i h m) hq he rfl rfl ?_ rfl rfl
  rw [hw _ _ _ rfl rfl]
  exact runPf_far hidx

end Sys2Proof.Machine

/-! PROOFS. Accesses through global buffers whose entry and translation the core holds (R57 to R59, R105, R126, R347). -/

namespace Sys2Proof.Machine

-- ### Checks and translation

section
variable {c off : Nat} {u : User} {a : Acc} {ptr : Word} {lo hi : Int} {b : BitVec 256} {s : State}

/-- R57, R59: bytes of a buffer whose entry the core holds. -/
theorem checkSpan_buffer (hi1 : (Spec.idx ptr).toNat ≤ 0xFEFF) (hcnt : (Spec.idx ptr).toNat < descBtCnt (s.core c).ctx.desc)
    (hb : SMap.get none (s.core c).ctx.bufs (Spec.idx ptr).toNat = some b) (hv : bufValid (s.core c).ctx.asid b = true) (hg : bufGrants a b = true) (h0 : 0 ≤ lo)
    (hlen : hi < bufLen b) : checkSpan c u a ptr lo hi s = (.ok (.glob b), s) := by
  have he : bufEntry c (Spec.idx ptr).toNat s = (.ok b, s) := by
    rw [bufEntry, run_get_bind]
    simp only [hb]
    rfl
  have hr : (decide (lo < 0) || decide ((bufLen b : Int) ≤ hi)) = false := by
    simp only [Bool.or_eq_false_iff, decide_eq_false_iff_not]
    omega
  rw [checkSpan, run_get_bind]
  simp only [ptrIndex_eq, if_pos hi1, if_neg (Nat.not_le.2 hcnt)]
  rw [bind_ok he]
  simp only [hv, hg, hr, Bool.not_true, Bool.false_eq_true, if_false]
  rfl

/-- R347: a translation that the core's L1 TLB holds changes nothing. -/
theorem xlat_held {va : Nat} {t : TlbEnt} (hown : s.ownTlb = true) (ht : Tlb.find (s.core c).ctx.tlb (s.core c).ctx.asid va a = some t) :
    xlat c va a ptr s = (.ok t, s) := by
  have hx : s.ownXlat c (s.core c).ctx.asid va a = some t := by rw [State.ownXlat, if_pos hown, ht]
  have hh : s.heldXlat c (s.core c).ctx.asid va a = some t := by rw [State.heldXlat, hx]
  rw [xlat, run_get_bind]
  simp only [hh, hx, Option.isNone_some, Bool.and_false, Bool.false_eq_true, if_false]
  rfl

theorem leafAt_held {va : Nat} {t : TlbEnt} (hown : s.ownTlb = true) (ht : Tlb.find (s.core c).ctx.tlb (s.core c).ctx.asid va a = some t) :
    s.leafAt c va a = .leaf (t.leaf.toNat + 2 ^ 21 * (t.pa va / 65536 - ptePfn t.leaf.toNat)) 3 0 := by
  have hx : s.ownXlat c (s.core c).ctx.asid va a = some t := by rw [State.ownXlat, if_pos hown, ht]
  have hh : s.heldXlat c (s.core c).ctx.asid va a = some t := by rw [State.heldXlat, hx]
  rw [State.leafAt]
  simp only [hh]

theorem translate_held {va : Nat} {t : TlbEnt} (hown : s.ownTlb = true) (ht : Tlb.find (s.core c).ctx.tlb (s.core c).ctx.asid va a = some t)
    (hl : leafGrants a t.leaf.toNat = true) (hr : s.refuses b (t.pa va) = false)
    (hreach : isHostPath (t.pa va) = true ∨ (s.frame (t.pa va / 65536)).reach.contains (pageKey (s.core c).ctx.asid va, bufClass b) = true) :
    translate c b va a ptr s = (.ok ⟨t.pa va, pteKey t.leaf.toNat, bufCompr b, bufTagged b, pageKey (s.core c).ctx.asid va, bufClass b⟩, s) := by
  have hf : (!isHostPath (t.pa va) && !(s.frame (t.pa va / 65536)).reach.contains (pageKey (s.core c).ctx.asid va, bufClass b)) = false := by
    rcases hreach with h | h
    · rw [h, Bool.not_true, Bool.false_and]
    · rw [h, Bool.not_true, Bool.and_false]
  rw [translate, bind_ok (xlat_held hown ht), run_get_bind]
  simp only [hl, hr, hf, Bool.not_true, Bool.or_false, Bool.false_eq_true, if_false]
  rfl

end

-- ### Lines in the L1

section
variable {c off : Nat} {pl : Place} {ptr : Word} {s : State} {x : L1Line} {d : BitVec 2048}

theorem fill_held (h : (s.core c).l1Get (pl.pa / 256) = some x) :
    fill c pl ptr off s = (.ok (x.via pl.page), s.modCore c (fun k => k.l1Set (pl.pa / 256) (some (x.via pl.page)))) := by
  rw [fill, run_getCore_bind]
  simp only [h]
  rfl

theorem awaitAt_ready (hw : s.clsWaits pl.cls pl.pa = false) : awaitAt c pl s = (.ok (), s) := by
  rw [awaitAt, awaitCls, run_get_bind]
  simp only [hw, Bool.false_eq_true, if_false]
  rfl

theorem fill_absent (h : (s.core c).l1Get (pl.pa / 256) = none) (hlen : (s.core c).loc.l1.length < 512) (hw : s.clsWaits pl.cls pl.pa = false)
    (hd : s.homeLine (pl.pa / 256) pl.key pl.compr = .ok d) : fill c pl ptr off s = (.ok ⟨d, 0, none, pl.key, pl.compr, [pl.page], pl.cls, []⟩,
      (s.retag (pl.pa / 256) pl.key).modCore c (fun k => k.l1Set (pl.pa / 256) (some ⟨d, 0, none, pl.key, pl.compr, [pl.page], pl.cls, []⟩))) := by
  have hm : makeRoom c s = (.ok (), s) := by
    rw [makeRoom, run_getCore_bind, if_pos hlen]
    rfl
  rw [fill, run_getCore_bind]
  simp only [h]
  rw [bind_ok (awaitAt_ready hw), bind_ok hm, run_get_bind]
  simp only [hd]
  rfl

/-- The bytes of a line from `lo` on, as a number. -/
theorem leNat_line (x : BitVec 2048) (lo n : Nat) : leNat ((upTo n).map (fun i => x.extractLsb' (8 * (lo + i)) 8)) = Spec.lineNat x lo n := by
  rw [leNat_map_upTo (fun a => x.extractLsb' (8 * a) 8)]
  induction n with
  | zero => simp [Spec.leAt, Spec.lineNat]
  | succ n ih =>
    have h : 2 ^ (8 * (n + 1)) = 2 ^ (8 * n) * 2 ^ 8 := by rw [← pow_add]; rfl
    rw [Spec.leAt, ih, Spec.lineNat, Spec.lineNat, BitVec.extractLsb'_toNat, BitVec.extractLsb'_toNat, BitVec.extractLsb'_toNat, h, Nat.mod_mul, Nat.mul_add,
      Nat.shiftRight_add, Nat.shiftRight_eq_div_pow (x.toNat >>> (8 * lo)) (8 * n), ← pow_two_bits]
    ring

end

/-- R105: a byte of a line after a store into it. -/
theorem extractLsb'_stored (x : BitVec 2048) (lo n v i : Nat) (hi : i < 256) :
    (mergeBits x (BitVec.ofNat 2048 (atBit v (8 * lo))) (BitVec.ofNat 2048 (atBit (2 ^ (8 * n) - 1) (8 * lo)))).extractLsb' (8 * i) 8 =
      if lo ≤ i ∧ i < lo + n then BitVec.ofNat 8 (v / 256 ^ (i - lo)) else x.extractLsb' (8 * i) 8 := by
  have hb : ∀ j < 8, ((mergeBits x (BitVec.ofNat 2048 (atBit v (8 * lo))) (BitVec.ofNat 2048 (atBit (2 ^ (8 * n) - 1) (8 * lo)))).extractLsb' (8 * i) 8).getLsbD j =
      if lo ≤ i ∧ i < lo + n then v.testBit (8 * i + j - 8 * lo) else x.getLsbD (8 * i + j) := by
    intro j hj
    have h1 : 8 * i + j < 2048 := by omega
    simp only [BitVec.getLsbD_extractLsb', hj, decide_true, Bool.true_and, mergeBits, BitVec.getLsbD_or, BitVec.getLsbD_and, BitVec.getLsbD_not, h1,
      BitVec.getLsbD_ofNat, atBit, Nat.testBit_shiftLeft, Nat.testBit_two_pow_sub_one]
    by_cases h : lo ≤ i ∧ i < lo + n
    · rw [if_pos h, decide_eq_true (show 8 * i + j ≥ 8 * lo by omega), decide_eq_true (show 8 * i + j - 8 * lo < 8 * n by omega)]
      simp
    · rw [if_neg h]
      by_cases hlo : lo ≤ i
      · rw [decide_eq_false (show ¬8 * i + j - 8 * lo < 8 * n by omega)]
        simp
      · rw [decide_eq_false (show ¬8 * i + j ≥ 8 * lo by omega)]
        simp
  apply BitVec.eq_of_getLsbD_eq
  intro j hj
  rw [hb j hj]
  by_cases h : lo ≤ i ∧ i < lo + n
  · rw [if_pos h, if_pos h, BitVec.getLsbD_ofNat, decide_eq_true hj, Bool.true_and, ← pow_two_bits, Nat.testBit_div_two_pow]
    congr 1
    omega
  · rw [if_neg h, if_neg h, BitVec.getLsbD_extractLsb', decide_eq_true hj, Bool.true_and]

/-- R105: the mark of a byte of a line after a store into it. -/
theorem getLsbD_marked (x : BitVec 256) (lo n i : Nat) (hi : i < 256) :
    (x ||| BitVec.ofNat 256 (atBit (2 ^ n - 1) lo)).getLsbD i = (decide (lo ≤ i ∧ i < lo + n) || x.getLsbD i) := by
  rw [BitVec.getLsbD_or, BitVec.getLsbD_ofNat, decide_eq_true hi, Bool.true_and, atBit, Nat.testBit_shiftLeft, Nat.testBit_two_pow_sub_one, Bool.or_comm,
    ← Bool.decide_and]
  congr 1
  exact decide_eq_decide.2 (by omega)

/-- The line that a store leaves in the L1. -/
def L1Line.put (x : L1Line) (pl : Place) (bs : List Byte) : L1Line :=
  let lm := lineOf (pl.pa % 256) bs
  let bm := BitVec.ofNat 2048 (atBit (2 ^ (8 * bs.length) - 1) (8 * (pl.pa % 256)))
  { x with data := mergeBits x.data lm.1 bm, dirty := x.dirty ||| lm.2, key := pl.key, compr := pl.compr, cls := pl.cls,
           sts := addStore x.sts (pl.pa % 256) bs.length }

theorem L1Line.via_eq (x : L1Line) (page : Nat) : ∃ p, x.via page = { x with pages := p } := by
  unfold L1Line.via
  split
  · exact ⟨x.pages, rfl⟩
  · exact ⟨_, rfl⟩

theorem lineStored_put (x : L1Line) (pl : Place) (n v : Nat) (hv : v < 256 ^ n) :
    Spec.lineStored x ((x.via pl.page).put pl (natBytes n v)) pl (pl.pa % 256) n v := by
  have hle : leNat (natBytes n v) = v := by rw [leNat_natBytes, Nat.mod_eq_of_lt hv]
  obtain ⟨p, hp⟩ := x.via_eq pl.page
  rw [hp]
  refine ⟨rfl, fun i hi => ⟨?_, ?_⟩⟩
  · rw [Spec.lineNat, Spec.lineNat, L1Line.put]
    dsimp only [lineOf]
    rw [hle, length_natBytes, Nat.mul_one, extractLsb'_stored _ _ _ _ _ hi]
    split
    · rw [BitVec.toNat_ofNat]
    · rfl
  · rw [L1Line.put]
    dsimp only [lineOf]
    rw [length_natBytes, getLsbD_marked _ _ _ _ hi]

theorem l1Get_l1Set_same (k : CoreSt) (line : Nat) (x : Option L1Line) : (k.l1Set line x).l1Get line = x := SMap.get_set_same _ k.loc.l1 ..
theorem l1Get_l1Set_ne (k : CoreSt) {line i : Nat} (x : Option L1Line) (hi : i ≠ line) : (k.l1Set line x).l1Get i = k.l1Get i :=
  SMap.get_set_ne _ k.loc.l1 _ _ _ hi

theorem lineIs_l1Set (k : CoreSt) (line : Nat) (x : L1Line) : Spec.lineIs k (k.l1Set line (some x)) line x :=
  ⟨rfl, l1Get_l1Set_same .., fun _ hi => l1Get_l1Set_ne _ _ hi⟩

theorem lineIs_l1Set_l1Set (k : CoreSt) (line : Nat) (x y : L1Line) : Spec.lineIs k ((k.l1Set line (some y)).l1Set line (some x)) line x :=
  ⟨rfl, l1Get_l1Set_same .., fun _ hi => (l1Get_l1Set_ne _ _ hi).trans (l1Get_l1Set_ne _ _ hi)⟩

end Sys2Proof.Machine

/-! PROOFS. Scalar loads, stores and atomics through a buffer, at a core at rest (R59, R105, R126, R130). -/

namespace Sys2Proof.Machine

-- ### The checks of a word at work

section
variable {r : Req} {s : State} {a : Acc} {m : MemOp} {n off : Nat} {b : BitVec 256} {pl : Place} (hq : s.Quiet r.h) (hcq : r.qs.contains .cq = false)
  (hin : Spec.inBuffer s m a n off b pl)
include hq hcq hin

theorem scalarAddr_buffer (hn : 0 < n) :
    scalarAddr s.active a m (s.me.rd m.a) (s.me.rd m.b) n (s.atWork r) = (.ok ⟨.glob b, ptrAt (s.me.rd m.a) off, off⟩, s.atWork r) := by
  obtain ⟨hidx, hcnt, hb, hv, hg, hoff, hal, hlen, -⟩ := hin
  have h48 : bufLen b ≤ 2 ^ 48 := by
    simp only [bufValid, Bool.and_eq_true, decide_eq_true_eq] at hv
    exact hv.2
  have hx : ((s.atWork r).core s.active).ctx = s.me.ctx := by rw [State.core_atWork hcq, (hq.enqueue_same _).ctx]
  refine scalarAddr_ok ((memOp_off m _ _).trans hoff) (by omega) (checkSpan_buffer ?_ ?_ ?_ ?_ hg (by omega) (by omega)) (fun h => Loc.noConfusion h) hal
  all_goals simp only [idx_ptrAt, hx]; assumption

variable (hmq : r.qs.contains .mq = false)
include hmq

theorem translate_buffer (p : Word) : translate s.active b (bufBase b + off) a p (s.atWork r) = (.ok pl, s.atWork r) := by
  obtain ⟨-, -, -, -, -, -, -, -, ⟨t, ht, hl, rfl⟩, hr, hreach⟩ := hin
  have hx : ((s.atWork r).core s.active).ctx = s.me.ctx := by rw [State.core_atWork hcq, (hq.enqueue_same _).ctx]
  obtain ⟨w, -, hw⟩ := s.atWork_eq hcq
  have hr' : (s.atWork r).refuses b (t.pa (bufBase b + off)) = false := by rw [hw]; exact hr
  have hf : (s.atWork r).frame = s.frame := by rw [hw]; rfl
  have h := translate_held (c := s.active) (ptr := p) (State.ownTlb_atWork hcq hmq) (by rw [hx]; exact ht) hl hr' (by rw [hx, hf]; exact hreach)
  rwa [hx] at h

theorem leafAt_buffer : ∃ e, s.leafAt s.active (bufBase b + off) a = .leaf e 3 0 ∧ (s.atWork r).leafAt s.active (bufBase b + off) a = .leaf e 3 0 := by
  obtain ⟨-, -, -, -, -, -, -, -, ⟨t, ht, -, -⟩, -, -⟩ := hin
  have hx : ((s.atWork r).core s.active).ctx = s.me.ctx := by rw [State.core_atWork hcq, (hq.enqueue_same _).ctx]
  have hown : s.ownTlb = true := by rw [State.ownTlb, hq.noAuthor]
  exact ⟨_, leafAt_held hown ht, leafAt_held (State.ownTlb_atWork hcq hmq) (by rw [hx]; exact ht)⟩

end

-- ### The module at work at home

section
variable {r : Req} {s : State} (hcq : r.qs.contains .cq = false)
include hcq

theorem State.homeLine_atWork : (s.atWork r).homeLine = s.homeLine := by
  obtain ⟨a, -, h⟩ := s.atWork_eq hcq
  rw [h]
  rfl

theorem State.clsWaits_atWork : (s.atWork r).clsWaits = s.clsWaits := by
  obtain ⟨a, -, h⟩ := s.atWork_eq hcq
  rw [h]
  rfl

theorem l1_atWork (hq : s.Quiet r.h) : ((s.atWork r).core s.active).loc.l1 = s.me.loc.l1 := by
  rw [State.core_atWork hcq, (hq.enqueue_same _).loc]

end

-- ### The step of a word whose work leaves its core with another L1

/-- `v` is `u` with a word of the active core of `s` at work there, that core as in `s` but for its local memories `l`. -/
def State.Works (s : State) (r : Req) (u : State) (l : Local) (v : State) : Prop :=
  ∃ a : Author, v = { u.setCore s.active ((s.me.putLoc l).enqueue r.h (r.entryAt s)) with author := some a }

theorem retag_rest (s : State) (line key : Nat) : (s.retag line key).author = s.author ∧ (s.retag line key).cores = s.cores := by
  unfold State.retag
  dsimp only
  split <;> exact ⟨rfl, rfl⟩

section
variable {r : Req} {s u v : State} {l : Local}

theorem works_atWork (hcq : r.qs.contains .cq = false) : s.Works r s s.me.loc (s.atWork r) := by
  obtain ⟨a, -, h⟩ := s.atWork_eq hcq
  exact ⟨a, h⟩

theorem State.Works.core (h : s.Works r u l v) : v.core s.active = (s.me.putLoc l).enqueue r.h (r.entryAt s) := by
  obtain ⟨a, rfl⟩ := h
  exact State.core_setCore ..

theorem State.Works.retag (h : s.Works r u l v) (line key : Nat) : s.Works r (u.retag line key) l (v.retag line key) := by
  obtain ⟨a, rfl⟩ := h
  refine ⟨a, ?_⟩
  by_cases hd : (u.lineSt line).dirty = 0 ∨ (u.lineSt line).dirty = key + 1
  · have h1 : u.retag line key = u := if_pos hd
    rw [h1]
    exact if_pos hd
  · have h1 : u.retag line key = u.setLineSt line { u.lineSt line with dirty := 0, got := 0 } := if_neg hd
    rw [h1]
    exact if_neg hd

theorem State.Works.l1Set (h : s.Works r u l v) (line : Nat) (x : Option L1Line) :
    s.Works r u { l with l1 := SMap.set none l.l1 line x } (v.modCore s.active fun k => k.l1Set line x) := by
  have hloc : ((s.me.putLoc l).enqueue r.h (r.entryAt s)).loc = l := by rw [CoreSt.enqueue_putLoc, CoreSt.loc_putLoc]
  have hk : ∀ k : CoreSt, k.l1Set line x = k.putLoc { k.loc with l1 := SMap.set none k.loc.l1 line x } := fun _ => rfl
  obtain ⟨a, rfl⟩ := h
  refine ⟨a, ?_⟩
  have hc : (({ u.setCore s.active ((s.me.putLoc l).enqueue r.h (r.entryAt s)) with author := some a } : State).core s.active) =
      (s.me.putLoc l).enqueue r.h (r.entryAt s) := State.core_setCore ..
  rw [State.modCore, hc, hk, hloc, ← CoreSt.enqueue_putLoc]
  change ({ (u.setCore s.active _).setCore s.active _ with author := some a } : State) = _
  rw [State.setCore_setCore]
  rfl

theorem issue_works {perf : Perf} {wrs : List Wr} {w : Word} (hq : s.Quiet r.h) (he : s.eager = true) (hpl : r.place = none)
    (hpre : r.pre s.active (r.srcs.map s.me.rd) (r.hnds.map s.me.rdH) s = (.ok (), s))
    (hperf : perf s.active (r.started s) (s.atWork r) = (.ok (.done wrs w), v)) (hv : s.Works r u l v) (hua : u.author = none) (huc : u.cores = s.cores) :
    issue perf r s = .next (u.setCore s.active ((s.me.putLoc l).finished r.h r.qs wrs r.t.td w)) := by
  have hcore := hv.core
  obtain ⟨a, rfl⟩ := hv
  refine issue_finishes hq he hpl hpre hperf u (l := l) (hcore.trans (CoreSt.enqueue_putLoc ..)) (fun k => ?_) (fun d _ => by rw [State.core, huc]; rfl)
  change ({ (u.setCore s.active _).setCore s.active k with author := none } : State) = _
  rw [State.setCore_setCore, ← hua]
  rfl

end

-- ### Loads and stores

section
variable {i : Instr} {h : Hdr} {n off : Nat} {sx : Bool} {d x : SReg} {m : MemOp} {s t u : State} {b : BitVec 256} {pl : Place} {y z : L1Line} {l : Local}

theorem viaPort_buffer {a : Acc} (hin : Spec.inBuffer s m a n off b pl) : viaPort m s = false := by
  obtain ⟨hidx, -⟩ := hin
  refine viaPort_window fun h => ?_
  rw [h] at hidx
  exact absurd hidx (by decide)

/-- R105: a load takes the bytes of the line that its fill gives. -/
theorem IsLoad.buffer (hi : IsLoad i h n sx d m) (hq : s.Quiet h) (he : s.eager = true) (hn : 0 < n) (hin : Spec.inBuffer s m .rd n off b pl)
    (hfill : fill s.active pl (ptrAt (s.me.rd m.a) off) off (s.atWork (loadReq i h n d m)) = (.ok y, t)) (ht : s.Works (loadReq i h n d m) u l t)
    (hua : u.author = none) (huc : u.cores = s.cores) :
    exec i s = .next (u.setCore s.active ((s.me.putLoc l).finished h [.lq] (loadWrs n sx d (Spec.lineNat y.data (pl.pa % 256) n)) 0 0)) := by
  rw [hi.issues hq (viaPort_buffer hin)]
  refine issue_works (r := loadReq i h n d m) hq he rfl rfl ?_ ht hua huc
  have hread : loadAt s.active ⟨.glob b, ptrAt (s.me.rd m.a) off, off⟩ n (s.atWork (loadReq i h n d m)) =
      (.ok (Spec.lineNat y.data (pl.pa % 256) n), t) := by
    rw [← leNat_line]
    refine bind_ok (?_ : readAt _ _ _ _ _ _ = _)
    exact (bind_ok (translate_buffer (r := loadReq i h n d m) hq rfl hin rfl _)).trans (bind_ok hfill)
  rw [hi.work _ _ _ rfl rfl, runLd]
  exact (bind_ok (scalarAddr_buffer (r := loadReq i h n d m) hq rfl hin hn)).trans (bind_ok hread)

theorem fill_held_atWork {r : Req} (hq : s.Quiet r.h) (hcq : r.qs.contains .cq = false) (hy : s.me.l1Get (pl.pa / 256) = some y) (p : Word) :
    ∃ t, fill s.active pl p off (s.atWork r) = (.ok (y.via pl.page), t) ∧
      s.Works r s (s.me.l1Set (pl.pa / 256) (some (y.via pl.page))).loc t := by
  have hg : ((s.atWork r).core s.active).l1Get (pl.pa / 256) = some y := by rw [CoreSt.l1Get, l1_atWork hcq hq]; exact hy
  exact ⟨_, fill_held hg, (works_atWork hcq).l1Set ..⟩

theorem fill_absent_atWork {r : Req} {z : BitVec 2048} (hq : s.Quiet r.h) (hcq : r.qs.contains .cq = false) (hy : s.me.l1Get (pl.pa / 256) = none)
    (hlen : s.me.loc.l1.length < 512) (hw : s.clsWaits pl.cls pl.pa = false) (hz : s.homeLine (pl.pa / 256) pl.key pl.compr = .ok z) (p : Word) :
    ∃ t, fill s.active pl p off (s.atWork r) = (.ok ⟨z, 0, none, pl.key, pl.compr, [pl.page], pl.cls, []⟩, t) ∧
      s.Works r (s.retag (pl.pa / 256) pl.key) (s.me.l1Set (pl.pa / 256) (some ⟨z, 0, none, pl.key, pl.compr, [pl.page], pl.cls, []⟩)).loc t := by
  have hl := l1_atWork hcq hq
  have hg : ((s.atWork r).core s.active).l1Get (pl.pa / 256) = none := by rw [CoreSt.l1Get, hl]; exact hy
  have hf := fill_absent (off := off) (ptr := p) hg (by rw [hl]; exact hlen) (by rw [State.clsWaits_atWork hcq]; exact hw)
    (by rw [State.homeLine_atWork hcq]; exact hz)
  exact ⟨_, hf, ((works_atWork hcq).retag ..).l1Set ..⟩

/-- R105: a store changes the line that the L1 holds. -/
theorem IsStore.buffer (hi : IsStore i h n x m) (hq : s.Quiet h) (he : s.eager = true) (hn : 0 < n) (hin : Spec.inBuffer s m .wr n off b pl)
    (hy : s.me.l1Get (pl.pa / 256) = some y) {v : Nat} (hv : natBytes n ((storeReq i h n x m).started s).storeData = natBytes n v) (hlt : v < 256 ^ n) :
    ∃ g z, Spec.lineIs s.me g (pl.pa / 256) z ∧ Spec.lineStored y z pl (pl.pa % 256) n v ∧ exec i s = .next (s.setCore s.active (g.finished h [.sq] [] 0 0)) := by
  let r := storeReq i h n x m
  have hcq : r.qs.contains .cq = false := rfl
  obtain ⟨t, hf, ht⟩ := fill_held_atWork (r := r) (off := off) hq hcq hy (ptrAt (s.me.rd m.a) off)
  have ht' := ht.l1Set (pl.pa / 256) (some ((y.via pl.page).put pl (natBytes n v)))
  refine ⟨(s.me.l1Set _ (some (y.via pl.page))).l1Set _ (some ((y.via pl.page).put pl (natBytes n v))), _, lineIs_l1Set_l1Set .., lineStored_put y pl n v hlt, ?_⟩
  rw [hi.issues hq (viaPort_buffer hin)]
  refine issue_works (r := r) (wrs := []) (w := 0) hq he rfl rfl ?_ ht' hq.noAuthor rfl
  have hst : storeAt s.active ⟨.glob b, ptrAt (s.me.rd m.a) off, off⟩ n (r.started s).storeData (s.atWork r) =
      (.ok (), t.modCore s.active fun k => k.l1Set (pl.pa / 256) (some ((y.via pl.page).put pl (natBytes n v)))) := by
    rw [storeAt, hv]
    exact (bind_ok (translate_buffer (r := r) hq rfl hin rfl _)).trans (bind_ok hf)
  rw [hi.work _ _ _ rfl rfl, runSt]
  exact (bind_ok (scalarAddr_buffer (r := r) hq rfl hin hn)).trans (bind_ok hst)

end

end Sys2Proof.Machine

/-! PROOFS. `Obligations.ScalarLoads` and `Obligations.ScalarStores`. -/

namespace Sys2Proof.Machine

section
variable {h : Hdr} {d x : SReg} {m : MemOp} {s : State}

theorem isLoad_ldQ : IsLoad (.ldQ h d m) h 16 false d m := ⟨fun _ => rfl, perform_word rfl rfl⟩
theorem isStore_stQ : IsStore (.stQ h x m) h 16 x m := ⟨fun _ => rfl, perform_word rfl rfl⟩

theorem ne_pair {n : Nat} (hn : n ∈ [1, 2, 4, 8]) : n ≠ 16 := by fin_cases hn <;> decide
theorem pos_size {n : Nat} (hn : n ∈ [1, 2, 4, 8]) : 0 < n := by fin_cases hn <;> decide

theorem lineNat_lt (x : BitVec 2048) (lo n : Nat) : Spec.lineNat x lo n < 256 ^ n := by
  rw [← pow_two_bits]
  exact BitVec.isLt _

/-- The pair of a 16-byte store is a number of 16 bytes. -/
theorem pair_lt (a b : Word) : a.toNat + 2 ^ 64 * b.toNat < 256 ^ 16 := by
  have h : 256 ^ 16 = 2 ^ 64 * 2 ^ 64 := by decide
  have ha := a.isLt
  have hb := b.isLt
  omega

end

/-- Settles O29: a load reads what its address check leads to, in the module as its work finds it; a prefetch beyond the buffers finds no buffer. -/
theorem scalarLoads : Obligations.ScalarLoads := by
  unfold Obligations.ScalarLoads
  refine ⟨?windows, ?buffers, ?prefetches⟩
  case windows =>
    intro h d m l s off hq he hb
    refine ⟨fun op hop hin => ?_, fun hin => ?_⟩
    · obtain ⟨hn, hi⟩ := isLoad_of_mem h d m op hop
      rw [hi.window hq he hb (pos_size hn) hin, loadWrs_narrow hn _ _ (winNat_lt ..)]
    · rw [isLoad_ldQ.window hq he hb (by decide) hin, loadWrs_pair]
  case buffers =>
    intro h d m s off b pl hq he op hop hin
    obtain ⟨hn, hi⟩ := isLoad_of_mem h d m op hop
    let r := loadReq (op.1 h d m) h op.2.1 d m
    refine ⟨fun x hx => ?_, fun x hx hlen hw hz => ?_⟩
    · obtain ⟨t, hf, ht⟩ := fill_held_atWork (r := r) (off := off) hq rfl hx (ptrAt (s.me.rd m.a) off)
      obtain ⟨p, hp⟩ := x.via_eq pl.page
      refine ⟨_, lineIs_l1Set .., ?_⟩
      rw [hi.buffer hq he (pos_size hn) hin hf ht hq.noAuthor rfl, loadWrs_narrow hn _ _ (lineNat_lt ..), hp]
      rfl
    · obtain ⟨t, hf, ht⟩ := fill_absent_atWork (r := r) (off := off) hq rfl hx hlen hw hz (ptrAt (s.me.rd m.a) off)
      obtain ⟨ha, hc⟩ := retag_rest s (pl.pa / 256) pl.key
      refine ⟨_, lineIs_l1Set .., ?_⟩
      rw [hi.buffer hq he (pos_size hn) hin hf ht (ha.trans hq.noAuthor) hc, loadWrs_narrow hn _ _ (lineNat_lt ..)]
      rfl
  case prefetches =>
    intro h m s hq he hidx
    exact ⟨prefetch_far rfl (perform_word rfl rfl) hq he hidx, prefetch_far rfl (perform_word rfl rfl) hq he hidx⟩

/-- Settles O30: a store writes one run of bytes where its address check leads to. -/
theorem scalarStores : Obligations.ScalarStores := by
  unfold Obligations.ScalarStores
  refine ⟨?windows, ?buffers⟩
  case windows =>
    intro h c m l s off hq he
    refine ⟨fun op hop hin => ?_, fun hin => ?_⟩
    · obtain ⟨hn, hi⟩ := isStore_of_mem h c m op hop
      rw [← storeData_narrow (op.1 h c m) h c m s (ne_pair hn)]
      exact hi.window hq he (pos_size hn) hin
    · rw [← storeData_pair (.stQ h c m) h c m s]
      exact isStore_stQ.window hq he (by decide) hin
  case buffers =>
    intro h c m s off b pl x hq he hx
    refine ⟨fun op hop hin => ?_, fun hin => ?_⟩
    · obtain ⟨hn, hi⟩ := isStore_of_mem h c m op hop
      refine hi.buffer hq he (pos_size hn) hin hx ?_ (Nat.mod_lt _ (Nat.pow_pos (by decide)))
      rw [storeData_narrow _ _ _ _ _ (ne_pair hn), natBytes_mod]
    · exact isStore_stQ.buffer hq he (by decide) hin hx (by rw [storeData_pair]) (pair_lt ..)

end Sys2Proof.Machine

/-! PROOFS. Atomics at a core at rest, through the windows and at home (R126, R130, R193, R194): `Obligations.Atomics`. -/

namespace Sys2Proof.Machine

-- ### Writes at home by a module whose cores are at work

/-- A module with other cores and another author of what is at work. -/
def State.dressed (s : State) (ks : SMap CoreSt) (a : Option Author) : State := { s with cores := ks, author := a }

section
variable (s : State) (ks : SMap CoreSt) (a : Option Author) (line key : Nat) (compr : Bool) (x : BitVec 2048) (m : BitVec 256)

theorem sliceRoom_dressed : (s.dressed ks a).sliceRoom line = (s.sliceRoom line).dressed ks a := by
  have hd : (s.dressed ks a).dirtyLines = s.dirtyLines := rfl
  have hl : (s.dressed ks a).lines = s.lines := rfl
  have ht : (s.dressed ks a).lineSt = s.lineSt := rfl
  unfold State.sliceRoom
  rw [hd, hl, ht]
  split
  · rfl
  · split
    · rfl
    · split <;> rfl

theorem outdate_dressed : (s.dressed ks a).outdate line m = (s.outdate line m).dressed ks a := by
  have hf : (s.dressed ks a).frame = s.frame := rfl
  unfold State.outdate
  rw [hf]
  dsimp only
  split <;> rfl

theorem homeWrite_dressed : (s.dressed ks a).homeWrite line key compr x m = (s.homeWrite line key compr x m).map (fun t => t.dressed ks a) := by
  have hk : (s.dressed ks a).keyMat = s.keyMat := rfl
  have hl : (s.dressed ks a).lineSt = s.lineSt := rfl
  have hm : (s.dressed ks a).homeLine = s.homeLine := rfl
  have hw : (s.dressed ks a).mem = s.mem := rfl
  unfold State.homeWrite
  rw [hk, hl, hm, hw]
  simp only [sliceRoom_dressed, outdate_dressed]
  split
  · rfl
  · split
    · rfl
    · split
      · rfl
      · split
        · rfl
        · split
          · rfl
          · generalize putBytes s.mem (256 * line) _ _ 256 = y
            rfl

end

-- ### Atomics at home (R126, R130)

theorem noted_mem (s : State) (pa key : Nat) (compr : Bool) (bs bits : List Byte) : (s.noted pa key compr bs bits).mem = s.mem := by
  unfold State.noted State.noteWrite
  split
  · rfl
  · split <;> rfl

theorem atomicDone_rest (s : State) (c pa n : Nat) : (s.atomicDone c pa n).mem = s.mem ∧ (s.atomicDone c pa n).cores = s.cores := by
  unfold State.atomicDone
  split <;> exact ⟨rfl, rfl⟩

/-- A line that the L1 does not hold needs not go home. -/
theorem flushLines_absent {c line : Nat} {s : State} (h : (s.core c).l1Get line = none) : flushLines c [line] s = (.ok (), s.setCore c (s.core c)) := by
  have hw : writeBack c line s = (.ok (), s) := by
    rw [writeBack, run_get_bind]
    simp only [h]
    rfl
  have hd : dropClean c line s = (.ok (), s.setCore c (s.core c)) := by
    rw [dropClean]
    change (Except.ok (), s.setCore c _) = _
    dsimp only
    rw [h]
  rw [flushLines, bind_ok hw, bind_ok hd]
  rfl

theorem leNat_homeBytes_lt {s : State} {pa n key : Nat} {compr : Bool} {bs : List Byte} (h : s.homeBytes pa n key compr = .ok bs) : leNat bs < 256 ^ n := by
  unfold State.homeBytes at h
  split at h
  · cases h
  · cases h
    rw [leNat_line]
    exact lineNat_lt ..

section
variable {c n off : Nat} {pl : Place} {p : Word} {f : Nat → Option Nat} {s s' w : State} {ks : SMap CoreSt} {a : Author} {bs : List Byte} {x : Nat}

/-- An atomic at home, of a module `s` with the cores `ks` at work. -/
theorem homeAtomic_puts (hw : w = s.dressed ks (some a)) (hl : (w.core c).l1Get (pl.pa / 256) = none) (hwait : s.clsWaits pl.cls pl.pa = false)
    (hmix : s.mixed c pl.pa n = false) (hbs : s.homeBytes pl.pa n pl.key pl.compr = .ok bs) (hx : f (leNat bs) = some x)
    (hput : s.homePut pl.pa pl.key pl.compr (natBytes n x) = .ok s') :
    ∃ t, homeAtomic c pl p off n f w = (.ok (leNat bs), t) ∧ t.mem = s'.mem ∧ t.cores = (w.setCore c (w.core c)).cores := by
  have hw1 : w.setCore c (w.core c) = s.dressed (w.setCore c (w.core c)).cores (some a) := by
    subst hw
    rfl
  have hwaitw : w.clsWaits pl.cls pl.pa = false := by rw [hw]; exact hwait
  generalize hks : (w.setCore c (w.core c)).cores = ks1 at hw1
  have hput1 : (s.dressed ks1 (some a)).homePut pl.pa pl.key pl.compr (natBytes n x) = .ok (s'.dressed ks1 (some a)) := by
    rw [State.homePut, homeWrite_dressed]
    rw [State.homePut] at hput
    rw [hput]
    rfl
  have hhome : (s.dressed ks1 (some a)).atomicHome pl.pa pl.key pl.compr n f =
      .ok (leNat bs, (s'.dressed ks1 (some a)).noted pl.pa pl.key pl.compr (natBytes n x) (wholeBits (natBytes n x))) := by
    rw [State.atomicHome, show (s.dressed ks1 (some a)).homeBytes = s.homeBytes from rfl, hbs]
    simp only [hx, hput1]
  have hm : (((s.dressed ks1 (some a)).author.map Author.mxc).getD false && !isHostPath pl.pa && (s.dressed ks1 (some a)).mixed c pl.pa n) = false := by
    rw [show (s.dressed ks1 (some a)).mixed = s.mixed from rfl, hmix, Bool.and_false]
  refine ⟨((s'.dressed ks1 (some a)).noted pl.pa pl.key pl.compr (natBytes n x) (wholeBits (natBytes n x))).atomicDone c pl.pa n, ?_, ?_, ?_⟩
  · rw [homeAtomic, bind_ok (awaitAt_ready hwaitw), bind_ok (flushLines_absent hl), hw1, run_get_bind]
    simp only [hm, hhome, Bool.false_eq_true, if_false]
    rfl
  · rw [(atomicDone_rest ..).1, noted_mem]
    rfl
  · rw [(atomicDone_rest ..).2, (sameUnits_noted ..).cores]
    rfl

end

section
variable {i : Instr} {o : AmoOp} {h : Hdr} {n off x : Nat} {d c : SReg} {m : MemOp} {sc : BitVec 2} {s s' : State} {b : BitVec 256} {pl : Place} {bs : List Byte}

theorem IsAmo.home (hi : IsAmo i o h n d m c sc) (hq : s.Quiet h) (he : s.eager = true) (hn : 0 < n) (h16 : n ≠ 16) (hsc : sc ≠ 0)
    (hpull : ∀ e lv ad, s.leafAt s.active (bufBase b + off) .at = .leaf e lv ad → ptePull e = false) (hl1 : s.me.l1Get (pl.pa / 256) = none)
    (hwait : s.clsWaits pl.cls pl.pa = false) (hin : Spec.inBuffer s m .at n off b pl) (hmix : s.mixed s.active pl.pa n = false)
    (hbs : s.homeBytes pl.pa n pl.key pl.compr = .ok bs)
    (hx : o.new n (leNat bs) ((amoReq i h n (o == .cas) d m c).started s).operand ((amoReq i h n (o == .cas) d m c).started s).expected = some x)
    (hput : s.homePut pl.pa pl.key pl.compr (natBytes n x) = .ok s') :
    ∃ t, exec i s = .next t ∧ t.mem = s'.mem ∧ (∀ x, x ≠ s.active → t.core x = s.core x) ∧
      t.core s.active = s.me.finished h [.sq] [.s d (BitVec.ofNat 64 (leNat bs))] 0 0 := by
  let r := amoReq i h n (o == .cas) d m c
  have hcq : r.qs.contains .cq = false := rfl
  have hscn : sc.toNat ≠ 0 := fun e => hsc (BitVec.eq_of_toNat_eq e)
  obtain ⟨a, -, hw⟩ := s.atWork_eq hcq
  have hd : s.atWork r = s.dressed (s.setCore s.active (s.me.enqueue r.h (r.entryAt s))).cores (some a) := by
    rw [hw]
    rfl
  obtain ⟨e, hleaf, hleafw⟩ := leafAt_buffer (r := r) hq hcq hin rfl
  have hl : ((s.atWork r).core s.active).l1Get (pl.pa / 256) = none := by rw [CoreSt.l1Get, l1_atWork hcq hq]; exact hl1
  obtain ⟨t, hat, hmem, hcores⟩ := homeAtomic_puts (off := off) (p := ptrAt (s.me.rd m.a) off)
    (f := fun old => o.new n old (r.started s).operand (r.started s).expected) hd hl hwait hmix hbs hx hput
  have hcore : t.core s.active = (s.me.enqueue r.h (r.entryAt s)).putLoc s.me.loc := by
    rw [State.core, hcores, ← CoreSt.enqueue_putLoc, CoreSt.putLoc_self, ← State.core_atWork hcq]
    exact State.core_setCore ..
  have hoth : ∀ y, y ≠ s.active → t.core y = s.core y := by
    intro y hy
    rw [State.core, hcores]
    refine (State.core_setCore_ne _ _ _ _ hy).trans ?_
    rw [hw]
    exact State.core_setCore_ne _ _ _ _ hy
  have hatomic : atomicAt s.active (.glob b) .at (ptrAt (s.me.rd m.a) off) off n sc.toNat (fun old => o.new n old (r.started s).operand (r.started s).expected)
      (s.atWork r) = (.ok (leNat bs), t) := by
    refine (bind_ok (translate_buffer (r := r) hq hcq hin rfl _)).trans ?_
    rw [if_neg hscn]
    exact hat
  have hnopull : pullPage s.active (.glob b) off .at (s.atWork r) = (.ok none, s.atWork r) := by
    rw [pullPage, run_get_bind]
    simp only [hleafw, hpull _ _ _ hleaf, Bool.false_and, Bool.false_eq_true, if_false]
    rfl
  have hwrs : wholeWrs n d (leNat bs) = [.s d (BitVec.ofNat 64 (leNat bs))] := if_neg h16
  have hperf : perform s.active (r.started s) (s.atWork r) = (.ok (.done [.s d (BitVec.ofNat 64 (leNat bs))] 0), t) := by
    rw [hi.work _ _ _ rfl rfl, ← hwrs]
    exact runAmo_here (scalarAddr_buffer (r := r) hq hcq hin hn) hnopull hatomic
  refine ⟨_, (hi.issues hq).trans (issue_finishes (r := r) hq he rfl rfl hperf { t with author := none } hcore (fun _ => rfl) hoth), hmem, fun y hy => ?_, ?_⟩
  · exact (State.core_setCore_ne _ _ _ _ hy).trans (hoth y hy)
  · exact State.core_setCore ..

end

-- ### The obligation

section
variable (h : Hdr) (d x : SReg) (m : MemOp) (sc : BitVec 2)

theorem isAmo_swapsIfEqual : ∀ op ∈ Spec.swapsIfEqual, op.2 ∈ [4, 8] ∧ IsAmo (op.1 h d m x sc) .cas h op.2 d m x sc := by
  simp only [Spec.swapsIfEqual, List.forall_mem_cons, List.not_mem_nil, false_implies, implies_true, and_true]
  exact ⟨⟨by decide, fun _ => rfl, perform_word rfl rfl⟩, ⟨by decide, fun _ => rfl, perform_word rfl rfl⟩⟩

theorem isAmo_casQ : IsAmo (.amoCasQ h d m x sc) .cas h 16 d m x sc := ⟨fun _ => rfl, perform_word rfl rfl⟩
theorem isAmo_faddW : IsAmo (.amoFaddW h d m x sc) .fadd h 4 d m x sc := ⟨fun _ => rfl, perform_word rfl rfl⟩

end

theorem ne_pair_amo {n : Nat} (hn : n ∈ [4, 8]) : n ≠ 16 := by fin_cases hn <;> decide
theorem pos_size_amo {n : Nat} (hn : n ∈ [4, 8]) : 0 < n := by fin_cases hn <;> decide

/-- R194: what a compare-and-swap leaves. -/
theorem getD_cas (n old z y : Nat) : (AmoOp.cas.new n old z y).getD old = if old = y % 256 ^ n then z % 256 ^ n else old := by
  simp only [AmoOp.new, pow_two_bits]
  split <;> rfl

theorem getD_fadd (n old z y : Nat) : (AmoOp.fadd.new n old z y).getD old = addF32 old (z % 2 ^ 32) := by
  simp only [AmoOp.new, natBits, Nat.shiftRight_zero, Option.getD_some]

/-- Settles O32: at a window an atomic reads and writes in place; at home it is the write of the whole result over what its slice reads. -/
theorem atomics : Obligations.Atomics := by
  unfold Obligations.Atomics
  refine ⟨?windows, ?home⟩
  case windows =>
    intro h d c m l sc s off hq he hb
    refine ⟨fun op hop hin => ?_, fun op hop hin => ?_, fun hin => ?_, fun hin => ?_⟩
    · obtain ⟨hn, o, ho, hi, hnew⟩ := isAmo_of_mem h d c m sc op hop
      have hw := hi.window hq he hb (pos_size_amo hn) hin
      dsimp only at hw
      rwa [hnew _ _ _ (winNat_lt ..), operand_narrow _ _ _ _ _ _ _ (ne_pair_amo hn), wholeWrs, if_neg (ne_pair_amo hn)] at hw
    · obtain ⟨hn, hi⟩ := isAmo_swapsIfEqual h d c m sc op hop
      have hw := hi.window hq he hb (pos_size_amo hn) hin
      dsimp only at hw
      rwa [getD_cas, operand_narrow _ _ _ _ _ _ _ (ne_pair_amo hn), show (AmoOp.cas == AmoOp.cas) = true from rfl,
        expected_narrow _ _ _ _ _ _ (ne_pair_amo hn), wholeWrs, if_neg (ne_pair_amo hn)] at hw
    · have hw := (isAmo_casQ h d c m sc).window hq he hb (by decide) hin
      dsimp only at hw
      rwa [getD_cas, operand_pair, show (AmoOp.cas == AmoOp.cas) = true from rfl, expected_pair, Nat.mod_eq_of_lt (pair_lt ..), Nat.mod_eq_of_lt (pair_lt ..),
        wholeWrs, if_pos rfl] at hw
    · have hw := (isAmo_faddW h d c m sc).window hq he hb (by decide) hin
      dsimp only at hw
      rwa [getD_fadd, operand_narrow _ _ _ _ _ _ _ (by decide), wholeWrs, if_neg (by decide)] at hw
  case home =>
    intro h d c m sc s s' off b pl bs hq he hsc hpull hl1 hwait op hop hin hmix hbs hput
    obtain ⟨hn, o, ho, hi, hnew⟩ := isAmo_of_mem h d c m sc op hop
    refine hi.home hq he (pos_size_amo hn) (ne_pair_amo hn) hsc hpull hl1 hwait hin hmix hbs ?_ hput
    rw [hnew _ _ _ (leNat_homeBytes_lt hbs), operand_narrow _ _ _ _ _ _ _ (ne_pair_amo hn)]

end Sys2Proof.Machine

/-! PROOFS. Vector registers by their elements, and the accesses of a vector word to its places in the local windows (R198, R202, R215, R216). -/

namespace Sys2Proof.Machine

-- ### Elements of registers (R198, R202)

section
variable (w : Nat)

/-- The number of the first `n` elements. -/
def elemsNat (n : Nat) (f : Nat → Nat) : Nat := (upTo n).foldl (fun acc i => acc + atBit (f i % 2 ^ w) (w * i)) 0

theorem elemsNat_succ (n : Nat) (f : Nat → Nat) : elemsNat w (n + 1) f = elemsNat w n f + f n % 2 ^ w * 2 ^ (w * n) := by
  have hs : upTo (n + 1) = upTo n ++ [n] := List.range_succ
  rw [elemsNat, hs, List.foldl_append, List.foldl_cons, List.foldl_nil, atBit, Nat.shiftLeft_eq]
  rfl

theorem elemsNat_lt (n : Nat) (f : Nat → Nat) : elemsNat w n f < 2 ^ (w * n) := by
  induction n with
  | zero => simp [elemsNat, upTo]
  | succ n ih =>
    have hb : f n % 2 ^ w < 2 ^ w := Nat.mod_lt _ (Nat.two_pow_pos w)
    rw [elemsNat_succ, Nat.mul_succ, pow_add]
    nlinarith

theorem elemsNat_elem (n : Nat) (f : Nat → Nat) (i : Nat) (hi : i < n) : elemsNat w n f / 2 ^ (w * i) % 2 ^ w = f i % 2 ^ w := by
  induction n with
  | zero => omega
  | succ n ih =>
    have hpos : 0 < 2 ^ (w * i) := Nat.two_pow_pos _
    rw [elemsNat_succ]
    rcases Nat.lt_succ_iff_lt_or_eq.1 hi with h | rfl
    · obtain ⟨d, rfl⟩ : ∃ d, n = i + 1 + d := ⟨n - (i + 1), by omega⟩
      have hp : 2 ^ (w * (i + 1 + d)) = 2 ^ (w * i) * (2 ^ w * 2 ^ (w * d)) := by rw [← pow_add, ← pow_add]; congr 1; ring
      rw [hp, show f (i + 1 + d) % 2 ^ w * (2 ^ (w * i) * (2 ^ w * 2 ^ (w * d))) = 2 ^ (w * i) * (2 ^ w * (f (i + 1 + d) % 2 ^ w * 2 ^ (w * d))) by ring,
        Nat.add_mul_div_left _ _ hpos, Nat.add_mul_mod_self_left, ih h]
    · rw [Nat.add_mul_div_right _ _ hpos, Nat.div_eq_of_lt (elemsNat_lt ..), Nat.zero_add, Nat.mod_mod]

theorem elem_eq (x : BitVec 2048) (i : Nat) : Spec.elem x w i = x.toNat / 2 ^ (w * i) % 2 ^ w := by
  rw [Spec.elem, BitVec.extractLsb'_toNat, Nat.shiftRight_eq_div_pow]

theorem vget_eq (x : BitVec 2048) (i : Nat) : vget x w i = Spec.elem x w i := by
  rw [elem_eq, vget, fld, natBits, Nat.shiftRight_eq_div_pow]

theorem elem_lt (x : BitVec 2048) (i : Nat) : Spec.elem x w i < 2 ^ w := BitVec.isLt _

variable {n : Nat} (hn : w * n ≤ 2048)
include hn

theorem elem_vmake (f : Nat → Nat) (i : Nat) (hi : i < n) : Spec.elem (vmake w n f) w i = f i % 2 ^ w := by
  have hlt := lt_of_lt_of_le (elemsNat_lt w n f) (Nat.pow_le_pow_right Nat.two_pos hn)
  have ht : (vmake w n f).toNat = elemsNat w n f := by
    change (BitVec.ofNat 2048 (elemsNat w n f)).toNat = _
    rw [BitVec.toNat_ofNat, Nat.mod_eq_of_lt hlt]
  rw [elem_eq, ht, elemsNat_elem _ _ _ _ hi]

theorem extractLsb'_vmask (p : Nat → Bool) (i : Nat) (hi : i < n) :
    (vmask w n p).extractLsb' (w * i) w = if p i then BitVec.allOnes w else 0#w := by
  have he := elem_vmake w hn (fun i => if p i then 2 ^ w - 1 else 0) i hi
  apply BitVec.eq_of_toNat_eq
  change Spec.elem (vmask w n p) w i = _
  rw [vmask, he]
  have := Nat.two_pow_pos w
  split
  · rw [BitVec.toNat_allOnes, Nat.mod_eq_of_lt (by omega)]
  · exact Nat.zero_mod _

/-- R202: what a write under a mask leaves of an element. -/
theorem elem_mergeBits (old x : BitVec 2048) (p : Nat → Bool) (i : Nat) (hi : i < n) :
    Spec.elem (mergeBits old x (vmask w n p)) w i = if p i then Spec.elem x w i else Spec.elem old w i := by
  have hle : w * i + w ≤ 2048 := by
    have h := Nat.mul_le_mul_left w (show i + 1 ≤ n from hi)
    rw [Nat.mul_succ] at h
    omega
  have hm : (mergeBits old x (vmask w n p)).extractLsb' (w * i) w =
      mergeBits (old.extractLsb' (w * i) w) (x.extractLsb' (w * i) w) ((vmask w n p).extractLsb' (w * i) w) := by
    apply BitVec.eq_of_getLsbD_eq
    intro j hj
    have h1 : w * i + j < 2048 := by omega
    simp [mergeBits, hj, h1]
  rw [Spec.elem, hm, extractLsb'_vmask w hn p i hi]
  split
  · simp [mergeBits, Spec.elem]
  · simp [mergeBits, Spec.elem]

end

/-- R202: a vector register after the write of a word. -/
theorem elem_vres (k : CoreSt) (o : VOpt) (w n : Nat) (hn : w * n ≤ 2048) (old : BitVec 2048) (f : Nat → Nat) (i : Nat) (hi : i < n)
    (hf : k.active o i = true → f i < 2 ^ w) :
    Spec.elem (mergeBits old (vmake w n (fun i => if k.active o i then f i else 0)) (vmask w n (fun i => k.active o i || o.zm))) w i =
      if k.active o i then f i else if o.zm then 0 else Spec.elem old w i := by
  rw [elem_mergeBits w hn _ _ _ _ hi, elem_vmake w hn _ _ hi]
  cases h : k.active o i with
  | true => simp [Nat.mod_eq_of_lt (hf h)]
  | false => simp

theorem finished_rdV (k : CoreSt) (h : Hdr) (qs : List QId) (d : VReg) (y m : BitVec 2048) (td : SReg) (w : Word) :
    (k.finished h qs [.v d y m] td w).rdV d = mergeBits (k.rdV d) y m := by
  have h1 : ∀ g : CoreSt, g.eng = ((k.next h).wrV d (mergeBits ((k.next h).rdV d) y m)).eng → g.rdV d = mergeBits ((k.next h).rdV d) y m := by
    intro g hg
    rw [CoreSt.rdV, hg]
    exact CoreSt.rdV_wrV ..
  have h2 : (k.next h).rdV d = k.rdV d := by rw [CoreSt.rdV, CoreSt.next_eng, CoreSt.rdV]
  rw [← h2]
  exact h1 _ (CoreSt.wr_eng _ td w)

theorem active_eq (k : CoreSt) (o : VOpt) (i : Nat) : k.active o i = Spec.laneOn k o i := rfl
theorem ety_w (t : Ety) : t.w = Spec.width t := by cases t <;> rfl

end Sys2Proof.Machine

/-! PROOFS. The accesses of a vector word to its places in the local windows (R215, R216). -/

namespace Sys2Proof.Machine

-- ### Checks and reads

/-- The elements `is` of a vector access lie, aligned, in what the core may reach of a local window, at the offsets `off`. -/
structure VAcc.InWindow (v : VAcc) (s : State) (l : Loc) (off : Nat → Nat) (is : List Nat) : Prop where
  idx : Spec.idx v.ptr = Spec.winIdx l
  pos : 0 < v.es
  off : ∀ i ∈ is, v.off i = off i ∧ off i % v.es = 0 ∧ Spec.inWindow s l (off i) v.es

section
variable {v : VAcc} {s t : State} {l : Loc} {off : Nat → Nat} {i : Nat} {is : List Nat} {a : Acc}

theorem VAcc.InWindow.tail (h : v.InWindow s l off (i :: is)) : v.InWindow s l off is :=
  ⟨h.idx, h.pos, fun j hj => h.off j (List.mem_cons_of_mem _ hj)⟩

theorem VAcc.InWindow.edits (h : v.InWindow s l off is) (he : s.Edits t) : v.InWindow t l off is :=
  ⟨h.idx, h.pos, fun j hj => ⟨(h.off j hj).1, (h.off j hj).2.1, he.inWindow (h.off j hj).2.2⟩⟩

theorem VAcc.InWindow.near (h : v.InWindow s l off (i :: is)) (hl : l ≠ .lane) : l.near := near_of_inWindow hl (h.off i (List.mem_cons_self ..)).2.2

theorem check_true {b : Bool} (hb : b = true) (c : Cause) (p : Word) : check b c p s = (.ok (), s) := by
  rw [hb]
  rfl

theorem checkSpan_vec (h : v.InWindow s l off (i :: is)) (ha : l = .lane → a ≠ .at) (p : Word) (hp : Spec.idx p = Spec.idx v.ptr) {hi : Int}
    (hhi : hi = off i + v.es - 1) : checkSpan s.active .vec a p (off i) hi s = (.ok l, s) := by
  obtain ⟨-, -, hw⟩ := h.off i (List.mem_cons_self ..)
  exact checkSpan_window (hp.trans h.idx) hw h.pos (by omega) (fun e => ⟨rfl, ha e⟩)

/-- R216: the checks of elements that may be reached. -/
theorem vchecks_window {lane : Bool} (h : v.InWindow s l off is) (ha : l = .lane → lane = true ∧ a ≠ .at) : vchecks s.active a lane v is s = (.ok (), s) := by
  induction is with
  | nil => rfl
  | cons i is ih =>
    obtain ⟨ho, hal, hw⟩ := h.off i (List.mem_cons_self ..)
    have h48 := lt_of_inWindow hw
    have hpos := h.pos
    have hp : Spec.idx (mkPtr (ptrIndex v.ptr) (wrapInt 48 (off i))) = Spec.idx v.ptr := idx_ptrAt v.ptr (wrapInt 48 (off i))
    have hlane : (lane || ptrIndex (mkPtr (ptrIndex v.ptr) (wrapInt 48 (off i))) != 0xFFF3) = true := by
      by_cases hl : l = .lane
      · rw [(ha hl).1, Bool.true_or]
      · have hne : (Spec.winIdx l).toNat ≠ 0xFFF3 := by
          rcases near_of_inWindow hl hw with rfl | rfl | rfl <;> decide
        rw [ptrIndex_eq, hp, h.idx, bne_iff_ne.2 hne, Bool.or_true]
    rw [vchecks]
    simp only [ho]
    rw [bind_ok (check_true (by simp only [Bool.and_eq_true, decide_eq_true_eq]; omega) ..), bind_ok (check_true hlane ..),
      bind_ok (checkSpan_vec h (fun e => (ha e).2) _ hp rfl), bind_ok (check_true (by rw [Int.toNat_natCast, hal]; rfl) ..)]
    exact ih h.tail

/-- R65: a byte of a lane's own store. -/
theorem laneByte_eq (s : State) (lane off : Nat) : s.me.laneByte lane off = Spec.spaceByte s .lane (Spec.place s .lane lane off) := rfl

theorem vread_window (h : v.InWindow s l off (i :: is)) (hb : s.lbad = []) (lane : Nat) :
    vread s.active v lane i s = (.ok (Spec.leAt (Spec.spaceByte s l) (Spec.place s l lane (off i)) v.es), s) := by
  have hpos := h.pos
  have hs := checkSpan_vec (a := .rd) h (fun _ => by decide) (ptrAt v.ptr (off i)) (idx_ptrAt ..) (hi := (off i + v.es - 1 : Nat)) (by omega)
  rw [vread]
  simp only [(h.off i (List.mem_cons_self ..)).1, Int.toNat_natCast]
  rw [bind_ok hs]
  by_cases hl : l = .lane
  · subst hl
    have hbytes : leNat ((upTo v.es).map (fun j => s.me.laneByte lane (off i + j))) =
        Spec.leAt (Spec.spaceByte s .lane) (Spec.place s .lane lane (off i)) v.es := by
      rw [leNat_map_upTo (fun a => s.me.laneByte lane a)]
      exact leAt_congr fun j _ => by rw [laneByte_eq, place_add]
    rw [← hbytes]
    rfl
  · have hr := readAt_near (h.near hl) hb (ptrAt v.ptr (off i)) (off i) v.es
    rw [← leNat_localBytes (h.near hl)]
    rcases h.near hl with rfl | rfl | rfl <;> exact (bind_ok hr).trans rfl

theorem vreads_window (h : v.InWindow s l off is) (hb : s.lbad = []) (w : Nat) : ∃ xs, vreads s.active v w is s = (.ok xs, s) ∧
    ∀ i ∈ is, SMap.get 0 xs i = Spec.leAt (Spec.spaceByte s l) (Spec.place s l (i * w / 32) (off i)) v.es := by
  induction is with
  | nil => exact ⟨[], rfl, fun _ hi => absurd hi List.not_mem_nil⟩
  | cons i is ih =>
    obtain ⟨xs, hx, hxs⟩ := ih h.tail
    refine ⟨SMap.set 0 xs i _, (bind_ok (vread_window h hb (i * w / 32))).trans (bind_ok hx), fun j hj => ?_⟩
    rw [SMap.get_set]
    by_cases he : j = i
    · rw [if_pos he, he]
    · rw [if_neg he]
      exact hxs j ((List.mem_cons.1 hj).resolve_left he)

-- ### Writes

/-- A core with another lane store. -/
def CoreSt.putLane (k : CoreSt) (m : SMap Byte) : CoreSt := { k with loc := { k.loc with lane := m } }

/-- Bytes set in a lane store from a place on. -/
def setRun (m : SMap Byte) (p : Nat) (bs : List Byte) : Nat → SMap Byte := fun n => (bs.zipIdx n).foldl (fun m b => SMap.set 0 m (p + b.2) b.1) m

theorem foldl_setLaneByte (k : CoreSt) (lane off : Nat) (bs : List Byte) (n : Nat) :
    (bs.zipIdx n).foldl (fun k b => k.setLaneByte lane (off + b.2) b.1) k = k.putLane (setRun k.loc.lane (2048 * lane + off) bs n) := by
  induction bs generalizing k n with
  | nil => rfl
  | cons b bs ih =>
    have h : k.setLaneByte lane (off + n) b = k.putLane (SMap.set 0 k.loc.lane (2048 * lane + off + n) b) := by
      rw [CoreSt.setLaneByte, ← Nat.add_assoc]
      rfl
    rw [List.zipIdx_cons, List.foldl_cons, ih, setRun, setRun, List.zipIdx_cons, List.foldl_cons, h]
    rfl

theorem get_setRun (m : SMap Byte) (p : Nat) (bs : List Byte) (n a : Nat) :
    SMap.get 0 (setRun m p bs n) a = if p + n ≤ a ∧ a < p + n + bs.length then bs.getD (a - (p + n)) 0 else SMap.get 0 m a := by
  induction bs generalizing m n with
  | nil => rw [if_neg (by simp)]; rfl
  | cons b bs ih =>
    have hset : setRun m p (b :: bs) n = setRun (SMap.set 0 m (p + n) b) p bs (n + 1) := by
      rw [setRun, setRun, List.zipIdx_cons, List.foldl_cons]
    rw [hset, ih, SMap.get_set, List.length_cons]
    by_cases h0 : a = p + n
    · subst h0
      rw [if_neg (by omega), if_pos rfl, if_pos (by omega), Nat.sub_self, List.getD_cons_zero]
    · rw [if_neg h0]
      by_cases h1 : p + (n + 1) ≤ a ∧ a < p + (n + 1) + bs.length
      · rw [if_pos h1, if_pos (by omega), show a - (p + n) = (a - (p + (n + 1))) + 1 by omega, List.getD_cons_succ]
      · rw [if_neg h1, if_neg (by omega)]

/-- R65: bytes written to a lane store from an offset on. -/
theorem setLaneBytes_run (s : State) (lane off : Nat) (bs : List Byte) :
    s.WroteRun (s.modCore s.active fun k => bs.zipIdx.foldl (fun k b => k.setLaneByte lane (off + b.2) b.1) k) .lane (Spec.place s .lane lane off) bs := by
  have hf : ∀ k : CoreSt, bs.zipIdx.foldl (fun k b => k.setLaneByte lane (off + b.2) b.1) k = k.putLane (setRun k.loc.lane (2048 * lane + off) bs 0) :=
    fun k => foldl_setLaneByte k lane off bs 0
  simp only [hf]
  refine ⟨edits_modCore rfl, fun l' a => ?_⟩
  have hme : (s.modCore s.active fun k => k.putLane (setRun k.loc.lane (2048 * lane + off) bs 0)).me =
      s.me.putLane (setRun s.me.loc.lane (2048 * lane + off) bs 0) := State.core_modCore ..
  cases l' with
  | lane =>
    rw [Spec.spaceByte, hme]
    change SMap.get 0 (setRun s.me.loc.lane (2048 * lane + off) bs 0) a = _
    rw [get_setRun]
    simp only [Spec.place, Spec.spaceByte, true_and, Nat.add_zero]
  | croft =>
    rw [if_neg (fun e => Loc.noConfusion e.1)]
    change (s.modCore s.active fun k => k.putLane (setRun k.loc.lane (2048 * lane + off) bs 0)).me.storeByte s.active a = s.me.storeByte s.active a
    rw [hme]
    rfl
  | _ =>
    rw [if_neg (fun e => Loc.noConfusion e.1)]
    rfl

theorem vwrite_window (h : v.InWindow s l off (i :: is)) (lane x : Nat) :
    ∃ t, vwrite s.active v lane i x s = (.ok (), t) ∧ s.WroteRun t l (Spec.place s l lane (off i)) (natBytes v.es x) := by
  have hpos := h.pos
  have hs := checkSpan_vec (a := .wr) h (fun _ => by decide) (ptrAt v.ptr (off i)) (idx_ptrAt ..) (hi := (off i + v.es - 1 : Nat)) (by omega)
  rw [vwrite]
  simp only [(h.off i (List.mem_cons_self ..)).1, Int.toNat_natCast]
  rw [bind_ok hs]
  by_cases hl : l = .lane
  · subst hl
    exact ⟨_, rfl, setLaneBytes_run ..⟩
  · have hw := writeAt_near (s := s) (h.near hl) (ptrAt v.ptr (off i)) (off i) (natBytes v.es x)
    have hrun := localPut_run (s := s) (h.near hl) lane (off i) (natBytes v.es x)
    rcases h.near hl with rfl | rfl | rfl <;> exact ⟨_, hw, hrun⟩

theorem vwrites_window (h : v.InWindow s l off is) (w : Nat) (f : Nat → Nat)
    (hd : is.Pairwise fun i j => Spec.place s l (i * w / 32) (off i) + v.es ≤ Spec.place s l (j * w / 32) (off j) ∨
      Spec.place s l (j * w / 32) (off j) + v.es ≤ Spec.place s l (i * w / 32) (off i)) :
    ∃ t, vwrites s.active v w f is s = (.ok (), t) ∧ s.WroteElems t l v.es (fun i => Spec.place s l (i * w / 32) (off i)) f is := by
  induction is generalizing s with
  | nil => exact ⟨s, rfl, .nil⟩
  | cons i is ih =>
    obtain ⟨hi, hd⟩ := List.pairwise_cons.1 hd
    obtain ⟨t, ht, hrun⟩ := vwrite_window h (i * w / 32) (f i)
    have hp : ∀ lane o, Spec.place t l lane o = Spec.place s l lane o := hrun.edits.place l
    obtain ⟨u, hu, he⟩ := ih (h.tail.edits hrun.edits) (by simp only [hp]; exact hd)
    simp only [hp] at he
    rw [hrun.edits.active] at hu
    exact ⟨u, (bind_ok ht).trans hu, .cons hrun hi he⟩

end

end Sys2Proof.Machine

/-! PROOFS. Vector loads and stores at a core at rest (R215, R216). -/

namespace Sys2Proof.Machine

-- ### What a vector entry sees of its core

theorem perform_vec {i : Instr} {p : Perf} (hu : i.unit6 = .vec) (hp : performVec i = p) (c : Nat) (e : Entry) (s : State) (ha : e.adj = false)
    (he : e.op = i) : perform c e s = p c e s := by
  subst hp he
  rw [perform, run_getCore_bind]
  simp only [ha, hu, Bool.false_eq_true, if_false]

section
variable {r : Req} {s : State}

theorem seen_self (k : CoreSt) (e : Entry) (a : Bool) (x y : Nat) (he : e.start = some ⟨k.eng.v, k.eng.m, a, x, y⟩) : e.seen k = k := by
  rw [Entry.seen, he]

/-- R199: an entry that starts sees the registers as they are. -/
theorem seen_started (hcq : r.qs.contains .cq = false) : (r.started s).seen ((s.atWork r).core s.active) = s.me.enqueue r.h (r.entryAt s) := by
  rw [State.core_atWork hcq]
  have hc : (s.entered r).core s.active = s.me.enqueue r.h (r.entryAt s) := State.core_setCore ..
  refine seen_self _ _ (((s.entered r).core s.active).ctl.dbgctl.getLsbD 0) ((s.entered r).capsOf s.active).1 ((s.entered r).capsOf s.active).2 ?_
  rw [← hc]
  rfl

theorem rdV_enqueue (hq : s.Quiet r.h) (d : VReg) : (s.me.enqueue r.h (r.entryAt s)).rdV d = s.me.rdV d := by
  rw [CoreSt.rdV, (hq.enqueue_same _).eng, CoreSt.rdV]

theorem active_enqueue (hq : s.Quiet r.h) (o : VOpt) (i : Nat) : (s.me.enqueue r.h (r.entryAt s)).active o i = Spec.laneOn s.me o i := by
  have hm : (s.me.enqueue r.h (r.entryAt s)).rdM o.mreg = s.me.rdM o.mreg := by rw [CoreSt.rdM, (hq.enqueue_same _).eng, CoreSt.rdM]
  rw [active_eq, Spec.laneOn, Spec.laneOn, hm]

end

theorem mem_actives {k : CoreSt} {o : VOpt} {n i : Nat} : i ∈ k.actives o n ↔ i < n ∧ k.active o i = true := by
  rw [CoreSt.actives, List.mem_filter, upTo, List.mem_range]

theorem pairwise_actives {k : CoreSt} {o : VOpt} {n : Nat} {p : Nat → Nat → Prop} (hp : ∀ i < n, ∀ j < i, k.active o i = true → k.active o j = true → p j i) :
    (k.actives o n).Pairwise p := by
  have hlt : (k.actives o n).Pairwise (· < ·) := List.Pairwise.filter _ List.pairwise_lt_range
  refine hlt.imp_of_mem fun {i j} hi hj hij => ?_
  obtain ⟨-, hi⟩ := mem_actives.1 hi
  obtain ⟨hjn, hj⟩ := mem_actives.1 hj
  exact hp j hjn i hij hj hi

-- ### Loads and stores once their places are known

section
variable {v : VAcc} {t : State} {l : Loc} {off : Nat → Nat} {o : VOpt} {d : VReg} {e : Entry} {k : CoreSt} {item : List Byte}

theorem pushItem_none {c : Nat} (he : e.aux = 0) (bs : List Byte) : pushItem c e bs t = (.ok (), t) := by
  rw [pushItem, if_pos he]
  rfl

theorem vload_window (hk : e.seen t.me = k) (he : e.aux = 0) (hv : v.InWindow t l off (k.actives o o.ety.n)) (hb : t.lbad = []) : ∃ xs,
    vload o d v item t.active e t = (.ok (.done [k.vres o d o.ety.w o.ety.n (fun i => SMap.get 0 xs i)] 0x800000), t) ∧
    ∀ i ∈ k.actives o o.ety.n, SMap.get 0 xs i = Spec.leAt (Spec.spaceByte t l) (Spec.place t l (i * o.ety.w / 32) (off i)) v.es := by
  obtain ⟨xs, hx, hxs⟩ := vreads_window hv hb o.ety.w
  refine ⟨xs, ?_, hxs⟩
  have hs : e.seen (t.core t.active) = k := hk
  rw [vload, run_getCore_bind, hs, bind_ok (pushItem_none he _), bind_ok (vchecks_window hv (fun _ => ⟨rfl, by decide⟩)), bind_ok hx]
  rfl

theorem vstore_window {f : CoreSt → Nat → Nat} (hk : e.seen t.me = k) (he : e.aux = 0) (hm : e.muted = false)
    (hv : v.InWindow t l off (k.actives o o.ety.n))
    (hd : (k.actives o o.ety.n).Pairwise fun i j => Spec.place t l (i * o.ety.w / 32) (off i) + v.es ≤ Spec.place t l (j * o.ety.w / 32) (off j) ∨
      Spec.place t l (j * o.ety.w / 32) (off j) + v.es ≤ Spec.place t l (i * o.ety.w / 32) (off i)) : ∃ u,
    vstore o v f item t.active e t = (.ok (.done [] 0x800000), u) ∧
    t.WroteElems u l v.es (fun i => Spec.place t l (i * o.ety.w / 32) (off i)) (f k) (k.actives o o.ety.n) := by
  obtain ⟨u, hu, hw⟩ := vwrites_window hv o.ety.w (f k) hd
  refine ⟨u, ?_, hw⟩
  have hs : e.seen (t.core t.active) = k := hk
  rw [vstore, run_getCore_bind, hs, bind_ok (pushItem_none he _)]
  simp only [hm, Bool.false_eq_true, if_false]
  rw [bind_ok (vchecks_window hv (fun _ => ⟨rfl, by decide⟩)), bind_ok hu]
  rfl

end

-- ### The words

/-- What a vector load and a vector store ask of the queues. -/
def vldReq (i : Instr) (h : Hdr) (tk : Toks) (srcs : List SReg) (item : List Handle → Nat) : Req :=
  { op := i, h := h, t := tk, qs := [.lq], srcs := srcs, near := nearBase, item := item }
def vstReq (i : Instr) (h : Hdr) (tk : Toks) (srcs : List SReg) (seed : Option SReg) (item : List Handle → Nat) : Req :=
  { op := i, h := h, t := tk, qs := [.sq], srcs := srcs, near := nearBase, effect := true, item := item, seed := seed }

/-- `i` issues as a vector load whose elements lie where `v` says; as a vector store of the elements `f`. -/
def IsVld (i : Instr) (h : Hdr) (tk : Toks) (o : VOpt) (d : VReg) (s : State) (v : VAcc) : Prop :=
  ∃ srcs n, exec i s = issue perform (vldReq i h tk srcs n) s ∧
    ∃ item, perform s.active ((vldReq i h tk srcs n).started s) (s.atWork (vldReq i h tk srcs n)) =
      vload o d v item s.active ((vldReq i h tk srcs n).started s) (s.atWork (vldReq i h tk srcs n))
def IsVst (i : Instr) (h : Hdr) (tk : Toks) (o : VOpt) (f : CoreSt → Nat → Nat) (s : State) (v : VAcc) : Prop :=
  ∃ srcs seed n, exec i s = issue perform (vstReq i h tk srcs seed n) s ∧
    ∃ item, perform s.active ((vstReq i h tk srcs seed n).started s) (s.atWork (vstReq i h tk srcs seed n)) =
      vstore o v f item s.active ((vstReq i h tk srcs seed n).started s) (s.atWork (vstReq i h tk srcs seed n))

section
variable {h : Hdr} {tk : Toks} {o : VOpt} {d : VReg} {a b : SReg} {disp : BitVec 16} {s : State}

/-- A vector access reaches from the register `a` the places that `p` says. -/
structure VAcc.Reaches (v : VAcc) (s : State) (t : Ety) (a b : SReg) (disp : BitVec 16) (p : Spec.Pattern) : Prop where
  ptr : v.ptr = s.me.rd a
  es : v.es = Spec.width t / 8
  off : ∀ i, v.off i = Spec.elemOff s t a b disp p i

theorem linOff_reaches : (linOff (s.me.rd a) (s.me.rd b) disp (o.ety.w / 8)).Reaches s o.ety a b disp .line := by
  refine ⟨rfl, by rw [← ety_w]; rfl, fun i => ?_⟩
  rw [linOff, ptrOffset_eq, ety_w]
  rfl

theorem strideOff_reaches : (strideOff (s.me.rd a) (s.me.rd b) disp (o.ety.w / 8)).Reaches s o.ety a b disp .stride := by
  refine ⟨rfl, by rw [← ety_w]; rfl, fun i => ?_⟩
  rw [strideOff, ptrOffset_eq]
  rfl

theorem indexOff_reaches (v : VReg) : (indexOff (s.me.rd a) o.ety (s.me.rdV v) disp).Reaches s o.ety a b disp (.index v) := by
  have hx : ∀ i, (if o.ety.w = 32 then sextNat (vget (s.me.rdV v) 32 i) 32 else (vget (s.me.rdV v) 16 i : Int)) =
      if Spec.width o.ety = 32 then (BitVec.ofNat 32 (Spec.elem (s.me.rdV v) (Spec.width o.ety) i)).toInt
      else (Spec.elem (s.me.rdV v) (Spec.width o.ety) i : Int) := by
    intro i
    rw [vget_eq, vget_eq, ety_w]
    cases o.ety <;> simp [Spec.width, toInt_ofNat]
  refine ⟨rfl, by rw [← ety_w]; rfl, fun i => ?_⟩
  rw [indexOff, ptrOffset_eq]
  simp only [hx]
  rw [ety_w]
  rfl

theorem runVld_eq (c : Nat) (e : Entry) (t : State) : runVld o d disp c e t = vload o d (linOff (e.x 0) (e.x 1) disp (o.ety.w / 8))
    (ptrItem (linOff (e.x 0) (e.x 1) disp (o.ety.w / 8)) ++ (e.seen (t.core c)).maskItem o) c e t := by
  unfold runVld
  rw [run_getCore_bind]

theorem runVst_eq (c : Nat) (e : Entry) (t : State) : runVst o d disp c e t = vstore o (linOff (e.x 0) (e.x 1) disp (o.ety.w / 8))
    (fun k i => vget (k.rdV d) o.ety.w i) (ptrItem (linOff (e.x 0) (e.x 1) disp (o.ety.w / 8)) ++ (e.seen (t.core c)).maskItem o) c e t := by
  unfold runVst
  rw [run_getCore_bind]

theorem runVgath_eq (v : VReg) (c : Nat) (e : Entry) (t : State) : runVgath o d v disp c e t =
    vload o d (indexOff (e.x 0) o.ety ((e.seen (t.core c)).rdV v) disp) [] c e t := by
  unfold runVgath
  rw [run_getCore_bind]

theorem runVscat_eq (v : VReg) (c : Nat) (e : Entry) (t : State) : runVscat o d v disp c e t =
    vstore o (indexOff (e.x 0) o.ety ((e.seen (t.core c)).rdV v) disp) (fun k i => vget (k.rdV d) o.ety.w i) [] c e t := by
  unfold runVscat
  rw [run_getCore_bind]

theorem isVld_vld : IsVld (.vld h tk o d a b disp) h tk o d s (linOff (s.me.rd a) (s.me.rd b) disp (o.ety.w / 8)) :=
  ⟨[a, b], itemIn (.vld h tk o d a b disp) s, rfl, _, (perform_vec rfl rfl _ _ _ rfl rfl).trans (runVld_eq ..)⟩

theorem isVld_vlds : IsVld (.vlds h tk o d a b disp) h tk o d s (strideOff (s.me.rd a) (s.me.rd b) disp (o.ety.w / 8)) :=
  ⟨[a, b], itemIn (.vlds h tk o d a b disp) s, rfl, [], perform_vec (p := runVlds o d disp) rfl rfl _ _ _ rfl rfl⟩

theorem isVld_vgath (v : VReg) (hq : s.Quiet h) : IsVld (.vgath h tk o d a v disp) h tk o d s (indexOff (s.me.rd a) o.ety (s.me.rdV v) disp) := by
  refine ⟨[a], itemIn (.vgath h tk o d a v disp) s, rfl, [], (perform_vec (p := runVgath o d v disp) rfl rfl _ _ _ rfl rfl).trans ?_⟩
  rw [runVgath_eq, seen_started rfl, rdV_enqueue hq]
  rfl

theorem isVst_vst : IsVst (.vst h tk o d a b disp) h tk o (fun k i => vget (k.rdV d) o.ety.w i) s (linOff (s.me.rd a) (s.me.rd b) disp (o.ety.w / 8)) :=
  ⟨[a, b], none, itemIn (.vst h tk o d a b disp) s, rfl, _, (perform_vec rfl rfl _ _ _ rfl rfl).trans (runVst_eq ..)⟩

theorem isVst_vsts : IsVst (.vsts h tk o d a b disp) h tk o (fun k i => vget (k.rdV d) o.ety.w i) s
    (strideOff (s.me.rd a) (s.me.rd b) disp (o.ety.w / 8)) :=
  ⟨[a, b], none, itemIn (.vsts h tk o d a b disp) s, rfl, [], perform_vec (p := runVsts o d disp) rfl rfl _ _ _ rfl rfl⟩

theorem isVst_vscat (v : VReg) (hq : s.Quiet h) : IsVst (.vscat h tk o d a v disp) h tk o (fun k i => vget (k.rdV d) o.ety.w i) s
    (indexOff (s.me.rd a) o.ety (s.me.rdV v) disp) := by
  refine ⟨[a], none, itemIn (.vscat h tk o d a v disp) s, rfl, [], (perform_vec (p := runVscat o d v disp) rfl rfl _ _ _ rfl rfl).trans ?_⟩
  rw [runVscat_eq, seen_started rfl, rdV_enqueue hq]
  rfl

theorem isVld_of_mem (v : VReg) (hq : s.Quiet h) : ∀ x ∈ Spec.vectorLoads h tk o d v a b disp, ∃ w : VAcc, w.Reaches s o.ety a b disp x.2 ∧ IsVld x.1 h tk o d s w := by
  simp only [Spec.vectorLoads, List.forall_mem_cons, List.not_mem_nil, false_implies, implies_true, and_true]
  exact ⟨⟨_, linOff_reaches, isVld_vld⟩, ⟨_, strideOff_reaches, isVld_vlds⟩, ⟨_, indexOff_reaches v, isVld_vgath v hq⟩⟩

theorem isVst_of_mem (v : VReg) (hq : s.Quiet h) : ∀ x ∈ Spec.vectorStores h tk o d v a b disp, ∃ w : VAcc, w.Reaches s o.ety a b disp x.2 ∧
    IsVst x.1 h tk o (fun k i => vget (k.rdV d) o.ety.w i) s w := by
  simp only [Spec.vectorStores, List.forall_mem_cons, List.not_mem_nil, false_implies, implies_true, and_true]
  exact ⟨⟨_, linOff_reaches, isVst_vst⟩, ⟨_, strideOff_reaches, isVst_vsts⟩, ⟨_, indexOff_reaches v, isVst_vscat v hq⟩⟩

end

-- ### What the words leave

section
variable {h : Hdr} {tk : Toks} {o : VOpt} {d : VReg} {s : State} {v : VAcc} {l : Loc} {off : Nat → Nat} {i : Instr} {r : Req}

theorem VAcc.InWindow.atWork {is js : List Nat} (hv : v.InWindow s l off is) (hq : s.Quiet r.h) (hcq : r.qs.contains .cq = false) (hj : ∀ j ∈ js, j ∈ is) :
    v.InWindow (s.atWork r) l off js :=
  ⟨hv.idx, hv.pos, fun j hm => ⟨(hv.off j (hj j hm)).1, (hv.off j (hj j hm)).2.1, State.inWindow_atWork hcq hq (hv.off j (hj j hm)).2.2⟩⟩

theorem actives_enqueue (hq : s.Quiet r.h) (n : Nat) : (s.me.enqueue r.h (r.entryAt s)).actives o n = s.me.actives o n := by
  have hf : (s.me.enqueue r.h (r.entryAt s)).active o = s.me.active o := funext fun i => active_enqueue hq o i
  rw [CoreSt.actives, hf, CoreSt.actives]

theorem me_seen (hcq : r.qs.contains .cq = false) : (r.started s).seen (s.atWork r).me = s.me.enqueue r.h (r.entryAt s) := by
  rw [State.me, State.active_atWork hcq, seen_started hcq]

theorem leAt_atWork (hq : s.Quiet r.h) (hcq : r.qs.contains .cq = false) (p n : Nat) :
    Spec.leAt (Spec.spaceByte (s.atWork r) l) p n = Spec.leAt (Spec.spaceByte s l) p n :=
  leAt_congr fun _ _ => State.spaceByte_atWork hcq hq l _

/-- R202, R215: vD after a vector load. -/
theorem IsVld.window (hi : IsVld i h tk o d s v) (hq : s.Quiet h) (he : s.eager = true) (hb : s.lbad = []) (hes : v.es = Spec.width o.ety / 8)
    (hv : v.InWindow s l off (s.me.actives o o.ety.n)) :
    ∃ y m : BitVec 2048, exec i s = .next (s.setCore s.active (s.me.finished h [.lq] [.v d y m] tk.td 0x800000)) ∧
      ∀ i < o.ety.n, Spec.elem (mergeBits (s.me.rdV d) y m) o.ety.w i = if Spec.laneOn s.me o i then
        Spec.leAt (Spec.spaceByte s l) (Spec.place s l (i * o.ety.w / 32) (off i)) v.es else if o.zm then 0 else Spec.elem (s.me.rdV d) o.ety.w i := by
  obtain ⟨srcs, n, hx, item, hp⟩ := hi
  let r := vldReq i h tk srcs n
  have hcq : r.qs.contains .cq = false := rfl
  have hacts : (s.me.enqueue r.h (r.entryAt s)).actives o o.ety.n = s.me.actives o o.ety.n := actives_enqueue (r := r) hq _
  obtain ⟨xs, hrun, hxs⟩ := vload_window (o := o) (d := d) (e := r.started s) (item := item) (me_seen hcq) rfl
    (hv.atWork (r := r) hq hcq (fun j hj => by rw [← hacts]; exact hj)) ((State.lbad_atWork hcq).trans hb)
  rw [State.active_atWork hcq] at hrun
  refine ⟨_, _, hx.trans (issue_reads (r := r) hq he rfl rfl (hp.trans hrun) hcq rfl), fun i hi => ?_⟩
  have hw : 256 ^ v.es = 2 ^ o.ety.w ∧ o.ety.w * o.ety.n ≤ 2048 := by
    rw [hes, ety_w, Ety.n, ety_w]
    cases o.ety <;> decide
  have hval : (s.me.enqueue r.h (r.entryAt s)).active o i = true →
      SMap.get 0 xs i = Spec.leAt (Spec.spaceByte s l) (Spec.place s l (i * o.ety.w / 32) (off i)) v.es := fun ha =>
    (hxs i (mem_actives.2 ⟨hi, ha⟩)).trans (by rw [State.place_atWork hcq, leAt_atWork (r := r) hq hcq])
  rw [elem_vres _ _ _ _ hw.2 _ _ _ hi (fun ha => by rw [hval ha, ← hw.1]; exact leAt_lt ..), ← active_enqueue (r := r) hq]
  split
  · rename_i ha
    exact hval ha
  · rfl

/-- A word whose work writes elements of one memory. -/
theorem issue_elements {perf : Perf} {n : Nat} {at_ x : Nat → Nat} {is : List Nat} {t : State} {wrs : List Wr} {w : Word} (hq : s.Quiet r.h)
    (he : s.eager = true) (hpl : r.place = none) (hpre : r.pre s.active (r.srcs.map s.me.rd) (r.hnds.map s.me.rdH) s = (.ok (), s))
    (hperf : perf s.active (r.started s) (s.atWork r) = (.ok (.done wrs w), t)) (hcq : r.qs.contains .cq = false)
    (ht : (s.atWork r).WroteElems t l n at_ x is) :
    ∃ u, issue perf r s = .next u ∧ Spec.wroteLocal s u s.me (fun g => g.finished r.h r.qs wrs r.t.td w) ∧
      (∀ i ∈ is, Spec.leAt (Spec.spaceByte u l) (at_ i) n = x i % 256 ^ n) ∧
      ∀ l' p, (l' = l → ∀ i ∈ is, p < at_ i ∨ at_ i + n ≤ p) → Spec.spaceByte u l' p = Spec.spaceByte s l' p := by
  obtain ⟨u, hu, hw, hsp⟩ := issue_writes hq he hpl hpre hperf hcq ht.edits
  refine ⟨u, hu, hw, fun i hi => ?_, fun l' p hp => ?_⟩
  · rw [leAt_congr (fun b _ => hsp l _)]
    exact ht.new i hi
  · rw [hsp, ht.old l' p hp]
    exact State.spaceByte_atWork hcq hq l' p

/-- R215: the memories after a vector store. -/
theorem IsVst.window {f : CoreSt → Nat → Nat} (hi : IsVst i h tk o f s v) (hq : s.Quiet h) (he : s.eager = true)
    (hv : v.InWindow s l off (s.me.actives o o.ety.n))
    (hd : (s.me.actives o o.ety.n).Pairwise fun i j => Spec.place s l (i * o.ety.w / 32) (off i) + v.es ≤ Spec.place s l (j * o.ety.w / 32) (off j) ∨
      Spec.place s l (j * o.ety.w / 32) (off j) + v.es ≤ Spec.place s l (i * o.ety.w / 32) (off i)) :
    ∃ r : Req, r.h = h ∧ ∃ u, exec i s = .next u ∧ Spec.wroteLocal s u s.me (fun g => g.finished h [.sq] [] tk.td 0x800000) ∧
      (∀ i ∈ s.me.actives o o.ety.n, Spec.leAt (Spec.spaceByte u l) (Spec.place s l (i * o.ety.w / 32) (off i)) v.es =
        f (s.me.enqueue r.h (r.entryAt s)) i % 256 ^ v.es) ∧
      ∀ l' p, (l' = l → ∀ i ∈ s.me.actives o o.ety.n, p < Spec.place s l (i * o.ety.w / 32) (off i) ∨ Spec.place s l (i * o.ety.w / 32) (off i) + v.es ≤ p) →
        Spec.spaceByte u l' p = Spec.spaceByte s l' p := by
  obtain ⟨srcs, seed, n, hx, item, hp⟩ := hi
  let r := vstReq i h tk srcs seed n
  have hcq : r.qs.contains .cq = false := rfl
  have hacts : (s.me.enqueue r.h (r.entryAt s)).actives o o.ety.n = s.me.actives o o.ety.n := actives_enqueue (r := r) hq _
  obtain ⟨t, hrun, ht⟩ := vstore_window (o := o) (e := r.started s) (item := item) (f := f) (me_seen hcq) rfl rfl
    (hv.atWork (r := r) hq hcq (fun j hj => by rw [← hacts]; exact hj)) (by rw [hacts]; simp only [State.place_atWork hcq]; exact hd)
  rw [State.active_atWork hcq] at hrun
  simp only [State.place_atWork hcq] at ht
  rw [hacts] at ht
  obtain ⟨u, hu, hw⟩ := issue_elements (r := r) hq he rfl rfl (hp.trans hrun) hcq ht
  exact ⟨r, rfl, u, hx.trans hu, hw⟩

end

end Sys2Proof.Machine

/-! PROOFS. The stores with stochastic rounding and the accumulating stores (R218, R219), and `Obligations.VectorMemory`. -/

namespace Sys2Proof.Machine

-- ### Places in order

/-- Elements one after the other do not overlap, through LANE neither. -/
theorem place_le (s : State) (l : Loc) {i j x y n : Nat} (hij : i ≤ j) (h : x + n ≤ y) : Spec.place s l i x + n ≤ Spec.place s l j y := by
  cases l <;> simp only [Spec.place] <;> omega

theorem place_near (s : State) {l : Loc} (hl : l.near) (i x : Nat) : Spec.place s l i x = Spec.place s l 0 x := by
  rcases hl with rfl | rfl | rfl <;> rfl

/-- The offsets of the active elements of a contiguous access lie one after the other. -/
theorem pairwise_contiguous {s : State} {o : VOpt} {a : SReg} {l : Loc} {n es : Nat} {base : Int} {off : Nat → Nat}
    (h : Spec.lanesIn s o a l n es (fun i => base + i * es) off) : (s.me.actives o n).Pairwise fun i j =>
      Spec.place s l i (off i) + es ≤ Spec.place s l j (off j) ∨ Spec.place s l j (off j) + es ≤ Spec.place s l i (off i) := by
  refine pairwise_actives fun i hi j hj hai haj => .inl (place_le s l hj.le ?_)
  have hoi : base + i * es = off i := (h.2 i hi hai).1
  have hoj : base + j * es = off j := (h.2 j (by omega) haj).1
  have hstep : (j : Int) * es + es ≤ i * es := by
    have := Nat.mul_le_mul_right es (show j + 1 ≤ i from hj)
    rw [Nat.succ_mul] at this
    exact_mod_cast this
  omega

-- ### Stochastic stores (R218)

section
variable {h : Hdr} {tk : Toks} {o : VOpt} {r : VReg} {a b seed : SReg} {x : HReg} {df : BitVec 8} {disp : BitVec 16} {s : State} {l : Loc} {off : Nat → Nat}

theorem linOff_es (x y : Word) (es : Nat) : (linOff x y disp es).es = es := rfl

theorem linOff_inWindow {es n : Nat} (hes : 0 < es)
    (hin : Spec.lanesIn s o a l n es (fun i => (Spec.ofs (s.me.rd a) : Int) + (s.me.rd b).toInt + disp.toInt + i * es) off) :
    (linOff (s.me.rd a) (s.me.rd b) disp es).InWindow s l off (s.me.actives o n) := by
  refine ⟨hin.1, hes, fun i hi => ?_⟩
  obtain ⟨hlt, hon⟩ := mem_actives.1 hi
  rw [linOff, ptrOffset_eq]
  exact hin.2 i hlt hon

/-- R218: the elements that a stochastic store sends, with the seed in a register. -/
def srElem (s : State) (df : Nat) (seed : SReg) (n0 i x : Nat) : Nat := convE df 1 ⟨.sr, (s.me.rd seed).toNat % 2 ^ 32, n0 + i⟩ x

theorem fld_low (x : Word) : fld x 0 32 = x.toNat % 2 ^ 32 := by rw [fld, natBits, Nat.shiftRight_zero]

theorem isVst_sr : IsVst (.vstSrPtr h tk o df seed r a b disp) h tk o (fun k i => srElem s df.toNat seed 0 i (vget (k.rdV r) 32 i)) s
    (linOff (s.me.rd a) (s.me.rd b) disp 2) := by
  refine ⟨[a, b], some seed, itemIn (.vstSrPtr h tk o df seed r a b disp) s, rfl,
    ptrItem (linOff (s.me.rd a) (s.me.rd b) disp 2) ++ (s.me.enqueue h ((vstReq (.vstSrPtr h tk o df seed r a b disp) h tk [a, b] (some seed)
      (itemIn (.vstSrPtr h tk o df seed r a b disp) s)).entryAt s)).maskItem o, (perform_vec (p := runVstSrPtr o df r disp) rfl rfl _ _ _ rfl rfl).trans ?_⟩
  unfold runVstSrPtr
  rw [run_getCore_bind, seen_started rfl]
  have hm : ∀ i, ((vstReq (.vstSrPtr h tk o df seed r a b disp) h tk [a, b] (some seed) (itemIn (.vstSrPtr h tk o df seed r a b disp) s)).started s).srMode i =
      ⟨.sr, (s.me.rd seed).toNat % 2 ^ 32, 0 + i⟩ := by
    intro i
    rw [Nat.zero_add, ← fld_low]
    rfl
  simp only [hm]
  rfl

/-- R218: what the handle form asks of the queues. -/
def srHdlReq (h : Hdr) (tk : Toks) (o : VOpt) (seed : SReg) (r : VReg) (x : HReg) (b : SReg) (s : State) : Req :=
  { op := .vstSrHdl h tk o seed r x b, h := h, t := tk, qs := [.sq], srcs := [b], hnds := [x], near := nearHandle, effect := true, pre := srHandlePre,
    item := itemIn (.vstSrHdl h tk o seed r x b) s, seed := some seed }

/-- R218: the active elements of a walk that its count leaves. -/
theorem mem_walkOn {k : CoreSt} {n0 m i : Nat} : i ∈ (k.actives o 64).filter (fun i => n0 + i < m) ↔
    i < 64 ∧ (k.active o i && decide (n0 + i < m)) = true := by
  rw [List.mem_filter, mem_actives, Bool.and_eq_true, and_assoc]

theorem pairwise_walkOn {k : CoreSt} {n0 m : Nat} {p : Nat → Nat → Prop}
    (hp : ∀ i < 64, (k.active o i && decide (n0 + i < m)) = true → ∀ j < i, (k.active o j && decide (n0 + j < m)) = true → p j i) :
    ((k.actives o 64).filter (fun i => n0 + i < m)).Pairwise p := by
  have hlt : ((k.actives o 64).filter (fun i => n0 + i < m)).Pairwise (· < ·) := (List.Pairwise.filter _ List.pairwise_lt_range).filter _
  refine hlt.imp_of_mem fun {i j} hi hj hij => ?_
  obtain ⟨-, hi⟩ := mem_walkOn.1 hi
  obtain ⟨hj64, hj⟩ := mem_walkOn.1 hj
  exact hp j hj64 hj i hij hi

theorem walkAt_eq (rec_ : BitVec 512) (n : Nat) : walkAt rec_ n = Spec.walkPos rec_ [0, 1, 2, 3, 4, 5] n := by
  simp only [walkAt, Spec.walkPos]
  ring

/-- The handle form of a stochastic store once its places are known. -/
theorem runVstSrHdl_window {e : Entry} {k : CoreSt} {t : State} {rec_ : BitVec 512} {n0 : Nat} (hk : e.seen t.me = k) (he : e.aux = 0)
    (hm : e.muted = false) (hrec : (e.hd 0).shape = rec_) (hn0 : (e.x 0).toNat = n0) {is : List Nat}
    (his : (k.actives o 64).filter (fun i => n0 + i < shCount rec_) = is) (hv : (walkOff rec_ n0).InWindow t l off is)
    (hd : is.Pairwise fun i j => Spec.place t l i (off i) + (walkOff rec_ n0).es ≤ Spec.place t l j (off j) ∨
      Spec.place t l j (off j) + (walkOff rec_ n0).es ≤ Spec.place t l i (off i)) :
    ∃ u, runVstSrHdl o r t.active e t = (.ok (.done [] 0x800000), u) ∧ t.WroteElems u l (walkOff rec_ n0).es (fun i => Spec.place t l i (off i))
      (fun i => convE (shFmt rec_) 1 (e.srMode (n0 + i)) (vget (k.rdV r) 32 i)) is := by
  have hi32 : ∀ i, i * 32 / 32 = i := fun i => Nat.mul_div_cancel i (by decide)
  obtain ⟨u, hu, hw⟩ := vwrites_window hv 32 (fun i => convE (shFmt rec_) 1 (e.srMode (n0 + i)) (vget (k.rdV r) 32 i)) (by simp only [hi32]; exact hd)
  simp only [hi32] at hw
  refine ⟨u, ?_, hw⟩
  have hs : e.seen (t.core t.active) = k := hk
  unfold runVstSrHdl
  rw [run_getCore_bind, hs]
  simp only [hrec, hn0, hm, Bool.false_eq_true, if_false, his]
  rw [bind_ok (pushItem_none he _), bind_ok (vchecks_window hv (fun _ => ⟨rfl, by decide⟩)), bind_ok hu]
  rfl

/-- R218: the handle form of a stochastic store. -/
theorem vstSrHdl_window {rec_ : BitVec 512} {n0 : Nat} {is : List Nat} (hq : s.Quiet h) (he : s.eager = true) (hx : Spec.holds s.me x rec_)
    (hf1 : 1 ≤ shFmt rec_) (hf9 : shFmt rec_ ≤ 9) (hn0 : n0 = (s.me.rd b).toNat)
    (his : (s.me.actives o 64).filter (fun i => n0 + i < shCount rec_) = is) (hv : (walkOff rec_ n0).InWindow s l off is)
    (hd : is.Pairwise fun i j => Spec.place s l i (off i) + (walkOff rec_ n0).es ≤ Spec.place s l j (off j) ∨
      Spec.place s l j (off j) + (walkOff rec_ n0).es ≤ Spec.place s l i (off i)) :
    ∃ u, exec (.vstSrHdl h tk o seed r x b) s = .next u ∧ Spec.wroteLocal s u s.me (fun g => g.finished h [.sq] [] tk.td 0x800000) ∧
      (∀ i ∈ is, Spec.leAt (Spec.spaceByte u l) (Spec.place s l i (off i)) (walkOff rec_ n0).es =
        srElem s (shFmt rec_) seed n0 i (Spec.elem (s.me.rdV r) 32 i) % 256 ^ (walkOff rec_ n0).es) ∧
      ∀ l' p, (l' = l → ∀ i ∈ is, p < Spec.place s l i (off i) ∨ Spec.place s l i (off i) + (walkOff rec_ n0).es ≤ p) →
        Spec.spaceByte u l' p = Spec.spaceByte s l' p := by
  obtain ⟨hbound, hbad, hshape⟩ := hx
  let R := srHdlReq h tk o seed r x b s
  have hcq : R.qs.contains .cq = false := rfl
  have hacts : (s.me.enqueue R.h (R.entryAt s)).actives o 64 = s.me.actives o 64 := actives_enqueue (r := R) hq _
  obtain ⟨t, hrun, ht⟩ := runVstSrHdl_window (r := r) (e := R.started s) (n0 := n0) (me_seen hcq) rfl rfl hshape hn0.symm (by rw [hacts]; exact his)
    (hv.atWork (r := R) hq hcq (fun _ hj => hj)) (by simp only [State.place_atWork hcq]; exact hd)
  rw [State.active_atWork hcq] at hrun
  simp only [State.place_atWork hcq, rdV_enqueue (r := R) hq, vget_eq] at ht
  have hgood : goodHandles [s.me.rdH x] s = (.ok (), s) := check_true (by simp [Handle.good, hbound, hbad]) ..
  have hpre : srHandlePre s.active (R.srcs.map s.me.rd) (R.hnds.map s.me.rdH) s = (.ok (), s) :=
    (bind_ok hgood).trans (check_true (by change loomFmt (shFmt (s.me.rdH x).shape) = true; rw [hshape]; simp [loomFmt, hf1, hf9]) ..)
  obtain ⟨u, hu, hw, hnew, hold⟩ := issue_elements (r := R) hq he rfl hpre ((perform_vec rfl rfl _ _ _ rfl rfl).trans hrun) hcq ht
  refine ⟨u, hu, hw, fun i hi => (hnew i hi).trans ?_, hold⟩
  rw [srElem, ← fld_low]
  rfl

end

-- ### Accumulating stores (R219)

/-- R219: an element of an accumulating store over what stands at its place. -/
def sumElem (f old x : Nat) : Nat := roundFmt f (f == 2) .rne ((decodeFmt f (f == 2) old).add (f32 x))

section
variable {v : VAcc} {s t : State} {l : Loc} {off : Nat → Nat} {i : Nat} {is : List Nat}

theorem State.WroteElems.congr {n : Nat} {at_ x y : Nat → Nat} (h : s.WroteElems t l n at_ x is) (hxy : ∀ i ∈ is, x i = y i) : s.WroteElems t l n at_ y is :=
  ⟨h.edits, fun j hj => by rw [← hxy j hj]; exact h.new j hj, h.old⟩

theorem vaccOne_window (h : v.InWindow s l off (i :: is)) (hl : l ≠ .lane) (hb : s.lbad = []) (f x : Nat) :
    ∃ t, vaccOne s.active f v i x s = (.ok (), t) ∧ s.WroteRun t l (Spec.place s l i (off i))
      (natBytes v.es (sumElem f (Spec.leAt (Spec.spaceByte s l) (Spec.place s l i (off i)) v.es) x)) := by
  have hpos := h.pos
  have hs := checkSpan_vec (a := .wr) h (fun _ => by decide) (ptrAt v.ptr (off i)) (idx_ptrAt ..) (hi := (off i + v.es - 1 : Nat)) (by omega)
  obtain ⟨t, ht, hrun⟩ := atomicAt_near (n := v.es) (off := off i) (h.near hl) hb .wr (ptrAt v.ptr (off i)) 2 (fun old => some (sumElem f old x))
  rw [place_near s (h.near hl) i]
  refine ⟨t, ?_, hrun⟩
  rw [vaccOne]
  simp only [(h.off i (List.mem_cons_self ..)).1, Int.toNat_natCast]
  rw [bind_ok hs]
  exact (bind_ok ht).trans rfl

theorem vaccAll_window (h : v.InWindow s l off is) (hl : l ≠ .lane) (hb : s.lbad = []) (f : Nat) (x : Nat → Nat)
    (hd : is.Pairwise fun i j => Spec.place s l i (off i) + v.es ≤ Spec.place s l j (off j) ∨ Spec.place s l j (off j) + v.es ≤ Spec.place s l i (off i)) :
    ∃ t, vaccAll s.active f v x is s = (.ok (), t) ∧ s.WroteElems t l v.es (fun i => Spec.place s l i (off i))
      (fun i => sumElem f (Spec.leAt (Spec.spaceByte s l) (Spec.place s l i (off i)) v.es) (x i)) is := by
  induction is generalizing s with
  | nil => exact ⟨s, rfl, .nil⟩
  | cons i is ih =>
    obtain ⟨hi, hd⟩ := List.pairwise_cons.1 hd
    obtain ⟨t, ht, hrun⟩ := vaccOne_window h hl hb f (x i)
    have hp : ∀ lane o, Spec.place t l lane o = Spec.place s l lane o := hrun.edits.place l
    obtain ⟨u, hu, he⟩ := ih (h.tail.edits hrun.edits) (hrun.edits.lbad hb) (by simp only [hp]; exact hd)
    have hbyte := hrun.byte
    rw [length_natBytes] at hbyte
    simp only [hp] at he
    rw [hrun.edits.active] at hu
    refine ⟨u, (bind_ok ht).trans hu, .cons hrun hi (he.congr fun j hj => ?_)⟩
    rw [leAt_congr (g := Spec.spaceByte s l) (q := Spec.place s l j (off j)) fun b hlt => ?_]
    rw [hbyte, if_neg]
    have := hi j hj
    omega

/-- R219: the memories after an accumulating store. -/
theorem vstAcc_window {h : Hdr} {tk : Toks} {o : VOpt} {r : VReg} {a b : SReg} {df : BitVec 8} {disp : BitVec 16} (hq : s.Quiet h) (he : s.eager = true)
    (hb : s.lbad = []) (hl : l ≠ .lane) (hv : (linOff (s.me.rd a) (s.me.rd b) disp (fmtWidth df.toNat / 8)).InWindow s l off (s.me.actives o 64))
    (hd : (s.me.actives o 64).Pairwise fun i j => Spec.place s l i (off i) + fmtWidth df.toNat / 8 ≤ Spec.place s l j (off j) ∨
      Spec.place s l j (off j) + fmtWidth df.toNat / 8 ≤ Spec.place s l i (off i)) :
    ∃ u, exec (.vstAcc h tk o df r a b disp) s = .next u ∧ Spec.wroteLocal s u s.me (fun g => g.finished h [.sq] [] tk.td 0x800000) ∧
      (∀ i ∈ s.me.actives o 64, Spec.leAt (Spec.spaceByte u l) (Spec.place s l i (off i)) (fmtWidth df.toNat / 8) =
        sumElem df.toNat (Spec.leAt (Spec.spaceByte s l) (Spec.place s l i (off i)) (fmtWidth df.toNat / 8)) (Spec.elem (s.me.rdV r) 32 i)
          % 256 ^ (fmtWidth df.toNat / 8)) ∧
      ∀ l' p, (l' = l → ∀ i ∈ s.me.actives o 64, p < Spec.place s l i (off i) ∨ Spec.place s l i (off i) + fmtWidth df.toNat / 8 ≤ p) →
        Spec.spaceByte u l' p = Spec.spaceByte s l' p := by
  let R := vstReq (.vstAcc h tk o df r a b disp) h tk [a, b] none (itemIn (.vstAcc h tk o df r a b disp) s)
  have hcq : R.qs.contains .cq = false := rfl
  let V := linOff (s.me.rd a) (s.me.rd b) disp (fmtWidth df.toNat / 8)
  have hacts : (s.me.enqueue R.h (R.entryAt s)).actives o 64 = s.me.actives o 64 := actives_enqueue (r := R) hq _
  have hvw : V.InWindow (s.atWork R) l off (s.me.actives o 64) := hv.atWork (r := R) hq hcq (fun _ hj => hj)
  obtain ⟨t, hrun, ht⟩ := vaccAll_window hvw hl ((State.lbad_atWork hcq).trans hb) df.toNat (fun i => vget ((s.me.enqueue R.h (R.entryAt s)).rdV r) 32 i)
    (by simp only [State.place_atWork hcq]; exact hd)
  have hck := vchecks_window (a := .wr) (lane := false) hvw (fun e => absurd e hl)
  rw [State.active_atWork hcq] at hrun hck
  simp only [leAt_atWork (r := R) hq hcq, State.place_atWork hcq, rdV_enqueue (r := R) hq, vget_eq] at ht
  have hperf : perform s.active (R.started s) (s.atWork R) = (.ok (.done [] 0x800000), t) := by
    refine (perform_vec (p := runVstAcc o df r disp) rfl rfl _ _ _ rfl rfl).trans ?_
    unfold runVstAcc
    rw [run_getCore_bind, seen_started hcq, hacts]
    exact (bind_ok hck).trans (bind_ok hrun)
  exact issue_elements (r := R) hq he rfl rfl hperf hcq ht

end

-- ### The obligation

theorem ety_n (t : Ety) : t.n = 256 / (Spec.width t / 8) := by cases t <;> rfl

/-- The active elements of a vector access that may be reached. -/
theorem VAcc.Reaches.inWindow {v : VAcc} {s : State} {o : VOpt} {a b : SReg} {disp : BitVec 16} {p : Spec.Pattern} {l : Loc} {off : Nat → Nat}
    (hv : v.Reaches s o.ety a b disp p)
    (hin : Spec.lanesIn s o a l (256 / (Spec.width o.ety / 8)) (Spec.width o.ety / 8) (Spec.elemOff s o.ety a b disp p) off) :
    v.InWindow s l off (s.me.actives o o.ety.n) := by
  refine ⟨hv.ptr ▸ hin.1, by rw [hv.es]; cases o.ety <;> decide, fun i hi => ?_⟩
  obtain ⟨hlt, hon⟩ := mem_actives.1 hi
  rw [hv.es, hv.off]
  exact hin.2 i (by rwa [ety_n] at hlt) hon

theorem wf_vstSrPtr {h : Hdr} {tk : Toks} {o : VOpt} {df : BitVec 8} {seed : SReg} {r : VReg} {a b : SReg} {disp : BitVec 16}
    (hwf : (Instr.vstSrPtr h tk o df seed r a b disp).wf = true) : (df = 2 ∨ df = 3) ∧ o.ety = .fp32 := by
  have hops : (Instr.vstSrPtr h tk o df seed r a b disp).operandsWf = true := (Bool.and_eq_true_iff.1 hwf).2
  simp only [Instr.operandsWf, Bool.and_eq_true, Bool.or_eq_true, beq_iff_eq] at hops
  obtain ⟨⟨⟨⟨-, hdf⟩, hety⟩, -⟩, -⟩ := hops
  refine ⟨hdf, ?_⟩
  cases ho : o.ety with
  | fp32 => rfl
  | _ =>
    rw [ho] at hety
    exact absurd hety (by decide)

/-- R218: the element that a stochastic store sends, as the conversion of R209. -/
theorem srElem_mod {s : State} {f n : Nat} (h : 256 ^ n = 2 ^ fmtWidth f) (seed : SReg) (n0 i x : Nat) :
    srElem s f seed n0 i x % 256 ^ n = Spec.conv s.me f 1 ⟨.sr, seed⟩ (n0 + i) x := by
  rw [h]
  rfl

/-- Settles O41: the elements of a vector access pass their checks one by one, and are read and written in order at places that do not overlap. -/
theorem vectorMemory : Obligations.VectorMemory := by
  unfold Obligations.VectorMemory
  intro h tk o r v a b disp l s off hq he hb
  dsimp only
  have hw : ∀ i, i * o.ety.w / 32 = 8 * (Spec.width o.ety / 8) * i / 32 := fun i => by
    rw [ety_w]
    cases o.ety <;> simp [Spec.width, Nat.mul_comm]
  have h8 : 8 * (Spec.width o.ety / 8) = o.ety.w := by
    rw [ety_w]
    cases o.ety <;> rfl
  have hi32 : ∀ i, i * 32 / 32 = i := fun i => Nat.mul_div_cancel i (by decide)
  refine ⟨?loads, ?stores, ?stochastic, ?handle, ?sums⟩
  case loads =>
    intro x hx hin
    obtain ⟨V, hV, hi⟩ := isVld_of_mem (s := s) v hq x hx
    obtain ⟨y, m, hrun, hel⟩ := hi.window hq he hb hV.es (hV.inWindow hin)
    refine ⟨y, m, hrun, fun i hlt => ?_⟩
    have hcore : (s.setCore s.active (s.me.finished h [.lq] [.v r y m] tk.td 0x800000)).core s.active = s.me.finished h [.lq] [.v r y m] tk.td 0x800000 :=
      State.core_setCore ..
    change Spec.elem (((s.setCore s.active _).core s.active).rdV r) _ i = _
    rw [hcore, finished_rdV, h8, hel i (by rw [ety_n]; exact hlt), hV.es, hw, h8]
  case stores =>
    intro x hx hin hap
    obtain ⟨V, hV, hi⟩ := isVst_of_mem (s := s) v hq x hx
    have hpw : (s.me.actives o o.ety.n).Pairwise fun i j => Spec.place s l (i * o.ety.w / 32) (off i) + V.es ≤ Spec.place s l (j * o.ety.w / 32) (off j) ∨
        Spec.place s l (j * o.ety.w / 32) (off j) + V.es ≤ Spec.place s l (i * o.ety.w / 32) (off i) := by
      rw [hV.es, ety_n]
      simp only [hw]
      exact pairwise_actives fun i hi j hj hai haj => (hap i hi j hj hai haj).symm
    obtain ⟨R, hR, u, hu, hwr, hnew, hold⟩ := hi.window hq he (hV.inWindow hin) hpw
    subst hR
    simp only [hV.es, hw, vget_eq, rdV_enqueue hq, mem_actives, ety_n] at hnew hold
    have hlt : ∀ i, Spec.elem (s.me.rdV r) o.ety.w i % 256 ^ (Spec.width o.ety / 8) = Spec.elem (s.me.rdV r) (8 * (Spec.width o.ety / 8)) i := fun i => by
      rw [← pow_two_bits, h8, Nat.mod_eq_of_lt (elem_lt ..)]
    exact ⟨u, hu, hwr, fun i hi ha => (hnew i ⟨hi, ha⟩).trans (hlt i), fun l' p hp => hold l' p fun e i hi => hp e i hi.1 hi.2⟩
  case stochastic =>
    intro df seed hwf hin
    obtain ⟨hdf, hfp⟩ := wf_vstSrPtr hwf
    have hwd : 256 ^ 2 = 2 ^ fmtWidth df.toNat := by rcases hdf with rfl | rfl <;> decide
    have h64 : o.ety.w = 32 ∧ o.ety.n = 64 := by rw [hfp]; exact ⟨rfl, rfl⟩
    have hpw := pairwise_contiguous (base := (Spec.ofs (s.me.rd a) : Int) + (s.me.rd b).toInt + disp.toInt) (es := 2)
      (by simpa only [Nat.cast_ofNat, Int.mul_comm 2] using hin)
    have hvw := linOff_inWindow (b := b) (disp := disp) (es := 2) (by decide) (by simpa only [Nat.cast_ofNat, Int.mul_comm 2] using hin)
    rw [← h64.2] at hpw hvw
    obtain ⟨R, hR, u, hu, hwr, hnew, hold⟩ := (isVst_sr (h := h) (tk := tk) (o := o) (r := r) (a := a) (b := b) (seed := seed) (df := df) (disp := disp) (s := s)).window
      hq he hvw (by simp only [h64.1, hi32]; exact hpw)
    subst hR
    simp only [linOff_es, h64.1, h64.2, hi32, vget_eq, rdV_enqueue hq, mem_actives] at hnew hold
    refine ⟨u, hu, hwr, fun i hi ha => (hnew i ⟨hi, ha⟩).trans ?_, fun l' p hp => hold l' p fun e i hi => hp e i hi.1 hi.2⟩
    rw [srElem_mod hwd, Nat.zero_add]
  case handle =>
    intro seed x rec_ n0 hx hf1 hf9 hn0 hidx hoff
    have hwd : 256 ^ (fmtWidth (shFmt rec_) / 8) = 2 ^ fmtWidth (shFmt rec_) ∧ 0 < fmtWidth (shFmt rec_) / 8 := by
      generalize shFmt rec_ = f at hf1 hf9
      interval_cases f <;> decide
    have hvw : (walkOff rec_ n0).InWindow s l off ((s.me.actives o 64).filter (fun i => n0 + i < shCount rec_)) := by
      refine ⟨hidx, hwd.2, fun i hi => ?_⟩
      obtain ⟨hlt, hon⟩ := mem_walkOn.1 hi
      obtain ⟨ho, hnn, hal, hw', -⟩ := hoff i hlt hon
      refine ⟨?_, hal, hw'⟩
      change (ptrOffset (shPtr rec_) : Int) + walkAt rec_ (n0 + i) * (fmtWidth (shFmt rec_) / 8 : Nat) = off i
      rw [ptrOffset_eq, walkAt_eq, ho, Spec.tensorOff, Int.toNat_of_nonneg hnn]
    have hpw : ((s.me.actives o 64).filter (fun i => n0 + i < shCount rec_)).Pairwise fun i j =>
        Spec.place s l i (off i) + (walkOff rec_ n0).es ≤ Spec.place s l j (off j) ∨ Spec.place s l j (off j) + (walkOff rec_ n0).es ≤ Spec.place s l i (off i) :=
      pairwise_walkOn fun i hi hon j hj hon' => ((hoff i hi hon).2.2.2.2 j hj hon').symm
    obtain ⟨u, hu, hwr, hnew, hold⟩ := vstSrHdl_window (h := h) (tk := tk) (r := r) (seed := seed) hq he hx hf1 hf9 hn0 rfl hvw hpw
    simp only [mem_walkOn] at hnew hold
    exact ⟨u, hu, hwr, fun i hi ha => (hnew i ⟨hi, ha⟩).trans (srElem_mod hwd.1 ..), fun l' p hp => hold l' p fun e i hi => hp e i hi.1 hi.2⟩
  case sums =>
    intro df hdf hl hin
    have hpos : 0 < fmtWidth df.toNat / 8 := by rcases hdf with rfl | rfl <;> decide
    have hbeq : (df.toNat == 2) = (df == 2) := by rcases hdf with rfl | rfl <;> rfl
    obtain ⟨u, hu, hwr, hnew, hold⟩ := vstAcc_window (h := h) (tk := tk) (r := r) hq he hb hl (linOff_inWindow hpos hin) (pairwise_contiguous hin)
    simp only [mem_actives, sumElem, hbeq] at hnew hold
    exact ⟨u, hu, hwr, fun i hi ha => hnew i ⟨hi, ha⟩, fun l' p hp => hold l' p fun e i hi => hp e i hi.1 hi.2⟩

end Sys2Proof.Machine

/-! PROOFS. `Obligations.HandleWords` fails: its statement of what a word's work leaves, as a write of the active core into a table of cores with rising
numbers, does not hold of a module whose table lists its cores in another order. -/

namespace Sys2Proof.Machine

-- ### Reads of a window change nothing

section
variable {s : State} {l : Loc}

theorem homeRead_near (hl : l.near) (hb : s.lbad = []) (a : Acc) (p : Word) (off n : Nat) :
    homeRead s.active l a p off n s = (.ok ((upTo n).map (fun i => s.localByte s.active l (off + i))), s) := by
  rcases hl with rfl | rfl | rfl <;> exact bind_ok (localCheck_good hb ..)

theorem readPieces_near (hl : l.near) (hb : s.lbad = []) (a : Acc) (p : Word) (ps : List (Nat × Nat)) :
    ∃ bs, readPieces s.active l a p ps s = (.ok bs, s) := by
  induction ps with
  | nil => exact ⟨[], rfl⟩
  | cons q ps ih =>
    obtain ⟨bs, h⟩ := ih
    exact ⟨_, (bind_ok (homeRead_near hl hb ..)).trans (bind_ok h)⟩

theorem gleanVal_near {t : Tens} (hl : t.loc.near) (hb : s.lbad = []) (x : Nat × Int) : ∃ v, gleanVal s.active t x s = (.ok v, s) := by
  obtain ⟨bs, h⟩ := readPieces_near hl hb .rd (shPtr t.r) (pieces (elemBit t.r x.2 / 8)
    ((elemBit t.r x.2 + fmtWidth (shFmt t.r) - 1) / 8 - elemBit t.r x.2 / 8 + 1))
  exact ⟨_, (bind_ok ((bind_ok h).trans rfl : readBits s.active t.loc .rd (shPtr t.r) (elemBit t.r x.2) (fmtWidth (shFmt t.r)) s = _)).trans rfl⟩

/-- The start of a copy between windows flushes and translates nothing. -/
theorem openCopy_near {src dst : Tens} (hs : src.loc.near) (hd : dst.loc.near) (c : Nat) : openCopy c src dst s = (.ok (), s) := by
  have hf : ∀ (t : Tens) (b : Bool), t.loc.near → t.flush c b s = (.ok (), s) := by
    rintro ⟨r, l⟩ b (rfl | rfl | rfl) <;> rfl
  have ht : ∀ (t : Tens) (a : Acc), t.loc.near → t.translateAll c a s = (.ok (), s) := by
    rintro ⟨r, l⟩ a (rfl | rfl | rfl) <;> rfl
  exact (bind_ok (hf src _ hs)).trans ((bind_ok (hf dst _ hd)).trans ((bind_ok (ht src _ hs)).trans (ht dst _ hd)))

theorem readUntil_local {α β : Type} {f : β → M α} {xs : List β} (h : ∀ x ∈ xs, ∃ v, f x s = (.ok v, s)) : ∃ vs, readUntil f xs s = (.ok (vs, none), s) := by
  induction xs with
  | nil => exact ⟨[], rfl⟩
  | cons x xs ih =>
    obtain ⟨v, hv⟩ := h x (List.mem_cons_self ..)
    obtain ⟨vs, hvs⟩ := ih fun y hy => h y (List.mem_cons_of_mem _ hy)
    have ht : tryM (f x) s = (.ok (.ok v), s) := by rw [tryM, hv]
    refine ⟨v :: vs, (bind_ok ht).trans ?_⟩
    exact (bind_ok hvs).trans rfl

end

-- ### A module whose table of cores is out of order

/-- A record of one 8-bit integer at an offset of the HAMLET window. -/
def hamletByte (off : Nat) : BitVec 512 :=
  (1#512 <<< 288) ||| (1#512 <<< 96) ||| (1#512 <<< 80) ||| (6#512 <<< 64) ||| BitVec.ofNat 512 (0xFFF1 * 2 ^ 48 + off)

/-- A core whose context is granted the first 64 KiB of its hamlet's memory. -/
def grantedCore : CoreSt := { CoreSt.cold with ctx := { CoreSt.cold.ctx with desc := 65536#1024 <<< 224 } }

def outOfOrder : State := { State.reset with cores := [(1, .cold), (0, grantedCore)] }

/-- `GLEAN` (a sum) of the byte at offset 64 into the one at offset 0. -/
def gleanWord : Instr := .glean ⟨3, 0, 0, false, false⟩ .zero 0 1 ⟨.rne, 0⟩ 0
def gleanEntry : Entry :=
  { Req.entryAt { op := gleanWord, h := ⟨3, 0, 0, false, false⟩, t := .zero, qs := [.cq] } outOfOrder with
    hs := [⟨true, false, hamletByte 0, 0⟩, ⟨true, false, hamletByte 64, 0⟩] }

def byteAt (off : Nat) : Tens := ⟨hamletByte off, .hamlet⟩

theorem tensor_hamletByte (a : Acc) (off : Nat) (hspan : shSpan (hamletByte off) = ((off : Int), (off : Int)))
    (hidx : Spec.idx (shPtr (hamletByte off)) = 0xFFF1) (hw : Spec.inWindow outOfOrder .hamlet off 1) :
    tensor 0 .copy a (hamletByte off) outOfOrder = (.ok (byteAt off), outOfOrder) := by
  have hs : checkShape 0 .copy a (hamletByte off) outOfOrder = (.ok .hamlet, outOfOrder) := by
    rw [checkShape, hspan]
    exact checkSpan_window (s := outOfOrder) (l := .hamlet) hidx hw (by decide) (by omega) (fun e => Loc.noConfusion e)
  exact (bind_ok hs).trans rfl

theorem openPair_gleanEntry : openPair 0 gleanEntry outOfOrder = (.ok (byteAt 64, byteAt 0), outOfOrder) := by
  have hsrc := tensor_hamletByte .rd 64 (by decide +kernel) (by decide +kernel) (by unfold Spec.inWindow; decide +kernel)
  have hdst := tensor_hamletByte .wr 0 (by decide +kernel) (by decide +kernel) (by unfold Spec.inWindow; decide +kernel)
  have hopen : openCopy 0 (byteAt 64) (byteAt 0) outOfOrder = (.ok (), outOfOrder) := openCopy_near (.inr (.inl rfl)) (.inr (.inl rfl)) 0
  exact (bind_ok hsrc).trans ((bind_ok hdst).trans ((bind_ok hopen).trans rfl))

theorem readUntil_gleanEntry : ∃ vs, readUntil (gleanVal 0 (byteAt 64)) (numbered (byteAt 64).r) outOfOrder = (.ok (vs, none), outOfOrder) :=
  readUntil_local fun x _ => gleanVal_near (s := outOfOrder) (.inr (.inl rfl)) rfl x

theorem cores_runGlean : ((runGlean ⟨.rne, 0⟩ 0 0 gleanEntry outOfOrder).2.cores.map Prod.fst) = [1, 0] := by
  decide +kernel

theorem cores_setCore (g : CoreSt) : (SMap.set .cold outOfOrder.cores 0 g).map Prod.fst ≠ [1, 0] := by
  have h : SMap.set .cold outOfOrder.cores 0 g = if g = .cold then [(1, .cold)] else [(0, g), (1, .cold)] := rfl
  rw [h]
  split <;> simp

theorem tensorIn_hamletByte : Spec.tensorIn outOfOrder (hamletByte 0) .hamlet :=
  ⟨⟨by decide, by decide +kernel, by decide +kernel, 0, 0, by decide +kernel, by decide +kernel, by decide +kernel, by decide +kernel⟩,
    by decide +kernel, by decide +kernel, by decide +kernel⟩

theorem writable_hamletByte : Spec.writable (hamletByte 0) := by
  have hc : shCount (hamletByte 0) = 1 := by decide +kernel
  refine ⟨by decide +kernel, fun n hn m hm => ?_⟩
  omega

/-- Refutes O45: a `GLEAN` into HAMLET memory leaves the table of cores as it is, and the statement says that the active core has been written into it;
of a table that lists core 1 before core 0 these differ. -/
theorem not_handleWords : ¬Obligations.HandleWords := by
  unfold Obligations.HandleWords
  rintro ⟨-, -, hread, -⟩
  obtain ⟨vs, hvs⟩ := readUntil_gleanEntry
  obtain ⟨-, hglean⟩ := hread gleanEntry outOfOrder outOfOrder outOfOrder (byteAt 64) (byteAt 0) .hamlet openPair_gleanEntry rfl rfl tensorIn_hamletByte
    writable_hamletByte
  obtain ⟨t, hrun, hput⟩ := hglean 0 ⟨.rne, 0⟩ vs (by decide +kernel) (by decide +kernel) (by unfold Spec.byteFmt; decide +kernel) (by decide) hvs
  rw [if_neg (by decide)] at hput
  obtain ⟨⟨⟨g, -, ht⟩, -⟩, -⟩ := hput
  have hcores : t.cores = SMap.set .cold outOfOrder.cores 0 g := by rw [ht]; rfl
  have hkeys := cores_runGlean
  have hrun' : runGlean ⟨.rne, 0⟩ 0 0 gleanEntry outOfOrder = _ := hrun
  rw [hrun', hcores] at hkeys
  exact cores_setCore g hkeys

end Sys2Proof.Machine

/-! PROOFS. Accumulator tiles (R222, R237): the elements of a tile after elements of it have been written, and a word that issues to a core at rest, does its
work on the tiles alone, and completes in its step. -/

namespace Sys2Proof.Machine

-- ### Elements of tiles

theorem accKey_inj {t r c t' r' c' : Nat} (hr : r < 128) (hc : c < 64) (hr' : r' < 128) (hc' : c' < 64) (h : accKey t r c = accKey t' r' c') :
    t = t' ∧ r = r' ∧ c = c' := by
  unfold accKey at h
  omega

theorem CoreSt.rdAcc_wrAcc_ne (k : CoreSt) {t r c t' r' c' : Nat} (x : AccEl) (hr : r < 128) (hc : c < 64) (hr' : r' < 128) (hc' : c' < 64)
    (h : ¬(t = t' ∧ r = r' ∧ c = c')) : (k.wrAcc t' r' c' x).rdAcc t r c = k.rdAcc t r c :=
  SMap.get_set_ne _ _ _ _ _ fun e => h (accKey_inj hr hc hr' hc' e)

/-- A core with other tiles. -/
def CoreSt.putAcc (k : CoreSt) (m : SMap AccEl) : CoreSt := { k with eng := { k.eng with acc := m } }

/-- From one core to another at most elements of tiles have changed. -/
def CoreSt.Tiled (k g : CoreSt) : Prop := g = k.putAcc g.eng.acc

theorem CoreSt.Tiled.refl (k : CoreSt) : k.Tiled k := rfl
theorem CoreSt.Tiled.trans {k g h : CoreSt} (a : k.Tiled g) (b : g.Tiled h) : k.Tiled h := by
  unfold CoreSt.Tiled at *
  rw [b, a]
  rfl
theorem CoreSt.tiled_wrAcc (k : CoreSt) (t r c : Nat) (x : AccEl) : k.Tiled (k.wrAcc t r c x) := rfl

section
variable {α : Type}

/-- The elements at some places of a tile, each changed by its own function, one after the other. -/
def CoreSt.mapEls (k : CoreSt) (t : Nat) (pos : α → Nat × Nat) (f : α → AccEl → AccEl) (is : List α) : CoreSt :=
  is.foldl (fun k i => k.wrAcc t (pos i).1 (pos i).2 (f i (k.rdAcc t (pos i).1 (pos i).2))) k

variable {t : Nat} {pos : α → Nat × Nat} {f : α → AccEl → AccEl} {is : List α} {n r c : Nat}

theorem CoreSt.tiled_mapEls (k : CoreSt) : k.Tiled (k.mapEls t pos f is) := by
  induction is generalizing k with
  | nil => exact .refl k
  | cons i is ih => exact (k.tiled_wrAcc ..).trans (ih _)

/-- An element that stands at none of the places is as it was. -/
theorem CoreSt.rdAcc_mapEls_out (k : CoreSt) (hb : ∀ i ∈ is, (pos i).1 < 128 ∧ (pos i).2 < 64) (hr : r < 128) (hc : c < 64)
    (h : n = t → ∀ i ∈ is, pos i ≠ (r, c)) : (k.mapEls t pos f is).rdAcc n r c = k.rdAcc n r c := by
  induction is generalizing k with
  | nil => rfl
  | cons i is ih =>
    obtain ⟨⟨hir, hic⟩, hb⟩ := List.forall_mem_cons.1 hb
    refine (ih _ hb fun e j hj => h e j (List.mem_cons_of_mem _ hj)).trans (k.rdAcc_wrAcc_ne _ hr hc hir hic ?_)
    rintro ⟨hn, h1, h2⟩
    exact h hn i (List.mem_cons_self ..) (Prod.ext h1.symm h2.symm)

/-- An element that stands at one place is changed by its function. -/
theorem CoreSt.rdAcc_mapEls_at (k : CoreSt) (hb : ∀ i ∈ is, (pos i).1 < 128 ∧ (pos i).2 < 64) (hd : is.Pairwise fun i j => pos i ≠ pos j) {i : α}
    (hi : i ∈ is) (hp : pos i = (r, c)) : (k.mapEls t pos f is).rdAcc t r c = f i (k.rdAcc t r c) := by
  obtain rfl : (pos i).1 = r := by rw [hp]
  obtain rfl : (pos i).2 = c := by rw [hp]
  clear hp
  induction is generalizing k with
  | nil => exact absurd hi List.not_mem_nil
  | cons j is ih =>
    obtain ⟨hj, hd⟩ := List.pairwise_cons.1 hd
    obtain ⟨⟨hjr, hjc⟩, hb'⟩ := List.forall_mem_cons.1 hb
    obtain ⟨hir, hic⟩ := hb i hi
    rcases List.mem_cons.1 hi with rfl | hi
    · exact (CoreSt.rdAcc_mapEls_out _ hb' hir hic fun _ j hm => (hj j hm).symm).trans (k.rdAcc_wrAcc ..)
    · refine (ih _ hb' hd hi).trans ?_
      rw [k.rdAcc_wrAcc_ne _ hir hic hjr hjc]
      rintro ⟨-, h1, h2⟩
      exact hj i hi (Prod.ext h1.symm h2.symm)

end

-- ### A rectangle of a tile

/-- The places of a rectangle, row by row. -/
def rect (h w : Nat) : List (Nat × Nat) := (upTo h).flatMap fun m => (upTo w).map fun n => (m, n)

theorem mem_rect {h w : Nat} {q : Nat × Nat} : q ∈ rect h w ↔ q.1 < h ∧ q.2 < w := by
  simp only [rect, List.mem_flatMap, List.mem_map, mem_upTo]
  constructor
  · rintro ⟨m, hm, n, hn, rfl⟩
    exact ⟨hm, hn⟩
  · rintro ⟨h1, h2⟩
    exact ⟨q.1, h1, q.2, h2, rfl⟩

theorem nodup_rect (h w : Nat) : (rect h w).Nodup := by
  refine List.nodup_flatMap.2 ⟨fun m _ => List.nodup_range.map fun x y e => (Prod.mk.inj e).2, ?_⟩
  refine List.nodup_range.imp fun {x y} hxy => ?_
  simp only [Function.onFun, List.disjoint_left, List.mem_map]
  rintro _ ⟨n, -, rfl⟩ ⟨n', -, e⟩
  exact hxy (Prod.mk.inj e).1.symm

/-- A change of every element of a rectangle of a tile, row by row, is a change of the elements at its places. -/
theorem foldl_rect (k : CoreSt) (t r0 c0 h w : Nat) (f : Nat → Nat → AccEl → AccEl) :
    (upTo h).foldl (fun k m => (upTo w).foldl (fun k n => k.wrAcc t (r0 + m) (c0 + n) (f m n (k.rdAcc t (r0 + m) (c0 + n)))) k) k =
      k.mapEls t (fun q => (r0 + q.1, c0 + q.2)) (fun q => f q.1 q.2) (rect h w) := by
  simp only [CoreSt.mapEls, rect, List.foldl_flatMap, List.foldl_map]

theorem CoreSt.mapTile_eq (k : CoreSt) (t : Nat) (f : AccEl → AccEl) :
    k.mapTile t f = k.mapEls t (fun q => (0 + q.1, 0 + q.2)) (fun _ => f) (rect 128 64) := by
  rw [← foldl_rect k t 0 0 128 64 (fun _ _ => f)]
  simp only [Nat.zero_add, CoreSt.mapTile]

/-- A rectangle that lies in the tile. -/
theorem CoreSt.rdAcc_mapEls_rect (k : CoreSt) {t r0 c0 h w : Nat} (f : Nat → Nat → AccEl → AccEl) (hh : r0 + h ≤ 128) (hw : c0 + w ≤ 64) {n r c : Nat}
    (hr : r < 128) (hc : c < 64) : (k.mapEls t (fun q => (r0 + q.1, c0 + q.2)) (fun q => f q.1 q.2) (rect h w)).rdAcc n r c =
      if n = t ∧ r0 ≤ r ∧ r < r0 + h ∧ c0 ≤ c ∧ c < c0 + w then f (r - r0) (c - c0) (k.rdAcc n r c) else k.rdAcc n r c := by
  have hb : ∀ q ∈ rect h w, r0 + q.1 < 128 ∧ c0 + q.2 < 64 := fun q hq => by
    obtain ⟨h1, h2⟩ := mem_rect.1 hq
    omega
  split
  · rename_i hin
    obtain ⟨rfl, h1, h2, h3, h4⟩ := hin
    refine k.rdAcc_mapEls_at hb ((nodup_rect h w).imp fun {x y} hxy e => hxy ?_) (i := (r - r0, c - c0)) (mem_rect.2 ⟨by omega, by omega⟩)
      (Prod.ext (Nat.add_sub_cancel' h1) (Nat.add_sub_cancel' h3))
    obtain ⟨e1, e2⟩ := Prod.mk.inj e
    exact Prod.ext (Nat.add_left_cancel e1) (Nat.add_left_cancel e2)
  · rename_i hout
    refine k.rdAcc_mapEls_out hb hr hc fun e q hq e' => hout ?_
    obtain ⟨h1, h2⟩ := mem_rect.1 hq
    obtain ⟨rfl, rfl⟩ := Prod.mk.inj e'
    omega

theorem CoreSt.rdAcc_mapTile (k : CoreSt) (t : Nat) (f : AccEl → AccEl) {n r c : Nat} (hr : r < 128) (hc : c < 64) :
    (k.mapTile t f).rdAcc n r c = if n = t then f (k.rdAcc n r c) else k.rdAcc n r c := by
  rw [k.mapTile_eq]
  exact (k.rdAcc_mapEls_rect (fun _ _ => f) (Nat.le_refl 128) (Nat.le_refl 64) hr hc).trans
    (if_congr ⟨fun h => h.1, fun h => ⟨h, Nat.zero_le _, by omega, Nat.zero_le _, by omega⟩⟩ rfl rfl)

theorem CoreSt.tiled_mapTile (k : CoreSt) (t : Nat) (f : AccEl → AccEl) : k.Tiled (k.mapTile t f) := by
  rw [k.mapTile_eq]
  exact k.tiled_mapEls

-- ### The step of a word that works on the tiles

theorem foldl_putAcc {α : Type} {f : CoreSt → α → CoreSt} (hf : ∀ k m x, f (CoreSt.putAcc k m) x = (f k x).putAcc m) (xs : List α) (k : CoreSt)
    (m : SMap AccEl) : xs.foldl f (k.putAcc m) = (xs.foldl f k).putAcc m := by
  induction xs generalizing k with
  | nil => rfl
  | cons x xs ih => rw [List.foldl_cons, hf, ih, List.foldl_cons]

theorem CoreSt.setPc_putAcc (k : CoreSt) (m : SMap AccEl) (pc : Word) : (k.putAcc m).setPc pc = (k.setPc pc).putAcc m := rfl
theorem CoreSt.next_putAcc (k : CoreSt) (m : SMap AccEl) (h : Hdr) : (k.putAcc m).next h = (k.next h).putAcc m := k.setPc_putAcc m _

theorem CoreSt.enqueue_putAcc (k : CoreSt) (m : SMap AccEl) (h : Hdr) (e : Entry) : (k.putAcc m).enqueue h e = (k.enqueue h e).putAcc m := by
  have hp : ∀ (k : CoreSt) m r, (k.putAcc m).setPend r = (k.setPend r).putAcc m := fun k m r => by unfold CoreSt.setPend; split <;> rfl
  unfold CoreSt.enqueue
  rw [CoreSt.next_putAcc, foldl_putAcc hp, foldl_putAcc (fun _ _ _ => rfl)]
  rfl

theorem rdAcc_of_eng {k g : CoreSt} (h : g.eng = k.eng) (n r c : Nat) : g.rdAcc n r c = k.rdAcc n r c := by rw [CoreSt.rdAcc, h, CoreSt.rdAcc]

theorem rdAcc_enqueue {r : Req} {s : State} (hq : s.Quiet r.h) (n i j : Nat) : (s.me.enqueue r.h (r.entryAt s)).rdAcc n i j = s.me.rdAcc n i j :=
  rdAcc_of_eng (hq.enqueue_same _).eng n i j

/-- The work has changed elements of tiles, by `f`. -/
theorem issue_tiles {perf : Perf} {r : Req} {s : State} {wrs : List Wr} {w : Word} {f : CoreSt → CoreSt} (hq : s.Quiet r.h) (he : s.eager = true)
    (hpl : r.place = none) (hpre : r.pre s.active (r.srcs.map s.me.rd) (r.hnds.map s.me.rdH) s = (.ok (), s)) (hcq : r.qs.contains .cq = false)
    (hperf : perf s.active (r.started s) (s.atWork r) = (.ok (.done wrs w), (s.atWork r).modCore s.active f))
    (hf : (s.me.enqueue r.h (r.entryAt s)).Tiled (f (s.me.enqueue r.h (r.entryAt s)))) :
    ∃ g : CoreSt, issue perf r s = .next (s.setCore s.active (g.finished r.h r.qs wrs r.t.td w)) ∧
      g = { s.me with eng := { s.me.eng with acc := g.eng.acc } } ∧
      ∀ n i j, g.rdAcc n i j = (f (s.me.enqueue r.h (r.entryAt s))).rdAcc n i j := by
  obtain ⟨a, -, hw⟩ := s.atWork_eq hcq
  have hcore : ((s.atWork r).modCore s.active f).core s.active = (s.me.putAcc (f (s.me.enqueue r.h (r.entryAt s))).eng.acc).enqueue r.h (r.entryAt s) := by
    rw [State.core_modCore, State.core_atWork hcq, CoreSt.enqueue_putAcc]
    exact hf
  have hother : ∀ d, d ≠ s.active → ((s.atWork r).modCore s.active f).core d = s.core d := fun d hd => by
    rw [State.core_modCore_ne _ _ _ _ hd, hw]
    exact State.core_setCore_ne _ _ _ _ hd
  refine ⟨s.me.putAcc (f (s.me.enqueue r.h (r.entryAt s))).eng.acc, ?_, rfl, fun _ _ _ => rfl⟩
  rw [issue_done perf r s _ _ wrs w hq hpl he hpre hperf hcore hq.noEntry hq.noPend hq.noHpend hq.noTrap hq.noSup
    (fun d hd hne => by rw [hother d hne]; exact hq.copies d hd hne)]
  have hrest : ∀ k, ({ (s.atWork r).modCore s.active f with author := none } : State).setCore s.active k = s.setCore s.active k := by
    intro k
    rw [hw]
    change ({ ((s.setCore s.active _).setCore s.active _).setCore s.active k with author := none } : State) = _
    rw [State.setCore_setCore, State.setCore_setCore, ← hq.noAuthor]
    rfl
  rw [hrest]

theorem hsave_none {e : Entry} (h : e.aux = 0) : e.hsave = 0 := by
  unfold Entry.hsave
  split
  · rw [if_pos h]
  · rfl

theorem perform_loom {i : Instr} {p : Perf} (hu : i.unit6 = .loom) (hp : performLoom 0 i = p) (c : Nat) (e : Entry) (s : State) (ha : e.adj = false)
    (he : e.op = i) (hx : e.aux = 0) : perform c e s = p c e s := by
  subst hp he
  rw [perform, run_getCore_bind]
  simp only [ha, hu, hsave_none hx, Bool.false_eq_true, if_false]

/-- A word of the loom. -/
def mqReq (i : Instr) (h : Hdr) (tk : Toks) (srcs : List SReg) (hnds : List HReg) (effect : Bool) : Req :=
  { op := i, h := h, t := tk, qs := [.mq], srcs := srcs, hnds := hnds, effect := effect }

end Sys2Proof.Machine

/-! PROOFS. `ACC.INIT`, `ACC.FLUSH` (R237), `TRD` and `TWR` (R220) at a core at rest; the bits of a rounded FP32 value (R85, R93). -/

namespace Sys2Proof.Machine

-- ### FP32 values have 32 bits (R93)

/-- A significand that is rounded below 2^24 gets at most 2^24. -/
theorem rndAt_le (md : Mode) {m : Nat} {d : Int} (h : (Nat.log2 m : Int) + d ≤ 23) : rndAt md m d ≤ 2 ^ 24 := by
  have hm : m < 2 ^ (Nat.log2 m + 1) := Nat.lt_log2_self
  unfold rndAt
  split
  · have hle : 2 ^ (Nat.log2 m + 1) * 2 ^ d.toNat ≤ 2 ^ 24 := by
      rw [← pow_add]
      exact Nat.pow_le_pow_right Nat.two_pos (by omega)
    rw [Nat.shiftLeft_eq]
    exact (Nat.mul_le_mul_right _ hm.le).trans hle
  · have hlt : m >>> (-d).toNat < 2 ^ 24 := by
      rw [Nat.shiftRight_eq_div_pow]
      refine Nat.div_lt_of_lt_mul (hm.trans_le ?_)
      rw [← pow_add]
      exact Nat.pow_le_pow_right Nat.two_pos (by omega)
    have hs : rndShift md m (-d).toNat ≤ m >>> (-d).toNat + 1 := by
      unfold rndShift
      split
      · exact Nat.le_succ _
      · dsimp only; split <;> omega
      · dsimp only; split <;> omega
    omega

theorem packFloat_lt (neg : Bool) {e fr : Nat} (he : e ≤ 255) (hf : fr < 2 ^ 23) : packFloat 1 neg e fr < 2 ^ 32 := by
  have hp : packFloat 1 neg e fr = fr + e * 2 ^ 23 + (if neg then 2 ^ 31 else 0) := by
    simp [packFloat, floatFmt, FloatFmt.width, Nat.shiftLeft_eq]
  rw [hp]
  split <;> omega

theorem roundFloat_lt (md : Mode) (neg : Bool) (m : Nat) (e : Int) : roundFloat 1 false md neg m e < 2 ^ 32 := by
  have hq : floatFmt 1 = ⟨23, 8, 127, 0⟩ := rfl
  unfold roundFloat
  simp only [hq, FloatFmt.emin, FloatFmt.emax, Bool.false_eq_true, if_false]
  have ht := rndAt_le md (m := m) (d := e - (max (e + Nat.log2 m) (1 - ((127 : Nat) : Int)) - ((23 : Nat) : Int))) (by omega)
  generalize rndAt md m _ = t at ht
  split
  · exact packFloat_lt neg (by decide) (by decide)
  · have h2 : (if 2 ^ (23 + 1) ≤ t then t / 2 else t) < 2 ^ 24 := by split <;> omega
    generalize (if 2 ^ (23 + 1) ≤ t then t / 2 else t) = t' at h2
    generalize (if 2 ^ (23 + 1) ≤ t then _ else max (e + (Nat.log2 m : Int)) _) = ue
    split
    · split
      · exact packFloat_lt neg (by decide) (by decide)
      · exact packFloat_lt neg (by decide) (by decide)
    · split
      · exact packFloat_lt neg (by decide) (by assumption)
      · split
        · exact packFloat_lt neg (by decide) (by decide)
        · exact packFloat_lt neg (by omega) (by omega)

theorem toF32_lt (v : Val) : toF32 v < 2 ^ 32 := by
  unfold toF32 roundFmt
  rw [if_pos (show isFloat 1 = true from rfl)]
  split
  · decide
  · exact packFloat_lt _ (by decide) (by decide)
  · exact roundFloat_lt ..

-- ### The words

theorem wordOk_zero : wordOk 0 = 0x800000 := by decide

section
variable {h : Hdr} {tk : Toks} {o : VOpt} {v : VReg} {d : AReg} {b : SReg} {n : BitVec 7} {s : State} (hq : s.Quiet h) (he : s.eager = true)
include hq he

/-- A word of the loom that changes every element of its tile by `f`. -/
theorem mapTile_word {i : Instr} {srcs : List SReg} {f : AccEl → AccEl} (hi : exec i s = issue perform (mqReq i h tk srcs [] false) s)
    (hp : perform s.active ((mqReq i h tk srcs [] false).started s) (s.atWork (mqReq i h tk srcs [] false)) =
      (.ok (.done [] (wordOk 0)), (s.atWork (mqReq i h tk srcs [] false)).modCore s.active (fun k => k.mapTile d.toNat f))) :
    ∃ g : CoreSt, exec i s = .next (s.setCore s.active (g.finished h [.mq] [] tk.td 0x800000)) ∧ g = { s.me with eng := { s.me.eng with acc := g.eng.acc } } ∧
      ∀ t r c, r < 128 → c < 64 → g.rdAcc t r c = if t = d.toNat then f (s.me.rdAcc t r c) else s.me.rdAcc t r c := by
  rw [wordOk_zero] at hp
  obtain ⟨g, hx, hg, hel⟩ := issue_tiles (r := mqReq i h tk srcs [] false) hq he rfl rfl rfl hp (CoreSt.tiled_mapTile ..)
  refine ⟨g, hi.trans hx, hg, fun t r c hr hc => ?_⟩
  rw [hel, CoreSt.rdAcc_mapTile _ _ _ hr hc, rdAcc_enqueue hq]

theorem exec_accInit : ∃ g : CoreSt, exec (.accInit h tk d b) s = .next (s.setCore s.active (g.finished h [.mq] [] tk.td 0x800000)) ∧
    g = { s.me with eng := { s.me.eng with acc := g.eng.acc } } ∧ ∀ t r c, r < 128 → c < 64 →
      g.rdAcc t r c = if t = d.toNat then ⟨BitVec.ofNat 32 (toF32 (f32 ((s.me.rd b).toNat % 2 ^ 32))), 0, 0⟩ else s.me.rdAcc t r c := by
  rw [← fld_low]
  exact mapTile_word (srcs := [b]) (f := fun _ => ⟨BitVec.ofNat 32 (toF32 (f32 (fld (s.me.rd b) 0 32))), 0, 0⟩) hq he rfl
    (perform_loom (p := runAccInit d) rfl rfl _ _ _ rfl rfl rfl)

theorem exec_accFlush : ∃ g : CoreSt, exec (.accFlush h tk d) s = .next (s.setCore s.active (g.finished h [.mq] [] tk.td 0x800000)) ∧
    g = { s.me with eng := { s.me.eng with acc := g.eng.acc } } ∧ ∀ t r c, r < 128 → c < 64 →
      g.rdAcc t r c = if t = d.toNat then ⟨BitVec.ofNat 32 (s.me.rdAcc t r c).toFp32, 0, 0⟩ else s.me.rdAcc t r c :=
  mapTile_word (srcs := []) (f := fun x => ⟨BitVec.ofNat 32 x.toFp32, 0, 0⟩) hq he rfl (perform_loom (p := runAccFlush d) rfl rfl _ _ _ rfl rfl rfl)

end

-- ### Rows of a tile (R220)

theorem tileRow_in {e : Entry} {n : BitVec 7} (h : (e.x 0).toNat + n.toNat < 128) (s : State) : tileRow e n s = (.ok ((e.x 0).toNat + n.toNat), s) := by
  rw [tileRow, bind_ok (check_true (decide_eq_true h) ..)]
  rfl

theorem tileRow_out {e : Entry} {n : BitVec 7} (h : 128 ≤ (e.x 0).toNat + n.toNat) (s : State) :
    tileRow e n s = (.error (.trap .bounds (BitVec.ofNat 64 ((e.x 0).toNat + n.toNat))), s) := by
  have hc : check (decide ((e.x 0).toNat + n.toNat < 128)) .bounds (BitVec.ofNat 64 ((e.x 0).toNat + n.toNat)) s =
      (.error (.trap .bounds (BitVec.ofNat 64 ((e.x 0).toNat + n.toNat))), s) := by
    rw [decide_eq_false (by omega)]
    rfl
  rw [tileRow, bind_trap hc]

theorem runTrd_bounds (o : VOpt) (v : VReg) (d : AReg) (n : BitVec 7) (c : Nat) (e : Entry) (u : State) (h : 128 ≤ (e.x 0).toNat + n.toNat) :
    runTrd o v d n c e u = (.error (.trap .bounds (BitVec.ofNat 64 ((e.x 0).toNat + n.toNat))), u) := by
  rw [runTrd, bind_trap (tileRow_out h u)]
theorem runTwr_bounds (o : VOpt) (v : VReg) (d : AReg) (n : BitVec 7) (c : Nat) (e : Entry) (u : State) (h : 128 ≤ (e.x 0).toNat + n.toNat) :
    runTwr o d v n c e u = (.error (.trap .bounds (BitVec.ofNat 64 ((e.x 0).toNat + n.toNat))), u) := by
  rw [runTwr, bind_trap (tileRow_out h u)]

/-- `TWR`: the change of the elements of a row that are active or, with `ZM`, cleared. -/
def CoreSt.putRow (k : CoreSt) (o : VOpt) (t row : Nat) (x : BitVec 2048) : CoreSt :=
  k.mapEls t (fun j => (row, j)) (fun j _ => if k.active o j then ⟨BitVec.ofNat 32 (vget x 32 j), 0, 0⟩ else .zero)
    ((upTo 64).filter fun j => k.active o j || o.zm)

theorem foldl_putRow (k : CoreSt) (o : VOpt) (t row : Nat) (x : BitVec 2048) :
    (upTo 64).foldl (fun k' j => if k.active o j then k'.wrAcc t row j ⟨BitVec.ofNat 32 (vget x 32 j), 0, 0⟩
      else if o.zm then k'.wrAcc t row j .zero else k') k = k.putRow o t row x := by
  rw [CoreSt.putRow, CoreSt.mapEls, List.foldl_filter]
  congr 1
  funext k' j
  cases k.active o j <;> cases o.zm <;> rfl

theorem CoreSt.rdAcc_putRow (k : CoreSt) (o : VOpt) (t row : Nat) (x : BitVec 2048) {n r c : Nat} (hrow : row < 128) (hr : r < 128) (hc : c < 64) :
    (k.putRow o t row x).rdAcc n r c = if n = t ∧ r = row ∧ k.active o c = true then ⟨BitVec.ofNat 32 (vget x 32 c), 0, 0⟩
      else if n = t ∧ r = row ∧ o.zm = true then .zero else k.rdAcc n r c := by
  have hb : ∀ j ∈ (upTo 64).filter fun j => k.active o j || o.zm, row < 128 ∧ j < 64 := fun j hj => ⟨hrow, mem_upTo.1 (List.mem_filter.1 hj).1⟩
  have hd : ((upTo 64).filter fun j => k.active o j || o.zm).Pairwise fun i j => (row, i) ≠ (row, j) :=
    (List.nodup_range.filter _).imp fun {i j} hij e => hij (Prod.mk.inj e).2
  by_cases hin : n = t ∧ r = row ∧ (k.active o c || o.zm) = true
  · obtain ⟨rfl, rfl, hon⟩ := hin
    rw [CoreSt.putRow, k.rdAcc_mapEls_at hb hd (i := c) (List.mem_filter.2 ⟨mem_upTo.2 hc, hon⟩) rfl]
    cases ha : k.active o c with
    | true => simp
    | false =>
      rw [ha, Bool.false_or] at hon
      simp [hon]
  · rw [CoreSt.putRow, k.rdAcc_mapEls_out hb hr hc fun e j hj e' => hin ⟨e, (Prod.mk.inj e').1.symm, by rw [← (Prod.mk.inj e').2]; exact (List.mem_filter.1 hj).2⟩]
    rw [Bool.or_eq_true] at hin
    rw [if_neg fun e => hin ⟨e.1, e.2.1, .inl e.2.2⟩, if_neg fun e => hin ⟨e.1, e.2.1, .inr e.2.2⟩]

section
variable {h : Hdr} {tk : Toks} {o : VOpt} {v : VReg} {d : AReg} {b : SReg} {n : BitVec 7} {s : State} (hq : s.Quiet h) (he : s.eager = true)
  (hrow : (s.me.rd b).toNat + n.toNat < 128)
include hq he hrow

theorem exec_trd : ∃ t, exec (.trd h tk o v d b n) s = .next t ∧
    Spec.vectorDone s t h tk.td o v 32 (fun j => (s.me.rdAcc d.toNat ((s.me.rd b).toNat + n.toNat) j).toFp32) := by
  let r : Req := { op := .trd h tk o v d b n, h := h, t := tk, qs := [.vq], srcs := [b], item := itemIn (.trd h tk o v d b n) s }
  have hcq : r.qs.contains .cq = false := rfl
  let k := s.me.enqueue r.h (r.entryAt s)
  have hperf : perform s.active (r.started s) (s.atWork r) =
      (.ok (.done [k.vres o v 32 64 (fun j => (k.rdAcc d.toNat ((s.me.rd b).toNat + n.toNat) j).toFp32)] (wordOk 0)), s.atWork r) := by
    refine (perform_vec (p := runTrd o v d n) rfl rfl _ _ _ rfl rfl).trans ?_
    rw [runTrd, bind_ok (tileRow_in (e := r.started s) hrow _), run_getCore_bind, State.core_atWork hcq]
    rfl
  refine ⟨_, issue_reads (r := r) hq he rfl rfl hperf hcq rfl, _, _, by rw [wordOk_zero]; rfl, fun j hj => ?_⟩
  rw [State.core_setCore, CoreSt.vres, finished_rdV, elem_vres k o 32 64 (by decide) _ _ j hj fun _ => toF32_lt _, active_enqueue (r := r) hq, rdAcc_enqueue (r := r) hq]

theorem exec_twr : ∃ g : CoreSt, exec (.twr h tk o d v b n) s = .next (s.setCore s.active (g.finished h [.vq] [] tk.td 0x800000)) ∧
    g = { s.me with eng := { s.me.eng with acc := g.eng.acc } } ∧ ∀ t r c, r < 128 → c < 64 → g.rdAcc t r c =
      if t = d.toNat ∧ r = (s.me.rd b).toNat + n.toNat ∧ Spec.laneOn s.me o c = true then ⟨BitVec.ofNat 32 (Spec.elem (s.me.rdV v) 32 c), 0, 0⟩
      else if t = d.toNat ∧ r = (s.me.rd b).toNat + n.toNat ∧ o.zm = true then .zero else s.me.rdAcc t r c := by
  let r : Req := { op := .twr h tk o d v b n, h := h, t := tk, qs := [.vq], srcs := [b], item := itemIn (.twr h tk o d v b n) s }
  have hcq : r.qs.contains .cq = false := rfl
  have hperf : perform s.active (r.started s) (s.atWork r) =
      (.ok (.done [] (wordOk 0)), (s.atWork r).modCore s.active fun k => k.putRow o d.toNat ((s.me.rd b).toNat + n.toNat) (k.rdV v)) := by
    refine (perform_vec (p := runTwr o d v n) rfl rfl _ _ _ rfl rfl).trans ?_
    rw [runTwr, bind_ok (tileRow_in (e := r.started s) hrow _)]
    simp only [foldl_putRow]
    rfl
  rw [wordOk_zero] at hperf
  obtain ⟨g, hx, hg, hel⟩ := issue_tiles (r := r) hq he rfl rfl hcq hperf (CoreSt.tiled_mapEls ..)
  refine ⟨g, hx, hg, fun t i j hi hj => ?_⟩
  rw [hel, CoreSt.rdAcc_putRow _ _ _ _ _ hrow hi hj, rdV_enqueue (r := r) hq, active_enqueue (r := r) hq, rdAcc_enqueue (r := r) hq, vget_eq]

end

end Sys2Proof.Machine

/-! PROOFS. Walks (R72 to R74): the indices that a walk visits, by their numbers, and the span that holds them. -/

namespace Sys2Proof.Machine

-- ### Lists of numbers

theorem upTo_succ (n : Nat) : upTo (n + 1) = upTo n ++ [n] := List.range_succ

/-- A range row by row. -/
theorem map_upTo_mul {α : Type} (a b : Nat) (f : Nat → α) :
    (upTo (a * b)).map f = ((upTo a).map fun i => (upTo b).map fun j => f (i * b + j)).flatten := by
  induction a with
  | zero => rw [Nat.zero_mul]; rfl
  | succ a ih =>
    have h : upTo ((a + 1) * b) = upTo (a * b) ++ (upTo b).map fun j => a * b + j := by
      rw [Nat.succ_mul]
      exact List.range_add
    rw [h, List.map_append, ih, upTo_succ, List.map_append, List.flatten_append, List.map_map]
    simp [Function.comp_def]

theorem zipIdx_map_upTo {α : Type} (n : Nat) (f : Nat → α) : ((upTo n).map f).zipIdx = (upTo n).map fun i => (f i, i) := by
  induction n with
  | zero => rfl
  | succ n ih =>
    have hl : ((upTo n).map f).length = n := by rw [List.length_map]; exact List.length_range
    rw [upTo_succ, List.map_append, List.zipIdx_append, ih, List.map_append, hl]
    simp

-- ### Counters within counters

section
variable {β : Type} [AddCommMonoid β]

/-- What counters contribute at a number, the innermost first: each has its extent and its step. -/
def stepsAt : List (Nat × β) → Nat → β
  | [], _ => 0
  | (e, st) :: ls, n => (n % e) • st + stepsAt ls (n / e)

/-- The positions that counters visit from `a`, the outermost counter first. -/
def nested : List (Nat × β) → β → List β
  | [], a => [a]
  | (e, st) :: ls, a => ((upTo e).map fun i => nested ls (a + i • st)).flatten

/-- The number of positions. -/
def positions (ls : List (Nat × β)) : Nat := (ls.map Prod.fst).prod

theorem stepsAt_append (ks : List (Nat × β)) (e : Nat) (st : β) (n : Nat) :
    stepsAt (ks ++ [(e, st)]) n = stepsAt ks n + (n / positions ks % e) • st := by
  induction ks generalizing n with
  | nil => simp [stepsAt, positions]
  | cons k ks ih =>
    have hp : positions (k :: ks) = k.1 * positions ks := List.prod_cons
    rw [List.cons_append, stepsAt, stepsAt, ih, hp, Nat.div_div_eq_div_mul, add_assoc]

/-- Counters start again after all of their positions. -/
theorem stepsAt_period (ks : List (Nat × β)) (i n : Nat) : stepsAt ks (i * positions ks + n) = stepsAt ks n := by
  induction ks generalizing i n with
  | nil => rfl
  | cons k ks ih =>
    obtain ⟨e, st⟩ := k
    have hp : i * positions ((e, st) :: ks) + n = e * (i * positions ks) + n := by
      rw [show positions ((e, st) :: ks) = e * positions ks from List.prod_cons]
      ring
    rcases Nat.eq_zero_or_pos e with rfl | he
    · rw [hp, Nat.zero_mul, Nat.zero_add]
    · rw [hp, stepsAt, stepsAt, Nat.mul_add_mod, Nat.mul_add_div he, ih]

/-- The positions by their numbers. -/
theorem nested_eq (ls : List (Nat × β)) (a : β) : nested ls.reverse a = (upTo (positions ls)).map fun n => a + stepsAt ls n := by
  induction ls using List.reverseRecOn generalizing a with
  | nil => simp [nested, positions, upTo, stepsAt]
  | append_singleton ks k ih =>
    obtain ⟨e, st⟩ := k
    have hp : positions (ks ++ [(e, st)]) = e * positions ks := by simp [positions, Nat.mul_comm]
    rw [List.reverse_concat, nested, hp, map_upTo_mul]
    congr 1
    refine List.map_congr_left fun i hi => ?_
    rw [ih]
    refine List.map_congr_left fun n hn => ?_
    have hi := mem_upTo.1 hi
    have hn := mem_upTo.1 hn
    rw [stepsAt_append, stepsAt_period, Nat.add_comm (i * positions ks), Nat.add_mul_div_right _ _ (by omega), Nat.div_eq_of_lt hn, Nat.zero_add,
      Nat.mod_eq_of_lt hi, add_assoc, add_comm (i • st)]

end

-- ### The walk of a record (R72)

/-- The index that walk number `n` visits. -/
abbrev walkIx (r : BitVec 512) (n : Nat) : Int := Spec.walkPos r [0, 1, 2, 3, 4, 5] n

theorem walkFrom_eq (r : BitVec 512) (k : Nat) (e : Int) : walkFrom r k e = nested ((upTo k).map fun j => (shE r j, shS r j)).reverse e := by
  induction k generalizing e with
  | zero => rfl
  | succ k ih =>
    rw [walkFrom, upTo_succ, List.map_append, List.reverse_append]
    simp only [ih, List.map_cons, List.map_nil, List.reverse_singleton, List.singleton_append, nested, nsmul_eq_mul]

theorem walkPos_eq (r : BitVec 512) (ks : List Nat) (n : Nat) : Spec.walkPos r ks n = stepsAt (ks.map fun j => (shE r j, shS r j)) n := by
  induction ks generalizing n with
  | nil => rfl
  | cons k ks ih => rw [Spec.walkPos, ih, List.map_cons, stepsAt, nsmul_eq_mul]

theorem walkOffs_eq (r : BitVec 512) : walkOffs r = (upTo (shCount r)).map (walkIx r) := by
  have hc : positions ((upTo 6).map fun j => (shE r j, shS r j)) = shCount r := by
    simp only [positions, upTo, List.range_succ, List.range_zero, List.nil_append, List.cons_append, List.map_cons, List.map_nil, List.prod_cons, List.prod_nil,
      shCount]
    ring
  rw [walkOffs, walkFrom_eq, nested_eq, hc]
  refine List.map_congr_left fun n _ => ?_
  rw [zero_add, walkIx, walkPos_eq]
  rfl

theorem numbered_eq (r : BitVec 512) : numbered r = (upTo (shCount r)).map fun n => (n, walkIx r n) := by
  rw [numbered, walkOffs_eq, zipIdx_map_upTo, List.map_map]
  rfl

/-- The index of an element by its row of a tensor of up to three dimensions. -/
theorem walkIx_row (r : BitVec 512) {i m b : Nat} (hi : i < shE r 0) (hm : m < shE r 1) (hb : b < shE r 2) :
    walkIx r (i + shE r 0 * (m + shE r 1 * b)) = (i : Int) * shS r 0 + ((m : Int) * shS r 1 + (b : Int) * shS r 2) := by
  have h0 : (i + shE r 0 * (m + shE r 1 * b)) % shE r 0 = i := by rw [Nat.add_mul_mod_self_left, Nat.mod_eq_of_lt hi]
  have d0 : (i + shE r 0 * (m + shE r 1 * b)) / shE r 0 = m + shE r 1 * b := by rw [Nat.add_mul_div_left _ _ (by omega), Nat.div_eq_of_lt hi, Nat.zero_add]
  have h1 : (m + shE r 1 * b) % shE r 1 = m := by rw [Nat.add_mul_mod_self_left, Nat.mod_eq_of_lt hm]
  have d1 : (m + shE r 1 * b) / shE r 1 = b := by rw [Nat.add_mul_div_left _ _ (by omega), Nat.div_eq_of_lt hm, Nat.zero_add]
  simp only [walkIx, Spec.walkPos, h0, d0, h1, d1, Nat.mod_eq_of_lt hb, Nat.div_eq_of_lt hb, Nat.zero_mod, Nat.zero_div]
  ring

-- ### The span (R74)

theorem extents_pos {r : BitVec 512} (h : 0 < shCount r) :
    0 < shE r 0 ∧ 0 < shE r 1 ∧ 0 < shE r 2 ∧ 0 < shE r 3 ∧ 0 < shE r 4 ∧ 0 < shE r 5 := by
  simp only [shCount, Nat.pos_iff_ne_zero, ne_eq, Nat.mul_eq_zero, not_or] at h ⊢
  tauto

/-- What a counter contributes lies between what its ends do. -/
theorem digit_bounds {e : Nat} (s : Int) (n : Nat) (he : 0 < e) :
    min 0 (((e : Int) - 1) * s) ≤ ((n % e : Nat) : Int) * s ∧ ((n % e : Nat) : Int) * s ≤ max 0 (((e : Int) - 1) * s) := by
  have hd : ((n % e : Nat) : Int) ≤ (e : Int) - 1 := by
    have := Nat.mod_lt n he
    omega
  have h0 : (0 : Int) ≤ ((n % e : Nat) : Int) := Int.natCast_nonneg _
  rcases le_total 0 s with hs | hs
  · exact ⟨(min_le_left _ _).trans (mul_nonneg h0 hs), (mul_le_mul_of_nonneg_right hd hs).trans (le_max_right _ _)⟩
  · exact ⟨(min_le_right _ _).trans (mul_le_mul_of_nonpos_right hd hs), (mul_nonpos_of_nonneg_of_nonpos h0 hs).trans (le_max_left _ _)⟩

theorem walkIx_bounds {r : BitVec 512} (h : 0 < shCount r) (n : Nat) : walkLow r ≤ walkIx r n ∧ walkIx r n ≤ walkHigh r := by
  obtain ⟨h0, h1, h2, h3, h4, h5⟩ := extents_pos h
  have b0 := digit_bounds (shS r 0) n h0
  have b1 := digit_bounds (shS r 1) (n / shE r 0) h1
  have b2 := digit_bounds (shS r 2) (n / shE r 0 / shE r 1) h2
  have b3 := digit_bounds (shS r 3) (n / shE r 0 / shE r 1 / shE r 2) h3
  have b4 := digit_bounds (shS r 4) (n / shE r 0 / shE r 1 / shE r 2 / shE r 3) h4
  have b5 := digit_bounds (shS r 5) (n / shE r 0 / shE r 1 / shE r 2 / shE r 3 / shE r 4) h5
  simp only [walkLow, walkHigh, walkIx, Spec.walkPos, upTo, List.range_succ, List.range_zero, List.nil_append, List.cons_append, List.map_cons, List.map_nil,
    List.foldl_cons, List.foldl_nil]
  constructor <;> linarith

theorem walkLow_nonpos (r : BitVec 512) : walkLow r ≤ 0 := by
  simp only [walkLow, upTo, List.range_succ, List.range_zero, List.nil_append, List.cons_append, List.map_cons, List.map_nil, List.foldl_cons, List.foldl_nil]
  have h : ∀ x : Int, min 0 x ≤ 0 := fun x => min_le_left _ _
  linarith [h (((shE r 0 : Int) - 1) * shS r 0), h (((shE r 1 : Int) - 1) * shS r 1), h (((shE r 2 : Int) - 1) * shS r 2),
    h (((shE r 3 : Int) - 1) * shS r 3), h (((shE r 4 : Int) - 1) * shS r 4), h (((shE r 5 : Int) - 1) * shS r 5)]

theorem walkHigh_nonneg (r : BitVec 512) : 0 ≤ walkHigh r := by
  simp only [walkHigh, upTo, List.range_succ, List.range_zero, List.nil_append, List.cons_append, List.map_cons, List.map_nil, List.foldl_cons, List.foldl_nil]
  have h : ∀ x : Int, 0 ≤ max 0 x := fun x => le_max_left _ _
  linarith [h (((shE r 0 : Int) - 1) * shS r 0), h (((shE r 1 : Int) - 1) * shS r 1), h (((shE r 2 : Int) - 1) * shS r 2),
    h (((shE r 3 : Int) - 1) * shS r 3), h (((shE r 4 : Int) - 1) * shS r 4), h (((shE r 5 : Int) - 1) * shS r 5)]

/-- A record whose elements are `b` bytes each. -/
structure WholeBytes (r : BitVec 512) (b : Nat) : Prop where
  pos : 0 < b
  width : fmtWidth (shFmt r) = 8 * b
  bit : shBitoff r = 0

theorem WholeBytes.of {r : BitVec 512} (h0 : 0 < fmtWidth (shFmt r)) (h8 : fmtWidth (shFmt r) % 8 = 0) (hb : shBitoff r = 0) :
    WholeBytes r (fmtWidth (shFmt r) / 8) := ⟨by omega, by omega, hb⟩

theorem fmtWidth_plane {f : Nat} (h : isPlane f = true) : fmtWidth f = 0 := by
  simp only [isPlane, Bool.and_eq_true, decide_eq_true_eq] at h
  unfold fmtWidth
  split <;> omega

theorem WholeBytes.not_plane {r : BitVec 512} {b : Nat} (h : WholeBytes r b) : isPlane (shFmt r) = false := by
  cases hp : isPlane (shFmt r) with
  | false => rfl
  | true =>
    have h1 := fmtWidth_plane hp
    have h2 := h.width
    have h3 := h.pos
    omega

theorem shSpan_bytes {r : BitVec 512} {b : Nat} (h : WholeBytes r b) :
    shSpan r = ((Spec.ofs (shPtr r) : Int) + b * walkLow r, (Spec.ofs (shPtr r) : Int) + b * walkHigh r + b - 1) := by
  have hb := h.pos
  have hw : ((fmtWidth (shFmt r) : Nat) : Int) = 8 * (b : Int) := by rw [h.width]; push_cast; rfl
  unfold shSpan
  simp only [h.not_plane, Bool.false_eq_true, if_false, h.bit, hw, ptrOffset_eq, Int.mul_assoc]
  generalize (b : Int) * walkLow r = x
  generalize (b : Int) * walkHigh r = y
  exact Prod.ext (by dsimp only; omega) (by dsimp only; omega)

theorem shSpan_plane {r : BitVec 512} (h : isPlane (shFmt r) = true) :
    shSpan r = ((Spec.ofs (shPtr r) : Int) + walkLow r / 64 * planeB (shFmt r), (Spec.ofs (shPtr r) : Int) + (walkHigh r / 64 + 1) * planeB (shFmt r) - 1) := by
  unfold shSpan
  simp only [h, if_true, ptrOffset_eq]

/-- The byte at which element index `e` starts. -/
def elemOff (r : BitVec 512) (e : Int) : Nat := ((Spec.ofs (shPtr r) : Int) + e * (fmtWidth (shFmt r) / 8 : Nat)).toNat

theorem elemOff_walk (r : BitVec 512) (n : Nat) : elemOff r (walkIx r n) = Spec.tensorOff r n := rfl

theorem elemBit_eq {r : BitVec 512} {b : Nat} (h : WholeBytes r b) (e : Int) : elemBit r e = 8 * elemOff r e := by
  have h8 : 8 * b / 8 = b := by omega
  rw [elemBit, elemOff, h.bit, h.width, h8, ptrOffset_eq]
  push_cast
  rw [show e * (8 * (b : Int)) = 8 * (e * b) by ring]
  omega

/-- The elements of a record lie in its span. -/
theorem elemOff_span {r : BitVec 512} {b lo hi : Nat} (h : WholeBytes r b) (hc : 0 < shCount r) (hs : shSpan r = ((lo : Int), (hi : Int))) (n : Nat) :
    (Spec.tensorOff r n : Int) = (Spec.ofs (shPtr r) : Int) + walkIx r n * b ∧ lo ≤ Spec.tensorOff r n ∧ Spec.tensorOff r n + b ≤ hi + 1 := by
  obtain ⟨h1, h2⟩ := walkIx_bounds hc n
  rw [shSpan_bytes h] at hs
  obtain ⟨hlo, hhi⟩ := Prod.mk.inj hs
  have e1 : (b : Int) * walkLow r ≤ walkIx r n * b := by rw [Int.mul_comm]; exact Int.mul_le_mul_of_nonneg_right h1 (by omega)
  have e2 : walkIx r n * b ≤ (b : Int) * walkHigh r := by rw [Int.mul_comm (b : Int)]; exact Int.mul_le_mul_of_nonneg_right h2 (by omega)
  have h8 : fmtWidth (shFmt r) / 8 = b := by rw [h.width]; omega
  have ho : Spec.tensorOff r n = ((Spec.ofs (shPtr r) : Int) + walkIx r n * b).toNat := by rw [Spec.tensorOff, h8]
  rw [ho]
  omega

/-- Different elements of a record that may be written lie apart. -/
theorem tensorOff_apart {r : BitVec 512} {b lo hi n m : Nat} (h : WholeBytes r b) (hc : 0 < shCount r) (hs : shSpan r = ((lo : Int), (hi : Int)))
    (hne : Spec.tensorOff r m ≠ Spec.tensorOff r n) :
    Spec.tensorOff r n + b ≤ Spec.tensorOff r m ∨ Spec.tensorOff r m + b ≤ Spec.tensorOff r n := by
  have hn := (elemOff_span h hc hs n).1
  have hm := (elemOff_span h hc hs m).1
  have hb : (0 : Int) < b := by have := h.pos; omega
  rcases lt_trichotomy (walkIx r n) (walkIx r m) with hlt | heq | hgt
  · have := Int.mul_le_mul_of_nonneg_right (Int.add_one_le_of_lt hlt) hb.le
    rw [Int.add_mul, Int.one_mul] at this
    omega
  · rw [heq] at hn
    omega
  · have := Int.mul_le_mul_of_nonneg_right (Int.add_one_le_of_lt hgt) hb.le
    rw [Int.add_mul, Int.one_mul] at this
    omega

end Sys2Proof.Machine

/-! PROOFS. Tensors in the local windows (R70, R72, R74, R77, R110): their spans pass their checks, and their elements are read and written where they lie. -/

namespace Sys2Proof.Machine

-- ### Runs of bytes, cut at the lines

/-- Pieces that follow each other from `a` to `b`. -/
def Adjoin : List (Nat × Nat) → Nat → Nat → Prop
  | [], a, b => a = b
  | (o, n) :: ps, a, b => o = a ∧ Adjoin ps (a + n) b

theorem Adjoin.le {ps : List (Nat × Nat)} {a b : Nat} (h : Adjoin ps a b) : a ≤ b := by
  induction ps generalizing a with
  | nil => exact Nat.le_of_eq h
  | cons p ps ih => exact (Nat.le_add_right a p.2).trans (ih h.2)

/-- The piece of the bytes `lo` to `hi - 1` in line `j`. -/
def piece (lo hi j : Nat) : Nat × Nat := (max lo (256 * j), min (256 - max lo (256 * j) % 256) (hi - max lo (256 * j)))

theorem adjoin_piece {lo hi : Nat} (c j : Nat) (hlo : lo / 256 ≤ j) (hj : j + c = (hi - 1) / 256) (hlt : lo < hi) :
    Adjoin ((List.range' j (c + 1)).map (piece lo hi)) (max lo (256 * j)) hi := by
  induction c generalizing j with
  | zero =>
    refine ⟨rfl, ?_⟩
    simp only [List.range'_zero, List.map_nil, Adjoin]
    omega
  | succ c ih =>
    refine ⟨rfl, ?_⟩
    have h := ih (j + 1) (by omega) (by omega)
    have hn : max lo (256 * j) + (piece lo hi j).2 = max lo (256 * (j + 1)) := by
      simp only [piece]
      omega
    rw [← hn] at h
    exact h

theorem pieces_adjoin (off n : Nat) : Adjoin (pieces off n) off (off + n) := by
  unfold pieces
  split
  · rename_i h
    rw [h]
    rfl
  · rename_i h
    have hm : (lineOffs off (off + n - 1)).map (fun o => (o, min (256 - o % 256) (off + n - o))) =
        (List.range' (off / 256) ((off + n - 1) / 256 - off / 256 + 1)).map (piece off (off + n)) := by
      rw [lineOffs, List.map_map, List.range'_eq_map_range, List.map_map]
      rfl
    have hle : off / 256 ≤ (off + n - 1) / 256 := Nat.div_le_div_right (by omega)
    have hp := adjoin_piece (lo := off) (hi := off + n) ((off + n - 1) / 256 - off / 256) (off / 256) le_rfl (by omega) (by omega)
    rw [hm]
    rwa [Nat.max_eq_left (by omega)] at hp

/-- What is written in two runs, one after the other. -/
theorem State.WroteRun.append {s t u : State} {l : Loc} {p : Nat} {as bs : List Byte} (h : s.WroteRun t l p as) (g : t.WroteRun u l (p + as.length) bs) :
    s.WroteRun u l p (as ++ bs) := by
  refine ⟨h.edits.trans g.edits, fun l' a => ?_⟩
  rw [g.byte, h.byte, List.length_append]
  by_cases hl : l' = l
  · simp only [hl, true_and]
    by_cases h1 : p + as.length ≤ a ∧ a < p + as.length + bs.length
    · rw [if_pos h1, if_pos (by omega), List.getD_append_right _ _ _ _ (by omega), Nat.sub_add_eq]
    · rw [if_neg h1]
      by_cases h2 : p ≤ a ∧ a < p + as.length
      · rw [if_pos h2, if_pos (by omega), List.getD_append _ _ _ _ (by omega)]
      · rw [if_neg h2, if_neg (by omega)]
  · rw [if_neg (fun e => hl e.1), if_neg (fun e => hl e.1), if_neg (fun e => hl e.1)]

section
variable {s : State} {l : Loc} (hl : l.near)
include hl

theorem readPieces_adjoin (hb : s.lbad = []) (a : Acc) (p : Word) {ps : List (Nat × Nat)} {x y : Nat} (h : Adjoin ps x y) :
    readPieces s.active l a p ps s = (.ok ((List.range' x (y - x)).map (s.localByte s.active l)), s) := by
  induction ps generalizing x with
  | nil =>
    obtain rfl : x = y := h
    rw [Nat.sub_self]
    rfl
  | cons q ps ih =>
    obtain ⟨o, n⟩ := q
    obtain ⟨rfl, h⟩ := h
    have hle := h.le
    have hsplit : List.range' o (y - o) = List.range' o n ++ List.range' (o + n) (y - (o + n)) := by
      rw [show y - o = n + (y - (o + n)) by omega, ← List.range'_append, Nat.one_mul]
    rw [readPieces, bind_ok (homeRead_near hl hb ..), bind_ok (ih h), hsplit, List.map_append, List.range'_eq_map_range (s := o), List.map_map]
    rfl

/-- R110: a run of bytes of a window. -/
theorem readRun_near (hb : s.lbad = []) (a : Acc) (p : Word) (off n : Nat) :
    readRun s.active l a p off n s = (.ok ((upTo n).map fun i => s.localByte s.active l (off + i)), s) := by
  rw [readRun, readPieces_adjoin hl hb a p (pieces_adjoin off n), Nat.add_sub_cancel_left, List.range'_eq_map_range, List.map_map]
  rfl

theorem homeStore_near (a : Acc) (p : Word) (off : Nat) (bs : List Byte) :
    homeStore s.active l a p off bs s = (.ok (), s.localPut s.active l off bs) := by
  rcases hl with rfl | rfl | rfl <;> rfl

theorem writePieces_adjoin (p : Word) {ps : List (Nat × Nat)} {x y : Nat} (h : Adjoin ps x y) (bs : List Byte) (hlen : x + bs.length = y) :
    ∃ t, writePieces s.active l p ps bs s = (.ok (), t) ∧ s.WroteRun t l (Spec.place s l 0 x) bs := by
  induction ps generalizing s x bs with
  | nil =>
    obtain rfl : x = y := h
    obtain rfl : bs = [] := List.eq_nil_of_length_eq_zero (by omega)
    exact ⟨s, rfl, .nil ..⟩
  | cons q ps ih =>
    obtain ⟨o, n⟩ := q
    obtain ⟨rfl, h⟩ := h
    have hle := h.le
    have hrun := localPut_run (s := s) hl 0 o (bs.take n)
    have htake : (bs.take n).length = n := by rw [List.length_take]; omega
    obtain ⟨t, ht, hrest⟩ := ih (s := s.localPut s.active l o (bs.take n)) h (bs.drop n) (by rw [List.length_drop]; omega)
    rw [hrun.edits.active] at ht
    rw [hrun.edits.place, place_add] at hrest
    refine ⟨t, ?_, ?_⟩
    · rw [writePieces, bind_ok (homeStore_near hl ..)]
      exact ht
    · have h2 := hrun.append (bs := bs.drop n) (by rw [htake]; exact hrest)
      rwa [List.take_append_drop] at h2

/-- R110: a run of bytes written through a window. -/
theorem writeRun_near (p : Word) (off : Nat) (bs : List Byte) :
    ∃ t, writeRun s.active l p off bs s = (.ok (), t) ∧ s.WroteRun t l (Spec.place s l 0 off) bs :=
  writePieces_adjoin hl p (pieces_adjoin off bs.length) bs rfl

theorem leNat_readRun (off n : Nat) : leNat ((upTo n).map fun i => s.localByte s.active l (off + i)) = Spec.winNat s l off n := leNat_localBytes hl 0 off n

/-- R91: bits that are whole bytes. -/
theorem readBits_near (hb : s.lbad = []) (a : Acc) (p : Word) (o : Nat) {n : Nat} (hn : 0 < n) :
    readBits s.active l a p (8 * o) (8 * n) s = (.ok (Spec.winNat s l o n), s) := by
  have h1 : 8 * o / 8 = o := by omega
  have h2 : (8 * o + 8 * n - 1) / 8 - o + 1 = n := by omega
  have h3 : natBits (Spec.winNat s l o n) (8 * o % 8) (8 * n) = Spec.winNat s l o n := by
    rw [Nat.mul_mod_right, natBits, Nat.shiftRight_zero, pow_two_bits, Nat.mod_eq_of_lt (winNat_lt ..)]
  rw [readBits, h1, h2, bind_ok (readRun_near hl hb a p o n)]
  rw [leNat_readRun hl, h3]
  rfl

theorem writeBits_near (p : Word) (o : Nat) {n : Nat} (hn : 0 < n) (x : Nat) :
    ∃ t, writeBits s.active l p (8 * o) (8 * n) x s = (.ok (), t) ∧ s.WroteRun t l (Spec.place s l 0 o) (natBytes n x) := by
  have h1 : 8 * o / 8 = o := by omega
  have h2 : (8 * o + 8 * n - 1) / 8 - o + 1 = n := by omega
  unfold writeBits
  simp only [h1, h2, Nat.mul_mod_right, and_self, if_true, pow_two_bits, ← natBytes_mod]
  exact writeRun_near hl p o _

-- ### Elements (R72, R97)

theorem tagAt_near (c : Nat) (a : Acc) (p : Word) (off : Nat) : tagAt c l a p off s = (.ok none, s) := by
  rcases hl with rfl | rfl | rfl <;> rfl

theorem checkTags_near (c : Nat) (r : BitVec 512) (a : Acc) (offs : List Nat) : checkTags c ⟨r, l⟩ a offs s = (.ok (), s) := by
  induction offs with
  | nil => rfl
  | cons off offs ih => rw [checkTags, bind_ok (tagAt_near hl ..)]; exact ih

theorem tagged_near (r : BitVec 512) : (⟨r, l⟩ : Tens).tagged = false := by
  rcases hl with rfl | rfl | rfl <;> rfl

omit hl in
theorem scale_zero (v : Val) : v.scale 0 = v := by cases v <;> simp [Val.scale]

theorem readVal_near (hb : s.lbad = []) {r : BitVec 512} {n : Nat} (hr : WholeBytes r n) (flush : Bool) (e : Int) :
    readVal s.active flush ⟨r, l⟩ e s = (.ok (decodeFmt (shFmt r) (flush && shFmt r == 2) (Spec.winNat s l (elemOff r e) n)), s) := by
  unfold readVal
  simp only [elemBit_eq hr, hr.width]
  rw [bind_ok (checkTags_near hl ..), bind_ok (readBits_near hl hb _ _ _ hr.pos), bind_ok (tagAt_near hl ..)]
  change (Except.ok ((decodeFmt (shFmt r) _ _).scale 0), s) = _
  rw [scale_zero]
  rfl

theorem writeVal_near {r : BitVec 512} {n : Nat} (hr : WholeBytes r n) (e sd : Int) (x : Nat) :
    ∃ t, writeVal s.active ⟨r, l⟩ e sd x s = (.ok (), t) ∧ s.WroteRun t l (Spec.place s l 0 (elemOff r e)) (natBytes n x) := by
  obtain ⟨t, ht, hrun⟩ := writeBits_near (s := s) hl (shPtr r) (elemOff r e) hr.pos x
  refine ⟨t, ?_, hrun⟩
  unfold writeVal
  simp only [elemBit_eq hr, hr.width, tagged_near hl]
  exact (bind_ok ht).trans rfl

theorem flush_near (r : BitVec 512) (c : Nat) (drop : Bool) : (⟨r, l⟩ : Tens).flush c drop s = (.ok (), s) := by
  rcases hl with rfl | rfl | rfl <;> rfl
theorem translateAll_near (r : BitVec 512) (c : Nat) (a : Acc) : (⟨r, l⟩ : Tens).translateAll c a s = (.ok (), s) := by
  rcases hl with rfl | rfl | rfl <;> rfl

end

/-- Elements read one by one. -/
theorem readUntil_all {α β γ : Type} {f : β → M α} {s : State} {p : γ → β} {v : γ → α} {js : List γ} (h : ∀ j ∈ js, f (p j) s = (.ok (v j), s)) :
    readUntil f (js.map p) s = (.ok (js.map v, none), s) := by
  induction js with
  | nil => rfl
  | cons j js ih =>
    have ht : tryM (f (p j)) s = (.ok (.ok (v j)), s) := by rw [tryM, h j (List.mem_cons_self ..)]
    rw [List.map_cons, readUntil, bind_ok ht]
    exact (bind_ok (ih fun y hy => h y (List.mem_cons_of_mem _ hy))).trans rfl

-- ### Opening a tensor

section
variable {s : State} {l : Loc} {r : BitVec 512}

theorem spanIn_near (h : Spec.spanIn s r l) : l.near := by
  obtain ⟨hl, -, -, lo, hi, -, hw⟩ := h
  exact near_of_inWindow hl hw

theorem spanIn_atWork {q : Req} (hcq : q.qs.contains .cq = false) (hq : s.Quiet q.h) (h : Spec.spanIn s r l) : Spec.spanIn (s.atWork q) r l := by
  obtain ⟨hl, hi, hc, lo, hi', hs, hw⟩ := h
  exact ⟨hl, hi, hc, lo, hi', hs, State.inWindow_atWork hcq hq hw⟩

/-- R74: a record whose span the core may reach. -/
theorem tensor_near (h : Spec.spanIn s r l) (hf : isPlane (shFmt r) = true ∨ ∃ b, WholeBytes r b) (u : User) (a : Acc) :
    tensor s.active u a r s = (.ok ⟨r, l⟩, s) := by
  obtain ⟨hl, hidx, hc, lo, hi, hs, hw⟩ := h
  have hle : lo ≤ hi := by
    have h1 := walkLow_nonpos r
    have h2 := walkHigh_nonneg r
    rcases hf with hp | ⟨b, hb⟩
    · rw [shSpan_plane hp] at hs
      obtain ⟨e1, e2⟩ := Prod.mk.inj hs
      have hB : (64 : Int) ≤ planeB (shFmt r) := by unfold planeB; omega
      have a1 : walkLow r / 64 * planeB (shFmt r) ≤ 0 := Int.mul_nonpos_of_nonpos_of_nonneg (by omega) (by omega)
      have a2 : (planeB (shFmt r) : Int) ≤ (walkHigh r / 64 + 1) * planeB (shFmt r) := le_mul_of_one_le_left (by omega) (by omega)
      omega
    · rw [shSpan_bytes hb] at hs
      obtain ⟨e1, e2⟩ := Prod.mk.inj hs
      have hb0 := hb.pos
      have a1 : (b : Int) * walkLow r ≤ 0 := Int.mul_nonpos_of_nonneg_of_nonpos (by omega) h1
      have a2 : 0 ≤ (b : Int) * walkHigh r := Int.mul_nonneg (by omega) h2
      omega
  have hk : checkShape s.active u a r s = (.ok l, s) := by
    rw [checkShape, hs]
    exact checkSpan_window hidx hw (by omega) (by omega) (fun e => absurd e hl)
  rw [tensor, bind_ok hk]
  rfl

end

end Sys2Proof.Machine

/-! PROOFS. Products (R103, R228, R229, R235): the groups of operands in the local windows, the iterations of a nest, and what a product makes of its
region; `MM.RUN` and `MM.BATCH`. -/

namespace Sys2Proof.Machine

-- ### Groups padded with zeros (R229)

theorem length_upTo (n : Nat) : (upTo n).length = n := List.length_range

theorem filter_upTo_lt (g a e : Nat) : (upTo g).filter (fun j => decide (a + j < e)) = upTo (min g (e - a)) := by
  induction g with
  | zero => simp [upTo]
  | succ g ih =>
    rw [upTo_succ, List.filter_append, ih]
    by_cases h : a + g < e
    · rw [show min (g + 1) (e - a) = min g (e - a) + 1 by omega, upTo_succ]
      simp [h]
      omega
    · rw [show min (g + 1) (e - a) = min g (e - a) by omega]
      simp [h]

theorem length_filter_upTo_ge (g a e : Nat) : ((upTo g).filter (fun j => decide (e ≤ a + j))).length = g - min g (e - a) := by
  induction g with
  | zero => simp [upTo]
  | succ g ih =>
    rw [upTo_succ, List.filter_append, List.length_append, ih]
    by_cases h : e ≤ a + g
    · simp [h]
      omega
    · simp [h]
      omega

/-- The elements that a group of `g` from `a` on takes of a row of `e`, and zeros after them. -/
theorem map_padded {α : Type} (g a e : Nat) (f : Nat → α) (z : α) :
    (upTo (min g (e - a))).map f ++ List.replicate (g - min g (e - a)) z = (upTo g).map fun j => if a + j < e then f j else z := by
  induction g with
  | zero => simp [upTo]
  | succ g ih =>
    rw [upTo_succ, List.map_append, ← ih]
    by_cases h : a + g < e
    · rw [show min (g + 1) (e - a) = g + 1 by omega, show min g (e - a) = g by omega, upTo_succ]
      simp [h]
    · rw [show min (g + 1) (e - a) = min g (e - a) by omega, show g + 1 - min g (e - a) = (g - min g (e - a)) + 1 by omega, List.replicate_succ']
      simp [h]

section
variable {s : State} {l : Loc} (hl : l.near) (hb : s.lbad = [])
include hl hb

/-- The element at index `i` of a row, as a number. -/
theorem readVal_row {r : BitVec 512} {n : Nat} (hr : WholeBytes r n) {i m b : Nat} (hi : i < shE r 0) (hm : m < shE r 1) (hb2 : b < shE r 2) :
    readVal s.active true ⟨r, l⟩ ((i : Int) * shS r 0 + ((m : Int) * shS r 1 + (b : Int) * shS r 2)) s =
      (.ok (decodeFmt (shFmt r) (shFmt r == 2) (Spec.tensorNat s l r (i + shE r 0 * (m + shE r 1 * b)))), s) := by
  have h8 : fmtWidth (shFmt r) / 8 = n := by rw [hr.width]; omega
  rw [readVal_near hl hb hr, Bool.true_and, ← walkIx_row r hi hm hb2, elemOff_walk, Spec.tensorNat, h8]

/-- R229: a group of an operand in a window. -/
theorem sideGroup_near {x : Side} {r : BitVec 512} {n : Nat} (hx : x.t = ⟨r, l⟩) (hr : WholeBytes r n) {b m : Nat} (hm : m < shE r 1) (hb2 : b < shE r 2)
    (k : Nat) : sideGroup s.active x b m k s =
      (.ok ⟨Spec.operandGroup s l r x.g x.n (fun i => ⟨x.rm, x.seed, i⟩) b m k, x.n, 0⟩, s) := by
  have hlt : ((upTo x.g).map fun j => x.g * k + j).filter (fun i => decide (i < shE r 0)) =
      (upTo (min x.g (shE r 0 - x.g * k))).map fun j => x.g * k + j := by
    rw [List.filter_map, ← filter_upTo_lt x.g (x.g * k) (shE r 0)]
    rfl
  have hge : (((upTo x.g).map fun j => x.g * k + j).filter (fun i => decide (shE r 0 ≤ i))).map (fun _ => (Val.zero, Mode.rne)) =
      List.replicate (x.g - min x.g (shE r 0 - x.g * k)) (Val.zero, Mode.rne) := by
    rw [List.map_const', List.filter_map, List.length_map, ← length_filter_upTo_ge x.g (x.g * k) (shE r 0)]
    rfl
  have hread : ∀ j ∈ upTo (min x.g (shE r 0 - x.g * k)),
      readVal s.active true ⟨r, l⟩ (((x.g * k + j : Nat) : Int) * shS r 0 + ((m : Int) * shS r 1 + (b : Int) * shS r 2)) s =
        (.ok (decodeFmt (shFmt r) (shFmt r == 2) (Spec.tensorNat s l r (x.g * k + j + shE r 0 * (m + shE r 1 * b)))), s) := fun j hj => by
    have hj := mem_upTo.1 hj
    exact readVal_row hl hb hr (by omega) hm hb2
  have hpad := map_padded x.g (x.g * k) (shE r 0) (fun j => (decodeFmt (shFmt r) (shFmt r == 2) (Spec.tensorNat s l r
    (x.g * k + j + shE r 0 * (m + shE r 1 * b))), (⟨x.rm, x.seed, x.g * k + j + shE r 0 * (m + shE r 1 * b)⟩ : Mode))) (Val.zero, Mode.rne)
  have hix : ∀ j, shE r 0 * (m + shE r 1 * b) + x.g * k + j = x.g * k + j + shE r 0 * (m + shE r 1 * b) := fun j => by ring
  unfold sideGroup
  simp only [hx, hr.not_plane, Bool.false_eq_true, if_false, hlt, hge, List.map_map, Function.comp_def]
  rw [bind_ok (readUntil_all (p := fun j : Nat => (shE r 0 * (m + shE r 1 * b) + (x.g * k + j), ((x.g * k + j : Nat) : Int) * shS r 0 +
    ((m : Int) * shS r 1 + (b : Int) * shS r 2))) hread)]
  dsimp only
  rw [zipIdx_map_upTo, List.map_map]
  simp only [Function.comp_def, hix, hpad, Spec.operandGroup]
  rfl

end

-- ### The iterations of a nest (R225, R229)

theorem nestWalk_eq (x : Nest) (l a b : Nat) : x.walk l a b =
    nested ((upTo l).map fun j => (x.e.getD j 1, (x.sa.getD j 0, x.sb.getD j 0))).reverse (a, b) := by
  induction l generalizing a b with
  | zero => rfl
  | succ l ih =>
    rw [Nest.walk, upTo_succ, List.map_append, List.reverse_append]
    simp only [ih, List.map_cons, List.map_nil, List.reverse_singleton, List.singleton_append, nested, Prod.smul_mk, Prod.mk_add_mk, smul_eq_mul]

theorem groupIx_eq (ls : List (Nat × Nat)) (j : Nat) : Spec.groupIx ls j = stepsAt ls j := by
  induction ls generalizing j with
  | nil => rfl
  | cons p ls ih => rw [Spec.groupIx, ih, stepsAt, smul_eq_mul]

theorem stepsAt_pair (ls : List (Nat × (Nat × Nat))) (j : Nat) :
    stepsAt ls j = (stepsAt (ls.map fun p => (p.1, p.2.1)) j, stepsAt (ls.map fun p => (p.1, p.2.2)) j) := by
  induction ls generalizing j with
  | nil => rfl
  | cons p ls ih => simp only [stepsAt, List.map_cons, ih, Prod.smul_def, Prod.mk_add_mk]

/-- The last position of counters. -/
theorem stepsAt_last (ls : List (Nat × Nat)) (h : ∀ p ∈ ls, 0 < p.1) : 0 < positions ls ∧ stepsAt ls (positions ls - 1) = (ls.map fun p => (p.1 - 1) * p.2).sum := by
  induction ls with
  | nil => exact ⟨Nat.one_pos, rfl⟩
  | cons p ls ih =>
    obtain ⟨he, hls⟩ := List.forall_mem_cons.1 h
    obtain ⟨hpos, ih⟩ := ih hls
    have hp : positions (p :: ls) = p.1 * positions ls := List.prod_cons
    have hlast : p.1 * positions ls - 1 = p.1 * (positions ls - 1) + (p.1 - 1) := by
      obtain ⟨q, hq⟩ : ∃ q, positions ls = q + 1 := ⟨positions ls - 1, by omega⟩
      rw [hq, Nat.mul_succ, Nat.add_sub_cancel]
      omega
    refine ⟨hp ▸ Nat.mul_pos he hpos, ?_⟩
    rw [hp, hlast, stepsAt, Nat.mul_add_mod, Nat.mod_eq_of_lt (by omega), Nat.mul_add_div he, Nat.div_eq_of_lt (show p.1 - 1 < p.1 by omega), Nat.add_zero, ih,
      List.map_cons, List.sum_cons, smul_eq_mul]

/-- The levels of a slot of six. -/
theorem levels_eq {e st : List Nat} (he : e.length = 6) (hs : st.length = 6) : ((upTo 6).map fun j => (e.getD j 1, st.getD j 0)) = e.zip st := by
  refine List.ext_getElem (by rw [List.length_map, length_upTo, List.length_zip, he, hs]; rfl) fun i h1 h2 => ?_
  rw [List.length_map, length_upTo] at h1
  have hu : ∀ h, (upTo 6)[i]'h = i := fun _ => List.getElem_range _
  rw [List.getElem_map, hu, List.getElem_zip, List.getD_eq_getElem _ _ (he ▸ h1), List.getD_eq_getElem _ _ (hs ▸ h1)]

theorem positions_zip {e st : List Nat} (h : e.length ≤ st.length) : positions (e.zip st) = e.foldl (· * ·) 1 := by
  rw [positions, List.map_fst_zip h, List.prod_eq_foldl]

section
variable {x : Nest} (hx : Spec.Nest.whole x)
include hx

theorem iters_eq : x.iters = (upTo (Spec.iterations x)).map fun j => (Spec.groupIx (x.e.zip x.sa) j, Spec.groupIx (x.e.zip x.sb) j) := by
  obtain ⟨he, ha, hb, -⟩ := hx
  have hA := levels_eq he ha
  have hB := levels_eq he hb
  have hp : positions ((upTo 6).map fun j => (x.e.getD j 1, (x.sa.getD j 0, x.sb.getD j 0))) = Spec.iterations x := by
    rw [Spec.iterations, ← positions_zip (he.trans ha.symm).le, ← hA, positions, positions, List.map_map, List.map_map]
    rfl
  rw [Nest.iters, nestWalk_eq, nested_eq, hp]
  refine List.map_congr_left fun j _ => ?_
  rw [stepsAt_pair, List.map_map, List.map_map, groupIx_eq, groupIx_eq, ← hA, ← hB]
  exact zero_add _

theorem count_eq : x.count = Spec.iterations x := by rw [Nest.count, List.take_of_length_le hx.1.le, Spec.iterations]

/-- R228: the greatest group index of a side is that of the last iteration. -/
theorem maxIx_lt {st : List Nat} (hs : st.length = 6) {g : Nat} (h : ∀ j < Spec.iterations x, Spec.groupIx (x.e.zip st) j < g) :
    ((upTo 6).map fun l => (x.e.getD l 1 - 1) * st.getD l 0).foldl (· + ·) 0 < g := by
  obtain ⟨he, -, -, hpos⟩ := hx
  obtain ⟨h0, hlast⟩ := stepsAt_last (x.e.zip st) fun p hp => hpos _ (List.of_mem_zip hp).1
  rw [positions_zip (he.trans hs.symm).le] at h0 hlast
  have hsum : ((upTo 6).map fun l => (x.e.getD l 1 - 1) * st.getD l 0).foldl (· + ·) 0 = ((x.e.zip st).map fun p => (p.1 - 1) * p.2).sum := by
    rw [← levels_eq he hs, List.map_map, List.sum_eq_foldl]
    rfl
  have hlt := h (Spec.iterations x - 1) (Nat.sub_lt h0 Nat.one_pos)
  rw [groupIx_eq] at hlt
  rw [hsum, ← hlast]
  exact hlt

end

-- ### The groups that a product reads

/-- A side of a product whose operand lies in a window. -/
structure Side.Near (x : Side) (r : BitVec 512) (l : Loc) : Prop where
  near : l.near
  tens : x.t = ⟨r, l⟩
  bytes : ∃ n, WholeBytes r n

/-- The groups of the rows of a side at one index. -/
def sideGroups (s : State) (x : Side) (r : BitVec 512) (l : Loc) (b k : Nat) : List SideGroup :=
  (upTo (shE r 1)).map fun m => ⟨Spec.operandGroup s l r x.g x.n (fun i => ⟨x.rm, x.seed, i⟩) b m k, x.n, 0⟩

theorem getD_sideGroups {s : State} {x : Side} {r : BitVec 512} {l : Loc} {b k m : Nat} (h : m < shE r 1) (d : SideGroup) :
    (sideGroups s x r l b k).getD m d = ⟨Spec.operandGroup s l r x.g x.n (fun i => ⟨x.rm, x.seed, i⟩) b m k, x.n, 0⟩ := by
  have hu : ∀ h, (upTo (shE r 1))[m]'h = m := fun _ => List.getElem_range _
  rw [sideGroups, List.getD_eq_getElem _ _ (by rw [List.length_map, length_upTo]; exact h), List.getElem_map, hu]

/-- The groups of both sides in one batch, iteration by iteration. -/
def pairGroups (s : State) (x y : Side) (A B : BitVec 512) (la lb : Loc) (it : List (Nat × Nat)) (b : Nat) : List (List SideGroup × List SideGroup) :=
  it.map fun p => (sideGroups s x A la b p.1, sideGroups s y B lb b p.2)

section
variable {s : State} (hb : s.lbad = []) {x y : Side} {A B : BitVec 512} {la lb : Loc} (hx : x.Near A la) (hy : y.Near B lb) {b : Nat}
include hb hx

theorem sideRows_near (hb2 : b < shE A 2) (k : Nat) {ms : List Nat} (hm : ∀ m ∈ ms, m < shE A 1) :
    sideRows s.active x b k ms s = (.ok (ms.map fun m => ⟨Spec.operandGroup s la A x.g x.n (fun i => ⟨x.rm, x.seed, i⟩) b m k, x.n, 0⟩), s) := by
  obtain ⟨n, hn⟩ := hx.bytes
  induction ms with
  | nil => rfl
  | cons m ms ih =>
    obtain ⟨hm0, hm⟩ := List.forall_mem_cons.1 hm
    rw [sideRows, bind_ok (sideGroup_near hx.near hb hx.tens hn hm0 hb2 k), bind_ok (ih hm)]
    rfl

include hy

theorem sidePairs_near (hbA : b < shE A 2) (hbB : b < shE B 2) (it : List (Nat × Nat)) :
    sidePairs s.active x y b it s = (.ok (pairGroups s x y A B la lb it b), s) := by
  induction it with
  | nil => rfl
  | cons p it ih =>
    obtain ⟨ka, kb⟩ := p
    rw [sidePairs, hx.tens, hy.tens, bind_ok (sideRows_near hb hx hbA ka fun m hm => mem_upTo.1 hm),
      bind_ok (sideRows_near hb hy hbB kb fun m hm => mem_upTo.1 hm), bind_ok ih]
    rfl

theorem batchGroups_near (it : List (Nat × Nat)) {ns : List Nat} (hn : ∀ n ∈ ns, n < shE A 2 ∧ n < shE B 2) :
    batchGroups s.active x y it ns s = (.ok (ns.map (pairGroups s x y A B la lb it)), s) := by
  induction ns with
  | nil => rfl
  | cons n ns ih =>
    obtain ⟨⟨hA, hB⟩, hn⟩ := List.forall_mem_cons.1 hn
    rw [batchGroups, bind_ok (sidePairs_near hb hx hy hA hB it), bind_ok (ih hn)]
    rfl

end

/-- R103: an element goes through the groups of its row and of its column. -/
theorem accumulateAll_pairs {s : State} {X Y : Side} {A B : BitVec 512} {la lb : Loc} {b m n : Nat} (hm : m < shE A 1) (hn : n < shE B 1) (pi : Nat)
    (el : AccEl) (it : List (Nat × Nat)) : accumulateAll pi m n el (pairGroups s X Y A B la lb it b) = it.foldl (fun el p =>
      let u := accumulate pi (groupProduct X.n Y.n 0 0 (Spec.operandGroup s la A X.g X.n (fun i => ⟨X.rm, X.seed, i⟩) b m p.1)
        (Spec.operandGroup s lb B Y.g Y.n (fun i => ⟨Y.rm, Y.seed, i⟩) b n p.2)) el.h.toNat el.w.toNat el.cnt
      ⟨BitVec.ofNat 32 u.1, BitVec.ofNat 32 u.2.1, u.2.2⟩) el := by
  induction it generalizing el with
  | nil => rfl
  | cons p it ih =>
    rw [pairGroups, List.map_cons, accumulateAll, List.foldl_cons]
    simp only [getD_sideGroups hm, getD_sideGroups hn]
    exact ih _

-- ### The work of a product

theorem addProduct_eq (k : CoreSt) (x : Nest) (r0 c0 ma nb : Nat) (gs : List (List SideGroup × List SideGroup)) : k.addProduct x r0 c0 ma nb gs =
    k.mapEls x.acc (fun q => (r0 + q.1, c0 + q.2)) (fun q el => accumulateAll x.pi q.1 q.2 el gs) (rect ma nb) :=
  foldl_rect k x.acc r0 c0 ma nb fun m n el => accumulateAll x.pi m n el gs

theorem rdAcc_addProduct (k : CoreSt) (x : Nest) {r0 c0 ma nb : Nat} (gs : List (List SideGroup × List SideGroup)) (hr0 : r0 + ma ≤ 128) (hc0 : c0 + nb ≤ 64)
    {n r c : Nat} (hr : r < 128) (hc : c < 64) : (k.addProduct x r0 c0 ma nb gs).rdAcc n r c =
      if n = x.acc ∧ r0 ≤ r ∧ r < r0 + ma ∧ c0 ≤ c ∧ c < c0 + nb then accumulateAll x.pi (r - r0) (c - c0) (k.rdAcc n r c) gs else k.rdAcc n r c := by
  rw [addProduct_eq]
  exact k.rdAcc_mapEls_rect (fun m n el => accumulateAll x.pi m n el gs) hr0 hc0 hr hc

/-- The products of an entry, batch by batch. -/
def CoreSt.addProducts (k : CoreSt) (batch : Bool) (x : Nest) (ma nb : Nat) (gs : List (List (List SideGroup × List SideGroup) × Nat)) : CoreSt :=
  gs.foldl (fun k q => k.addProduct x (if batch then 8 * q.2 else x.rorg) (if batch then 4 * q.2 else x.corg) ma nb q.1) k

theorem CoreSt.tiled_addProducts (k : CoreSt) (batch : Bool) (x : Nest) (ma nb : Nat) (gs : List (List (List SideGroup × List SideGroup) × Nat)) :
    k.Tiled (k.addProducts batch x ma nb gs) := by
  induction gs generalizing k with
  | nil => exact .refl k
  | cons q gs ih =>
    rw [CoreSt.addProducts, List.foldl_cons]
    refine CoreSt.Tiled.trans ?_ (ih _)
    rw [addProduct_eq]
    exact k.tiled_mapEls

/-- R235: batch `b` goes into rows 8 b to 8 b + 7, columns 4 b to 4 b + 3. -/
theorem rdAcc_addBatches (k : CoreSt) (x : Nest) {ma nb : Nat} (hma : ma ≤ 8) (hnb : nb ≤ 4) {n r c : Nat} (hr : r < 128) (hc : c < 64)
    (gs : List (List (List SideGroup × List SideGroup))) (b : Nat) (hlen : b + gs.length ≤ 16) :
    (k.addProducts true x ma nb (gs.zipIdx b)).rdAcc n r c =
      if n = x.acc ∧ r / 8 = c / 4 ∧ b ≤ r / 8 ∧ r / 8 < b + gs.length ∧ r % 8 < ma ∧ c % 4 < nb
        then accumulateAll x.pi (r % 8) (c % 4) (k.rdAcc n r c) (gs.getD (r / 8 - b) []) else k.rdAcc n r c := by
  induction gs generalizing k b with
  | nil =>
    rw [if_neg (by simp only [List.length_nil]; omega)]
    rfl
  | cons q gs ih =>
    rw [List.length_cons] at hlen ⊢
    have hstep : (k.addProducts true x ma nb ((q :: gs).zipIdx b)) = (k.addProduct x (8 * b) (4 * b) ma nb q).addProducts true x ma nb (gs.zipIdx (b + 1)) := rfl
    rw [hstep, ih _ _ (by omega), rdAcc_addProduct k x q (by omega) (by omega) hr hc]
    by_cases h0 : n = x.acc ∧ r / 8 = c / 4 ∧ r / 8 = b ∧ r % 8 < ma ∧ c % 4 < nb
    · obtain ⟨h1, h2, h3, h4, h5⟩ := h0
      rw [if_neg (by omega), if_pos (by omega), if_pos (by omega), show r - 8 * b = r % 8 by omega, show c - 4 * b = c % 4 by omega,
        show r / 8 - b = 0 by omega, List.getD_cons_zero]
    · by_cases h1 : n = x.acc ∧ r / 8 = c / 4 ∧ b + 1 ≤ r / 8 ∧ r / 8 < b + 1 + gs.length ∧ r % 8 < ma ∧ c % 4 < nb
      · rw [if_pos h1, if_neg (by omega), if_pos (by omega), show r / 8 - b = (r / 8 - (b + 1)) + 1 by omega, List.getD_cons_succ]
      · rw [if_neg h1, if_neg (by omega), if_neg (by omega)]

/-- R243: the word of a product without a precision cap below the slot's planes. -/
theorem productWord_uncapped {x : Nest} {caps : Nat × Nat} (ha : x.na ≤ caps.1) (hb : x.nb ≤ caps.2) :
    productWord x caps = BitVec.ofNat 64 (0x800000 + 2 ^ 24 * (x.count % 2 ^ 40)) := by
  have hc : (decide (caps.1 < x.na) || decide (caps.2 < x.nb)) = false := by simp [ha, hb]
  rw [productWord, hc, if_neg (by decide), wordOk, cword]
  simp only [atBit, Nat.shiftLeft_eq, Nat.zero_mod, Nat.zero_mul, Nat.zero_add]
  rw [show (1 * 2 ^ 23 + x.count % 2 ^ 40 * 2 ^ 24) = 0x800000 + 2 ^ 24 * (x.count % 2 ^ 40) by ring]
  exact BitVec.add_zero _

theorem productWord_capBit (m : Nat) : (BitVec.ofNat 64 (0x800000 + 2 ^ 24 * m)).getLsbD 16 = false := by
  rw [BitVec.getLsbD_ofNat, Nat.testBit_eq_decide_div_mod_eq]
  simp only [Bool.and_eq_false_iff, decide_eq_false_iff_not]
  right
  omega

/-- R228, R229: the work of a product whose operands open and whose groups are read, neither of them capped nor saved. -/
theorem runProduct_open {batch : Bool} {sl : LReg} {c : Nat} {e : Entry} {s s1 s2 : State} {ta tb : Tens} {gs : List (List (List SideGroup × List SideGroup))}
    (haux : e.aux = 0) (hform : productForm batch ((s.core c).rdSlot sl) e.hs s = (.ok (), s)) (hA : 0 < shCount (e.hd 0).shape)
    (hB : 0 < shCount (e.hd 1).shape) (hopen : openProduct c ((s.core c).rdSlot sl) (e.hd 0).shape (e.hd 1).shape s = (.ok (ta, tb), s1))
    (hgs : batchGroups c (sidesOf ((s.core c).rdSlot sl) e.caps ta tb).1 (sidesOf ((s.core c).rdSlot sl) e.caps ta tb).2 ((s.core c).rdSlot sl).iters
      (upTo (shE (e.hd 0).shape 2)) s1 = (.ok gs, s2)) (hna : ((s.core c).rdSlot sl).na ≤ e.caps.1) (hnb : ((s.core c).rdSlot sl).nb ≤ e.caps.2) :
    runProduct batch false false sl c e s = (.ok (.done [] (BitVec.ofNat 64 (0x800000 + 2 ^ 24 * (((s.core c).rdSlot sl).count % 2 ^ 40)))),
      s2.modCore c fun k => k.addProducts batch ((s.core c).rdSlot sl) (shE (e.hd 0).shape 1) (shE (e.hd 1).shape 1) gs.zipIdx) := by
  have hne : ¬(decide (shCount (e.hd 0).shape = 0) || decide (shCount (e.hd 1).shape = 0)) = true := by
    simp only [Bool.or_eq_true, decide_eq_true_eq]
    omega
  unfold runProduct
  rw [run_getCore_bind]
  dsimp only
  rw [bind_ok hform]
  rw [if_neg hne, bind_ok hopen]
  dsimp only
  rw [bind_ok hgs, productWord_uncapped hna hnb, productWord_capBit]
  simp only [Bool.false_eq_true, if_false]
  rw [bind_ok (run_pure ..), bind_ok (run_pure ..), bind_ok (pushItem_none haux _)]
  rfl

/-- R73: the work of a product with an operand without elements. -/
theorem runProduct_empty {batch : Bool} {sl : LReg} {c : Nat} {e : Entry} {s : State} (haux : e.aux = 0)
    (hform : productForm batch ((s.core c).rdSlot sl) e.hs s = (.ok (), s)) (hz : shCount (e.hd 0).shape = 0 ∨ shCount (e.hd 1).shape = 0) :
    runProduct batch false false sl c e s = (.ok (.done [] (wordOk 0)), s) := by
  have hzero : (decide (shCount (e.hd 0).shape = 0) || decide (shCount (e.hd 1).shape = 0)) = true := by
    rw [Bool.or_eq_true, decide_eq_true_eq, decide_eq_true_eq]
    exact hz
  have hsave : ∀ r, saveOperand c false r s = (.ok [], s) := fun _ => rfl
  unfold runProduct
  rw [run_getCore_bind]
  dsimp only
  rw [bind_ok hform, if_pos hzero, bind_ok (hsave _), bind_ok (hsave _), bind_ok (pushItem_none haux _)]
  rfl

-- ### The groups of a slot's product

/-- The groups that a slot takes of an operand, without a cap: of batch, row and index. -/
def slotGroups (s : State) (x : Nest) (n : Nat) (sr : Bool) (r : BitVec 512) (l : Loc) : Nat → Nat → Nat → Group :=
  Spec.operandGroup s l r (16 * 2 ^ x.gg) n fun i => ⟨if sr then .sr else .rne, x.seed, i⟩

/-- All groups of a batch of the product. -/
def productGroups (s : State) (x : Nest) (A B : BitVec 512) (la lb : Loc) (b : Nat) : List (List SideGroup × List SideGroup) :=
  let sides := sidesOf x (x.na, x.nb) ⟨A, la⟩ ⟨B, lb⟩
  pairGroups s sides.1 sides.2 A B la lb x.iters b

theorem sidesOf_uncapped {x : Nest} {caps : Nat × Nat} (ha : x.na ≤ caps.1) (hb : x.nb ≤ caps.2) (ta tb : Tens) :
    sidesOf x caps ta tb = sidesOf x (x.na, x.nb) ta tb := by
  simp only [sidesOf, Nat.min_eq_right ha, Nat.min_eq_right hb, Nat.min_self]

/-- R103, R229: an element goes through the groups of its row and of its column, in the order of the iterations. -/
theorem accumulateAll_productGroups {s : State} {x : Nest} (hx : Spec.Nest.whole x) {A B : BitVec 512} {la lb : Loc} {b m n : Nat} (hm : m < shE A 1)
    (hn : n < shE B 1) (el : AccEl) : accumulateAll x.pi m n el (productGroups s x A B la lb b) =
      Spec.productEl x (slotGroups s x x.na x.rma A la b m) (slotGroups s x x.nb x.rmb B lb b n) el := by
  rw [productGroups, accumulateAll_pairs hm hn, iters_eq hx, List.foldl_map]
  simp only [sidesOf, Nat.min_self]
  rfl

end Sys2Proof.Machine

/-! PROOFS. `MM.RUN` and `MM.BATCH` at a core at rest (R228, R235). -/

namespace Sys2Proof.Machine

-- ### Operands at work

section
variable {s : State} {q : Req} (hcq : q.qs.contains .cq = false) (hq : s.Quiet q.h)
include hcq hq

theorem tensorNat_atWork (l : Loc) (r : BitVec 512) (n : Nat) : Spec.tensorNat (s.atWork q) l r n = Spec.tensorNat s l r n :=
  winNat_atWork hq hcq ..

theorem operandGroup_atWork (l : Loc) (r : BitVec 512) (g n : Nat) (md : Nat → Mode) (b m k : Nat) :
    Spec.operandGroup (s.atWork q) l r g n md b m k = Spec.operandGroup s l r g n md b m k := by
  simp only [Spec.operandGroup, tensorNat_atWork hcq hq]

end

/-- R452: the precision caps of an entry that starts. -/
theorem caps_started {s : State} {q : Req} (hq : s.Quiet q.h) : (q.started s).caps = s.capsOf s.active := by
  have hctx : ((s.entered q).core s.active).ctx = s.me.ctx := by
    rw [State.entered, State.core_setCore]
    exact (hq.enqueue_same _).ctx
  have hc : (q.started s).caps = (s.entered q).capsOf s.active := rfl
  rw [hc, State.capsOf, hctx]
  rfl

theorem good_of_holds {k : CoreSt} {a : HReg} {A : BitVec 512} (h : Spec.holds k a A) : (k.rdH a).good = true ∧ (k.rdH a).shape = A := by
  obtain ⟨h1, h2, h3⟩ := h
  exact ⟨by simp [Handle.good, h1, h2], h3⟩

theorem productForm_holds {k : CoreSt} {a b : HReg} {A B : BitVec 512} (ha : Spec.holds k a A) (hb : Spec.holds k b B) {batch : Bool} {x : Nest}
    (hfA : 1 ≤ shFmt A ∧ shFmt A ≤ 9) (hfB : 1 ≤ shFmt B ∧ shFmt B ≤ 9) (hrA : rankOk batch A = true) (hrB : rankOk batch B = true)
    (hreg : regionOk batch x A B = true) (u : State) : productForm batch x [k.rdH a, k.rdH b] u = (.ok (), u) := by
  obtain ⟨ga, sa⟩ := good_of_holds ha
  obtain ⟨gb, sb⟩ := good_of_holds hb
  have hg : goodHandles [k.rdH a, k.rdH b] u = (.ok (), u) := check_true (by simp [ga, gb]) ..
  have hf : ∀ f g, 1 ≤ f ∧ f ≤ 9 → operandFmtOk f g = true := fun f g h => by simp [operandFmtOk, loomFmt, h.1, h.2]
  rw [productForm, bind_ok hg]
  simp only [List.getD_cons_zero, List.getD_cons_succ, sa, sb]
  rw [bind_ok (check_true (by rw [hf _ _ hfA, hf _ _ hfB, hrA, hrB]; rfl) ..)]
  exact check_true hreg ..

/-- R228: the operands open, each in its window. -/
theorem openProduct_near {u : State} {x : Nest} {A B : BitVec 512} {la lb : Loc} (hx : Spec.Nest.whole x) (hn : Spec.iterations x ≤ 2 ^ 24)
    (hA : Spec.operandOk u x la A x.sa) (hB : Spec.operandOk u x lb B x.sb) : openProduct u.active x A B u = (.ok (⟨A, la⟩, ⟨B, lb⟩), u) := by
  obtain ⟨-, -, ⟨hsA, hpA, h8A, hzA⟩, hwA, hgA⟩ := hA
  obtain ⟨-, -, ⟨hsB, hpB, h8B, hzB⟩, hwB, hgB⟩ := hB
  have hyA := WholeBytes.of hpA h8A hzA
  have hyB := WholeBytes.of hpB h8B hzB
  have hKA : x.maxA < groupsK A x.g := by
    rw [groupsK, hyA.not_plane, if_neg (by decide)]
    exact maxIx_lt hx hx.2.1 hgA
  have hKB : x.maxB < groupsK B x.g := by
    rw [groupsK, hyB.not_plane, if_neg (by decide)]
    exact maxIx_lt hx hx.2.2.1 hgB
  have hc : (decide (x.count ≤ 2 ^ 24) && decide (x.maxA < groupsK A x.g) && decide (x.maxB < groupsK B x.g)) = true := by
    rw [count_eq hx, decide_eq_true hn, decide_eq_true hKA, decide_eq_true hKB]
    rfl
  have hw : (readWalkOk A && readWalkOk B) = true := by
    rw [Bool.and_eq_true, readWalkOk, readWalkOk, Bool.or_eq_true, Bool.or_eq_true]
    exact ⟨hwA, hwB⟩
  have hlA := spanIn_near hsA
  have hlB := spanIn_near hsB
  rw [openProduct, bind_ok (check_true hc ..), bind_ok (tensor_near hsA (.inr ⟨_, hyA⟩) ..), bind_ok (tensor_near hsB (.inr ⟨_, hyB⟩) ..),
    bind_ok (check_true hw ..), bind_ok (flush_near hlA ..), bind_ok (flush_near hlB ..), bind_ok (translateAll_near hlA ..),
    bind_ok (translateAll_near hlB ..)]
  rfl

-- ### The words

/-- What a product asks of the queues. -/
def productReq (i : Instr) (h : Hdr) (tk : Toks) (a b : HReg) (pre : Nat → List Word → List Handle → M Unit) (item : List Handle → Nat) : Req :=
  { op := i, h := h, t := tk, qs := [.mq], hnds := [a, b], pre := pre, item := item }

theorem rdSlot_enqueue {s : State} {q : Req} (hq : s.Quiet q.h) (sl : LReg) : (s.me.enqueue q.h (q.entryAt s)).rdSlot sl = s.me.rdSlot sl := by
  rw [CoreSt.rdSlot, (hq.enqueue_same _).eng, CoreSt.rdSlot]

theorem operandOk_atWork {s : State} {q : Req} (hcq : q.qs.contains .cq = false) (hq : s.Quiet q.h) {x : Nest} {l : Loc} {r : BitVec 512} {st : List Nat}
    (h : Spec.operandOk s x l r st) : Spec.operandOk (s.atWork q) x l r st := by
  obtain ⟨h1, h9, ⟨hs, hw⟩, hr, hg⟩ := h
  exact ⟨h1, h9, ⟨spanIn_atWork hcq hq hs, hw⟩, hr, hg⟩

theorem productGroups_atWork {s : State} {q : Req} (hcq : q.qs.contains .cq = false) (hq : s.Quiet q.h) (x : Nest) (A B : BitVec 512) (la lb : Loc) (b : Nat) :
    productGroups (s.atWork q) x A B la lb b = productGroups s x A B la lb b := by
  simp only [productGroups, pairGroups, sideGroups, operandGroup_atWork hcq hq]

section
variable {h : Hdr} {tk : Toks} {sl : LReg} {a b : HReg} {A B : BitVec 512} {la lb : Loc} {s : State} {i : Instr} {batch : Bool}
  {pre : Nat → List Word → List Handle → M Unit} {item : List Handle → Nat} (hq : s.Quiet h) (he : s.eager = true)
  (hA : Spec.holds s.me a A) (hB : Spec.holds s.me b B) (hi : exec i s = issue perform (productReq i h tk a b pre item) s)
  (hpre : pre s.active [] [s.me.rdH a, s.me.rdH b] s = (.ok (), s))
  (hp : ∀ u, perform s.active ((productReq i h tk a b pre item).started s) u =
    runProduct batch false false sl s.active ((productReq i h tk a b pre item).started s) u)
  (hrA : rankOk batch A = true) (hrB : rankOk batch B = true) (hreg : regionOk batch (s.me.rdSlot sl) A B = true)
include hq he hA hB hi hpre hp hrA hrB hreg

/-- A product with an operand without elements. -/
theorem product_empty (hfA : 1 ≤ shFmt A ∧ shFmt A ≤ 9) (hfB : 1 ≤ shFmt B ∧ shFmt B ≤ 9) (hz : shCount A = 0 ∨ shCount B = 0) :
    exec i s = .next (s.setCore s.active (s.me.finished h [.mq] [] tk.td 0x800000)) := by
  let q := productReq i h tk a b pre item
  have hcq : q.qs.contains .cq = false := rfl
  have hslot : ((s.atWork q).core s.active).rdSlot sl = s.me.rdSlot sl := by rw [State.core_atWork hcq, rdSlot_enqueue (q := q) hq]
  have hform : productForm batch (((s.atWork q).core s.active).rdSlot sl) (q.started s).hs (s.atWork q) = (.ok (), s.atWork q) := by
    rw [hslot]
    exact productForm_holds hA hB hfA hfB hrA hrB hreg _
  have hperf : perform s.active (q.started s) (s.atWork q) = (.ok (.done [] 0x800000), s.atWork q) := by
    rw [← wordOk_zero]
    refine (hp _).trans (runProduct_empty rfl hform ?_)
    change shCount (s.me.rdH a).shape = 0 ∨ shCount (s.me.rdH b).shape = 0
    rw [(good_of_holds hA).2, (good_of_holds hB).2]
    exact hz
  exact hi.trans (issue_reads (r := q) hq he rfl hpre hperf hcq rfl)

/-- A product of operands in windows: its batches. -/
theorem product_done (hb : s.lbad = []) (hx : Spec.Nest.whole (s.me.rdSlot sl)) (hn : Spec.iterations (s.me.rdSlot sl) ≤ 2 ^ 24)
    (hoA : Spec.operandOk s (s.me.rdSlot sl) la A (s.me.rdSlot sl).sa) (hoB : Spec.operandOk s (s.me.rdSlot sl) lb B (s.me.rdSlot sl).sb)
    (hna : (s.me.rdSlot sl).na ≤ (s.capsOf s.active).1) (hnb : (s.me.rdSlot sl).nb ≤ (s.capsOf s.active).2) (h2 : shE A 2 = shE B 2) :
    ∃ k : CoreSt, (∀ n r c, k.rdAcc n r c = s.me.rdAcc n r c) ∧ ∃ t, exec i s = .next t ∧
      Spec.tilesDone s t h tk.td (BitVec.ofNat 64 (0x800000 + 2 ^ 24 * Spec.iterations (s.me.rdSlot sl))) (k.addProducts batch (s.me.rdSlot sl) (shE A 1) (shE B 1)
        ((upTo (shE A 2)).map (productGroups s (s.me.rdSlot sl) A B la lb)).zipIdx).rdAcc := by
  let q := productReq i h tk a b pre item
  have hcq : q.qs.contains .cq = false := rfl
  have hact := State.active_atWork (s := s) hcq
  have hlb := (State.lbad_atWork (s := s) hcq).trans hb
  have hslot : ((s.atWork q).core s.active).rdSlot sl = s.me.rdSlot sl := by rw [State.core_atWork hcq, rdSlot_enqueue (q := q) hq]
  have hform : productForm batch (((s.atWork q).core s.active).rdSlot sl) (q.started s).hs (s.atWork q) = (.ok (), s.atWork q) := by
    rw [hslot]
    exact productForm_holds hA hB ⟨hoA.1, hoA.2.1⟩ ⟨hoB.1, hoB.2.1⟩ hrA hrB hreg _
  have hsA : ((q.started s).hd 0).shape = A := (good_of_holds hA).2
  have hsB : ((q.started s).hd 1).shape = B := (good_of_holds hB).2
  have hcaps : (q.started s).caps = s.capsOf s.active := caps_started (q := q) hq
  have hopen := openProduct_near hx hn (operandOk_atWork (q := q) hcq hq hoA) (operandOk_atWork (q := q) hcq hq hoB)
  obtain ⟨-, -, ⟨hspA, hpA, h8A, hzA⟩, -, -⟩ := hoA
  obtain ⟨-, -, ⟨hspB, hpB, h8B, hzB⟩, -, -⟩ := hoB
  have hnear : Side.Near (sidesOf (s.me.rdSlot sl) ((s.me.rdSlot sl).na, (s.me.rdSlot sl).nb) ⟨A, la⟩ ⟨B, lb⟩).1 A la :=
    ⟨spanIn_near hspA, rfl, _, WholeBytes.of hpA h8A hzA⟩
  have hnear' : Side.Near (sidesOf (s.me.rdSlot sl) ((s.me.rdSlot sl).na, (s.me.rdSlot sl).nb) ⟨A, la⟩ ⟨B, lb⟩).2 B lb :=
    ⟨spanIn_near hspB, rfl, _, WholeBytes.of hpB h8B hzB⟩
  have hgs := batchGroups_near hlb hnear hnear' (s.me.rdSlot sl).iters (ns := upTo (shE A 2)) fun n hn => ⟨mem_upTo.1 hn, h2 ▸ mem_upTo.1 hn⟩
  have hpg : pairGroups (s.atWork q) (sidesOf (s.me.rdSlot sl) ((s.me.rdSlot sl).na, (s.me.rdSlot sl).nb) ⟨A, la⟩ ⟨B, lb⟩).1
      (sidesOf (s.me.rdSlot sl) ((s.me.rdSlot sl).na, (s.me.rdSlot sl).nb) ⟨A, la⟩ ⟨B, lb⟩).2 A B la lb (s.me.rdSlot sl).iters =
      productGroups s (s.me.rdSlot sl) A B la lb := funext fun b => productGroups_atWork (q := q) hcq hq ..
  rw [hact] at hopen hgs
  rw [hpg, ← sidesOf_uncapped hna hnb] at hgs
  have hrun := runProduct_open (batch := batch) (c := s.active) (e := q.started s) (s := s.atWork q) (sl := sl) rfl hform
    (by rw [hsA]; exact hspA.2.2.1) (by rw [hsB]; exact hspB.2.2.1) (by rw [hsA, hsB, hslot]; exact hopen) (by rw [hsA, hslot, hcaps]; exact hgs)
    (by rw [hslot, hcaps]; exact hna) (by rw [hslot, hcaps]; exact hnb)
  rw [hslot, hsA, hsB, count_eq hx, Nat.mod_eq_of_lt (show Spec.iterations (s.me.rdSlot sl) < 2 ^ 40 by omega)] at hrun
  obtain ⟨g, hg, hacc, hel⟩ := issue_tiles (r := q) hq he rfl hpre hcq ((hp _).trans hrun) (CoreSt.tiled_addProducts ..)
  exact ⟨s.me.enqueue q.h (q.entryAt s), rdAcc_enqueue (r := q) hq, _, hi.trans hg, g, rfl, hacc, fun n r c _ _ => hel n r c⟩

end

-- ### `MM.RUN` and `MM.BATCH`

theorem savesH_zero (n : HReg) : savesH 0 n = false := by simp [savesH]

/-- R298: outside blocks `MM.RUN` checks nothing at issue. -/
theorem savePre_outside {s : State} {h : Hdr} (hq : s.Quiet h) (a b : HReg) (ws : List Word) (hs : List Handle) : savePre a b s.active ws hs s = (.ok (), s) := by
  have hin : s.me.inBlock = false := by simp [CoreSt.inBlock, hq.noBlock]
  unfold State.me at hin
  rw [savePre, run_getCore_bind]
  simp only [hin, Bool.false_and, Bool.false_eq_true, if_false]
  rfl

theorem performLoom_mmRun (h : Hdr) (tk : Toks) (sl : LReg) (a b : HReg) : performLoom 0 (.mmRun h tk sl a b) = runProduct false false false sl := by
  have hp : performLoom 0 (.mmRun h tk sl a b) = runProduct false (savesH 0 a) (savesH 0 b) sl := rfl
  rw [hp, savesH_zero, savesH_zero]

theorem tilesDone_congr {s t : State} {h : Hdr} {td : SReg} {w : Word} {f g : Nat → Nat → Nat → AccEl} (hf : Spec.tilesDone s t h td w f)
    (hfg : ∀ n r c, r < 128 → c < 64 → f n r c = g n r c) : Spec.tilesDone s t h td w g := by
  obtain ⟨k, h1, h2, h3⟩ := hf
  exact ⟨k, h1, h2, fun n r c hr hc => (h3 n r c hr hc).trans (hfg n r c hr hc)⟩

theorem shE_rank {r : BitVec 512} {k : Nat} (h : shRank r ≤ k) : shE r k = 1 := by rw [shE, if_neg (by omega)]

theorem rankOk_of {r : BitVec 512} (h1 : 1 ≤ shRank r) (h2 : shRank r ≤ 2) : rankOk false r = true := by
  simp only [rankOk, Bool.false_eq_true, if_false, Bool.or_eq_true, beq_iff_eq]
  omega

section
variable {h : Hdr} {tk : Toks} {sl : LReg} {a b : HReg} {A B : BitVec 512} {la lb : Loc} {s : State} {x : Nest} (hx : s.me.rdSlot sl = x) (hq : s.Quiet h)
  (he : s.eager = true) (hA : Spec.holds s.me a A) (hB : Spec.holds s.me b B)
include hx hq he hA hB

/-- R73: `MM.RUN` with an operand without elements. -/
theorem exec_mmRun_empty (hfA : 1 ≤ shFmt A ∧ shFmt A ≤ 9) (hfB : 1 ≤ shFmt B ∧ shFmt B ≤ 9) (hrA : rankOk false A = true) (hrB : rankOk false B = true)
    (hr : x.rorg + shE A 1 ≤ 128) (hc : x.corg + shE B 1 ≤ 64) (hz : shCount A = 0 ∨ shCount B = 0) :
    exec (.mmRun h tk sl a b) s = .next (s.setCore s.active (s.me.finished h [.mq] [] tk.td 0x800000)) :=
  product_empty (pre := savePre a b) (item := itemIn (.mmRun h tk sl a b) s) hq he hA hB rfl (savePre_outside hq ..)
    (fun _ => perform_loom rfl (performLoom_mmRun ..) _ _ _ rfl rfl rfl) hrA hrB (by simp [regionOk, hx, hr, hc]) hfA hfB hz

variable (hb : s.lbad = []) (hw : Spec.Nest.whole x) (hn : Spec.iterations x ≤ 2 ^ 24) (hoA : Spec.operandOk s x la A x.sa)
  (hoB : Spec.operandOk s x lb B x.sb) (hna : x.na ≤ (s.capsOf s.active).1) (hnb : x.nb ≤ (s.capsOf s.active).2)
include hb hw hn hoA hoB hna hnb

/-- R228, R229: `MM.RUN`. -/
theorem exec_mmRun (hrA : shRank A ≤ 2) (hrB : shRank B ≤ 2) (hoA' : rankOk false A = true) (hoB' : rankOk false B = true) (hr : x.rorg + shE A 1 ≤ 128)
    (hc : x.corg + shE B 1 ≤ 64) : ∃ t, exec (.mmRun h tk sl a b) s = .next t ∧
      Spec.tilesDone s t h tk.td (BitVec.ofNat 64 (0x800000 + 2 ^ 24 * Spec.iterations x)) (fun n r c =>
        if n = x.acc ∧ x.rorg ≤ r ∧ r < x.rorg + shE A 1 ∧ x.corg ≤ c ∧ c < x.corg + shE B 1
          then Spec.productEl x (slotGroups s x x.na x.rma A la 0 (r - x.rorg)) (slotGroups s x x.nb x.rmb B lb 0 (c - x.corg)) (s.me.rdAcc n r c)
          else s.me.rdAcc n r c) := by
  subst hx
  obtain ⟨k, hk, t, ht, hdone⟩ := product_done (pre := savePre a b) (item := itemIn (.mmRun h tk sl a b) s) hq he hA hB rfl (savePre_outside hq ..)
    (fun _ => perform_loom rfl (performLoom_mmRun ..) _ _ _ rfl rfl rfl) hoA' hoB' (by simp [regionOk, hr, hc]) hb hw hn hoA hoB hna hnb
    (by rw [shE_rank hrA, shE_rank hrB])
  refine ⟨t, ht, tilesDone_congr hdone fun n r c hr' hc' => ?_⟩
  have hone : ((upTo (shE A 2)).map (productGroups s (s.me.rdSlot sl) A B la lb)).zipIdx = [(productGroups s (s.me.rdSlot sl) A B la lb 0, 0)] := by
    rw [shE_rank hrA]
    rfl
  rw [hone]
  refine (rdAcc_addProduct k _ _ hr hc hr' hc').trans ?_
  rw [hk]
  split
  · rename_i hin
    exact accumulateAll_productGroups hw (by omega) (by omega) _
  · rfl

/-- R235: `MM.BATCH`. -/
theorem exec_mmBatch (hrA : shRank A = 3) (hrB : shRank B = 3) (h8 : shE A 1 ≤ 8) (h4 : shE B 1 ≤ 4) (h2 : shE A 2 = shE B 2) (h16 : shE A 2 ≤ 16)
    (hr : x.rorg = 0) (hc : x.corg = 0) : ∃ t, exec (.mmBatch h tk sl a b) s = .next t ∧
      Spec.tilesDone s t h tk.td (BitVec.ofNat 64 (0x800000 + 2 ^ 24 * Spec.iterations x)) (fun n r c =>
        if n = x.acc ∧ r / 8 = c / 4 ∧ r / 8 < shE A 2 ∧ r % 8 < shE A 1 ∧ c % 4 < shE B 1
          then Spec.productEl x (slotGroups s x x.na x.rma A la (r / 8) (r % 8)) (slotGroups s x x.nb x.rmb B lb (r / 8) (c % 4)) (s.me.rdAcc n r c)
          else s.me.rdAcc n r c) := by
  subst hx
  obtain ⟨k, hk, t, ht, hdone⟩ := product_done (batch := true) (pre := fun _ _ _ => pure ()) (item := fun _ => 0) hq he hA hB rfl rfl
    (fun _ => perform_loom (i := .mmBatch h tk sl a b) rfl rfl _ _ _ rfl rfl rfl) (by simp [rankOk, hrA]) (by simp [rankOk, hrB])
    (by simp [regionOk, h8, h4, ← h2, h16, hr, hc]) hb hw hn hoA hoB hna hnb h2
  refine ⟨t, ht, tilesDone_congr hdone fun n r c hr' hc' => ?_⟩
  have hlen : ((upTo (shE A 2)).map (productGroups s (s.me.rdSlot sl) A B la lb)).length = shE A 2 := by rw [List.length_map, length_upTo]
  rw [rdAcc_addBatches k _ h8 h4 hr' hc' _ 0 (by rw [hlen, Nat.zero_add]; exact h16), hlen, hk, Nat.zero_add, Nat.sub_zero]
  refine if_ctx_congr ⟨fun hin => by omega, fun hin => by omega⟩ (fun hin => ?_) fun _ => rfl
  obtain ⟨-, -, hlt, hm, hn'⟩ := hin
  have hu : ∀ h, (upTo (shE A 2))[r / 8]'h = r / 8 := fun _ => List.getElem_range _
  rw [List.getD_eq_getElem _ _ (by rw [hlen]; exact hlt), List.getElem_map, hu]
  exact accumulateAll_productGroups hw hm hn' _

end

end Sys2Proof.Machine

/-! PROOFS. The work of a product from any operands (R103), and `ACC.RD`, `ACC.WR` and `ACC.WR.ADD` between a tile and a tensor of a window (R238, R239). -/

namespace Sys2Proof.Machine

-- ### A product of any operands, once its groups are read

/-- A chain that checks something first and succeeds has found it true. -/
theorem check_bind_ok {α : Type} {b : Bool} {c : Cause} {p : Word} {m : M α} {s t : State} {x : α} (h : (check b c p >>= fun _ => m) s = (.ok x, t)) :
    b = true ∧ m s = (.ok x, t) := by
  cases b with
  | true => exact ⟨rfl, h⟩
  | false =>
    have e : (Except.error (Stop.trap c p) : Except Stop α) = .ok x := congrArg Prod.fst h
    cases e

theorem check_ok {b : Bool} {c : Cause} {p : Word} {s t : State} (h : check b c p s = (.ok (), t)) : b = true := by
  cases b with
  | true => rfl
  | false =>
    have e : (Except.error (Stop.trap c p) : Except Stop Unit) = .ok () := congrArg Prod.fst h
    cases e

/-- R228 step 3: the region of a product that passes its checks lies in the tile. -/
theorem region_of_productForm {x : Nest} {hs : List Handle} {s : State} (h : productForm false x hs s = (.ok (), s)) :
    x.rorg + shE (hs.getD 0 .unbound).shape 1 ≤ 128 ∧ x.corg + shE (hs.getD 1 .unbound).shape 1 ≤ 64 := by
  obtain ⟨-, h⟩ := check_bind_ok h
  obtain ⟨-, h⟩ := check_bind_ok h
  have hr := check_ok h
  rw [regionOk, if_neg Bool.false_ne_true, Bool.and_eq_true, decide_eq_true_eq, decide_eq_true_eq] at hr
  exact hr

theorem batchGroups_one {c : Nat} {x y : Side} {it : List (Nat × Nat)} {gs : List (List SideGroup × List SideGroup)} {s t : State}
    (h : sidePairs c x y 0 it s = (.ok gs, t)) : batchGroups c x y it (upTo 1) s = (.ok [gs], t) := by
  change (sidePairs c x y 0 it >>= _) s = _
  rw [bind_ok h]
  rfl

/-- R103, R228: the elements of the region go through the groups in order. -/
theorem runProduct_read {sl : LReg} {c : Nat} {e : Entry} {s s1 s2 : State} {ta tb : Tens} {gs : List (List SideGroup × List SideGroup)}
    (haux : e.aux = 0) (hform : productForm false ((s.core c).rdSlot sl) e.hs s = (.ok (), s)) (hA : 0 < shCount (e.hd 0).shape)
    (hB : 0 < shCount (e.hd 1).shape) (h2 : shE (e.hd 0).shape 2 = 1)
    (hopen : openProduct c ((s.core c).rdSlot sl) (e.hd 0).shape (e.hd 1).shape s = (.ok (ta, tb), s1))
    (hgs : sidePairs c (sidesOf ((s.core c).rdSlot sl) e.caps ta tb).1 (sidesOf ((s.core c).rdSlot sl) e.caps ta tb).2 0 ((s.core c).rdSlot sl).iters s1 =
      (.ok gs, s2)) (hna : ((s.core c).rdSlot sl).na ≤ e.caps.1) (hnb : ((s.core c).rdSlot sl).nb ≤ e.caps.2) : ∃ g : CoreSt,
    runProduct false false false sl c e s = (.ok (.done [] (BitVec.ofNat 64 (0x800000 + 2 ^ 24 * (((s.core c).rdSlot sl).count % 2 ^ 40)))), s2.setCore c g) ∧
      g = { s2.core c with eng := { (s2.core c).eng with acc := g.eng.acc } } ∧
      ∀ n r k, r < 128 → k < 64 → g.rdAcc n r k = if n = ((s.core c).rdSlot sl).acc ∧ ((s.core c).rdSlot sl).rorg ≤ r ∧
          r < ((s.core c).rdSlot sl).rorg + shE (e.hd 0).shape 1 ∧ ((s.core c).rdSlot sl).corg ≤ k ∧ k < ((s.core c).rdSlot sl).corg + shE (e.hd 1).shape 1
        then accumulateAll ((s.core c).rdSlot sl).pi (r - ((s.core c).rdSlot sl).rorg) (k - ((s.core c).rdSlot sl).corg) ((s2.core c).rdAcc n r k) gs
        else (s2.core c).rdAcc n r k := by
  obtain ⟨hr, hc⟩ := region_of_productForm hform
  have hrun := runProduct_open haux hform hA hB hopen (gs := [gs]) (by rw [h2]; exact batchGroups_one hgs) hna hnb
  exact ⟨_, hrun, CoreSt.tiled_addProducts .., fun n r k hr' hk => rdAcc_addProduct (s2.core c) _ gs hr hc hr' hk⟩

-- ### Elements of a tensor written in the order of its walk

theorem State.WroteElems.append {s t u : State} {l : Loc} {n : Nat} {at_ x : Nat → Nat} {is js : List Nat} (h : s.WroteElems t l n at_ x is)
    (hd : ∀ i ∈ is, ∀ j ∈ js, at_ i + n ≤ at_ j ∨ at_ j + n ≤ at_ i) (g : t.WroteElems u l n at_ x js) : s.WroteElems u l n at_ x (is ++ js) := by
  refine ⟨h.edits.trans g.edits, fun i hi => ?_, fun l' a ha => ?_⟩
  · rcases List.mem_append.1 hi with hi | hi
    · rw [← h.new i hi]
      exact leAt_congr fun b hlt => g.old l _ fun _ j hj => by have := hd i hi j hj; omega
    · exact g.new i hi
  · rw [g.old l' a fun e j hj => ha e j (List.mem_append_right _ hj), h.old l' a fun e i hi => ha e i (List.mem_append_left _ hi)]

/-- Elements at their numbers of a walk, written with `x`, at places that lie apart. -/
theorem writeEach_near {α : Type} {l : Loc} (hl : l.near) {r : BitVec 512} {n : Nat} (hr : WholeBytes r n) {g : Nat × Int → α → M Unit} {v : Nat → α}
    {x : Nat → Nat} (c : Nat) (hg : ∀ i, g (i, walkIx r i) (v i) = writeVal c ⟨r, l⟩ (walkIx r i) 0 (x i)) {is : List Nat}
    (hd : is.Pairwise fun i j => Spec.tensorOff r i + n ≤ Spec.tensorOff r j ∨ Spec.tensorOff r j + n ≤ Spec.tensorOff r i) {s : State} (hc : s.active = c) :
    ∃ t, writeEach g (is.map fun i => (i, walkIx r i)) (is.map v) s = (.ok (), t) ∧
      s.WroteElems t l n (fun i => Spec.place s l 0 (Spec.tensorOff r i)) x is := by
  induction is generalizing s with
  | nil => exact ⟨s, rfl, .nil⟩
  | cons i is ih =>
    obtain ⟨hi, hd⟩ := List.pairwise_cons.1 hd
    obtain ⟨t, ht, hrun⟩ := writeVal_near (s := s) hl hr (walkIx r i) 0 (x i)
    obtain ⟨u, hu, hrest⟩ := ih hd (hrun.edits.active.trans hc)
    simp only [hrun.edits.place] at hrest
    refine ⟨u, ?_, State.WroteElems.cons (i := i) hrun (fun j hj => ?_) hrest⟩
    · rw [List.map_cons, List.map_cons, writeEach, hg, ← hc, bind_ok ht]
      exact hu
    · exact (hi j hj).imp (place_le s l le_rfl) (place_le s l le_rfl)

/-- R75: the elements of a record that may be written lie apart. -/
theorem writable_apart {r : BitVec 512} {b lo hi : Nat} (h : WholeBytes r b) (hc : 0 < shCount r) (hs : shSpan r = ((lo : Int), (hi : Int)))
    (hw : Spec.writable r) : (upTo (shCount r)).Pairwise fun i j =>
      Spec.tensorOff r i + b ≤ Spec.tensorOff r j ∨ Spec.tensorOff r j + b ≤ Spec.tensorOff r i :=
  List.pairwise_lt_range.imp_of_mem fun {i j} _ hj hij => tensorOff_apart h hc hs (hw.2 j (mem_upTo.1 hj) i hij).symm

/-- R94, R95: the mode of element `i` as its word asks for it. -/
theorem mode_started {q : Req} {s : State} (rnd : Rnd) (hx : q.srcs = rnd.srcs) (hseed : q.seed = none) (i : Nat) : (q.started s).mode rnd i = Spec.modeOf s.me rnd i := by
  rw [Entry.mode, Req.started_xs, hx, hseed, fld_low, Spec.modeOf, Rnd.srcs]
  by_cases h : rnd.rm = .sr
  · rw [if_pos h, if_pos h]; rfl
  · rw [if_neg h, if_neg h]; rfl

theorem place_wroteLocal {s u : State} {k : CoreSt} {fin : CoreSt → CoreSt} (h : Spec.wroteLocal s u k fin) (l : Loc) (lane off : Nat) :
    Spec.place u l lane off = Spec.place s l lane off := by
  obtain ⟨⟨g, -, hu⟩, -⟩ := h
  have ha : u.active = s.active := by rw [hu]; rfl
  cases l <;> simp only [Spec.place, ha]

/-- What a word that wrote elements of a tensor leaves. -/
theorem tensorStored_of {s u : State} {l : Loc} {r : BitVec 512} {x : Nat → Nat} {fin : CoreSt → CoreSt} (hw : Spec.wroteLocal s u s.me fin)
    (hnew : ∀ n ∈ upTo (shCount r), Spec.leAt (Spec.spaceByte u l) (Spec.place s l 0 (Spec.tensorOff r n)) (fmtWidth (shFmt r) / 8) =
      x n % 256 ^ (fmtWidth (shFmt r) / 8))
    (hold : ∀ l' p, (l' = l → ∀ n ∈ upTo (shCount r), p < Spec.place s l 0 (Spec.tensorOff r n) ∨
      Spec.place s l 0 (Spec.tensorOff r n) + fmtWidth (shFmt r) / 8 ≤ p) → Spec.spaceByte u l' p = Spec.spaceByte s l' p) :
    Spec.tensorStored s u l r x s.me fin := by
  refine ⟨hw, fun n hn => ?_, fun l' p hp => hold l' p fun e n hn => hp e n (mem_upTo.1 hn)⟩
  rw [Spec.tensorNat, Spec.winNat, place_wroteLocal hw]
  exact hnew n (mem_upTo.2 hn)

-- ### Tile transfers

section
variable {k : CoreSt} {a : HReg} {R : BitVec 512} {roff coff : Nat}

theorem tileForm_holds (ha : Spec.holds k a R) (hf : Spec.byteFmt R) (h1 : 1 ≤ shRank R) (h2 : shRank R ≤ 2) (hr : roff + shE R 1 ≤ 128)
    (hc : coff + shE R 0 ≤ 64) (u : State) : tileForm [k.rdH a] roff coff u = (.ok (), u) := by
  obtain ⟨hg, hs⟩ := good_of_holds ha
  have hgood : goodHandles [k.rdH a] u = (.ok (), u) := check_true (by simp [hg]) ..
  have hfmt : (loomFmt (shFmt R) || shFmt R == 0xD) = true := by
    rcases hf with ⟨hl, hu⟩ | h
    · simp [loomFmt, hl, hu]
    · simp [h]
  have hrank : (shRank R == 1 || shRank R == 2) = true := by
    rw [Bool.or_eq_true, beq_iff_eq, beq_iff_eq]
    omega
  rw [tileForm, bind_ok hgood]
  simp only [List.getD_cons_zero, hs]
  rw [bind_ok (check_true (by rw [hfmt, hrank]; rfl) ..)]
  exact check_true (by simp [hr, hc]) ..

/-- R71: a record of one or two dimensions. -/
theorem shCount_rank (h2 : shRank R ≤ 2) : shCount R = shE R 1 * shE R 0 := by
  rw [shCount, shE_rank h2, shE_rank (r := R) (k := 3) (by omega), shE_rank (r := R) (k := 4) (by omega), shE_rank (r := R) (k := 5) (by omega)]
  ring

end

/-- R238, R239: the elements of a tile that a walk visits, each changed by its own function. -/
theorem rdAcc_tileAt (k : CoreSt) {t roff coff : Nat} {R : BitVec 512} (h2 : shRank R ≤ 2) (hr : roff + shE R 1 ≤ 128) (hc : coff + shE R 0 ≤ 64)
    (f : Nat → AccEl → AccEl) {n r c : Nat} (hr' : r < 128) (hc' : c < 64) : (k.mapEls t (tileAt R roff coff) f (upTo (shCount R))).rdAcc n r c =
      if n = t ∧ roff ≤ r ∧ r < roff + shE R 1 ∧ coff ≤ c ∧ c < coff + shE R 0 then f ((r - roff) * shE R 0 + (c - coff)) (k.rdAcc n r c)
      else k.rdAcc n r c := by
  have hlt : ∀ i ∈ upTo (shCount R), i / shE R 0 < shE R 1 ∧ i % shE R 0 < shE R 0 := fun i hi => by
    have hi := mem_upTo.1 hi
    rw [shCount_rank h2] at hi
    exact ⟨Nat.div_lt_of_lt_mul (by rwa [Nat.mul_comm] at hi), Nat.mod_lt _ (Nat.pos_of_ne_zero fun e => by rw [e] at hi; omega)⟩
  have hb : ∀ i ∈ upTo (shCount R), (tileAt R roff coff i).1 < 128 ∧ (tileAt R roff coff i).2 < 64 := fun i hi => by
    obtain ⟨h1, h2⟩ := hlt i hi
    simp only [tileAt]
    omega
  split
  · rename_i hin
    obtain ⟨rfl, h3, h4, h5, h6⟩ := hin
    have hd : (upTo (shCount R)).Pairwise fun i j => tileAt R roff coff i ≠ tileAt R roff coff j := List.nodup_range.imp fun {i j} hij e => hij (by
      obtain ⟨e1, e2⟩ := Prod.mk.inj e
      rw [← Nat.div_add_mod i (shE R 0), ← Nat.div_add_mod j (shE R 0), Nat.add_left_cancel e1, Nat.add_left_cancel e2])
    have hdiv : ((r - roff) * shE R 0 + (c - coff)) / shE R 0 = r - roff := by
      rw [Nat.add_comm, Nat.add_mul_div_right _ _ (by omega), Nat.div_eq_of_lt (by omega), Nat.zero_add]
    have hmod : ((r - roff) * shE R 0 + (c - coff)) % shE R 0 = c - coff := by rw [Nat.mul_add_mod_self_right, Nat.mod_eq_of_lt (by omega)]
    have hmem : (r - roff) * shE R 0 + (c - coff) < shE R 1 * shE R 0 := by
      have := Nat.mul_le_mul_right (shE R 0) (show r - roff + 1 ≤ shE R 1 by omega)
      rw [Nat.succ_mul] at this
      omega
    refine k.rdAcc_mapEls_at hb hd (mem_upTo.2 (by rw [shCount_rank h2]; exact hmem)) ?_
    rw [tileAt, hdiv, hmod]
    exact Prod.ext (Nat.add_sub_cancel' h3) (Nat.add_sub_cancel' h5)
  · rename_i hout
    refine k.rdAcc_mapEls_out hb hr' hc' fun e i hi e' => hout ?_
    obtain ⟨h3, h4⟩ := hlt i hi
    obtain ⟨rfl, rfl⟩ := Prod.mk.inj e'
    generalize i / shE R 0 = x at h3 ⊢
    omega

/-- What the loom asks of the queues for a tile transfer. -/
def tileReq (i : Instr) (h : Hdr) (tk : Toks) (srcs : List SReg) (a : HReg) (effect : Bool) : Req := mqReq i h tk srcs [a] effect

section
variable {h : Hdr} {tk : Toks} {d : AReg} {a : HReg} {rnd : Rnd} {roff : BitVec 7} {coff : BitVec 6} {R : BitVec 512} {l : Loc} {s : State}
  (hq : s.Quiet h) (he : s.eager = true) (ha : Spec.holds s.me a R) (hf : Spec.byteFmt R) (h1 : 1 ≤ shRank R) (h2 : shRank R ≤ 2)
  (hr : roff.toNat + shE R 1 ≤ 128) (hc : coff.toNat + shE R 0 ≤ 64)
include ha hf h1 h2 hr hc

/-- R73: a transfer of no element. -/
theorem runAccRd_empty (hz : shCount R = 0) {e : Entry} (hs : e.hs = [s.me.rdH a]) (c : Nat) (u : State) :
    runAccRd d rnd roff coff c e u = (.ok (.done [] (wordOk 0)), u) := by
  have hsh : (e.hd 0).shape = R := by rw [Entry.hd, hs]; exact (good_of_holds ha).2
  unfold runAccRd
  rw [hs, bind_ok (tileForm_holds ha hf h1 h2 hr hc u), hsh, if_pos hz]
  rfl

theorem runAccWr_empty (add : Bool) (hz : shCount R = 0) {e : Entry} (hs : e.hs = [s.me.rdH a]) (c : Nat) (u : State) :
    runAccWr add d roff coff c e u = (.ok (.done [] (wordOk 0)), u) := by
  have hsh : (e.hd 0).shape = R := by rw [Entry.hd, hs]; exact (good_of_holds ha).2
  unfold runAccWr
  rw [hs, bind_ok (tileForm_holds ha hf h1 h2 hr hc u), hsh, if_pos hz]
  rfl

include hq he

theorem exec_accRd_empty (hz : shCount R = 0) :
    exec (.accRd h tk a d rnd roff coff) s = .next (s.setCore s.active (s.me.finished h [.mq] [] tk.td 0x800000)) := by
  have hp := runAccRd_empty (d := d) (rnd := rnd) ha hf h1 h2 hr hc hz (e := (tileReq (.accRd h tk a d rnd roff coff) h tk rnd.srcs a true).started s) rfl s.active
    (s.atWork (tileReq (.accRd h tk a d rnd roff coff) h tk rnd.srcs a true))
  rw [wordOk_zero] at hp
  exact issue_reads (r := tileReq (.accRd h tk a d rnd roff coff) h tk rnd.srcs a true) hq he rfl rfl
    ((perform_loom (p := runAccRd d rnd roff coff) rfl rfl _ _ _ rfl rfl rfl).trans hp) rfl rfl

theorem exec_accWr_empty (hz : shCount R = 0) :
    exec (.accWr h tk d a roff coff) s = .next (s.setCore s.active (s.me.finished h [.mq] [] tk.td 0x800000)) := by
  have hp := runAccWr_empty (d := d) ha hf h1 h2 hr hc false hz (e := (tileReq (.accWr h tk d a roff coff) h tk [] a false).started s) rfl s.active
    (s.atWork (tileReq (.accWr h tk d a roff coff) h tk [] a false))
  rw [wordOk_zero] at hp
  exact issue_reads (r := tileReq (.accWr h tk d a roff coff) h tk [] a false) hq he rfl rfl
    ((perform_loom (p := runAccWr false d roff coff) rfl rfl _ _ _ rfl rfl rfl).trans hp) rfl rfl

variable (hin : Spec.tensorIn s R l)
include hin

/-- R238: `ACC.RD`. -/
theorem exec_accRd (hw : Spec.writable R) : ∃ t, exec (.accRd h tk a d rnd roff coff) s = .next t ∧ Spec.tensorStored s t l R
    (fun n => roundFmt (shFmt R) false (Spec.modeOf s.me rnd n) (s.me.rdAcc d.toNat (roff.toNat + n / shE R 0) (coff.toNat + n % shE R 0)).value)
    s.me (fun g => g.finished h [.mq] [] tk.td 0x800000) := by
  let q := tileReq (.accRd h tk a d rnd roff coff) h tk rnd.srcs a true
  have hcq : q.qs.contains .cq = false := rfl
  have hact := State.active_atWork (s := s) hcq
  obtain ⟨hsp, hp, h8, hz⟩ := hin
  have hy := WholeBytes.of hp h8 hz
  have hl := spanIn_near hsp
  obtain ⟨-, -, hcount, lo, hi, hspan, -⟩ := id hsp
  let x := fun n => roundFmt (shFmt R) false (Spec.modeOf s.me rnd n) (s.me.rdAcc d.toNat (roff.toNat + n / shE R 0) (coff.toNat + n % shE R 0)).value
  obtain ⟨t, ht, hel⟩ := writeEach_near hl hy (g := fun p x => writeVal s.active ⟨R, l⟩ p.2 0 x) (v := x) (x := x) s.active (fun _ => rfl)
    (writable_apart hy hcount hspan hw) hact
  have hopen := tensor_near (spanIn_atWork (q := q) hcq hq hsp) (.inr ⟨_, hy⟩) .loom .wr
  rw [hact] at hopen
  have hsh : ((q.started s).hd 0).shape = R := (good_of_holds ha).2
  have hxs : ((numbered R).map fun p => roundFmt (shFmt R) false ((q.started s).mode rnd p.1)
      ((s.me.enqueue q.h (q.entryAt s)).rdAcc d.toNat (tileAt R roff.toNat coff.toNat p.1).1 (tileAt R roff.toNat coff.toNat p.1).2).value) =
      (upTo (shCount R)).map x := by
    rw [numbered_eq, List.map_map]
    refine List.map_congr_left fun n _ => ?_
    simp only [Function.comp_def, mode_started (q := q) rnd rfl rfl, rdAcc_enqueue (r := q) hq, tileAt, x]
  have hperf : perform s.active (q.started s) (s.atWork q) = (.ok (.done [] 0x800000), t) := by
    refine (perform_loom (p := runAccRd d rnd roff coff) rfl rfl _ _ _ rfl rfl rfl).trans ?_
    have hform : tileForm (q.started s).hs roff.toNat coff.toNat (s.atWork q) = (.ok (), s.atWork q) := tileForm_holds ha hf h1 h2 hr hc _
    unfold runAccRd
    rw [bind_ok hform]
    simp only [hsh, hcount.ne', if_false]
    rw [bind_ok hopen, bind_ok (check_true hw.1 ..), bind_ok (flush_near hl ..), bind_ok (translateAll_near hl ..), run_getCore_bind, State.core_atWork hcq]
    rw [hxs, numbered_eq, bind_ok ht, wordOk_zero]
    rfl
  simp only [State.place_atWork hcq] at hel
  obtain ⟨u, hu, hwr, hnew, hold⟩ := issue_elements (r := q) hq he rfl rfl hperf hcq hel
  exact ⟨u, hu, tensorStored_of hwr hnew hold⟩

variable (hb : s.lbad = [])
include hb

/-- R239: `ACC.WR` and `ACC.WR.ADD`. -/
theorem accWr_done {add : Bool} {i : Instr} (hi : exec i s = issue perform (tileReq i h tk [] a false) s)
    (hp : ∀ u, perform s.active ((tileReq i h tk [] a false).started s) u = runAccWr add d roff coff s.active ((tileReq i h tk [] a false).started s) u)
    (hw : shInjective R = true ∨ shOverlap R = true) : ∃ t, exec i s = .next t ∧ Spec.tilesDone s t h tk.td 0x800000 (fun n r c =>
      if n = d.toNat ∧ roff.toNat ≤ r ∧ r < roff.toNat + shE R 1 ∧ coff.toNat ≤ c ∧ c < coff.toNat + shE R 0
        then (s.me.rdAcc n r c).take add (decodeFmt (shFmt R) false (Spec.tensorNat s l R ((r - roff.toNat) * shE R 0 + (c - coff.toNat))))
        else s.me.rdAcc n r c) := by
  let q := tileReq i h tk [] a false
  have hcq : q.qs.contains .cq = false := rfl
  have hact := State.active_atWork (s := s) hcq
  obtain ⟨hsp, hpos, h8, hz⟩ := hin
  have hy := WholeBytes.of hpos h8 hz
  have hl := spanIn_near hsp
  have hcount := hsp.2.2.1
  let v := fun n => decodeFmt (shFmt R) false (Spec.tensorNat s l R n)
  have hsh : ((q.started s).hd 0).shape = R := (good_of_holds ha).2
  have hopen := tensor_near (spanIn_atWork (q := q) hcq hq hsp) (.inr ⟨_, hy⟩) .loom .rd
  have hread : ∀ n ∈ upTo (shCount R), readVal s.active false ⟨R, l⟩ (walkIx R n) (s.atWork q) = (.ok (v n), s.atWork q) := fun n _ => by
    rw [← hact, readVal_near hl ((State.lbad_atWork hcq).trans hb) hy, elemOff_walk, Bool.false_and, winNat_atWork hq hcq]
    rfl
  rw [hact] at hopen
  have hperf : perform s.active (q.started s) (s.atWork q) = (.ok (.done [] 0x800000), (s.atWork q).modCore s.active fun k =>
      k.mapEls d.toNat (tileAt R roff.toNat coff.toNat) (fun n x => x.take add (v n)) (upTo (shCount R))) := by
    refine (hp _).trans ?_
    change runAccWr add d roff coff s.active (q.started s) _ = _
    have hform : tileForm (q.started s).hs roff.toNat coff.toNat (s.atWork q) = (.ok (), s.atWork q) := tileForm_holds ha hf h1 h2 hr hc _
    have hall := readUntil_all (f := fun p : Nat × Int => readVal s.active false ⟨R, l⟩ p.2) (p := fun n => (n, walkIx R n)) hread
    unfold runAccWr
    rw [bind_ok hform]
    simp only [hsh, hcount.ne', if_false]
    rw [bind_ok hopen, bind_ok (check_true (by rw [readWalkOk, Bool.or_eq_true]; exact hw) ..), bind_ok (flush_near hl ..), bind_ok (translateAll_near hl ..),
      numbered_eq, bind_ok hall]
    simp only [zipIdx_map_upTo, List.foldl_map]
    rw [wordOk_zero]
    rfl
  obtain ⟨g, hg, hacc, hel⟩ := issue_tiles (r := q) hq he rfl rfl hcq hperf (CoreSt.tiled_mapEls ..)
  refine ⟨_, hi.trans hg, g, rfl, hacc, fun n r c hr' hc' => ?_⟩
  rw [hel, rdAcc_tileAt _ h2 hr hc _ hr' hc', rdAcc_enqueue (r := q) hq]

theorem exec_accWr (hw : shInjective R = true ∨ shOverlap R = true) : ∃ t, exec (.accWr h tk d a roff coff) s = .next t ∧
    Spec.tilesDone s t h tk.td 0x800000 (fun n r c => if n = d.toNat ∧ roff.toNat ≤ r ∧ r < roff.toNat + shE R 1 ∧ coff.toNat ≤ c ∧ c < coff.toNat + shE R 0
      then ⟨BitVec.ofNat 32 (toF32 (decodeFmt (shFmt R) false (Spec.tensorNat s l R ((r - roff.toNat) * shE R 0 + (c - coff.toNat))))), 0, 0⟩
      else s.me.rdAcc n r c) :=
  accWr_done (add := false) hq he ha hf h1 h2 hr hc hin hb rfl (perform_loom rfl rfl _ _ · rfl rfl rfl) hw

theorem exec_accWrAdd (hw : shInjective R = true ∨ shOverlap R = true) : ∃ t, exec (.accWrAdd h tk d a roff coff) s = .next t ∧
    Spec.tilesDone s t h tk.td 0x800000 (fun n r c => if n = d.toNat ∧ roff.toNat ≤ r ∧ r < roff.toNat + shE R 1 ∧ coff.toNat ≤ c ∧ c < coff.toNat + shE R 0
      then { s.me.rdAcc n r c with h := BitVec.ofNat 32 (toF32 ((f32 (s.me.rdAcc n r c).h.toNat).add
        (decodeFmt (shFmt R) false (Spec.tensorNat s l R ((r - roff.toNat) * shE R 0 + (c - coff.toNat)))))) }
      else s.me.rdAcc n r c) :=
  accWr_done (add := true) hq he ha hf h1 h2 hr hc hin hb rfl (perform_loom rfl rfl _ _ · rfl rfl rfl) hw

end

end Sys2Proof.Machine

/-! PROOFS. Groups in plane form (R98 to R101): their bits, where they lie, and how they are read and written in the local windows. -/

namespace Sys2Proof.Machine

-- ### Numbers by their bits

theorem sum_upTo (n : Nat) (f : Nat → Nat) : ((upTo n).map f).foldl (· + ·) 0 = ∑ i ∈ Finset.range n, f i := by
  induction n with
  | zero => rfl
  | succ n ih => rw [upTo_succ, List.map_append, List.foldl_append, ih, Finset.sum_range_succ]; rfl

/-- The number whose bits below `n` are `B`. -/
def bitSum (n : Nat) (B : Nat → Bool) : Nat := ∑ i ∈ Finset.range n, if B i then 2 ^ i else 0

theorem bitSum_succ (n : Nat) (B : Nat → Bool) : bitSum (n + 1) B = bitSum n B + if B n then 2 ^ n else 0 := Finset.sum_range_succ ..

theorem bitSum_lt (n : Nat) (B : Nat → Bool) : bitSum n B < 2 ^ n := by
  induction n with
  | zero => exact Nat.one_pos
  | succ n ih =>
    rw [bitSum_succ, pow_succ]
    split <;> omega

theorem testBit_bitSum (n : Nat) (B : Nat → Bool) (i : Nat) : (bitSum n B).testBit i = (decide (i < n) && B i) := by
  induction n with
  | zero => simp [bitSum]
  | succ n ih =>
    rw [bitSum_succ]
    cases hB : B n with
    | false =>
      rw [if_neg Bool.false_ne_true, Nat.add_zero, ih]
      by_cases h : i = n
      · simp [h, hB]
      · simp [show i < n + 1 ↔ i < n by omega]
    | true =>
      rw [if_pos rfl, Nat.add_comm]
      rcases lt_trichotomy i n with h | h | h
      · rw [Nat.testBit_two_pow_add_gt h, ih]
        simp [h, h.trans n.lt_succ_self]
      · rw [h, Nat.testBit_two_pow_add_eq, Nat.testBit_lt_two_pow (bitSum_lt n B)]
        simp [hB]
      · have hlt : 2 ^ n + bitSum n B < 2 ^ i := by
          have h1 := bitSum_lt n B
          have h2 : 2 ^ (n + 1) ≤ 2 ^ i := Nat.pow_le_pow_right Nat.two_pos h
          rw [pow_succ] at h2
          omega
        rw [Nat.testBit_lt_two_pow hlt]
        simp [show ¬i < n + 1 by omega]

/-- Bits in rows of `g`. -/
theorem bitSum_rows (n g : Nat) (B : Nat → Bool) :
    bitSum (n * g) B = ∑ i ∈ Finset.range n, ∑ j ∈ Finset.range g, if B (g * i + j) then 2 ^ (g * i + j) else 0 := by
  induction n with
  | zero => simp [bitSum]
  | succ n ih =>
    rw [Finset.sum_range_succ, ← ih, Nat.succ_mul, bitSum, Finset.sum_range_add, Nat.mul_comm n g]
    rfl

theorem wrapInt_eq (n : Nat) (q : Int) : wrapInt n q = (BitVec.ofInt n q).toNat := (BitVec.toNat_ofInt ..).symm

/-- R98: bit `i` of element `j` of a group is bit `g * i + j` of its planes. -/
theorem planeBits_eq {n g : Nat} {q : List Int} (hq : q.length = g) :
    planeBits n g q = bitSum (n * g) fun m => (BitVec.ofInt n (q.getD (m % g) 0)).getLsbD (m / g) := by
  have hl : q.zipIdx = (upTo g).map fun j => (q.getD j 0, j) := by
    rw [← zipIdx_map_upTo]
    congr 1
    refine List.ext_getElem (by rw [List.length_map, length_upTo, hq]) fun i h1 h2 => ?_
    have hu : ∀ h, (upTo g)[i]'h = i := fun _ => List.getElem_range _
    rw [List.getElem_map, hu, List.getD_eq_getElem _ _ h1]
  unfold planeBits
  rw [hl, List.map_map]
  simp only [Function.comp_def, sum_upTo]
  rw [bitSum_rows, Finset.sum_comm]
  refine Finset.sum_congr rfl fun i hi => Finset.sum_congr rfl fun j hj => ?_
  have hj := Finset.mem_range.1 hj
  rw [Nat.mul_add_mod, Nat.mod_eq_of_lt hj, Nat.mul_add_div (by omega), Nat.div_eq_of_lt hj, Nat.add_zero, wrapInt_eq]
  rfl

theorem planeBits_lt {n g : Nat} {q : List Int} (hq : q.length = g) : planeBits n g q < 2 ^ (n * g) := by
  rw [planeBits_eq hq]
  exact bitSum_lt ..

theorem testBit_planeBits {n g i j : Nat} {q : List Int} (hq : q.length = g) (hi : i < n) (hj : j < g) :
    (planeBits n g q).testBit (g * i + j) = (BitVec.ofInt n (q.getD j 0)).getLsbD i := by
  have hlt : g * i + j < n * g := by
    have := Nat.mul_le_mul_left g (show i + 1 ≤ n from hi)
    rw [Nat.mul_succ, Nat.mul_comm g n] at this
    omega
  rw [planeBits_eq hq, testBit_bitSum, decide_eq_true hlt, Bool.true_and, Nat.mul_add_mod, Nat.mod_eq_of_lt hj, Nat.mul_add_div (by omega), Nat.div_eq_of_lt hj,
    Nat.add_zero]

/-- R98: the integer of an element whose bits stand in the planes. -/
theorem planeInt_eq {n g x k : Nat} {q : Int} (hn : 0 < n) (hlo : -2 ^ (n - 1) ≤ q) (hhi : q < 2 ^ (n - 1))
    (h : ∀ i < n, x.testBit (g * i + k) = (BitVec.ofInt n q).getLsbD i) : planeInt n g x k = q := by
  have hv : bitSum n (fun j => x.testBit (g * j + k)) = (BitVec.ofInt n q).toNat := by
    refine Nat.eq_of_testBit_eq fun i => ?_
    rw [testBit_bitSum]
    by_cases hi : i < n
    · rw [decide_eq_true hi, Bool.true_and, h i hi]
      rfl
    · rw [decide_eq_false hi, Bool.false_and]
      exact (BitVec.getLsbD_of_ge _ _ (by omega)).symm
  have hp : (2 : Int) ^ n = 2 * 2 ^ (n - 1) := by
    rw [← pow_succ']
    congr 1
    omega
  rw [planeInt, sum_upTo]
  change sextNat (bitSum n _) n = q
  rw [hv, ← toInt_ofNat _ _ hn.ne', BitVec.ofNat_toNat, BitVec.setWidth_eq, BitVec.toInt_ofInt]
  refine Int.bmod_eq_of_le_mul_two ?_ ?_ <;> push_cast <;> omega

-- ### Where a group lies (R99)

theorem planeN_pos (f : Nat) : 0 < planeN f := Nat.succ_pos _

theorem planeG_eq (f : Nat) : ∃ k, planeG f = 8 * k ∧ 0 < k := ⟨2 * 2 ^ (f / 16 % 4), by rw [planeG]; ring, by positivity⟩

theorem groupBytes_mul (f : Nat) : 8 * groupBytes f = planeN f * planeG f := by
  obtain ⟨k, hk, -⟩ := planeG_eq f
  rw [groupBytes, hk, show planeN f * (8 * k) = 8 * (planeN f * k) by ring, Nat.mul_div_cancel_left _ (by decide)]

theorem groupBytes_pos (f : Nat) : 0 < groupBytes f := by
  obtain ⟨k, hk, hpos⟩ := planeG_eq f
  have h := groupBytes_mul f
  have : 0 < planeN f * planeG f := Nat.mul_pos (planeN_pos f) (by omega)
  omega

theorem planeB_eq (f : Nat) : planeB f = 64 + 64 * groupBytes f := by
  rw [planeB, Nat.mul_assoc, ← groupBytes_mul]
  ring

/-- The plane block of a group begins at or after offset 0. -/
def blockIn (r : BitVec 512) (e : Int) : Prop := 0 ≤ (Spec.ofs (shPtr r) : Int) + e / 64 * planeB (shFmt r)

section
variable {r : BitVec 512} {e : Int}

theorem groupBlk_eq (h : blockIn r e) : (groupBlk r e : Int) = (Spec.ofs (shPtr r) : Int) + e / 64 * planeB (shFmt r) := by
  rw [groupBlk, ptrOffset_eq]
  exact Int.toNat_of_nonneg h

theorem groupPos_eq (e : Int) : (groupPos e : Int) = e % 64 := Int.toNat_of_nonneg (Int.emod_nonneg _ (by decide))

theorem groupPos_lt (e : Int) : groupPos e < 64 := by
  have h1 := groupPos_eq e
  have h2 := Int.emod_lt_of_pos e (show (0 : Int) < 64 by decide)
  omega

theorem scaleOff_eq (h : blockIn r e) : Spec.scaleOff r e = groupBlk r e + groupPos e := by
  have h1 := groupBlk_eq h
  have h2 := groupPos_eq e
  rw [planeB] at h1
  rw [Spec.scaleOff]
  omega

theorem planesOff_eq (h : blockIn r e) : Spec.planesOff r e = groupPlanes r e := by
  have h1 := groupBlk_eq h
  have h2 : e % 64 * (groupBytes (shFmt r) : Int) = ((groupPos e * groupBytes (shFmt r) : Nat) : Int) := by rw [← groupPos_eq]; push_cast; rfl
  rw [planeB] at h1
  rw [Spec.planesOff, groupPlanes]
  rw [groupBytes] at h2 ⊢
  omega

/-- The groups of a record in plane form whose span begins at or after offset 0. -/
theorem blockIn_walk (hp : isPlane (shFmt r) = true) (hc : 0 < shCount r) {lo hi : Nat} (hs : shSpan r = ((lo : Int), (hi : Int))) (n : Nat) :
    blockIn r (walkIx r n) := by
  obtain ⟨h1, -⟩ := walkIx_bounds hc n
  rw [shSpan_plane hp] at hs
  obtain ⟨hlo, -⟩ := Prod.mk.inj hs
  have hle := Int.mul_le_mul_of_nonneg_right (Int.ediv_le_ediv (show (0 : Int) < 64 by decide) h1) (Int.natCast_nonneg (planeB (shFmt r)))
  unfold blockIn
  omega

/-- The offsets that group `e` takes. -/
def groupHas (r : BitVec 512) (e : Int) (o : Nat) : Prop :=
  o = Spec.scaleOff r e ∨ Spec.planesOff r e ≤ o ∧ o < Spec.planesOff r e + groupBytes (shFmt r)

/-- The places of a block: its scale bytes and, after them, the planes of its groups. -/
theorem groupHas_block (h : blockIn r e) {o : Nat} (ho : groupHas r e o) : ∃ i, o = groupBlk r e + i ∧ i < planeB (shFmt r) ∧
    groupPos e = if i < 64 then i else (i - 64) / groupBytes (shFmt r) := by
  have hlt := groupPos_lt e
  have hb := planeB_eq (shFmt r)
  have hg := groupBytes_pos (shFmt r)
  rw [groupHas, scaleOff_eq h, planesOff_eq h, groupPlanes] at ho
  rcases ho with rfl | ⟨h1, h2⟩
  · exact ⟨groupPos e, rfl, by omega, by rw [if_pos hlt]⟩
  · have hm := Nat.mul_le_mul_right (groupBytes (shFmt r)) (show groupPos e + 1 ≤ 64 from hlt)
    rw [Nat.succ_mul] at hm
    refine ⟨o - groupBlk r e, by omega, by omega, ?_⟩
    rw [if_neg (by omega)]
    refine (Nat.div_eq_of_lt_le ?_ ?_).symm
    · omega
    · rw [Nat.succ_mul]
      omega

/-- Different groups take different places. -/
theorem groupHas_inj {e' : Int} (h : blockIn r e) (h' : blockIn r e') {o : Nat} (ho : groupHas r e o) (ho' : groupHas r e' o) : e = e' := by
  obtain ⟨i, hi, hlt, hpos⟩ := groupHas_block h ho
  obtain ⟨i', hi', hlt', hpos'⟩ := groupHas_block h' ho'
  have hb := groupBlk_eq h
  have hb' := groupBlk_eq h'
  have hq : e / 64 = e' / 64 := by
    rcases lt_trichotomy (e / 64) (e' / 64) with hl | he | hl
    · have := Int.mul_le_mul_of_nonneg_right (Int.add_one_le_of_lt hl) (Int.natCast_nonneg (planeB (shFmt r)))
      rw [Int.add_mul, Int.one_mul] at this
      omega
    · exact he
    · have := Int.mul_le_mul_of_nonneg_right (Int.add_one_le_of_lt hl) (Int.natCast_nonneg (planeB (shFmt r)))
      rw [Int.add_mul, Int.one_mul] at this
      omega
  rw [hq] at hb
  obtain rfl : i = i' := by omega
  have hr := groupPos_eq e
  have hr' := groupPos_eq e'
  rw [hpos, ← hpos', hr'] at hr
  omega

end

-- ### A group read

section
variable {s : State} {l : Loc} (hl : l.near) {r : BitVec 512} {e : Int} (h : blockIn r e)
include hl h

/-- R98: a group that stands in memory, read. -/
theorem readGroup_near (hb : s.lbad = []) {x : Group} (hx : Spec.groupIn s l r e x)
    (hq : ∀ q ∈ x.q, -2 ^ (planeN (shFmt r) - 1) ≤ q ∧ q < 2 ^ (planeN (shFmt r) - 1)) : readGroup s.active ⟨r, l⟩ e s = (.ok x, s) := by
  obtain ⟨hlen, hsb, hbit⟩ := hx
  rw [scaleOff_eq h] at hsb
  rw [planesOff_eq h] at hbit
  have hints : (upTo (planeG (shFmt r))).map (planeInt (planeN (shFmt r)) (planeG (shFmt r)) (Spec.winNat s l (groupPlanes r e) (groupBytes (shFmt r)))) =
      x.q := by
    refine List.ext_getElem (by rw [List.length_map, length_upTo, hlen]) fun k h1 h2 => ?_
    have hu : ∀ h, (upTo (planeG (shFmt r)))[k]'h = k := fun _ => List.getElem_range _
    obtain ⟨hlo, hhi⟩ := hq _ (List.getElem_mem h2)
    rw [List.getElem_map, hu]
    refine planeInt_eq (planeN_pos _) hlo hhi fun i hi => ?_
    rw [← List.getD_eq_getElem _ 0 h2]
    exact hbit i hi k (hlen ▸ h2)
  unfold readGroup readPlanes
  simp only [Nat.zero_mul, Nat.add_zero, Nat.sub_zero, Nat.mul_zero, pow_zero, Nat.mul_one]
  rw [bind_ok (readRun_near hl hb ..), bind_ok (readRun_near hl hb ..), leNat_readRun hl, leNat_readRun hl, hsb, hints]
  rfl

/-- R79, R100: the values of a group; a window has no tags. -/
theorem unpackGroup_near (hb : s.lbad = []) {x : Group} (hx : Spec.groupIn s l r e x)
    (hq : ∀ q ∈ x.q, -2 ^ (planeN (shFmt r) - 1) ≤ q ∧ q < 2 ^ (planeN (shFmt r) - 1)) :
    unpackGroup s.active ⟨r, l⟩ e s = (.ok (x.q.map (groupVal (planeN (shFmt r)) 0 x.e)), s) := by
  have hhead : ∀ c tagp blk, blockHead c ⟨r, l⟩ tagp blk s = (.ok (shFmt r, 0), s) := fun c tagp blk => (bind_ok (tagAt_near hl ..)).trans rfl
  have htags : ∀ c code offs, checkBlockTags c ⟨r, l⟩ code offs s = (.ok (), s) := fun c code offs => by
    induction offs with
    | nil => rfl
    | cons off offs ih => exact (bind_ok (tagAt_near hl ..)).trans ih
  unfold unpackGroup
  rw [bind_ok (hhead ..)]
  dsimp only
  rw [bind_ok (htags ..), bind_ok (readGroup_near hl h hb hx hq)]
  rfl

end

end Sys2Proof.Machine

/-! PROOFS. Groups written one after the other (R99), the groups of the rows of a tensor (R241), and two tensors paired (R76). -/

namespace Sys2Proof.Machine

-- ### The group of values (R101)

theorem length_toGroup (n : Nat) (xs : List (Val × Mode)) : (toGroup n xs).q.length = xs.length := by
  unfold toGroup
  split
  · exact List.length_map ..
  · split <;> exact List.length_map ..

theorem toGroup_e (n : Nat) (xs : List (Val × Mode)) : (toGroup n xs).e ≤ 255 := by
  unfold toGroup
  split
  · exact le_rfl
  · split
    · exact Nat.zero_le _
    · dsimp only
      omega

theorem length_operandGroup (s : State) (l : Loc) (r : BitVec 512) (g n : Nat) (md : Nat → Mode) (b m k : Nat) :
    (Spec.operandGroup s l r g n md b m k).q.length = g := by
  rw [Spec.operandGroup, length_toGroup, List.length_map, List.length_range]

-- ### Groups written

/-- The places that group `e` takes. -/
def groupAt (s : State) (l : Loc) (r : BitVec 512) (e : Int) (p : Nat) : Prop := ∃ o, groupHas r e o ∧ p = Spec.place s l 0 o

/-- Groups have been written at their indices; no other byte of a local memory has changed. -/
structure State.WroteGroups (s t : State) (l : Loc) (r : BitVec 512) (G : Nat → Group) (is : List Nat) : Prop where
  edits : s.Edits t
  new : ∀ i ∈ is, Spec.groupIn t l r (walkIx r i) (G i)
  old : ∀ l' p, (l' = l → ∀ i ∈ is, ¬groupAt s l r (walkIx r i) p) → Spec.spaceByte t l' p = Spec.spaceByte s l' p

theorem State.WroteRun.winNat {s t : State} {l : Loc} {off n x : Nat} (h : s.WroteRun t l (Spec.place s l 0 off) (natBytes n x)) :
    Spec.winNat t l off n = x % 256 ^ n := by
  rw [Spec.winNat, h.edits.place]
  refine leAt_natBytes fun i hi => ?_
  rw [h.byte, length_natBytes, if_pos ⟨rfl, by omega, by omega⟩, Nat.add_sub_cancel_left]

/-- A group reads alike where its bytes are as they were. -/
theorem groupIn_congr {s t : State} {l : Loc} {r : BitVec 512} {e : Int} {x : Group} (he : ∀ off, Spec.place t l 0 off = Spec.place s l 0 off)
    (h : ∀ p, groupAt s l r e p → Spec.spaceByte t l p = Spec.spaceByte s l p) (hx : Spec.groupIn s l r e x) : Spec.groupIn t l r e x := by
  have hw : ∀ off n, (∀ i < n, groupHas r e (off + i)) → Spec.winNat t l off n = Spec.winNat s l off n := fun off n hin => by
    rw [Spec.winNat, he]
    exact leAt_congr fun i hi => h _ ⟨off + i, hin i hi, (place_add ..).symm⟩
  obtain ⟨hlen, hsb, hbit⟩ := hx
  refine ⟨hlen, ?_, fun i hi j hj => ?_⟩
  · rw [hw _ _ fun i hi => .inl (by omega), hsb]
  · change (Spec.winNat t l _ (groupBytes (shFmt r))).testBit _ = _
    rw [hw _ _ fun i hi => .inr ⟨by omega, Nat.add_lt_add_left hi _⟩]
    exact hbit i hi j hj

section
variable {s : State} {l : Loc} (hl : l.near) {r : BitVec 512}
include hl

theorem writeGroup_near {e : Int} (h : blockIn r e) {x : Group} (hx : x.q.length = planeG (shFmt r)) (hxe : x.e ≤ 255) : ∃ t,
    writeGroup s.active ⟨r, l⟩ e x s = (.ok (), t) ∧ s.Edits t ∧ Spec.groupIn t l r e x ∧
      ∀ l' p, (l' = l → ¬groupAt s l r e p) → Spec.spaceByte t l' p = Spec.spaceByte s l' p := by
  obtain ⟨t, ht, hsb⟩ := writeRun_near (s := s) hl (shPtr r) (groupBlk r e + groupPos e) (natBytes 1 x.e)
  obtain ⟨u, hu, hps⟩ := writeRun_near (s := t) hl (shPtr r) (groupPlanes r e) (natBytes (groupBytes (shFmt r)) (planeBits (planeN (shFmt r)) (planeG (shFmt r)) x.q))
  have hlt : groupBlk r e + groupPos e < groupPlanes r e := by
    have := groupPos_lt e
    rw [groupPlanes]
    omega
  have hpl : Spec.place s l 0 (groupBlk r e + groupPos e) + 1 ≤ Spec.place s l 0 (groupPlanes r e) := place_le s l le_rfl hlt
  have hscale : Spec.winNat u l (groupBlk r e + groupPos e) 1 = Spec.winNat t l (groupBlk r e + groupPos e) 1 := by
    rw [Spec.winNat, hps.edits.place]
    refine leAt_congr fun i hi => ?_
    rw [hps.byte, hsb.edits.place, hsb.edits.place, if_neg (by omega)]
  refine ⟨u, ?_, hsb.edits.trans hps.edits, ⟨hx, ?_, fun i hi j hj => ?_⟩, fun l' p hp => ?_⟩
  · rw [hsb.edits.active] at hu
    unfold writeGroup
    simp only [tagged_near hl, Bool.false_eq_true, if_false]
    rw [bind_ok ht, bind_ok hu]
    rfl
  · rw [scaleOff_eq h, hscale, hsb.winNat]
    omega
  · have hb : planeBits (planeN (shFmt r)) (planeG (shFmt r)) x.q < 256 ^ groupBytes (shFmt r) := by
      rw [← pow_two_bits, groupBytes_mul]
      exact planeBits_lt hx
    have hw := hps.winNat
    rw [Nat.mod_eq_of_lt hb] at hw
    rw [planesOff_eq h, ← testBit_planeBits hx hi hj, ← hw]
    rfl
  · rw [hps.byte, hsb.byte, length_natBytes, length_natBytes, hsb.edits.place]
    have hout : ∀ o, l' = l → groupHas r e o → p ≠ Spec.place s l 0 o := fun o e1 ho e2 => hp e1 ⟨o, ho, e2⟩
    rw [if_neg, if_neg]
    · rintro ⟨e1, h1, h2⟩
      exact hout (groupBlk r e + groupPos e) e1 (.inl (scaleOff_eq h).symm) (by omega)
    · rintro ⟨e1, h1, h2⟩
      refine hout (groupPlanes r e + (p - Spec.place s l 0 (groupPlanes r e))) e1 (.inr ?_) (by rw [place_add]; omega)
      rw [planesOff_eq h]
      omega

theorem writeGroups_near (c : Nat) {G : Nat → Group} {is : List Nat} (hblk : ∀ i, blockIn r (walkIx r i))
    (hG : ∀ i, (G i).q.length = planeG (shFmt r) ∧ (G i).e ≤ 255) (hd : is.Pairwise fun i j => walkIx r i ≠ walkIx r j) (hc : s.active = c) : ∃ t,
    writeEach (fun p g => writeGroup c ⟨r, l⟩ p.2 g) (is.map fun i => (i, walkIx r i)) (is.map G) s = (.ok (), t) ∧ s.WroteGroups t l r G is := by
  induction is generalizing s with
  | nil => exact ⟨s, rfl, .refl s, fun _ h => absurd h List.not_mem_nil, fun _ _ _ => rfl⟩
  | cons i is ih =>
    obtain ⟨hi, hd⟩ := List.pairwise_cons.1 hd
    obtain ⟨t, ht, hed, hin, hold⟩ := writeGroup_near (s := s) hl (hblk i) (hG i).1 (hG i).2
    obtain ⟨u, hu, hrest⟩ := ih hd (hed.active.trans hc)
    have hat : ∀ e p, groupAt t l r e p = groupAt s l r e p := fun e p => by simp only [groupAt, hed.place]
    refine ⟨u, ?_, hed.trans hrest.edits, fun j hj => ?_, fun l' p hp => ?_⟩
    · rw [List.map_cons, List.map_cons, writeEach, ← hc, bind_ok ht, hc]
      exact hu
    · rcases List.mem_cons.1 hj with rfl | hj
      · refine groupIn_congr (hrest.edits.place l 0) (fun p hp => hrest.old l p fun _ j hj hp' => ?_) hin
        obtain ⟨o, ho, rfl⟩ := hp
        obtain ⟨o', ho', e⟩ := hp'
        have hoo : o = o' := by
          rw [← Nat.zero_add o, ← Nat.zero_add o', place_add, place_add] at e
          omega
        subst hoo
        exact hi j hj (groupHas_inj (hblk _) (hblk _) ho ho')
      · exact hrest.new j hj
    · rw [hrest.old l' p fun e j hj => by rw [hat]; exact hp e j (List.mem_cons_of_mem _ hj)]
      exact hold l' p fun e => hp e i (List.mem_cons_self ..)

end

-- ### The groups of the rows (R241)

theorem chunks_map_upTo {α : Type} {g : Nat} (hg : 0 < g) (k : Nat) {m : Nat} (hk : m ≤ k) (f : Nat → α) : chunks g k ((upTo m).map f) =
    (upTo ((m + g - 1) / g)).map fun i => (upTo (min g (m - g * i))).map fun j => f (g * i + j) := by
  induction k generalizing m f with
  | zero =>
    obtain rfl : m = 0 := by omega
    rw [Nat.zero_add, Nat.div_eq_of_lt (by omega)]
    rfl
  | succ k ih =>
    rcases Nat.eq_zero_or_pos m with rfl | hm
    · rw [Nat.zero_add, Nat.div_eq_of_lt (by omega)]
      rfl
    · have hne : ((upTo m).map f).isEmpty = false := by rw [List.isEmpty_eq_false_iff, ne_eq, ← List.length_eq_zero_iff, List.length_map, length_upTo]; omega
      have htake : ((upTo m).map f).take g = (upTo (min g m)).map f := by rw [← List.map_take, upTo, List.take_range, upTo]
      have hdrop : ((upTo m).map f).drop g = (upTo (m - g)).map fun j => f (g + j) := by
        rw [← List.map_drop, upTo, List.range_eq_range', List.drop_range', List.range'_eq_map_range, List.map_map, upTo]
        simp [Function.comp_def]
      have hdiv : (m + g - 1) / g = (m - g + g - 1) / g + 1 := by
        rcases Nat.lt_or_ge m g with h | h
        · rw [show m - g + g - 1 = g - 1 by omega, Nat.div_eq_of_lt (show g - 1 < g by omega), show m + g - 1 = (m - 1) + g by omega, Nat.add_div_right _ hg,
            Nat.div_eq_of_lt (by omega)]
        · rw [show m - g + g - 1 = m - 1 by omega, show m + g - 1 = (m - 1) + g by omega, Nat.add_div_right _ hg]
      have hup : ∀ n, upTo (n + 1) = 0 :: (upTo n).map Nat.succ := fun n => List.range_succ_eq_map
      rw [chunks, hne, if_neg Bool.false_ne_true, htake, hdrop, ih (by omega), hdiv, hup, List.map_cons, List.map_map]
      refine congrArg₂ _ (by simp) (List.map_congr_left fun i _ => ?_)
      have h1 : m - g * (i + 1) = m - g - g * i := by rw [Nat.mul_succ]; omega
      have h2 : ∀ j, g * (i + 1) + j = g + (g * i + j) := fun j => by rw [Nat.mul_succ]; omega
      simp only [Function.comp_def, Nat.succ_eq_add_one, h1, h2]

theorem chunks_flatten {α : Type} {g : Nat} (hg : 0 < g) (k : Nat) {xs : List α} (hk : xs.length ≤ k) : (chunks g k xs).flatten = xs := by
  induction k generalizing xs with
  | zero => exact (List.eq_nil_of_length_eq_zero (by omega)).symm
  | succ k ih =>
    cases xs with
    | nil => rfl
    | cons x xs =>
      rw [chunks, List.isEmpty_cons, if_neg Bool.false_ne_true, List.flatten_cons, ih, List.take_append_drop]
      rw [List.length_drop]
      omega

/-- The number of rows of a record. -/
def rowsOf (r : BitVec 512) : Nat := shE r 1 * shE r 2 * shE r 3 * shE r 4 * shE r 5

theorem shCount_rows (r : BitVec 512) : shCount r = rowsOf r * shE r 0 := by
  rw [shCount, rowsOf]
  ring

/-- The elements of group `k` of row `m`, with their numbers in the walk. -/
def rowPart (r : BitVec 512) (g m k : Nat) : List (Nat × Int) :=
  (upTo (min g (shE r 0 - g * k))).map fun j => (g * k + j + shE r 0 * m, walkIx r (g * k + j + shE r 0 * m))

theorem rowGroups_eq {r : BitVec 512} {g : Nat} (hg : 0 < g) (h0 : 0 < shE r 0) : rowGroups r g =
    (upTo (rowsOf r * ((shE r 0 + g - 1) / g))).map fun n => rowPart r g (n / ((shE r 0 + g - 1) / g)) (n % ((shE r 0 + g - 1) / g)) := by
  have hq : 0 < (shE r 0 + g - 1) / g := Nat.div_pos (by omega) hg
  have hrows : (rowsOf r * shE r 0 + shE r 0 - 1) / shE r 0 = rowsOf r := by
    rw [Nat.add_sub_assoc h0, Nat.mul_comm, Nat.mul_add_div h0, Nat.div_eq_of_lt (by omega), Nat.add_zero]
  have hrow : ∀ i ∈ upTo (rowsOf r), min (shE r 0) (rowsOf r * shE r 0 - shE r 0 * i) = shE r 0 := fun i hi => by
    have h := Nat.mul_le_mul_left (shE r 0) (show i + 1 ≤ rowsOf r from mem_upTo.1 hi)
    rw [Nat.mul_succ, Nat.mul_comm _ (rowsOf r)] at h
    omega
  rw [rowGroups, numbered_eq, shCount_rows, chunks_map_upTo h0 _ le_rfl, hrows, List.map_map, map_upTo_mul]
  refine congrArg _ (List.map_congr_left fun i hi => ?_)
  rw [Function.comp_apply, hrow i hi, List.length_map, length_upTo, chunks_map_upTo hg _ le_rfl]
  refine List.map_congr_left fun k hk => ?_
  have hk := mem_upTo.1 hk
  have h1 : (i * ((shE r 0 + g - 1) / g) + k) / ((shE r 0 + g - 1) / g) = i := by
    rw [Nat.mul_comm, Nat.mul_add_div hq, Nat.div_eq_of_lt hk, Nat.add_zero]
  have h2 : (i * ((shE r 0 + g - 1) / g) + k) % ((shE r 0 + g - 1) / g) = k := by rw [Nat.mul_add_mod_self_right, Nat.mod_eq_of_lt hk]
  have h3 : ∀ j, shE r 0 * i + (g * k + j) = g * k + j + shE r 0 * i := fun j => by omega
  simp only [h1, h2, h3, rowPart]

/-- The groups of the rows, one after the other, are the walk. -/
theorem rowGroups_flatten {r : BitVec 512} {g : Nat} (hg : 0 < g) (h0 : 0 < shE r 0) : (rowGroups r g).flatten = numbered r := by
  have hrow : (fun row : List (Nat × Int) => (chunks g row.length row).flatten) = id := funext fun row => chunks_flatten hg _ le_rfl
  have hlen : (numbered r).length = shCount r := by rw [numbered_eq, List.length_map, length_upTo]
  rw [rowGroups, List.flatten_flatten, List.map_map, Function.comp_def, hrow, List.map_id, chunks_flatten h0 _ hlen.le]

/-- R241: the group that the elements of a row come to. -/
theorem packGroup_near {s : State} {l : Loc} (hl : l.near) (hb : s.lbad = []) {r : BitVec 512} {b : Nat} (hr : WholeBytes r b) (f : Nat) {md md' : Nat → Mode}
    (hmd : ∀ i, md i = md' i) (m k : Nat) : packGroup s.active ⟨r, l⟩ f md (rowPart r (planeG f) m k) s =
      (.ok (Spec.operandGroup s l r (planeG f) (planeN f) md' 0 m k), s) := by
  have h8 : fmtWidth (shFmt r) / 8 = b := by rw [hr.width]; omega
  have hread : ∀ j ∈ upTo (min (planeG f) (shE r 0 - planeG f * k)), readVal s.active true ⟨r, l⟩ (walkIx r (planeG f * k + j + shE r 0 * m)) s =
      (.ok (decodeFmt (shFmt r) (shFmt r == 2) (Spec.tensorNat s l r (planeG f * k + j + shE r 0 * m))), s) := fun j _ => by
    rw [readVal_near hl hb hr, Bool.true_and, elemOff_walk, Spec.tensorNat, h8]
  have hall := readUntil_all (f := fun p : Nat × Int => readVal s.active true ⟨r, l⟩ p.2)
    (p := fun j => (planeG f * k + j + shE r 0 * m, walkIx r (planeG f * k + j + shE r 0 * m))) hread
  have hpad := map_padded (planeG f) (planeG f * k) (shE r 0) (fun j => (decodeFmt (shFmt r) (shFmt r == 2) (Spec.tensorNat s l r
    (planeG f * k + j + shE r 0 * m)), md' (planeG f * k + j + shE r 0 * m))) (Val.zero, Mode.rne)
  unfold packGroup
  rw [rowPart, bind_ok hall]
  dsimp only
  simp only [List.zip_map', List.map_map, Function.comp_def, List.length_map, length_upTo, hmd, hpad, Spec.operandGroup, Nat.mul_zero, Nat.add_zero]
  rfl

-- ### Two tensors paired (R76)

/-- All of a walk is read before anything is written. -/
theorem pairRuns_once {α β γ : Type} {n : Nat} {f : β → M α} {g : γ → α → M Unit} {xs : List β} {ys : List γ} {vs : List α} {s t : State} (hx : xs ≠ [])
    (hn : xs.length ≤ n) (hy : ys.length ≤ n) (hr : readUntil f xs s = (.ok (vs, none), s)) (hw : writeEach g ys vs s = (.ok (), t)) :
    pairRuns n f g xs.length xs ys s = (.ok (), t) := by
  have hend : ∀ k (zs : List γ), pairRuns n f g k [] zs t = (.ok (), t) := fun k zs => by cases k <;> rfl
  cases xs with
  | nil => exact absurd rfl hx
  | cons x xs =>
    rw [List.length_cons, pairRuns, List.take_of_length_le hn, List.take_of_length_le hy, List.drop_eq_nil_of_le hn]
    · exact (bind_ok hr).trans ((bind_ok hw).trans (hend ..))
    · exact List.cons_ne_nil x xs

/-- Spans of windows that meet. -/
theorem spans_of_meets {R D : BitVec 512} {lr ld : Loc} (hlr : lr.near) {c : Nat} {s : State} (h : (⟨R, lr⟩ : Tens).meets c ⟨D, ld⟩ s = true) :
    lr = ld ∧ (⟨R, lr⟩ : Tens).lo ≤ (⟨D, ld⟩ : Tens).hi ∧ (⟨D, ld⟩ : Tens).lo ≤ (⟨R, lr⟩ : Tens).hi := by
  rcases hlr with rfl | rfl | rfl <;> cases ld <;> simp [Tens.meets] at h ⊢ <;> exact h

/-- R76: a source whose span lies apart from the destination's is read ahead. -/
theorem ahead_apart {R D : BitVec 512} {lr ld : Loc} (hlr : lr.near) {lo hi lo' hi' : Nat} (hR : shSpan R = ((lo : Int), (hi : Int)))
    (hD : shSpan D = ((lo' : Int), (hi' : Int))) (h : Spec.apart D R ld lr) (c : Nat) (s : State) :
    (⟨R, lr⟩ : Tens).ahead c ⟨D, ld⟩ s = shCount R := by
  have hm : (⟨R, lr⟩ : Tens).meets c ⟨D, ld⟩ s = false := by
    refine Bool.eq_false_iff.2 fun hm => ?_
    obtain ⟨hl, h1, h2⟩ := spans_of_meets hlr hm
    rw [Spec.apart, hR, hD] at h
    rw [Tens.lo, Tens.hi, hR, hD] at h1 h2
    simp only [Int.toNat_natCast] at h1 h2
    rcases h with h | h | h
    · exact h hl.symm
    · exact absurd (Int.ofNat_lt.1 h) (by omega)
    · exact absurd (Int.ofNat_lt.1 h) (by omega)
  rw [Tens.ahead, hm, if_neg Bool.false_ne_true]

theorem pairOver_near {α β γ : Type} {c : Nat} {R D : BitVec 512} {lr ld : Loc} {f : β → M α} {g : γ → α → M Unit} {xs : List β} {ys : List γ} {vs : List α}
    {s t : State} (ha : (⟨R, lr⟩ : Tens).ahead c ⟨D, ld⟩ s = shCount R) (hx : 0 < xs.length) (hn : xs.length ≤ shCount R) (hy : ys.length ≤ shCount R)
    (hr : readUntil f xs s = (.ok (vs, none), s)) (hw : writeEach g ys vs s = (.ok (), t)) : pairOver c ⟨R, lr⟩ ⟨D, ld⟩ f g xs ys s = (.ok (), t) := by
  have h := pairRuns_once (List.ne_nil_of_length_pos hx) hn hy hr hw
  rw [← ha] at h
  exact h

/-- Lists written one after the other, of each of which as many values stand as it has elements, or more. -/
theorem writeEach_flatten {α β ι : Type} {g : β → α → M Unit} {E : ι → List β} {V : ι → List α} {v : β → α} {is : List ι}
    (h : ∀ i ∈ is, ∃ rest, V i = (E i).map v ++ rest) :
    writeEach (fun es vs => writeEach g es vs) (is.map E) (is.map V) = writeEach g (is.map E).flatten ((is.map E).flatten.map v) := by
  have hap : ∀ (es fs : List β) (ws : List α), writeEach g (es ++ fs) (es.map v ++ ws) = (writeEach g es (es.map v) >>= fun _ => writeEach g fs ws) := by
    intro es fs ws
    induction es with
    | nil => rfl
    | cons e es ih => simp only [List.cons_append, List.map_cons, writeEach, ih, bind_assoc]
  have hcut : ∀ (es : List β) (ws : List α), writeEach g es (es.map v ++ ws) = writeEach g es (es.map v) := by
    intro es ws
    induction es with
    | nil => cases ws <;> rfl
    | cons e es ih => simp only [List.cons_append, List.map_cons, writeEach, ih]
  induction is with
  | nil => rfl
  | cons i is ih =>
    obtain ⟨⟨rest, hi⟩, h⟩ := List.forall_mem_cons.1 h
    simp only [List.map_cons, writeEach, ih h, hi, hcut, List.flatten_cons, List.map_append, hap]

end Sys2Proof.Machine

/-! PROOFS. `PLANE.PACK` and `PLANE.UNPK` between two windows (R241). -/

namespace Sys2Proof.Machine

/-- Records of numbers in whole bytes. -/
theorem wholeBytes_numeric {r : BitVec 512} (h1 : 1 ≤ shFmt r) (h9 : shFmt r ≤ 9) (hb : shBitoff r = 0) : WholeBytes r (fmtWidth (shFmt r) / 8) := by
  have h : 0 < fmtWidth (shFmt r) ∧ fmtWidth (shFmt r) % 8 = 0 := by
    generalize shFmt r = f at h1 h9
    interval_cases f <;> decide
  exact .of h.1 h.2 hb

theorem planeG_pos (f : Nat) : 0 < planeG f := Nat.mul_pos (by decide) (Nat.two_pow_pos _)

/-- What `PLANE.PACK` and `PLANE.UNPK` ask of the queues. -/
def planeReq (i : Instr) (h : Hdr) (tk : Toks) (rnd : Rnd) (d a : HReg) : Req := mqReq i h tk rnd.srcs [d, a] true

section
variable {D R : BitVec 512} {ld lr : Loc} {s : State}

/-- R228, R238: source and destination open, each in its window. -/
theorem openPlane_near {e : Entry} (hD : (e.hd 0).shape = D) (hR : (e.hd 1).shape = R) (hsD : Spec.spanIn s D ld) (hsR : Spec.spanIn s R lr)
    (hfD : isPlane (shFmt D) = true ∨ ∃ b, WholeBytes D b) (hfR : isPlane (shFmt R) = true ∨ ∃ b, WholeBytes R b) (hiD : shInjective D = true)
    (hiR : shInjective R = true ∨ shOverlap R = true) : openPlane s.active e s = (.ok (⟨R, lr⟩, ⟨D, ld⟩), s) := by
  have hc : (readWalkOk R && shInjective D) = true := by rw [hiD, Bool.and_true, readWalkOk, Bool.or_eq_true]; exact hiR
  unfold openPlane
  simp only [hD, hR]
  rw [bind_ok (tensor_near hsR hfR ..), bind_ok (tensor_near hsD hfD ..), bind_ok (check_true hc ..), bind_ok (openCopy_near (spanIn_near hsR) (spanIn_near hsD) _)]
  rfl

/-- Records whose spans may be reached have elements. -/
theorem notEmpty_spans (hsD : Spec.spanIn s D ld) (hsR : Spec.spanIn s R lr) : (decide (shCount R = 0) || decide (shCount D = 0)) = false := by
  rw [decide_eq_false hsR.2.2.1.ne', decide_eq_false hsD.2.2.1.ne', Bool.or_false]

theorem packOuter_of (hrank : shRank D = shRank R) (hout : ∀ k, 1 ≤ k → k < 6 → shE D k = shE R k) : packOuter D R = true := by
  rw [packOuter, Bool.and_eq_true, beq_iff_eq, List.all_eq_true]
  exact ⟨hrank, fun k hk => beq_iff_eq.2 (hout (k + 1) (by omega) (by have := mem_upTo.1 hk; omega))⟩

theorem rowsOf_eq (hout : ∀ k, 1 ≤ k → k < 6 → shE D k = shE R k) : rowsOf D = rowsOf R := by
  rw [rowsOf, rowsOf, hout 1 (by decide) (by decide), hout 2 (by decide) (by decide), hout 3 (by decide) (by decide), hout 4 (by decide) (by decide),
    hout 5 (by decide) (by decide)]

/-- A row has at most as many groups as elements. -/
theorem groups_le {n g : Nat} (hn : 0 < n) (hg : 0 < g) : (n + g - 1) / g ≤ n := by
  obtain ⟨a, rfl⟩ : ∃ a, n = a + 1 := ⟨n - 1, by omega⟩
  obtain ⟨b, rfl⟩ : ∃ b, g = b + 1 := ⟨g - 1, by omega⟩
  refine Nat.div_le_of_le_mul ?_
  rw [show (b + 1) * (a + 1) = b * a + (a + b + 1) by ring]
  omega

theorem groups_eq {n k g : Nat} (hg : 0 < g) (h1 : (k - 1) * g < n) (h2 : n ≤ k * g) : (n + g - 1) / g = k := by
  have hk : 0 < k := Nat.pos_of_ne_zero fun e => by rw [e] at h1 h2; omega
  obtain ⟨j, rfl⟩ : ∃ j, k = j + 1 := ⟨k - 1, by omega⟩
  rw [Nat.add_sub_cancel] at h1
  rw [Nat.succ_mul] at h2
  refine Nat.div_eq_of_lt_le ?_ ?_
  · rw [Nat.succ_mul]; omega
  · rw [Nat.succ_mul, Nat.succ_mul]; omega

end

/-- R100, R241: the value of element `n` of a tensor that is unpacked, from the groups of the source. -/
def unpacked (D R : BitVec 512) (G : Nat → Group) (n : Nat) : Val :=
  let x := G (n / shE D 0 * shE R 0 + n % shE D 0 / planeG (shFmt R))
  groupVal (planeN (shFmt R)) 0 x.e (x.q.getD (n % shE D 0 % planeG (shFmt R)) 0)

/-- The elements of a part of a row take the first values of its group. -/
theorem values_rowPart {D R : BitVec 512} {G : Nat → Group} {n : Nat} (hlen : (G n).q.length = planeG (shFmt R)) (hg : 0 < planeG (shFmt R)) (h0 : 0 < shE D 0) :
    ∃ rest, (G n).q.map (groupVal (planeN (shFmt R)) 0 (G n).e) =
      (rowPart D (planeG (shFmt R)) (n / shE R 0) (n % shE R 0)).map (fun p => unpacked D R G p.1) ++ rest := by
  generalize hm : min (planeG (shFmt R)) (shE D 0 - planeG (shFmt R) * (n % shE R 0)) = m
  refine ⟨((G n).q.map (groupVal (planeN (shFmt R)) 0 (G n).e)).drop m, ?_⟩
  conv_lhs => rw [← List.take_append_drop m ((G n).q.map (groupVal (planeN (shFmt R)) 0 (G n).e))]
  congr 1
  rw [rowPart, List.map_map, hm]
  refine List.ext_getElem (by rw [List.length_take, List.length_map, List.length_map, length_upTo]; omega) fun j h1 h2 => ?_
  rw [List.length_map, length_upTo] at h2
  have hu : ∀ h, (upTo m)[j]'h = j := fun _ => List.getElem_range _
  have hi : (planeG (shFmt R) * (n % shE R 0) + j + shE D 0 * (n / shE R 0)) % shE D 0 = planeG (shFmt R) * (n % shE R 0) + j := by
    rw [Nat.add_mul_mod_self_left, Nat.mod_eq_of_lt (by omega)]
  have hrow : (planeG (shFmt R) * (n % shE R 0) + j + shE D 0 * (n / shE R 0)) / shE D 0 = n / shE R 0 := by
    rw [Nat.add_mul_div_left _ _ h0, Nat.div_eq_of_lt (by omega), Nat.zero_add]
  have hk : (planeG (shFmt R) * (n % shE R 0) + j) / planeG (shFmt R) = n % shE R 0 := by
    rw [Nat.mul_add_div hg, Nat.div_eq_of_lt (by omega), Nat.add_zero]
  have hj : (planeG (shFmt R) * (n % shE R 0) + j) % planeG (shFmt R) = j := by rw [Nat.mul_add_mod, Nat.mod_eq_of_lt (by omega)]
  have hn : n / shE R 0 * shE R 0 + n % shE R 0 = n := by rw [Nat.mul_comm]; exact Nat.div_add_mod ..
  have hjq : j < (G n).q.length := by omega
  rw [List.getElem_take, List.getElem_map, List.getElem_map, hu]
  simp only [Function.comp_apply, unpacked, hi, hrow, hk, hj, hn, List.getD_eq_getElem _ _ hjq]

section
variable {h : Hdr} {tk : Toks} {d a : HReg} {rnd : Rnd} {D R : BitVec 512} {ld lr : Loc} {s : State} (hq : s.Quiet h) (he : s.eager = true) (hb : s.lbad = [])
  (hd : Spec.holds s.me d D) (ha : Spec.holds s.me a R) (hsD : Spec.spanIn s D ld) (hsR : Spec.spanIn s R lr) (hap : Spec.apart D R ld lr)
  (hout : ∀ k, 1 ≤ k → k < 6 → shE D k = shE R k) (hiD : shInjective D = true) (hiR : shInjective R = true ∨ shOverlap R = true)
include hd ha

theorem goodHandles_pair (u : State) : goodHandles [s.me.rdH d, s.me.rdH a] u = (.ok (), u) :=
  check_true (by simp [(good_of_holds hd).1, (good_of_holds ha).1]) ..

/-- The handles of a word of two tensors as its work finds them. -/
theorem handles_started {q : Req} (hhs : q.hnds = [d, a]) : (q.started s).hs = [s.me.rdH d, s.me.rdH a] ∧ ((q.started s).hd 0).shape = D ∧
    ((q.started s).hd 1).shape = R := by
  have hs : (q.started s).hs = [s.me.rdH d, s.me.rdH a] := by
    change q.hnds.map s.me.rdH = _
    rw [hhs]
    rfl
  rw [Entry.hd, Entry.hd, hs]
  exact ⟨rfl, (good_of_holds hd).2, (good_of_holds ha).2⟩

include hiD hiR

/-- The work of `PLANE.PACK`, of records that pass their checks. -/
theorem runPlanePack_open {q : Req} {u t : State} {c : Nat} (hc : u.active = c) (hhs : q.hnds = [d, a]) (hsD : Spec.spanIn u D ld) (hsR : Spec.spanIn u R lr)
    (hform : planePackForm D R = true) (hfD : isPlane (shFmt D) = true ∨ ∃ b, WholeBytes D b) (hfR : isPlane (shFmt R) = true ∨ ∃ b, WholeBytes R b)
    (hpair : pairOver c ⟨R, lr⟩ ⟨D, ld⟩ (packGroup c ⟨R, lr⟩ (shFmt D) ((q.started s).mode rnd)) (fun p g => writeGroup c ⟨D, ld⟩ p.2 g)
      (rowGroups R (planeG (shFmt D))) (numbered D) u = (.ok (), t)) : runPlanePack rnd c (q.started s) u = (.ok (.done [] 0x800000), t) := by
  subst hc
  obtain ⟨hhs, hD, hR⟩ := handles_started hd ha hhs
  have hz := notEmpty_spans hsD hsR
  have hopen := openPlane_near hD hR hsD hsR hfD hfR hiD hiR
  unfold runPlanePack
  rw [hhs, bind_ok (goodHandles_pair hd ha u)]
  simp only [hD, hR, hz, Bool.false_eq_true, if_false]
  rw [bind_ok (check_true hform ..), bind_ok hopen]
  dsimp only
  rw [bind_ok hpair, wordOk_zero]
  rfl

/-- The work of `PLANE.UNPK`, of records that pass their checks. -/
theorem runPlaneUnpk_open {q : Req} {u t : State} {c : Nat} (hc : u.active = c) (hhs : q.hnds = [d, a]) (hsD : Spec.spanIn u D ld) (hsR : Spec.spanIn u R lr)
    (hform : planeUnpkForm D R = true) (hfD : isPlane (shFmt D) = true ∨ ∃ b, WholeBytes D b) (hfR : isPlane (shFmt R) = true ∨ ∃ b, WholeBytes R b)
    (hpair : pairOver c ⟨R, lr⟩ ⟨D, ld⟩ (unpackGroup c ⟨R, lr⟩) (fun es vs =>
        writeEach (fun p v => writeVal c ⟨D, ld⟩ p.2 0 (roundFmt (shFmt D) false ((q.started s).mode rnd p.1) v)) es vs)
      (walkOffs R) (rowGroups D (planeG (shFmt R))) u = (.ok (), t)) : runPlaneUnpk rnd c (q.started s) u = (.ok (.done [] 0x800000), t) := by
  subst hc
  obtain ⟨hhs, hD, hR⟩ := handles_started hd ha hhs
  have hz := notEmpty_spans hsD hsR
  have hopen := openPlane_near hD hR hsD hsR hfD hfR hiD hiR
  unfold runPlaneUnpk
  rw [hhs, bind_ok (goodHandles_pair hd ha u)]
  simp only [hD, hR, hz, Bool.false_eq_true, if_false]
  rw [bind_ok (check_true hform ..), bind_ok hopen]
  dsimp only
  rw [bind_ok hpair, wordOk_zero]
  rfl

include hq he hb hsD hsR hap hout

/-- R241: `PLANE.PACK`. -/
theorem exec_planePack (hrank : shRank D = shRank R) (hbR : shBitoff R = 0) (hpD : isPlane (shFmt D) = true) (hf1 : 1 ≤ shFmt R) (hf9 : shFmt R ≤ 9)
    (h0 : shE D 0 = (shE R 0 + planeG (shFmt D) - 1) / planeG (shFmt D)) (hne : ∀ n < shCount D, ∀ m < n, walkIx D m ≠ walkIx D n) : ∃ t,
    exec (.planePack h tk d a rnd) s = .next t ∧ Spec.wroteLocal s t s.me (fun g => g.finished h [.mq] [] tk.td 0x800000) ∧
      (∀ n < shCount D, Spec.groupIn t ld D (walkIx D n)
        (Spec.operandGroup s lr R (planeG (shFmt D)) (planeN (shFmt D)) (Spec.modeOf s.me rnd) 0 (n / shE D 0) (n % shE D 0))) ∧
      ∀ l' p, (l' = ld → ∀ n < shCount D, ¬groupAt s ld D (walkIx D n) p) → Spec.spaceByte t l' p = Spec.spaceByte s l' p := by
  let q := planeReq (.planePack h tk d a rnd) h tk rnd d a
  have hcq : q.qs.contains .cq = false := rfl
  have hact := State.active_atWork (s := s) hcq
  have hlb := (State.lbad_atWork (s := s) hcq).trans hb
  have hyR := wholeBytes_numeric hf1 hf9 hbR
  have hg := planeG_pos (shFmt D)
  obtain ⟨-, -, hcD, lo, hi, hspD, -⟩ := id hsD
  obtain ⟨-, -, hcR, lo', hi', hspR, -⟩ := id hsR
  have hE0 := (extents_pos hcR).1
  have hform : planePackForm D R = true := by
    rw [planePackForm, hpD, loomFmt, decide_eq_true hf1, decide_eq_true hf9, packOuter_of hrank hout, h0]
    simp
  have hrows : rowGroups R (planeG (shFmt D)) = (upTo (shCount D)).map fun n => rowPart R (planeG (shFmt D)) (n / shE D 0) (n % shE D 0) := by
    rw [rowGroups_eq hg hE0, ← h0, shCount_rows D, rowsOf_eq hout]
  have hlen : shCount D ≤ shCount R := by
    rw [shCount_rows, shCount_rows, rowsOf_eq hout, h0]
    exact Nat.mul_le_mul_left _ (groups_le hE0 hg)
  let G := fun n => Spec.operandGroup s lr R (planeG (shFmt D)) (planeN (shFmt D)) (Spec.modeOf s.me rnd) 0 (n / shE D 0) (n % shE D 0)
  have hread : readUntil (packGroup s.active ⟨R, lr⟩ (shFmt D) ((q.started s).mode rnd)) (rowGroups R (planeG (shFmt D))) (s.atWork q) =
      (.ok ((upTo (shCount D)).map G, none), s.atWork q) := by
    rw [hrows]
    refine readUntil_all (f := packGroup s.active ⟨R, lr⟩ (shFmt D) ((q.started s).mode rnd)) fun n _ => ?_
    rw [← hact, packGroup_near (spanIn_near hsR) hlb hyR _ (fun i => mode_started (q := q) rnd rfl rfl i), operandGroup_atWork hcq hq]
  obtain ⟨t, hwr, hgr⟩ := writeGroups_near (s := s.atWork q) (spanIn_near hsD) s.active (G := G) (is := upTo (shCount D)) (blockIn_walk hpD hcD hspD)
    (fun i => ⟨length_operandGroup .., toGroup_e ..⟩) (List.pairwise_lt_range.imp_of_mem fun {i j} _ hj hij => hne j (mem_upTo.1 hj) i hij) hact
  rw [← numbered_eq] at hwr
  have hpair := pairOver_near (ahead_apart (spanIn_near hsR) hspR hspD hap s.active (s.atWork q)) (by rw [hrows, List.length_map, length_upTo]; exact hcD)
    (by rw [hrows, List.length_map, length_upTo]; exact hlen) (by rw [numbered_eq, List.length_map, length_upTo]; exact hlen) hread hwr
  have hrun := runPlanePack_open (q := q) hd ha hiD hiR hact rfl (spanIn_atWork hcq hq hsD) (spanIn_atWork hcq hq hsR) hform (.inl hpD) (.inr ⟨_, hyR⟩) hpair
  obtain ⟨u, hu, hw, hsp⟩ := issue_writes (r := q) hq he rfl rfl ((perform_loom (p := runPlanePack rnd) rfl rfl _ _ _ rfl rfl rfl).trans hrun) hcq hgr.edits
  refine ⟨u, hu, hw, fun n hn => ?_, fun l' p hp => ?_⟩
  · refine groupIn_congr (fun off => ?_) (fun p _ => hsp ld p) (hgr.new n (mem_upTo.2 hn))
    rw [place_wroteLocal hw, hgr.edits.place, State.place_atWork hcq]
  · rw [hsp, hgr.old l' p fun e n hn => ?_]
    · exact State.spaceByte_atWork hcq hq l' p
    · simp only [groupAt, State.place_atWork hcq]
      exact hp e n (mem_upTo.1 hn)

/-- R241: `PLANE.UNPK`. -/
theorem exec_planeUnpk (hrank : shRank D = shRank R) (hbD : shBitoff D = 0) (hpR : isPlane (shFmt R) = true) (hfD : shFmt D ∈ [1, 2, 3])
    (hlt : (shE R 0 - 1) * planeG (shFmt R) < shE D 0) (hle : shE D 0 ≤ shE R 0 * planeG (shFmt R)) (hw : Spec.writable D) (G : Nat → Group)
    (hG : ∀ n < shCount R, Spec.groupIn s lr R (walkIx R n) (G n) ∧
      ∀ q ∈ (G n).q, -2 ^ (planeN (shFmt R) - 1) ≤ q ∧ q < 2 ^ (planeN (shFmt R) - 1)) : ∃ t, exec (.planeUnpk h tk d a rnd) s = .next t ∧
      Spec.tensorStored s t ld D (fun n => roundFmt (shFmt D) false (Spec.modeOf s.me rnd n) (unpacked D R G n)) s.me
        (fun g => g.finished h [.mq] [] tk.td 0x800000) := by
  let q := planeReq (.planeUnpk h tk d a rnd) h tk rnd d a
  have hcq : q.qs.contains .cq = false := rfl
  have hact := State.active_atWork (s := s) hcq
  have hlb := (State.lbad_atWork (s := s) hcq).trans hb
  have hf19 : 1 ≤ shFmt D ∧ shFmt D ≤ 9 ∧ (shFmt D == 1 || shFmt D == 2 || shFmt D == 3) = true := by
    generalize shFmt D = f at hfD
    simp only [List.mem_cons, List.not_mem_nil, or_false] at hfD
    rcases hfD with rfl | rfl | rfl <;> decide
  obtain ⟨hf1, hf9, hfs⟩ := hf19
  have hyD := wholeBytes_numeric hf1 hf9 hbD
  have hg := planeG_pos (shFmt R)
  obtain ⟨-, -, hcD, lo, hi, hspD, -⟩ := id hsD
  obtain ⟨-, -, hcR, lo', hi', hspR, -⟩ := id hsR
  have hE0 := (extents_pos hcD).1
  have hR0 := (extents_pos hcR).1
  have hout' : ∀ k, 1 ≤ k → k < 6 → shE R k = shE D k := fun k h1 h6 => (hout k h1 h6).symm
  have hform : planeUnpkForm D R = true := by
    have h1 : ((shE R 0 : Int) - 1) * planeG (shFmt R) < shE D 0 := by
      rw [← Nat.cast_pred hR0]
      exact_mod_cast hlt
    rw [planeUnpkForm, hpR, hfs, packOuter_of hrank.symm hout', decide_eq_true h1, decide_eq_true hle]
    rfl
  have hrows : rowGroups D (planeG (shFmt R)) = (upTo (shCount R)).map fun n => rowPart D (planeG (shFmt R)) (n / shE R 0) (n % shE R 0) := by
    rw [rowGroups_eq hg hE0, groups_eq hg hlt hle, shCount_rows R, rowsOf_eq hout]
  have hread : readUntil (unpackGroup s.active ⟨R, lr⟩) (walkOffs R) (s.atWork q) =
      (.ok ((upTo (shCount R)).map fun n => (G n).q.map (groupVal (planeN (shFmt R)) 0 (G n).e), none), s.atWork q) := by
    rw [walkOffs_eq]
    refine readUntil_all (f := unpackGroup s.active ⟨R, lr⟩) fun n hn => ?_
    obtain ⟨hin, hqs⟩ := hG n (mem_upTo.1 hn)
    rw [← hact]
    exact unpackGroup_near (spanIn_near hsR) (blockIn_walk hpR hcR hspR n) hlb
      (groupIn_congr (fun off => State.place_atWork hcq ..) (fun p _ => State.spaceByte_atWork hcq hq lr p) hin) hqs
  obtain ⟨t, hwr, hel⟩ := writeEach_near (s := s.atWork q) (spanIn_near hsD) hyD
    (g := fun p v => writeVal s.active ⟨D, ld⟩ p.2 0 (roundFmt (shFmt D) false ((q.started s).mode rnd p.1) v)) (v := unpacked D R G)
    (x := fun n => roundFmt (shFmt D) false (Spec.modeOf s.me rnd n) (unpacked D R G n)) s.active (fun n => by rw [mode_started (q := q) rnd rfl rfl])
    (writable_apart hyD hcD hspD hw) hact
  have hwr' := writeEach_flatten (g := fun (p : Nat × Int) v => writeVal s.active ⟨D, ld⟩ p.2 0 (roundFmt (shFmt D) false ((q.started s).mode rnd p.1) v))
    (v := fun p => unpacked D R G p.1) (is := upTo (shCount R)) fun n hn => values_rowPart (hG n (mem_upTo.1 hn)).1.1 hg hE0
  rw [← hrows, rowGroups_flatten hg hE0, numbered_eq, List.map_map] at hwr'
  have hlen : (rowGroups D (planeG (shFmt R))).length = shCount R := by rw [hrows, List.length_map, length_upTo]
  have hwalk : (walkOffs R).length = shCount R := by rw [walkOffs_eq, List.length_map, length_upTo]
  have hpair := pairOver_near (ahead_apart (spanIn_near hsR) hspR hspD hap s.active (s.atWork q)) (by rw [hwalk]; exact hcR) hwalk.le hlen.le hread
    ((congrFun hwr' _).trans hwr)
  have hrun := runPlaneUnpk_open (q := q) hd ha hiD hiR hact rfl (spanIn_atWork hcq hq hsD) (spanIn_atWork hcq hq hsR) hform (.inr ⟨_, hyD⟩) (.inl hpR) hpair
  simp only [State.place_atWork hcq] at hel
  obtain ⟨u, hu, hw, hnew, hold⟩ := issue_elements (r := q) hq he rfl rfl ((perform_loom (p := runPlaneUnpk rnd) rfl rfl _ _ _ rfl rfl rfl).trans hrun) hcq hel
  exact ⟨u, hu, tensorStored_of hw hnew hold⟩

end

end Sys2Proof.Machine

/-! PROOFS. `Obligations.TileWords`. -/

namespace Sys2Proof.Machine

/-- A place that is neither a group's scale byte nor among its planes. -/
theorem not_groupAt {s : State} {l : Loc} {r : BitVec 512} {e : Int} {p : Nat} (hs : p ≠ Spec.place s l 0 (Spec.scaleOff r e))
    (hp : p < Spec.place s l 0 (Spec.planesOff r e) ∨ Spec.place s l 0 (Spec.planesOff r e) + groupBytes (shFmt r) ≤ p) : ¬groupAt s l r e p := by
  rintro ⟨o, rfl | ⟨h1, h2⟩, rfl⟩
  · exact hs rfl
  · obtain ⟨i, rfl⟩ := Nat.exists_eq_add_of_le h1
    rw [place_add] at hp
    omega

/-- Settles O43: the words of tiles change the elements of a list of places that differ; products read their groups and change nothing else; transfers and
plane words read a tensor of a window element by element, and write one at places that lie apart. -/
theorem tileWords : Obligations.TileWords := by
  unfold Obligations.TileWords
  refine ⟨?fill, ?rows, ?products, ?groups, ?transfers, ?planes⟩
  case fill => exact fun h tk d b s hq he => ⟨exec_accInit hq he, exec_accFlush hq he⟩
  case rows =>
    exact fun h tk o v d b n s hq he => ⟨fun hrow => ⟨exec_trd hq he hrow, exec_twr hq he hrow⟩,
      fun c e u hout => ⟨runTrd_bounds o v d n c e u hout, runTwr_bounds o v d n c e u hout⟩⟩
  case products =>
    intro h tk sl a b A B la lb s hq he hb hA hB x g md ga gb word hw
    refine ⟨fun hn hoA hoB hna hnb => ⟨fun hrA1 hrA hrB1 hrB hr hc => ?_, fun hrA hrB h8 h4 h2 h16 hr hc => ?_⟩, fun hA1 hA9 hB1 hB9 hrA1 hrA hrB1 hrB hr hc hz => ?_⟩
    · exact exec_mmRun rfl hq he hA hB hb hw hn hoA hoB hna hnb hrA hrB (rankOk_of hrA1 hrA) (rankOk_of hrB1 hrB) hr hc
    · exact exec_mmBatch rfl hq he hA hB hb hw hn hoA hoB hna hnb hrA hrB h8 h4 h2 h16 hr hc
    · exact exec_mmRun_empty rfl hq he hA hB ⟨hA1, hA9⟩ ⟨hB1, hB9⟩ (rankOk_of hrA1 hrA) (rankOk_of hrB1 hrB) hr hc hz
  case groups => exact fun c e sl s s1 s2 ta tb gs haux hform hA hB h2 hopen hgs hna hnb => runProduct_read haux hform hA hB h2 hopen hgs hna hnb
  case transfers =>
    intro h tk d a rnd roff coff R l s hq he hb ha hf h1 h2 hr hc
    refine ⟨fun hz => ⟨exec_accRd_empty hq he ha hf h1 h2 hr hc hz, exec_accWr_empty hq he ha hf h1 h2 hr hc hz⟩, fun hin => ⟨fun hw => ?_, fun hw => ⟨?_, ?_⟩⟩⟩
    · exact exec_accRd hq he ha hf h1 h2 hr hc hin hw
    · exact exec_accWr hq he ha hf h1 h2 hr hc hin hb hw
    · exact exec_accWrAdd hq he ha hf h1 h2 hr hc hin hb hw
  case planes =>
    intro h tk d a rnd D R ld lr s hq he hb hd ha hsD hsR hbD hbR hap hrank hout hiD hiR
    refine ⟨fun hpD hf1 hf9 h0 hne => ?_, fun hpR hfD hlt hle hw G hG => ?_⟩
    · obtain ⟨t, ht, hwr, hnew, hold⟩ := exec_planePack hq he hb hd ha hsD hsR hap hout hiD hiR hrank hbR hpD hf1 hf9 h0 hne
      exact ⟨t, ht, hwr, hnew, fun l' p hp => hold l' p fun e n hn => not_groupAt (hp e n hn).1 (hp e n hn).2⟩
    · exact exec_planeUnpk hq he hb hd ha hsD hsR hap hout hiD hiR hrank hbD hpR hfD hlt hle hw G hG

end Sys2Proof.Machine
